-- ==== Sys2Proof/Word.lean ====
section
/-! DEFINITION. The word types of the FC-62: byte, 16-bit halfword (the width of page memory, 00_scope 2.3) and 32-bit
word (two halfwords). -/

namespace Sys2Proof

/-- A byte of page memory or of a cell. -/
abbrev Byte := BitVec 8

/-- A halfword: the unit page memory is accessed in (00_scope 2.3). -/
abbrev Half := BitVec 16

/-- A 32-bit word: 32 pels of a line, or a wide field of a cell. -/
abbrev Word := BitVec 32

end Sys2Proof
end

