-- ==== Sys2Proof/Config.lean ====
section
/-! DEFINITION. What the spec leaves open: free values (opaque, so that nothing proves a value of them), and the fixed numbers
of the part. The board's own parameters come from the configuration record and are state (`Machine.BoardConfig`). -/

namespace Sys2Proof.Config

/-- FREE VALUE (log entry 2). What the byte at an address holds after a cold start cut the write burst that was
storing to it: "may leave its halfwords partly written" (R122, R174). The first argument is `State.freeCount`. -/
opaque cutWriteByte : Nat → Nat → Byte

/-- R159, R162: the marker halfword of the serial ROM. -/
def romMarker : Half := 0xB62C

/-- R162: one past the last byte address of the serial ROM. -/
def romEnd : Nat := 0x1000000

/-- R161: the read instruction byte of the serial ROM. -/
def romReadInstruction : Byte := 0x03

/-- R168: the halfwords the load area holds. -/
def loadAreaLength : Nat := 2048

/-- R162, R169: the largest data length of a record in halfwords. -/
def maxRecordLength : Nat := 524288

/-- R169: the byte address an image record may not pass. -/
def imageLimit : Nat := 0x100000

/-- R56: the most tags the look-ahead window holds. -/
def windowLength : Nat := 32

/-- R126: where an entry's passed-over count saturates and the entry is aged. -/
def agedCount : Nat := 32

/-- R132: the refreshes of a refresh burst. -/
def burstRefreshes : Nat := 8

/-- R119: the most halfwords of one burst. -/
def burstLength : Nat := 16

/-- R119: the most halfwords of one transfer of a part block. -/
def transferLength : Nat := 2048

/-- R62: the fewest dots of an effective budget, the dots of one strobe block. -/
def blockDots : Nat := 256

/-- R141: the crystal cycles the settle counter counts. -/
def settleCycles : Nat := 4096

end Sys2Proof.Config
end

