-- ==== Sys2Proof/Syntax.lean ====
section
/-! DEFINITION. The commands of the FC-62: one constructor of `Instr` per row of spec/opcode_table.json, with the operands
the row needs from outside the part. A host command carries the fields of its command cell (10.5) as the cell holds them, so a
value outside a range reaches the command's own checks (R194). An event carries what the environment decides: a bus cycle, a
sample, a raw conversion, the bytes the serial ROM drives (none where no device drives Data in), which pin, which channel. -/

namespace Sys2Proof

/-- The two motor channels (10.2, channel). -/
inductive Chan where
  | doc | paper
  deriving DecidableEq, Repr

/-- The two debounced line inputs (10.2, input). -/
inductive InputLine where
  | hook | key
  deriving DecidableEq, Repr

/-- The direction of a memory transfer (6.2). -/
inductive Dir where
  | read | write
  deriving DecidableEq, Repr

/-- A line ring's id, 0 to 3 (R1). -/
abbrev RingId := Fin 4

/-- One command of the block: one row of spec/opcode_table.json. -/
inductive Instr where
  -- host commands (R181, 10.5)
  | loadTable (tag table : Byte) (length : Half) (source : Word)
  | setRing (tag ring producer consumer : Byte) (slots words : Half) (base : Word)
  | startScan (tag ring : Byte) (mode start k profile : BitVec 4) (theta skip trailing : Byte)
      (width pageLimit feedLimit : Half) (stopMargin restartMargin : Byte)
  | startScanCal (tag : Byte) (lamp : Bool) (lines : Byte) (width interval : Half) (destination : Word)
  | stopScan (tag : Byte)
  | startPrint (tag ring k profile threshold : Byte) (headWidth shift budget trailing : Half)
  | stopPrint (tag : Byte)
  | pausePrint (tag : Byte)
  | resumePrint (tag : Byte)
  | linkRings (tag source destination : Byte) (keep : Half)
  | unlink (tag : Byte)
  | moveMotor (tag channel direction profile : Byte) (steps : Half)
  | holdMotor (tag channel : Byte)
  | releaseMotor (tag channel : Byte)
  | setPower (tag target : Byte) (snapBack : Bool) (ratio wakeTimer : Half)
  | switchClock (tag target : Byte)
  | stopAll (tag : Byte)
  | reboot (tag : Byte)
  | unknownCommand (tag code : Byte)
  -- command taking and arrivals (R136, R178, R179)
  | commandTakeStart
  | commandPutWrite (value : Half)
  | responseTakeWrite (value : Half)
  | summaryWordWrite (value : Half)
  | lineRingPutWrite (ring : RingId) (value : Half)
  | lineRingTakeWrite (ring : RingId) (value : Half)
  | controlBlockWrite (offset : Byte) (value : Half)
  -- the host bus (R135)
  | hostRead (address : BitVec 22)
  | hostWrite (address : BitVec 22) (data : Half) (lowEnable highEnable : Bool)
  -- page memory controller (chapter 6)
  | burstEnter (dir : Dir)
  | accessEnd
  | refreshEnd
  | refreshTimerExpiry
  | closeTimerExpiry (bank : Fin 2)
  | refreshBurstDone
  | selfRefreshEntry
  -- line rings (R10, R11)
  | slotWritesAcknowledged (ring : RingId)
  | pageEndTagAcknowledged (ring : RingId)
  -- motors (R84)
  | stepIntervalExpiry (channel : Chan)
  -- scan path (R30, R49)
  | readoutComplete (samples : List Byte)
  | calTriggerExpiry
  | calReadoutComplete (samples : List Byte)
  | calSumsAcknowledged
  -- copy link (R19, R20)
  | linkTakeSourceLine
  | linkReadComplete
  -- print path (chapter 3)
  | fetchStart
  | tagReadComplete
  | windowReadComplete
  | fetchComplete
  | shiftInStart
  | shiftInComplete
  | lineLatch (elapsed : Half)
  | phaseEnd
  | nextPhaseStart
  | slewBegin
  | printStreamOff
  -- sense unit and line inputs (chapter 5)
  | sweepPeriodExpiry
  | conversionComplete (raw : Byte)
  | standbyTimerExpiry
  | ringEdge
  | edgeGapExpiry
  | burstEndExpiry
  | silenceTimerExpiry
  | inputLevelChange (input : InputLine) (high : Bool)
  | debounceExpiry (input : InputLine)
  -- clocks and power (chapter 7)
  | settleCountReached
  | startWindowExpiry
  | pllLock
  | lockWindowExpiry
  | fastRcRunning
  | switchComplete
  | lossWindowExpiry
  | wakeTimerExpiry
  | hostClockStop
  | standbyEntry
  -- boot (chapter 8)
  | powerOnDetect
  | resetPinLow
  | resetPinHigh
  | romHeaderRead (marker count : List (Option Byte))
  | recordHeaderRead (typeAndTable length destination check image : List (Option Byte))
  | configRecordRead (data : List (Option Byte))
  | tableRecordRead (data : List (Option Byte))
  | imageWritesAcknowledged
  | releaseWritesAcknowledged
  | faultPulseTimerExpiry
  -- cell unit completions (chapter 9)
  | responseCellAcknowledged
  | responsePutAcknowledged
  | snapshotAcknowledged
  | tableLoadReadsComplete
  | stopAllComplete
  deriving DecidableEq, Repr

end Sys2Proof
end

