-- ==== Sys2Proof/Machine/State.lean ====
section
/-! DEFINITION. The state of the FC-62: every register, queue, buffer, counter and mode the spec gives its blocks, as plain
data, with the values after a cold start as field defaults; the faults and refusals; the setters through which every
operation updates the state. INVENTORY.md lists every field with the rule that names it. -/

namespace Sys2Proof.Machine

open Sys2Proof

/-! ### Enumerations (10.2) -/

/-- The side of a line ring (10.2, ring side identity). -/
inductive Side where
  | scan | print | link | host
  deriving DecidableEq, Repr

/-- 10.2, scan mode. -/
inductive ScanMode where
  | text | halftone | cal
  deriving DecidableEq, Repr

/-- 10.2, scan stream state (R25). -/
inductive ScanState where
  | off | waitEdge | capture | stalled | trailing | ending | cal
  deriving DecidableEq, Repr

/-- 10.2, scan end reason (R45). -/
inductive ScanReason where
  | edge | limit | stopped | cover | supply | clock | aborted | noDocument | cal
  deriving DecidableEq, Repr

/-- 10.2, print stream state (R52). -/
inductive PrintState where
  | off | waitLine | printing | slewing | trailingFeed | paused | hot
  deriving DecidableEq, Repr

/-- 10.2, print reason (R52, R77, R78). -/
inductive PrintReason where
  | paper | cover | command | stopped | supply | clock | aborted
  deriving DecidableEq, Repr

/-- 10.2, link state (R17). -/
inductive LinkState where
  | off | wait | reading | writing | ending
  deriving DecidableEq, Repr

/-- 10.2, direction (R79). -/
inductive Direction where
  | forward | back
  deriving DecidableEq, Repr

/-- 10.2, step mode (R79). -/
inductive StepMode where
  | half | full
  deriving DecidableEq, Repr

/-- 10.2, channel state (R79). -/
inductive ChanState where
  | idle | hold | run | move | stopping
  deriving DecidableEq, Repr

/-- 10.2, owner of a motor channel (R79). -/
inductive Owner where
  | host | scan | print
  deriving DecidableEq, Repr

/-- 10.2, move end cause (R85, R88). -/
inductive EndCause where
  | complete | request | stopped | cover | supply | clock
  deriving DecidableEq, Repr

/-- 10.2, zone (R102). -/
inductive Zone where
  | unknown | low | mid | high
  deriving DecidableEq, Repr

/-- 10.2, role (R101). -/
inductive Role where
  | none | headTemp | paper | docEdge | docPresent | cover | supply
  deriving DecidableEq, Repr

/-- 10.2, power state (R151). -/
inductive PowerState where
  | run | slow | entering | standby | leaving
  deriving DecidableEq, Repr

/-- 10.2, source (R138). -/
inductive Source where
  | crystal | crystalX2 | fastRc | slowRc
  deriving DecidableEq, Repr

/-- The state of the crystal or of FAST_RC (R138). -/
inductive OscState where
  | stopped | starting | running
  deriving DecidableEq, Repr

/-- The state of the PLL (R138). -/
inductive PllState where
  | stopped | locking | locked
  deriving DecidableEq, Repr

/-- 10.2, switch state (R144). -/
inductive SwitchState where
  | none | starting | locking | waitQuiet
  deriving DecidableEq, Repr

/-- 10.2, switch origin (R158). -/
inductive Origin where
  | command | wake | boot | monitor
  deriving DecidableEq, Repr

/-- 10.2, clock code (R158). -/
inductive ClockCode where
  | none | crystalNoStart | pllNoLock | crystalLost
  deriving DecidableEq, Repr

/-- 10.2, wake cause, with the details the WAKE cell carries (R153, R158). -/
inductive WakeCause where
  | sense (position : Nat) (zone : Zone)
  | ring (count : Nat)
  | hook (offHook : Bool)
  | key
  | timer
  deriving DecidableEq, Repr

/-- 10.2, table id (R167). -/
inductive TableId where
  | shading | tone | heat | sense
  | profile (n : Fin 8)
  deriving DecidableEq, Repr

/-- 10.2, boot state (R159). -/
inductive BootState where
  | reset | romRead | config | memoryUp | tables | hostImage | release | ready | failed
  deriving DecidableEq, Repr

/-- 10.2, cold start cause (R159). -/
inductive ColdCause where
  | powerOn | resetPin | reboot
  deriving DecidableEq, Repr

/-- 10.2, ROM record type (R162). -/
inductive RecordType where
  | config | table | hostImage | endRecord
  deriving DecidableEq, Repr

/-- 10.2, result (R181). -/
inductive Result where
  | done | busy | inUse | badArg | notReady | badState | unknown | failed | aborted
  deriving DecidableEq, Repr

/-- 10.2, response kind: DONE and the event kinds (R184). -/
inductive Kind where
  | done | pageScanned | pagePrinted | stream | moveEnd | sense | input | ring | wake | clock | fault
  deriving DecidableEq, Repr

/-- R176: whether the cell unit takes commands. -/
inductive Taking where
  | notStarted | taking | stopped
  deriving DecidableEq, Repr

/-- The two staging buffers of a path. -/
inductive BufId where
  | a | b
  deriving DecidableEq, Repr

/-! ### Configuration (R164) -/

/-- R164: the fields of the configuration record. Before the record is applied the FAST_RC prescaler is 8 and its host
divider 4 (R139); the other defaults are DESIGN CHOICE (log entry 5). -/
structure BoardConfig where
  memSize : Nat := 0
  banks : Nat := 1
  rowLen : Nat := 512
  precharge : Nat := 1
  rowOpen : Nat := 1
  column : Nat := 1
  refreshCount : Nat := 1
  refreshInterval : Nat := 8
  closeInterval : Nat := 0
  preX : Nat := 0
  preX2 : Nat := 0
  preRc : Nat := 8
  divX : Nat := 1
  divX2 : Nat := 1
  divRc : Nat := 4
  initial : Source := .fastRc
  monitor : Bool := false
  docMode : StepMode := .half
  paperMode : StepMode := .half
  sensorDiv : Nat := 2
  headDiv : Nat := 2
  ringQ : Nat := 2
  edgeGap : Nat := 8
  burstGap : Nat := 1
  nc : Nat := 16
  nr : Nat := 16
  cbAddr : Nat := 0
  deriving DecidableEq, Repr

/-! ### Table store -/

/-- R51: one shading entry. -/
structure Shade where
  offset : Nat := 0
  gain : Nat := 256
  deriving DecidableEq, Repr

/-- R63: the heat table. -/
structure Heat where
  bands : List Nat
  boost : Nat
  interval : Nat
  maximum : Nat
  deriving DecidableEq, Repr

/-- The table store (R51, R63, R82, R168): defaults of R160. -/
structure TableStore where
  shading : List Shade := List.replicate 2048 {}
  tone : List Nat := List.range 256
  heat : Option Heat := none
  profiles : List (List Nat) := List.replicate 8 []
  loadArea : List Half := []
  deriving DecidableEq, Repr

/-! ### Line rings (R1, R3) -/

/-- R3: the tag of a slot. -/
structure Tag where
  line : Nat := 0
  black : Nat := 0
  lost : Nat := 0
  pageStart : Bool := false
  endOfPage : Bool := false
  merged : Bool := false
  lostTail : Bool := false
  deriving DecidableEq, Repr

/-- R1: a ring's descriptor. -/
structure RingDesc where
  base : Nat
  slots : Nat
  words : Nat
  producer : Side
  consumer : Side
  deriving DecidableEq, Repr

/-- R9: a claimed slot whose writes are not all acknowledged, with the tag handed over at the claim, the scan staging
buffer it came from, and whether its producer abandoned it (R23). -/
structure Claim where
  slot : Nat
  tag : Tag
  buf : Option BufId := none
  abandoned : Bool := false
  deriving DecidableEq, Repr

/-- R1: the held slot with its pending tag. -/
structure Held where
  slot : Nat
  tag : Tag
  deriving DecidableEq, Repr

/-- R11: a page-end request: it waits for the writing list to empty, then the held slot's tag is being rewritten. -/
structure PageEnd where
  lostTail : Bool
  rewriting : Bool := false
  deriving DecidableEq, Repr

/-- R1: one line ring. -/
structure Ring where
  desc : Option RingDesc := none
  put : Nat := 0
  take : Nat := 0
  prodAttached : Bool := false
  consAttached : Bool := false
  held : Option Held := none
  writing : List Claim := []
  pageEnd : Option PageEnd := none
  deriving DecidableEq, Repr

/-- The four line rings. -/
structure Rings where
  r0 : Ring := {}
  r1 : Ring := {}
  r2 : Ring := {}
  r3 : Ring := {}
  deriving DecidableEq, Repr

/-- The ring of an id. -/
def Rings.get (q : Rings) (r : RingId) : Ring :=
  match r with
  | 0 => q.r0
  | 1 => q.r1
  | 2 => q.r2
  | 3 => q.r3

/-- The rings with one of them replaced. -/
def Rings.set (q : Rings) (r : RingId) (x : Ring) : Rings :=
  match r with
  | 0 => { q with r0 := x }
  | 1 => { q with r1 := x }
  | 2 => { q with r2 := x }
  | 3 => { q with r3 := x }

/-! ### Copy link (R17) -/

/-- R17: the copy link's state, with the model's own marks of what is under way (INVENTORY, log entry 14). R17 gives the keep no
value after a cold start: 256 (log entry 6). -/
structure Link where
  st : LinkState := .off
  source : Option RingId := none
  destination : Option RingId := none
  keep : Nat := 256
  acc : Nat := 0
  hold : List Word := []
  heldCount : Nat := 0
  heldLost : Nat := 0
  startPending : Bool := false
  sourceLostTail : Bool := false
  outLine : Nat := 0
  dropped : Nat := 0
  emitPending : Bool := false
  emitEnd : Bool := false
  mergedWriting : Nat := 0
  readsOut : Bool := false
  abortCell : Bool := false
  deriving DecidableEq, Repr

/-! ### Scan path (R25) -/

/-- R25: the parameters of a scan stream as accepted, after clamping and rounding. R25 gives them no value before a first
start (DESIGN CHOICE, log entry 6): k, pageLimit, feedLimit, restartMargin and calLines hold 1, width 32, calInterval 16, mode
TEXT, lamp off, every other 0. -/
structure ScanParams where
  ring : RingId := 0
  mode : ScanMode := .text
  k : Nat := 1
  profile : Fin 8 := 0
  theta : Nat := 0
  skip : Nat := 0
  trailing : Nat := 0
  width : Nat := 32
  pageLimit : Nat := 1
  feedLimit : Nat := 1
  stopMargin : Nat := 0
  restartMargin : Nat := 1
  lamp : Bool := false
  calLines : Nat := 1
  calInterval : Nat := 16
  calDest : Nat := 0
  deriving DecidableEq, Repr

/-- R25: the state of a scan staging buffer. -/
inductive ScanBufState where
  | free | readout | writing
  deriving DecidableEq, Repr

/-- R25: a scan staging buffer. -/
structure ScanBuf where
  st : ScanBufState := .free
  words : List Word := []
  black : Nat := 0
  deriving DecidableEq, Repr

/-- R44: how far the PAGE_SCANNED cell is: not handed, handed and not yet written, or written (or recorded in the summary). -/
inductive EndCell where
  | notYet | handed | written
  deriving DecidableEq, Repr

/-- R25: the scan path's state. `stalledFrom` has a value in STALLED alone; elsewhere it holds what it last held, CAPTURE before (log
entry 6). -/
structure Scan where
  st : ScanState := .off
  stalledFrom : ScanState := .capture
  params : ScanParams := {}
  stepCounter : Nat := 0
  skipRemaining : Nat := 0
  trailingRemaining : Nat := 0
  feedCount : Nat := 0
  triggerCount : Nat := 0
  closing : Bool := false
  linesWritten : Nat := 0
  lostNoBuffer : Nat := 0
  lostOverrun : Nat := 0
  lostNoSlot : Nat := 0
  lostSinceWritten : Nat := 0
  stallCount : Nat := 0
  endReason : Option ScanReason := none
  bufA : ScanBuf := {}
  bufB : ScanBuf := {}
  currentRow : List Int := List.replicate 2048 0
  nextRow : List Int := List.replicate 2048 0
  carry : Int := 0
  calSums : List Nat := List.replicate 2048 0
  calDone : Nat := 0
  calReadout : Bool := false
  calTimer : Bool := false
  calWriting : Bool := false
  endCell : EndCell := .notYet
  deriving DecidableEq, Repr

/-! ### Print path (R52) -/

/-- R53: the parameters of a print stream as accepted, after clamping. R52 gives them no value before a start (DESIGN CHOICE, log entry
6): headWidth holds 32, k 1, budget 256, threshold 2, every other 0. -/
structure PrintParams where
  ring : RingId := 0
  headWidth : Nat := 32
  k : Nat := 1
  shift : Int := 0
  budget : Nat := 256
  profile : Fin 8 := 0
  threshold : Nat := 2
  trailing : Nat := 0
  deriving DecidableEq, Repr

/-- R60, R61: a line record: its tag, output words, total and block counts and MARGIN_LOSS condition. -/
structure LineRec where
  tag : Tag := {}
  words : List Word := []
  total : Nat := 0
  blocks : List Nat := []
  loss : Bool := false
  deriving DecidableEq, Repr

/-- R52: the state of a print staging buffer. -/
inductive PrintBufState where
  | free | fetching | staged | shifting
  deriving DecidableEq, Repr

/-- R52: a print staging buffer. -/
structure PrintBuf where
  st : PrintBufState := .free
  line : LineRec := {}
  deriving DecidableEq, Repr

/-- R52: the fetch unit, with what it is reading: the slot, the first tag and how many further tags, or the buffer. -/
inductive Fetch where
  | idle
  | tag (slot : Nat)
  | window (slot : Nat) (first : Tag) (count : Nat)
  | words (slot : Nat) (buf : BufId)
  deriving DecidableEq, Repr

/-- R52: the head register's state. -/
inductive HeadState where
  | empty | shifting | loaded
  deriving DecidableEq, Repr

/-- R62: a strobe phase: the blocks whose strobes it drives and its dot sum. -/
structure Phase where
  blocks : List Nat
  dots : Nat
  deriving DecidableEq, Repr

/-- R52: the cycle step of the head line: a phase fires, the tick between two phases, the advance is under way, or nothing
more is done for it until RESUME PRINT (R73). -/
inductive Cycle where
  | firing | gap | advancing | waiting
  deriving DecidableEq, Repr

/-- R52: the latched line: its record, phase plan, pulse, phases ended and cycle step. -/
structure HeadLine where
  line : LineRec
  plan : List Phase
  pulse : Nat
  ended : Nat := 0
  cycle : Cycle := .firing
  deriving DecidableEq, Repr

/-- R52, R56: a white run decided to be slewed: its lines, its first slot, and whether it starts and ends a page. -/
structure Slew where
  lines : Nat
  first : Nat
  pageStart : Bool
  endsPage : Bool
  deriving DecidableEq, Repr

/-- R73: the item a COVER opening interrupted. -/
inductive Item where
  | line | slew | feed
  deriving DecidableEq, Repr

/-- R52: the print path's state; a pending slew may be decided while another runs (R55, R70). -/
structure Print where
  st : PrintState := .off
  pauseReason : Option PrintReason := none
  pendPaper : Bool := false
  pendCommand : Bool := false
  pendHot : Bool := false
  params : PrintParams := {}
  fetch : Fetch := .idle
  window : List Tag := []
  slew : Option Slew := none
  slewing : Option Slew := none
  bufA : PrintBuf := {}
  bufB : PrintBuf := {}
  nextBuf : BufId := .a
  headSt : HeadState := .empty
  headRec : LineRec := {}
  headLine : Option HeadLine := none
  owed : Nat := 0
  cool : Nat := 65535
  prevDark : Bool := false
  linesPrinted : Nat := 0
  linesSlewed : Nat := 0
  underruns : Nat := 0
  marginLoss : Bool := false
  interrupted : Option Item := none
  ending : Option PrintReason := none
  cut : Bool := false
  deriving DecidableEq, Repr

/-! ### Motion controller (R79) -/

/-- R79: why a move is STOPPING. -/
inductive StopCause where
  | request | stopped | cover
  deriving DecidableEq, Repr

/-- R79: a channel's record. A count of `none` is unbounded; the timer holds the interval it runs on. -/
structure Channel where
  st : ChanState := .idle
  owner : Owner := .host
  pattern : Fin 8 := 1
  direction : Direction := .forward
  profile : Fin 8 := 0
  ramp : Nat := 0
  remaining : Option Nat := some 0
  requested : Option Nat := some 0
  taken : Nat := 0
  requester : Owner := .host
  tag : Byte := 0
  stopCause : Option StopCause := none
  released : Bool := false
  timer : Option Nat := none
  deriving DecidableEq, Repr

/-! ### Sense unit and line inputs (chapter 5) -/

/-- R101: one entry of the sense list. -/
structure SenseEntry where
  channel : Nat
  gain : Nat
  low : Nat
  high : Nat
  hyst : Nat
  role : Role
  report : Bool
  wake : Bool
  deriving DecidableEq, Repr

/-- R101: a sense table. -/
structure SenseTable where
  period : Nat
  standby : Nat
  entries : List SenseEntry
  deriving DecidableEq, Repr

/-- R102: an installed entry with its reading and zone. -/
structure Installed where
  entry : SenseEntry
  reading : Nat := 0
  zone : Zone := .unknown
  deriving DecidableEq, Repr

/-- R104, R111: the sweep in progress, at the list position it converts or waits to convert. -/
inductive Sweep where
  | none
  | normal (position : Nat)
  | standby (position : Nat)
  deriving DecidableEq, Repr

/-- The sense unit (R101 to R111). -/
structure Sense where
  period : Nat := 10
  standby : Nat := 0
  list : List Installed := []
  pendingList : Option SenseTable := none
  sweep : Sweep := .none
  converting : Bool := false
  owed : Bool := false
  hold : Bool := false
  periodTimer : Bool := false
  standbyTimer : Bool := false
  deriving DecidableEq, Repr

/-- R112: the ring qualifier's state. -/
inductive QualState where
  | idle | counting | qualified
  deriving DecidableEq, Repr

/-- R114: a debouncer: input level, stable level and whether its timer runs. -/
structure Debouncer where
  level : Bool := false
  stable : Bool := false
  timer : Bool := false
  deriving DecidableEq, Repr

/-- The line inputs (R112 to R116). -/
structure LineInputs where
  watching : Bool := false
  qual : QualState := .idle
  edges : Nat := 0
  edgeGapTimer : Bool := false
  burstEndTimer : Bool := false
  silenceTimer : Bool := false
  ringCount : Nat := 0
  hook : Debouncer := {}
  key : Debouncer := {}
  deriving DecidableEq, Repr

/-! ### Page memory controller (chapter 6) -/

/-- R118: the class of a transfer, in the class order. -/
inductive MemClass where
  | host | print | scan | link | cell | table
  deriving DecidableEq, Repr

/-- Who issued a transfer, and what its completion means to it. A `word` of the control block and a slot's words (R9) ask for no
answer. -/
inductive Req where
  | host | word | slotWords
  | slotTag (ring : RingId)
  | pageEndTag (ring : RingId)
  | calSums
  | fetchTag | fetchWindow | fetchWords
  | linkWords | linkTag
  | cmdRead | respCell | respPut | snapshot
  | tableLoad | bootImage | bootInit
  deriving DecidableEq, Repr

/-- R119: one burst, waiting outside or queued. `half` is its first halfword address; bank, row and column follow from it
(R117). -/
structure Burst where
  dir : Dir
  cls : MemClass
  half : Nat
  len : Nat
  data : List Half := []
  lowEnable : Bool := true
  highEnable : Bool := true
  last : Bool
  req : Req
  age : Nat := 0
  passed : Nat := 0
  deriving DecidableEq, Repr

/-- R122: the controller's state. -/
inductive PmcState where
  | down | starting | running | srEntry | selfRefresh | srExit
  deriving DecidableEq, Repr

/-- R122: what the DRAM does; an access holds its burst and its length in core cycles (R129). -/
inductive Activity where
  | free
  | access (burst : Burst) (cycles : Nat)
  | refresh
  deriving DecidableEq, Repr

/-- R122: a bank: its open row, and its close timer with the microticks it was started with. -/
structure Bank where
  openRow : Option Nat := none
  closeTimer : Option Nat := none
  deriving DecidableEq, Repr

/-- R121: read data delivered or a write acknowledged, waiting for the row that takes it. -/
structure Delivery where
  req : Req
  data : List Half := []
  complete : Bool
  deriving DecidableEq, Repr

/-- R136: an arrival: the halfword's offset in the control block and its contents after the write. -/
structure Arrival where
  offset : Nat
  value : Half
  deriving DecidableEq, Repr

/-- R122: the page memory controller. -/
structure Pmc where
  st : PmcState := .down
  act : Activity := .free
  bank0 : Bank := {}
  bank1 : Bank := {}
  refreshTimer : Bool := false
  owed : Nat := 0
  burstRem : Nat := 0
  drain : Bool := false
  urgent : Bool := false
  readQ : List Burst := []
  writeQ : List Burst := []
  waiting : List Burst := []
  nextAge : Nat := 0
  inbox : List Delivery := []
  arrivals : List Arrival := []
  hostData : Half := 0
  deriving DecidableEq, Repr

/-! ### Clock and power unit (chapter 7) -/

/-- R144: the pending switch. -/
structure Switch where
  st : SwitchState := .none
  target : Option Source := none
  origin : Option Origin := none
  tag : Byte := 0
  deriving DecidableEq, Repr

/-- R151: the wake latch: one cause and the entry-abandoned mark. -/
structure WakeLatch where
  cause : WakeCause
  abandoned : Bool
  deriving DecidableEq, Repr

/-- The clock and power unit (R138, R141, R143, R144, R151, R154). -/
structure ClockPower where
  core : Source := .fastRc
  crystal : OscState := .stopped
  pll : PllState := .stopped
  fastRc : OscState := .running
  failed : Bool := false
  settle : Nat := 0
  sw : Switch := {}
  needSense : Bool := false
  needLeave : Bool := false
  hostClk : Bool := true
  power : PowerState := .run
  ratio : Nat := 1
  snapBack : Bool := false
  wakeSetting : Nat := 0
  sourceBefore : Option Source := none
  wakeLatch : Option WakeLatch := none
  wakeTimer : Bool := false
  doneWritten : Bool := false
  entrySent : Bool := false
  deriving DecidableEq, Repr

/-! ### Boot controller (chapter 8) -/

/-- R162, R195: a record header. -/
structure RecordHeader where
  kind : RecordType
  table : Nat
  length : Nat
  destination : Nat
  check : Half
  deriving DecidableEq, Repr

/-- R159: the boot controller, with the model's own marks of the SPI transaction that is open (R161) and of a REBOOT's DONE write
performed before RESET_N went low whose acknowledgement is still to come (log entry 28). -/
structure Boot where
  st : BootState := .reset
  cause : ColdCause := .powerOn
  code : Nat := 0
  recordCount : Nat := 0
  position : Nat := 0
  romAddr : Nat := 0
  images : Nat := 0
  defaulted : BitVec 16 := 0
  hostReset : Bool := true
  fault : Bool := false
  header : Option RecordHeader := none
  imageSum : Half := 0
  pulse : Nat := 0
  faultMs : Nat := 0
  spiNext : Option Nat := none
  spiSent : List Byte := []
  rebootAcked : Bool := false
  deriving DecidableEq, Repr

/-! ### Cell unit (chapter 9) -/

/-- What the acknowledgement of a cell's put word means beside itself (R182): REBOOT's cold start (R173), HOST_CLK's stop
(R154), or a scan stream's end (R44). -/
inductive CellMark where
  | plain | reboot | standby | pageScanned
  deriving DecidableEq, Repr

/-- R182: a response slot whose cell writes are not all acknowledged. -/
structure RespWriting where
  slot : Nat
  mark : CellMark
  deriving DecidableEq, Repr

/-- R176: a command in flight: its code and tag. -/
structure InFlight where
  code : Nat
  tag : Byte
  deriving DecidableEq, Repr

/-- R176: the table loader. -/
inductive Loader where
  | idle
  | loading (tag : Byte) (table : TableId) (source length : Nat)
  deriving DecidableEq, Repr

/-- R191: a STOP ALL in flight: its tag and what it stopped. -/
structure StopAll where
  tag : Byte
  scan : Bool
  print : Bool
  link : Bool
  doc : Bool
  paper : Bool
  deriving DecidableEq, Repr

/-- R176: the cell unit. -/
structure Cells where
  taking : Taking := .notStarted
  cmdPut : Nat := 0
  cmdTake : Nat := 0
  reading : Option Nat := none
  respPut : Nat := 0
  respTake : Nat := 0
  writing : List RespWriting := []
  reserved : Nat := 0
  inFlight : List InFlight := []
  summary : BitVec 16 := 0
  dropped : Nat := 0
  loader : Loader := .idle
  stopAll : Option StopAll := none
  sequence : Nat := 0
  snapOwed : Bool := false
  snapBusy : Bool := false
  handed : List Instr := []
  putWrites : List CellMark := []
  deriving DecidableEq, Repr

/-- The two system pins the boot controller watches (R160). Levels at reset: DESIGN CHOICE (log entry 4). -/
structure Pins where
  resetHigh : Bool := false
  supplyGood : Bool := true
  deriving DecidableEq, Repr

/-- The state of the FC-62. -/
structure State where
  pending : List Instr := []
  mem : List Host.Cell := []
  cfg : BoardConfig := {}
  tables : TableStore := {}
  rings : Rings := {}
  link : Link := {}
  scan : Scan := {}
  print : Print := {}
  doc : Channel := {}
  paper : Channel := {}
  sense : Sense := {}
  lines : LineInputs := {}
  pmc : Pmc := {}
  clk : ClockPower := {}
  boot : Boot := {}
  cells : Cells := {}
  pins : Pins := {}
  freeCount : Nat := 0
  deriving DecidableEq, Repr

/-- The part right after a cold start (R159, R160): every block in the state its chapter gives, the boot controller in RESET
with RESET_N held low (log entry 4), page memory with nothing listed (log entry 3), no command waiting. -/
def State.reset : State := {}

/-- Why a step stops with a fault. -/
inductive Fault where
  /-- Raised by ACCESS_END alone, when the burst of a part block does not lie inside the configured memory: R119 says such a
  transfer does not exist, so the model stops and invents no memory. Safe. -/
  | accessOutsideMemory
  deriving DecidableEq, Repr

/-- Why a step has no meaning. -/
inductive Refusal where
  /-- Raised by `exec` for a row that has no meaning yet; no row is left without one. Safe. -/
  | notModelled (mnemonic : String)
  deriving DecidableEq, Repr

/-- What `exec` and `step` answer. -/
abbrev Out := Host.Outcome State Fault Refusal

/-! ### Setters: every operation updates the state through these, so that a later proof unfolds no record update -/

def State.setPending (s : State) (x : List Instr) : State := { s with pending := x }
def State.setMem (s : State) (x : List Host.Cell) : State := { s with mem := x }
def State.setCfg (s : State) (x : BoardConfig) : State := { s with cfg := x }
def State.setTables (s : State) (x : TableStore) : State := { s with tables := x }
def State.setRings (s : State) (x : Rings) : State := { s with rings := x }
def State.setLink (s : State) (x : Link) : State := { s with link := x }
def State.setScan (s : State) (x : Scan) : State := { s with scan := x }
def State.setPrint (s : State) (x : Print) : State := { s with print := x }
def State.setDoc (s : State) (x : Channel) : State := { s with doc := x }
def State.setPaper (s : State) (x : Channel) : State := { s with paper := x }
def State.setSense (s : State) (x : Sense) : State := { s with sense := x }
def State.setLines (s : State) (x : LineInputs) : State := { s with lines := x }
def State.setPmc (s : State) (x : Pmc) : State := { s with pmc := x }
def State.setClk (s : State) (x : ClockPower) : State := { s with clk := x }
def State.setBoot (s : State) (x : Boot) : State := { s with boot := x }
def State.setCells (s : State) (x : Cells) : State := { s with cells := x }
def State.setPins (s : State) (x : Pins) : State := { s with pins := x }
def State.setFreeCount (s : State) (x : Nat) : State := { s with freeCount := x }

end Sys2Proof.Machine
end

