-- ==== Sys2Proof/Machine/Operands.lean ====
section
/-! DEFINITION. Operand forms: the codes of every enumeration (10.2), byte order and field layout (R193), tags, table sources
and the configuration record as halfwords (R195, 10.7). -/

namespace Sys2Proof.Machine

open Sys2Proof

/-! ### Codes (10.2) -/

def sideCode : Side → Nat
  | .scan => 0 | .print => 1 | .link => 2 | .host => 3

def sideOf : Nat → Option Side
  | 0 => some .scan | 1 => some .print | 2 => some .link | 3 => some .host | _ => none

def scanStateCode : ScanState → Nat
  | .off => 0 | .waitEdge => 1 | .capture => 2 | .stalled => 3 | .trailing => 4 | .ending => 5 | .cal => 6

def scanReasonCode : ScanReason → Nat
  | .edge => 0 | .limit => 1 | .stopped => 2 | .cover => 3 | .supply => 4 | .clock => 5 | .aborted => 6
  | .noDocument => 7 | .cal => 8

def printStateCode : PrintState → Nat
  | .off => 0 | .waitLine => 1 | .printing => 2 | .slewing => 3 | .trailingFeed => 4 | .paused => 5 | .hot => 6

def printReasonCode : PrintReason → Nat
  | .paper => 0 | .cover => 1 | .command => 2 | .stopped => 3 | .supply => 4 | .clock => 5 | .aborted => 6

def linkStateCode : LinkState → Nat
  | .off => 0 | .wait => 1 | .reading => 2 | .writing => 3 | .ending => 4

def chanCode : Chan → Nat
  | .doc => 0 | .paper => 1

def chanOf : Nat → Option Chan
  | 0 => some .doc | 1 => some .paper | _ => none

def directionOf : Nat → Option Direction
  | 0 => some .forward | 1 => some .back | _ => none

def stepModeOf : Nat → Option StepMode
  | 0 => some .half | 1 => some .full | _ => none

def chanStateCode : ChanState → Nat
  | .idle => 0 | .hold => 1 | .run => 2 | .move => 3 | .stopping => 4

def ownerCode : Owner → Nat
  | .host => 0 | .scan => 1 | .print => 2

def endCauseCode : EndCause → Nat
  | .complete => 0 | .request => 1 | .stopped => 2 | .cover => 3 | .supply => 4 | .clock => 5

def zoneCode : Zone → Nat
  | .unknown => 0 | .low => 1 | .mid => 2 | .high => 3

def roleCode : Role → Nat
  | .none => 0 | .headTemp => 1 | .paper => 2 | .docEdge => 3 | .docPresent => 4 | .cover => 5 | .supply => 6

def roleOf : Nat → Option Role
  | 0 => some .none | 1 => some .headTemp | 2 => some .paper | 3 => some .docEdge | 4 => some .docPresent
  | 5 => some .cover | 6 => some .supply | _ => none

def inputCode : InputLine → Nat
  | .hook => 0 | .key => 1

def powerCode : PowerState → Nat
  | .run => 0 | .slow => 1 | .entering => 2 | .standby => 3 | .leaving => 4

def sourceCode : Source → Nat
  | .crystal => 0 | .crystalX2 => 1 | .fastRc => 2 | .slowRc => 3

def sourceOf : Nat → Option Source
  | 0 => some .crystal | 1 => some .crystalX2 | 2 => some .fastRc | 3 => some .slowRc | _ => none

def switchStateCode : SwitchState → Nat
  | .none => 0 | .starting => 1 | .locking => 2 | .waitQuiet => 3

def originCode : Origin → Nat
  | .command => 0 | .wake => 1 | .boot => 2 | .monitor => 3

def clockCodeCode : ClockCode → Nat
  | .none => 0 | .crystalNoStart => 1 | .pllNoLock => 2 | .crystalLost => 3

def wakeCauseCode : WakeCause → Nat
  | .sense _ _ => 0 | .ring _ => 1 | .hook _ => 2 | .key => 3 | .timer => 4

def tableIdCode : TableId → Nat
  | .shading => 0 | .tone => 1 | .heat => 2 | .sense => 3 | .profile n => 4 + n.val

def tableIdOf : Nat → Option TableId
  | 0 => some .shading | 1 => some .tone | 2 => some .heat | 3 => some .sense
  | n + 4 => if h : n < 8 then some (.profile ⟨n, h⟩) else none

def bootStateCode : BootState → Nat
  | .reset => 0 | .romRead => 1 | .config => 2 | .memoryUp => 3 | .tables => 4 | .hostImage => 5 | .release => 6
  | .ready => 7 | .failed => 8

def coldCauseCode : ColdCause → Nat
  | .powerOn => 0 | .resetPin => 1 | .reboot => 2

def recordTypeOf : Nat → Option RecordType
  | 0 => some .config | 1 => some .table | 2 => some .hostImage | 3 => some .endRecord | _ => none

def resultCode : Result → Nat
  | .done => 0 | .busy => 1 | .inUse => 2 | .badArg => 3 | .notReady => 4 | .badState => 5 | .unknown => 6
  | .failed => 7 | .aborted => 8

def kindCode : Kind → Nat
  | .done => 0 | .pageScanned => 1 | .pagePrinted => 2 | .stream => 3 | .moveEnd => 4 | .sense => 5 | .input => 6
  | .ring => 7 | .wake => 8 | .clock => 9 | .fault => 10

/-! ### Bytes and halfwords (R193) -/

/-- The byte of a number: an enumerated or counted field as it is written. -/
def byte (n : Nat) : Byte := BitVec.ofNat 8 n

/-- A flag as a bit of value `2^n`. -/
def flag (b : Bool) (n : Nat) : Nat := if b then 2 ^ n else 0

/-- R193: an optional byte field that is absent holds FF hex. -/
def optByte (o : Option Nat) : Byte := byte (o.getD 0xFF)

/-- R193: a number as two bytes, the low byte at the lower address. -/
def twoBytes (n : Nat) : List Byte := [byte n, byte (n / 256)]

/-- R193: the low byte of a halfword. -/
def lowByte (h : Half) : Byte := h.extractLsb' 0 8

/-- R193: the high byte of a halfword. -/
def highByte (h : Half) : Byte := h.extractLsb' 8 8

/-- R193: a halfword of its low and high bytes. -/
def halfOf (low high : Byte) : Half := high ++ low

/-- R193: a 32-bit word of its low and high halfwords. -/
def wordOf (low high : Half) : Word := high ++ low

/-- R193: a word as two halfwords, the low one at the lower address. -/
def halvesOf (w : Word) : List Half := [w.extractLsb' 0 16, w.extractLsb' 16 16]

/-- A halfword holding two byte fields given as numbers. -/
def pair (low high : Nat) : Half := halfOf (byte low) (byte high)

/-- Bytes as halfwords, two at a time. -/
def bytesToHalves : List Byte → List Half
  | l :: h :: rest => halfOf l h :: bytesToHalves rest
  | [l] => [halfOf l 0]
  | [] => []

/-- Halfwords as bytes in address order. -/
def halvesToBytes : List Half → List Byte
  | [] => []
  | h :: rest => lowByte h :: highByte h :: halvesToBytes rest

/-- Halfwords as 32-bit words, two at a time. -/
def halvesToWords : List Half → List Word
  | l :: h :: rest => wordOf l h :: halvesToWords rest
  | [l] => [wordOf l 0]
  | [] => []

/-- Words as halfwords in address order. -/
def wordsToHalves (ws : List Word) : List Half := ws.flatMap halvesOf

/-- The `i`-th byte of a cell, 0 where there is none. -/
def byteAt (bs : List Byte) (i : Nat) : Byte := bs.getD i 0

/-- The halfword at bytes `i` and `i + 1` of a cell. -/
def halfAt (bs : List Byte) (i : Nat) : Half := halfOf (byteAt bs i) (byteAt bs (i + 1))

/-- The 32-bit field at bytes `i` to `i + 3` of a cell. -/
def wordAt (bs : List Byte) (i : Nat) : Word := wordOf (halfAt bs i) (halfAt bs (i + 2))

/-- R194: the 16 bytes of a cell: its given bytes, and 0 in every byte the table gives no field. -/
def cellBytes (bs : List Byte) : List Byte := (bs ++ List.replicate 16 0).take 16

/-! ### Numbers -/

/-- A sum that stays at the end of its range (00_scope 2.6). -/
def satAdd (limit a b : Nat) : Nat := min limit (a + b)

/-- The black pels of a word. -/
def popWord (w : Word) : Nat := (List.range 32).countP (fun i => w.getLsbD i)

/-- R3, R60: the black pels of a line's words. -/
def popWords (ws : List Word) : Nat := (ws.map popWord).sum

/-- The ring a byte names, where it is 0 to 3. -/
def ringOf (b : Byte) : Option RingId := if h : b.toNat < 4 then some ⟨b.toNat, h⟩ else none

/-- The profile a number names, where it is 0 to 7. -/
def profileOf (n : Nat) : Option (Fin 8) := if h : n < 8 then some ⟨n, h⟩ else none

/-! ### Tags (10.7) -/

/-- 10.7: a tag as its four halfwords; bits 4 to 7 of the flags and the last halfword are written 0. -/
def tagHalves (t : Tag) : List Half :=
  [BitVec.ofNat 16 t.line, BitVec.ofNat 16 t.black,
   pair (flag t.pageStart 0 + flag t.endOfPage 1 + flag t.merged 2 + flag t.lostTail 3) t.lost, 0]

/-- 10.7: the tag four halfwords hold, taken as written. -/
def tagOfHalves (hs : List Half) : Tag :=
  let f := lowByte (hs.getD 2 0)
  { line := (hs.getD 0 0).toNat, black := (hs.getD 1 0).toNat, lost := (highByte (hs.getD 2 0)).toNat,
    pageStart := f.getLsbD 0, endOfPage := f.getLsbD 1, merged := f.getLsbD 2, lostTail := f.getLsbD 3 }

/-! ### Table sources (R195) -/

/-- R195: the shading source: 2048 halfwords, gain in bits 0 to 9 and offset in bits 10 to 15. -/
def parseShading (d : List Half) : Option (List Shade) :=
  if d.length = 2048 then some (d.map fun h => { offset := h.toNat / 1024, gain := h.toNat % 1024 }) else none

/-- R195: the tone source: 128 halfwords, two entries each. -/
def parseTone (d : List Half) : Option (List Nat) :=
  if d.length = 128 then some ((halvesToBytes d).map BitVec.toNat) else none

/-- R63, R195: the heat source: 19 halfwords in the ranges of R63. -/
def parseHeat (d : List Half) : Option Heat :=
  let v := d.map BitVec.toNat
  let t : Heat := { bands := v.take 16, boost := v.getD 16 0, interval := v.getD 17 0, maximum := v.getD 18 0 }
  if d.length = 19 ∧ t.bands.all (fun p => 1 ≤ p ∧ p ≤ 2047) ∧ t.boost ≤ 1023 ∧ 1 ≤ t.interval ∧ t.interval ≤ 65534
      ∧ 1 ≤ t.maximum ∧ t.maximum ≤ 2047 then some t else none

/-- R82, R195: a profile source: its count, then that many intervals of 16 to 65535 ticks. -/
def parseProfile (d : List Half) : Option (List Nat) :=
  let n := (d.getD 0 0).toNat
  let e := (d.drop 1).map BitVec.toNat
  if 1 ≤ n ∧ n ≤ 64 ∧ e.length = n ∧ e.all (fun x => 16 ≤ x) then some e else none

/-- R195: one sense entry of three halfwords, where its gain and role are codes that exist. -/
def parseSenseEntry (a b c : Half) : Option SenseEntry :=
  match roleOf (c.toNat / 256 % 16) with
  | none => none
  | some role =>
    let e : SenseEntry :=
      { channel := (lowByte a).toNat, gain := (highByte a).toNat, low := (lowByte b).toNat, high := (highByte b).toNat,
        hyst := (lowByte c).toNat, role := role, report := c.getLsbD 12, wake := c.getLsbD 13 }
    if e.channel ≤ 7 ∧ (e.gain = 1 ∨ e.gain = 2 ∨ e.gain = 4 ∨ e.gain = 8) ∧ e.low ≤ e.high ∧ e.hyst ≤ 63
    then some e else none

/-- R195: the entries of a sense source, three halfwords each. -/
def parseSenseEntries : List Half → Option (List SenseEntry)
  | [] => some []
  | a :: b :: c :: rest =>
    match parseSenseEntry a b c, parseSenseEntries rest with
    | some e, some es => some (e :: es)
    | _, _ => none
  | _ => none

/-- R101: each role other than NONE appears in at most one entry. -/
def rolesUnique (es : List SenseEntry) : Bool :=
  let roles := (es.map (·.role)).filter (fun r => r ≠ .none)
  decide roles.Nodup

/-- R101, R195: the sense source. -/
def parseSense (d : List Half) : Option SenseTable :=
  let n := (lowByte (d.getD 0 0)).toNat
  let period := (highByte (d.getD 0 0)).toNat
  let standby := (d.getD 1 0).toNat
  if n ≤ 12 ∧ d.length = 2 + 3 * n ∧ period ≠ 0 ∧ standby ≤ 255 then
    match parseSenseEntries (d.drop 2) with
    | none => none
    | some es => if rolesUnique es then some { period := period, standby := standby, entries := es } else none
  else none

/-- A table's contents, checked. -/
inductive TableData where
  | shading (t : List Shade)
  | tone (t : List Nat)
  | heat (t : Heat)
  | sense (t : SenseTable)
  | profile (n : Fin 8) (t : List Nat)
  deriving DecidableEq, Repr

/-- R168, R190: the table a source holds, where its length and every value are good. -/
def parseTable (id : TableId) (d : List Half) : Option TableData :=
  match id with
  | .shading => (parseShading d).map .shading
  | .tone => (parseTone d).map .tone
  | .heat => (parseHeat d).map .heat
  | .sense => (parseSense d).map .sense
  | .profile n => (parseProfile d).map (.profile n)

/-! ### The serial ROM (R162 to R164, R195) -/

/-- R161: `n` bytes clocked in from the serial ROM: what a device drives, and all ones where none drives Data in (a byte past
those given is driven by none). -/
def romBytes : Nat → List (Option Byte) → List Byte
  | 0, _ => []
  | n + 1, [] => 0xFF :: romBytes n []
  | n + 1, b :: bs => b.getD 0xFF :: romBytes n bs

/-- R161, R193: `n` halfwords of the serial ROM, each of two consecutive bytes, its low byte first. -/
def romHalves (n : Nat) (data : List (Option Byte)) : List Half := bytesToHalves (romBytes (2 * n) data)

/-- R161, R193: one halfword of the serial ROM. -/
def romHalf (data : List (Option Byte)) : Half :=
  halfOf (byteAt (romBytes 2 data) 0) (byteAt (romBytes 2 data) 1)

/-- R161, R193: one 32-bit field of the serial ROM, its low halfword first. -/
def romWord (data : List (Option Byte)) : Word :=
  wordOf (halfAt (romBytes 4 data) 0) (halfAt (romBytes 4 data) 2)

/-- R163: the check value of data halfwords: their sum modulo 65536. -/
def checkSum (d : List Half) : Half := d.foldl (· + ·) 0

/-- R175: the bytes of the control area: the control block and both cell rings. -/
def areaLength (nc nr : Nat) : Nat := 256 + 16 * (nc + nr)

/-- R164: the memory size a code stands for. -/
def memSizeOf : Nat → Option Nat
  | 0 => some 0x80000 | 1 => some 0x100000 | 2 => some 0x200000 | 3 => some 0x400000 | _ => none

/-- R139: a host divider is 1, 2 or 4. -/
def dividerOk (n : Nat) : Bool := n = 1 || n = 2 || n = 4

/-- R144, R164: a source is fitted: its prescaler is not 0, and SLOW_RC is no target. -/
def BoardConfig.fitted (c : BoardConfig) : Source → Bool
  | .crystal => c.preX != 0
  | .crystalX2 => c.preX2 != 0
  | .fastRc => true
  | .slowRc => false

/-- R164: the ranges of the configuration record's fields and the fit of the control area. -/
def BoardConfig.inRange (c : BoardConfig) : Bool :=
  (c.banks = 1 || c.banks = 2) && (c.rowLen = 512 || c.rowLen = 1024)
  && (1 ≤ c.precharge && c.precharge ≤ 15) && (1 ≤ c.rowOpen && c.rowOpen ≤ 15)
  && (1 ≤ c.column && c.column ≤ 15) && (1 ≤ c.refreshCount && c.refreshCount ≤ 15)
  && (8 ≤ c.refreshInterval && c.refreshInterval ≤ 63) && c.closeInterval ≤ 255
  && c.preX ≤ 63 && c.preX2 ≤ 63 && (1 ≤ c.preRc && c.preRc ≤ 63)
  && dividerOk c.divX && dividerOk c.divX2 && dividerOk c.divRc && c.fitted c.initial
  && (2 ≤ c.sensorDiv && c.sensorDiv ≤ 64) && (2 ≤ c.headDiv && c.headDiv ≤ 64)
  && (2 ≤ c.ringQ && c.ringQ ≤ 15) && (8 ≤ c.edgeGap && c.edgeGap ≤ 255) && (1 ≤ c.burstGap && c.burstGap ≤ 255)
  && (16 ≤ c.nc && c.nc ≤ 256) && (16 ≤ c.nr && c.nr ≤ 256)
  && c.cbAddr % 256 = 0 && c.cbAddr + areaLength c.nc c.nr ≤ c.memSize

/-- R195: the fields of the configuration record's 17 halfwords, where each enumerated field holds a code. -/
def configFields (d : List Half) : Option BoardConfig :=
  let lo i := (lowByte (d.getD i 0)).toNat
  let hi i := (highByte (d.getD i 0)).toNat
  let hw i := (d.getD i 0).toNat
  match memSizeOf (lo 0), sourceOf (hi 6), stepModeOf (lo 9), stepModeOf (hi 9) with
  | some size, some initial, some docMode, some paperMode =>
    if hi 8 ≤ 1 then
      some { memSize := size, banks := hi 0, rowLen := hw 1, precharge := lo 2, rowOpen := hi 2, column := lo 3,
             refreshCount := hi 3, refreshInterval := lo 4, closeInterval := hi 4, preX := lo 5, preX2 := hi 5,
             preRc := lo 6, initial := initial, divX := lo 7, divX2 := hi 7, divRc := lo 8, monitor := hi 8 = 1,
             docMode := docMode, paperMode := paperMode, sensorDiv := lo 10, headDiv := hi 10, ringQ := lo 11,
             edgeGap := hi 11, burstGap := lo 12, nc := hw 13, nr := hw 14,
             cbAddr := (wordOf (d.getD 15 0) (d.getD 16 0)).toNat }
    else none
  | _, _, _, _ => none

/-- R164: a good configuration record's fields: 17 halfwords with every field in its range. -/
def parseConfig (d : List Half) : Option BoardConfig :=
  if d.length = 17 then
    match configFields d with
    | some c => if c.inRange then some c else none
    | none => none
  else none

end Sys2Proof.Machine
end

