-- ==== Sys2Proof/Decode.lean ====
section
/-! DEFINITION. The command cell decoder (R194, 10.5): the host command that the 16 bytes of a command cell spell, total on any
bytes; beside it the encoder. And the host's `decodeTableWord`: spec/opcode_table.json gives no row any bits, so no word spells
a command. -/

namespace Sys2Proof

open Sys2Proof.Machine

/-- The low nibble of a byte: bits 0 to 3. -/
def lowNibble (b : Byte) : BitVec 4 := b.extractLsb' 0 4

/-- The high nibble of a byte: bits 4 to 7. -/
def highNibble (b : Byte) : BitVec 4 := b.extractLsb' 4 4

/-- 10.2: the code of mode CAL, which makes a START SCAN cell a calibration (10.5). -/
def calModeCode : BitVec 4 := 2

/-- R194: the code in byte 0 of each host command (10.2), and of UNKNOWN_COMMAND the code it carries; other rows are no host
command and have none. -/
def commandCode : Instr → Option Nat
  | .loadTable .. => some 1
  | .setRing .. => some 2
  | .startScan .. => some 3
  | .startScanCal .. => some 3
  | .stopScan .. => some 4
  | .startPrint .. => some 5
  | .stopPrint .. => some 6
  | .pausePrint .. => some 7
  | .resumePrint .. => some 8
  | .linkRings .. => some 9
  | .unlink .. => some 10
  | .moveMotor .. => some 11
  | .holdMotor .. => some 12
  | .releaseMotor .. => some 13
  | .setPower .. => some 14
  | .switchClock .. => some 15
  | .stopAll .. => some 16
  | .reboot .. => some 17
  | .unknownCommand _ code => some code.toNat
  | _ => none

/-- R194, 10.5: START SCAN's parameters, split by the mode nibble of byte 3. -/
def decodeStartScan (tag : Byte) (bs : List Byte) : Instr :=
  if lowNibble (byteAt bs 3) = calModeCode then
    .startScanCal tag ((byteAt bs 3).getLsbD 4) (byteAt bs 4) (halfAt bs 8) (halfAt bs 10) (wordAt bs 12)
  else
    .startScan tag (byteAt bs 2) (lowNibble (byteAt bs 3)) (highNibble (byteAt bs 3)) (lowNibble (byteAt bs 4))
      (highNibble (byteAt bs 4)) (byteAt bs 5) (byteAt bs 6) (byteAt bs 7) (halfAt bs 8) (halfAt bs 10) (halfAt bs 12)
      (byteAt bs 14) (byteAt bs 15)

/-- R194, 10.5: the command a command cell holds; bytes a command does not use are ignored; a code outside 1 to 17 names no
command (R180). -/
def decodeCell (bs : List Byte) : Instr :=
  let tag := byteAt bs 1
  match (byteAt bs 0).toNat with
  | 1 => .loadTable tag (byteAt bs 2) (halfAt bs 4) (wordAt bs 8)
  | 2 => .setRing tag (byteAt bs 2) (byteAt bs 3) (byteAt bs 4) (halfAt bs 6) (halfAt bs 8) (wordAt bs 10)
  | 3 => decodeStartScan tag bs
  | 4 => .stopScan tag
  | 5 => .startPrint tag (byteAt bs 2) (byteAt bs 3) (byteAt bs 4) (byteAt bs 5) (halfAt bs 6) (halfAt bs 8)
      (halfAt bs 10) (halfAt bs 12)
  | 6 => .stopPrint tag
  | 7 => .pausePrint tag
  | 8 => .resumePrint tag
  | 9 => .linkRings tag (byteAt bs 2) (byteAt bs 3) (halfAt bs 4)
  | 10 => .unlink tag
  | 11 => .moveMotor tag (byteAt bs 2) (byteAt bs 3) (byteAt bs 4) (halfAt bs 6)
  | 12 => .holdMotor tag (byteAt bs 2)
  | 13 => .releaseMotor tag (byteAt bs 2)
  | 14 => .setPower tag (byteAt bs 2) ((byteAt bs 3).getLsbD 0) (halfAt bs 4) (halfAt bs 6)
  | 15 => .switchClock tag (byteAt bs 2)
  | 16 => .stopAll tag
  | 17 => .reboot tag
  | _ => .unknownCommand tag (byteAt bs 0)

/-- The two bytes of a halfword, low byte first. -/
def halfBytes (h : Half) : List Byte := [lowByte h, highByte h]

/-- The four bytes of a 32-bit field, low halfword first. -/
def wordBytes (w : Word) : List Byte := (halvesOf w).flatMap halfBytes

/-- A byte of two nibbles. -/
def nibbles (low high : BitVec 4) : Byte := high ++ low

/-- 10.5: the 16 bytes of the command cell of a host command, unused bytes 0; the empty list for a row that is no host
command. -/
def encodeCell : Instr → List Byte
  | .loadTable tag table length source => cellBytes ([1, tag, table, 0] ++ halfBytes length ++ [0, 0] ++ wordBytes source)
  | .setRing tag ring producer consumer slots words base =>
    cellBytes ([2, tag, ring, producer, consumer, 0] ++ halfBytes slots ++ halfBytes words ++ wordBytes base)
  | .startScan tag ring mode start k profile theta skip trailing width pageLimit feedLimit stopMargin restartMargin =>
    cellBytes ([3, tag, ring, nibbles mode start, nibbles k profile, theta, skip, trailing] ++ halfBytes width
      ++ halfBytes pageLimit ++ halfBytes feedLimit ++ [stopMargin, restartMargin])
  | .startScanCal tag lamp lines width interval destination =>
    cellBytes ([3, tag, 0, nibbles calModeCode (if lamp then 1 else 0), lines, 0, 0, 0] ++ halfBytes width
      ++ halfBytes interval ++ wordBytes destination)
  | .stopScan tag => cellBytes [4, tag]
  | .startPrint tag ring k profile threshold headWidth shift budget trailing =>
    cellBytes ([5, tag, ring, k, profile, threshold] ++ halfBytes headWidth ++ halfBytes shift ++ halfBytes budget
      ++ halfBytes trailing)
  | .stopPrint tag => cellBytes [6, tag]
  | .pausePrint tag => cellBytes [7, tag]
  | .resumePrint tag => cellBytes [8, tag]
  | .linkRings tag source destination keep => cellBytes ([9, tag, source, destination] ++ halfBytes keep)
  | .unlink tag => cellBytes [10, tag]
  | .moveMotor tag channel direction profile steps =>
    cellBytes ([11, tag, channel, direction, profile, 0] ++ halfBytes steps)
  | .holdMotor tag channel => cellBytes [12, tag, channel]
  | .releaseMotor tag channel => cellBytes [13, tag, channel]
  | .setPower tag target snapBack ratio wakeTimer =>
    cellBytes ([14, tag, target, if snapBack then 1 else 0] ++ halfBytes ratio ++ halfBytes wakeTimer)
  | .switchClock tag target => cellBytes [15, tag, target]
  | .stopAll tag => cellBytes [16, tag]
  | .reboot tag => cellBytes [17, tag]
  | .unknownCommand tag code => cellBytes [code, tag]
  | _ => []

/-- The host's question: the command a word spells by the table's bits. The table gives no row any bits, so none does. -/
def decodeTableWord (_nbits _w : Nat) : Option Instr := none

end Sys2Proof
end

