-- ==== Sys2Proof/Machine/Flags.lean ====
section
/-! DEFINITION. Conditions and outputs that are functions of the state: which block is at rest, quiet, the service conditions,
and the part's output pins. Each has one home in the state; nothing here is stored twice. -/

namespace Sys2Proof.Machine

open Sys2Proof

/-! ### Motors (R79, R80) -/

/-- R79: moving in RUN, MOVE and STOPPING. -/
def Channel.moving (c : Channel) : Bool :=
  match c.st with
  | .run | .move | .stopping => true
  | .idle | .hold => false

/-- R79: at rest in IDLE and HOLD. -/
def Channel.atRest (c : Channel) : Bool := !c.moving

/-- R80: the phases A, B, C, D a pattern index energises. -/
def patternPhases : Fin 8 → Bool × Bool × Bool × Bool
  | 0 => (true, false, false, false)
  | 1 => (true, true, false, false)
  | 2 => (false, true, false, false)
  | 3 => (false, true, true, false)
  | 4 => (false, false, true, false)
  | 5 => (false, false, true, true)
  | 6 => (false, false, false, true)
  | 7 => (true, false, false, true)

/-- R80: the four phase outputs: off in IDLE, else those of the pattern index. -/
def Channel.phases (c : Channel) : Bool × Bool × Bool × Bool :=
  match c.st with
  | .idle => (false, false, false, false)
  | .hold | .run | .move | .stopping => patternPhases c.pattern

/-- A channel's record. -/
def State.chan (s : State) : Chan → Channel
  | .doc => s.doc
  | .paper => s.paper

/-- The state with a channel's record replaced. -/
def State.setChan (s : State) (c : Chan) (x : Channel) : State :=
  match c with
  | .doc => s.setDoc x
  | .paper => s.setPaper x

/-- R81, R165: a channel's step mode, fixed by the configuration record. -/
def State.stepMode (s : State) : Chan → StepMode
  | .doc => s.cfg.docMode
  | .paper => s.cfg.paperMode

/-! ### Line rings (R4) -/

/-- R4: the occupancy of a ring, counted modulo 2S. -/
def Ring.occupancy (x : Ring) (d : RingDesc) : Nat := (x.put + 2 * d.slots - x.take) % (2 * d.slots)

/-- R4: the slots a producer holds beside the published ones. -/
def Ring.claimed (x : Ring) : Nat := (if x.held.isSome then 1 else 0) + x.writing.length

/-- R4: the free slots of a ring; a host producer claims none. -/
def Ring.free (x : Ring) (d : RingDesc) : Nat :=
  if d.producer = .host then d.slots - x.occupancy d else d.slots - x.occupancy d - x.claimed

/-- R15: a ring is attached while either side is. -/
def Ring.attached (x : Ring) : Bool := x.prodAttached || x.consAttached

/-- The ring of an id. -/
def State.ring (s : State) (r : RingId) : Ring := s.rings.get r

/-- The state with a ring replaced. -/
def State.setRing (s : State) (r : RingId) (x : Ring) : State := s.setRings (s.rings.set r x)

/-- R4: the occupancy of a ring, 0 where it is UNDEFINED. -/
def State.ringOccupancy (s : State) (r : RingId) : Nat :=
  match (s.ring r).desc with
  | some d => (s.ring r).occupancy d
  | none => 0

/-- R4: the free slots of a ring, 0 where it is UNDEFINED. -/
def State.ringFree (s : State) (r : RingId) : Nat :=
  match (s.ring r).desc with
  | some d => (s.ring r).free d
  | none => 0

/-! ### Scan path -/

/-- R25: a scan stream is active in every state but OFF. -/
def Scan.active (x : Scan) : Bool := x.st != .off

/-- R50: the LAMP output. -/
def State.lamp (s : State) : Bool :=
  match s.scan.st with
  | .waitEdge | .capture | .stalled | .trailing => true
  | .cal => s.scan.params.lamp
  | .off | .ending => false

/-! ### Print path -/

/-- R52: a print stream is active in every state but OFF. -/
def Print.active (x : Print) : Bool := x.st != .off

/-- R66: a heat pulse is in progress from a phase's beginning to its end. -/
def Print.firing (x : Print) : Bool :=
  match x.headLine with
  | some h => h.cycle == .firing
  | none => false

/-- R62, R66: the strobe blocks whose STROBE_N outputs are driven: those of the phase that fires. -/
def State.strobes (s : State) : List Nat :=
  match s.print.headLine with
  | some h => if h.cycle = .firing then ((h.plan.getD h.ended ⟨[], 0⟩).blocks) else []
  | none => []

/-! ### Sense unit -/

/-- R102: the installed entry with a role. -/
def Sense.roleEntry (x : Sense) (r : Role) : Option Installed := x.list.find? (fun e => e.entry.role = r)

/-- R102: the zone of the entry with a role, where one exists. -/
def State.zone (s : State) (r : Role) : Option Zone := (s.sense.roleEntry r).map (·.zone)

/-- R26, R92: the COVER zone is not HIGH and the SUPPLY zone not LOW; an absent role is benign. -/
def State.coverAndSupplyGood (s : State) : Bool := s.zone .cover != some .high && s.zone .supply != some .low

/-! ### Page memory controller -/

/-- R135: a host request is outstanding from the moment it is presented until the host is released: a write until it has
entered the write queue, a read until it is performed. -/
def Pmc.hostOutstanding (x : Pmc) : Bool :=
  x.waiting.any (fun b => b.cls == .host) || x.readQ.any (fun b => b.cls == .host)

/-! ### Clock and power -/

/-- R145: quiet: both channels at rest, no heat pulse and no sense conversion in progress. -/
def State.quiet (s : State) : Bool := s.doc.atRest && s.paper.atRest && !s.print.firing && !s.sense.converting

/-- R138: a crystal source. -/
def Source.isCrystal : Source → Bool
  | .crystal | .crystalX2 => true
  | .fastRc | .slowRc => false

/-- R139: the prescaler of the core source; SLOW_RC produces no microtick. -/
def State.prescaler (s : State) : Option Nat :=
  match s.clk.core with
  | .crystal => some s.cfg.preX
  | .crystalX2 => some s.cfg.preX2
  | .fastRc => some s.cfg.preRc
  | .slowRc => none

/-- R140: HOST_CLK is the core clock divided by this, where it runs. -/
def State.hostClockDivisor (s : State) : Option Nat :=
  if s.clk.hostClk then
    match s.clk.core with
    | .crystal => some (s.cfg.divX * s.clk.ratio)
    | .crystalX2 => some (s.cfg.divX2 * s.clk.ratio)
    | .fastRc => some (s.cfg.divRc * s.clk.ratio)
    | .slowRc => none
  else none

/-- R148: the clock monitor watches the crystal: while the core runs on it, or while a switch to it waits for quiet. -/
def State.monitorWatches (s : State) : Bool :=
  s.cfg.monitor && (s.clk.core.isCrystal
    || (s.clk.sw.st == .waitQuiet && (s.clk.sw.target == some .crystal || s.clk.sw.target == some .crystalX2)))

/-! ### Cell unit -/

/-- R178: the command occupancy. -/
def State.cmdOccupancy (s : State) : Nat :=
  (s.cells.cmdPut + 2 * s.cfg.nc - s.cells.cmdTake) % (2 * s.cfg.nc)

/-- R178: the response occupancy, counted on the cell unit's own indices. -/
def State.respOccupancy (s : State) : Nat :=
  (s.cells.respPut + 2 * s.cfg.nr - s.cells.respTake) % (2 * s.cfg.nr)

/-- R179: the free unreserved response slots. -/
def State.respFree (s : State) : Nat := s.cfg.nr - s.respOccupancy - s.cells.writing.length - s.cells.reserved

/-- R187: the ATTN output. -/
def State.attn (s : State) : Bool := 0 < s.respOccupancy || s.cells.summary != 0

/-- R176: the halfwords the table loader has read. -/
def State.halfwordsRead (s : State) : Nat := ((s.pmc.inbox.filter (·.req = .tableLoad)).map (·.data.length)).sum

/-- R180: the refusals ahead of a start command's own checks: ENTERING, or a STOP ALL in flight. -/
def State.startRefused (s : State) : Bool := s.clk.power == .entering || s.cells.stopAll.isSome

end Sys2Proof.Machine
end

