-- ==== Sys2Proof/Machine/Ops.lean ====
section
/-! DEFINITION. The named operations over page memory, transfers, response cells and the snapshot that every block uses. -/

namespace Sys2Proof.Machine

open Sys2Proof

/-! ### Page memory: a list of (address, byte), strictly rising, no byte 0 listed (log entry 3) -/

/-- What an unlisted address reads as. DESIGN CHOICE, log entry 3. -/
def unlistedByte : Byte := 0

/-- One byte of page memory. -/
def readByte : List Host.Cell → Nat → Byte
  | [], _ => unlistedByte
  | (b, v) :: rest, a => if a = b then v else readByte rest a

/-- One byte stored, in canonical form. -/
def writeByte : List Host.Cell → Nat → Byte → List Host.Cell
  | [], a, v => if v = unlistedByte then [] else [(a, v)]
  | (b, w) :: rest, a, v =>
    if a < b then (if v = unlistedByte then (b, w) :: rest else (a, v) :: (b, w) :: rest)
    else if a = b then (if v = unlistedByte then rest else (a, v) :: rest)
    else (b, w) :: writeByte rest a v

/-- The canonical form: addresses strictly rising, no listed byte equal to what an unlisted address reads as. -/
def memoryWf : List Host.Cell → Bool
  | [] => true
  | [(_, v)] => v != unlistedByte
  | (a, v) :: (b, w) :: rest => v != unlistedByte && decide (a < b) && memoryWf ((b, w) :: rest)

/-- R193: the halfword at a halfword address, its low byte at the lower address. -/
def readHalf (m : List Host.Cell) (h : Nat) : Half := halfOf (readByte m (2 * h)) (readByte m (2 * h + 1))

/-- Consecutive halfwords from a halfword address. -/
def readHalves (m : List Host.Cell) (h : Nat) : Nat → List Half
  | 0 => []
  | n + 1 => readHalf m h :: readHalves m (h + 1) n

/-- R129: a halfword stored under byte enables. -/
def writeHalf (m : List Host.Cell) (h : Nat) (d : Half) (low high : Bool) : List Host.Cell :=
  let m := if low then writeByte m (2 * h) (lowByte d) else m
  if high then writeByte m (2 * h + 1) (highByte d) else m

/-- Consecutive halfwords stored from a halfword address. -/
def writeHalves (m : List Host.Cell) (h : Nat) (low high : Bool) : List Half → List Host.Cell
  | [] => m
  | d :: ds => writeHalves (writeHalf m h d low high) (h + 1) low high ds

/-- R122: the bytes of a cut write burst, each a free value (log entry 2). -/
def cutBytes (m : List Host.Cell) (free : Nat) (a : Nat) : Nat → List Host.Cell
  | 0 => m
  | n + 1 => cutBytes (writeByte m a (Config.cutWriteByte free a)) free (a + 1) n

/-! ### Transfers (R119, R120) -/

/-- R119: a transfer cut into bursts in address order, each ending at 16 halfwords, at the row's end or at the transfer's end.
The first argument is fuel, the transfer's length. -/
def cutBursts (rowLen : Nat) (dir : Dir) (cls : MemClass) (req : Req) : Nat → Nat → Nat → List Half → List Burst
  | 0, _, _, _ => []
  | fuel + 1, h, len, data =>
    if len = 0 then [] else
    let n := max 1 (min Config.burstLength (min (rowLen - h % rowLen) len))
    { dir := dir, cls := cls, half := h, len := n, data := data.take n, last := decide (len ≤ n), req := req }
      :: cutBursts rowLen dir cls req fuel (h + n) (len - n) (data.drop n)

/-- R120: bursts offered to the controller wait outside until they enter a queue. -/
def State.offer (s : State) (bs : List Burst) : State := s.setPmc { s.pmc with waiting := s.pmc.waiting ++ bs }

/-- A read transfer of `len` halfwords from a byte address. -/
def State.issueRead (s : State) (cls : MemClass) (req : Req) (address len : Nat) : State :=
  s.offer (cutBursts s.cfg.rowLen .read cls req len (address / 2) len [])

/-- A write transfer of halfwords to a byte address. -/
def State.issueWrite (s : State) (cls : MemClass) (req : Req) (address : Nat) (data : List Half) : State :=
  s.offer (cutBursts s.cfg.rowLen .write cls req data.length (address / 2) data.length data)

/-- A word of the control block written with a number. -/
def State.writeWord (s : State) (cls : MemClass) (offset value : Nat) : State :=
  s.issueWrite cls .word (s.cfg.cbAddr + offset) [BitVec.ofNat 16 value]

/-! ### What a requester holds while its burst waits outside (R120, log entry 24) -/

/-- R120: a burst of a class waits outside the queues: its requester begins no further transfer of its own. -/
def State.burstWaits (s : State) (c : MemClass) : Bool := s.pmc.waiting.any fun b => b.cls = c

/-- R120: a word of the control block waits outside the queues: its requester goes on with no acknowledgement. A transfer whose
completion is awaited holds its own work until that comes. -/
def State.wordWaits (s : State) (c : MemClass) : Bool :=
  s.pmc.waiting.any fun b => b.cls = c && (b.req = .word || b.req = .respPut)

/-! ### What has been delivered (R121) -/

/-- A delivery for a requester is complete. -/
def Pmc.hasDone (x : Pmc) (q : Req) : Bool := x.inbox.any (fun d => d.req = q && d.complete)

/-- How many deliveries for a requester are complete. -/
def Pmc.countDone (x : Pmc) (q : Req) : Nat := x.inbox.countP (fun d => d.req = q && d.complete)

/-- The data of the complete deliveries for a requester, oldest first. -/
def Pmc.dataOf (x : Pmc) (q : Req) : List Half :=
  (x.inbox.filter (fun d => d.req = q && d.complete)).flatMap (·.data)

/-- The oldest complete delivery for a requester is taken. -/
def takeFirst (q : Req) : List Delivery → List Delivery
  | [] => []
  | d :: ds => if d.req = q && d.complete then ds else d :: takeFirst q ds

/-- The state after the oldest complete delivery for a requester is taken. -/
def State.takeOne (s : State) (q : Req) : State := s.setPmc { s.pmc with inbox := takeFirst q s.pmc.inbox }

/-- The state after everything delivered to a requester is taken. -/
def State.takeAll (s : State) (q : Req) : State :=
  s.setPmc { s.pmc with inbox := s.pmc.inbox.filter (fun d => d.req ≠ q) }

/-- R121: a performed burst joins what has been delivered to its requester; the last one completes it. -/
def deliver (q : Req) (data : List Half) (last : Bool) : List Delivery → List Delivery
  | [] => [{ req := q, data := data, complete := last }]
  | d :: ds =>
    if d.req = q && !d.complete then { req := q, data := d.data ++ data, complete := last } :: ds
    else d :: deliver q data last ds

/-! ### Response cells (R182, R185) -/

/-- R175: the byte address of a response slot. -/
def State.respSlot (s : State) (slot : Nat) : Nat := s.cfg.cbAddr + 256 + 16 * s.cfg.nc + 16 * slot

/-- R175: the byte address of a command slot. -/
def State.cmdSlot (s : State) (slot : Nat) : Nat := s.cfg.cbAddr + 256 + 16 * slot

/-- R182: a cell is given the next response slot, joins the writing list and its 16 bytes are written. -/
def State.writeCell (s : State) (mark : CellMark) (bytes : List Byte) : State :=
  let slot := (s.cells.respPut + s.cells.writing.length) % s.cfg.nr
  let s := s.setCells { s.cells with writing := s.cells.writing ++ [⟨slot, mark⟩] }
  s.issueWrite .cell .respCell (s.respSlot slot) (bytesToHalves (cellBytes bytes))

/-- R185, R177: the summary word and the dropped count word are written. -/
def State.writeSummary (s : State) : State :=
  (s.writeWord .cell 0x08 s.cells.summary.toNat).writeWord .cell 0x0A s.cells.dropped

/-- The bit of a kind in the summary (10.3). -/
def summaryBit (k : Kind) : BitVec 16 := 1 <<< kindCode k

/-- R185: a kind joins the summary and the dropped count goes up by 1, saturating; the words are written where either
changed. -/
def State.recordLost (s : State) (k : Kind) : State :=
  let summary := s.cells.summary ||| summaryBit k
  let dropped := satAdd 255 s.cells.dropped 1
  let changed := summary != s.cells.summary || dropped != s.cells.dropped
  let s := s.setCells { s.cells with summary := summary, dropped := dropped }
  if changed then s.writeSummary else s

/-- R185: whether an event cell handed now takes a slot. -/
def State.eventFits (s : State) : Bool := s.cells.taking != .notStarted && decide (0 < s.respFree)

/-- R185, R194: an event cell is handed: kind, tag, result and the kind's fields from byte 3. In NOT_STARTED it is neither
written nor recorded (R176). -/
def State.handEvent (s : State) (k : Kind) (tag : Byte) (r : Result) (fields : List Byte)
    (mark : CellMark := .plain) : State :=
  if s.cells.taking = .notStarted then s
  else if 0 < s.respFree then s.writeCell mark ([byte (kindCode k), tag, byte (resultCode r)] ++ fields)
  else s.recordLost k

/-- R181, R182: a command's DONE cell is handed into the slot reserved for it, and the command leaves flight. A DONE without a
reservation does not exist (R183). -/
def State.handDone (s : State) (tag : Byte) (code : Nat) (r : Result) (detail : List Byte := [])
    (mark : CellMark := .plain) : State :=
  if s.cells.taking = .notStarted ∨ s.cells.reserved = 0 then s
  else
    let s := s.setCells { s.cells with
      reserved := s.cells.reserved - 1
      inFlight := s.cells.inFlight.erase ⟨code, tag⟩ }
    s.writeCell mark ([byte (kindCode .done), tag, byte (resultCode r), byte code] ++ detail)

/-- R179, R180: a taken command is judged by its owner: the oldest handed command is this one, and it is taken from the list.
`none` where it is not: the command then does not occur (log entry 8). -/
def State.claimCommand (s : State) (i : Instr) : Option State :=
  match s.cells.handed with
  | [] => none
  | j :: rest => if j = i then some (s.setCells { s.cells with handed := rest }) else none

/-- R136: an arrival is taken: the oldest one handed is this one. `none` where it is not (log entry 8). -/
def State.claimArrival (s : State) (offset : Nat) (value : Half) : Option State :=
  match s.pmc.arrivals with
  | [] => none
  | a :: rest => if a = ⟨offset, value⟩ then some (s.setPmc { s.pmc with arrivals := rest }) else none

/-! ### The status snapshot (R188, 10.3) -/

/-- R109: one sense position of the snapshot; reading 0 and UNKNOWN beyond the installed list. -/
def snapshotPosition (l : List Installed) (j : Nat) : Half :=
  match l[j]? with
  | some e => pair e.reading (zoneCode e.zone)
  | none => pair 0 (zoneCode .unknown)

/-- 10.3: the two halfwords of a channel. -/
def snapshotChannel (c : Channel) : List Half :=
  [pair (chanStateCode c.st) (ownerCode c.owner), BitVec.ofNat 16 c.pattern.val]

/-- R188, 10.3: the snapshot's 32 halfwords, offsets 20 to 5E hex, with a sequence and the boot state it shows. -/
def State.snapshotHalves (s : State) (sequence : Nat) (bootState : BootState) : List Half :=
  [BitVec.ofNat 16 sequence]
  ++ (List.range 12).map (snapshotPosition s.sense.list)
  ++ [pair (flag s.lines.hook.stable 0) (flag s.lines.key.stable 0), BitVec.ofNat 16 s.lines.ringCount]
  ++ snapshotChannel s.doc ++ snapshotChannel s.paper
  ++ [pair (scanStateCode s.scan.st) (printStateCode s.print.st),
      halfOf (optByte (s.print.pauseReason.map printReasonCode)) (byte (linkStateCode s.link.st)),
      pair (powerCode s.clk.power) s.clk.ratio,
      pair (sourceCode s.clk.core) (switchStateCode s.clk.sw.st),
      halfOf (optByte (s.clk.sw.target.map sourceCode)) (optByte (s.clk.sourceBefore.map sourceCode)),
      BitVec.ofNat 16 (flag s.clk.failed 0),
      pair (coldCauseCode s.boot.cause) (bootStateCode bootState),
      s.boot.defaulted, BitVec.ofNat 16 s.boot.images,
      BitVec.ofNat 16 s.cells.reserved, BitVec.ofNat 16 s.cells.inFlight.length,
      BitVec.ofNat 16 (flag s.cells.stopAll.isSome 0 + flag (s.cells.loader != .idle) 1),
      BitVec.ofNat 16 sequence]

/-- R188: the cell unit writes the snapshot with the values now held; the sequence goes up by 1. -/
def State.writeSnapshot (s : State) : State :=
  let sequence := (s.cells.sequence + 1) % 65536
  let s := s.setCells { s.cells with sequence := sequence, snapBusy := true, snapOwed := false }
  s.issueWrite .cell .snapshot (s.cfg.cbAddr + 0x20) (s.snapshotHalves sequence s.boot.st)

/-- R188: a snapshot falls due: not while NOT_STARTED, nor in ENTERING, STANDBY or LEAVING; owed while the previous one's
writes are unacknowledged. -/
def State.snapshotDue (s : State) : State :=
  if s.cells.taking = .notStarted then s
  else
    match s.clk.power with
    | .entering | .standby | .leaving => s
    | .run | .slow => if s.cells.snapBusy then s.setCells { s.cells with snapOwed := true } else s.writeSnapshot

end Sys2Proof.Machine
end

