-- ==== Sys2Proof/Machine/Motion.lean ====
section
/-! DEFINITION. The motion controller (chapter 4): steps, the ramp rule, start and stop requests, the emergency stop of one
channel, release for standby, and the host commands. -/

namespace Sys2Proof.Machine

open Sys2Proof

/-! ### Steps and the ramp (R81, R84) -/

/-- R81: how far a step moves the pattern index. -/
def patternStride (mode : StepMode) (p : Fin 8) : Fin 8 :=
  match mode with
  | .half => 1
  | .full => if p.val % 2 = 0 then 1 else 2

/-- R81: the pattern index after a step. -/
def patternStep (mode : StepMode) (dir : Direction) (p : Fin 8) : Fin 8 :=
  match dir with
  | .forward => p + patternStride mode p
  | .back => p - patternStride mode p

/-- R84: the ramp index after a step, from the remaining steps after it and the profile's length. -/
def rampAfter (n i : Nat) : Option Nat → Nat
  | some rem => if rem ≤ i then i - 1 else if i + 1 < rem ∧ i + 1 < n then i + 1 else i
  | none => if i + 1 < n then i + 1 else i

/-- R82: the intervals of a profile. -/
def State.profile (s : State) (p : Fin 8) : List Nat := s.tables.profiles.getD p.val []

/-- R84: one step of a channel: the pattern moves, the counts follow, the ramp index is updated; with no step remaining the
channel enters HOLD and its timer stops (R85), its stop cause kept (log entry 25), otherwise the timer runs on the interval at the
new index. -/
def Channel.step (c : Channel) (mode : StepMode) (profile : List Nat) : Channel :=
  let remaining := c.remaining.map (· - 1)
  let ramp := rampAfter profile.length c.ramp remaining
  let c := { c with pattern := patternStep mode c.direction c.pattern, remaining := remaining, ramp := ramp
                    taken := satAdd 65535 c.taken 1 }
  if remaining = some 0 then { c with st := .hold, timer := none }
  else { c with timer := some (profile.getD ramp 0) }

/-- R85: the cause a move that came to its end reports. -/
def Channel.endCause (c : Channel) : EndCause :=
  if c.requested = some c.taken then .complete
  else
    match c.stopCause with
    | some .request => .request
    | some .stopped => .stopped
    | some .cover => .cover
    | none => .complete

/-! ### Requests (R83, R86, R88) -/

/-- R83: a start request, taken at rest alone (R91). -/
def Channel.start (c : Channel) (requester : Owner) (dir : Direction) (profile : Fin 8) (intervals : List Nat)
    (steps : Option Nat) (tag : Byte) : Channel :=
  if c.moving then c
  else
    { c with
      st := if steps.isSome then .move else .run
      requester := requester, direction := dir, profile := profile, requested := steps, remaining := steps
      ramp := 0, taken := 0, stopCause := none, tag := tag, timer := some (intervals.getD 0 0) }

/-- R86: a stop request: a channel in RUN or MOVE keeps i + 1 steps and is STOPPING, with the request's cause; where the count is
i + 1 already the state alone changes; in any other state nothing changes. -/
def Channel.stop (c : Channel) (cause : StopCause) : Channel :=
  match c.st with
  | .run | .move =>
    if c.remaining = some (c.ramp + 1) then { c with st := .stopping }
    else { c with st := .stopping, remaining := some (c.ramp + 1), stopCause := some cause }
  | .idle | .hold | .stopping => c

/-- R88: an emergency stop of a moving channel: no further step, HOLD on the pattern of the last step, nothing remaining; the ramp
index and stop cause are kept (log entry 25). -/
def Channel.emergency (c : Channel) : Channel :=
  if c.moving then { c with st := .hold, remaining := some 0, timer := none } else c

/-- R98: a held channel is released and marked, an idle one left with the mark no. -/
def Channel.releaseForStandby (c : Channel) : Channel :=
  match c.st with
  | .hold => { c with st := .idle, released := true }
  | .idle => { c with released := false }
  | .run | .move | .stopping => c

/-- R98: the release is undone: a marked channel holds again, and the mark returns to no. -/
def Channel.undoRelease (c : Channel) : Channel :=
  if c.released then { c with st := .hold, released := false } else c

/-- A start request to a channel (R83); a stream's carries no tag and leaves 0 there (log entry 26). -/
def State.startMove (s : State) (c : Chan) (requester : Owner) (dir : Direction) (profile : Fin 8) (steps : Option Nat)
    (tag : Byte := 0) : State :=
  s.setChan c ((s.chan c).start requester dir profile (s.profile profile) steps tag)

/-- A stop request to a channel (R86). -/
def State.stopMove (s : State) (c : Chan) (cause : StopCause) : State := s.setChan c ((s.chan c).stop cause)

/-- R89: a stop request on each moving channel. -/
def State.stopBoth (s : State) (cause : StopCause) : State := (s.stopMove .doc cause).stopMove .paper cause

/-! ### Ends of host moves (R93) -/

/-- R93: the result of a host move's DONE. -/
def moveResult : EndCause → Result
  | .complete => .done
  | .request | .stopped | .cover | .supply | .clock => .aborted

/-- The bytes of a requested count; a host move is bounded. -/
def requestedSteps (o : Option Nat) : Nat := o.getD 0

/-- R93: a host move's end hands MOVE_END, then the MOVE MOTOR's DONE, with the end cause for every cause (log entry 10). -/
def State.reportHostEnd (s : State) (ch : Chan) (c : Channel) (cause : EndCause) : State :=
  let s := s.handEvent .moveEnd c.tag .done
    ([byte (chanCode ch), byte (endCauseCode cause), byte c.pattern.val] ++ twoBytes (requestedSteps c.requested)
      ++ twoBytes c.taken)
  s.handDone c.tag 11 (moveResult cause) (twoBytes c.taken ++ [byte (endCauseCode cause)])

/-! ### Host commands (R92, R94, R95) -/

/-- R92: the arguments of a MOVE MOTOR in range. -/
structure MoveArgs where
  channel : Chan
  direction : Direction
  profile : Fin 8
  steps : Nat
  deriving DecidableEq, Repr

/-- R92: the range check of MOVE MOTOR's arguments. -/
def moveArgs (channel direction profile : Byte) (steps : Half) : Option MoveArgs :=
  match chanOf channel.toNat, directionOf direction.toNat, profileOf profile.toNat with
  | some c, some d, some p => if steps.toNat = 0 then none else some ⟨c, d, p, steps.toNat⟩
  | _, _, _ => none

/-- R92: what refuses a MOVE MOTOR whose arguments are in range, if anything. -/
def State.checkMove (s : State) (a : MoveArgs) : Option Result :=
  if (s.chan a.channel).owner ≠ .host then some .inUse
  else if (s.chan a.channel).moving then some .busy
  else if s.clk.power = .entering then some .busy
  else if s.profile a.profile = [] then some .notReady
  else if ¬ s.coverAndSupplyGood then some .notReady
  else none

/-- MOVE_MOTOR (R92); refused BUSY ahead of its checks while a STOP ALL is in flight (R180). -/
def execMoveMotor (tag channel direction profile : Byte) (steps : Half) (s : State) : Out :=
  match s.claimCommand (.moveMotor tag channel direction profile steps) with
  | none => .next s
  | some s =>
    if s.cells.stopAll.isSome then .next (s.handDone tag 11 .busy)
    else
      match moveArgs channel direction profile steps with
      | none => .next (s.handDone tag 11 .badArg)
      | some a =>
        match s.checkMove a with
        | some r => .next (s.handDone tag 11 r)
        | none => .next (s.startMove a.channel .host a.direction a.profile (some a.steps) tag)

/-- R94: what refuses a HOLD MOTOR, if anything. -/
def State.checkHold (s : State) (c : Chan) : Option Result :=
  if (s.chan c).owner ≠ .host then some .inUse
  else if (s.chan c).moving ∨ s.clk.power = .entering then some .busy
  else none

/-- HOLD_MOTOR (R94). -/
def execHoldMotor (tag channel : Byte) (s : State) : Out :=
  match s.claimCommand (.holdMotor tag channel) with
  | none => .next s
  | some s =>
    match chanOf channel.toNat with
    | none => .next (s.handDone tag 12 .badArg)
    | some c =>
      match s.checkHold c with
      | some r => .next (s.handDone tag 12 r)
      | none =>
        let s := s.setChan c { s.chan c with st := .hold }
        .next (s.handDone tag 12 .done [byte (s.chan c).pattern.val])

/-- R95: what refuses a RELEASE MOTOR, if anything. -/
def State.checkRelease (s : State) (c : Chan) : Option Result :=
  if (s.chan c).owner ≠ .host then some .inUse
  else if (s.chan c).moving then some .busy
  else none

/-- RELEASE_MOTOR (R95). -/
def execReleaseMotor (tag channel : Byte) (s : State) : Out :=
  match s.claimCommand (.releaseMotor tag channel) with
  | none => .next s
  | some s =>
    match chanOf channel.toNat with
    | none => .next (s.handDone tag 13 .badArg)
    | some c =>
      match s.checkRelease c with
      | some r => .next (s.handDone tag 13 r)
      | none => .next ((s.setChan c { s.chan c with st := .idle }).handDone tag 13 .done)

end Sys2Proof.Machine
end

