-- ==== Sys2Proof/Machine/Pels.lean ====
section
/-! DEFINITION. The pel arithmetic of the scan path (2.4): shading, tone, the bilevel decision, error diffusion and packing. -/

namespace Sys2Proof.Machine

open Sys2Proof

/-- R33: the corrected value of a sample under its shading entry. -/
def shadeSample (e : Shade) (s : Nat) : Nat := min 255 (((s - e.offset) * e.gain + 128) / 256)

/-- R34: the tone table's entry of a corrected value. -/
def toneOf (tone : List Nat) (c : Nat) : Nat := tone.getD c 0

/-- R33, R34: the tone values of a line of samples, pel 0 first. -/
def toneLine (shading : List Shade) (tone : List Nat) (samples : List Byte) : List Nat :=
  List.zipWith (fun e s => toneOf tone (shadeSample e s.toNat)) shading samples

/-- R36: a share of an error: the magnitude of `k × e / 16` truncated, with the sign of e. -/
def errorShare (k e : Int) : Int := Int.tdiv (k * e) 16

/-- R35: the pel is black when the value is below 128. -/
def diffuseBlack (v : Int) : Bool := decide (v < 128)

/-- R35: the pel's error: the value less its output level. -/
def diffuseError (v : Int) : Int := if diffuseBlack v then v else v - 255

/-- R36: what remains for the pel below. -/
def belowShare (e : Int) : Int := e - errorShare 7 e - errorShare 3 e - errorShare 1 e

/-- R35, R36: one line of error diffusion over (tone value, current-row entry) pairs, pel 0 first. `prev` is the next-row entry of
the pel before, which lacks this pel's below-left share alone (absent for pel 0, whose share is discarded); `cur` is what this
pel's own entry has gathered; `carry` the right carry. Answers the pels and the next-row entries; the last pel's right and
below-right shares are discarded. -/
def diffuse (prev : Option Int) (cur carry : Int) : List (Nat × Int) → List Bool × List Int
  | [] => ([], prev.toList)
  | (t, row) :: rest =>
    let v := (t : Int) + (row + carry)
    let e := diffuseError v
    let tail := diffuse (some (cur + belowShare e)) (errorShare 1 e) (errorShare 7 e) rest
    (diffuseBlack v :: tail.1, (prev.map (· + errorShare 3 e)).toList ++ tail.2)

/-- R36: shares added to the entries of a row store; entries beyond the line stay. -/
def addRow : List Int → List Int → List Int
  | a :: as, b :: bs => (a + b) :: addRow as bs
  | [], bs => bs
  | as, [] => as

/-- R34: the pels of a TEXT line: black when the tone value is less than the threshold. -/
def textLine (theta : Nat) (tones : List Nat) : List Bool := tones.map (fun t => decide (t < theta))

/-- R193, R39: 32 pels as a word, the first in bit 31. -/
def packWord (pels : List Bool) : Word :=
  BitVec.ofNat 32 (pels.foldl (fun acc b => 2 * acc + (if b then 1 else 0)) 0)

/-- R39: pels as `n` words. -/
def packWords : Nat → List Bool → List Word
  | 0, _ => []
  | n + 1, pels => packWord (pels.take 32) :: packWords n (pels.drop 32)

/-- A cleared row store (R25). -/
def zeroRow : List Int := List.replicate 2048 0

end Sys2Proof.Machine
end

