-- ==== Sys2Proof/Machine/Rings.lean ====
section
/-! DEFINITION. The ring manager's operations (chapter 1): claim, acknowledge, publish, page end, release, attach; SET RING and
the host's put writes. What a block does when it is told of one of these stands with the block. -/

namespace Sys2Proof.Machine

open Sys2Proof

/-- R5, R118: the class of the writes made on behalf of a side; a word of a host-owned index, written by SET RING alone, goes
with the cell unit's class (log entry 16). -/
def sideClass : Side → MemClass
  | .scan => .scan
  | .print => .print
  | .link => .link
  | .host => .cell

/-- R2: the byte address of a slot. -/
def RingDesc.slotAddress (d : RingDesc) (n : Nat) : Nat := d.base + n * (8 + 4 * d.words)

/-- 10.3: the offset of a ring's put word. -/
def putOffset (r : RingId) : Nat := 0x10 + 4 * r.val

/-- 10.3: the offset of a ring's take word. -/
def takeOffset (r : RingId) : Nat := 0x12 + 4 * r.val

/-- R9: a part producer claims the next slot, which joins the writing list, and issues the slot's writes: the words, then the
tag. -/
def State.claimSlot (s : State) (r : RingId) (d : RingDesc) (tag : Tag) (words : List Word) (buf : Option BufId) : State :=
  let x := s.ring r
  let slot := (x.put + x.claimed) % d.slots
  let s := s.setRing r { x with writing := x.writing ++ [{ slot := slot, tag := tag, buf := buf }] }
  let s := s.issueWrite (sideClass d.producer) .slotWords (d.slotAddress slot + 8) (wordsToHalves words)
  s.issueWrite (sideClass d.producer) (.slotTag r) (d.slotAddress slot) (tagHalves tag)

/-- R10: a slot is published: put advances by 1 and the put word is written. -/
def State.publish (s : State) (r : RingId) (d : RingDesc) : State :=
  let put := ((s.ring r).put + 1) % (2 * d.slots)
  let s := s.setRing r { s.ring r with put := put }
  s.writeWord (sideClass d.producer) (putOffset r) put

/-- R10: the oldest writing slot leaves the list; an abandoned claim changes nothing else (R23); otherwise a slot held before is
published and this one becomes the held slot. -/
def State.acknowledgeSlot (s : State) (r : RingId) (d : RingDesc) (c : Claim) (rest : List Claim) : State :=
  let x := s.ring r
  let s := s.setRing r { x with writing := rest }
  if c.abandoned then s
  else
    let s := if x.held.isSome then s.publish r d else s
    s.setRing r { s.ring r with held := some ⟨c.slot, c.tag⟩ }

/-- R11: a page-end request is handed over; one already waiting or rewriting stands (log entry 14). -/
def State.askPageEnd (s : State) (r : RingId) (lostTail : Bool) : State :=
  match (s.ring r).pageEnd with
  | some _ => s
  | none => s.setRing r { s.ring r with pageEnd := some { lostTail := lostTail } }

/-- R11: a waiting page-end request acts once the writing list is empty: the held slot's tag is written again with END_OF_PAGE,
and with LOST_TAIL where the request says so; with no held slot the page end is complete at once. -/
def State.beginPageEnd (s : State) (r : RingId) (d : RingDesc) : State :=
  let x := s.ring r
  match x.pageEnd, x.writing with
  | some { lostTail := lost, rewriting := false }, [] =>
    match x.held with
    | some h =>
      let tag := { h.tag with endOfPage := true, lostTail := h.tag.lostTail || lost }
      let s := s.setRing r { x with held := some { h with tag := tag }, pageEnd := some ⟨lost, true⟩ }
      s.issueWrite (sideClass d.producer) (.pageEndTag r) (d.slotAddress h.slot) (tagHalves tag)
    | none => s.setRing r { x with pageEnd := none }
  | _, _ => s

/-- R11: the rewritten tag is acknowledged: the held slot is published and no slot is held; the page end is complete. -/
def State.finishPageEnd (s : State) (r : RingId) (d : RingDesc) : State :=
  let s := s.publish r d
  s.setRing r { s.ring r with held := none, pageEnd := none }

/-- R13: a part consumer's release of 1 to occupancy slots: take advances and the take word is written. A release of more than
the occupancy does not exist. -/
def State.releaseTake (s : State) (r : RingId) (n : Nat) : State :=
  match (s.ring r).desc with
  | none => s
  | some d =>
    if n = 0 ∨ (s.ring r).occupancy d < n then s
    else
      let take := ((s.ring r).take + n) % (2 * d.slots)
      let s := s.setRing r { s.ring r with take := take }
      s.writeWord (sideClass d.consumer) (takeOffset r) take

/-- R14: the checks of a producer-side attach, after the ring id: what refuses it, if anything. -/
def State.attachProducerCheck (s : State) (r : RingId) (side : Side) : Option Result :=
  match (s.ring r).desc with
  | none => some .notReady
  | some d =>
    if d.producer ≠ side then some .badArg
    else if (s.ring r).prodAttached then some .inUse
    else none

/-- R14: the checks of a consumer-side attach, after the ring id: what refuses it, if anything. -/
def State.attachConsumerCheck (s : State) (r : RingId) (side : Side) : Option Result :=
  match (s.ring r).desc with
  | none => some .notReady
  | some d =>
    if d.consumer ≠ side then some .badArg
    else if (s.ring r).consAttached then some .inUse
    else none

def State.attachProducer (s : State) (r : RingId) (on : Bool) : State :=
  s.setRing r { s.ring r with prodAttached := on }

def State.attachConsumer (s : State) (r : RingId) (on : Bool) : State :=
  s.setRing r { s.ring r with consAttached := on }

/-! ### SET RING (R16) -/

/-- R16, R175: a region overlaps the control block, the cell rings counted with it. -/
def BoardConfig.overlapsControl (c : BoardConfig) (base len : Nat) : Bool :=
  base < c.cbAddr + areaLength c.nc c.nr && c.cbAddr < base + len

/-- R16: a descriptor's values as SET RING carries them, or the result that refuses them. -/
def State.checkSetRing (s : State) (ring producer consumer : Byte) (slots words : Half) (base : Word) :
    Except Result (RingId × RingDesc) :=
  match ringOf ring with
  | none => .error .badArg
  | some r =>
    if (s.ring r).attached then .error .inUse
    else if ¬(2 ≤ slots.toNat ∧ slots.toNat ≤ 1024 ∧ 1 ≤ words.toNat ∧ words.toNat ≤ 64) then .error .badArg
    else
      match sideOf producer.toNat, sideOf consumer.toNat with
      | some p, some c =>
        if p = .print ∨ c = .scan ∨ (p = .link ∧ c = .link) ∨ (p = .host ∧ c = .host) then .error .badArg
        else if base.toNat % 4 ≠ 0 then .error .badArg
        else
          let len := slots.toNat * (8 + 4 * words.toNat)
          if s.cfg.memSize < base.toNat + len ∨ s.cfg.overlapsControl base.toNat len then .error .badArg
          else .ok (r, { base := base.toNat, slots := slots.toNat, words := words.toNat, producer := p, consumer := c })
      | _, _ => .error .badArg

/-- R16: an accepted SET RING: the definition replaced, both indices and their words 0. -/
def State.installRing (s : State) (r : RingId) (d : RingDesc) : State :=
  let s := s.setRing r { desc := some d }
  let s := s.writeWord (sideClass d.producer) (putOffset r) 0
  s.writeWord (sideClass d.consumer) (takeOffset r) 0

/-- SET_RING (R16). -/
def execSetRing (tag ring producer consumer : Byte) (slots words : Half) (base : Word) (s : State) : Out :=
  match s.claimCommand (.setRing tag ring producer consumer slots words base) with
  | none => .next s
  | some s =>
    match s.checkSetRing ring producer consumer slots words base with
    | .error r => .next (s.handDone tag 2 r)
    | .ok (r, d) => .next ((s.installRing r d).handDone tag 2 .done)

/-! ### The host's index writes (R6, R8) -/

/-- The code of a put index in a FAULT cell (10.2). -/
def putIndexCode : Nat := 0

/-- The code of a take index in a FAULT cell (10.2). -/
def takeIndexCode : Nat := 1

/-- R8: the FAULT cell of reason RING_INDEX. -/
def State.ringFault (s : State) (r : RingId) (index : Nat) (written held : Nat) : State :=
  s.handEvent .fault 0 .done ([byte 0, byte r.val, byte index] ++ twoBytes written ++ twoBytes held)

/-- R6, R7: the advance of an index to a written value, modulo 2S. -/
def indexAdvance (slots now written : Nat) : Nat := (written + 2 * slots - now) % (2 * slots)

/-- R6: a written put is refused where it is no index or would bring the occupancy to more than S. -/
def putRefused (x : Ring) (d : RingDesc) (written : Nat) : Bool :=
  decide (2 * d.slots ≤ written) || decide (d.slots < x.occupancy d + indexAdvance d.slots x.put written)

/-- R7: a written take is refused where it is no index or would pass put. -/
def takeRefused (x : Ring) (d : RingDesc) (written : Nat) : Bool :=
  decide (2 * d.slots ≤ written) || decide (x.occupancy d < indexAdvance d.slots x.take written)

/-- LINE_RING_PUT_WRITE (R5, R6, R8): a put of a ring that is UNDEFINED or whose producer is no host has no effect. -/
def execLineRingPutWrite (r : RingId) (value : Half) (s : State) : Out :=
  match s.claimArrival (putOffset r) value with
  | none => .next s
  | some s =>
    match (s.ring r).desc with
    | none => .next s
    | some d =>
      if d.producer ≠ .host then .next s
      else if putRefused (s.ring r) d value.toNat then .next (s.ringFault r putIndexCode value.toNat (s.ring r).put)
      else .next (s.setRing r { s.ring r with put := value.toNat })

end Sys2Proof.Machine
end

