-- ==== Sys2Proof/Machine/Scan.lean ====
section
/-! DEFINITION. The scan path (chapter 2): the stream's start and stop, line triggers, readouts, page framing, stalls, and the
calibration stream. -/

namespace Sys2Proof.Machine

open Sys2Proof

/-! ### Buffers and losses (R29, R32, R37) -/

/-- R25: why a line is lost. -/
inductive LostReason where
  | noBuffer | overrun | noSlot
  deriving DecidableEq, Repr

/-- R32: a lost line adds 1 to the count of its reason and to lost since written. -/
def Scan.lose (x : Scan) (why : LostReason) : Scan :=
  let x := { x with lostSinceWritten := satAdd 255 x.lostSinceWritten 1 }
  match why with
  | .noBuffer => { x with lostNoBuffer := satAdd 65535 x.lostNoBuffer 1 }
  | .overrun => { x with lostOverrun := satAdd 65535 x.lostOverrun 1 }
  | .noSlot => { x with lostNoSlot := satAdd 65535 x.lostNoSlot 1 }

def Scan.buf (x : Scan) : BufId → ScanBuf
  | .a => x.bufA
  | .b => x.bufB

def Scan.setBuf (x : Scan) (i : BufId) (y : ScanBuf) : Scan :=
  match i with
  | .a => { x with bufA := y }
  | .b => { x with bufB := y }

/-- The buffer of the readout in progress. -/
def Scan.readoutBuf (x : Scan) : Option BufId :=
  if x.bufA.st = .readout then some .a else if x.bufB.st = .readout then some .b else none

/-- R29: the buffer a new readout takes: A where it is FREE, else B where it is. -/
def Scan.freeBuf (x : Scan) : Option BufId :=
  if x.bufA.st = .free then some .a else if x.bufB.st = .free then some .b else none

/-- R39: a readout begins in a buffer, whose words are cleared. -/
def Scan.beginReadout (x : Scan) (i : BufId) : Scan := x.setBuf i { st := .readout, words := [], black := 0 }

/-- R37: an abandoned readout clears the next row and the right carry. -/
def Scan.clearNext (x : Scan) : Scan := { x with nextRow := zeroRow, carry := 0 }

/-- R29, R43: the readout in progress, if any, is abandoned and its line lost OVERRUN. -/
def Scan.abandonReadout (x : Scan) : Scan :=
  match x.readoutBuf with
  | some i => ((x.setBuf i {}).lose .overrun).clearNext
  | none => x

/-! ### Page end (R44, R45) -/

/-- R45: the result of a PAGE_SCANNED cell. -/
def scanReasonResult : ScanReason → Result
  | .edge | .limit | .cal => .done
  | .aborted => .aborted
  | .stopped | .cover | .supply | .clock | .noDocument => .failed

/-- R45, 10.6: the fields of the PAGE_SCANNED cell; a calibration's lost-tail bit is 0 (log entry 22). -/
def Scan.pageFields (x : Scan) (reason : ScanReason) : List Byte :=
  let isCal := x.params.mode = .cal
  [if isCal then 0xFF else byte x.params.ring.val, byte (scanReasonCode reason),
   byte (flag (!isCal && decide (0 < x.lostSinceWritten)) 0)]
  ++ twoBytes (if isCal then x.calDone else x.linesWritten)
  ++ twoBytes x.lostNoBuffer ++ twoBytes x.lostOverrun ++ twoBytes x.lostNoSlot ++ [byte x.stallCount]

/-- R45: the PAGE_SCANNED cell is handed; one that finds no slot is recorded and the stream goes on. A calibration that was not cut
leaves the end reason absent, and its cell says CAL (log entry 22). -/
def State.handPageScanned (s : State) (mark : CellMark) : State :=
  let reason := s.scan.endReason.getD .cal
  s.handEvent .pageScanned 0 (scanReasonResult reason) (s.scan.pageFields reason) mark

/-- R44, R90: the stream enters OFF and gives the DOC channel back. -/
def State.scanOff (s : State) : State :=
  let s := s.setDoc { s.doc with owner := .host }
  s.setScan { s.scan with st := .off }

/-- R44, step 5: with PAGE_SCANNED written and the DOC channel at rest, the stream detaches and enters OFF. -/
def State.scanTryOff (s : State) : State :=
  if s.scan.st = .ending ∧ s.scan.endCell = .written ∧ s.doc.atRest then
    (s.attachProducer s.scan.params.ring false).scanOff
  else s

/-- R44, step 4: the page end is complete: PAGE_SCANNED is handed. -/
def State.scanPageEndComplete (s : State) : State :=
  let fits := s.eventFits
  let s := s.handPageScanned .pageScanned
  let s := s.setScan { s.scan with endCell := if fits then .handed else .written }
  s.scanTryOff

/-- R44: a page ends: ENDING, a stop request to the DOC channel, the page-end request; the page end may be complete at once. -/
def State.scanPageEnd (s : State) (reason : ScanReason) : State :=
  let s := s.setScan { s.scan with st := .ending, endReason := some reason, endCell := .notYet }
  let s := s.stopMove .doc .request
  let r := s.scan.params.ring
  match (s.ring r).desc with
  | none => s
  | some d =>
    let s := (s.askPageEnd r (decide (0 < s.scan.lostSinceWritten))).beginPageEnd r d
    if (s.ring r).pageEnd.isNone then s.scanPageEndComplete else s

/-- R49: a calibration stream hands its PAGE_SCANNED and enters OFF. -/
def State.calFinish (s : State) : State := (s.handPageScanned .plain).scanOff

/-- R49: a cut in CAL: the sums being written are let finish, a second cut keeping the first one's reason (log entry 22); otherwise a
readout in progress counts OVERRUN, and the stream enters OFF at once. -/
def State.calCut (s : State) (reason : ScanReason) : State :=
  let x := s.scan
  if x.calWriting then
    if x.endReason.isNone then s.setScan { x with endReason := some reason } else s
  else
    let lost := if x.calReadout then satAdd 65535 x.lostOverrun 1 else x.lostOverrun
    (s.setScan { x with endReason := some reason, lostOverrun := lost, calReadout := false, calTimer := false }).calFinish

/-- R43: a cut end. -/
def State.scanCut (s : State) (reason : ScanReason) : State :=
  match s.scan.st with
  | .waitEdge | .capture | .stalled | .trailing => (s.setScan s.scan.abandonReadout).scanPageEnd reason
  | .cal => s.calCut reason
  | .off | .ending => s

/-! ### Margins (R47, R48) -/

/-- R47: free slots at or below the stop margin, in CAPTURE or TRAILING, stall the stream. -/
def State.scanCheckMargin (s : State) : State :=
  let x := s.scan
  match x.st with
  | .capture | .trailing =>
    if s.ringFree x.params.ring ≤ x.params.stopMargin then
      (s.stopMove .doc .request).setScan
        { x with st := .stalled, stalledFrom := x.st, stallCount := satAdd 255 x.stallCount 1 }
    else s
  | .off | .waitEdge | .stalled | .ending | .cal => s

/-- R48: a STALLED stream restarts when the DOC channel is in HOLD and the free slots reach the restart margin. -/
def State.scanRestart (s : State) : State :=
  let x := s.scan
  if x.st = .stalled ∧ s.doc.st = .hold ∧ x.params.restartMargin ≤ s.ringFree x.params.ring then
    (s.startMove .doc .scan .forward x.params.profile none).setScan { x with st := x.stalledFrom }
  else s

/-- R13, R48: an attached scan stream is told that slots of its ring were freed. -/
def State.scanFreed (s : State) (r : RingId) : State :=
  if s.scan.params.ring = r then s.scanRestart else s

/-- R13: a part consumer releases slots, and an attached scan producer is told. -/
def State.releaseSlots (s : State) (r : RingId) (n : Nat) : State := (s.releaseTake r n).scanFreed r

/-! ### Triggers (R28, R29, R42) -/

/-- R29: the three cases of a line trigger. -/
def Scan.trigger (x : Scan) : Scan :=
  let x := { x with triggerCount := x.triggerCount + 1 }
  match x.readoutBuf with
  | some i => x.abandonReadout.beginReadout i
  | none =>
    match x.freeBuf with
    | some i => x.beginReadout i
    | none => x.lose .noBuffer

/-- R42: the stream counts trailing lines in TRAILING and in STALLED from TRAILING. -/
def Scan.inTrailing (x : Scan) : Bool := x.st == .trailing || (x.st == .stalled && x.stalledFrom == .trailing)

/-- R42: the closing conditions applied to a trigger just handled; LIMIT wins where both hold. -/
def Scan.applyClosing (x : Scan) : Scan :=
  let trailing := if x.inTrailing then x.trailingRemaining - 1 else x.trailingRemaining
  let limit := decide (x.params.pageLimit ≤ x.triggerCount)
  let edge := x.inTrailing && trailing == 0
  if limit || edge then
    { x with trailingRemaining := trailing, closing := true, endReason := some (if limit then .limit else .edge) }
  else { x with trailingRemaining := trailing }

/-- R42: a closing page ends at the first moment no readout is in progress. -/
def State.scanCloseIfIdle (s : State) : State :=
  if s.scan.closing ∧ s.scan.readoutBuf = none then s.scanPageEnd (s.scan.endReason.getD .edge) else s

/-- R28: a trigger position. -/
def State.scanTriggerPosition (s : State) : State :=
  let x := s.scan
  if 0 < x.skipRemaining then s.setScan { x with skipRemaining := x.skipRemaining - 1 }
  else if x.closing then s
  else (s.setScan x.trigger.applyClosing).scanCloseIfIdle

/-- R28: a DOC step reported to the scan path. -/
def State.scanDocStep (s : State) : State :=
  let x := s.scan
  match x.st with
  | .off | .ending | .cal => s
  | .waitEdge =>
    let n := satAdd 65535 x.feedCount 1
    let s := s.setScan { x with feedCount := n }
    if x.params.feedLimit ≤ n then s.scanPageEnd .noDocument else s
  | .capture | .stalled | .trailing =>
    if x.params.k ≤ x.stepCounter + 1 then (s.setScan { x with stepCounter := 0 }).scanTriggerPosition
    else s.setScan { x with stepCounter := x.stepCounter + 1 }

/-! ### The document's edges (R40, R41) -/

/-- R40: capture starts. -/
def State.startCapture (s : State) : State :=
  (s.setScan { s.scan with st := .capture, stepCounter := 0 }).scanCheckMargin

/-- R40: the DOC_EDGE zone becomes HIGH. -/
def State.docEdgeHigh (s : State) : State := if s.scan.st = .waitEdge then s.startCapture else s

/-- R41: on entering TRAILING, a trailing remaining of 0 closes the page with reason EDGE; one closing already for LIMIT keeps that
reason (log entry 20). -/
def State.closeAtEdge (s : State) : State :=
  let x := s.scan
  if x.trailingRemaining = 0 ∧ ¬x.closing then
    (s.setScan { x with closing := true, endReason := some .edge }).scanCloseIfIdle
  else s

/-- R41: the DOC_EDGE zone becomes LOW. -/
def State.docEdgeLow (s : State) : State :=
  let x := s.scan
  match x.st with
  | .capture =>
    if 0 < x.skipRemaining then s.scanPageEnd .edge
    else (s.setScan { x with st := .trailing }).closeAtEdge
  | .stalled =>
    if x.stalledFrom = .capture then (s.setScan { x with stalledFrom := .trailing }).closeAtEdge else s
  | .off | .waitEdge | .trailing | .ending | .cal => s

/-! ### START SCAN and STOP SCAN (R26, R27, R46) -/

/-- R26: L rounded: below 32 to 32, else up to the next multiple of 32. -/
def roundWidth (n : Nat) : Nat := if n < 32 then 32 else (n + 31) / 32 * 32

/-- R26: K is 1, 2 or 4. -/
def stepsPerLineOk (k : Nat) : Bool := k = 1 || k = 2 || k = 4

/-- R47: the stop margin, limited to S - 2. -/
def clampStop (slots m : Nat) : Nat := min m (slots - 2)

/-- R47: the restart margin, at least the stop margin + 1 and at most S - 1. -/
def clampRestart (slots stop m : Nat) : Nat := min (max m (stop + 1)) (slots - 1)

/-- R26: the mode a START SCAN names: TEXT or HALFTONE (CAL is START_SCAN_CAL). -/
def lineModeOf : Nat → Option ScanMode
  | 0 => some .text | 1 => some .halftone | _ => none

/-- R26: the checks of START SCAN in order, and the parameters it then takes with whether it starts at the edge. -/
def State.checkStartScan (s : State) (ring : Byte) (mode start k profile : BitVec 4) (theta skip trailing : Byte)
    (width pageLimit feedLimit : Half) (stopMargin restartMargin : Byte) : Except Result (ScanParams × Bool) :=
  if s.startRefused then .error .busy
  else if s.scan.active then .error .busy
  else
    match lineModeOf mode.toNat, profileOf profile.toNat with
    | some mode, some profile =>
      let edge := start.toNat = 0
      if ¬(stepsPerLineOk k.toNat ∧ start.toNat ≤ 1 ∧ 1 ≤ pageLimit.toNat ∧ pageLimit.toNat ≤ 16383
          ∧ 1 ≤ feedLimit.toNat) then .error .badArg
      else
        let l := roundWidth width.toNat
        if 2048 < l then .error .badArg
        else
          match ringOf ring with
          | none => .error .badArg
          | some r =>
            match (s.ring r).desc with
            | none => .error .notReady
            | some d =>
              if l ≠ d.words * 32 then .error .badArg
              else if s.profile profile = [] then .error .notReady
              else if ¬s.coverAndSupplyGood then .error .notReady
              else if edge ∧ ((s.sense.roleEntry .docEdge).isNone ∨ s.zone .docPresent ≠ some .high) then .error .notReady
              else if s.doc.moving then .error .busy
              else
                match s.attachProducerCheck r .scan with
                | some e => .error e
                | none =>
                  let stop := clampStop d.slots stopMargin.toNat
                  .ok ({ ring := r, mode := mode, k := k.toNat, profile := profile, theta := theta.toNat,
                         skip := skip.toNat, trailing := trailing.toNat, width := l, pageLimit := pageLimit.toNat,
                         feedLimit := feedLimit.toNat, stopMargin := stop,
                         restartMargin := clampRestart d.slots stop restartMargin.toNat }, edge)
    | _, _ => .error .badArg

/-- R27: the stream's state as an accepted START SCAN leaves it, before capture starts; the calibration sums and readouts done are
cleared too (log entry 21). -/
def scanStarted (p : ScanParams) (edge : Bool) : Scan :=
  { st := if edge then .waitEdge else .capture, params := p, skipRemaining := p.skip, trailingRemaining := p.trailing }

/-- R27: an accepted START SCAN begins: attached, owning the DOC channel, which runs forward. -/
def State.beginScan (s : State) (p : ScanParams) (edge : Bool) : State :=
  let s := s.setScan (scanStarted p edge)
  let s := s.attachProducer p.ring true
  let s := s.setDoc { s.doc with owner := .scan }
  let s := s.startMove .doc .scan .forward p.profile none
  if edge then (if s.zone .docEdge = some .high then s.startCapture else s) else s.startCapture

/-- START_SCAN (R26, R27). -/
def execStartScan (tag ring : Byte) (mode start k profile : BitVec 4) (theta skip trailing : Byte)
    (width pageLimit feedLimit : Half) (stopMargin restartMargin : Byte) (s : State) : Out :=
  match s.claimCommand (.startScan tag ring mode start k profile theta skip trailing width pageLimit feedLimit
    stopMargin restartMargin) with
  | none => .next s
  | some s =>
    match s.checkStartScan ring mode start k profile theta skip trailing width pageLimit feedLimit stopMargin
      restartMargin with
    | .error r => .next (s.handDone tag 3 r)
    | .ok (p, edge) => .next ((s.handDone tag 3 .done).beginScan p edge)

/-- STOP_SCAN (R46): refused BAD_STATE in OFF and ENDING; else DONE at once, then the cut with reason STOPPED. -/
def execStopScan (tag : Byte) (s : State) : Out :=
  match s.claimCommand (.stopScan tag) with
  | none => .next s
  | some s =>
    if s.scan.st = .off ∨ s.scan.st = .ending then .next (s.handDone tag 4 .badState)
    else .next ((s.handDone tag 4 .done).scanCut .stopped)

/-! ### Readout (R30) -/

/-- R33 to R39: the pels of a line of samples, with the row stores after it (R37). -/
def State.scanLine (s : State) (samples : List Byte) : List Bool × List Int × List Int :=
  let x := s.scan
  let tones := toneLine s.tables.shading s.tables.tone samples
  match x.params.mode with
  | .halftone =>
    let d := diffuse none 0 x.carry (tones.zip x.currentRow)
    (d.1, addRow d.2 x.nextRow, zeroRow)
  | .text | .cal => (textLine x.params.theta tones, x.currentRow, x.nextRow)

/-- R30, steps 2 to 4: the finished line claims a slot, or is lost NO_SLOT. -/
def State.scanClaim (s : State) (i : BufId) (words : List Word) (black : Nat) : State :=
  let x := s.scan
  let r := x.params.ring
  match (s.ring r).desc with
  | none => s.setScan ((x.setBuf i {}).lose .noSlot)
  | some d =>
    if 1 ≤ (s.ring r).free d then
      let tag : Tag := { line := x.triggerCount - 1, black := black, lost := x.lostSinceWritten,
                         pageStart := x.linesWritten = 0 }
      let s := s.setScan { x.setBuf i { st := .writing, words := words, black := black } with
                           linesWritten := x.linesWritten + 1, lostSinceWritten := 0 }
      (s.claimSlot r d tag words (some i)).scanCheckMargin
    else s.setScan ((x.setBuf i {}).lose .noSlot)

/-- READOUT_COMPLETE (R30): the L samples of the readout in progress. Other samples are no readout of this stream. -/
def execReadoutComplete (samples : List Byte) (s : State) : Out :=
  match s.scan.st, s.scan.readoutBuf with
  | .capture, some i | .stalled, some i | .trailing, some i =>
    if samples.length = s.scan.params.width then
      let (pels, current, next) := s.scanLine samples
      let words := packWords (s.scan.params.width / 32) pels
      let s := s.setScan { s.scan with currentRow := current, nextRow := next, carry := 0 }
      .next ((s.scanClaim i words (pels.count true)).scanCloseIfIdle)
    else .next s
  | _, _ => .next s

/-! ### Calibration (R49) -/

/-- R49: the lines of a calibration are 1, 2, 4, 8 or 16. -/
def calLinesOk (n : Nat) : Bool := n = 1 || n = 2 || n = 4 || n = 8 || n = 16

/-- R49: the checks of START SCAN in mode CAL, and the parameters it then takes. -/
def State.checkStartCal (s : State) (lamp : Bool) (lines : Byte) (width interval : Half) (destination : Word) :
    Except Result ScanParams :=
  let l := roundWidth width.toNat
  if s.startRefused then .error .busy
  else if s.scan.active then .error .busy
  else if ¬(l ≤ 2048 ∧ calLinesOk lines.toNat ∧ 16 ≤ interval.toNat) then .error .badArg
  else if destination.toNat % 2 ≠ 0 ∨ s.cfg.memSize < destination.toNat + 2 * l
      ∨ s.cfg.overlapsControl destination.toNat (2 * l) then .error .badArg
  else if ¬s.coverAndSupplyGood then .error .notReady
  else if s.doc.moving then .error .busy
  else .ok { mode := .cal, width := l, lamp := lamp, calLines := lines.toNat, calInterval := interval.toNat,
             calDest := destination.toNat }

/-- START_SCAN_CAL (R49). The stall count, lost since written and end reason are cleared too (log entry 21). -/
def execStartScanCal (tag : Byte) (lamp : Bool) (lines : Byte) (width interval : Half) (destination : Word)
    (s : State) : Out :=
  match s.claimCommand (.startScanCal tag lamp lines width interval destination) with
  | none => .next s
  | some s =>
    match s.checkStartCal lamp lines width interval destination with
    | .error r => .next (s.handDone tag 3 r)
    | .ok p =>
      let s := s.handDone tag 3 .done
      let s := s.setDoc { s.doc with owner := .scan }
      .next (s.setScan { s.scan with
        st := .cal, params := p, lostNoBuffer := 0, lostOverrun := 0, lostNoSlot := 0, lostSinceWritten := 0
        stallCount := 0, endReason := none, calSums := List.replicate 2048 0, calDone := 0, calReadout := false
        calTimer := true, calWriting := false })

/-- CAL_TRIGGER_EXPIRY (R49): a readout begins, or a trigger during one counts OVERRUN; the timer stops when the N-th begins. -/
def execCalTriggerExpiry (s : State) : Out :=
  let x := s.scan
  if x.st = .cal ∧ x.calTimer then
    if x.calReadout then .next (s.setScan { x with lostOverrun := satAdd 65535 x.lostOverrun 1 })
    else .next (s.setScan { x with calReadout := true, calTimer := decide (x.calDone + 1 < x.params.calLines) })
  else .next s

/-- R49: raw samples added to the sums, entries beyond the line kept. -/
def addSums : List Nat → List Byte → List Nat
  | a :: as, b :: bs => (a + b.toNat) :: addSums as bs
  | as, _ => as

/-- CAL_READOUT_COMPLETE (R49): the samples join the sums; after the N-th readout the sums are written. -/
def execCalReadoutComplete (samples : List Byte) (s : State) : Out :=
  let x := s.scan
  if x.st = .cal ∧ x.calReadout ∧ samples.length = x.params.width then
    let sums := addSums x.calSums samples
    let x := { x with calSums := sums, calDone := x.calDone + 1, calReadout := false }
    if x.params.calLines ≤ x.calDone then
      .next ((s.setScan { x with calWriting := true }).issueWrite .scan .calSums x.params.calDest
        ((sums.take x.params.width).map (BitVec.ofNat 16)))
    else .next (s.setScan x)
  else .next s

/-- CAL_SUMS_ACKNOWLEDGED (R49): PAGE_SCANNED with reason CAL, or the reason of a cut that came while the sums were written. -/
def execCalSumsAcknowledged (s : State) : Out :=
  if s.scan.st = .cal ∧ s.scan.calWriting ∧ s.pmc.hasDone .calSums then
    let s := s.takeOne .calSums
    .next ((s.setScan { s.scan with calWriting := false }).calFinish)
  else .next s

end Sys2Proof.Machine
end

