-- ==== Sys2Proof/Machine/Link.lean ====
section
/-! DEFINITION. The copy link (1.8): LINK RINGS and UNLINK, taking and merging source lines, emission, and its end. -/

namespace Sys2Proof.Machine

open Sys2Proof

/-- R17: the source ring of a link that LINK RINGS has started; one never started has none, and reads no ring (log entry 6). -/
def Link.sourceRing (x : Link) : RingId := x.source.getD 0

/-- R17: the destination ring of a link that LINK RINGS has started. -/
def Link.destRing (x : Link) : RingId := x.destination.getD 0

/-! ### Ending (R23, R24) -/

/-- R24, 10.6: the STREAM cell of a link that STOP ALL ended: the link's destination, state OFF, no print reason, the dropped
count (log entry 10). -/
def State.linkStream (s : State) : State :=
  s.handEvent .stream 0 .aborted
    ([byte (sideCode .link), byte s.link.destRing.val, byte (linkStateCode .off), 0xFF, 0] ++ twoBytes s.link.dropped)

/-- R23: an ENDING link whose destination's page end is complete and whose source side is detached (no abandoned read of its own
is out any more, whoever holds that side of the ring now) detaches its destination side and enters OFF, after the STREAM cell a
STOP ALL owes (R24, R192). -/
def State.linkTryOff (s : State) : State :=
  let x := s.link
  if x.st = .ending ∧ (s.ring x.destRing).pageEnd = none ∧ (s.ring x.destRing).writing = []
      ∧ x.readsOut = false then
    let s := s.attachProducer x.destRing false
    let s := if x.abortCell then s.linkStream else s
    s.setLink { s.link with st := .off, abortCell := false }
  else s

/-- R20: the reads of the source line are all delivered. -/
def State.linkReadsDone (s : State) : Bool := s.pmc.hasDone .linkWords && s.pmc.hasDone .linkTag

/-- The source line's delivered data is dropped. -/
def State.linkDropReads (s : State) : State := (s.takeAll .linkWords).takeAll .linkTag

/-- R23: an abandoned line's reads are complete: the source side is detached. -/
def State.linkDetachSource (s : State) : State :=
  let s := s.linkDropReads
  let s := s.attachConsumer s.link.sourceRing false
  s.setLink { s.link with readsOut := false }

/-- R23: the abandoned reads of an ENDING link have completed. -/
def State.linkReadsAbandoned (s : State) : State :=
  if s.link.st = .ending ∧ s.link.readsOut ∧ s.linkReadsDone then s.linkDetachSource.linkTryOff else s

/-- R23: every claim of a ring is abandoned by its producer. -/
def State.abandonClaims (s : State) (r : RingId) : State :=
  s.setRing r { s.ring r with writing := (s.ring r).writing.map fun c => { c with abandoned := true } }

/-- R23: the source lines that the link's end drops. -/
def Link.dropping (x : Link) : Nat := x.heldCount + x.mergedWriting

/-- R23: the link leaves the state it is in and enters ENDING: the held and half-written lines are dropped and counted, the
source side is detached unless its reads are in flight, the destination is asked to end its page. The held lost-before goes with
the held lines (log entry 37). -/
def State.linkEnd (s : State) (abort : Bool) : State :=
  let x := s.link
  let lost := decide (0 < x.dropping) || x.sourceLostTail
  let s := s.setLink { x with
    st := .ending, hold := [], heldCount := 0, heldLost := 0, mergedWriting := 0, emitPending := false
    dropped := satAdd 65535 x.dropped x.dropping, abortCell := abort }
  let s := s.abandonClaims x.destRing
  let s := if x.readsOut ∧ ¬s.linkReadsDone then s else s.linkDetachSource
  match (s.ring x.destRing).desc with
  | none => s
  | some d => ((s.askPageEnd x.destRing lost).beginPageEnd x.destRing d).linkTryOff

/-- R24: STOP ALL's end of the link. One already ENDING keeps its ending and owes a STREAM cell. -/
def State.linkStopAll (s : State) : State :=
  match s.link.st with
  | .off => s
  | .ending => s.setLink { s.link with abortCell := true }
  | .wait | .reading | .writing => s.linkEnd true

/-! ### LINK RINGS and UNLINK (R18, R23) -/

/-- R18: the checks of LINK RINGS after STOP ALL and ENTERING (R180), and the rings it then joins. -/
def State.checkLinkRings (s : State) (source destination : Byte) : Except Result (RingId × RingId) :=
  if s.startRefused then .error .busy
  else if s.link.st ≠ .off then .error .busy
  else
    match ringOf source, ringOf destination with
    | some a, some b =>
      if a = b then .error .badArg
      else
        match (s.ring a).desc, (s.ring b).desc with
        | some da, some db =>
          if da.words ≠ db.words then .error .badArg
          else
            match s.attachConsumerCheck a .link, s.attachProducerCheck b .link with
            | some r, _ => .error r
            | none, some r => .error r
            | none, none => .ok (a, b)
        | _, _ => .error .notReady
    | _, _ => .error .badArg

/-- R18: the keep k brought into 128 to 256. -/
def clampKeep (k : Nat) : Nat := min 256 (max 128 k)

/-- R18: the link's state as an accepted LINK RINGS leaves it. -/
def linkStarted (source destination : RingId) (keep : Nat) : Link :=
  { st := .wait, source := some source, destination := some destination, keep := clampKeep keep }

/-- LINK_RINGS (R18). -/
def execLinkRings (tag source destination : Byte) (keep : Half) (s : State) : Out :=
  match s.claimCommand (.linkRings tag source destination keep) with
  | none => .next s
  | some s =>
    match s.checkLinkRings source destination with
    | .error r => .next (s.handDone tag 9 r)
    | .ok (a, b) =>
      let s := (s.attachConsumer a true).attachProducer b true
      .next ((s.setLink (linkStarted a b keep.toNat)).handDone tag 9 .done)

/-- UNLINK (R23): refused BAD_STATE in OFF and ENDING; otherwise DONE at once with the dropped count. -/
def execUnlink (tag : Byte) (s : State) : Out :=
  match s.claimCommand (.unlink tag) with
  | none => .next s
  | some s =>
    if s.link.st = .off ∨ s.link.st = .ending then .next (s.handDone tag 10 .badState)
    else
      let s := s.linkEnd false
      .next (s.handDone tag 10 .done (twoBytes s.link.dropped))

/-! ### Taking a source line (R19) -/

/-- R19: in WAIT, a source line is published and a destination slot is free; no burst of the link waits outside
(R120). -/
def State.linkMayTake (s : State) : Bool :=
  s.link.st == .wait && decide (1 ≤ s.ringOccupancy s.link.sourceRing) && decide (1 ≤ s.ringFree s.link.destRing)
    && !s.burstWaits .link

/-- LINK_TAKE_SOURCE_LINE (R19): LINK-class reads of the words and the tag of the slot at take. -/
def execLinkTakeSourceLine (s : State) : Out :=
  match (s.ring s.link.sourceRing).desc with
  | none => .next s
  | some d =>
    if s.linkMayTake then
      let a := d.slotAddress ((s.ring s.link.sourceRing).take % d.slots)
      let s := s.setLink { s.link with st := .reading, readsOut := true }
      .next ((s.issueRead .link .linkWords (a + 8) (2 * d.words)).issueRead .link .linkTag a 4)
    else .next s

/-! ### Emission (R21, R22) -/

/-- R21: the output line's tag. -/
def Link.outTag (x : Link) : Tag :=
  { line := x.outLine, pageStart := x.startPending, merged := x.heldCount = 2, black := popWords x.hold, lost := x.heldLost }

/-- R21: the link emits: the slot is claimed with the output line's tag, and the link is WRITING. -/
def State.linkEmit (s : State) : State :=
  let x := s.link
  match (s.ring x.destRing).desc with
  | none => s
  | some d =>
    let s := s.setLink { x with
      st := .writing, acc := if 256 ≤ x.acc then x.acc - 256 else x.acc, outLine := satAdd 16383 x.outLine 1
      startPending := false, mergedWriting := x.heldCount, heldCount := 0, heldLost := 0, emitPending := false }
    s.claimSlot x.destRing d x.outTag x.hold none

/-- R20, R21: an emission waits while the destination ends the page before. -/
def State.linkEmitOrWait (s : State) : State :=
  if (s.ring s.link.destRing).pageEnd.isSome then s.setLink { s.link with emitPending := true } else s.linkEmit

/-- R22: the emitted slot is acknowledged: the hold buffer is emptied and the link returns to WAIT, at a page's end once the
destination reports that page end complete. -/
def State.linkSlotAcknowledged (s : State) : State :=
  let x := s.link
  if x.st = .writing then
    if x.emitEnd then
      let s := s.setLink { x with hold := [], mergedWriting := 0, emitEnd := false, acc := 0, outLine := 0
                                  startPending := false, sourceLostTail := false }
      match (s.ring x.destRing).desc with
      | none => s
      | some d => (s.askPageEnd x.destRing x.sourceLostTail).beginPageEnd x.destRing d
    else s.setLink { x with st := .wait, hold := [], mergedWriting := 0 }
  else s

/-- R22, R23, R21: the destination reports its page end complete. -/
def State.linkPageEndComplete (s : State) : State :=
  match s.link.st with
  | .ending => s.linkTryOff
  | .writing => s.setLink { s.link with st := .wait }
  | .reading => if s.link.emitPending then s.linkEmit else s
  | .off | .wait => s

/-! ### A source line read (R20) -/

/-- R20: lines gathered by OR. -/
def orWords : List Word → List Word → List Word
  | a :: as, b :: bs => (a ||| b) :: orWords as bs
  | [], bs => bs
  | as, [] => as

/-- R20, step 1: a page start that finds lines held: the page before never ended, its held lines are dropped and the destination
is asked to end its page with LOST_TAIL. -/
def State.linkUnendedPage (s : State) (t : Tag) : State :=
  let x := s.link
  if t.pageStart ∧ 0 < x.heldCount then
    let s := s.setLink { x with dropped := satAdd 65535 x.dropped x.heldCount, heldCount := 0, hold := [], heldLost := 0 }
    match (s.ring x.destRing).desc with
    | none => s
    | some d => (s.askPageEnd x.destRing true).beginPageEnd x.destRing d
  else s

/-- R20, steps 2, 3 and 5: the page state is cleared at a page start, the line is merged, the accumulator gains k. -/
def Link.merge (x : Link) (t : Tag) (words : List Word) : Link :=
  let x := if t.pageStart then { x with acc := 0, outLine := 0, startPending := true } else x
  { x with
    hold := orWords x.hold words, heldCount := x.heldCount + 1, heldLost := satAdd 255 x.heldLost t.lost
    sourceLostTail := x.sourceLostTail || (t.endOfPage && t.lostTail), acc := x.acc + x.keep, emitEnd := t.endOfPage
    readsOut := false }

/-- LINK_READ_COMPLETE (R20), once no word of the link waits outside (R120). -/
def execLinkReadComplete (s : State) : Out :=
  if s.link.st = .reading ∧ s.link.readsOut ∧ s.linkReadsDone ∧ s.wordWaits .link = false then
    let t := tagOfHalves (s.pmc.dataOf .linkTag)
    let words := halvesToWords (s.pmc.dataOf .linkWords)
    let s := s.linkDropReads.linkUnendedPage t
    let s := s.setLink (s.link.merge t words)
    let s := s.releaseSlots s.link.sourceRing 1
    if 256 ≤ s.link.acc ∨ t.endOfPage then .next s.linkEmitOrWait
    else .next (s.setLink { s.link with st := .wait })
  else .next s

end Sys2Proof.Machine
end

