-- ==== Sys2Proof/Machine/Pmc.lean ====
section
/-! DEFINITION. The page memory controller (chapter 6): the queues, the grant, accesses, refresh, self-refresh, the host side and
the snoop. -/

namespace Sys2Proof.Machine

open Sys2Proof

/-! ### Geometry (R117) -/

/-- R117: the row number of a halfword address. -/
def BoardConfig.rowNumber (c : BoardConfig) (h : Nat) : Nat := h / c.rowLen

/-- R117: the bank of a halfword address; true is bank 1. -/
def BoardConfig.bankOf (c : BoardConfig) (h : Nat) : Bool := c.rowNumber h % c.banks = 1

/-- R117: the row within its bank of a halfword address. -/
def BoardConfig.rowOf (c : BoardConfig) (h : Nat) : Nat := c.rowNumber h / c.banks

/-- R117: the column of a halfword address. -/
def BoardConfig.columnOf (c : BoardConfig) (h : Nat) : Nat := h % c.rowLen

def Pmc.bank (x : Pmc) (one : Bool) : Bank := if one then x.bank1 else x.bank0

def Pmc.setBank (x : Pmc) (one : Bool) (b : Bank) : Pmc := if one then { x with bank1 := b } else { x with bank0 := b }

/-- R131, R133: every open row closed and both close timers stopped. -/
def Pmc.closeAll (x : Pmc) : Pmc := { x with bank0 := {}, bank1 := {} }

/-! ### Entering the queues (R120) -/

/-- R118: the class order. -/
def classRank : MemClass → Nat
  | .host => 0 | .print => 1 | .scan => 2 | .link => 3 | .cell => 4 | .table => 5

/-- R120: the classes in the order in which a freed entry is given. -/
def entryOrder (urgent : Bool) : List MemClass :=
  if urgent then [.print, .host, .scan, .link, .cell, .table] else [.host, .print, .scan, .link, .cell, .table]

/-- R120: the first class of an order with a waiting burst of a direction, and that burst, the one issued first. -/
def firstWaiting (dir : Dir) (waiting : List Burst) : List MemClass → Option Burst
  | [] => none
  | c :: cs =>
    match waiting.find? (fun b => b.dir = dir && b.cls = c) with
    | some b => some b
    | none => firstWaiting dir waiting cs

/-- R120: the controller is accepting entries. -/
def Pmc.accepting (x : Pmc) : Bool :=
  match x.st with
  | .starting | .running | .srExit => true
  | .down | .srEntry | .selfRefresh => false

/-- R120: the queue of a direction has a free entry. -/
def Pmc.hasRoom (x : Pmc) : Dir → Bool
  | .read => x.readQ.length < 4
  | .write => x.writeQ.length < 8

/-- R119, R120: a burst enters its queue with the next age. -/
def Pmc.enter (x : Pmc) (b : Burst) : Pmc :=
  let e := { b with age := x.nextAge, passed := 0 }
  let x := { x with waiting := x.waiting.erase b, nextAge := x.nextAge + 1 }
  match b.dir with
  | .read => { x with readQ := x.readQ ++ [e] }
  | .write => { x with writeQ := x.writeQ ++ [e] }

/-- R127: DRAIN is raised where a write entering brings the occupancy to 6 or more. -/
def Pmc.raiseDrain (x : Pmc) : Pmc := { x with drain := x.drain || decide (6 ≤ x.writeQ.length) }

/-- R127: DRAIN is lowered where a write performed brings the occupancy to 2 or fewer. -/
def Pmc.lowerDrain (x : Pmc) : Pmc := { x with drain := x.drain && decide (2 < x.writeQ.length) }

/-! ### The choice of a grant (R121, R124, R125) -/

/-- R121: two bursts share a halfword. -/
def Burst.overlaps (a b : Burst) : Bool := a.half < b.half + b.len && b.half < a.half + a.len

/-- R121: the oldest queued write that entered before a read and that it overlaps: what holds it. -/
def Pmc.heldBy (x : Pmc) (r : Burst) : Option Burst := x.writeQ.find? (fun w => w.age < r.age && w.overlaps r)

/-- R121: the eligible write of a class. -/
def Pmc.eligibleWrite (x : Pmc) (c : MemClass) : Option Burst := x.writeQ.find? (fun w => w.cls = c)

/-- R121: what is granted for a read: itself, or the eligible write of the class of the oldest write it overlaps. -/
def Pmc.standIn (x : Pmc) (r : Burst) : Burst :=
  match x.heldBy r with
  | some w => (x.eligibleWrite w.cls).getD w
  | none => r

/-- R121: the eligible read of a class. -/
def Pmc.eligibleRead (x : Pmc) (c : MemClass) : Option Burst := x.readQ.find? (fun r => r.cls = c)

/-- R125: the eligible entries, a held read represented by the write that stands in for it. -/
def Pmc.candidates (x : Pmc) : List Burst :=
  (entryOrder false).flatMap fun c => ((x.eligibleRead c).map x.standIn).toList ++ (x.eligibleWrite c).toList

/-- R125: a page hit: the entry's row is open in its bank. -/
def Pmc.pageHit (c : BoardConfig) (x : Pmc) (b : Burst) : Bool :=
  (x.bank (c.bankOf b.half)).openRow == some (c.rowOf b.half)

/-- The oldest of a list of entries. -/
def oldest : List Burst → Option Burst
  | [] => none
  | b :: bs =>
    match oldest bs with
    | none => some b
    | some a => if b.age ≤ a.age then some b else some a

/-- R125, steps 3 and 4: the highest class, then the older. -/
def bestByClass (bs : List Burst) : List MemClass → Option Burst
  | [] => none
  | c :: cs =>
    match oldest (bs.filter (fun b => b.cls = c)) with
    | some b => some b
    | none => bestByClass bs cs

/-- R125: the request rule. -/
def Pmc.chooseRequest (c : BoardConfig) (x : Pmc) : Option Burst :=
  let all := x.candidates
  match oldest (all.filter (fun b => Config.agedCount ≤ b.passed)) with
  | some b => some b
  | none =>
    let hits := all.filter (x.pageHit c)
    bestByClass (if hits = [] then all else hits) (entryOrder false)

/-- R124: what is granted at a grant point. -/
inductive Grant where
  | refresh (burst : Bool)
  | access (b : Burst)
  deriving DecidableEq, Repr

/-- R124: rules 3 to 6, where no refresh comes first. -/
def Pmc.chooseEntry (c : BoardConfig) (x : Pmc) : Option Grant :=
  match if x.urgent then x.eligibleRead .print else none with
  | some r => some (.access (x.standIn r))
  | none =>
    match if x.drain then x.writeQ.head? else none with
    | some w => some (.access w)
    | none =>
      match x.chooseRequest c with
      | some b => some (.access b)
      | none => if 0 < x.owed then some (.refresh false) else none

/-- R124: the first rule that applies. -/
def Pmc.choose (c : BoardConfig) (x : Pmc) : Option Grant :=
  if 0 < x.burstRem then some (.refresh true)
  else if 4 ≤ x.owed then some (.refresh false)
  else x.chooseEntry c

/-! ### Granting (R126, R129, R131) -/

/-- R126: every entry older than the granted one is passed over. -/
def passOver (age : Nat) (q : List Burst) : List Burst :=
  q.map fun e => if e.age < age then { e with passed := satAdd Config.agedCount e.passed 1 } else e

/-- R129: a host write with one byte enable clear is a read and a write in one access; one with both clear uses the columns once (log
entry 38). -/
def Burst.columnUses (b : Burst) : Nat :=
  if b.dir = .write && (b.lowEnable != b.highEnable) then 2 * b.len else b.len

/-- R129: the access's length in core cycles. -/
def accessCycles (c : BoardConfig) (openRow : Option Nat) (b : Burst) : Nat :=
  let columns := c.column * b.columnUses
  match openRow with
  | none => c.rowOpen + columns
  | some row => if row = c.rowOf b.half then columns else c.precharge + c.rowOpen + columns

/-- R129, R130: a granted access: the burst's row is open in its bank, whose close timer stops. -/
def Pmc.startAccess (c : BoardConfig) (x : Pmc) (b : Burst) : Pmc :=
  let one := c.bankOf b.half
  let cycles := accessCycles c (x.bank one).openRow b
  let x := x.setBank one { openRow := some (c.rowOf b.half), closeTimer := none }
  { x with act := .access b cycles, readQ := passOver b.age x.readQ, writeQ := passOver b.age x.writeQ }

/-- R124, R131: a granted refresh: a burst refresh pays an owed one too. -/
def Pmc.startRefresh (x : Pmc) (burst : Bool) : Pmc :=
  { x.closeAll with
    act := .refresh, owed := x.owed - 1, burstRem := if burst then x.burstRem - 1 else x.burstRem }

/-- R123: grants are made in STARTING, RUNNING, SR_ENTRY and SR_EXIT, with the DRAM FREE. -/
def Pmc.mayGrant (x : Pmc) : Bool :=
  x.act == .free
    && (match x.st with
        | .starting | .running | .srEntry | .srExit => true
        | .down | .selfRefresh => false)

/-- R123, R124: a grant point. -/
def Pmc.grantPoint (c : BoardConfig) (x : Pmc) : Pmc :=
  if x.mayGrant then
    match x.choose c with
    | some (.refresh burst) => x.startRefresh burst
    | some (.access b) => x.startAccess c b
    | none => x
  else x

/-- A grant point of the state's controller. -/
def State.grantPoint (s : State) : State := s.setPmc (s.pmc.grantPoint s.cfg)

/-! ### Requests of the boot controller and the clock and power unit (R122, R133, R134) -/

/-- R122, R132: the memory start request: STARTING, the refresh timer started, a refresh burst. -/
def State.memoryStart (s : State) : State :=
  if s.pmc.st = .down then
    (s.setPmc { s.pmc with st := .starting, refreshTimer := true, burstRem := Config.burstRefreshes }).grantPoint
  else s

/-- R133: the entry request. -/
def State.memoryEntry (s : State) : State :=
  if s.pmc.st = .running then s.setPmc { s.pmc with st := .srEntry } else s

/-- R134: the entry is withdrawn. -/
def State.memoryWithdraw (s : State) : State :=
  if s.pmc.st = .srEntry then s.setPmc { s.pmc with st := .running } else s

/-- R134: the exit request: SR_EXIT, the refresh timer started, a refresh burst. -/
def State.memoryExit (s : State) : State :=
  if s.pmc.st = .selfRefresh then
    (s.setPmc { s.pmc with st := .srExit, refreshTimer := true, burstRem := Config.burstRefreshes }).grantPoint
  else s

/-! ### The host side (R135) -/

/-- R135, R140, R160: the host can present a request: it runs, its clock runs, and its last request is done. -/
def State.hostMayRequest (s : State) : Bool := !s.boot.hostReset && s.clk.hostClk && !s.pmc.hostOutstanding

/-- R135: a host burst of one halfword. -/
def hostBurst (dir : Dir) (address : BitVec 22) (data : List Half) (low high : Bool) : Burst :=
  { dir := dir, cls := .host, half := address.toNat / 2, len := 1, data := data, lowEnable := low, highEnable := high
    last := true, req := .host }

/-- HOST_READ (R135): outside the configured memory the host gets FFFF hex at once. -/
def execHostRead (address : BitVec 22) (s : State) : Out :=
  if s.hostMayRequest then
    if address.toNat < s.cfg.memSize then .next (s.offer [hostBurst .read address [] true true])
    else .next (s.setPmc { s.pmc with hostData := 0xFFFF })
  else .next s

/-- HOST_WRITE (R135): outside the configured memory the write is discarded. With both byte enables clear: log entry 38. -/
def execHostWrite (address : BitVec 22) (data : Half) (lowEnable highEnable : Bool) (s : State) : Out :=
  if s.hostMayRequest then
    if address.toNat < s.cfg.memSize then .next (s.offer [hostBurst .write address [data] lowEnable highEnable])
    else .next s
  else .next s

/-- BURST_ENTER (R120, R127): the waiting burst of this direction whose turn it is enters its queue, which is a grant point. -/
def execBurstEnter (dir : Dir) (s : State) : Out :=
  let x := s.pmc
  if x.accepting ∧ x.hasRoom dir then
    match firstWaiting dir x.waiting (entryOrder x.urgent) with
    | some b =>
      let x := x.enter b
      .next (s.setPmc (match dir with | .read => x | .write => x.raiseDrain)).grantPoint
    | none => .next s
  else .next s

/-! ### The end of an access (R121, R129, R130, R136) -/

/-- R119: a part block's transfer lies inside the configured memory. -/
def Burst.inside (c : BoardConfig) (b : Burst) : Bool := 2 * (b.half + b.len) ≤ c.memSize

/-- R130: the accessed bank's row stays open under its close timer, or closes at once. -/
def Pmc.afterAccess (c : BoardConfig) (x : Pmc) (b : Burst) : Pmc :=
  let one := c.bankOf b.half
  if c.closeInterval = 0 then x.setBank one {}
  else x.setBank one { openRow := (x.bank one).openRow, closeTimer := some c.closeInterval }

/-- R129: the performed burst's entry leaves its queue. -/
def Pmc.leave (x : Pmc) (b : Burst) : Pmc :=
  match b.dir with
  | .read => { x with readQ := x.readQ.filter (fun e => e.age ≠ b.age) }
  | .write => ({ x with writeQ := x.writeQ.filter (fun e => e.age ≠ b.age) }).lowerDrain

/-- R121: a burst's data, or its acknowledgement, goes to its requester; a HOST read's is driven to the host; a write no one waits
for tells no one. -/
def Pmc.answer (x : Pmc) (b : Burst) (data : List Half) : Pmc :=
  match b.req with
  | .host => match b.dir with
    | .read => { x with hostData := data.getD 0 0 }
    | .write => x
  | .word | .slotWords => x
  | q => { x with inbox := deliver q data b.last x.inbox }

/-- R136: a host write inside the 256 bytes of the control block hands an arrival with the halfword's contents after it. -/
def State.snoop (s : State) (b : Burst) : State :=
  let a := 2 * b.half
  if b.cls = .host ∧ b.dir = .write ∧ s.cfg.cbAddr ≤ a ∧ a < s.cfg.cbAddr + 256 then
    s.setPmc { s.pmc with
      arrivals := s.pmc.arrivals ++ [{ offset := a - s.cfg.cbAddr, value := readHalf s.mem b.half }] }
  else s

/-- R129: a burst is performed. -/
def State.perform (s : State) (b : Burst) : State :=
  let s := match b.dir with
    | .read => s.setPmc (s.pmc.answer b (readHalves s.mem b.half b.len))
    | .write => (s.setMem (writeHalves s.mem b.half b.lowEnable b.highEnable b.data)).setPmc (s.pmc.answer b [])
  let s := s.setPmc (({ s.pmc with act := .free }.leave b).afterAccess s.cfg b)
  s.snoop b

/-- R194: a command is in flight under its code and tag. -/
def commandTag : Instr → Byte
  | .loadTable tag .. | .setRing tag .. | .startScan tag .. | .startScanCal tag .. | .stopScan tag
  | .startPrint tag .. | .stopPrint tag | .pausePrint tag | .resumePrint tag | .linkRings tag .. | .unlink tag
  | .moveMotor tag .. | .holdMotor tag .. | .releaseMotor tag .. | .setPower tag .. | .switchClock tag ..
  | .stopAll tag | .reboot tag | .unknownCommand tag _ => tag
  | _ => 0

/-- R179: the read of a command cell completes: command take advances and its word is written, the reader is IDLE, the command is
in flight and handed to its owner. -/
def State.commandRead (s : State) : State :=
  match s.cells.reading with
  | none => s
  | some _ =>
    if s.pmc.hasDone .cmdRead then
      let i := decodeCell (halvesToBytes (s.pmc.dataOf .cmdRead))
      let s := s.takeAll .cmdRead
      let take := (s.cells.cmdTake + 1) % (2 * s.cfg.nc)
      let s := s.setCells { s.cells with
        cmdTake := take, reading := none
        inFlight := s.cells.inFlight ++ [⟨(commandCode i).getD 0, commandTag i⟩]
        handed := s.cells.handed ++ [i] }
      s.writeWord .cell 0x02 take
    else s

/-- ACCESS_END (R129). A part block's burst outside the configured memory does not exist (R119) and faults. -/
def execAccessEnd (s : State) : Out :=
  match s.pmc.act with
  | .access b _ =>
    if b.inside s.cfg then .next ((s.perform b).commandRead.linkReadsAbandoned).grantPoint
    else .fault .accessOutsideMemory
  | .free | .refresh => .next s

/-! ### Refresh and closing (R130, R131, R133) -/

/-- REFRESH_END (R131): a grant point. -/
def execRefreshEnd (s : State) : Out :=
  match s.pmc.act with
  | .refresh => .next (s.setPmc { s.pmc with act := .free }).grantPoint
  | .free | .access _ _ => .next s

/-- REFRESH_TIMER_EXPIRY (R131): refresh owed goes up by 1, at most 8; a grant point where the DRAM is FREE. -/
def execRefreshTimerExpiry (s : State) : Out :=
  if s.pmc.refreshTimer then .next (s.setPmc { s.pmc with owed := satAdd 8 s.pmc.owed 1 }).grantPoint
  else .next s

/-- CLOSE_TIMER_EXPIRY (R130): the bank's row closes. -/
def execCloseTimerExpiry (bank : Fin 2) (s : State) : Out :=
  let one := bank = 1
  if (s.pmc.bank one).closeTimer.isSome then .next (s.setPmc (s.pmc.setBank one {})) else .next s

/-- R133: the queues are empty, no refresh is owed and the DRAM is FREE, in SR_ENTRY. -/
def Pmc.maySelfRefresh (x : Pmc) : Bool :=
  x.st == .srEntry && x.readQ == [] && x.writeQ == [] && x.owed == 0 && x.act == .free

/-- SELF_REFRESH_ENTRY (R133). -/
def execSelfRefreshEntry (s : State) : Out :=
  if s.pmc.maySelfRefresh then
    .next (s.setPmc { s.pmc.closeAll with st := .selfRefresh, refreshTimer := false })
  else .next s

end Sys2Proof.Machine
end

