-- ==== Sys2Proof/Machine/Shift.lean ====
section
/-! DEFINITION. The pel and dot arithmetic of the print path: the shift unit (3.4), the block counts (R60), the strobe plan
(R62), the heat pulse (R64) and the white run (R56). -/

namespace Sys2Proof.Machine

open Sys2Proof

/-! ### The shift unit (R57 to R60) -/

/-- R57: ones in the low `32 - r` bit positions. -/
def lowMask (r : Nat) : Word := BitVec.allOnes 32 >>> r

/-- R58: ones in the top `32 - r` bit positions. -/
def highMask (r : Nat) : Word := BitVec.allOnes 32 <<< r

/-- R57: the output word that source word `w` forms after the carry word: the mask selects what comes from `w`. -/
def shiftRightWord (r : Nat) (carry w : Word) : Word :=
  ((w >>> r) &&& lowMask r) ||| ((carry <<< (32 - r)) &&& ~~~lowMask r)

/-- R58: the output word formed when source word `w` arrives: the mask selects what comes from the carry word. -/
def shiftLeftWord (r : Nat) (carry w : Word) : Word :=
  ((carry <<< r) &&& highMask r) ||| ((w >>> (32 - r)) &&& ~~~highMask r)

/-- R57: the words formed with their output indices, the last one from the carry word alone. -/
def formRight (r : Nat) (index : Int) (carry : Word) : List Word → List (Int × Word)
  | [] => [(index, shiftRightWord r carry 0)]
  | w :: ws => (index, shiftRightWord r carry w) :: formRight r (index + 1) w ws

/-- R58: the words formed with their output indices, the last one from the carry word alone. -/
def formLeft (r : Nat) (index : Int) (carry : Word) : List Word → List (Int × Word)
  | [] => [(index, shiftLeftWord r carry 0)]
  | w :: ws => (index, shiftLeftWord r carry w) :: formLeft r (index + 1) w ws

/-- R57, R58: the words a line forms under a margin shift: |m| = 32q + r. -/
def formWords (m : Int) (ws : List Word) : List (Int × Word) :=
  let q := m.natAbs / 32
  let r := m.natAbs % 32
  if 0 ≤ m then formRight r q 0 ws else formLeft r (-(q : Int) - 1) 0 ws

/-- R57, R58: an output word: the formed word of its index, white where none is. -/
def outputWord (formed : List (Int × Word)) (i : Nat) : Word :=
  match formed.find? (fun p => p.1 = (i : Int)) with
  | some p => p.2
  | none => 0

/-- R59: a black pel is dropped with a word formed outside 0 to W_h - 1. -/
def marginLost (headWords : Nat) (formed : List (Int × Word)) : Bool :=
  formed.any fun p => (p.1 < 0 || (headWords : Int) ≤ p.1) && p.2 != 0

/-- R57 to R59: a source line through the shift unit: the head's output words and the MARGIN_LOSS condition. With |m| at or above
the head width the line is white and any black pel of the source is lost, on a ring wider than the head too (log entry 23). -/
def shiftLine (m : Int) (headWords : Nat) (ws : List Word) : List Word × Bool :=
  if 32 * headWords ≤ m.natAbs then (List.replicate headWords 0, ws.any (· != 0))
  else
    let formed := formWords m ws
    ((List.range headWords).map (outputWord formed), marginLost headWords formed)

/-- R60: the black dots of each strobe block of 256 dots. -/
def blockCounts : Nat → List Word → List Nat
  | 0, _ => []
  | n + 1, ws => popWords (ws.take 8) :: blockCounts n (ws.drop 8)

/-- R60: the strobe blocks of a head of `n` dots. -/
def blocksOf (n : Nat) : Nat := (n + 255) / 256

/-- R60: the line record of a fetched line. -/
def lineRecord (p : PrintParams) (tag : Tag) (source : List Word) : LineRec :=
  let out := shiftLine p.shift (p.headWidth / 32) source
  { tag := tag, words := out.1, total := popWords out.1, blocks := blockCounts (blocksOf p.headWidth) out.1
    loss := out.2 }

/-! ### The strobe planner (R62) -/

/-- R62: a block joins a phase; its strobe is driven where its count is above 0. -/
def Phase.join (p : Phase) (b n : Nat) : Phase :=
  { blocks := if n = 0 then p.blocks else p.blocks ++ [b], dots := p.dots + n }

/-- R62: each following block joins the current phase while the budget allows, else opens a new one. -/
def planFrom (budget : Nat) (cur : Phase) (b : Nat) : List Nat → List Phase
  | [] => [cur]
  | n :: rest =>
    if cur.dots + n ≤ budget then planFrom budget (cur.join b n) (b + 1) rest
    else cur :: planFrom budget (Phase.join ⟨[], 0⟩ b n) (b + 1) rest

/-- R62: the effective budget. -/
def effectiveBudget (d : Nat) : Nat := max d Config.blockDots

/-- R62: the phases a line fires: block 0 opens the first, and a phase whose sum is 0 is not fired. -/
def strobePlan (d : Nat) (blocks : List Nat) : List Phase :=
  match blocks with
  | [] => []
  | n :: rest => (planFrom (effectiveBudget d) (Phase.join ⟨[], 0⟩ 0 n) 1 rest).filter (fun p => 0 < p.dots)

/-! ### The heat pulse (R64) -/

/-- R64: the boost condition. -/
def boostHolds (h : Heat) (prevDark : Bool) (cool : Nat) : Bool := prevDark || decide (h.interval < cool)

/-- R64: a line's pulse from its band, limited to the table's maximum. -/
def heatPulse (h : Heat) (band : Nat) (boost : Bool) : Nat :=
  min h.maximum (h.bands.getD band 0 + if boost then h.boost else 0)

/-- R64: the band: the HEAD_TEMP reading divided by 16, 0 with no such entry. -/
def State.heatBand (s : State) : Nat :=
  match s.sense.roleEntry .headTemp with
  | some e => e.reading / 16
  | none => 0

/-! ### The white run (R56) -/

/-- R56: the lines of the white run at the start of the window. -/
def whiteRun (first : Bool) : List Tag → Nat
  | [] => 0
  | t :: ts =>
    if t.black ≠ 0 then 0
    else if !first && t.pageStart then 0
    else if t.endOfPage then 1
    else 1 + whiteRun false ts

end Sys2Proof.Machine
end

