-- ==== Sys2Proof/Machine/Print.lean ====
section
/-! DEFINITION. The print path (chapter 3): the stream's start and end, fetch and look-ahead, the head register, the line cycle,
slews, page ends, zone actions and pauses. -/

namespace Sys2Proof.Machine

open Sys2Proof

/-! ### What the stream holds (R52) -/

def Print.buf (x : Print) : BufId → PrintBuf
  | .a => x.bufA
  | .b => x.bufB

def Print.setBuf (x : Print) (i : BufId) (y : PrintBuf) : Print :=
  match i with
  | .a => { x with bufA := y }
  | .b => { x with bufB := y }

def BufId.other : BufId → BufId
  | .a => .b
  | .b => .a

/-- R52: a buffer whose line is taken from the ring and counted nowhere else: a SHIFTING buffer's line is the head register's. -/
def PrintBuf.holdsLine (y : PrintBuf) : Bool := y.st == .fetching || y.st == .staged

/-- R52: the lines taken from the ring and not yet released. -/
def Print.taken (x : Print) : Nat :=
  (if x.headLine.isSome then 1 else 0) + (if x.headSt = .empty then 0 else 1)
    + (if x.bufA.holdsLine then 1 else 0) + (if x.bufB.holdsLine then 1 else 0)
    + (match x.slewing with | some w => w.lines | none => 0)
    + (match x.slew with | some w => w.lines | none => 0)

/-- R52: the published lines at and beyond the fetch point. -/
def State.unfetched (s : State) : Nat := s.ringOccupancy s.print.params.ring - s.print.taken

/-- R61: the staged line next in ring order: the next buffer where it is STAGED (it then holds the older of two), else the
other. -/
def Print.nextStaged (x : Print) : Option BufId :=
  if (x.buf x.nextBuf).st = .staged then some x.nextBuf
  else if (x.buf x.nextBuf.other).st = .staged then some x.nextBuf.other
  else none

/-- R52: the buffer being shifted into the head register. -/
def Print.shiftingBuf (x : Print) : Option BufId :=
  if x.bufA.st = .shifting then some .a else if x.bufB.st = .shifting then some .b else none

/-- R70: a pending slew is next in ring order: no line is in the buffers, the head register or the latches, and no slew runs. -/
def Print.slewNext (x : Print) : Bool :=
  x.slew.isSome && x.slewing.isNone && x.headLine.isNone && x.headSt == .empty && x.bufA.st == .free && x.bufB.st == .free

/-- R69: a line is ready to latch or a slew is ready to begin. -/
def Print.ready (x : Print) : Bool := x.headSt == .loaded || x.slewNext

/-- R69, R74, R76: the state of a stream with nothing in progress. -/
def Print.restState (x : Print) : PrintState := if x.ready then .printing else .waitLine

/-- R73: an item is in progress: a line latched, a slew or a trailing feed. -/
def Print.itemInProgress (x : Print) : Option Item :=
  match x.st with
  | .printing => if x.headLine.isSome then some .line else none
  | .slewing => some .slew
  | .trailingFeed => some .feed
  | .off | .waitLine | .paused | .hot => none

/-! ### Margin loss of the page (R59, log entry 15) -/

/-- The unlatched lines whose fetch is complete, in ring order. -/
def Print.unlatched (x : Print) : List LineRec :=
  (if x.headSt = .empty then [] else [x.headRec])
    ++ (if (x.buf x.nextBuf).st = .staged then [(x.buf x.nextBuf).line] else [])
    ++ (if (x.buf x.nextBuf.other).st = .staged then [(x.buf x.nextBuf.other).line] else [])

/-- The MARGIN_LOSS of the lines that belong to the page in progress: up to its END_OF_PAGE line, or before a PAGE_START that
finds the page begun. -/
def pageLoss (begun : Bool) : List LineRec → Bool
  | [] => false
  | l :: ls =>
    if begun && l.tag.pageStart then false
    else l.loss || (if l.tag.endOfPage then false else pageLoss true ls)

/-- R71: the page counters are not both 0. -/
def Print.pageBegun (x : Print) : Bool := x.linesPrinted != 0 || x.linesSlewed != 0

/-- The page in progress ends with the item in progress, so no unlatched line belongs to it. -/
def Print.pageEnding (x : Print) : Bool :=
  x.st == .trailingFeed || x.interrupted == some .feed
    || (match x.headLine with | some h => h.line.tag.endOfPage | none => false)
    || (match x.slewing with | some w => w.endsPage | none => false)

/-- R59: the margin-loss flag of the page the unlatched lines go on with. -/
def Print.gatherNext (x : Print) : Print :=
  let begun := x.pageBegun || x.headLine.isSome || x.slewing.isSome
  { x with marginLoss := x.marginLoss || pageLoss begun x.unlatched }

/-- R59: the page's margin-loss flag with the lines fetched so far, which a page that is ending does not go on with. -/
def Print.gatherLoss (x : Print) : Print := if x.pageEnding then x else x.gatherNext

/-! ### Cells (R72, R73, R77) -/

/-- R72, 10.6: the PAGE_PRINTED cell, then the page counters and margin-loss flag cleared, and the flag of the page after it
gathered from the lines fetched in the meantime, in a trailing feed too. -/
def State.pagePrinted (s : State) (endMark : Bool) : State :=
  let x := s.print
  let s := s.handEvent .pagePrinted 0 (if endMark then .done else .failed)
    ([byte x.params.ring.val, byte (flag x.marginLoss 0 + flag endMark 1), 0] ++ twoBytes x.linesPrinted
      ++ twoBytes x.linesSlewed ++ [byte x.underruns])
  s.setPrint ({ s.print with linesPrinted := 0, linesSlewed := 0, underruns := 0, marginLoss := false }).gatherNext

/-- R73, 10.6: the STREAM cell of a pause, or of entering or leaving HOT: state and reason (log entry 10). -/
def State.printStream (s : State) : State :=
  s.handEvent .stream 0 .done
    [byte (sideCode .print), byte s.print.params.ring.val, byte (printStateCode s.print.st),
     optByte (s.print.pauseReason.map printReasonCode)]

/-- R77, R78: the result a stream's ending reason gives. -/
def printReasonResult : PrintReason → Result
  | .paper | .cover | .command | .stopped => .done
  | .supply | .clock => .failed
  | .aborted => .aborted

/-- R77, 10.6: the final STREAM cell: state OFF, the reason and the counts of the page in progress. -/
def State.finalStream (s : State) (r : PrintReason) : State :=
  let x := s.print
  s.handEvent .stream 0 (printReasonResult r)
    ([byte (sideCode .print), byte x.params.ring.val, byte (printStateCode .off), byte (printReasonCode r),
      byte (flag x.marginLoss 0)] ++ twoBytes x.linesPrinted ++ twoBytes x.linesSlewed ++ [byte x.underruns])

/-! ### URGENT (R68, R128) -/

/-- The print path raises or lowers URGENT. -/
def State.setUrgent (s : State) (on : Bool) : State := s.setPmc { s.pmc with urgent := on }

/-- R68: URGENT is lowered when the stream leaves PRINTING. -/
def State.enterPrint (s : State) (st : PrintState) : State :=
  let s := if st = .printing then s else s.setUrgent false
  s.setPrint { s.print with st := st }

/-! ### Pauses and HOT (R73, R74) -/

/-- R73: the stream enters PAUSED with a reason and writes its STREAM cell. -/
def State.enterPause (s : State) (r : PrintReason) : State :=
  let s := s.enterPrint .paused
  (s.setPrint { s.print with pauseReason := some r }).printStream

/-- R73: the stream enters HOT and writes its STREAM cell. -/
def State.enterHot (s : State) : State := (s.enterPrint .hot).printStream

/-- R69: a stream in WAIT_LINE leaves for PRINTING when a line or slew is ready. -/
def State.printWake (s : State) : State :=
  if s.print.st = .waitLine ∧ s.print.ending = none ∧ s.print.ready then s.enterPrint .printing else s

/-- R73: the pending conditions emptied. -/
def Print.noPending (x : Print) : Print := { x with pendPaper := false, pendCommand := false, pendHot := false }

/-- R73: a pending condition takes effect where the item completes, else the stream goes on. -/
def State.takePending (s : State) (goOn : State → State) : State :=
  let x := s.print
  let s := s.setPrint x.noPending
  if x.pendPaper then s.enterPause .paper
  else if x.pendCommand then s.enterPause .command
  else if x.pendHot then s.enterHot
  else goOn s

/-! ### What follows a line or a slew (R68, R71) -/

/-- R68: the next item in ring order decides: something is ahead; or a line being fetched is awaited, with URGENT raised; or no
unfetched published line remains: an underrun, which an item that a RESUME PRINT took up does not count (R76). -/
def State.printGoOn (s : State) (resumed : Bool) : State :=
  let x := s.print
  if x.headSt ≠ .empty ∨ x.nextStaged.isSome ∨ x.slew.isSome then s.enterPrint .printing
  else if x.fetch ≠ .idle then (s.enterPrint .printing).setUrgent true
  else if 0 < s.unfetched then s.enterPrint .printing
  else
    let s := s.enterPrint .waitLine
    if resumed then s else s.setPrint { s.print with underruns := satAdd 255 s.print.underruns 1 }

/-- R71: the trailing feed's end: the page's cell, then a pending condition or WAIT_LINE. A stream that is ending goes no
further. -/
def State.feedEnd (s : State) : State :=
  let s := s.pagePrinted true
  if s.print.ending.isSome then s else s.takePending (fun s => (s.enterPrint .waitLine).printWake)

/-- A bounded forward PAPER move of the stream (R91). -/
def State.paperMove (s : State) (steps : Nat) : State :=
  s.startMove .paper .print .forward s.print.params.profile (some steps)

/-- R71, R77: the page ends: a trailing feed first, unless none is set or the stream is ending. -/
def State.pageEnds (s : State) : State :=
  let x := s.print
  if x.ending.isSome then s.pagePrinted true
  else if 0 < x.params.trailing then (s.enterPrint .trailingFeed).paperMove (x.params.trailing * x.params.k)
  else s.feedEnd

/-- R67, R70, R77: what follows an item that did not end the page. -/
def State.itemFollow (s : State) (resumed : Bool) : State :=
  if s.print.ending.isSome then s else s.takePending (·.printGoOn resumed)

/-- R67: line-done. -/
def State.lineDone (s : State) (h : HeadLine) (resumed : Bool) : State :=
  let s := s.releaseSlots s.print.params.ring 1
  let s := s.setPrint { s.print with
    linesPrinted := satAdd 16383 s.print.linesPrinted 1, prevDark := h.plan == [], headLine := none }
  if h.line.tag.endOfPage then s.pageEnds else s.itemFollow resumed

/-- R70, R77: a slew's end with `n` of its lines passed; a run passed short of its end ends no page. -/
def State.slewEnd (s : State) (w : Slew) (n : Nat) (resumed : Bool) : State :=
  let s := s.releaseSlots s.print.params.ring n
  let s := s.setPrint { s.print with
    linesSlewed := satAdd 16383 s.print.linesSlewed n, prevDark := true, slewing := none }
  if n = w.lines ∧ w.endsPage then s.pageEnds else s.itemFollow resumed

/-! ### The end of a PAPER move (R67, R70, R71, R73, R76, R77) -/

/-- The item whose PAPER move is under way or was interrupted. -/
def Print.movingItem (x : Print) : Option Item :=
  if x.headLine.isSome then some .line
  else if x.slewing.isSome then some .slew
  else if x.st = .trailingFeed ∨ x.interrupted = some .feed then some .feed
  else none

/-- R76: a HOT zone found after an owed move joins the pending conditions, which an ending stream has none of (R77). -/
def State.hotAfter (s : State) (resumed : Bool) : Bool :=
  s.print.pendHot || (resumed && s.print.ending.isNone && s.zone .headTemp == some .high)

/-- R67, R70, R71, R76: the item completes; owed steps become 0. -/
def State.completeItem (s : State) (item : Item) (resumed : Bool) : State :=
  let s := s.setPrint { s.print with owed := 0, interrupted := none, pendHot := s.hotAfter resumed }
  match item, s.print.headLine, s.print.slewing with
  | .line, some h, _ => s.lineDone h resumed
  | .slew, _, some w => s.slewEnd w w.lines resumed
  | .feed, _, _ => s.feedEnd
  | .line, none, _ | .slew, _, none => s

/-- R76: the owed move of an interrupted item begins, or the item completes at once when no steps are owed. -/
def State.beginOwed (s : State) (item : Item) : State :=
  let x := s.print
  let head := x.headLine.map fun h => { h with cycle := .advancing }
  if x.owed = 0 then s.completeItem item true
  else (s.setPrint { x with interrupted := none, headLine := head }).paperMove x.owed

/-- R77: an ending stream's interrupted item: a line cut short is not released; a slew releases the whole lines passed; a trailing
feed's page is reported. -/
def State.endItem (s : State) (item : Item) (notTaken : Nat) : State :=
  let x := s.print
  let s := s.setPrint { x with owed := 0, interrupted := none }
  match item, x.slewing with
  | .line, _ => s.setPrint { s.print with headLine := none }
  | .slew, some w => s.slewEnd w ((w.lines * x.params.k - notTaken) / x.params.k) false
  | .slew, none => s
  | .feed, _ => s.feedEnd

/-- R77: an ending stream's PAPER move has ended: an item whose steps were all taken completes; a latched line that a RESUME PRINT
took up again while its advance was still being cut short owes the rest of it, and its advance is made; any other item ends
short. -/
def State.endingMoveEnd (s : State) (item : Item) (notTaken : Nat) : State :=
  let x := s.print
  if notTaken = 0 ∧ ¬(x.cut ∧ item = .line) then s.completeItem item false
  else if item = .line ∧ x.interrupted = some .line ∧ x.st ≠ .paused ∧ ¬x.cut then
    (s.setPrint { x with owed := notTaken }).beginOwed .line
  else s.endItem item notTaken

/-- The PAPER channel reports the end of a move of the print path: the steps it did not take decide. -/
def State.printMoveEnd (s : State) : State :=
  let x := s.print
  let notTaken := s.paper.requested.getD 0 - s.paper.taken
  match x.movingItem with
  | none => s
  | some item =>
    if x.ending.isSome then s.endingMoveEnd item notTaken
    else if x.st = .paused then s.setPrint { x with owed := notTaken }
    else if x.interrupted.isSome then (s.setPrint { x with owed := notTaken }).beginOwed item
    else if notTaken = 0 then s.completeItem item (decide (0 < x.owed))
    else s

/-! ### START PRINT (R53, R54) -/

/-- R53: the margin shift, clamped. -/
def clampShift (m : Int) : Int := max (-2047) (min 2047 m)

/-- R53: the dot budget, clamped. -/
def clampBudget (d : Nat) : Nat := min 2048 (max 256 d)

/-- R53: the zones a START PRINT needs; an absent role is benign. -/
def State.printZonesGood (s : State) : Bool :=
  s.zone .headTemp != some .unknown && s.zone .paper != some .unknown && s.zone .paper != some .low
    && s.coverAndSupplyGood

/-- R53: the ranges START PRINT checks before the ring. -/
def printArgsOk (headWidth k threshold trailing : Nat) : Bool :=
  32 ≤ headWidth && headWidth ≤ 2048 && headWidth % 32 == 0 && stepsPerLineOk k
    && (2 ≤ threshold && threshold ≤ 32) && trailing ≤ 1023

/-- R53: the checks of START PRINT in order, and the parameters it then takes. -/
def State.checkStartPrint (s : State) (ring k profile threshold : Byte) (headWidth shift budget trailing : Half) :
    Except Result PrintParams :=
  if s.startRefused then .error .busy
  else if s.print.active then .error .busy
  else
    match profileOf profile.toNat with
    | none => .error .badArg
    | some profile =>
      if ¬printArgsOk headWidth.toNat k.toNat threshold.toNat trailing.toNat then .error .badArg
      else
        match ringOf ring with
        | none => .error .badArg
        | some r =>
          if (s.ring r).desc = none then .error .notReady
          else if s.profile profile = [] then .error .notReady
          else if s.tables.heat = none then .error .notReady
          else if ¬s.printZonesGood then .error .notReady
          else if s.paper.moving then .error .busy
          else
            match s.attachConsumerCheck r .print with
            | some e => .error e
            | none => .ok { ring := r, headWidth := headWidth.toNat, k := k.toNat, shift := clampShift shift.toInt,
                            budget := clampBudget budget.toNat, profile := profile, threshold := threshold.toNat,
                            trailing := trailing.toNat }

/-- R54: an accepted START PRINT: WAIT_LINE, attached, owning the PAPER channel. -/
def State.beginPrint (s : State) (p : PrintParams) : State :=
  let s := s.setPrint { st := .waitLine, params := p }
  let s := s.attachConsumer p.ring true
  s.setPaper { s.paper with owner := .print }

/-- START_PRINT (R53, R54). -/
def execStartPrint (tag ring k profile threshold : Byte) (headWidth shift budget trailing : Half) (s : State) : Out :=
  match s.claimCommand (.startPrint tag ring k profile threshold headWidth shift budget trailing) with
  | none => .next s
  | some s =>
    match s.checkStartPrint ring k profile threshold headWidth shift budget trailing with
    | .error r => .next (s.handDone tag 5 r)
    | .ok p => .next ((s.handDone tag 5 .done).beginPrint p)

/-! ### Ending (R77, R78) -/

/-- R77: in PAUSED, owed steps are dropped and an interrupted line or slew is not released; a phase still in progress runs to its
end. -/
def Print.dropPaused (x : Print) : Print :=
  if x.st = .paused then
    { x with owed := 0, interrupted := none, slew := none, slewing := none, cut := true
             headLine := if x.firing then x.headLine else none }
  else x

/-- R77: a print stream begins ending with reason STOPPED; the reason first recorded stands. -/
def State.stopPrint (s : State) : State :=
  let x := s.print
  if x.ending.isSome then s
  else
    let s := s.setPrint { x.noPending.dropPaused with ending := some .stopped }
    match x.st with
    | .slewing | .trailingFeed => s.stopMove .paper .request
    | .off | .waitLine | .printing | .paused | .hot => s

/-- STOP_PRINT (R77). -/
def execStopPrint (tag : Byte) (s : State) : Out :=
  match s.claimCommand (.stopPrint tag) with
  | none => .next s
  | some s =>
    if s.print.active then .next ((s.handDone tag 6 .done).stopPrint) else .next (s.handDone tag 6 .badState)

/-- R78: a cut of an active stream: STOP ALL lets a phase in progress run to its end, a SUPPLY undervoltage and a clock failure end
it at once; the head line is not released, owed steps are dropped, a slew keeps its move until the channel holds. -/
def State.printCut (s : State) (reason : PrintReason) : State :=
  let x := s.print
  if ¬x.active then s
  else
    let keep := x.firing && reason == .aborted
    let x' := x.noPending.dropPaused
    s.setPrint { x' with
      ending := some (x.ending.getD reason), cut := true, owed := 0, interrupted := none
      headLine := if keep then x.headLine else none
      cool := if x.firing && !keep then 0 else x.cool
      slew := none }

/-- R77: nothing of an ending stream is under way. -/
def State.printMayEnd (s : State) : Bool :=
  let x := s.print
  x.active && x.ending.isSome && x.headLine.isNone && s.paper.atRest && x.fetch == .idle && x.slewing.isNone

/-- PRINT_STREAM_OFF (R77): the final STREAM cell, URGENT lowered, the ring's consumer side detached, the PAPER channel given
back, OFF. A stream that leaves HOT for OFF hands this one cell (log entry 10). -/
def execPrintStreamOff (s : State) : Out :=
  if s.printMayEnd then
    let s := s.finalStream (s.print.ending.getD .stopped)
    let s := (s.setUrgent false).attachConsumer s.print.params.ring false
    .next ((s.setPaper { s.paper with owner := .host }).setPrint {})
  else .next s

/-! ### Fetch and look-ahead (R55, R56, R60) -/

/-- R55: the fetch unit may start a fetch; no burst of the print path waits outside (R120). -/
def State.mayFetch (s : State) : Bool :=
  let x := s.print
  x.active && x.ending.isNone && x.fetch == .idle && decide (1 ≤ s.unfetched) && (x.buf x.nextBuf).st == .free && x.slew.isNone
    && !s.burstWaits .print

/-- R68: a stream in PRINTING with nothing taken ahead of the fetch awaits it. -/
def Print.awaitsFetch (x : Print) : Bool :=
  x.st == .printing && x.headLine.isNone && x.headSt == .empty && x.bufA.st == .free && x.bufB.st == .free

/-- FETCH_START (R55): the tag of the slot at the fetch point is read. -/
def execFetchStart (s : State) : Out :=
  let x := s.print
  match (s.ring x.params.ring).desc with
  | none => .next s
  | some d =>
    if s.mayFetch then
      let slot := ((s.ring x.params.ring).take + x.taken) % d.slots
      let s := if x.awaitsFetch then s.setUrgent true else s
      .next ((s.setPrint { x with fetch := .tag slot }).issueRead .print .fetchTag (d.slotAddress slot) 4)
    else .next s

/-- R55: the words of a slot are read into the next buffer. -/
def State.fetchWordsOf (s : State) (d : RingDesc) (slot : Nat) (tag : Tag) : State :=
  let x := s.print
  let i := x.nextBuf
  let x := x.setBuf i { st := .fetching, line := { tag := tag } }
  let s := s.setPrint { x with fetch := .words slot i, nextBuf := i.other, window := [] }
  s.issueRead .print .fetchWords (d.slotAddress slot + 8) (2 * d.words)

/-- R56: the window's tags decide: a run that reaches the threshold becomes the pending slew; else the first line's words are
read. -/
def State.decideWindow (s : State) (d : RingDesc) (slot : Nat) (tags : List Tag) : State :=
  let x := s.print
  let n := whiteRun true tags
  let first := tags.headD {}
  if x.params.threshold ≤ n then
    let s := s.setPrint { x with
      fetch := .idle, window := []
      slew := some { lines := n, first := slot, pageStart := first.pageStart
                     endsPage := (tags.getD (n - 1) {}).endOfPage } }
    (s.setUrgent false).printWake
  else s.fetchWordsOf d slot first

/-- R56: the reads of `n` further tags, from the slot after the first. -/
def State.issueWindow (s : State) (d : RingDesc) (slot : Nat) : Nat → State
  | 0 => s
  | n + 1 =>
    (s.issueRead .print .fetchWindow (d.slotAddress ((slot + 1) % d.slots)) 4).issueWindow d ((slot + 1) % d.slots) n

/-- TAG_READ_COMPLETE (R55, R56); not while a take word of the stream waits outside (R120, log entry 24). -/
def execTagReadComplete (s : State) : Out :=
  let x := s.print
  match x.fetch, (s.ring x.params.ring).desc with
  | .tag slot, some d =>
    if s.pmc.hasDone .fetchTag ∧ s.wordWaits .print = false then
      let tag := tagOfHalves (s.pmc.dataOf .fetchTag)
      let s := s.takeAll .fetchTag
      if x.ending.isSome then .next (s.setPrint { x with fetch := .idle })
      else if tag.black ≠ 0 then .next (s.fetchWordsOf d slot tag)
      else
        let n := min (Config.windowLength - 1) (s.unfetched - 1)
        let s := s.setPrint { x with fetch := .window slot tag n, window := [tag] }
        if n = 0 then .next (s.decideWindow d slot [tag]) else .next (s.issueWindow d slot n)
    else .next s
  | _, _ => .next s

/-- R56: the tags that consecutive groups of four halfwords hold. -/
def windowTags : Nat → List Half → List Tag
  | 0, _ => []
  | n + 1, hs => tagOfHalves (hs.take 4) :: windowTags n (hs.drop 4)

/-- WINDOW_READ_COMPLETE (R56); not while a take word of the stream waits outside (R120, log entry 24). -/
def execWindowReadComplete (s : State) : Out :=
  let x := s.print
  match x.fetch, (s.ring x.params.ring).desc with
  | .window slot first n, some d =>
    if n ≤ s.pmc.countDone .fetchWindow ∧ s.wordWaits .print = false then
      let tags := first :: windowTags n (s.pmc.dataOf .fetchWindow)
      let s := s.takeAll .fetchWindow
      if x.ending.isSome then .next (s.setPrint { x with fetch := .idle, window := [] })
      else .next ((s.setPrint { x with window := tags }).decideWindow d slot tags)
    else .next s
  | _, _ => .next s

/-- FETCH_COMPLETE (R60): the buffer becomes STAGED with its output words and counts; not while a take word of the stream waits
outside (R120, log entry 24). -/
def execFetchComplete (s : State) : Out :=
  let x := s.print
  match x.fetch with
  | .words _ i =>
    if s.pmc.hasDone .fetchWords ∧ s.wordWaits .print = false then
      let source := halvesToWords (s.pmc.dataOf .fetchWords)
      let s := (s.takeAll .fetchWords).setUrgent false
      if x.ending.isSome then .next (s.setPrint { x.setBuf i {} with fetch := .idle })
      else
        let line := lineRecord x.params (x.buf i).line.tag source
        .next (s.setPrint ({ x.setBuf i { st := .staged, line := line } with fetch := .idle }).gatherLoss)
    else .next s
  | .idle | .tag _ | .window _ _ _ => .next s

/-! ### The head register (R61) -/

/-- SHIFT_IN_START (R61); not while a take word of the stream waits outside (R120, log entry 24). -/
def execShiftInStart (s : State) : Out :=
  let x := s.print
  match x.headSt, x.nextStaged with
  | .empty, some i =>
    if s.wordWaits .print then .next s
    else .next (s.setPrint { x.setBuf i { x.buf i with st := .shifting } with headSt := .shifting, headRec := (x.buf i).line })
  | _, _ => .next s

/-- SHIFT_IN_COMPLETE (R61): the buffer becomes FREE and the register is LOADED. -/
def execShiftInComplete (s : State) : Out :=
  let x := s.print
  match x.headSt, x.shiftingBuf with
  | .shifting, some i => .next (s.setPrint { x.setBuf i {} with headSt := .loaded }).printWake
  | _, _ => .next s

/-! ### The line cycle (R65 to R67) -/

/-- R67: the head line's advance of K steps is requested. -/
def State.requestAdvance (s : State) (h : HeadLine) : State :=
  (s.setPrint { s.print with headLine := some { h with cycle := .advancing } }).paperMove s.print.params.k

/-- R71: a PAGE_START line or slew that finds the page counters not both 0 closes the earlier page. -/
def State.closeUnterminated (s : State) (pageStart : Bool) : State :=
  if pageStart ∧ s.print.pageBegun then s.pagePrinted false else s

/-- R65: what a latch waits for; no take word of the stream waits outside (R120, log entry 24). -/
def State.mayLatch (s : State) : Bool :=
  let x := s.print
  x.st == .printing && x.ending.isNone && x.headSt == .loaded && x.headLine.isNone && s.paper.atRest && x.owed == 0
    && x.slewing.isNone && s.zone .headTemp != some .unknown && !s.wordWaits .print

/-- R62, R64, R65: the register's line becomes the head line with its plan and its pulse. -/
def State.latch (s : State) : State :=
  let x := s.print
  let line := x.headRec
  let prevDark := x.prevDark && x.pageBegun
  let plan := strobePlan x.params.budget line.blocks
  let pulse := match s.tables.heat with
    | some h => heatPulse h s.heatBand (boostHolds h prevDark x.cool)
    | none => 0
  let h : HeadLine := { line := line, plan := plan, pulse := pulse }
  let s := s.setPrint { x with
    headSt := .empty, headRec := {}, headLine := some h, prevDark := prevDark, marginLoss := x.marginLoss || line.loss }
  if plan = [] then s.requestAdvance h else s

/-- LINE_LATCH (R65): `elapsed` brings the cool counter up to date (log entry 18). -/
def execLineLatch (elapsed : Half) (s : State) : Out :=
  if s.mayLatch then
    let s := s.setPrint { s.print with cool := satAdd 65535 s.print.cool elapsed.toNat }
    .next ((s.closeUnterminated s.print.headRec.tag.pageStart).latch)
  else .next s

/-- R66, R73, R77, R78: what follows a phase's end: a cut stream drops the line, a COVER opening leaves the remaining phases unfired,
else the next phase or the advance follows. -/
def State.afterPhase (s : State) (h : HeadLine) : State :=
  let x := s.print
  if x.cut then s.setPrint { x with headLine := none }
  else if x.interrupted = some .line then
    let s := s.setPrint { x with headLine := some { h with cycle := .waiting } }
    if x.st = .paused then s else s.beginOwed .line
  else if h.ended < h.plan.length then s.setPrint { x with headLine := some { h with cycle := .gap } }
  else s.requestAdvance h

/-- PHASE_END (R66). -/
def execPhaseEnd (s : State) : Out :=
  match s.print.headLine with
  | some h =>
    if h.cycle = .firing then
      .next ((s.setPrint { s.print with cool := 0 }).afterPhase { h with ended := h.ended + 1 })
    else .next s
  | none => .next s

/-- NEXT_PHASE_START (R66): one tick after a phase's end. -/
def execNextPhaseStart (s : State) : Out :=
  match s.print.headLine with
  | some h =>
    if h.cycle = .gap then
      .next (s.setPrint { s.print with headLine := some { h with cycle := .firing } })
    else .next s
  | none => .next s

/-! ### Slew (R70) -/

/-- SLEW_BEGIN (R70); not while a take word of the stream waits outside (R120, log entry 24). -/
def execSlewBegin (s : State) : Out :=
  match s.print.slew with
  | some w =>
    if s.print.st = .printing ∧ s.print.ending = none ∧ s.print.slewNext ∧ s.paper.atRest ∧ s.print.owed = 0
        ∧ s.wordWaits .print = false then
      let s := s.closeUnterminated w.pageStart
      let s := s.enterPrint .slewing
      .next ((s.setPrint { s.print with slew := none, slewing := some w }).paperMove (w.lines * s.print.params.k))
    else .next s
  | none => .next s

/-! ### Zone actions (R73, R74) -/

/-- R73: the PAPER zone becomes LOW; an ending stream ignores it (log entry 13). -/
def State.printPaperLow (s : State) : State :=
  let x := s.print
  if x.ending.isSome then s
  else
    match x.itemInProgress, x.st with
    | some _, _ => s.setPrint { x with pendPaper := true }
    | none, .waitLine | none, .hot | none, .printing => s.enterPause .paper
    | none, .off | none, .paused | none, .slewing | none, .trailingFeed => s

/-- R73: the HEAD_TEMP zone becomes HIGH; an ending stream ignores it (log entry 13). -/
def State.printHeadHot (s : State) : State :=
  let x := s.print
  if x.ending.isSome then s
  else
    match x.itemInProgress, x.st with
    | some _, _ => s.setPrint { x with pendHot := true }
    | none, .waitLine | none, .printing => s.enterHot
    | none, .off | none, .paused | none, .slewing | none, .trailingFeed | none, .hot => s

/-- R73, R74: the HEAD_TEMP zone becomes any other than HIGH; an ending stream in HOT stays in it (log entry 13). -/
def State.printHeadCool (s : State) : State :=
  let s := s.setPrint { s.print with pendHot := false }
  if s.print.st = .hot ∧ s.print.ending = none then (s.enterPrint s.print.restState).printStream else s

/-- R73: the item a COVER opening interrupts keeps its lines; a line whose advance had not begun owes K steps, and what a move cut
short owes is counted when the channel reaches HOLD. -/
def Print.interrupt (x : Print) : Print :=
  match x.itemInProgress, x.headLine with
  | some .line, some h =>
    match h.cycle with
    | .firing => { x with interrupted := some .line, owed := x.params.k }
    | .gap => { x with interrupted := some .line, owed := x.params.k, headLine := some { h with cycle := .waiting } }
    | .advancing | .waiting => { x with interrupted := some .line }
  | some item, _ => { x with interrupted := some item }
  | none, _ => x

/-- R73: the COVER zone becomes HIGH. In a stream that is ending, the head line's remaining phases are not fired and it is not
released (log entry 13). -/
def State.printCoverHigh (s : State) : State :=
  let x := s.print
  match x.st with
  | .off | .paused => s
  | .waitLine | .printing | .slewing | .trailingFeed | .hot =>
    if x.ending.isSome then
      match x.headLine with
      | some h =>
        match h.cycle with
        | .firing => s.setPrint { x with cut := true }
        | .gap | .waiting => s.setPrint { x with headLine := none }
        | .advancing => s.setPrint { x with interrupted := none }
      | none => s
    else (s.setPrint x.interrupt).enterPause .cover

/-! ### PAUSE PRINT and RESUME PRINT (R75, R76) -/

/-- R75: what an accepted PAUSE PRINT does; in a stream that is ending it takes no effect (R77, log entry 13). -/
def State.pausePrint (s : State) : State :=
  let x := s.print
  if x.ending.isSome then s
  else if x.itemInProgress.isSome then s.setPrint { x with pendCommand := true }
  else s.enterPause .command

/-- PAUSE_PRINT (R75). -/
def execPausePrint (tag : Byte) (s : State) : Out :=
  match s.claimCommand (.pausePrint tag) with
  | none => .next s
  | some s =>
    if s.print.st = .off ∨ s.print.st = .paused then .next (s.handDone tag 7 .badState)
    else .next ((s.handDone tag 7 .done).pausePrint)

/-- R76: the state of an interrupted item. -/
def itemState : Item → PrintState
  | .line => .printing
  | .slew => .slewing
  | .feed => .trailingFeed

/-- R76: the stream leaves PAUSED: an interrupted item goes on, once the channel holds and no phase is in progress (log entry
12); else HOT, PRINTING or WAIT_LINE. -/
def State.resumePrint (s : State) : State :=
  let x := s.print
  if x.ending.isSome then s
  else
    let s := s.setPrint { x with pauseReason := none }
    match x.interrupted with
    | some item =>
      let s := s.enterPrint (itemState item)
      if x.firing ∨ s.paper.moving then s else s.beginOwed item
    | none =>
      if s.zone .headTemp = some .high then s.enterHot
      else s.enterPrint x.restState

/-- R76: the zones that keep a RESUME PRINT from being taken. -/
def State.resumeBlocked (s : State) : Bool :=
  s.zone .paper == some .low || s.zone .paper == some .unknown || s.zone .cover == some .high

/-- RESUME_PRINT (R76). -/
def execResumePrint (tag : Byte) (s : State) : Out :=
  match s.claimCommand (.resumePrint tag) with
  | none => .next s
  | some s =>
    if s.print.st ≠ .paused then .next (s.handDone tag 8 .badState)
    else if s.resumeBlocked then .next (s.handDone tag 8 .notReady)
    else .next ((s.handDone tag 8 .done).resumePrint)

end Sys2Proof.Machine
end

