-- ==== Sys2Proof/Machine/Reports.lean ====
section
/-! DEFINITION. The motion controller's reports (R85, R88, R91): who is told of a move's end; the step interval's expiry and the
emergency stop of both channels. -/

namespace Sys2Proof.Machine

open Sys2Proof

/-- R48, R44: the scan path is told that the DOC channel holds. -/
def State.scanMoveEnd (s : State) : State := s.scanRestart.scanTryOff

/-- R85, R93: a move that has ended is reported to its requester. -/
def State.reportEnd (s : State) (ch : Chan) (cause : EndCause) : State :=
  match (s.chan ch).requester with
  | .host => s.reportHostEnd ch (s.chan ch) cause
  | .scan => s.scanMoveEnd
  | .print => s.printMoveEnd

/-- R81, R91: each DOC step is reported to a scan stream that owns the channel. -/
def State.reportStep (s : State) (ch : Chan) : State :=
  match ch, s.doc.owner with
  | .doc, .scan => s.scanDocStep
  | .doc, .host | .doc, .print | .paper, _ => s

/-- STEP_INTERVAL_EXPIRY (R84, R85): one step; the step's report; the end's report where the channel now holds. -/
def execStepIntervalExpiry (ch : Chan) (s : State) : Out :=
  let c := s.chan ch
  if c.moving ∧ c.timer.isSome then
    let c := c.step (s.stepMode ch) (s.profile c.profile)
    let s := (s.setChan ch c).reportStep ch
    if c.moving then .next s else .next (s.reportEnd ch c.endCause)
  else .next s

/-- R88: both channels come to rest at one event. -/
def State.emergencyHold (s : State) : State := (s.setDoc s.doc.emergency).setPaper s.paper.emergency

/-- R88: the moves that the emergency ended are reported with its cause, DOC's before PAPER's (log entry 9). -/
def State.emergencyReport (s : State) (doc paper : Bool) (cause : EndCause) : State :=
  let s := if doc then s.reportEnd .doc cause else s
  if paper then s.reportEnd .paper cause else s

/-- R88, R43, R78: an emergency: both channels come to rest, then each stream is cut, whose own stop request finds its channel in
HOLD, then the ended moves are reported (log entry 9). -/
def State.emergencyStop (s : State) (scan : ScanReason) (print : PrintReason) (cause : EndCause) : State :=
  ((s.emergencyHold.scanCut scan).printCut print).emergencyReport s.doc.moving s.paper.moving cause

end Sys2Proof.Machine
end

