-- ==== Sys2Proof/Machine/Sweep.lean ====
section
/-! DEFINITION. The sense unit's sweeps (5.1 to 5.3): installing a list, the conversions in order, the hold, abandonment. -/

namespace Sys2Proof.Machine

open Sys2Proof

/-- R102: an entry as it is installed. -/
def SenseEntry.fresh (e : SenseEntry) : Installed := { entry := e }

/-- R108: at a sweep's start a pending list is installed, and its header's period and standby interval take effect. -/
def Sense.install (x : Sense) : Sense :=
  match x.pendingList with
  | none => x
  | some t =>
    { x with list := t.entries.map SenseEntry.fresh, period := t.period, standby := t.standby, pendingList := none }

/-- R104, R111: the next position a sweep converts, from a position on: every entry, or those with the wake flag. -/
def nextPosition (wakeOnly : Bool) (p : Nat) : List Installed → Option Nat
  | [] => none
  | e :: es => if !wakeOnly || e.entry.wake then some p else nextPosition wakeOnly (p + 1) es

/-- R103: a sweep reaches an entry: its conversion begins, unless the hold stands. -/
def Sense.reach (x : Sense) (sweep : Sweep) : Sense := { x with sweep := sweep, converting := !x.hold }

/-- R104: a normal sweep begins: the pending list is installed first; a sweep of an empty list ends at the same event. -/
def State.sweepStart (s : State) : State :=
  let x := s.sense.install
  match nextPosition false 0 x.list with
  | some p => s.setSense (x.reach (.normal p))
  | none => (s.setSense { x with sweep := .none }).snapshotDue

/-- R104: a sweep has ended; one that is owed begins at the same event. -/
def State.sweepEnded (s : State) : State :=
  let x := { s.sense with sweep := .none }
  if x.owed then (s.setSense { x with owed := false }).sweepStart else s.setSense x

/-- R109: a normal sweep ends and hands the snapshot's sense part. -/
def State.normalSweepEnd (s : State) : State := s.snapshotDue.sweepEnded

/-- R103: the hold is placed. -/
def State.placeHold (s : State) : State := s.setSense { s.sense with hold := true }

/-- R103: the hold is lifted: a sweep that waits resumes with its entry. -/
def State.liftHold (s : State) : State :=
  let x := s.sense
  let waiting := x.sweep != .none && !x.converting
  s.setSense { x with hold := false, converting := x.converting || (x.hold && waiting) }

/-- R110: on entering ENTERING the period timer stops, the owed mark is cleared and a sweep is abandoned; a conversion in progress
runs to its end, its result not stored. With an abandoned standby sweep its need of FAST_RC ends (R143). -/
def State.abandonSweep (s : State) : State :=
  (s.setSense { s.sense with periodTimer := false, owed := false, sweep := .none }).setClk { s.clk with needSense := false }

/-- R104: the period timer starts. -/
def State.startPeriod (s : State) : State := s.setSense { s.sense with periodTimer := true }

end Sys2Proof.Machine
end

