-- ==== Sys2Proof/Machine/Clock.lean ====
section
/-! DEFINITION. The clock part of the clock and power unit (7.1 to 7.4): oscillator starts, SWITCH CLOCK, the switch's stages and
ends, the clock monitor. -/

namespace Sys2Proof.Machine

open Sys2Proof

/-! ### Cells (R158) -/

/-- R158, 10.6: the CLOCK cell. -/
def State.clockCell (s : State) (tag : Byte) (r : Result) (origin : Origin) (code : ClockCode) (target : Option Source) :
    State :=
  s.handEvent .clock tag r
    [byte (originCode origin), byte (clockCodeCode code), optByte (target.map sourceCode), byte (sourceCode s.clk.core),
     byte (flag s.clk.failed 0)]

/-- R145, R146: a switch's end reports: the CLOCK cell, then for origin COMMAND the DONE. -/
def State.reportSwitch (s : State) (w : Switch) (r : Result) (code : ClockCode) : State :=
  let origin := w.origin.getD .boot
  let tag := if origin = .command then w.tag else 0
  let s := s.clockCell tag r origin code w.target
  if origin = .command then s.handDone w.tag 15 r [byte (clockCodeCode code), byte (sourceCode s.clk.core)] else s

/-! ### Stages of a switch (R141, R142, R144, R145) -/

/-- R145: a switch enters WAIT_QUIET and places the conversion hold. -/
def State.enterWaitQuiet (s : State) : State :=
  (s.setClk { s.clk with sw := { s.clk.sw with st := .waitQuiet } }).placeHold

/-- R141: a crystal start. -/
def State.crystalStart (s : State) : State :=
  s.setClk { s.clk with crystal := .starting, settle := 0, sw := { s.clk.sw with st := .starting } }

/-- R142: a PLL lock. -/
def State.pllStart (s : State) : State :=
  s.setClk { s.clk with pll := .locking, sw := { s.clk.sw with st := .locking } }

/-- R144: the stage that follows for a target whose crystal is RUNNING. -/
def State.crystalReady (s : State) (target : Source) : State :=
  match target with
  | .crystalX2 => s.pllStart
  | .crystal | .fastRc | .slowRc => s.enterWaitQuiet

/-- R144: a switch becomes pending in its first stage. -/
def State.beginSwitch (s : State) (target : Source) (origin : Origin) (tag : Byte := 0) : State :=
  let s := s.setClk { s.clk with sw := { st := .none, target := some target, origin := some origin, tag := tag } }
  if target.isCrystal then
    if s.clk.crystal = .running then s.crystalReady target else s.crystalStart
  else s.enterWaitQuiet

/-- R144: what refuses a SWITCH CLOCK, if anything, and its target. -/
def State.checkSwitch (s : State) (target : Byte) : Except Result Source :=
  if s.clk.power ≠ .run ∧ s.clk.power ≠ .slow then .error .busy
  else
    match sourceOf target.toNat with
    | none => .error .badArg
    | some t =>
      if ¬s.cfg.fitted t then .error .badArg
      else if s.clk.sw.st ≠ .none then .error .busy
      else .ok t

/-- SWITCH_CLOCK (R144): a target equal to the core source is DONE at once. -/
def execSwitchClock (tag target : Byte) (s : State) : Out :=
  match s.claimCommand (.switchClock tag target) with
  | none => .next s
  | some s =>
    match s.checkSwitch target with
    | .error r => .next (s.handDone tag 15 r)
    | .ok t =>
      if t = s.clk.core then
        .next (s.handDone tag 15 .done [byte (clockCodeCode .none), byte (sourceCode s.clk.core)])
      else .next (s.beginSwitch t .command tag)

/-! ### Ends of a switch (R145, R146) -/

/-- R145: the oscillators after a completed switch to a target; the settle counter of a stopped crystal is 0 (log entry 31). -/
def ClockPower.moveCore (x : ClockPower) (target : Source) : ClockPower :=
  match target with
  | .crystal => { x with core := .crystal, pll := .stopped, failed := false }
  | .crystalX2 => { x with core := .crystalX2, failed := false }
  | .fastRc | .slowRc => { x with core := target, crystal := .stopped, pll := .stopped, settle := 0 }

/-- SWITCH_COMPLETE (R145): in WAIT_QUIET, while quiet holds. -/
def execSwitchComplete (s : State) : Out :=
  match s.clk.sw.st, s.clk.sw.target with
  | .waitQuiet, some t =>
    if s.quiet then
      let w := s.clk.sw
      let s := (s.setClk { s.clk.moveCore t with sw := {} }).liftHold
      .next (s.reportSwitch w .done .none)
    else .next s
  | .waitQuiet, none | .none, _ | .starting, _ | .locking, _ => .next s

/-- R146: the oscillators a failed switch leaves: what the core does not need is stopped (settle counter: log entry 31). -/
def ClockPower.stopUnneeded (x : ClockPower) : ClockPower :=
  match x.core with
  | .crystalX2 => x
  | .crystal => { x with pll := .stopped }
  | .fastRc | .slowRc => { x with pll := .stopped, crystal := .stopped, settle := 0 }

/-- R146, R147: a pending switch fails; a boot switch that fails sets CLOCK_FAILED. -/
def State.switchFail (s : State) (code : ClockCode) : State :=
  let w := s.clk.sw
  let x := s.clk.stopUnneeded
  let s := (s.setClk { x with sw := {}, failed := x.failed || w.origin == some .boot }).liftHold
  s.reportSwitch w .failed code

/-- SETTLE_COUNT_REACHED (R141, R144): the crystal is RUNNING and the switch moves on. -/
def execSettleCountReached (s : State) : Out :=
  match s.clk.crystal, s.clk.sw.target with
  | .starting, some t =>
    .next ((s.setClk { s.clk with crystal := .running, settle := Config.settleCycles }).crystalReady t)
  | .starting, none | .stopped, _ | .running, _ => .next s

/-- START_WINDOW_EXPIRY (R141): the crystal start fails. -/
def execStartWindowExpiry (s : State) : Out :=
  if s.clk.crystal = .starting then
    .next ((s.setClk { s.clk with crystal := .stopped, settle := 0 }).switchFail .crystalNoStart)
  else .next s

/-- PLL_LOCK (R142, R144): the PLL is LOCKED and the switch moves to WAIT_QUIET. -/
def execPllLock (s : State) : Out :=
  if s.clk.pll = .locking then .next (s.setClk { s.clk with pll := .locked }).enterWaitQuiet else .next s

/-- LOCK_WINDOW_EXPIRY (R142): the lock fails. -/
def execLockWindowExpiry (s : State) : Out :=
  if s.clk.pll = .locking then .next ((s.setClk { s.clk with pll := .stopped }).switchFail .pllNoLock) else .next s

/-! ### The clock monitor (R148, R149) -/

/-- R149: a clock failure (settle counter: log entry 31; no target in its CLOCK cell: log entry 32). -/
def State.clockFailure (s : State) : State :=
  let pending := s.clk.sw.st != .none
  let s := s.setClk { s.clk with core := .fastRc, crystal := .stopped, pll := .stopped, settle := 0, failed := true }
  let s := if pending then s.switchFail .crystalLost else s
  let s := s.clockCell 0 .failed .monitor .crystalLost none
  s.emergencyStop .clock .clock .clock

/-- LOSS_WINDOW_EXPIRY (R148): with the core on the crystal a clock failure; in WAIT_QUIET the switch fails and no more. -/
def execLossWindowExpiry (s : State) : Out :=
  if s.monitorWatches then
    if s.clk.core.isCrystal then .next s.clockFailure else .next (s.switchFail .crystalLost)
  else .next s

end Sys2Proof.Machine
end

