-- ==== Sys2Proof/Machine/Power.lean ====
section
/-! DEFINITION. The power part of the clock and power unit (7.5, 7.6): SET POWER, wake causes, entry to STANDBY, its undoing, and
leaving. -/

namespace Sys2Proof.Machine

open Sys2Proof

/-! ### WAKE cells (R158) -/

/-- R158, 10.6: the detail of byte 6 of a WAKE cell: list position, ring count or level; KEY and TIMER carry none (log entry 32). -/
def wakeDetail : WakeCause → Option Nat
  | .sense position _ => some position
  | .ring count => some count
  | .hook offHook => some (flag offHook 0)
  | .key | .timer => none

/-- R158, 10.6: the zone of byte 7 of a WAKE cell, which a SENSE cause alone carries (log entry 32). -/
def wakeZone : WakeCause → Option Nat
  | .sense _ zone => some (zoneCode zone)
  | .ring _ | .hook _ | .key | .timer => none

/-- R158, R193, 10.6: the WAKE cell; an absent byte field holds FF hex. -/
def State.wakeCell (s : State) (cause : WakeCause) (fromState : PowerState) (abandoned : Bool) : State :=
  s.handEvent .wake 0 .done
    [byte (wakeCauseCode cause), byte (powerCode fromState), byte (flag abandoned 0), optByte (wakeDetail cause),
     optByte (wakeZone cause)]

/-! ### Entry abandoned (R155) -/

/-- R98: the motors' standby release, asked at ENTERING. -/
def State.releaseMotors (s : State) : State :=
  (s.setDoc s.doc.releaseForStandby).setPaper s.paper.releaseForStandby

/-- R98: the release undone. -/
def State.undoRelease (s : State) : State := (s.setDoc s.doc.undoRelease).setPaper s.paper.undoRelease

/-- R155: the second and third parts: HOST_CLK starts, the release is undone, RUN with ratio 1, the period timer restarts, the WAKE
cell; the snapshot of the return to RUN (R188). The snap-back flag stays as it was (log entry 33). -/
def State.finishAbandon (s : State) : State :=
  match s.clk.wakeLatch with
  | none => s
  | some w =>
    let s := s.setClk { s.clk with
      hostClk := true, power := .run, ratio := 1, wakeLatch := none, entrySent := false, doneWritten := false }
    let s := s.undoRelease.startPeriod
    (s.wakeCell w.cause .entering true).snapshotDue

/-- R155: the first part: a sent entry request is withdrawn, or an exit request follows a reported SELF_REFRESH. -/
def State.abandonEntry (s : State) : State :=
  if s.clk.entrySent then
    match s.pmc.st with
    | .srEntry => s.memoryWithdraw.finishAbandon
    | .selfRefresh => s.memoryExit
    | .running | .down | .starting | .srExit => s
  else s.finishAbandon

/-! ### Leaving STANDBY (R156) -/

/-- R156, step 2: FAST_RC is RUNNING: the core moves to it and the exit request goes to the memory controller. -/
def State.leaveOnFastRc (s : State) : State :=
  (s.setClk { s.clk with core := .fastRc, needLeave := false }).memoryExit

/-- R156, step 1: leaving begins. -/
def State.beginLeaving (s : State) : State :=
  let s := s.setSense { s.sense with standbyTimer := false }
  let s := s.setClk { s.clk with power := .leaving, wakeTimer := false, needLeave := true }
  match s.clk.fastRc with
  | .running => s.leaveOnFastRc
  | .starting => s
  | .stopped => s.setClk { s.clk with fastRc := .starting }

/-- R156, steps 3 and 4: memory is RUNNING: HOST_CLK, RUN, the WAKE cell, the period timer, and a switch back to a crystal
source; the source before standby becomes absent in every case (log entry 30) and the snap-back flag stays as it was (log entry
33). -/
def State.finishLeaving (s : State) : State :=
  match s.clk.wakeLatch with
  | none => s
  | some w =>
    let before := s.clk.sourceBefore
    let s := s.setClk { s.clk with
      hostClk := true, power := .run, ratio := 1, wakeLatch := none, sourceBefore := none, entrySent := false
      doneWritten := false }
    let s := (s.wakeCell w.cause .standby false).startPeriod
    let s := match before with
      | some t => if t.isCrystal then s.beginSwitch t .wake else s
      | none => s
    s.snapshotDue

/-! ### Wake causes (R153) -/

/-- R153: a wake cause acts by the power state. The snap-back flag stays as it was where the state becomes RUN (log entry 33). -/
def State.wake (s : State) (cause : WakeCause) : State :=
  match s.clk.power with
  | .run | .leaving => s
  | .slow =>
    if s.clk.snapBack then (s.setClk { s.clk with power := .run, ratio := 1 }).wakeCell cause .slow false else s
  | .entering =>
    match s.clk.wakeLatch with
    | some _ => s
    | none => (s.setClk { s.clk with wakeLatch := some ⟨cause, true⟩ }).abandonEntry
  | .standby => (s.setClk { s.clk with wakeLatch := some ⟨cause, false⟩ }).beginLeaving

/-- WAKE_TIMER_EXPIRY (R154): the wake cause TIMER. -/
def execWakeTimerExpiry (s : State) : Out :=
  if s.clk.power = .standby ∧ s.clk.wakeTimer then .next ((s.setClk { s.clk with wakeTimer := false }).wake .timer)
  else .next s

/-! ### SET POWER (R152) -/

/-- R152: the largest power of two at or below a ratio of 1 to 128. -/
def powerOfTwo (n : Nat) : Nat :=
  if 128 ≤ n then 128 else if 64 ≤ n then 64 else if 32 ≤ n then 32 else if 16 ≤ n then 16
  else if 8 ≤ n then 8 else if 4 ≤ n then 4 else if 2 ≤ n then 2 else 1

/-- R152: what keeps STANDBY from being entered. -/
def State.standbyBusy (s : State) : Bool :=
  s.scan.active || s.print.active || s.link.st != .off || s.doc.moving || s.paper.moving || s.cells.loader != .idle
    || s.clk.sw.st != .none

/-- R152: a SET POWER's DONE, a refused one too, with the state and ratio in force (log entry 27). -/
def State.donePower (s : State) (tag : Byte) (r : Result := .done) (mark : CellMark := .plain) : State :=
  s.handDone tag 14 r [byte (powerCode s.clk.power), byte s.clk.ratio] mark

/-- R154, step 1: entry begins. -/
def State.beginEntry (s : State) (tag : Byte) (wakeTimer : Nat) : State :=
  let s := s.setClk { s.clk with wakeSetting := wakeTimer }
  let s := s.donePower tag .done .standby
  (s.setClk { s.clk with power := .entering, doneWritten := false, entrySent := false }).releaseMotors.abandonSweep

/-- SET_POWER (R152). -/
def execSetPower (tag target : Byte) (snapBack : Bool) (ratio wakeTimer : Half) (s : State) : Out :=
  match s.claimCommand (.setPower tag target snapBack ratio wakeTimer) with
  | none => .next s
  | some s =>
    if s.clk.power = .entering ∨ s.clk.power = .leaving then .next (s.donePower tag .busy)
    else
      match target.toNat with
      | 0 => .next ((s.setClk { s.clk with power := .run, ratio := 1, snapBack := false }).donePower tag)
      | 1 =>
        .next ((s.setClk { s.clk with
          power := .slow, ratio := powerOfTwo ratio.toNat, snapBack := snapBack }).donePower tag)
      | 2 => if s.standbyBusy then .next (s.donePower tag .busy) else .next (s.beginEntry tag wakeTimer.toNat)
      | _ => .next (s.donePower tag .badArg)

/-! ### Entry to STANDBY (R154) -/

/-- HOST_CLOCK_STOP (R154, step 2): the SET POWER's DONE is written and no host request is outstanding. -/
def execHostClockStop (s : State) : Out :=
  let x := s.clk
  if x.power = .entering ∧ x.doneWritten ∧ ¬x.entrySent ∧ x.wakeLatch = none ∧ ¬s.pmc.hostOutstanding then
    .next (s.setClk { x with hostClk := false, entrySent := true }).memoryEntry
  else .next s

/-- R154, R98: a channel's standby mark returns to no. -/
def Channel.clearMark (c : Channel) : Channel := { c with released := false }

/-- STANDBY_ENTRY (R154, step 3): memory is in self-refresh and no conversion runs (settle counter: log entry 31). -/
def execStandbyEntry (s : State) : Out :=
  let x := s.clk
  if x.power = .entering ∧ x.entrySent ∧ x.wakeLatch = none ∧ s.pmc.st = .selfRefresh ∧ ¬s.sense.converting then
    let s := s.setClk { x with
      power := .standby, sourceBefore := some x.core, core := .slowRc, fastRc := .stopped, crystal := .stopped
      pll := .stopped, settle := 0, wakeTimer := x.wakeSetting != 0 }
    let s := s.setSense { s.sense with standbyTimer := s.sense.standby != 0 }
    .next ((s.setDoc s.doc.clearMark).setPaper s.paper.clearMark)
  else .next s

end Sys2Proof.Machine
end

