-- ==== Sys2Proof/Machine/Tables.lean ====
section
/-! DEFINITION. The table store as boot and the loader share it (R168, R189, R190): installing a table as a whole, the in-use
condition, the chunks a long source or image is transferred in. -/

namespace Sys2Proof.Machine

open Sys2Proof

/-- R168, R190: a checked table is installed as a whole; a sense table becomes the pending list. -/
def State.installTable (s : State) : TableData → State
  | .shading t => s.setTables { s.tables with shading := t }
  | .tone t => s.setTables { s.tables with tone := t }
  | .heat t => s.setTables { s.tables with heat := some t }
  | .sense t => s.setSense { s.sense with pendingList := some t }
  | .profile n t => s.setTables { s.tables with profiles := s.tables.profiles.set n.val t }

/-- R168: the load area holds the first 2048 halfwords of a source. -/
def State.fillLoadArea (s : State) (d : List Half) : State :=
  s.setTables { s.tables with loadArea := d.take Config.loadAreaLength }

/-- R189: a table is in use: SHADING and TONE while a scan stream is active, a profile while a channel moves with it. -/
def State.tableInUse (s : State) : TableId → Bool
  | .shading | .tone => s.scan.active
  | .heat | .sense => false
  | .profile n => (s.doc.moving && s.doc.profile == n) || (s.paper.moving && s.paper.profile == n)

/-- R119: how many transfers of at most 2048 halfwords a length takes. -/
def chunksOf (len : Nat) : Nat := (len + Config.transferLength - 1) / Config.transferLength

end Sys2Proof.Machine
end

