-- ==== Sys2Proof/Machine/Boot.lean ====
section
/-! DEFINITION. The boot controller (chapter 8): cold starts, the serial ROM and its records, memory bring-up, release, the FAULT
output; and the end of a refresh burst, which boot and the clock and power unit wait for (R132). -/

namespace Sys2Proof.Machine

open Sys2Proof

/-! ### Cold start (R159, R160) -/

/-- R122, R174: what a cold start leaves in memory: a write burst in progress may leave its halfwords partly written, so each of its
bytes is a free value (log entry 2). -/
def State.cutMemory (s : State) : List Host.Cell :=
  match s.pmc.act with
  | .access b _ =>
    match b.dir with
    | .write => cutBytes s.mem s.freeCount (2 * b.half) (2 * b.len)
    | .read => s.mem
  | .free | .refresh => s.mem

/-- R160: RESET is left for ROM_READ where RESET_N is high and the supply is good. -/
def State.leaveReset (s : State) : State :=
  if s.boot.st = .reset ∧ s.pins.resetHigh ∧ s.pins.supplyGood then
    s.setBoot { s.boot with st := .romRead, rebootAcked := false }
  else s

/-- R114: the input levels are the pins' and stay. -/
def LineInputs.levelsOnly (x : LineInputs) : LineInputs :=
  { hook := { level := x.hook.level }, key := { level := x.key.level } }

/-- R159: RESET_N goes low while the DONE of a REBOOT is performed in memory and not yet acknowledged (log entry 28). -/
def State.rebootOut (s : State) (cause : ColdCause) : Bool :=
  cause == .resetPin && (s.cells.putWrites.take (s.pmc.countDone .respPut)).contains .reboot

/-- R159: a cold start: every block in its state after a cold start; memory, pins and the waiting commands stay. -/
def State.coldStart (s : State) (cause : ColdCause) : State :=
  ({ State.reset with
      pending := s.pending, mem := s.cutMemory, pins := s.pins, lines := s.lines.levelsOnly
      boot := { cause := cause, rebootAcked := s.rebootOut cause }, freeCount := s.freeCount + 1 } : State).leaveReset

/-- POWER_ON_DETECT (R159). -/
def execPowerOnDetect (s : State) : Out := .next ((s.setPins { s.pins with supplyGood := true }).coldStart .powerOn)

/-- RESET_PIN_LOW (R159): RESET_N goes low. -/
def execResetPinLow (s : State) : Out :=
  if s.pins.resetHigh then .next ((s.setPins { s.pins with resetHigh := false }).coldStart .resetPin) else .next s

/-- RESET_PIN_HIGH (R160). -/
def execResetPinHigh (s : State) : Out := .next (s.setPins { s.pins with resetHigh := true }).leaveReset

/-! ### Failure and the FAULT output (R172) -/

/-- R172: the boot fails with a code: FAILED, the first pulse begins, the ROM reader stops: the transaction still open ends here
(R161, log entry 36). -/
def State.bootFail (s : State) (code : Nat) : State :=
  s.setBoot { s.boot with
    st := .failed, code := code, fault := true, pulse := 1, faultMs := 200, header := none, spiNext := none }

/-- FAULT_PULSE_TIMER_EXPIRY (R172): 200 ms pulses 200 ms apart, 1 s between groups. -/
def execFaultPulseTimerExpiry (s : State) : Out :=
  let x := s.boot
  if x.st = .failed then
    if x.fault then .next (s.setBoot { x with fault := false, faultMs := if x.pulse < x.code then 200 else 1000 })
    else .next (s.setBoot { x with fault := true, faultMs := 200, pulse := if x.pulse < x.code then x.pulse + 1 else 1 })
  else .next s

/-! ### The serial ROM (R161, R162) -/

/-- R161: the bytes that open a transaction at an address: the instruction, then the address, most significant first. -/
def spiCommand (address : Nat) : List Byte :=
  [Config.romReadInstruction, byte (address / 65536), byte (address / 256), byte address]

/-- R161: `n` bytes are read from an address: the open transaction goes on where the address is its next, else it ends and a new one
opens; no other event ends it before READY and FAILED (log entry 36). -/
def State.spiRead (s : State) (address n : Nat) : State :=
  let x := s.boot
  s.setBoot { x with
    spiNext := some (address + n), spiSent := if x.spiNext = some address then x.spiSent else spiCommand address }

/-- ROM_HEADER_READ (R161, R162): the bytes of the two halfwords from address 0, the marker and the record count. -/
def execRomHeaderRead (marker count : List (Option Byte)) (s : State) : Out :=
  if s.boot.st = .romRead then
    let s := s.spiRead 0 4
    let marker := romHalf marker
    let count := romHalf count
    if marker = Config.romMarker ∧ 1 ≤ count.toNat ∧ count.toNat ≤ 16 then
      .next (s.setBoot { s.boot with st := .config, recordCount := count.toNat, position := 1, romAddr := 4 })
    else .next (s.bootFail 1)
  else .next s

/-! ### Release (R170) -/

/-- R112, R114, R104: the sense unit begins watching RING, HOOK and KEY, and starts its period timer. -/
def State.beginWatching (s : State) : State :=
  let x := s.lines
  (s.setLines { x with
    watching := true, hook := { x.hook with stable := x.hook.level }, key := { x.key with stable := x.key.level } }
    ).startPeriod

/-- R170, R188: the control block is initialised: the indices, summary and dropped count 0, and the first snapshot, with sequence 0,
whose boot state reads READY (R171). -/
def State.enterRelease (s : State) : State :=
  let s := (s.setBoot { s.boot with st := .release }).beginWatching
  let s := s.issueWrite .table .word s.cfg.cbAddr (List.replicate 6 0)
  let s := s.issueWrite .table .word (s.cfg.cbAddr + 0x10) (List.replicate 8 0)
  s.issueWrite .table .bootInit (s.cfg.cbAddr + 0x20) (s.snapshotHalves 0 .ready)

/-- RELEASE_WRITES_ACKNOWLEDGED (R170). The ROM reader is idle in READY (R161): the transaction still open ends here (log entry
36). -/
def execReleaseWritesAcknowledged (s : State) : Out :=
  if s.boot.st = .release ∧ s.pmc.hasDone .bootInit then
    let s := s.takeOne .bootInit
    let s := s.setCells { s.cells with taking := .taking }
    .next (s.setBoot { s.boot with st := .ready, hostReset := false, spiNext := none })
  else .next s

/-! ### The record walks (R167, R169) -/

/-- R162: the address of record 2: after the ROM header, record 1's header and its 17 halfwords. -/
def secondRecord : Nat := 4 + 12 + 34

/-- R169: the second walk ends. -/
def State.endImageWalk (s : State) : State := if s.boot.images = 0 then s.bootFail 4 else s.enterRelease

/-- R167, R169: a walk of the record list ends: the first leads to HOST_IMAGE, whose walk begins at record 2, a record count of 1
ending it at once there too (log entry 35). -/
def State.endWalk (s : State) : State :=
  match s.boot.st with
  | .tables =>
    let s := s.setBoot { s.boot with st := .hostImage, position := 2, romAddr := secondRecord, header := none }
    if s.boot.recordCount < 2 then s.endImageWalk else s
  | .hostImage => s.endImageWalk
  | .reset | .romRead | .config | .memoryUp | .release | .ready | .failed => s

/-- R162: the walk goes on after a record of `len` halfwords, or ends with the last record of the count, the position staying at
it (R159: 0 to 16, log entry 29). -/
def State.nextRecord (s : State) (len : Nat) : State :=
  let x := s.boot
  if x.recordCount ≤ x.position then (s.setBoot { x with header := none }).endWalk
  else s.setBoot { x with position := x.position + 1, romAddr := x.romAddr + 12 + 2 * len, header := none }

/-- R166, R167: the memory controller reports RUNNING: the first walk begins at record 2; with a record count of 1 it ends at once,
the position at 2 (log entry 35). -/
def State.enterTables (s : State) : State :=
  let s := s.setBoot { s.boot with st := .tables, position := 2, romAddr := secondRecord }
  if s.boot.recordCount < 2 then s.endWalk else s

/-- R168: a table's TABLE_DEFAULTED flag. -/
def setDefaulted (f : BitVec 16) (id : TableId) (on : Bool) : BitVec 16 :=
  let m : BitVec 16 := 1 <<< tableIdCode id
  if on then f ||| m else f &&& ~~~m

/-- R168: a bad TABLE record sets the flag of its table, or of no table. -/
def State.badTable (s : State) (table : Nat) : State :=
  match tableIdOf table with
  | some id => s.setBoot { s.boot with defaulted := setDefaulted s.boot.defaulted id true }
  | none => s

/-- R169: what makes an image record bad before its data is read. -/
def imageBad (c : BoardConfig) (len destination : Nat) : Bool :=
  len == 0 || decide (Config.maxRecordLength < len) || destination % 2 == 1
    || decide (Config.imageLimit < destination + 2 * len) || decide (c.memSize < destination + 2 * len)
    || c.overlapsControl destination (2 * len)

/-- R119, R169: an image's halfwords written in transfers of at most 2048, the last one asking for the acknowledgement. -/
def State.writeImage (s : State) (destination : Nat) (data : List Half) : Nat → State
  | 0 => s
  | n + 1 =>
    let rest := data.drop Config.transferLength
    let req := if rest = [] then Req.bootImage else Req.word
    (s.issueWrite .table req destination (data.take Config.transferLength)).writeImage
      (destination + 2 * Config.transferLength) rest n

/-- R164: in CONFIG a record must be of type CONFIG and of its length. -/
def State.configHeader (s : State) (h : RecordHeader) : State :=
  if h.kind = .config ∧ h.length = 17 then s.setBoot { s.boot with header := some h } else s.bootFail 2

/-- R167, R168: in TABLES a record is acted on by its type; a TABLE record's data is read whatever its length, 0 giving none. -/
def State.tablesHeader (s : State) (h : RecordHeader) : State :=
  match h.kind with
  | .config => s.bootFail 2
  | .endRecord => s.endWalk
  | .hostImage => s.nextRecord h.length
  | .table =>
    if h.length = 0 then (s.badTable h.table).nextRecord h.length
    else s.setBoot { s.boot with header := some h }

/-- R169: in HOST_IMAGE image records alone are acted on: the destination and length are checked first, then the data is
written. `image` is the data of a record about to be copied, as the ROM drives it. -/
def State.imageHeader (s : State) (h : RecordHeader) (image : List (Option Byte)) : State :=
  match h.kind with
  | .endRecord => s.endWalk
  | .config | .table => s.nextRecord h.length
  | .hostImage =>
    if imageBad s.cfg h.length h.destination then s.bootFail 4
    else
      let s := s.spiRead (s.boot.romAddr + 12) (2 * h.length)
      let halves := romHalves h.length image
      let s := s.setBoot { s.boot with header := some h, imageSum := checkSum halves }
      s.writeImage h.destination halves (chunksOf h.length)

/-- R162: the record's header, or its header and data, would pass the end of the ROM. -/
def recordPastEnd (address : Nat) (kind : RecordType) (len : Nat) : Bool :=
  decide (Config.romEnd < address + 12) || (kind != .endRecord && decide (Config.romEnd < address + 12 + 2 * len))

/-- 10.8: a record header from its twelve bytes, field by field; a type code above 3 is no record's. -/
def romRecordHeader (typeAndTable length destination check : List (Option Byte)) : Option RecordHeader :=
  (recordTypeOf (lowByte (romHalf typeAndTable)).toNat).map fun kind =>
    { kind := kind, table := (highByte (romHalf typeAndTable)).toNat, length := (romWord length).toNat
      destination := (romWord destination).toNat, check := romHalf check }

/-- RECORD_HEADER_READ (R161, R162, R164, R167, R169): the twelve bytes of a record header, and the data bytes of an image record
about to be copied. -/
def execRecordHeaderRead (typeAndTable length destination check image : List (Option Byte)) (s : State) : Out :=
  let x := s.boot
  if (x.st = .config ∨ x.st = .tables ∨ x.st = .hostImage) ∧ x.header = none then
    let t := s.spiRead x.romAddr 12
    match romRecordHeader typeAndTable length destination check with
    | none => .next (t.bootFail 3)
    | some h =>
      if recordPastEnd x.romAddr h.kind h.length then .next (t.bootFail 3)
      else
        match x.st with
        | .config => .next (t.configHeader h)
        | .tables => .next (t.tablesHeader h)
        | .reset | .romRead | .memoryUp | .hostImage | .release | .ready | .failed => .next (t.imageHeader h image)
  else .next s

/-! ### The records' data (R163, R165, R168, R169) -/

/-- R165: a good configuration record is applied, the boot switch begun where its initial source is a crystal, and MEMORY_UP
entered with the memory start request (R166). -/
def State.applyConfig (s : State) (c : BoardConfig) : State :=
  let s := s.setCfg c
  let s := s.setBoot { s.boot with st := .memoryUp, header := none }
  let s := if c.initial.isCrystal then s.beginSwitch c.initial .boot else s
  s.memoryStart

/-- CONFIG_RECORD_READ (R161, R163 to R166). -/
def execConfigRecordRead (data : List (Option Byte)) (s : State) : Out :=
  match s.boot.st, s.boot.header with
  | .config, some h =>
    let halves := romHalves h.length data
    let s := s.spiRead (s.boot.romAddr + 12) (2 * h.length)
    match if checkSum halves = h.check then parseConfig halves else none with
    | some c => .next (s.applyConfig c)
    | none => .next (s.bootFail 2)
  | _, _ => .next s

/-- R168: a TABLE record's table, where the record is good. -/
def goodTable (h : RecordHeader) (data : List Half) : Option (TableId × TableData) :=
  match tableIdOf h.table with
  | none => none
  | some id =>
    if checkSum data = h.check ∧ data.length ≤ Config.loadAreaLength then (parseTable id data).map fun t => (id, t)
    else none

/-- TABLE_RECORD_READ (R161, R163, R168). -/
def execTableRecordRead (data : List (Option Byte)) (s : State) : Out :=
  match s.boot.st, s.boot.header with
  | .tables, some h =>
    let halves := romHalves h.length data
    let s := (s.spiRead (s.boot.romAddr + 12) (2 * h.length)).fillLoadArea halves
    match goodTable h halves with
    | some (id, t) =>
      let s := s.installTable t
      .next ((s.setBoot { s.boot with defaulted := setDefaulted s.boot.defaulted id false }).nextRecord h.length)
    | none => .next ((s.badTable h.table).nextRecord h.length)
  | _, _ => .next s

/-- IMAGE_WRITES_ACKNOWLEDGED (R169). -/
def execImageWritesAcknowledged (s : State) : Out :=
  match s.boot.st, s.boot.header with
  | .hostImage, some h =>
    if s.pmc.hasDone .bootImage then
      let s := s.takeOne .bootImage
      if s.boot.imageSum = h.check then
        .next ((s.setBoot { s.boot with images := s.boot.images + 1 }).nextRecord h.length)
      else .next (s.bootFail 4)
    else .next s
  | _, _ => .next s

/-! ### The end of a refresh burst (R132, R166, R155, R156) -/

/-- R132: the clock and power unit is told that memory is RUNNING. -/
def State.memoryBack (s : State) : State :=
  match s.clk.power with
  | .entering => s.finishAbandon
  | .leaving => s.finishLeaving
  | .run | .slow | .standby => s

/-- REFRESH_BURST_DONE (R132): burst remaining is 0: RUNNING, and the block that asked for the burst is told. -/
def execRefreshBurstDone (s : State) : Out :=
  if s.pmc.burstRem = 0 then
    match s.pmc.st with
    | .starting =>
      let s := s.setPmc { s.pmc with st := .running }
      .next (if s.boot.st = .memoryUp then s.enterTables else s)
    | .srExit => .next (s.setPmc { s.pmc with st := .running }).memoryBack
    | .down | .running | .srEntry | .selfRefresh => .next s
  else .next s

end Sys2Proof.Machine
end

