-- ==== Sys2Proof/Machine/CellUnit.lean ====
section
/-! DEFINITION. The cell unit (chapter 9): taking commands, the host's index writes, publishing responses, the summary, the
snapshot, the table loader, STOP ALL, REBOOT and unknown commands. -/

namespace Sys2Proof.Machine

open Sys2Proof

/-! ### Taking commands (R179) -/

/-- R179: a take may start; the commands taken before it have been judged (R180), and no burst of the cell unit waits outside
(R120). -/
def State.mayTake (s : State) : Bool :=
  s.cells.taking == .taking && s.cells.reading == none && decide (1 ≤ s.cmdOccupancy) && decide (1 ≤ s.respFree)
    && s.cells.handed == [] && !s.burstWaits .cell

/-- COMMAND_TAKE_START (R179): a response slot is reserved and the command cell is read. -/
def execCommandTakeStart (s : State) : Out :=
  if s.mayTake then
    let slot := s.cells.cmdTake % s.cfg.nc
    let s := s.setCells { s.cells with reserved := s.cells.reserved + 1, reading := some slot }
    .next (s.issueRead .cell .cmdRead (s.cmdSlot slot) 8)
  else .next s

/-! ### The host's index writes (R178, R186) -/

/-- The code of the command ring in a FAULT cell (10.2). -/
def commandRingCode : Nat := 0

/-- The code of the response ring in a FAULT cell (10.2). -/
def responseRingCode : Nat := 1

/-- R178, 10.6: the FAULT cell of reason CELL_INDEX. -/
def State.cellFault (s : State) (ring index written held : Nat) : State :=
  s.handEvent .fault 0 .done ([byte 1, byte ring, byte index] ++ twoBytes written ++ twoBytes held)

/-- R178: an index write is refused: no index, or its advance added to a base comes above the limit. -/
def cellIndexRefused (cells now written base limit : Nat) : Bool :=
  decide (2 * cells ≤ written) || decide (limit < base + (written + 2 * cells - now) % (2 * cells))

/-- COMMAND_PUT_WRITE (R178). -/
def execCommandPutWrite (value : Half) (s : State) : Out :=
  match s.claimArrival 0x00 value with
  | none => .next s
  | some s =>
    let p := s.cells.cmdPut
    if cellIndexRefused s.cfg.nc p value.toNat s.cmdOccupancy s.cfg.nc then
      .next (s.cellFault commandRingCode 0 value.toNat p)
    else .next (s.setCells { s.cells with cmdPut := value.toNat })

/-- RESPONSE_TAKE_WRITE (R178). -/
def execResponseTakeWrite (value : Half) (s : State) : Out :=
  match s.claimArrival 0x06 value with
  | none => .next s
  | some s =>
    let t := s.cells.respTake
    if cellIndexRefused s.cfg.nr t value.toNat 0 s.respOccupancy then
      .next (s.cellFault responseRingCode 1 value.toNat t)
    else .next (s.setCells { s.cells with respTake := value.toNat })

/-- SUMMARY_WORD_WRITE (R186): 0 clears the summary and the dropped count, and both words are written; any other value is written
back over. -/
def execSummaryWordWrite (value : Half) (s : State) : Out :=
  match s.claimArrival 0x08 value with
  | none => .next s
  | some s =>
    if value = 0 then .next (s.setCells { s.cells with summary := 0, dropped := 0 }).writeSummary
    else .next (s.writeWord .cell 0x08 s.cells.summary.toNat)

/-! ### Publishing responses (R182) -/

/-- RESPONSE_CELL_ACKNOWLEDGED (R182): response put advances and its word is written, once no word of the cell unit waits outside
(R120). -/
def execResponseCellAcknowledged (s : State) : Out :=
  match s.cells.writing with
  | w :: rest =>
    if s.pmc.hasDone .respCell ∧ s.wordWaits .cell = false then
      let s := s.takeOne .respCell
      let put := (s.cells.respPut + 1) % (2 * s.cfg.nr)
      let s := s.setCells { s.cells with writing := rest, respPut := put, putWrites := s.cells.putWrites ++ [w.mark] }
      .next (s.issueWrite .cell .respPut (s.cfg.cbAddr + 0x04) [BitVec.ofNat 16 put])
    else .next s
  | [] => .next s

/-- R154: the DONE of the SET POWER that began this entry is written: no later one is under way. -/
def State.standbyWritten (s : State) : State :=
  let later := s.cells.putWrites.contains .standby || s.cells.writing.any (fun w => w.mark == .standby)
  if s.clk.power = .entering ∧ ¬later then s.setClk { s.clk with doneWritten := true } else s

/-- R44: the PAGE_SCANNED cell of an ending scan stream is written. -/
def State.pageScannedWritten (s : State) : State :=
  if s.scan.st = .ending ∧ s.scan.endCell = .handed then
    (s.setScan { s.scan with endCell := .written }).scanTryOff
  else s

/-- RESPONSE_PUT_ACKNOWLEDGED (R182): the cell is written: what that means beside itself follows from its mark (R173, R154,
R44). After a cold start no write waits but a REBOOT's DONE performed before RESET_N went low: its acknowledgement makes the cold
start's cause REBOOT (R159, log entry 28). -/
def execResponsePutAcknowledged (s : State) : Out :=
  match s.cells.putWrites with
  | m :: rest =>
    if s.pmc.hasDone .respPut then
      let s := (s.takeOne .respPut).setCells { s.cells with putWrites := rest }
      match m with
      | .plain => .next s
      | .reboot => .next (s.coldStart .reboot)
      | .standby => .next s.standbyWritten
      | .pageScanned => .next s.pageScannedWritten
    else .next s
  | [] => if s.boot.rebootAcked then .next (s.coldStart .reboot) else .next s

/-! ### The snapshot (R188) -/

/-- SNAPSHOT_ACKNOWLEDGED (R188): an owed snapshot is written with the values now held, once no word of the cell unit waits outside
(R120). -/
def execSnapshotAcknowledged (s : State) : Out :=
  if s.cells.snapBusy ∧ s.pmc.hasDone .snapshot ∧ s.wordWaits .cell = false then
    let s := s.takeOne .snapshot
    let s := s.setCells { s.cells with snapBusy := false }
    if s.cells.snapOwed then .next s.writeSnapshot else .next s
  else .next s

/-! ### The table loader (R189, R190) -/

/-- R189: what refuses a LOAD TABLE, if anything, and its table. -/
def State.checkLoad (s : State) (table : Byte) (length source : Nat) : Except Result TableId :=
  if s.clk.power = .entering then .error .busy
  else
    match tableIdOf table.toNat with
    | none => .error .badArg
    | some id =>
      if ¬(1 ≤ length ∧ length ≤ 4096 ∧ source % 2 = 0 ∧ source + 2 * length ≤ s.cfg.memSize) then .error .badArg
      else if s.cells.loader ≠ .idle then .error .busy
      else if s.tableInUse id then .error .inUse
      else .ok id

/-- R119, R189: the source's reads, in transfers of at most 2048 halfwords. -/
def State.readSource (s : State) (source length : Nat) : Nat → State
  | 0 => s
  | n + 1 =>
    (s.issueRead .table .tableLoad source (min Config.transferLength length)).readSource
      (source + 2 * Config.transferLength) (length - Config.transferLength) n

/-- LOAD_TABLE (R189). -/
def execLoadTable (tag table : Byte) (length : Half) (source : Word) (s : State) : Out :=
  match s.claimCommand (.loadTable tag table length source) with
  | none => .next s
  | some s =>
    match s.checkLoad table length.toNat source.toNat with
    | .error r => .next (s.handDone tag 1 r)
    | .ok id =>
      let s := s.setCells { s.cells with loader := .loading tag id source.toNat length.toNat }
      .next (s.readSource source.toNat length.toNat (chunksOf length.toNat))

/-- R190: the source is checked, and the in-use condition again; the table is installed, or the result that refuses it. -/
def State.finishLoad (s : State) (id : TableId) (data : List Half) : Except Result State :=
  match if data.length ≤ Config.loadAreaLength then parseTable id data else none with
  | none => .error .badArg
  | some t => if s.tableInUse id then .error .inUse else .ok (s.installTable t)

/-- TABLE_LOAD_READS_COMPLETE (R190). -/
def execTableLoadReadsComplete (s : State) : Out :=
  match s.cells.loader with
  | .idle => .next s
  | .loading tag id _ length =>
    if length ≤ s.halfwordsRead then
      let data := s.pmc.dataOf .tableLoad
      let s := ((s.takeAll .tableLoad).setCells { s.cells with loader := .idle }).fillLoadArea data
      match s.finishLoad id data with
      | .error r => .next (s.handDone tag 1 r)
      | .ok s => .next (s.handDone tag 1 .done ([byte (tableIdCode id), 0] ++ twoBytes length))
    else .next s

/-! ### STOP ALL (R191, R192) -/

/-- R192: both streams and the link are OFF and both channels at rest. -/
def State.allStopped (s : State) : Bool :=
  !s.scan.active && !s.print.active && s.link.st == .off && s.doc.atRest && s.paper.atRest

/-- R192: STOP ALL completes: it leaves flight, a snapshot falls due, its DONE shows what it stopped. -/
def State.finishStopAll (s : State) (x : StopAll) : State :=
  let s := (s.setCells { s.cells with stopAll := none }).snapshotDue
  s.handDone x.tag 16 .done
    [byte (flag x.scan 0 + flag x.print 1 + flag x.link 2 + flag x.doc 3 + flag x.paper 4)]

/-- STOP_ALL (R191): it completes at once where all is at rest. -/
def execStopAll (tag : Byte) (s : State) : Out :=
  match s.claimCommand (.stopAll tag) with
  | none => .next s
  | some s =>
    if s.cells.stopAll.isSome then .next (s.handDone tag 16 .busy)
    else
      let x : StopAll := { tag := tag, scan := s.scan.active, print := s.print.active, link := s.link.st != .off
                           doc := s.doc.moving, paper := s.paper.moving }
      let s := s.setCells { s.cells with stopAll := some x }
      let s := (((s.stopBoth .stopped).scanCut .aborted).printCut .aborted).linkStopAll
      if s.allStopped then .next (s.finishStopAll x) else .next s

/-- STOP_ALL_COMPLETE (R192). -/
def execStopAllComplete (s : State) : Out :=
  match s.cells.stopAll with
  | some x => if s.allStopped then .next (s.finishStopAll x) else .next s
  | none => .next s

/-! ### REBOOT and unknown commands (R173, R180) -/

/-- REBOOT (R173): no further command is taken; the cold start follows the DONE's acknowledgement. -/
def execReboot (tag : Byte) (s : State) : Out :=
  match s.claimCommand (.reboot tag) with
  | none => .next s
  | some s =>
    if s.clk.power = .entering then .next (s.handDone tag 17 .busy)
    else
      let s := s.setCells { s.cells with taking := .stopped }
      .next (s.handDone tag 17 .done [] .reboot)

/-- UNKNOWN_COMMAND (R180). -/
def execUnknownCommand (tag code : Byte) (s : State) : Out :=
  match s.claimCommand (.unknownCommand tag code) with
  | none => .next s
  | some s => .next (s.handDone tag code.toNat .unknown)

end Sys2Proof.Machine
end

