-- ==== Sys2Proof/Machine/Lines.lean ====
section
/-! DEFINITION. The line inputs (5.4, 5.5): the ring qualifier, the silence timer and the HOOK and KEY debouncers. -/

namespace Sys2Proof.Machine

open Sys2Proof

/-! ### The ring qualifier (R112, R113) -/

/-- R107: a cell of the line inputs, which in STANDBY is not handed. -/
def State.lineCell (s : State) (k : Kind) (fields : List Byte) : State :=
  if s.clk.power = .standby then s else s.handEvent k 0 .done fields

/-- R112, R113: a burst qualifies. -/
def State.burstQualifies (s : State) : State :=
  let x := s.lines
  let count := satAdd 255 x.ringCount 1
  let s := s.setLines { x with
    qual := .qualified, edgeGapTimer := false, burstEndTimer := true, silenceTimer := false, ringCount := count }
  (s.lineCell .ring [byte count]).wake (.ring count)

/-- RING_EDGE (R112), watched from RELEASE on. -/
def execRingEdge (s : State) : Out :=
  let x := s.lines
  if x.watching then
    match x.qual with
    | .idle => .next (s.setLines { x with qual := .counting, edges := 1, edgeGapTimer := true })
    | .counting =>
      let x := { x with edges := satAdd 15 x.edges 1 }
      if s.cfg.ringQ ≤ x.edges then .next (s.setLines x).burstQualifies
      else .next (s.setLines { x with edgeGapTimer := true })
    | .qualified => .next (s.setLines { x with burstEndTimer := true })
  else .next s

/-- EDGE_GAP_EXPIRY (R112). -/
def execEdgeGapExpiry (s : State) : Out :=
  let x := s.lines
  if x.qual = .counting ∧ x.edgeGapTimer then
    .next (s.setLines { x with qual := .idle, edges := 0, edgeGapTimer := false })
  else .next s

/-- BURST_END_EXPIRY (R112, R113). -/
def execBurstEndExpiry (s : State) : Out :=
  let x := s.lines
  if x.qual = .qualified ∧ x.burstEndTimer then
    .next (s.setLines { x with qual := .idle, edges := 0, burstEndTimer := false, silenceTimer := true })
  else .next s

/-- SILENCE_TIMER_EXPIRY (R113). -/
def execSilenceTimerExpiry (s : State) : Out :=
  let x := s.lines
  if x.silenceTimer then .next (s.setLines { x with ringCount := 0, silenceTimer := false }) else .next s

/-! ### HOOK and KEY (R114 to R116) -/

def LineInputs.debouncer (x : LineInputs) : InputLine → Debouncer
  | .hook => x.hook
  | .key => x.key

def LineInputs.setDebouncer (x : LineInputs) (i : InputLine) (d : Debouncer) : LineInputs :=
  match i with
  | .hook => { x with hook := d }
  | .key => { x with key := d }

/-- INPUT_LEVEL_CHANGE (R114): watched from RELEASE on; before, the level alone follows the pin. -/
def execInputLevelChange (input : InputLine) (high : Bool) (s : State) : Out :=
  let d := s.lines.debouncer input
  if d.level = high then .next s
  else
    let d := { d with level := high, timer := if s.lines.watching then high != d.stable else d.timer }
    .next (s.setLines (s.lines.setDebouncer input d))

/-- R115, R116: a debounced change. -/
def State.debouncedChange (s : State) (input : InputLine) (high : Bool) : State :=
  match input with
  | .key => if high then (s.lineCell .input [byte (inputCode .key), byte (flag high 0)]).wake .key else s
  | .hook =>
    let s := s.setLines { s.lines with ringCount := 0, silenceTimer := false }
    (s.lineCell .input [byte (inputCode .hook), byte (flag high 0)]).wake (.hook high)

/-- DEBOUNCE_EXPIRY (R114). -/
def execDebounceExpiry (input : InputLine) (s : State) : Out :=
  let d := s.lines.debouncer input
  if d.timer then
    let s := s.setLines (s.lines.setDebouncer input { d with stable := d.level, timer := false })
    .next (s.debouncedChange input d.level)
  else .next s

end Sys2Proof.Machine
end

