-- ==== Sys2Proof/Machine/RingEvents.lean ====
section
/-! DEFINITION. The ring manager's events: a slot's writes acknowledged (R10), a page end's tag acknowledged (R11), the host's take
writes (R7), and host writes with no effect (R5, R177). -/

namespace Sys2Proof.Machine

open Sys2Proof

/-- R11: the producer is told that its page end is complete. -/
def State.pageEndComplete (s : State) (d : RingDesc) : State :=
  match d.producer with
  | .scan => s.scanPageEndComplete
  | .link => s.linkPageEndComplete
  | .print | .host => s

/-- R31, R22: the producer is told that its slot is acknowledged: the staging buffer in WRITING becomes FREE; an abandoned claim
tells no one (R23). -/
def State.slotAcknowledged (s : State) (d : RingDesc) (c : Claim) : State :=
  match d.producer, c.abandoned, c.buf with
  | .scan, false, some i => if (s.scan.buf i).st = .writing then s.setScan (s.scan.setBuf i {}) else s
  | .link, false, _ => s.linkSlotAcknowledged
  | .scan, false, none | .scan, true, _ | .link, true, _ | .print, _, _ | .host, _, _ => s

/-- R11: a page-end request that was waiting acts, or is complete, once the writing list is empty. -/
def State.waitingPageEnd (s : State) (r : RingId) (d : RingDesc) : State :=
  if (s.ring r).pageEnd.isSome then
    let s := s.beginPageEnd r d
    if (s.ring r).pageEnd.isSome then s else s.pageEndComplete d
  else s

/-- SLOT_WRITES_ACKNOWLEDGED (R10), once no word of the producer's class waits outside (R120). -/
def execSlotWritesAcknowledged (r : RingId) (s : State) : Out :=
  match (s.ring r).desc, (s.ring r).writing with
  | some d, c :: rest =>
    if s.pmc.hasDone (.slotTag r) ∧ s.wordWaits (sideClass d.producer) = false then
      let s := s.takeOne (.slotTag r)
      .next (((s.acknowledgeSlot r d c rest).slotAcknowledged d c).waitingPageEnd r d)
    else .next s
  | _, _ => .next s

/-- PAGE_END_TAG_ACKNOWLEDGED (R11), once no word of the producer's class waits outside (R120). -/
def execPageEndTagAcknowledged (r : RingId) (s : State) : Out :=
  match (s.ring r).desc, (s.ring r).pageEnd with
  | some d, some p =>
    if p.rewriting ∧ s.pmc.hasDone (.pageEndTag r) ∧ s.wordWaits (sideClass d.producer) = false then
      let s := s.takeOne (.pageEndTag r)
      .next ((s.finishPageEnd r d).pageEndComplete d)
    else .next s
  | _, _ => .next s

/-- LINE_RING_TAKE_WRITE (R5, R7, R8): a take of a ring that is UNDEFINED or whose consumer is no host has no effect. -/
def execLineRingTakeWrite (r : RingId) (value : Half) (s : State) : Out :=
  match s.claimArrival (takeOffset r) value with
  | none => .next s
  | some s =>
    match (s.ring r).desc with
    | none => .next s
    | some d =>
      if d.consumer ≠ .host then .next s
      else if takeRefused (s.ring r) d value.toNat then .next (s.ringFault r takeIndexCode value.toNat (s.ring r).take)
      else
        let moved := value.toNat ≠ (s.ring r).take
        let s := s.setRing r { s.ring r with take := value.toNat }
        if moved then .next (s.scanFreed r) else .next s

/-- R5: the word of an index that the host owns now. -/
def State.hostOwnedIndex (s : State) (r : RingId) (offset : Nat) : Bool :=
  match (s.ring r).desc with
  | some d => (d.producer == .host && offset == putOffset r) || (d.consumer == .host && offset == takeOffset r)
  | none => false

/-- R177, R186, R5: a word of the control block whose writes the part acts on: command put, response take, summary, and the
host-owned indices of the line rings. -/
def State.actedOn (s : State) (offset : Nat) : Bool :=
  offset == 0x00 || offset == 0x06 || offset == 0x08 || s.hostOwnedIndex 0 offset || s.hostOwnedIndex 1 offset
    || s.hostOwnedIndex 2 offset || s.hostOwnedIndex 3 offset

/-- CONTROL_BLOCK_WRITE (R177, R5): an arrival on any other halfword is taken and has no effect. -/
def execControlBlockWrite (offset : Byte) (value : Half) (s : State) : Out :=
  if s.actedOn offset.toNat then .next s
  else
    match s.claimArrival offset.toNat value with
    | none => .next s
    | some s => .next s

end Sys2Proof.Machine
end

