-- ==== Sys2Proof/Machine/Sense.lean ====
section
/-! DEFINITION. The sense unit's events (5.2, 5.3): the period, conversions and zones, the handing of zone changes, the standby
sweep. -/

namespace Sys2Proof.Machine

open Sys2Proof

/-! ### Zones (R103, R105) -/

/-- R103: a raw value under an entry's gain. -/
def gainReading (gain raw : Nat) : Nat := min 255 (raw * gain)

/-- R105: a zone with no hysteresis. -/
def plainZone (low high r : Nat) : Zone := if r < low then .low else if high < r then .high else .mid

/-- R105: the new zone of an entry from its present zone and its new reading. -/
def SenseEntry.nextZone (e : SenseEntry) (now : Zone) (r : Nat) : Zone :=
  match now with
  | .unknown | .mid => plainZone e.low e.high r
  | .low => if r < min 255 (e.low + e.hyst) then .low else if e.high < r then .high else .mid
  | .high => if e.high - e.hyst < r then .high else if r < e.low then .low else .mid

/-! ### Zone changes (R106) -/

/-- R106, R73, R40, R41, R43, R88, R89: a zone change is handed to the blocks that act on its role. -/
def State.zoneToBlocks (s : State) (role : Role) (zone : Zone) : State :=
  match role, zone with
  | .headTemp, .high => s.printHeadHot
  | .headTemp, .low | .headTemp, .mid | .headTemp, .unknown => s.printHeadCool
  | .paper, .low => s.printPaperLow
  | .docEdge, .high => s.docEdgeHigh
  | .docEdge, .low => s.docEdgeLow
  | .cover, .high => ((s.stopBoth .cover).scanCut .cover).printCoverHigh
  | .supply, .low => s.emergencyStop .supply .supply .supply
  | _, _ => s

/-- R106, 10.6: the SENSE cell. -/
def State.senseCell (s : State) (position : Nat) (e : SenseEntry) (before after : Zone) (reading : Nat) : State :=
  s.handEvent .sense 0 .done
    [byte position, byte (roleCode e.role), byte e.channel, byte (zoneCode before), byte (zoneCode after), byte reading]

/-- R106, R107, R111: a zone change: a SENSE cell where flagged, then to the blocks, whose cells follow it (03_print_path, Paper out;
log entry 9), then a wake cause where flagged; a first setting writes no cell and wakes nothing, and in a standby sweep it hands
nothing at all. A standby sweep running on in LEAVING hands cells (log entry 19). -/
def State.zoneChange (s : State) (standbySweep : Bool) (position : Nat) (e : SenseEntry) (before after : Zone)
    (reading : Nat) : State :=
  if before = .unknown then (if standbySweep then s else s.zoneToBlocks e.role after)
  else
    let s := if e.report ∧ s.clk.power ≠ .standby then s.senseCell position e before after reading else s
    let s := s.zoneToBlocks e.role after
    if e.wake then s.wake (.sense position after) else s

/-- R102, R105: an installed entry with its new reading and zone. -/
def Installed.convert (i : Installed) (raw : Nat) : Installed :=
  let r := gainReading i.entry.gain raw
  { i with reading := r, zone := i.entry.nextZone i.zone r }

/-- R105, R106: the entry at a position is converted: stored, and its zone change, if any, handed. -/
def State.convertEntry (s : State) (standbySweep : Bool) (position raw : Nat) : State :=
  match s.sense.list[position]? with
  | none => s
  | some i =>
    let j := i.convert raw
    let s := s.setSense { s.sense with list := s.sense.list.set position j }
    if j.zone = i.zone then s else s.zoneChange standbySweep position i.entry i.zone j.zone j.reading

/-! ### Sweeps (R104, R111) -/

/-- SWEEP_PERIOD_EXPIRY (R104). While the last conversion of an abandoned sweep still runs no expiry comes (log entry 8). -/
def execSweepPeriodExpiry (s : State) : Out :=
  let x := s.sense
  if x.periodTimer ∧ (s.clk.power = .run ∨ s.clk.power = .slow) then
    if x.sweep = .none then (if x.converting then .next s else .next s.sweepStart)
    else .next (s.setSense { x with owed := true })
  else .next s

/-- R143: the sense unit no longer needs FAST_RC, which stops where the state is still STANDBY. -/
def State.dropFastRc (s : State) : State :=
  let x := s.clk
  s.setClk { x with needSense := false, fastRc := if x.power = .standby then .stopped else x.fastRc }

/-- R111: a standby sweep ends. -/
def State.standbySweepEnd (s : State) : State := s.dropFastRc.sweepEnded

/-- R111, R108: a standby sweep begins: a pending list is installed, the entries with the wake flag are converted; with no such
entry it ends at the same event (log entry 34). -/
def State.standbySweepStart (s : State) : State :=
  let x := s.sense.install
  let x := { x with standbyTimer := x.standbyTimer && x.standby != 0 }
  match nextPosition true 0 x.list with
  | some p => s.setSense (x.reach (.standby p))
  | none => (s.setSense x).standbySweepEnd

/-- The sweep goes on from a position: the next conversion, or its end. -/
def State.sweepFrom (s : State) (standbySweep : Bool) (p : Nat) : State :=
  match nextPosition standbySweep p (s.sense.list.drop p) with
  | some n => s.setSense (s.sense.reach (if standbySweep then .standby n else .normal n))
  | none => if standbySweep then s.standbySweepEnd else s.normalSweepEnd

/-- CONVERSION_COMPLETE (R103, R105): the conversion of an abandoned sweep is not stored (R110). -/
def execConversionComplete (raw : Byte) (s : State) : Out :=
  if s.sense.converting then
    let sweep := s.sense.sweep
    let s := s.setSense { s.sense with converting := false }
    match sweep with
    | .none => .next s
    | .normal p => .next ((s.convertEntry false p raw.toNat).sweepFrom false (p + 1))
    | .standby p => .next ((s.convertEntry true p raw.toNat).sweepFrom true (p + 1))
  else .next s

/-- STANDBY_TIMER_EXPIRY (R111, R143): FAST_RC is asked for, unless a standby sweep is still in progress. -/
def execStandbyTimerExpiry (s : State) : Out :=
  if s.clk.power = .standby ∧ s.sense.standbyTimer ∧ s.sense.sweep = .none then
    let s := s.setClk { s.clk with needSense := true }
    match s.clk.fastRc with
    | .running => .next s.standbySweepStart
    | .starting => .next s
    | .stopped => .next (s.setClk { s.clk with fastRc := .starting })
  else .next s

/-- FAST_RC_RUNNING (R143): both requesters are told. -/
def execFastRcRunning (s : State) : Out :=
  if s.clk.fastRc = .starting then
    let s := s.setClk { s.clk with fastRc := .running }
    let s := if s.clk.needLeave then s.leaveOnFastRc else s
    .next (if s.clk.needSense then s.standbySweepStart else s)
  else .next s

end Sys2Proof.Machine
end

