-- ==== Sys2Proof/Machine/Dispatch.lean ====
section
/-! DEFINITION. The dispatch: one arm per command of the block, each one direct call of that command's meaning. -/

namespace Sys2Proof.Machine

open Sys2Proof

/-- The effect of one command on everything but the queue. -/
def exec (i : Instr) (s : State) : Host.Outcome State Fault Refusal :=
  match i with
  | .loadTable tag table length source => Sys2Proof.Machine.execLoadTable tag table length source s
  | .setRing tag ring producer consumer slots words base => Sys2Proof.Machine.execSetRing tag ring producer consumer slots words base s
  | .startScan tag ring mode start k profile theta skip trailing width pageLimit feedLimit stopMargin restartMargin => Sys2Proof.Machine.execStartScan tag ring mode start k profile theta skip trailing width pageLimit feedLimit stopMargin restartMargin s
  | .startScanCal tag lamp lines width interval destination => Sys2Proof.Machine.execStartScanCal tag lamp lines width interval destination s
  | .stopScan tag => Sys2Proof.Machine.execStopScan tag s
  | .startPrint tag ring k profile threshold headWidth shift budget trailing => Sys2Proof.Machine.execStartPrint tag ring k profile threshold headWidth shift budget trailing s
  | .stopPrint tag => Sys2Proof.Machine.execStopPrint tag s
  | .pausePrint tag => Sys2Proof.Machine.execPausePrint tag s
  | .resumePrint tag => Sys2Proof.Machine.execResumePrint tag s
  | .linkRings tag source destination keep => Sys2Proof.Machine.execLinkRings tag source destination keep s
  | .unlink tag => Sys2Proof.Machine.execUnlink tag s
  | .moveMotor tag channel direction profile steps => Sys2Proof.Machine.execMoveMotor tag channel direction profile steps s
  | .holdMotor tag channel => Sys2Proof.Machine.execHoldMotor tag channel s
  | .releaseMotor tag channel => Sys2Proof.Machine.execReleaseMotor tag channel s
  | .setPower tag target snapBack ratio wakeTimer => Sys2Proof.Machine.execSetPower tag target snapBack ratio wakeTimer s
  | .switchClock tag target => Sys2Proof.Machine.execSwitchClock tag target s
  | .stopAll tag => Sys2Proof.Machine.execStopAll tag s
  | .reboot tag => Sys2Proof.Machine.execReboot tag s
  | .unknownCommand tag code => Sys2Proof.Machine.execUnknownCommand tag code s
  | .commandTakeStart => Sys2Proof.Machine.execCommandTakeStart s
  | .commandPutWrite value => Sys2Proof.Machine.execCommandPutWrite value s
  | .responseTakeWrite value => Sys2Proof.Machine.execResponseTakeWrite value s
  | .summaryWordWrite value => Sys2Proof.Machine.execSummaryWordWrite value s
  | .lineRingPutWrite ring value => Sys2Proof.Machine.execLineRingPutWrite ring value s
  | .lineRingTakeWrite ring value => Sys2Proof.Machine.execLineRingTakeWrite ring value s
  | .controlBlockWrite offset value => Sys2Proof.Machine.execControlBlockWrite offset value s
  | .hostRead address => Sys2Proof.Machine.execHostRead address s
  | .hostWrite address data lowEnable highEnable => Sys2Proof.Machine.execHostWrite address data lowEnable highEnable s
  | .burstEnter dir => Sys2Proof.Machine.execBurstEnter dir s
  | .accessEnd => Sys2Proof.Machine.execAccessEnd s
  | .refreshEnd => Sys2Proof.Machine.execRefreshEnd s
  | .refreshTimerExpiry => Sys2Proof.Machine.execRefreshTimerExpiry s
  | .closeTimerExpiry bank => Sys2Proof.Machine.execCloseTimerExpiry bank s
  | .refreshBurstDone => Sys2Proof.Machine.execRefreshBurstDone s
  | .selfRefreshEntry => Sys2Proof.Machine.execSelfRefreshEntry s
  | .slotWritesAcknowledged ring => Sys2Proof.Machine.execSlotWritesAcknowledged ring s
  | .pageEndTagAcknowledged ring => Sys2Proof.Machine.execPageEndTagAcknowledged ring s
  | .stepIntervalExpiry channel => Sys2Proof.Machine.execStepIntervalExpiry channel s
  | .readoutComplete samples => Sys2Proof.Machine.execReadoutComplete samples s
  | .calTriggerExpiry => Sys2Proof.Machine.execCalTriggerExpiry s
  | .calReadoutComplete samples => Sys2Proof.Machine.execCalReadoutComplete samples s
  | .calSumsAcknowledged => Sys2Proof.Machine.execCalSumsAcknowledged s
  | .linkTakeSourceLine => Sys2Proof.Machine.execLinkTakeSourceLine s
  | .linkReadComplete => Sys2Proof.Machine.execLinkReadComplete s
  | .fetchStart => Sys2Proof.Machine.execFetchStart s
  | .tagReadComplete => Sys2Proof.Machine.execTagReadComplete s
  | .windowReadComplete => Sys2Proof.Machine.execWindowReadComplete s
  | .fetchComplete => Sys2Proof.Machine.execFetchComplete s
  | .shiftInStart => Sys2Proof.Machine.execShiftInStart s
  | .shiftInComplete => Sys2Proof.Machine.execShiftInComplete s
  | .lineLatch elapsed => Sys2Proof.Machine.execLineLatch elapsed s
  | .phaseEnd => Sys2Proof.Machine.execPhaseEnd s
  | .nextPhaseStart => Sys2Proof.Machine.execNextPhaseStart s
  | .slewBegin => Sys2Proof.Machine.execSlewBegin s
  | .printStreamOff => Sys2Proof.Machine.execPrintStreamOff s
  | .sweepPeriodExpiry => Sys2Proof.Machine.execSweepPeriodExpiry s
  | .conversionComplete raw => Sys2Proof.Machine.execConversionComplete raw s
  | .standbyTimerExpiry => Sys2Proof.Machine.execStandbyTimerExpiry s
  | .ringEdge => Sys2Proof.Machine.execRingEdge s
  | .edgeGapExpiry => Sys2Proof.Machine.execEdgeGapExpiry s
  | .burstEndExpiry => Sys2Proof.Machine.execBurstEndExpiry s
  | .silenceTimerExpiry => Sys2Proof.Machine.execSilenceTimerExpiry s
  | .inputLevelChange input high => Sys2Proof.Machine.execInputLevelChange input high s
  | .debounceExpiry input => Sys2Proof.Machine.execDebounceExpiry input s
  | .settleCountReached => Sys2Proof.Machine.execSettleCountReached s
  | .startWindowExpiry => Sys2Proof.Machine.execStartWindowExpiry s
  | .pllLock => Sys2Proof.Machine.execPllLock s
  | .lockWindowExpiry => Sys2Proof.Machine.execLockWindowExpiry s
  | .fastRcRunning => Sys2Proof.Machine.execFastRcRunning s
  | .switchComplete => Sys2Proof.Machine.execSwitchComplete s
  | .lossWindowExpiry => Sys2Proof.Machine.execLossWindowExpiry s
  | .wakeTimerExpiry => Sys2Proof.Machine.execWakeTimerExpiry s
  | .hostClockStop => Sys2Proof.Machine.execHostClockStop s
  | .standbyEntry => Sys2Proof.Machine.execStandbyEntry s
  | .powerOnDetect => Sys2Proof.Machine.execPowerOnDetect s
  | .resetPinLow => Sys2Proof.Machine.execResetPinLow s
  | .resetPinHigh => Sys2Proof.Machine.execResetPinHigh s
  | .romHeaderRead marker count => Sys2Proof.Machine.execRomHeaderRead marker count s
  | .recordHeaderRead typeAndTable length destination check image => Sys2Proof.Machine.execRecordHeaderRead typeAndTable length destination check image s
  | .configRecordRead data => Sys2Proof.Machine.execConfigRecordRead data s
  | .tableRecordRead data => Sys2Proof.Machine.execTableRecordRead data s
  | .imageWritesAcknowledged => Sys2Proof.Machine.execImageWritesAcknowledged s
  | .releaseWritesAcknowledged => Sys2Proof.Machine.execReleaseWritesAcknowledged s
  | .faultPulseTimerExpiry => Sys2Proof.Machine.execFaultPulseTimerExpiry s
  | .responseCellAcknowledged => Sys2Proof.Machine.execResponseCellAcknowledged s
  | .responsePutAcknowledged => Sys2Proof.Machine.execResponsePutAcknowledged s
  | .snapshotAcknowledged => Sys2Proof.Machine.execSnapshotAcknowledged s
  | .tableLoadReadsComplete => Sys2Proof.Machine.execTableLoadReadsComplete s
  | .stopAllComplete => Sys2Proof.Machine.execStopAllComplete s

end Sys2Proof.Machine
end

