-- ==== Sys2Proof/Machine/Step.lean ====
section
/-! DEFINITION. The step: the command at the front of the queue through `exec`; an empty queue is one tick of the timebase. -/

namespace Sys2Proof.Machine

open Sys2Proof

/-- What the block does with no command waiting: one tick passes for the cool counter (R64, log entry 18), and nothing else. -/
def State.tick (s : State) : State :=
  if s.print.active ∧ ¬s.print.firing then s.setPrint { s.print with cool := satAdd 65535 s.print.cool 1 } else s

/-- One step: the command at the front of the queue is taken and executed on the state with the queue's rest. -/
def step (s : State) : Host.Outcome State Fault Refusal :=
  match s.pending with
  | [] => .next s.tick
  | i :: rest => exec i (s.setPending rest)

/-- The state with the command a table word spells put at the front of the queue; the table gives no row any bits, so no word
spells one and the state is unchanged. -/
def State.withFetchWord (s : State) (nbits w : Nat) : State :=
  match decodeTableWord nbits w with
  | some i => s.setPending (i :: s.pending)
  | none => s

end Sys2Proof.Machine
end

