-- ==== Sys2Proof/Safety.lean ====
section
/-! DEFINITION. The terms that claims about the FC-62 use: how a command, an arrival or a completed transfer comes to stand where
its row takes it, what stays the same, and the invariants of the machine. -/

namespace Sys2Proof.Machine

open Sys2Proof

/-! ### What a row takes -/

/-- R179, R180: the state in which a host command is the oldest one taken and not yet judged. -/
def State.given (s : State) (i : Instr) : State := s.setCells { s.cells with handed := i :: s.cells.handed }

/-- R136: the state in which an arrival is the oldest one handed. -/
def State.arrived (s : State) (offset : Nat) (value : Half) : State :=
  s.setPmc { s.pmc with arrivals := ⟨offset, value⟩ :: s.pmc.arrivals }

/-- R121: the state in which a transfer of a requester has just been completed, with its data. -/
def State.delivered (s : State) (q : Req) (data : List Half) : State :=
  s.setPmc { s.pmc with inbox := ⟨q, data, true⟩ :: s.pmc.inbox }

/-- R121: the state in which transfers of a requester have just been completed, each with its data, the first one oldest. -/
def State.deliveredEach (s : State) (q : Req) (data : List (List Half)) : State :=
  s.setPmc { s.pmc with inbox := data.map (fun d => ⟨q, d, true⟩) ++ s.pmc.inbox }

/-- Nothing is delivered to a requester. -/
def State.nothingFor (s : State) (q : Req) : Prop := ∀ d ∈ s.pmc.inbox, d.req ≠ q

/-! ### Frames -/

/-- Two states differ at most in the cells and in the bursts that wait outside the controller: what handing a cell changes. -/
def State.sameButCells (s t : State) : Prop :=
  t = (s.setCells t.cells).setPmc { s.pmc with waiting := t.pmc.waiting }

/-- Every byte of page memory reads as before. -/
def State.memoryKept (s t : State) : Prop := ∀ a, readByte t.mem a = readByte s.mem a

/-- Every byte of page memory outside `n` bytes from an address reads as before. -/
def State.memoryKeptOutside (s t : State) (address n : Nat) : Prop :=
  ∀ a, a < address ∨ address + n ≤ a → readByte t.mem a = readByte s.mem a

/-! ### Invariants -/

/-- R119: the ages of a queue rise from its front and lie below the next age. -/
def agesBelow (next : Nat) : List Burst → Bool
  | [] => true
  | [b] => decide (b.age < next)
  | a :: b :: rest => decide (a.age < b.age) && agesBelow next (b :: rest)

/-- R119, R120, R122: the ranges of the controller's queues and counters. -/
def Pmc.inBounds (x : Pmc) : Bool :=
  decide (x.owed ≤ 8) && decide (x.burstRem ≤ 8) && decide (x.readQ.length ≤ 4) && decide (x.writeQ.length ≤ 8)
    && agesBelow x.nextAge x.readQ && agesBelow x.nextAge x.writeQ

/-- R122, R131, R133: what each state of the controller holds: DOWN and SELF_REFRESH queue nothing and run no refresh timer, every
other state runs it. -/
def Pmc.stateLegal (x : Pmc) : Bool :=
  match x.st with
  | .down => !x.refreshTimer && x.readQ == [] && x.writeQ == [] && x.burstRem == 0 && x.owed == 0
  | .selfRefresh => !x.refreshTimer && x.readQ == [] && x.writeQ == [] && x.owed == 0
  | .starting | .running | .srEntry | .srExit => x.refreshTimer

/-- R123, R124: with the DRAM FREE in a state that makes grants, nothing waits to be granted. -/
def Pmc.workConserving (x : Pmc) : Bool :=
  !x.mayGrant || (x.readQ == [] && x.writeQ == [] && x.burstRem == 0 && x.owed == 0)

/-- The invariant of the page memory controller. -/
def Pmc.sound (x : Pmc) : Bool := x.inBounds && x.stateLegal && x.workConserving

/-- R176, R183: the cell unit gives a response slot only while occupancy, writing list and reservations fit the ring, and holds
nothing before the boot controller is READY. -/
def State.responseRoom (s : State) : Prop :=
  s.cells.respPut < 2 * s.cfg.nr ∧ s.cells.respTake < 2 * s.cfg.nr
  ∧ s.respOccupancy + s.cells.writing.length + s.cells.reserved ≤ s.cfg.nr
  ∧ (s.cells.taking = .notStarted → s.cells.respPut = 0 ∧ s.cells.respTake = 0 ∧ s.cells.writing = []
      ∧ s.cells.reserved = 0 ∧ s.cells.reading = none ∧ s.cells.handed = [])
  ∧ (s.boot.st ≠ .ready → s.cells.taking = .notStarted)

/-- R4, R6, R7, R11: a ring's indices lie below 2S and its occupancy, held and writing slots within S; a HOST producer holds and
claims none; a tag is being rewritten only for a held slot. -/
def Ring.counted (x : Ring) : Bool :=
  match x.desc with
  | none => true
  | some d =>
    decide (x.put < 2 * d.slots) && decide (x.take < 2 * d.slots) && decide (x.occupancy d + x.claimed ≤ d.slots)
      && (d.producer != .host || x.claimed == 0)
      && (match x.pageEnd with | some p => !p.rewriting || x.held.isSome | none => true)

/-- R14, R15: a ring's producer side is attached, by the side that its descriptor names. -/
def Ring.filledBy (x : Ring) (side : Side) : Bool :=
  x.prodAttached && (match x.desc with | some d => d.producer == side | none => false)

/-- R4, R19, R27: every ring is counted; an active page stream and a link that is on have their own side of the ring they fill
attached, and a READING link has a destination slot for its line. -/
def State.ringsBounded (s : State) : Bool :=
  s.rings.r0.counted && s.rings.r1.counted && s.rings.r2.counted && s.rings.r3.counted
    && (match s.scan.st with
        | .off | .cal => true
        | .waitEdge | .capture | .stalled | .trailing | .ending => (s.ring s.scan.params.ring).filledBy .scan)
    && (s.link.st == .off || (s.ring s.link.destRing).filledBy .link)
    && (s.link.st != .reading || decide (1 ≤ s.ringFree s.link.destRing))

/-- R17, R20: the copy link's accumulator and held lines: below 256 with at most one line held, and then at least 128, wherever a
line may be added; below 256 with none held while a line is written; below 512 with at most two held while an emission waits. A
link that is on names two different rings. -/
def Link.bounded (x : Link) : Bool :=
  decide (128 ≤ x.keep ∧ x.keep ≤ 256)
    && (x.st == .off || (x.source.isSome && x.destination.isSome && x.source != x.destination))
    && (match x.st with
        | .wait => decide (x.acc < 256 ∧ x.heldCount ≤ 1 ∧ (x.heldCount = 1 → 128 ≤ x.acc))
        | .reading =>
          (!x.readsOut || decide (x.acc < 256 ∧ x.heldCount ≤ 1 ∧ (x.heldCount = 1 → 128 ≤ x.acc)))
            && (!x.emitPending || decide (x.acc < 512 ∧ x.heldCount ≤ 2))
        | .writing => decide (x.acc < 256 ∧ x.heldCount = 0)
        | .off | .ending => true)

/-- R38: the error stores hold shares of at most 72, the next row and the right carry are clear between readouts, and the tone
table's entries are bytes. -/
def State.errorsBounded (s : State) : Bool :=
  s.scan.currentRow.all (fun e => decide (-72 ≤ e ∧ e ≤ 72)) && s.scan.nextRow.all (· == 0) && s.scan.carry == 0
    && s.tables.tone.all (fun t => decide (t ≤ 255))

/-- R25, R51: the stores of a line have their 2048 entries; a calibration alone runs in mode CAL; a stream stalls from CAPTURE or
TRAILING. -/
def State.scanWhole (s : State) : Bool :=
  s.tables.shading.length == 2048 && s.scan.currentRow.length == 2048 && s.scan.nextRow.length == 2048
    && (match s.scan.st with
        | .off => true
        | .cal => s.scan.params.mode == .cal
        | .waitEdge | .capture | .stalled | .trailing | .ending => s.scan.params.mode != .cal)
    && (s.scan.stalledFrom == .capture || s.scan.stalledFrom == .trailing)

/-- R32, R42: in a page, each line trigger is one written line, one lost line or the readout in progress; triggers stay below the
page limit until closing, at most 16383, and at most one buffer is in READOUT. -/
def Scan.accounted (x : Scan) : Bool :=
  match x.st with
  | .off | .cal => true
  | .waitEdge | .capture | .stalled | .trailing | .ending =>
    x.triggerCount == x.linesWritten + x.lostNoBuffer + x.lostOverrun + x.lostNoSlot
        + (if x.readoutBuf.isSome then 1 else 0)
      && decide (x.params.pageLimit ≤ 16383) && decide (x.triggerCount ≤ x.params.pageLimit)
      && (x.closing || decide (x.triggerCount < x.params.pageLimit))
      && !(x.bufA.st == .readout && x.bufB.st == .readout)

/-- R170: the host is held in reset exactly until the boot controller is READY, and RELEASE and READY are reached with an image
copied. -/
def State.hostHeld (s : State) : Bool :=
  s.boot.hostReset == (s.boot.st != .ready)
    && (!(s.boot.st == .release || s.boot.st == .ready) || decide (1 ≤ s.boot.images))

/-- R140, R154: what the stages of standby allow: the host clock stopped, and memory on its way to or in self-refresh. -/
def ClockPower.entrySentOrLater (x : ClockPower) : Bool :=
  (x.power == .entering && x.entrySent) || x.power == .standby || x.power == .leaving

/-- R133, R140, R154: HOST_CLK is stopped and memory refreshes itself only in the stages of standby; SR_ENTRY only in ENTERING. -/
def State.standbyHeld (s : State) : Bool :=
  (s.clk.hostClk || s.clk.entrySentOrLater)
    && (s.pmc.st != .selfRefresh || s.clk.entrySentOrLater)
    && (s.pmc.st != .srEntry || (s.clk.power == .entering && s.clk.entrySent))

end Sys2Proof.Machine
end

