-- ==== Sys2Proof/WellFormed.lean ====
section
/-! DEFINITION. Which commands are well formed: the operands an environment that keeps to the spec can give. The command cell
checks of the chapters are the part's own behaviour and no matter of form (a bad argument is answered BAD_ARG). -/

namespace Sys2Proof

/-- R119, R135: the host reads and writes halfwords, so a host address is even. -/
def evenAddress (a : BitVec 22) : Bool := a.getLsbD 0 = false

/-- 00_scope 2.1: a line is a multiple of 32 pels, 32 to 2048, so a readout gives that many samples. -/
def lineOfSamples (n : Nat) : Bool := 32 ≤ n && n ≤ 2048 && n % 32 == 0

/-- Whether a command's operands are ones the spec's environment can give.
START_SCAN is START SCAN in any mode but CAL (R26); UNKNOWN_COMMAND's code names none of the seventeen commands (R180); an
arrival lies in the 256 bytes of the control block, at a halfword (R136); a host write enables a byte at least (log entry 38). -/
def WellFormed : Instr → Bool
  | .startScan _ _ mode _ _ _ _ _ _ _ _ _ _ _ => mode != calModeCode
  | .unknownCommand _ code => code.toNat == 0 || 17 < code.toNat
  | .controlBlockWrite offset _ => offset.getLsbD 0 = false
  | .hostRead address => evenAddress address
  | .hostWrite address _ low high => evenAddress address && (low || high)
  | .readoutComplete samples => lineOfSamples samples.length
  | .calReadoutComplete samples => lineOfSamples samples.length
  | _ => true

end Sys2Proof
end

