-- ==== Sys2Proof/Certificates/Slice0/Obligations.lean ====
section
/-! DEFINITION. The statements for the provers, in the order of spec/: the block and its memory, then each unit. -/

open Sys2Proof Sys2Proof.Machine

/-- R180, R64: For every state, command and rest of the queue: step with that command at the front is exec of the
command on the state with the rest of the queue. On an empty queue, by the model's own choice (log entries 1 and 18),
step answers next: where a print stream is active and no heat pulse is in progress the cool counter goes up by 1 and
stays at 65535, otherwise nothing changes. -/
def Obligations.StepRunsFront : Prop :=
  (∀ (s : State) (c : Instr) (rest : List Instr),
        step (s.setPending (c :: rest)) = exec c (s.setPending rest))
      ∧ ∀ s : State, s.pending = [] →
        step s = .next (if s.print.st ≠ .off ∧ s.print.firing = false then
          { s with print := { s.print with cool := min 65535 (s.print.cool + 1) } } else s)

/-- R180, R159: For every command and state: if exec answers a next state, the queue of waiting commands (the model's
own device, log entry 1) is the same in it, a cold start included. -/
def Obligations.CommandsLeaveQueue : Prop :=
  ∀ (i : Instr) (s t : State), exec i s = .next t → t.pending = s.pending

/-- R194, R193: For every well-formed host command (every one of the seventeen codes, START SCAN in all three modes,
and every code that names no command), with every operand at every value its field admits: the sixteen bytes of its
command cell decode to it. -/
def Obligations.CellRoundTrip : Prop :=
  ∀ i : Instr, WellFormed i = true → (commandCode i).isSome = true → decodeCell (encodeCell i) = i

/-- R117, R129: For every state whose page memory has the canonical form (addresses strictly rising, no entry equal to
what an unlisted address reads as): if a step answers a next state, its memory has the canonical form too. -/
def Obligations.MemoryCanonicalKept : Prop :=
  ∀ s t : State, memoryWf s.mem = true → step s = .next t → memoryWf t.mem = true

/-- R122, R129, R174: For every command: if exec answers a next state whose page memory differs, the command is
ACCESS_END, with a write burst in progress, or one of the rows at which a cold start may begin (POWER_ON_DETECT,
RESET_PIN_LOW, RESPONSE_PUT_ACKNOWLEDGED), with a write burst in progress; and every byte outside that burst reads as
before. That a cold start keeps those bytes is the model's choice (log entry 3), and what it cut is a free value (log
entry 2). -/
def Obligations.MemoryChangedBy : Prop :=
  ∀ (i : Instr) (s t : State), memoryWf s.mem = true → exec i s = .next t → t.mem ≠ s.mem →
      (i = .accessEnd ∨ i = .powerOnDetect ∨ i = .resetPinLow ∨ i = .responsePutAcknowledged)
      ∧ ∃ (b : Burst) (cycles : Nat), s.pmc.act = .access b cycles ∧ b.dir = .write
        ∧ s.memoryKeptOutside t (2 * b.half) (2 * max b.len b.data.length)

/-- R119, R129, R193, R121, R127, R130, R123, R136: With a write burst in progress inside the configured memory,
ACCESS_END answers a next state: each halfword of the burst is stored low byte first under the byte enables (both
clear: log entry 38), every other byte of memory reads as before; outside the configured memory it faults, as R119
gives such a transfer no existence. With no command cell being read, and no ending link's abandoned reads complete, the
controller becomes: the DRAM FREE; the entry gone from the write queue; DRAIN lowered where 2 or fewer remain; the
bank's row open under a close timer of the close interval, or closed where that is 0, the other bank as before; the
acknowledgement with the requester, where it wants one; an arrival added for a host write in the control block; and
then a grant point. -/
def Obligations.AccessEndStores : Prop :=
  ∀ (s : State) (b : Burst) (cycles : Nat), memoryWf s.mem = true → s.pmc.act = .access b cycles → b.dir = .write →
      b.data.length = b.len →
      (2 * (b.half + b.len) ≤ s.cfg.memSize →
        ∃ t, exec .accessEnd s = .next t ∧ s.memoryKeptOutside t (2 * b.half) (2 * b.len)
          ∧ (∀ k < b.len,
              readByte t.mem (2 * (b.half + k)) =
                (if b.lowEnable then lowByte (b.data.getD k 0) else readByte s.mem (2 * (b.half + k)))
              ∧ readByte t.mem (2 * (b.half + k) + 1) =
                (if b.highEnable then highByte (b.data.getD k 0) else readByte s.mem (2 * (b.half + k) + 1)))
          ∧ (s.cells.reading = none →
            let one := b.half / s.cfg.rowLen % s.cfg.banks = 1
            let queue := s.pmc.writeQ.filter (fun e => e.age ≠ b.age)
            let bank : Bank := if s.cfg.closeInterval = 0 then {} else
              { openRow := (if one then s.pmc.bank1 else s.pmc.bank0).openRow, closeTimer := some s.cfg.closeInterval }
            let p := { s.pmc with
              act := .free, writeQ := queue, drain := s.pmc.drain && decide (2 < queue.length)
              bank0 := if one then s.pmc.bank0 else bank, bank1 := if one then bank else s.pmc.bank1
              inbox := if b.req = .host ∨ b.req = .word ∨ b.req = .slotWords then s.pmc.inbox else deliver b.req [] b.last s.pmc.inbox
              arrivals := if b.cls = .host ∧ s.cfg.cbAddr ≤ 2 * b.half ∧ 2 * b.half < s.cfg.cbAddr + 256 then
                  s.pmc.arrivals ++ [⟨2 * b.half - s.cfg.cbAddr, readHalf t.mem b.half⟩]
                else s.pmc.arrivals }
            ¬(s.link.st = .ending ∧ s.link.readsOut = true ∧ p.hasDone .linkWords = true ∧ p.hasDone .linkTag = true) →
            t.pmc = Pmc.grantPoint s.cfg p))
      ∧ (s.cfg.memSize < 2 * (b.half + b.len) → exec .accessEnd s = .fault .accessOutsideMemory)

/-- R121, R129, R135, R130, R123, R23, R24: With a read burst in progress inside the configured memory, ACCESS_END
answers a next state with every byte of memory as before; a HOST read of one halfword drives the halfword at its
address to the host; a part block's read whose transfer it completes in one burst adds its halfwords to what is
delivered, unless it completes the read of a command cell or of a line the copy link abandoned. With no command cell
being read, the controller becomes: the DRAM FREE; the entry gone from the read queue; the bank's row open under a
close timer of the close interval, or closed where that is 0, the other bank as before; the data with the host or the
requester; and then a grant point. Where that data completes the abandoned reads of a link that is ENDING, it is
dropped, the source's consumer side is detached with its take as before, and, where the destination's page end is
complete and nothing is writing, the destination's producer side is detached and the link is OFF, after the STREAM cell
a STOP ALL owes (its bytes: log entry 10). -/
def Obligations.AccessEndReads : Prop :=
  ∀ (s : State) (b : Burst) (cycles : Nat), s.pmc.act = .access b cycles → b.dir = .read →
      2 * (b.half + b.len) ≤ s.cfg.memSize →
      ∃ t, exec .accessEnd s = .next t ∧ t.mem = s.mem
        ∧ (b.req = .host → b.len = 1 → t.pmc.hostData = readHalf s.mem b.half)
        ∧ (b.last = true → b.req ≠ .host → b.req ≠ .word → b.req ≠ .slotWords → s.nothingFor b.req → s.cells.reading = none →
            s.link.st ≠ .ending →
            t.pmc.dataOf b.req = readHalves s.mem b.half b.len ∧ t.pmc.hasDone b.req = true)
        ∧ (s.cells.reading = none →
          let one := b.half / s.cfg.rowLen % s.cfg.banks = 1
          let data := readHalves s.mem b.half b.len
          let bank : Bank := if s.cfg.closeInterval = 0 then {} else
            { openRow := (if one then s.pmc.bank1 else s.pmc.bank0).openRow, closeTimer := some s.cfg.closeInterval }
          let p := { s.pmc with
            act := .free, readQ := s.pmc.readQ.filter (fun e => e.age ≠ b.age)
            bank0 := if one then s.pmc.bank0 else bank, bank1 := if one then bank else s.pmc.bank1
            hostData := if b.req = .host then data.getD 0 0 else s.pmc.hostData
            inbox := if b.req = .host ∨ b.req = .word ∨ b.req = .slotWords then s.pmc.inbox else deliver b.req data b.last s.pmc.inbox }
          let x := s.link
          let y := s.ring x.destRing
          let abandoned := x.st = .ending ∧ x.readsOut = true ∧ p.hasDone .linkWords = true ∧ p.hasDone .linkTag = true
          (¬abandoned → t.pmc = Pmc.grantPoint s.cfg p ∧ t.link = s.link ∧ t.rings = s.rings ∧ t.cells = s.cells)
          ∧ (abandoned →
            let rest := { p with inbox := p.inbox.filter (fun d => d.req ≠ .linkWords ∧ d.req ≠ .linkTag) }
            let off := y.pageEnd = none ∧ y.writing = []
            let told := (s.setPmc rest).handEvent .stream 0 .aborted
              ([2, byte x.destRing.val, 0, 0xFF, 0] ++ twoBytes x.dropped)
            (t.ring x.sourceRing).consAttached = false ∧ (t.ring x.sourceRing).take = (s.ring x.sourceRing).take
            ∧ (off → t.link = { x with readsOut := false, st := .off, abortCell := false }
              ∧ (t.ring x.destRing).prodAttached = false)
            ∧ (¬off → t.link = { x with readsOut := false })
            ∧ t.pmc = Pmc.grantPoint s.cfg (if off ∧ x.abortCell = true then told.pmc else rest)
            ∧ t.cells = (if off ∧ x.abortCell = true then told.cells else s.cells)))

/-- R135, R136: While the host may present a request (it runs, its clock runs, none is outstanding): HOST_READ and
HOST_WRITE below the memory size add one burst of class HOST and one halfword to those that wait and change nothing
else; at or above it a read returns FFFF hex and a write changes nothing. For every address and every value of the byte
enables (both clear: log entry 38). When a burst is performed: a HOST write inside the 256 bytes of the control block
adds one arrival, with the halfword's offset and its contents in memory after the write; any other burst (a part
block's write, a read, a host write elsewhere) adds none. -/
def Obligations.HostSide : Prop :=
  ∀ (s : State) (a : BitVec 22) (d : Half) (low high : Bool) (b : Burst),
      (s.hostMayRequest = true →
        (a.toNat < s.cfg.memSize →
          exec (.hostRead a) s = .next (s.setPmc { s.pmc with waiting := s.pmc.waiting ++
            [{ dir := .read, cls := .host, half := a.toNat / 2, len := 1, last := true, req := .host }] })
          ∧ exec (.hostWrite a d low high) s = .next (s.setPmc { s.pmc with waiting := s.pmc.waiting ++
            [{ dir := .write, cls := .host, half := a.toNat / 2, len := 1, data := [d], lowEnable := low,
               highEnable := high, last := true, req := .host }] }))
        ∧ (s.cfg.memSize ≤ a.toNat →
          exec (.hostRead a) s = .next (s.setPmc { s.pmc with hostData := 0xFFFF })
          ∧ exec (.hostWrite a d low high) s = .next s))
      ∧ (b.cls = .host ∧ b.dir = .write ∧ s.cfg.cbAddr ≤ 2 * b.half ∧ 2 * b.half < s.cfg.cbAddr + 256 →
        (s.perform b).pmc.arrivals =
          s.pmc.arrivals ++ [⟨2 * b.half - s.cfg.cbAddr, readHalf (s.perform b).mem b.half⟩])
      ∧ (¬(b.cls = .host ∧ b.dir = .write ∧ s.cfg.cbAddr ≤ 2 * b.half ∧ 2 * b.half < s.cfg.cbAddr + 256) →
        (s.perform b).pmc.arrivals = s.pmc.arrivals)

/-- R119, R120, R122, R123, R124, R131, R133: For every state in which the controller is sound: if a step answers a
next state, it is sound there. Sound: refresh owed and burst remaining at most 8, at most 4 reads and 8 writes queued
with ages rising in each queue and below the next age; in DOWN nothing runs and nothing is queued; in SELF_REFRESH the
refresh timer is stopped and nothing is queued; in every other state it runs; and with the DRAM FREE in a state that
makes grants, no refresh is owed or remaining and nothing is queued. -/
def Obligations.ControllerSoundKept : Prop :=
  ∀ s t : State, s.pmc.sound = true → step s = .next t → t.pmc.sound = true

/-- R121, R123, R124: At a grant point (the DRAM FREE in STARTING, RUNNING, SR_ENTRY or SR_EXIT): with burst remaining
above 0 a refresh is granted that takes 1 from it and from refresh owed where that is above 0; else with 4 or more
owed, a refresh; else under URGENT with a PRINT read queued, the oldest PRINT read or the write that stands in for it;
else under DRAIN with a write queued, the oldest write; else with an entry queued the choice of the request rule; else
with a refresh owed, a refresh; a refresh closes both banks. Otherwise nothing is granted. With the queues in age
order: the eligible read of a class is its oldest queued read; a read that overlaps no queued write which entered
before it stands for itself, and one that does is represented by the oldest queued write of the class of the oldest
write it overlaps; and an access granted is that of the oldest queued write of a class or of the oldest queued read of
a class that overlaps no queued write which entered before it: no held read is granted. -/
def Obligations.GrantOrder : Prop :=
  ∀ (c : BoardConfig) (x : Pmc), x.act = .free →
      (x.st = .starting ∨ x.st = .running ∨ x.st = .srEntry ∨ x.st = .srExit) →
      let oldestIn := fun (q : List Burst) (b : Burst) => b ∈ q ∧ ∀ e ∈ q, e.cls = b.cls → b.age ≤ e.age
      let holds := fun (w r : Burst) => w ∈ x.writeQ ∧ w.age < r.age ∧ w.half < r.half + r.len ∧ r.half < w.half + w.len
      x.grantPoint c =
        (if 0 < x.burstRem then
          { x with act := .refresh, bank0 := {}, bank1 := {}, owed := x.owed - 1, burstRem := x.burstRem - 1 }
        else if 4 ≤ x.owed then { x with act := .refresh, bank0 := {}, bank1 := {}, owed := x.owed - 1 }
        else
          match (if x.urgent then x.eligibleRead .print else none), (if x.drain then x.writeQ.head? else none),
            x.chooseRequest c with
          | some r, _, _ => x.startAccess c (x.standIn r)
          | none, some w, _ => x.startAccess c w
          | none, none, some b => x.startAccess c b
          | none, none, none =>
            if 0 < x.owed then { x with act := .refresh, bank0 := {}, bank1 := {}, owed := x.owed - 1 } else x)
      ∧ (x.inBounds = true →
        (∀ r, oldestIn x.readQ r → x.eligibleRead r.cls = some r)
        ∧ (∀ k, (∀ e ∈ x.readQ, e.cls ≠ k) → x.eligibleRead k = none)
        ∧ (∀ r, (∀ w, ¬holds w r) → x.standIn r = r)
        ∧ (∀ r w a, holds w r → (∀ v, holds v r → w.age ≤ v.age) → oldestIn x.writeQ a → a.cls = w.cls → x.standIn r = a)
        ∧ ∀ b n, (x.grantPoint c).act = .access b n →
          oldestIn x.writeQ b ∨ (oldestIn x.readQ b ∧ ∀ w, ¬holds w b))

/-- R121, R125: The entry the request rule chooses is one of the eligible entries; where any has been passed over 32
times, it is such a one and none such is older; otherwise, where any is a page hit it is one, and no page hit is of a
higher class, nor older in its class; and where none is a page hit, no entry is of a higher class, nor older in its
class. Nothing is chosen only where nothing is eligible. A write that stands in for a held read is ranked by its own
class, page hit and passed-over count (log entry 9). With the queues in age order the eligible entries are exactly the
oldest queued write of each class and the oldest queued read of each class that overlaps no queued write which entered
before it. -/
def Obligations.RequestRule : Prop :=
  ∀ (c : BoardConfig) (x : Pmc),
      (x.inBounds = true → ∀ a, a ∈ x.candidates ↔
        (a ∈ x.writeQ ∧ ∀ e ∈ x.writeQ, e.cls = a.cls → a.age ≤ e.age)
        ∨ (a ∈ x.readQ ∧ (∀ e ∈ x.readQ, e.cls = a.cls → a.age ≤ e.age)
          ∧ ∀ w ∈ x.writeQ, ¬(w.age < a.age ∧ w.half < a.half + a.len ∧ a.half < w.half + w.len)))
      ∧ (x.chooseRequest c = none ↔ x.candidates = [])
      ∧ ∀ b, x.chooseRequest c = some b → b ∈ x.candidates
        ∧ ((∃ a ∈ x.candidates, 32 ≤ a.passed) →
            32 ≤ b.passed ∧ ∀ a ∈ x.candidates, 32 ≤ a.passed → b.age ≤ a.age)
        ∧ ((∀ a ∈ x.candidates, a.passed < 32) → (∃ a ∈ x.candidates, x.pageHit c a = true) →
            x.pageHit c b = true ∧ ∀ a ∈ x.candidates, x.pageHit c a = true →
              classRank b.cls < classRank a.cls ∨ (a.cls = b.cls ∧ b.age ≤ a.age))
        ∧ ((∀ a ∈ x.candidates, a.passed < 32) → (∀ a ∈ x.candidates, x.pageHit c a = false) →
            ∀ a ∈ x.candidates, classRank b.cls < classRank a.cls ∨ (a.cls = b.cls ∧ b.age ≤ a.age))

/-- R117, R126, R129, R130: A granted access lasts the column count for each halfword (twice for a host write with one
byte enable clear, once with both clear: log entry 38) on a page hit, the row-open count more with no row open, and the
precharge and row-open counts more with another row open; its row is then the bank's open row and the bank's close
timer is stopped, the other bank as before; every queued entry that entered before it is passed over once more, up to
32, every other entry unchanged. -/
def Obligations.AccessTiming : Prop :=
  ∀ (c : BoardConfig) (x : Pmc) (b : Burst),
      let columns := c.column * (if b.dir = .write ∧ b.lowEnable ≠ b.highEnable then 2 * b.len else b.len)
      let one := c.bankOf b.half
      let y := x.startAccess c b
      y.act = .access b (match (x.bank one).openRow with
          | none => c.rowOpen + columns
          | some row => if row = b.half / c.rowLen / c.banks then columns else c.precharge + c.rowOpen + columns)
      ∧ (y.bank one).openRow = some (b.half / c.rowLen / c.banks) ∧ (y.bank one).closeTimer = none
      ∧ y.bank (!one) = x.bank (!one)
      ∧ y.readQ = x.readQ.map (fun e => if e.age < b.age then { e with passed := min 32 (e.passed + 1) } else e)
      ∧ y.writeQ = x.writeQ.map (fun e => if e.age < b.age then { e with passed := min 32 (e.passed + 1) } else e)

/-- R120, R127: While the controller accepts entries and the queue of a direction has room: the waiting burst of that
direction that enters is one whose class no other waiting class goes before (PRINT before HOST under URGENT), the one
of its class issued first; it leaves those that wait and joins the end of its queue with the next age and a passed-over
count of 0; a write that brings the queue to 6 or more raises DRAIN; a grant point follows. Nothing else changes. While
a burst of a class waits outside, its requester begins no further transfer (the cell unit takes no command, the copy
link no source line, the print path fetches no line); while a word of the control block does, what is acknowledged to
its requester waits (response cells, snapshots, slots, page ends, the link's source line, the print path's tags and
words), and the print path begins no shift, latch or slew. Which rows are held is the model's choice (log entry 24). -/
def Obligations.BurstEnterRows : Prop :=
  (∀ (s : State) (r : RingId) (d : RingDesc) (k : MemClass),
      (s.burstWaits .cell = true → exec .commandTakeStart s = .next s)
      ∧ (s.burstWaits .link = true → exec .linkTakeSourceLine s = .next s)
      ∧ (s.burstWaits .print = true → exec .fetchStart s = .next s)
      ∧ (s.wordWaits .cell = true →
        exec .responseCellAcknowledged s = .next s ∧ exec .snapshotAcknowledged s = .next s)
      ∧ (s.wordWaits .link = true → exec .linkReadComplete s = .next s)
      ∧ (s.wordWaits .print = true → ∀ i : Instr,
        i ∈ [.tagReadComplete, .windowReadComplete, .fetchComplete, .shiftInStart, .slewBegin]
          ∨ (∃ elapsed, i = .lineLatch elapsed) → exec i s = .next s)
      ∧ ((s.ring r).desc = some d → s.wordWaits (sideClass d.producer) = true →
        exec (.slotWritesAcknowledged r) s = .next s ∧ exec (.pageEndTagAcknowledged r) s = .next s)
      ∧ (s.burstWaits k = true ↔ ∃ b ∈ s.pmc.waiting, b.cls = k)
      ∧ (s.wordWaits k = true ↔ ∃ b ∈ s.pmc.waiting, b.cls = k ∧ (b.req = .word ∨ b.req = .respPut)))
      ∧ ∀ (s : State) (before after : List Burst) (b : Burst),
      (s.pmc.st = .starting ∨ s.pmc.st = .running ∨ s.pmc.st = .srExit) →
      s.pmc.waiting = before ++ b :: after →
      (∀ a ∈ before, a.dir = b.dir → a.cls ≠ b.cls) →
      (∀ a ∈ before ++ after, a.dir = b.dir → a.cls ≠ b.cls →
        if s.pmc.urgent then b.cls = .print ∨ (a.cls ≠ .print ∧ classRank b.cls < classRank a.cls)
        else classRank b.cls < classRank a.cls) →
      let e := { b with age := s.pmc.nextAge, passed := 0 }
      (b.dir = .read → s.pmc.readQ.length < 4 →
        exec (.burstEnter .read) s = .next (s.setPmc ({ s.pmc with
          waiting := before ++ after, nextAge := s.pmc.nextAge + 1, readQ := s.pmc.readQ ++ [e] }.grantPoint s.cfg)))
      ∧ (b.dir = .write → s.pmc.writeQ.length < 8 →
        exec (.burstEnter .write) s = .next (s.setPmc ({ s.pmc with
          waiting := before ++ after, nextAge := s.pmc.nextAge + 1, writeQ := s.pmc.writeQ ++ [e]
          drain := s.pmc.drain || decide (6 ≤ s.pmc.writeQ.length + 1) }.grantPoint s.cfg)))

/-- R130, R131, R133: REFRESH_END frees the DRAM and is a grant point; a refresh timer expiry adds 1 to refresh owed,
up to 8, and is a grant point; a close timer expiry closes its bank's row and leaves the other bank; in SR_ENTRY with
both queues empty, nothing owed and the DRAM FREE, SELF_REFRESH_ENTRY closes both rows, stops the refresh timer and
enters SELF_REFRESH. Nothing else of the state changes in any of them. -/
def Obligations.RefreshRows : Prop :=
  ∀ s : State,
      (s.pmc.act = .refresh → exec .refreshEnd s = .next (s.setPmc ({ s.pmc with act := .free }.grantPoint s.cfg)))
      ∧ (s.pmc.refreshTimer = true →
        exec .refreshTimerExpiry s = .next (s.setPmc ({ s.pmc with owed := min 8 (s.pmc.owed + 1) }.grantPoint s.cfg)))
      ∧ (s.pmc.bank0.closeTimer.isSome = true →
        exec (.closeTimerExpiry 0) s = .next (s.setPmc { s.pmc with bank0 := { openRow := none, closeTimer := none } }))
      ∧ (s.pmc.bank1.closeTimer.isSome = true →
        exec (.closeTimerExpiry 1) s = .next (s.setPmc { s.pmc with bank1 := { openRow := none, closeTimer := none } }))
      ∧ (s.pmc.st = .srEntry → s.pmc.readQ = [] → s.pmc.writeQ = [] → s.pmc.owed = 0 → s.pmc.act = .free →
        exec .selfRefreshEntry s = .next (s.setPmc { s.pmc with
          st := .selfRefresh, refreshTimer := false, bank0 := {}, bank1 := {} }))

/-- R119: For every transfer: its bursts lie end to end from its first halfword, carry its direction, class and
requester, and their lengths sum to its length; each is 1 to 16 halfwords long, ends at or before its row's end, and
ends only at 16 halfwords, at its row's end or at the transfer's end; a write's data are its halfwords in order; the
last burst, and it alone, is marked as the last. -/
def Obligations.TransferSplit : Prop :=
  ∀ (rowLen : Nat) (dir : Dir) (cls : MemClass) (req : Req) (h len : Nat) (data : List Half),
      0 < rowLen → (dir = .write → data.length = len) → (dir = .read → data = []) →
      let bs := cutBursts rowLen dir cls req len h len data
      (bs.map (·.len)).sum = len
      ∧ bs.flatMap (·.data) = data
      ∧ (∀ b ∈ bs, b.dir = dir ∧ b.cls = cls ∧ b.req = req ∧ 1 ≤ b.len ∧ b.len ≤ 16 ∧ b.half % rowLen + b.len ≤ rowLen)
      ∧ (∀ (before after : List Burst) (b : Burst), bs = before ++ b :: after →
          b.half = h + (before.map (·.len)).sum ∧ (b.last = true ↔ after = [])
          ∧ (b.len = 16 ∨ (b.half + b.len) % rowLen = 0 ∨ after = []))

/-- R175, R176, R182, R185, R187: A cell is given the slot (response put + writing list length) modulo Nr, which joins
the writing list, and its sixteen bytes are written there with class CELL. An event is written where a free unreserved
slot exists; where none does, its kind joins the summary and the dropped count goes up by 1, up to 255, both words (at
the control block's offsets 08 and 0A hex) are written with class CELL with the new values where either changed, and it
takes no slot; in NOT_STARTED it leaves the state as it is. A DONE takes 1 from the reserved count and its command
leaves flight. With both response indices in range, ATTN is asserted exactly while they differ or the summary is not
empty: a publication asserts it, and so does an event that found no slot. -/
def Obligations.CellHanding : Prop :=
  ∀ (s : State) (k : Kind) (tag : Byte) (code : Nat) (r : Result) (fields detail : List Byte) (mark : CellMark),
      let slot := (s.cells.respPut + s.cells.writing.length) % s.cfg.nr
      let address := s.cfg.cbAddr + 256 + 16 * s.cfg.nc + 16 * slot
      let bursts := fun (bytes : List Byte) => cutBursts s.cfg.rowLen .write .cell .respCell (bytesToHalves (cellBytes bytes)).length
        (address / 2) (bytesToHalves (cellBytes bytes)).length (bytesToHalves (cellBytes bytes))
      let word := fun (offset : Nat) (v : Half) => cutBursts s.cfg.rowLen .write .cell .word 1 ((s.cfg.cbAddr + offset) / 2) 1 [v]
      let summary := s.cells.summary ||| (1 <<< kindCode k)
      let dropped := min 255 (s.cells.dropped + 1)
      (s.cells.taking = .notStarted → s.handEvent k tag r fields mark = s)
      ∧ (s.cells.taking ≠ .notStarted → 0 < s.respFree →
          s.handEvent k tag r fields mark =
            (s.setCells { s.cells with writing := s.cells.writing ++ [⟨slot, mark⟩] }).setPmc { s.pmc with
              waiting := s.pmc.waiting ++ bursts ([byte (kindCode k), tag, byte (resultCode r)] ++ fields) })
      ∧ (s.cells.taking ≠ .notStarted → s.respFree = 0 →
          s.handEvent k tag r fields mark =
            (s.setCells { s.cells with summary := summary, dropped := dropped }).setPmc { s.pmc with
              waiting := s.pmc.waiting ++ if summary = s.cells.summary ∧ dropped = s.cells.dropped then []
                else word 0x08 summary ++ word 0x0A (BitVec.ofNat 16 dropped) })
      ∧ (s.cells.taking ≠ .notStarted → 0 < s.cells.reserved →
          s.handDone tag code r detail mark =
            (s.setCells { s.cells with
                writing := s.cells.writing ++ [⟨slot, mark⟩], reserved := s.cells.reserved - 1
                inFlight := s.cells.inFlight.erase ⟨code, tag⟩ }).setPmc { s.pmc with
              waiting := s.pmc.waiting ++ bursts ([0, tag, byte (resultCode r), byte code] ++ detail) })
      ∧ (s.cells.respPut < 2 * s.cfg.nr → s.cells.respTake < 2 * s.cfg.nr →
          (s.attn = true ↔ s.cells.respPut ≠ s.cells.respTake ∨ s.cells.summary ≠ 0)
          ∧ (s.cells.taking ≠ .notStarted → s.respFree = 0 → (s.handEvent k tag r fields mark).attn = true))

/-- R176, R183: For every state in which it holds: if a step answers a next state, the response occupancy, the writing
list and the reserved count together still stay within Nr, so that no cell is given a slot the host has not released;
and before the boot controller is READY the cell unit has taken nothing and holds no slot. -/
def Obligations.ResponseRoomKept : Prop :=
  ∀ s t : State, s.responseRoom → step s = .next t → t.responseRoom

/-- R120, R121, R129, R175, R179: COMMAND_TAKE_START, in TAKING with the reader IDLE, a command in the ring, a free
unreserved response slot, no taken command unjudged and no CELL burst waiting outside (log entry 24): the reserved
count goes up by 1 and a CELL-class read of the sixteen bytes of slot (command take modulo Nc) is issued. When that
read completes the command its bytes spell is handed, it is in flight under its code and tag, command take advances by
1 and its word is written, and the reader is IDLE: so does ACCESS_END of that read's access, which leaves memory as it
is, frees the DRAM, takes the entry from the read queue, leaves the bank's row open under a close timer of the close
interval, or closed where that is 0, and is a grant point. -/
def Obligations.CommandTaking : Prop :=
  ∀ (s : State),
      (s.cells.taking = .taking → s.cells.reading = none → 1 ≤ s.cmdOccupancy → 1 ≤ s.respFree → s.cells.handed = [] →
        (∀ b ∈ s.pmc.waiting, b.cls ≠ .cell) →
        exec .commandTakeStart s = .next ((s.setCells { s.cells with
            reserved := s.cells.reserved + 1, reading := some (s.cells.cmdTake % s.cfg.nc) }).issueRead .cell .cmdRead
          (s.cfg.cbAddr + 256 + 16 * (s.cells.cmdTake % s.cfg.nc)) 8))
      ∧ (∀ (slot : Nat) (bytes : List Byte), bytes.length = 16 → s.cells.reading = some slot → s.nothingFor .cmdRead →
        let i := decodeCell bytes
        (s.delivered .cmdRead (bytesToHalves bytes)).commandRead = (s.setCells { s.cells with
            cmdTake := (s.cells.cmdTake + 1) % (2 * s.cfg.nc), reading := none
            inFlight := s.cells.inFlight ++ [⟨(commandCode i).getD 0, commandTag i⟩]
            handed := s.cells.handed ++ [i] }).issueWrite .cell .word (s.cfg.cbAddr + 2)
          [BitVec.ofNat 16 ((s.cells.cmdTake + 1) % (2 * s.cfg.nc))])
      ∧ (∀ (slot cycles : Nat) (b : Burst), s.pmc.act = .access b cycles → b.dir = .read → b.req = .cmdRead → b.cls = .cell →
        b.last = true → 2 * (b.half + b.len) ≤ s.cfg.memSize → s.cells.reading = some slot → s.nothingFor .cmdRead →
        s.link.st ≠ .ending →
        let i := decodeCell (halvesToBytes (readHalves s.mem b.half b.len))
        let take := (s.cells.cmdTake + 1) % (2 * s.cfg.nc)
        let one := b.half / s.cfg.rowLen % s.cfg.banks = 1
        let bank : Bank := if s.cfg.closeInterval = 0 then {} else
          { openRow := (if one then s.pmc.bank1 else s.pmc.bank0).openRow, closeTimer := some s.cfg.closeInterval }
        exec .accessEnd s = .next ((s.setCells { s.cells with
            cmdTake := take, reading := none, inFlight := s.cells.inFlight ++ [⟨(commandCode i).getD 0, commandTag i⟩]
            handed := s.cells.handed ++ [i] }).setPmc (Pmc.grantPoint s.cfg { s.pmc with
          act := .free, readQ := s.pmc.readQ.filter (fun e => e.age ≠ b.age)
          bank0 := if one then s.pmc.bank0 else bank, bank1 := if one then bank else s.pmc.bank1
          waiting := s.pmc.waiting ++ cutBursts s.cfg.rowLen .write .cell .word 1 ((s.cfg.cbAddr + 2) / 2) 1
            [BitVec.ofNat 16 take] })))

/-- R5, R177, R178, R186: COMMAND_PUT_WRITE: a value of 2Nc or more, or one whose advance would bring the command
occupancy above Nc, is ignored with a FAULT cell of reason CELL_INDEX that carries the ring, the index, the value
written and the value held, with result DONE (log entry 10); any other becomes the command put. RESPONSE_TAKE_WRITE:
the same with Nr, where the advance may not exceed the response occupancy. SUMMARY_WORD_WRITE of 0 empties the summary
and the dropped count and writes both words; any other value leaves them and writes the summary word again with what is
held. CONTROL_BLOCK_WRITE, on a halfword that is no word the part acts on, takes the arrival and changes nothing.
Nothing else changes in any of them. -/
def Obligations.ControlBlockWrites : Prop :=
  ∀ (s : State) (v : Half) (offset : Byte),
      exec (.commandPutWrite v) (s.arrived 0 v) = .next
          (if v.toNat < 2 * s.cfg.nc
              ∧ s.cmdOccupancy + (v.toNat + 2 * s.cfg.nc - s.cells.cmdPut) % (2 * s.cfg.nc) ≤ s.cfg.nc then
            s.setCells { s.cells with cmdPut := v.toNat }
          else s.handEvent .fault 0 .done ([1, 0, 0] ++ twoBytes v.toNat ++ twoBytes s.cells.cmdPut))
      ∧ exec (.responseTakeWrite v) (s.arrived 6 v) = .next
          (if v.toNat < 2 * s.cfg.nr
              ∧ (v.toNat + 2 * s.cfg.nr - s.cells.respTake) % (2 * s.cfg.nr) ≤ s.respOccupancy then
            s.setCells { s.cells with respTake := v.toNat }
          else s.handEvent .fault 0 .done ([1, 1, 1] ++ twoBytes v.toNat ++ twoBytes s.cells.respTake))
      ∧ exec (.summaryWordWrite 0) (s.arrived 8 0) = .next
          (((s.setCells { s.cells with summary := 0, dropped := 0 }).issueWrite .cell .word (s.cfg.cbAddr + 8) [0]
            ).issueWrite .cell .word (s.cfg.cbAddr + 10) [0])
      ∧ (v ≠ 0 → exec (.summaryWordWrite v) (s.arrived 8 v) = .next
          (s.issueWrite .cell .word (s.cfg.cbAddr + 8) [s.cells.summary]))
      ∧ (s.actedOn offset.toNat = false →
          exec (.controlBlockWrite offset v) (s.arrived offset.toNat v) = .next s)

/-- R120, R182, R173, R154, R44, R159, R187: RESPONSE_CELL_ACKNOWLEDGED, with no word of the cell unit waiting outside
(log entry 24), takes the oldest slot from the writing list, advances response put and writes its word.
RESPONSE_PUT_ACKNOWLEDGED ends the oldest such word write: a plain cell has no further effect; a REBOOT's DONE begins
the cold start; the DONE of the SET POWER STANDBY that began entry is marked written, where no later one is under way;
the PAGE_SCANNED of an ending scan stream is marked written and the stream goes OFF where the DOC channel is at rest,
giving the channel back and detaching. A published cell asserts ATTN. With no word write waiting, a REBOOT's DONE that
was performed before RESET_N went low and is still to be acknowledged begins a cold start with cause REBOOT (log entry
28), and otherwise nothing happens. -/
def Obligations.ResponsePublication : Prop :=
  ∀ (s : State) (w : RespWriting) (writing : List RespWriting) (m : CellMark) (words : List CellMark),
      (s.cells.writing = w :: writing → s.wordWaits .cell = false →
        exec .responseCellAcknowledged (s.delivered .respCell []) = .next
          ((s.setCells { s.cells with
              writing := writing, respPut := (s.cells.respPut + 1) % (2 * s.cfg.nr)
              putWrites := s.cells.putWrites ++ [w.mark] }).issueWrite .cell .respPut (s.cfg.cbAddr + 4)
            [BitVec.ofNat 16 ((s.cells.respPut + 1) % (2 * s.cfg.nr))]))
      ∧ (s.cells.putWrites = m :: words →
        let t := s.setCells { s.cells with putWrites := words }
        exec .responsePutAcknowledged (s.delivered .respPut []) = .next
          (match m with
          | .plain => t
          | .reboot => t.coldStart .reboot
          | .standby =>
            if s.clk.power = .entering ∧ .standby ∉ words ∧ (∀ w ∈ s.cells.writing, w.mark ≠ .standby) then
              t.setClk { s.clk with doneWritten := true }
            else t
          | .pageScanned =>
            if s.scan.st = .ending ∧ s.scan.endCell = .handed then
              if s.doc.moving then t.setScan { s.scan with endCell := .written }
              else
                ((t.setScan { s.scan with endCell := .written, st := .off }).setRing s.scan.params.ring
                  { s.ring s.scan.params.ring with prodAttached := false }).setDoc { s.doc with owner := .host }
            else t))
      ∧ (s.cells.writing = w :: writing → s.wordWaits .cell = false → s.cells.respPut < 2 * s.cfg.nr →
          (s.cells.respPut + 1) % (2 * s.cfg.nr) ≠ s.cells.respTake → s.cells.respTake < 2 * s.cfg.nr →
          ∃ t, exec .responseCellAcknowledged (s.delivered .respCell []) = .next t ∧ t.attn = true)
      ∧ (s.cells.putWrites = [] → exec .responsePutAcknowledged s = .next
          (if s.boot.rebootAcked then s.coldStart .reboot else s))

/-- R188, R193, R109: SNAPSHOT_ACKNOWLEDGED, with no word of the cell unit waiting outside (log entry 24), ends the
snapshot being written; where one is owed it is written at the same event, with the sequence up by 1 modulo 65536 and
the values then held, from offset 20 hex of the control block; otherwise nothing more happens. A snapshot that falls
due is not written in NOT_STARTED, ENTERING, STANDBY or LEAVING, is owed while one is being written, and is written at
once otherwise. Its 32 halfwords are, in order: the sequence; the twelve sense positions, reading and zone, 0 and
UNKNOWN beyond the list; HOOK and KEY; the ring count; each channel's state, owner and pattern; the scan and print
states; the pause reason and link state; the power state and ratio; the core source and switch state; the switch's
target and the source before standby, FF hex where absent; CLOCK_FAILED; the boot cause and state; the defaulted
tables; the images; the reserved count; the commands in flight; STOP ALL in flight and the loader LOADING; the sequence
again. -/
def Obligations.SnapshotWriting : Prop :=
  ∀ s : State,
      let written := fun (t : State) =>
        (t.setCells { t.cells with
            sequence := (t.cells.sequence + 1) % 65536, snapBusy := true, snapOwed := false }).issueWrite .cell .snapshot
          (t.cfg.cbAddr + 0x20) (t.snapshotHalves ((t.cells.sequence + 1) % 65536) t.boot.st)
      (s.cells.snapBusy = true → s.wordWaits .cell = false →
        exec .snapshotAcknowledged (s.delivered .snapshot []) = .next
          (if s.cells.snapOwed then written (s.setCells { s.cells with snapBusy := false })
           else s.setCells { s.cells with snapBusy := false }))
      ∧ s.snapshotDue =
        (if s.cells.taking = .notStarted ∨ (s.clk.power ≠ .run ∧ s.clk.power ≠ .slow) then s
         else if s.cells.snapBusy then s.setCells { s.cells with snapOwed := true } else written s)
      ∧ ∀ (n : Nat) (b : BootState),
        let at' := fun (k : Nat) => (s.snapshotHalves n b).getD k 0
        let two := fun (low high : Nat) => (BitVec.ofNat 8 high ++ BitVec.ofNat 8 low : Half)
        let source := fun (g : Option Source) => match g with
          | none => 0xFF | some .crystal => 0 | some .crystalX2 => 1 | some .fastRc => 2 | some .slowRc => 3
        let bit := fun (x : Bool) => if x then 1 else 0
        (s.snapshotHalves n b).length = 32 ∧ at' 0 = BitVec.ofNat 16 n ∧ at' 31 = BitVec.ofNat 16 n
        ∧ (∀ j < 12, at' (1 + j) = match s.sense.list[j]? with
            | some e => two e.reading (match e.zone with | .unknown => 0 | .low => 1 | .mid => 2 | .high => 3)
            | none => 0)
        ∧ at' 13 = two (bit s.lines.hook.stable) (bit s.lines.key.stable)
        ∧ at' 14 = BitVec.ofNat 16 s.lines.ringCount
        ∧ at' 15 = two (chanStateCode s.doc.st) (ownerCode s.doc.owner) ∧ at' 16 = BitVec.ofNat 16 s.doc.pattern.val
        ∧ at' 17 = two (chanStateCode s.paper.st) (ownerCode s.paper.owner) ∧ at' 18 = BitVec.ofNat 16 s.paper.pattern.val
        ∧ at' 19 = two (scanStateCode s.scan.st) (printStateCode s.print.st)
        ∧ at' 20 = two (match s.print.pauseReason with | some r => printReasonCode r | none => 0xFF) (linkStateCode s.link.st)
        ∧ at' 21 = two (match s.clk.power with | .run => 0 | .slow => 1 | .entering => 2 | .standby => 3 | .leaving => 4)
            s.clk.ratio
        ∧ at' 22 = two (source (some s.clk.core)) (switchStateCode s.clk.sw.st)
        ∧ at' 23 = two (source s.clk.sw.target) (source s.clk.sourceBefore)
        ∧ at' 24 = BitVec.ofNat 16 (bit s.clk.failed)
        ∧ at' 25 = two (coldCauseCode s.boot.cause) (bootStateCode b)
        ∧ at' 26 = s.boot.defaulted ∧ at' 27 = BitVec.ofNat 16 s.boot.images
        ∧ at' 28 = BitVec.ofNat 16 s.cells.reserved ∧ at' 29 = BitVec.ofNat 16 s.cells.inFlight.length
        ∧ at' 30 = BitVec.ofNat 16 (bit s.cells.stopAll.isSome + 2 * bit (s.cells.loader != .idle))

/-- R189, R190: An accepted LOAD TABLE (not in ENTERING, a table id that exists, a length of 1 to 4096 halfwords, an
even source inside memory, the loader IDLE, the table not in use) puts the loader in LOADING and issues its source's
reads, above 2048 halfwords as two transfers (log entry 16). When the reads of a source of at most 2048 halfwords
complete, the loader is IDLE and the load area holds the source: where its values are bad the DONE is BAD_ARG, else
where the table is now in use IN_USE, and the table is as it was; else the table is installed whole and the DONE is
DONE with the table id and length. A source above 2048 halfwords leaves its first 2048 in the load area and is BAD_ARG.
Before that, a failed check refuses at once, in that order: BUSY, BAD_ARG, BUSY, IN_USE. The twelve ids are SHADING,
TONE, HEAT, SENSE and PROFILE_0 to PROFILE_7, 0 to 11. SHADING and TONE are in use while the scan stream is in any
state but OFF, a profile while a channel is in RUN, MOVE or STOPPING with it, HEAT and SENSE never. A source is read by
its own table's format, and installed, it replaces the shading table, the tone table, the heat table, that one
profile's list or the pending sense list, and nothing else. -/
def Obligations.TableLoading : Prop :=
  ∀ (s : State) (tag table : Byte) (length : Half) (source : Word) (id : TableId) (n : Nat) (data : List Half),
      let good := 1 ≤ length.toNat ∧ length.toNat ≤ 4096 ∧ source.toNat % 2 = 0
        ∧ source.toNat + 2 * length.toNat ≤ s.cfg.memSize
      (tableIdOf table.toNat = some id →
        exec (.loadTable tag table length source) (s.given (.loadTable tag table length source)) = .next
          (if s.clk.power = .entering then s.handDone tag 1 .busy
           else if ¬good then s.handDone tag 1 .badArg
           else if s.cells.loader ≠ .idle then s.handDone tag 1 .busy
           else if s.tableInUse id then s.handDone tag 1 .inUse
           else
            let t := s.setCells { s.cells with loader := .loading tag id source.toNat length.toNat }
            if length.toNat ≤ 2048 then t.issueRead .table .tableLoad source.toNat length.toNat
            else (t.issueRead .table .tableLoad source.toNat 2048).issueRead .table .tableLoad (source.toNat + 4096)
              (length.toNat - 2048)))
      ∧ (tableIdOf table.toNat = none →
        exec (.loadTable tag table length source) (s.given (.loadTable tag table length source)) = .next
          (s.handDone tag 1 (if s.clk.power = .entering then .busy else .badArg)))
      ∧ (s.cells.loader = .loading tag id source.toNat n → 1 ≤ n → n ≤ 2048 → data.length = n → s.nothingFor .tableLoad →
        let t := (s.setCells { s.cells with loader := .idle }).setTables { s.tables with loadArea := data }
        exec .tableLoadReadsComplete (s.delivered .tableLoad data) = .next
          (match parseTable id data with
          | none => t.handDone tag 1 .badArg
          | some x =>
            if s.tableInUse id then t.handDone tag 1 .inUse
            else (t.installTable x).handDone tag 1 .done ([byte (tableIdCode id), 0] ++ twoBytes n)))
      ∧ (∀ rest : List Half, s.cells.loader = .loading tag id source.toNat n → data.length = 2048 → n = 2048 + rest.length →
        rest ≠ [] → s.nothingFor .tableLoad →
        exec .tableLoadReadsComplete ((s.delivered .tableLoad rest).delivered .tableLoad data) = .next
          (((s.setCells { s.cells with loader := .idle }).setTables { s.tables with loadArea := data }).handDone tag 1 .badArg))
      ∧ (∀ code : Nat, tableIdOf code = some id ↔
          code = match id with | .shading => 0 | .tone => 1 | .heat => 2 | .sense => 3 | .profile k => 4 + k.val)
      ∧ (let movesWith := fun (c : Channel) (k : Fin 8) => (c.st = .run ∨ c.st = .move ∨ c.st = .stopping) ∧ c.profile = k
         s.tableInUse id = true ↔ match id with
          | .shading | .tone => s.scan.st ≠ .off
          | .heat | .sense => False
          | .profile k => movesWith s.doc k ∨ movesWith s.paper k)
      ∧ (let installs := fun (x : Option State) => (parseTable id data).map s.installTable = x
         match id with
          | .shading => installs ((parseShading data).map fun t => s.setTables { s.tables with shading := t })
          | .tone => installs ((parseTone data).map fun t => s.setTables { s.tables with tone := t })
          | .heat => installs ((parseHeat data).map fun t => s.setTables { s.tables with heat := some t })
          | .sense => installs ((parseSense data).map fun t => s.setSense { s.sense with pendingList := some t })
          | .profile k =>
            installs ((parseProfile data).map fun t => s.setTables { s.tables with profiles := s.tables.profiles.set k.val t }))

/-- R195, R63, R82, R101, R164: A heat source is good exactly where it has 19 halfwords with sixteen band pulses of 1
to 2047, a boost of at most 1023, an interval of 1 to 65534 and a maximum of 1 to 2047; a profile source exactly where
its count is 1 to 64, that many intervals follow and each is at least 16; a shading source exactly where it has 2048
halfwords and a tone source exactly where it has 128; a sense source exactly where its count is at most 12, its period
above 0, its standby interval at most 255, its length 2 + 3 x count, each entry has a channel of at most 7, a gain of
1, 2, 4 or 8, low at most high, a hysteresis of at most 63 and a role that exists, and no role but NONE stands twice.
Each table holds the values at the places 10.8 gives. A configuration record is good exactly where it has 17 halfwords,
each field lies in its range of R164 and the control area lies inside the memory, and it gives each field at its place. -/
def Obligations.TableSources : Prop :=
  ∀ d : List Half,
      let lo := fun i => (lowByte (d.getD i 0)).toNat
      let hi := fun i => (highByte (d.getD i 0)).toNat
      let hw := fun i => (d.getD i 0).toNat
      let role := fun j => (d.getD (4 + 3 * j) 0).toNat / 256 % 16
      let address := (wordOf (d.getD 15 0) (d.getD 16 0)).toNat
      ((parseHeat d).isSome = true ↔ d.length = 19 ∧ (∀ j < 16, 1 ≤ (d.getD j 0).toNat ∧ (d.getD j 0).toNat ≤ 2047)
        ∧ (d.getD 16 0).toNat ≤ 1023 ∧ 1 ≤ (d.getD 17 0).toNat ∧ (d.getD 17 0).toNat ≤ 65534
        ∧ 1 ≤ (d.getD 18 0).toNat ∧ (d.getD 18 0).toNat ≤ 2047)
      ∧ (∀ t, parseHeat d = some t → t = ⟨(d.take 16).map (·.toNat), hw 16, hw 17, hw 18⟩)
      ∧ ((parseProfile d).isSome = true ↔ 1 ≤ (d.getD 0 0).toNat ∧ (d.getD 0 0).toNat ≤ 64
        ∧ d.length = (d.getD 0 0).toNat + 1 ∧ ∀ j < (d.getD 0 0).toNat, 16 ≤ (d.getD (j + 1) 0).toNat)
      ∧ (∀ t, parseProfile d = some t → t = (d.drop 1).map (·.toNat))
      ∧ ((parseShading d).isSome = true ↔ d.length = 2048) ∧ ((parseTone d).isSome = true ↔ d.length = 128)
      ∧ (∀ t, parseShading d = some t → t.length = 2048 ∧ ∀ j < 2048, t.getD j {} = ⟨hw j / 1024, hw j % 1024⟩)
      ∧ (∀ t, parseTone d = some t → t.length = 256 ∧ ∀ j < 128, t.getD (2 * j) 0 = lo j ∧ t.getD (2 * j + 1) 0 = hi j)
      ∧ ((parseSense d).isSome = true ↔ lo 0 ≤ 12 ∧ 1 ≤ hi 0 ∧ hw 1 ≤ 255 ∧ d.length = 2 + 3 * lo 0
        ∧ (∀ j < lo 0, lo (2 + 3 * j) ≤ 7 ∧ hi (2 + 3 * j) ∈ [1, 2, 4, 8] ∧ lo (3 + 3 * j) ≤ hi (3 + 3 * j)
          ∧ lo (4 + 3 * j) ≤ 63 ∧ role j ≤ 6)
        ∧ ∀ k < lo 0, ∀ j < k, role j = role k → role j = 0)
      ∧ (∀ t : SenseTable, parseSense d = some t → t.period = hi 0 ∧ t.standby = hw 1 ∧ t.entries.length = lo 0
        ∧ ∀ j < lo 0, ∃ e, t.entries[j]? = some e ∧ e.channel = lo (2 + 3 * j) ∧ e.gain = hi (2 + 3 * j)
          ∧ e.low = lo (3 + 3 * j) ∧ e.high = hi (3 + 3 * j) ∧ e.hyst = lo (4 + 3 * j) ∧ roleCode e.role = role j
          ∧ e.report = (d.getD (4 + 3 * j) 0).getLsbD 12 ∧ e.wake = (d.getD (4 + 3 * j) 0).getLsbD 13)
      ∧ ((parseConfig d).isSome = true ↔ d.length = 17 ∧ lo 0 ≤ 3 ∧ (hi 0 = 1 ∨ hi 0 = 2) ∧ (hw 1 = 512 ∨ hw 1 = 1024)
        ∧ (1 ≤ lo 2 ∧ lo 2 ≤ 15) ∧ (1 ≤ hi 2 ∧ hi 2 ≤ 15) ∧ (1 ≤ lo 3 ∧ lo 3 ≤ 15) ∧ (1 ≤ hi 3 ∧ hi 3 ≤ 15)
        ∧ (8 ≤ lo 4 ∧ lo 4 ≤ 63) ∧ lo 5 ≤ 63 ∧ hi 5 ≤ 63 ∧ (1 ≤ lo 6 ∧ lo 6 ≤ 63)
        ∧ ((hi 6 = 0 ∧ lo 5 ≠ 0) ∨ (hi 6 = 1 ∧ hi 5 ≠ 0) ∨ hi 6 = 2)
        ∧ lo 7 ∈ [1, 2, 4] ∧ hi 7 ∈ [1, 2, 4] ∧ lo 8 ∈ [1, 2, 4] ∧ hi 8 ≤ 1 ∧ lo 9 ≤ 1 ∧ hi 9 ≤ 1
        ∧ (2 ≤ lo 10 ∧ lo 10 ≤ 64) ∧ (2 ≤ hi 10 ∧ hi 10 ≤ 64) ∧ (2 ≤ lo 11 ∧ lo 11 ≤ 15) ∧ 8 ≤ hi 11 ∧ 1 ≤ lo 12
        ∧ (16 ≤ hw 13 ∧ hw 13 ≤ 256) ∧ (16 ≤ hw 14 ∧ hw 14 ≤ 256) ∧ address % 256 = 0
        ∧ address + 256 + 16 * hw 13 + 16 * hw 14 ≤ 0x80000 * 2 ^ lo 0)
      ∧ ∀ c, parseConfig d = some c → c = {
          memSize := 0x80000 * 2 ^ lo 0, banks := hi 0, rowLen := hw 1, precharge := lo 2, rowOpen := hi 2, column := lo 3
          refreshCount := hi 3, refreshInterval := lo 4, closeInterval := hi 4, preX := lo 5, preX2 := hi 5, preRc := lo 6
          initial := if hi 6 = 0 then .crystal else if hi 6 = 1 then .crystalX2 else .fastRc
          divX := lo 7, divX2 := hi 7, divRc := lo 8, monitor := decide (hi 8 = 1)
          docMode := if lo 9 = 0 then .half else .full, paperMode := if hi 9 = 0 then .half else .full
          sensorDiv := lo 10, headDiv := hi 10, ringQ := lo 11, edgeGap := hi 11, burstGap := lo 12
          nc := hw 13, nr := hw 14, cbAddr := address }

/-- R191, R192, R86, R24, R176: With no STOP ALL in flight: STOP_ALL answers a next state in which each channel in RUN
or MOVE is STOPPING with i + 1 steps remaining and stop cause STOPPED (R86: one that has i + 1 left changes its state
alone) and every other channel is as before, but that a scan stream that goes OFF gives DOC back to the host; an active
print stream is ending, with reason ABORTED unless a reason stood already; the scan stream is OFF or ENDING, or in CAL
with its sums being written: one cut in WAIT_EDGE, CAPTURE, STALLED, TRAILING or CAL has end reason ABORTED, unless a
cut gave a reason while a calibration's sums were being written (log entry 22), and in OFF or ENDING it keeps what it
had; the link is OFF or ENDING, owing its STREAM cell there; memory, the clock and power unit, the sense unit and the
line inputs are as before. Where both streams, the link and both channels are at rest already, it completes at once
with a snapshot due and DONE whose detail is 0. Otherwise it is in flight, with its tag and what it found active, on or
moving; a link already ENDING owes its STREAM cell and is otherwise as before. One in flight refuses a second BUSY.
STOP_ALL_COMPLETE, with all at rest, ends the one in flight with its DONE showing what it stopped: byte 4, the detail's
first, has bit 0 for the scan stream, 1 for the print stream, 2 for the link, 3 for DOC and 4 for PAPER. -/
def Obligations.StopAllRows : Prop :=
  ∀ (s : State) (tag : Byte) (x : StopAll),
      let stop := fun (c : Channel) => if c.st ≠ .run ∧ c.st ≠ .move then c
        else if c.remaining = some (c.ramp + 1) then { c with st := .stopping }
        else { c with st := .stopping, remaining := some (c.ramp + 1), stopCause := some .stopped }
      (s.cells.stopAll = none →
        ∃ t, exec (.stopAll tag) (s.given (.stopAll tag)) = .next t
          ∧ t.doc = { stop s.doc with
              owner := if s.scan.st ≠ .off ∧ t.scan.st = .off then .host else s.doc.owner }
          ∧ t.paper = stop s.paper
          ∧ (s.print.st ≠ .off → t.print.ending = some (s.print.ending.getD .aborted))
          ∧ t.scan.endReason = (match s.scan.st with
              | .off | .ending => s.scan.endReason
              | .waitEdge | .capture | .stalled | .trailing => some .aborted
              | .cal => if s.scan.calWriting then some (s.scan.endReason.getD .aborted) else some .aborted)
          ∧ (t.scan.st = .off ∨ t.scan.st = .ending ∨ (t.scan.st = .cal ∧ s.scan.calWriting = true))
          ∧ (t.link.st = .off ∨ t.link.st = .ending)
          ∧ (s.link.st = .ending → t.link = { s.link with abortCell := true }) ∧ (t.link.st = .ending → t.link.abortCell = true)
          ∧ t.cells.stopAll = (if t.scan.st = .off ∧ t.print.st = .off ∧ t.link.st = .off ∧ t.doc.moving = false
              ∧ t.paper.moving = false then none
            else some ⟨tag, s.scan.active, s.print.active, decide (s.link.st ≠ .off), s.doc.moving, s.paper.moving⟩)
          ∧ t.mem = s.mem ∧ t.clk = s.clk ∧ t.sense = s.sense ∧ t.lines = s.lines ∧ t.tables = s.tables ∧ t.boot = s.boot)
      ∧ (s.cells.stopAll = none → s.scan.st = .off → s.print.st = .off → s.link.st = .off → s.doc.moving = false →
          s.paper.moving = false →
          exec (.stopAll tag) (s.given (.stopAll tag)) = .next (s.snapshotDue.handDone tag 16 .done [0]))
      ∧ (s.cells.stopAll.isSome = true →
          exec (.stopAll tag) (s.given (.stopAll tag)) = .next (s.handDone tag 16 .busy))
      ∧ (s.cells.stopAll = some x → s.scan.st = .off → s.print.st = .off → s.link.st = .off → s.doc.moving = false →
          s.paper.moving = false →
          exec .stopAllComplete s = .next ((s.setCells { s.cells with stopAll := none }).snapshotDue.handDone x.tag 16 .done
            [byte ((if x.scan then 1 else 0) + (if x.print then 2 else 0) + (if x.link then 4 else 0)
              + (if x.doc then 8 else 0) + (if x.paper then 16 else 0))]))

/-- R16, R175: For every SET RING: a ring id above 3 is BAD_ARG; an attached ring IN_USE; a slot count outside 2 to
1024 or line words outside 1 to 64, an identity that is none of its side's, both LINK or both HOST, a base that is no
multiple of 4, a region that passes the memory size or overlaps the control area is BAD_ARG; a refused one leaves
everything but its DONE as it was. Otherwise the ring has the new descriptor, put and take 0, nothing attached, held or
writing; both index words are written with 0, a host-owned one with class CELL (log entry 16), and the DONE is DONE. -/
def Obligations.SetRingRow : Prop :=
  ∀ (s : State) (tag ring p c : Byte) (slots words : Half) (base : Word),
      let i : Instr := .setRing tag ring p c slots words base
      let len := slots.toNat * (8 + 4 * words.toNat)
      (4 ≤ ring.toNat → exec i (s.given i) = .next (s.handDone tag 2 .badArg))
      ∧ ∀ r : RingId, r.val = ring.toNat →
        ((s.ring r).attached = true → exec i (s.given i) = .next (s.handDone tag 2 .inUse))
        ∧ ((s.ring r).attached = false →
          (∀ (producer consumer : Side),
            2 ≤ slots.toNat → slots.toNat ≤ 1024 → 1 ≤ words.toNat → words.toNat ≤ 64 →
            sideOf p.toNat = some producer → sideOf c.toNat = some consumer →
            producer ≠ .print → consumer ≠ .scan → ¬(producer = .link ∧ consumer = .link) →
            ¬(producer = .host ∧ consumer = .host) → base.toNat % 4 = 0 → base.toNat + len ≤ s.cfg.memSize →
            (base.toNat + len ≤ s.cfg.cbAddr ∨ s.cfg.cbAddr + (256 + 16 * (s.cfg.nc + s.cfg.nr)) ≤ base.toNat) →
            exec i (s.given i) = .next ((((s.setRing r
                { desc := some ⟨base.toNat, slots.toNat, words.toNat, producer, consumer⟩ }).issueWrite
                (sideClass producer) .word (s.cfg.cbAddr + (0x10 + 4 * r.val)) [0]).issueWrite
                (sideClass consumer) .word (s.cfg.cbAddr + (0x12 + 4 * r.val)) [0]).handDone tag 2 .done))
          ∧ (slots.toNat < 2 ∨ 1024 < slots.toNat ∨ words.toNat = 0 ∨ 64 < words.toNat ∨ 4 ≤ p.toNat ∨ 4 ≤ c.toNat
              ∨ p.toNat = 1 ∨ c.toNat = 0 ∨ (p.toNat = 2 ∧ c.toNat = 2) ∨ (p.toNat = 3 ∧ c.toNat = 3)
              ∨ base.toNat % 4 ≠ 0 ∨ s.cfg.memSize < base.toNat + len
              ∨ (base.toNat < s.cfg.cbAddr + (256 + 16 * (s.cfg.nc + s.cfg.nr)) ∧ s.cfg.cbAddr < base.toNat + len) →
            exec i (s.given i) = .next (s.handDone tag 2 .badArg)))

/-- R5, R6, R7, R8, R13, R48: On a ring whose producer is HOST, a put of 2S or more, or one whose advance would bring
the occupancy above S, is ignored with a FAULT cell that carries the ring, the index, the value written and the value
held, with result DONE (log entry 10); any other becomes put. On a ring whose consumer is HOST, a take of 2S or more,
or one whose advance is greater than the occupancy, is ignored likewise; any other becomes take. Where it moves take
and a scan stream on the ring is STALLED with the DOC channel in HOLD and the free slots now at its restart margin or
more, the stream returns to the state it stalled from and the DOC channel runs forward from its start interval with
host command tag 0 (log entry 26); nothing else changes. On a ring that is UNDEFINED, or whose index the host does not
own, the write has no effect and no cell is written. -/
def Obligations.HostIndexWrites : Prop :=
  ∀ (s : State) (r : RingId) (v : Half),
      let x := s.ring r
      let put := exec (.lineRingPutWrite r v) (s.arrived (0x10 + 4 * r.val) v)
      let take := exec (.lineRingTakeWrite r v) (s.arrived (0x12 + 4 * r.val) v)
      (∀ d, x.desc = some d → d.producer = .host → put = .next
          (if v.toNat < 2 * d.slots ∧ x.occupancy d + (v.toNat + 2 * d.slots - x.put) % (2 * d.slots) ≤ d.slots then
            s.setRing r { x with put := v.toNat }
          else s.handEvent .fault 0 .done ([0, byte r.val, 0] ++ twoBytes v.toNat ++ twoBytes x.put)))
      ∧ (∀ d, x.desc = some d → d.consumer = .host → take = .next
          (if v.toNat < 2 * d.slots ∧ (v.toNat + 2 * d.slots - x.take) % (2 * d.slots) ≤ x.occupancy d then
            let t := s.setRing r { x with take := v.toNat }
            if v.toNat ≠ x.take ∧ s.scan.st = .stalled ∧ s.scan.params.ring = r ∧ s.doc.st = .hold
                ∧ s.scan.params.restartMargin ≤ ({ x with take := v.toNat } : Ring).free d then
              (t.setDoc { s.doc with
                st := .run, requester := .scan, direction := .forward, profile := s.scan.params.profile, requested := none
                remaining := none, ramp := 0, taken := 0, stopCause := none, tag := 0
                timer := some ((s.profile s.scan.params.profile).getD 0 0) }).setScan { s.scan with st := s.scan.stalledFrom }
            else t
          else s.handEvent .fault 0 .done ([0, byte r.val, 1] ++ twoBytes v.toNat ++ twoBytes x.take)))
      ∧ ((∀ d, x.desc = some d → d.producer ≠ .host) → put = .next s)
      ∧ ((∀ d, x.desc = some d → d.consumer ≠ .host) → take = .next s)

/-- R4, R9, R10, R11, R13, R6, R7, R16, R19: For a ring of S slots with indices below 2S whose occupancy, held slot and
writing slots stay within S: a claim given a free slot adds one writing slot, and none beside; an acknowledgement of
the oldest writing slot takes it from the list, and either it becomes held with nothing published, or the slot held
before is published, the occupancy up by 1, so that the sum stays; a page end's publication of the held slot turns it
into an occupied one; a release of n slots, at most the occupancy, lowers the occupancy by n. The slot claimed is (put
+ held + writing) modulo S. And over all rows: for every state in which each defined ring has its indices below 2S and
its occupancy, held and writing slots within S, a HOST producer holds and claims none, a tag is rewritten only for a
held slot, an active page stream and a link that is on have their own side of the ring they fill attached, and a
READING link has a free destination slot: if a step answers a next state, it is so there. -/
def Obligations.RingCounts : Prop :=
  (∀ s t : State, s.ringsBounded = true → step s = .next t → t.ringsBounded = true)
      ∧ ∀ (s : State) (r : RingId) (d : RingDesc) (tag : Tag) (words : List Word) (c : Claim) (rest : List Claim) (n : Nat),
      let x := s.ring r
      let sum := fun (y : Ring) => y.occupancy d + (if y.held.isSome then 1 else 0) + y.writing.length
      x.desc = some d → x.put < 2 * d.slots → x.take < 2 * d.slots → sum x ≤ d.slots →
      (sum x < d.slots →
        let y := (s.claimSlot r d tag words none).ring r
        sum y = sum x + 1 ∧ y.put = x.put ∧ y.take = x.take ∧ y.held = x.held
        ∧ y.writing = x.writing ++ [⟨(x.put + (if x.held.isSome then 1 else 0) + x.writing.length) % d.slots, tag, none, false⟩])
      ∧ (x.writing = c :: rest → c.abandoned = false →
        let y := (s.acknowledgeSlot r d c rest).ring r
        sum y = sum x ∧ y.writing = rest ∧ y.held = some ⟨c.slot, c.tag⟩ ∧ y.take = x.take
        ∧ y.put = (if x.held.isSome then (x.put + 1) % (2 * d.slots) else x.put))
      ∧ (x.held.isSome = true →
        let y := (s.finishPageEnd r d).ring r
        sum y = sum x ∧ y.held = none ∧ y.put = (x.put + 1) % (2 * d.slots) ∧ y.take = x.take)
      ∧ (1 ≤ n → n ≤ x.occupancy d →
        let y := (s.releaseTake r n).ring r
        y.occupancy d + n = x.occupancy d ∧ y.put = x.put ∧ y.held = x.held ∧ y.writing = x.writing
        ∧ y.take = (x.take + n) % (2 * d.slots))

/-- R10, R11, R31, R23, R20, R21, R22, R24, R44, R45, R120: Each row acts with no word of the producer's class waiting
outside (log entry 24). SLOT_WRITES_ACKNOWLEDGED on a ring a scan stream produces: the oldest writing slot leaves the
list and becomes held with its tag, its staging buffer in WRITING is FREE; where a slot was held, put advances by 1 and
its word is written with class SCAN; a page end that waited for the last writing slot then begins; nothing else
changes. A slot its producer abandoned leaves the list and changes nothing else; where it was the last and a page end
waited, that begins on the held slot, or with none held is complete, and an ENDING link with no read out goes OFF. A
page-end request with nothing writing and a slot held writes its tag again with END_OF_PAGE, and with LOST_TAIL where
the request says so; with none held the ring is as it was. PAGE_END_TAG_ACKNOWLEDGED then answers a next state in which
put is up by 1, no slot is held and the page end is complete; the writing list is as before but where a READING link
whose emission waited for this page end claims the next slot. A scan stream ENDING on the ring then hands PAGE_SCANNED
with its bytes of 10.6, and where no slot took it and DOC is at rest is OFF, detached. A WRITING link is in WAIT again;
one in WAIT, READING with nothing to emit, or ENDING with a read or write out stays so. A link ENDING on the ring, with
nothing writing and no read of its own out, then goes OFF and detaches, whoever holds its source ring, after the STREAM
cell a STOP ALL owes (log entry 10). -/
def Obligations.SlotAndPageEndRows : Prop :=
  ∀ (s : State) (r : RingId) (d : RingDesc) (c : Claim) (rest : List Claim) (h : Held) (lost : Bool) (p : PageEnd),
      let x := s.ring r
      let free := fun (t : State) => t.setScan (match c.buf with
        | some .a => { t.scan with bufA := {} }
        | some .b => { t.scan with bufB := {} }
        | none => t.scan)
      let put := (x.put + 1) % (2 * d.slots)
      let goes := s.wordWaits (sideClass d.producer) = false
      x.desc = some d →
      (goes → d.producer = .scan → x.writing = c :: rest → c.abandoned = false →
        (c.buf = some .a → s.scan.bufA.st = .writing) → (c.buf = some .b → s.scan.bufB.st = .writing) →
        exec (.slotWritesAcknowledged r) (s.delivered (.slotTag r) []) = .next
          ((if x.held.isSome then
            free ((s.setRing r { x with writing := rest, put := put, held := some ⟨c.slot, c.tag⟩ }).issueWrite .scan .word
              (s.cfg.cbAddr + (0x10 + 4 * r.val)) [BitVec.ofNat 16 put])
          else free (s.setRing r { x with writing := rest, held := some ⟨c.slot, c.tag⟩ })).beginPageEnd r d))
      ∧ (goes → x.writing = c :: rest → x.pageEnd = none → c.abandoned = true →
        exec (.slotWritesAcknowledged r) (s.delivered (.slotTag r) []) = .next (s.setRing r { x with writing := rest }))
      ∧ (x.pageEnd = none → x.writing = [] → x.held = some h →
        let tag := { h.tag with endOfPage := true, lostTail := h.tag.lostTail || lost }
        (s.askPageEnd r lost).beginPageEnd r d =
          (s.setRing r { x with held := some ⟨h.slot, tag⟩, pageEnd := some ⟨lost, true⟩ }).issueWrite
            (sideClass d.producer) (.pageEndTag r) (d.base + h.slot * (8 + 4 * d.words)) (tagHalves tag))
      ∧ (x.pageEnd = none → x.writing = [] → x.held = none → (s.askPageEnd r lost).beginPageEnd r d = s)
      ∧ (goes → x.pageEnd = some p → p.rewriting = true →
        ∃ t, exec (.pageEndTagAcknowledged r) (s.delivered (.pageEndTag r) []) = .next t
          ∧ (t.ring r).put = put ∧ (t.ring r).held = none ∧ (t.ring r).pageEnd = none
          ∧ (t.ring r).take = x.take ∧ (t.ring r).desc = x.desc
          ∧ (¬(d.producer = .link ∧ s.link.st = .reading ∧ s.link.emitPending = true ∧ s.link.destRing = r) →
              (t.ring r).writing = x.writing)
          ∧ t.mem = s.mem ∧ t.clk = s.clk ∧ t.sense = s.sense ∧ t.lines = s.lines ∧ t.tables = s.tables ∧ t.boot = s.boot
          ∧ t.print = s.print ∧ t.paper = s.paper)
      ∧ (goes → x.writing = [c] → c.abandoned = true → x.pageEnd = some ⟨lost, false⟩ →
        (x.held = some h →
          let tag := { h.tag with endOfPage := true, lostTail := h.tag.lostTail || lost }
          exec (.slotWritesAcknowledged r) (s.delivered (.slotTag r) []) = .next
            ((s.setRing r { x with writing := [], held := some ⟨h.slot, tag⟩, pageEnd := some ⟨lost, true⟩ }).issueWrite
              (sideClass d.producer) (.pageEndTag r) (d.base + h.slot * (8 + 4 * d.words)) (tagHalves tag)))
        ∧ (x.held = none → d.producer = .link → s.link.destRing = r → s.link.st = .ending → s.link.readsOut = false →
          s.link.abortCell = false →
          exec (.slotWritesAcknowledged r) (s.delivered (.slotTag r) []) = .next
            ((s.setRing r { x with writing := [], pageEnd := none, prodAttached := false }).setLink { s.link with st := .off })))
      ∧ (goes → x.pageEnd = some p → p.rewriting = true → d.producer = .scan → s.scan.params.ring = r → s.scan.st = .ending →
        s.scan.params.mode ≠ .cal → ∀ reason, s.scan.endReason = some reason →
        let v := (s.setRing r { x with put := put, held := none, pageEnd := none }).issueWrite .scan .word
          (s.cfg.cbAddr + (0x10 + 4 * r.val)) [BitVec.ofNat 16 put]
        let u := v.handEvent .pageScanned 0
          (match reason with
            | .edge | .limit | .cal => .done
            | .aborted => .aborted
            | .stopped | .cover | .supply | .clock | .noDocument => .failed)
          ([byte r.val, byte (scanReasonCode reason), if 0 < s.scan.lostSinceWritten then 1 else 0]
            ++ twoBytes s.scan.linesWritten ++ twoBytes s.scan.lostNoBuffer ++ twoBytes s.scan.lostOverrun
            ++ twoBytes s.scan.lostNoSlot ++ [byte s.scan.stallCount]) .pageScanned
        exec (.pageEndTagAcknowledged r) (s.delivered (.pageEndTag r) []) = .next
          (if s.cells.taking ≠ .notStarted ∧ 0 < v.respFree then u.setScan { s.scan with endCell := .handed }
           else if s.doc.moving then u.setScan { s.scan with endCell := .written }
           else ((u.setScan { s.scan with endCell := .written, st := .off }).setRing r
            { v.ring r with prodAttached := false }).setDoc { s.doc with owner := .host }))
      ∧ (goes → x.pageEnd = some p → p.rewriting = true → d.producer = .link → s.link.destRing = r →
        let published := fun (y : Ring) => (s.setRing r { y with put := put, held := none, pageEnd := none }).issueWrite .link
          .word (s.cfg.cbAddr + (0x10 + 4 * r.val)) [BitVec.ofNat 16 put]
        (s.link.st = .reading → s.link.emitPending = true →
          exec (.pageEndTagAcknowledged r) (s.delivered (.pageEndTag r) []) = .next (published x).linkEmit)
        ∧ (s.link.st = .writing →
          exec (.pageEndTagAcknowledged r) (s.delivered (.pageEndTag r) []) = .next
            ((published x).setLink { s.link with st := .wait }))
        ∧ (s.link.st = .wait ∨ (s.link.st = .reading ∧ s.link.emitPending = false)
            ∨ (s.link.st = .ending ∧ (s.link.readsOut = true ∨ x.writing ≠ [])) →
          exec (.pageEndTagAcknowledged r) (s.delivered (.pageEndTag r) []) = .next (published x))
        ∧ (s.link.st = .ending → s.link.readsOut = false → x.writing = [] →
          let off := published { x with prodAttached := false }
          exec (.pageEndTagAcknowledged r) (s.delivered (.pageEndTag r) []) = .next
            ((if s.link.abortCell then
                off.handEvent .stream 0 .aborted ([2, byte r.val, 0, 0xFF, 0] ++ twoBytes s.link.dropped)
              else off).setLink { s.link with st := .off, abortCell := false })))

/-- R18, R14, R180, R154, R23, R11: For every LINK RINGS: BUSY in ENTERING, while a STOP ALL is in flight, or with the
link not OFF; then BAD_ARG where a ring id is above 3 or both are the same, NOT_READY where one is UNDEFINED, BAD_ARG
where their line words differ, BAD_ARG or IN_USE as the attaching of the source's consumer side and then of the
destination's producer side gives. Otherwise both sides are attached, the link is in WAIT with keep clamped into 128 to
256 and all its page state cleared, and the DONE is DONE. Nothing else changes. UNLINK in OFF or ENDING is refused
BAD_STATE and changes nothing else. In any other state it answers a next state in which the link is ENDING or OFF, its
hold buffer is empty with no line held and its held lost-before 0 (log entry 37), the dropped count has gained the held
lines and those merged into a line being written, up to 65535, a command's DONE has been handed where one was reserved,
and memory, the scan and print streams, the motors, the clock and power unit and the sense unit are as before. With no
page end waiting there: a held slot's tag is written again with END_OF_PAGE, and with LOST_TAIL where lines were
dropped or the source lost its tail; with a slot being written, it is abandoned and the page end waits for it; with
neither, the page end is complete. The source's side is detached at once but where a source line is being read, and its
take stays. The DONE carries the dropped count. In WAIT with nothing held, written or claimed and no page end waiting,
the link is OFF and both its sides are detached. -/
def Obligations.LinkCommandRows : Prop :=
  (∀ (s : State) (tag a b : Byte) (k : Half),
      let i : Instr := .linkRings tag a b k
      (s.clk.power = .entering ∨ s.cells.stopAll.isSome = true ∨ s.link.st ≠ .off →
        exec i (s.given i) = .next (s.handDone tag 9 .busy))
      ∧ (s.clk.power ≠ .entering → s.cells.stopAll = none → s.link.st = .off →
        (4 ≤ a.toNat ∨ 4 ≤ b.toNat ∨ a = b → exec i (s.given i) = .next (s.handDone tag 9 .badArg))
        ∧ ∀ (ra rb : RingId), ra.val = a.toNat → rb.val = b.toNat → ra ≠ rb →
          ((s.ring ra).desc = none ∨ (s.ring rb).desc = none → exec i (s.given i) = .next (s.handDone tag 9 .notReady))
          ∧ ∀ (da db : RingDesc), (s.ring ra).desc = some da → (s.ring rb).desc = some db →
            exec i (s.given i) = .next
              (if da.words ≠ db.words then s.handDone tag 9 .badArg
               else if da.consumer ≠ .link then s.handDone tag 9 .badArg
               else if (s.ring ra).consAttached then s.handDone tag 9 .inUse
               else if db.producer ≠ .link then s.handDone tag 9 .badArg
               else if (s.ring rb).prodAttached then s.handDone tag 9 .inUse
               else
                (((s.setRing ra { s.ring ra with consAttached := true }).setRing rb
                  { s.ring rb with prodAttached := true }).setLink
                  { st := .wait, source := some ra, destination := some rb, keep := min 256 (max 128 k.toNat) }).handDone tag 9 .done)))
      ∧ (∀ (s : State) (tag' : Byte),
      (s.link.st = .off ∨ s.link.st = .ending →
        exec (.unlink tag') (s.given (.unlink tag')) = .next (s.handDone tag' 10 .badState))
      ∧ (s.link.st = .wait ∨ s.link.st = .reading ∨ s.link.st = .writing →
        ∃ t, exec (.unlink tag') (s.given (.unlink tag')) = .next t
          ∧ (t.link.st = .ending ∨ t.link.st = .off) ∧ t.link.hold = [] ∧ t.link.heldCount = 0
          ∧ t.link.heldLost = 0 ∧ t.link.dropped = min 65535 (s.link.dropped + (s.link.heldCount + s.link.mergedWriting))
          ∧ (s.cells.taking ≠ .notStarted → t.cells.reserved = s.cells.reserved - 1)
          ∧ t.mem = s.mem ∧ t.scan = s.scan ∧ t.print = s.print ∧ t.doc = s.doc ∧ t.paper = s.paper ∧ t.clk = s.clk
          ∧ t.sense = s.sense ∧ t.lines = s.lines ∧ t.tables = s.tables ∧ t.boot = s.boot)
      ∧ (∀ (d : RingDesc) (c : Claim) (rest : List Claim) (h : Held),
        s.link.st = .wait ∨ s.link.st = .reading ∨ s.link.st = .writing →
        let x := s.link
        let y := s.ring x.destRing
        let lost := decide (0 < x.heldCount + x.mergedWriting) || x.sourceLostTail
        let n := min 65535 (x.dropped + (x.heldCount + x.mergedWriting))
        let t := (if x.readsOut then s else s.setRing x.sourceRing { s.ring x.sourceRing with consAttached := false }).setLink { x with
          st := .ending, hold := [], heldCount := 0, heldLost := 0, mergedWriting := 0, emitPending := false, dropped := n
          abortCell := false }
        x.sourceRing ≠ x.destRing → y.desc = some d → d.producer = .link → y.pageEnd = none → s.nothingFor .linkWords →
        s.nothingFor .linkTag →
        (y.writing = [] → y.held = some h →
          let tag := { h.tag with endOfPage := true, lostTail := h.tag.lostTail || lost }
          exec (.unlink tag') (s.given (.unlink tag')) = .next
            (((t.setRing x.destRing { y with held := some ⟨h.slot, tag⟩, pageEnd := some ⟨lost, true⟩ }).issueWrite .link
              (.pageEndTag x.destRing) (d.base + h.slot * (8 + 4 * d.words)) (tagHalves tag)).handDone tag' 10 .done
              (twoBytes n)))
        ∧ (y.writing = c :: rest →
          exec (.unlink tag') (s.given (.unlink tag')) = .next
            ((t.setRing x.destRing { y with
              writing := y.writing.map (fun c => { c with abandoned := true }), pageEnd := some ⟨lost, false⟩ }).handDone tag'
              10 .done (twoBytes n)))
        ∧ (y.writing = [] → y.held = none → x.readsOut = true →
          exec (.unlink tag') (s.given (.unlink tag')) = .next (t.handDone tag' 10 .done (twoBytes n))))
      ∧ (∀ d, s.link.st = .wait → s.link.readsOut = false → s.link.sourceRing ≠ s.link.destRing →
        (s.ring s.link.destRing).desc = some d → (s.ring s.link.destRing).held = none →
        (s.ring s.link.destRing).writing = [] → (s.ring s.link.destRing).pageEnd = none →
        ∃ t, exec (.unlink tag') (s.given (.unlink tag')) = .next t ∧ t.link.st = .off
          ∧ (t.ring s.link.sourceRing).consAttached = false ∧ (t.ring s.link.destRing).prodAttached = false
          ∧ (t.ring s.link.sourceRing).take = (s.ring s.link.sourceRing).take))

/-- R9, R19, R20, R21, R22, R120: LINK_TAKE_SOURCE_LINE, in WAIT with a published source line and a free destination
slot, with no LINK burst waiting outside (for the acknowledgements, no LINK word: log entry 24), issues LINK-class
reads of the words and the tag of slot take modulo S and enters READING (two transfers whose tag stands for the slot:
log entry 16). LINK_READ_COMPLETE of any line: one that starts a page while lines are held first drops and counts them
and asks the destination to end its page with LOST_TAIL; a page start clears the accumulator and output line counter
and makes a PAGE_START pending; the line is ORed into the hold buffer and counted, its lost-before added up to 255, a
page end's LOST_TAIL kept, the accumulator gains the keep, the slot is released; then, at 256 or at a page end, the
link emits, or waits where the destination's page end is not complete, and otherwise is in WAIT. An emission takes 256
from the accumulator where it holds as much, claims the next slot with a tag of the output line counter, PAGE_START
where one is pending, MERGED where two lines are held, the black pels counted anew and the held lost-before, writes it
with class LINK and is in WRITING. The slot's acknowledgement publishes the slot held before and empties the hold
buffer; the link returns to WAIT or, where the line ended its page, clears its page state and asks the destination to
end its page. -/
def Obligations.LinkLineRows : Prop :=
  ∀ (s : State) (d e : RingDesc) (c : Claim) (rest : List Claim) (words tag : List Half),
      let x := s.link
      let y := s.ring x.destRing
      (s.ring x.sourceRing).desc = some d → y.desc = some e → e.producer = .link →
      (x.st = .wait → 1 ≤ (s.ring x.sourceRing).occupancy d → 1 ≤ y.free e → (∀ b ∈ s.pmc.waiting, b.cls ≠ .link) →
        let a := d.base + (s.ring x.sourceRing).take % d.slots * (8 + 4 * d.words)
        exec .linkTakeSourceLine s = .next
          (((s.setLink { x with st := .reading, readsOut := true }).issueRead .link .linkWords (a + 8)
            (2 * d.words)).issueRead .link .linkTag a 4))
      ∧ (s.wordWaits .link = false → x.st = .reading → x.readsOut = true → s.nothingFor .linkWords → s.nothingFor .linkTag →
        let l := tagOfHalves tag
        let u := if l.pageStart = true ∧ 0 < x.heldCount then
            ((s.setLink { x with
              dropped := min 65535 (x.dropped + x.heldCount), heldCount := 0, hold := [], heldLost := 0 }).askPageEnd
              x.destRing true).beginPageEnd x.destRing e
          else s
        let z := { (if l.pageStart then { u.link with acc := 0, outLine := 0, startPending := true } else u.link) with
          hold := orWords u.link.hold (halvesToWords words), heldCount := u.link.heldCount + 1
          heldLost := min 255 (u.link.heldLost + l.lost)
          sourceLostTail := x.sourceLostTail || (l.endOfPage && l.lostTail)
          acc := (if l.pageStart then 0 else x.acc) + x.keep, emitEnd := l.endOfPage, readsOut := false }
        let v := (u.setLink z).releaseSlots x.sourceRing 1
        exec .linkReadComplete ((s.delivered .linkTag tag).delivered .linkWords words) = .next
          (if 256 ≤ z.acc ∨ l.endOfPage = true then
            (if (v.ring x.destRing).pageEnd.isSome then v.setLink { z with emitPending := true } else v.linkEmit)
           else v.setLink { z with st := .wait }))
      ∧ (let out : Tag := { line := x.outLine, black := popWords x.hold, lost := x.heldLost, pageStart := x.startPending,
                            endOfPage := false, merged := decide (x.heldCount = 2), lostTail := false }
         let slot := (y.put + y.claimed) % e.slots
         let a := e.base + slot * (8 + 4 * e.words)
         s.linkEmit = (((s.setLink { x with
            st := .writing, acc := if 256 ≤ x.acc then x.acc - 256 else x.acc, outLine := min 16383 (x.outLine + 1)
            startPending := false, mergedWriting := x.heldCount, heldCount := 0, heldLost := 0, emitPending := false
            }).setRing x.destRing { y with writing := y.writing ++ [⟨slot, out, none, false⟩] }).issueWrite .link .slotWords
            (a + 8) (wordsToHalves x.hold)).issueWrite .link (.slotTag x.destRing) a (tagHalves out))
      ∧ (s.wordWaits .link = false → y.writing = c :: rest → c.abandoned = false → y.pageEnd = none → x.st = .writing →
        let put := (y.put + 1) % (2 * e.slots)
        let acked := if y.held.isSome then
            (s.setRing x.destRing { y with writing := rest, put := put, held := some ⟨c.slot, c.tag⟩ }).issueWrite .link
              .word (s.cfg.cbAddr + (0x10 + 4 * x.destRing.val)) [BitVec.ofNat 16 put]
          else s.setRing x.destRing { y with writing := rest, held := some ⟨c.slot, c.tag⟩ }
        exec (.slotWritesAcknowledged x.destRing) (s.delivered (.slotTag x.destRing) []) = .next
          (if x.emitEnd then
            ((acked.setLink { x with
                hold := [], mergedWriting := 0, emitEnd := false, acc := 0, outLine := 0, startPending := false
                sourceLostTail := false }).askPageEnd x.destRing x.sourceLostTail).beginPageEnd x.destRing e
           else acked.setLink { x with st := .wait, hold := [], mergedWriting := 0 }))

/-- R17, R20, R21: For every state in which the link is within its bounds: if a step answers a next state, it is within
them there. Bounds: keep 128 to 256; the accumulator below 256 with at most one line held, and then at least 128, in
WAIT and while a source line is read; below 256 with no line held in WRITING; below 512 with at most two held while an
emission waits; and a link that is on names a source and a destination ring, which differ. -/
def Obligations.LinkBoundsKept : Prop :=
  ∀ s t : State, s.link.bounded = true → step s = .next t → t.link.bounded = true

/-- R14, R26, R27, R47, R83, R180: For START SCAN in TEXT or HALFTONE on a defined ring: each failing check refuses it
in the order of R26, a refusal changing nothing but its DONE. An accepted one hands its DONE, clears the page state
(the calibration sums with it: log entry 21), takes the clamped parameters (stalled-from as before a first stall: log
entry 6), attaches the ring's producer side, owns the DOC channel, which starts an unbounded forward run from ramp
index 0 on the profile's first interval with host command tag 0 (log entry 26), and is in WAIT_EDGE, or in CAPTURE with
the margin checked where it starts NOW or the DOC_EDGE zone is HIGH. A ring id above 3 is BAD_ARG and an UNDEFINED ring
NOT_READY after the checks ahead of them. -/
def Obligations.StartScanRow : Prop :=
  ∀ (s : State) (tag ring : Byte) (mode start k profile : BitVec 4) (theta skip trailing : Byte)
      (width pageLimit feedLimit : Half) (stopMargin restartMargin : Byte) (m : ScanMode) (p : Fin 8),
      let i : Instr := .startScan tag ring mode start k profile theta skip trailing width pageLimit feedLimit stopMargin
        restartMargin
      let l := if width.toNat < 32 then 32 else (width.toNat + 31) / 32 * 32
      (s.clk.power = .entering ∨ s.cells.stopAll.isSome = true ∨ s.scan.st ≠ .off →
        exec i (s.given i) = .next (s.handDone tag 3 .busy))
      ∧ (s.clk.power ≠ .entering → s.cells.stopAll = none → s.scan.st = .off →
        (2 ≤ mode.toNat ∨ 8 ≤ profile.toNat ∨ (k.toNat ≠ 1 ∧ k.toNat ≠ 2 ∧ k.toNat ≠ 4) ∨ 2 ≤ start.toNat ∨ pageLimit.toNat = 0
            ∨ 16383 < pageLimit.toNat ∨ feedLimit.toNat = 0 ∨ 2048 < l ∨ 4 ≤ ring.toNat →
          exec i (s.given i) = .next (s.handDone tag 3 .badArg))
        ∧ ∀ r : RingId, ((mode.toNat = 0 ∧ m = .text) ∨ (mode.toNat = 1 ∧ m = .halftone)) → p.val = profile.toNat →
          (k.toNat = 1 ∨ k.toNat = 2 ∨ k.toNat = 4) → start.toNat ≤ 1 → 1 ≤ pageLimit.toNat → pageLimit.toNat ≤ 16383 →
          1 ≤ feedLimit.toNat → l ≤ 2048 → r.val = ring.toNat →
          ((s.ring r).desc = none → exec i (s.given i) = .next (s.handDone tag 3 .notReady))
          ∧ ∀ d : RingDesc, (s.ring r).desc = some d →
            let stop := min stopMargin.toNat (d.slots - 2)
            let params : ScanParams := {
              ring := r, mode := m, k := k.toNat, profile := p, theta := theta.toNat, skip := skip.toNat
              trailing := trailing.toNat, width := l, pageLimit := pageLimit.toNat, feedLimit := feedLimit.toNat
              stopMargin := stop, restartMargin := min (max restartMargin.toNat (stop + 1)) (d.slots - 1) }
            let t := (((s.handDone tag 3 .done).setScan
                { st := .waitEdge, params := params, skipRemaining := skip.toNat, trailingRemaining := trailing.toNat }).setRing
                r { s.ring r with prodAttached := true }).setDoc
                { s.doc with
                  owner := .scan, st := .run, requester := .scan, direction := .forward, profile := p, requested := none
                  remaining := none, ramp := 0, taken := 0, stopCause := none, tag := 0
                  timer := some ((s.profile p).getD 0 0) }
            exec i (s.given i) = .next
              (if l ≠ d.words * 32 then s.handDone tag 3 .badArg
               else if s.profile p = [] then s.handDone tag 3 .notReady
               else if s.zone .cover = some .high ∨ s.zone .supply = some .low then s.handDone tag 3 .notReady
               else if start.toNat = 0 ∧ (s.zone .docEdge = none ∨ s.zone .docPresent ≠ some .high) then
                s.handDone tag 3 .notReady
               else if s.doc.moving then s.handDone tag 3 .busy
               else if d.producer ≠ .scan then s.handDone tag 3 .badArg
               else if (s.ring r).prodAttached then s.handDone tag 3 .inUse
               else if start.toNat = 0 ∧ s.zone .docEdge ≠ some .high then t
               else (t.setScan { t.scan with st := .capture }).scanCheckMargin))

/-- R40, R41, R42, R43, R44, R45, R46, R47, R48, R50, R86: STOP_SCAN in OFF or ENDING is refused BAD_STATE; in any
other state it hands DONE and then makes the cut with reason STOPPED: in WAIT_EDGE, CAPTURE, STALLED and TRAILING the
stream is ENDING or OFF with end reason STOPPED, a DOC run or move is STOPPING, and no readout is in progress. A cut
abandons a readout in progress, its line lost OVERRUN, and ends the page. In CAPTURE or TRAILING, free slots at or
below the stop margin stop the DOC channel (R86: one with i + 1 steps left changes its state alone), record the state,
add 1 to the stall count up to 255 and enter STALLED; above it, and in every other state, the check changes nothing. In
STALLED with the DOC channel in HOLD and the free slots at the restart margin, the channel runs forward from ramp index
0 (its tag 0: log entry 26) and the stream returns to the recorded state; otherwise, and in every other state, nothing
changes. A page end: ENDING with its reason, a stop request to DOC, a page-end request with LOST_TAIL where lines are
lost since the last written; complete at once with none held or writing, it hands PAGE_SCANNED with its bytes of 10.6,
and OFF follows where no slot took the cell and DOC is at rest. DOC_EDGE HIGH in WAIT_EDGE starts the capture. DOC_EDGE
LOW: in CAPTURE with skip left the page ends EDGE; else TRAILING, also for a stream STALLED from CAPTURE; with no
trailing line left and not yet closing, the page closes EDGE, and ends where no readout is in progress (a LIMIT stays:
log entry 20). LAMP is on in WAIT_EDGE, CAPTURE, STALLED and TRAILING, and in CAL as its lamp flag says. -/
def Obligations.ScanStopsAndStalls : Prop :=
  ∀ (s : State) (tag : Byte),
      let free := s.ringFree s.scan.params.ring
      let stop := fun (c : Channel) (cause : StopCause) => if c.st ≠ .run ∧ c.st ≠ .move then c
        else if c.remaining = some (c.ramp + 1) then { c with st := .stopping }
        else { c with st := .stopping, remaining := some (c.ramp + 1), stopCause := some cause }
      (s.scan.st = .off ∨ s.scan.st = .ending →
        exec (.stopScan tag) (s.given (.stopScan tag)) = .next (s.handDone tag 4 .badState))
      ∧ (s.scan.st ≠ .off → s.scan.st ≠ .ending →
        exec (.stopScan tag) (s.given (.stopScan tag)) = .next ((s.handDone tag 4 .done).scanCut .stopped))
      ∧ (s.scan.st = .waitEdge ∨ s.scan.st = .capture ∨ s.scan.st = .stalled ∨ s.scan.st = .trailing →
        ∃ t, exec (.stopScan tag) (s.given (.stopScan tag)) = .next t
          ∧ (t.scan.st = .ending ∨ t.scan.st = .off) ∧ t.scan.endReason = some .stopped
          ∧ (s.doc.st = .run ∨ s.doc.st = .move → t.doc.st = .stopping)
          ∧ (s.scan.accounted = true → t.scan.readoutBuf = none)
          ∧ t.mem = s.mem ∧ t.print = s.print ∧ t.link = s.link ∧ t.paper = s.paper ∧ t.clk = s.clk ∧ t.sense = s.sense
          ∧ t.lines = s.lines ∧ t.tables = s.tables ∧ t.boot = s.boot)
      ∧ (s.scan.st = .capture ∨ s.scan.st = .trailing →
        s.scanCheckMargin =
          if free ≤ s.scan.params.stopMargin then
            (s.setDoc (stop s.doc .request)).setScan
              { s.scan with st := .stalled, stalledFrom := s.scan.st, stallCount := min 255 (s.scan.stallCount + 1) }
          else s)
      ∧ (s.scan.st = .stalled →
        s.scanRestart =
          if s.doc.st = .hold ∧ s.scan.params.restartMargin ≤ free then
            (s.setDoc { s.doc with
              st := .run, requester := .scan, direction := .forward, profile := s.scan.params.profile, requested := none
              remaining := none, ramp := 0, taken := 0, stopCause := none, tag := 0
              timer := some ((s.profile s.scan.params.profile).getD 0 0) }).setScan
              { s.scan with st := s.scan.stalledFrom }
          else s)
      ∧ (s.scan.st ≠ .capture → s.scan.st ≠ .trailing → s.scanCheckMargin = s)
      ∧ (s.scan.st ≠ .stalled → s.scanRestart = s)
      ∧ (∀ (reason : ScanReason) (d : RingDesc), (s.ring s.scan.params.ring).desc = some d → s.scan.params.mode ≠ .cal →
        let r := s.scan.params.ring
        let x := { s.scan with st := .ending, endReason := some reason, endCell := .notYet }
        let v := (s.setScan x).setDoc (stop s.doc .request)
        let w := (v.askPageEnd r (decide (0 < x.lostSinceWritten))).beginPageEnd r d
        let u := w.handEvent .pageScanned 0
          (match reason with
            | .edge | .limit | .cal => .done
            | .aborted => .aborted
            | .stopped | .cover | .supply | .clock | .noDocument => .failed)
          ([byte r.val, byte (scanReasonCode reason), if 0 < x.lostSinceWritten then 1 else 0] ++ twoBytes x.linesWritten
            ++ twoBytes x.lostNoBuffer ++ twoBytes x.lostOverrun ++ twoBytes x.lostNoSlot ++ [byte x.stallCount]) .pageScanned
        s.scanPageEnd reason =
          if (w.ring r).pageEnd.isSome then w
          else if w.cells.taking ≠ .notStarted ∧ 0 < w.respFree then u.setScan { x with endCell := .handed }
          else if v.doc.moving then u.setScan { x with endCell := .written }
          else ((u.setScan { x with endCell := .written, st := .off }).setRing r
            { w.ring r with prodAttached := false }).setDoc { v.doc with owner := .host })
      ∧ (s.scan.st ≠ .cal → ∀ reason, s.scanCut reason =
          if s.scan.st = .off ∨ s.scan.st = .ending then s
          else (s.setScan (match s.scan.readoutBuf with
            | none => s.scan
            | some i => { s.scan.setBuf i {} with
                lostOverrun := min 65535 (s.scan.lostOverrun + 1), lostSinceWritten := min 255 (s.scan.lostSinceWritten + 1)
                nextRow := List.replicate 2048 0, carry := 0 })).scanPageEnd reason)
      ∧ s.zoneToBlocks .docEdge .high =
        (if s.scan.st = .waitEdge then (s.setScan { s.scan with st := .capture, stepCounter := 0 }).scanCheckMargin else s)
      ∧ (let close := fun (x : Scan) =>
           if s.scan.trailingRemaining ≠ 0 ∨ s.scan.closing then s.setScan x
           else if s.scan.readoutBuf = none then
             (s.setScan { x with closing := true, endReason := some .edge }).scanPageEnd .edge
           else s.setScan { x with closing := true, endReason := some .edge }
         s.zoneToBlocks .docEdge .low =
           if s.scan.st = .capture ∧ 0 < s.scan.skipRemaining then s.scanPageEnd .edge
           else if s.scan.st = .capture then close { s.scan with st := .trailing }
           else if s.scan.st = .stalled ∧ s.scan.stalledFrom = .capture then close { s.scan with stalledFrom := .trailing }
           else s)
      ∧ (s.lamp = true ↔ s.scan.st = .waitEdge ∨ s.scan.st = .capture ∨ s.scan.st = .stalled ∨ s.scan.st = .trailing
          ∨ (s.scan.st = .cal ∧ s.scan.params.lamp = true))

/-- R30, R32, R33, R34, R35, R36, R37, R39, R42, R44: READOUT_COMPLETE of the L samples in CAPTURE, STALLED or
TRAILING. In TEXT the pel of each sample is black where its tone value, after shading, is below the threshold. In
HALFTONE each pel's value is its tone value, its entry of the current row and 7/16 of the error of the pel before; it
is black where that is below 128, and the error is the value less 0 or 255; the row stores move up: the new current row
has what the next row held, each pel's 3/16 of the error after it, 1/16 of the error before it and the rest of its own,
and the next row and carry are clear. With a free slot the line is written: the slot (put + held + writing) modulo S is
claimed with the trigger number, the black count, lost since written and PAGE_START on the first written line, lines
written goes up by 1, lost since written is 0, and the stop margin is checked. With none the line is lost NO_SLOT: that
count and lost since written go up by 1 and the buffer is FREE. A page that was closing then ends with its reason. A
line's pel i is bit 31 - (i mod 32) of word i / 32, 1 for black. A tag's halfwords hold the line number, the black
count, the flags PAGE_START, END_OF_PAGE, MERGED and LOST_TAIL in bits 0 to 3 with the lost-before in the high byte,
and 0. -/
def Obligations.ReadoutCompleteRow : Prop :=
  (∀ (n : Nat) (pels : List Bool), pels.length = 32 * n →
        (packWords n pels).length = n
        ∧ ∀ i < 32 * n, ((packWords n pels).getD (i / 32) 0).getLsbD (31 - i % 32) = pels.getD i false)
      ∧ (∀ t : Tag, t.line < 65536 → t.black < 65536 → t.lost < 256 → ∃ a b c : Half, tagHalves t = [a, b, c, 0]
        ∧ a.toNat = t.line ∧ b.toNat = t.black ∧ c.toNat / 256 = t.lost ∧ c.toNat % 256 < 16
        ∧ c.getLsbD 0 = t.pageStart ∧ c.getLsbD 1 = t.endOfPage ∧ c.getLsbD 2 = t.merged ∧ c.getLsbD 3 = t.lostTail)
      ∧ ∀ (s : State) (samples : List Byte) (i : BufId) (d : RingDesc) (reason : ScanReason),
      (s.scan.st = .capture ∨ s.scan.st = .stalled ∨ s.scan.st = .trailing) → s.scan.readoutBuf = some i →
      (s.scan.closing = true → s.scan.endReason = some reason ∧ ¬(s.scan.bufA.st = .readout ∧ s.scan.bufB.st = .readout)) →
      samples.length = s.scan.params.width → (s.ring s.scan.params.ring).desc = some d →
      let l := s.scan.params.width
      let tones := List.zipWith (fun (e : Shade) (x : Byte) =>
          s.tables.tone.getD (min 255 (((x.toNat - e.offset) * e.gain + 128) / 256)) 0) s.tables.shading samples
      let r := s.scan.params.ring
      let after := fun (x : Scan) (pels : List Bool) =>
        let words := packWords (l / 32) pels
        let black := pels.count true
        let t := if 1 ≤ (s.ring r).free d then
            ((s.setScan { x.setBuf i { st := .writing, words := words, black := black } with
                linesWritten := s.scan.linesWritten + 1, lostSinceWritten := 0 }).claimSlot r d
              { line := s.scan.triggerCount - 1, black := black, lost := s.scan.lostSinceWritten
                pageStart := decide (s.scan.linesWritten = 0), endOfPage := false, merged := false, lostTail := false } words
              (some i)).scanCheckMargin
          else s.setScan { x.setBuf i {} with
            lostNoSlot := min 65535 (s.scan.lostNoSlot + 1), lostSinceWritten := min 255 (s.scan.lostSinceWritten + 1) }
        if s.scan.closing then t.scanPageEnd reason else t
      (s.scan.params.mode = .text → exec (.readoutComplete samples) s =
        .next (after { s.scan with carry := 0 } (tones.map (fun t => decide (t < s.scan.params.theta)))))
      ∧ ∀ errors : List Int, s.scan.params.mode = .halftone → l ≤ 2048 → s.scanWhole = true →
        let e := fun j => errors.getD j 0
        let share := fun (k : Int) (x : Int) => Int.tdiv (k * x) 16
        let value := fun j => (tones.getD j 0 : Int) + s.scan.currentRow.getD j 0
          + (if j = 0 then s.scan.carry else share 7 (e (j - 1)))
        (∀ j < l, e j = if value j < 128 then value j else value j - 255) →
        exec (.readoutComplete samples) s = .next (after
          { s.scan with
            carry := 0, nextRow := List.replicate 2048 0
            currentRow := (List.range 2048).map (fun j => s.scan.nextRow.getD j 0 + (if j < l then
              (e j - share 7 (e j) - share 3 (e j) - share 1 (e j)) + (if 0 < j then share 1 (e (j - 1)) else 0)
                + (if j + 1 < l then share 3 (e (j + 1)) else 0) else 0)) }
          ((List.range l).map (fun j => decide (value j < 128))))

/-- R49, R45, R43, R46, R50: START_SCAN_CAL makes its checks in order and, accepted, hands its DONE, owns the DOC
channel without moving it, clears the sums and counts (the stall count and end reason too: log entry 21) and is in CAL
with its timer running, LAMP following its lamp flag. CAL_TRIGGER_EXPIRY begins a readout, the timer stopping when the
N-th begins, or, with one in progress, adds 1 to OVERRUN. CAL_READOUT_COMPLETE adds each raw sample to its sum, and
after the N-th readout writes the L sums as halfwords at the destination with class SCAN. CAL_SUMS_ACKNOWLEDGED hands
PAGE_SCANNED, with no ring, the reason CAL or that of a cut that came while the sums were written, no lost tail and the
readouts made (log entry 22), and the stream is OFF with the DOC channel given back. A cut in CAL: while the sums are
written the first one's reason is kept; else a readout in progress counts OVERRUN, PAGE_SCANNED is handed with its
reason and the stream is OFF; STOP_SCAN in CAL hands its DONE and then makes that cut with reason STOPPED. -/
def Obligations.CalibrationRows : Prop :=
  ∀ (s : State) (tag : Byte) (lamp : Bool) (lines : Byte) (width interval : Half) (destination : Word) (samples : List Byte),
      let i : Instr := .startScanCal tag lamp lines width interval destination
      let l := if width.toNat < 32 then 32 else (width.toNat + 31) / 32 * 32
      exec i (s.given i) = .next
          (if s.clk.power = .entering ∨ s.cells.stopAll.isSome = true ∨ s.scan.st ≠ .off then s.handDone tag 3 .busy
           else if 2048 < l ∨ lines.toNat ∉ [1, 2, 4, 8, 16] ∨ interval.toNat < 16 ∨ destination.toNat % 2 ≠ 0
              ∨ s.cfg.memSize < destination.toNat + 2 * l
              ∨ (destination.toNat < s.cfg.cbAddr + (256 + 16 * (s.cfg.nc + s.cfg.nr))
                  ∧ s.cfg.cbAddr < destination.toNat + 2 * l) then s.handDone tag 3 .badArg
           else if s.zone .cover = some .high ∨ s.zone .supply = some .low then s.handDone tag 3 .notReady
           else if s.doc.moving then s.handDone tag 3 .busy
           else ((s.handDone tag 3 .done).setDoc { s.doc with owner := .scan }).setScan { s.scan with
              st := .cal, params := { mode := .cal, width := l, lamp := lamp, calLines := lines.toNat
                                      calInterval := interval.toNat, calDest := destination.toNat }
              lostNoBuffer := 0, lostOverrun := 0, lostNoSlot := 0, lostSinceWritten := 0, stallCount := 0
              endReason := none, calSums := List.replicate 2048 0, calDone := 0, calReadout := false, calTimer := true
              calWriting := false })
      ∧ (s.scan.st = .cal → s.scan.calTimer = true →
        exec .calTriggerExpiry s = .next (s.setScan
          (if s.scan.calReadout then { s.scan with lostOverrun := min 65535 (s.scan.lostOverrun + 1) }
           else { s.scan with calReadout := true, calTimer := decide (s.scan.calDone + 1 < s.scan.params.calLines) })))
      ∧ (s.scan.st = .cal → s.scan.calReadout = true → samples.length = s.scan.params.width →
        let sums := List.zipWith (fun a (b : Byte) => a + b.toNat) s.scan.calSums samples
          ++ s.scan.calSums.drop samples.length
        let x := { s.scan with calSums := sums, calDone := s.scan.calDone + 1, calReadout := false }
        exec (.calReadoutComplete samples) s = .next
          (if s.scan.params.calLines ≤ s.scan.calDone + 1 then
            (s.setScan { x with calWriting := true }).issueWrite .scan .calSums s.scan.params.calDest
              ((sums.take s.scan.params.width).map (BitVec.ofNat 16))
           else s.setScan x))
      ∧ (s.scan.st = .cal → s.scan.params.mode = .cal →
        let cell := fun (t : State) (reason : ScanReason) => t.handEvent .pageScanned 0
          (match reason with
            | .edge | .limit | .cal => .done
            | .aborted => .aborted
            | .stopped | .cover | .supply | .clock | .noDocument => .failed)
          ([0xFF, byte (scanReasonCode reason), 0] ++ twoBytes t.scan.calDone ++ twoBytes t.scan.lostNoBuffer
            ++ twoBytes t.scan.lostOverrun ++ twoBytes t.scan.lostNoSlot ++ [byte t.scan.stallCount])
        (s.scan.calWriting = true →
          exec .calSumsAcknowledged (s.delivered .calSums []) = .next
            (((cell (s.setScan { s.scan with calWriting := false }) (s.scan.endReason.getD .cal)).setDoc
              { s.doc with owner := .host }).setScan { s.scan with st := .off, calWriting := false })
          ∧ (∀ reason, s.scanCut reason = s.setScan { s.scan with endReason := some (s.scan.endReason.getD reason) })
          ∧ exec (.stopScan tag) (s.given (.stopScan tag)) = .next
            ((s.handDone tag 4 .done).setScan { s.scan with endReason := some (s.scan.endReason.getD .stopped) }))
        ∧ (s.scan.calWriting = false →
          let x := fun (reason : ScanReason) => { s.scan with
            endReason := some reason, calReadout := false, calTimer := false
            lostOverrun := if s.scan.calReadout then min 65535 (s.scan.lostOverrun + 1) else s.scan.lostOverrun }
          let cut := fun (t : State) (reason : ScanReason) =>
            ((cell (t.setScan (x reason)) reason).setDoc { s.doc with owner := .host }).setScan { x reason with st := .off }
          (∀ reason, s.scanCut reason = cut s reason)
          ∧ exec (.stopScan tag) (s.given (.stopScan tag)) = .next (cut (s.handDone tag 4 .done) .stopped))
        ∧ s.lamp = s.scan.params.lamp)

/-- R29, R30, R32, R42: For every state in which the scan stream is accounted: if a step answers a next state, it is
accounted there. Accounted: in WAIT_EDGE, CAPTURE, STALLED, TRAILING and ENDING the trigger count is lines written plus
the three lost counts, plus 1 while a readout is in progress; triggers stay within a page limit of at most 16383, below
it until closing; and at most one buffer is in READOUT. -/
def Obligations.ScanAccountingKept : Prop :=
  ∀ s t : State, s.scan.accounted = true → step s = .next t → t.scan.accounted = true

/-- R35, R36, R37, R38, R25, R51: For every state whose error stores are within their bound (current row within -72 to
72, next row and carry clear, tone entries at most 255): if a step answers a next state they are within it there. And
for every line of tone values up to 255 over such a row, each pel's error is within -127 to 127: the pel is black with
a value of at least -127 and below 128, or white with a value of at most 382. And for every state in which the stores
have their 2048 entries and mode and stalled-from fit the state: if a step answers a next state, it is so there. -/
def Obligations.DiffusionBoundedKept : Prop :=
  (∀ s t : State, s.errorsBounded = true → step s = .next t → t.errorsBounded = true)
      ∧ (∀ s t : State, s.scanWhole = true → step s = .next t → t.scanWhole = true)
      ∧ ∀ line : List (Nat × Int), (∀ p ∈ line, p.1 ≤ 255 ∧ -72 ≤ p.2 ∧ p.2 ≤ 72) →
        (diffuse none 0 0 line).1.length = line.length ∧ (diffuse none 0 0 line).2.length = line.length
        ∧ (∀ e ∈ (diffuse none 0 0 line).2, -72 ≤ e ∧ e ≤ 72)
        ∧ ∀ (t : Nat) (row carry : Int), t ≤ 255 → -72 ≤ row → row ≤ 72 → -55 ≤ carry → carry ≤ 55 →
          let v := (t : Int) + (row + carry)
          v ≤ 382 ∧ -127 ≤ v ∧ -127 ≤ diffuseError v ∧ diffuseError v ≤ 127
          ∧ -55 ≤ errorShare 7 (diffuseError v) ∧ errorShare 7 (diffuseError v) ≤ 55

/-- R14, R53, R54, R180: For every START PRINT: each failing check refuses it in the order of R53, a refusal changing
nothing but its DONE. An accepted one hands its DONE; the stream is in WAIT_LINE with everything else as after a cold
start but its parameters (the margin shift clamped to -2047 to 2047, the dot budget to 256 to 2048), the ring's
consumer side is attached and the PAPER channel is owned and does not move. -/
def Obligations.StartPrintRow : Prop :=
  ∀ (s : State) (tag ring k profile threshold : Byte) (headWidth shift budget trailing : Half),
      let i : Instr := .startPrint tag ring k profile threshold headWidth shift budget trailing
      let argsGood := 32 ≤ headWidth.toNat ∧ headWidth.toNat ≤ 2048 ∧ headWidth.toNat % 32 = 0
        ∧ (k.toNat = 1 ∨ k.toNat = 2 ∨ k.toNat = 4) ∧ profile.toNat ≤ 7 ∧ 2 ≤ threshold.toNat ∧ threshold.toNat ≤ 32
        ∧ trailing.toNat ≤ 1023 ∧ ring.toNat ≤ 3
      (s.clk.power = .entering ∨ s.cells.stopAll.isSome = true ∨ s.print.st ≠ .off →
        exec i (s.given i) = .next (s.handDone tag 5 .busy))
      ∧ (s.clk.power ≠ .entering → s.cells.stopAll = none → s.print.st = .off →
        (¬argsGood → exec i (s.given i) = .next (s.handDone tag 5 .badArg))
        ∧ ∀ (r : RingId) (p : Fin 8), argsGood → r.val = ring.toNat → p.val = profile.toNat →
          ((s.ring r).desc = none → exec i (s.given i) = .next (s.handDone tag 5 .notReady))
          ∧ ∀ d : RingDesc, (s.ring r).desc = some d →
            exec i (s.given i) = .next
              (if s.profile p = [] ∨ s.tables.heat = none ∨ s.zone .headTemp = some .unknown ∨ s.zone .paper = some .unknown
                  ∨ s.zone .paper = some .low ∨ s.zone .cover = some .high ∨ s.zone .supply = some .low then
                s.handDone tag 5 .notReady
               else if s.paper.moving then s.handDone tag 5 .busy
               else if d.consumer ≠ .print then s.handDone tag 5 .badArg
               else if (s.ring r).consAttached then s.handDone tag 5 .inUse
               else (((s.handDone tag 5 .done).setPrint { st := .waitLine, params := {
                  ring := r, headWidth := headWidth.toNat, k := k.toNat, shift := max (-2047) (min 2047 shift.toInt)
                  budget := min 2048 (max 256 budget.toNat), profile := p, threshold := threshold.toNat
                  trailing := trailing.toNat } }).setRing r { s.ring r with consAttached := true }).setPaper
                { s.paper with owner := .print }))

/-- R73, R74, R75, R76, R77, R86, R89, R106: STOP_PRINT in OFF is BAD_STATE; in any other state it hands DONE and a
stream not yet ending begins ending STOPPED with the pending conditions dropped, a slew's or feed's move is asked to
stop (R86: one with i + 1 steps left changes its state alone), in PAUSED the owed steps and the interrupted item are
dropped and the head line stays only while a phase of it fires, and one already ending is as it was. PAUSE_PRINT in OFF
or PAUSED is BAD_STATE; while an item is in progress COMMAND joins the pending conditions, otherwise the stream is
PAUSED for COMMAND with a STREAM cell (its counts 0: log entry 10) and URGENT lowered. RESUME_PRINT in any state but
PAUSED is BAD_STATE; with the PAPER zone LOW or UNKNOWN or the COVER zone HIGH it is NOT_READY; with no item
interrupted it hands DONE and the stream enters HOT with a STREAM cell where the HEAD_TEMP zone is HIGH, else PRINTING
where a line or slew is ready, else WAIT_LINE; with one, its state is entered and the owed move begins (its host
command tag 0: log entry 26), or the item completes with none owed, once no phase fires and the channel is at rest (log
entry 12). In an ending stream PAUSE and RESUME hand DONE and no more (log entry 13). PAPER LOW and HEAD_TEMP HIGH join
the pending conditions while an item is in progress, else pause the stream or make it HOT; HEAD_TEMP leaving HIGH takes
HOT from the conditions and ends HOT. COVER HIGH stops both channels and cuts the scan, and the print stream is PAUSED
for COVER, the blocks acting and handing their cells in that order (R106 leaves it open: log entry 9), its item
recorded, a line whose advance had not begun owing K steps; an ending one drops its line. A stream that goes from HOT
to PAUSED hands the one STREAM cell of the pause (log entry 10). In an ending stream the other zones do nothing (log
entry 13). -/
def Obligations.PrintCommandRows : Prop :=
  ∀ (s : State) (tag : Byte),
      let x := s.print
      let done := fun (code : Nat) => s.handDone tag code .done
      let stop := fun (c : Channel) (cause : StopCause) => if c.st ≠ .run ∧ c.st ≠ .move then c
        else if c.remaining = some (c.ramp + 1) then { c with st := .stopping }
        else { c with st := .stopping, remaining := some (c.ramp + 1), stopCause := some cause }
      (x.st = .off → exec (.stopPrint tag) (s.given (.stopPrint tag)) = .next (s.handDone tag 6 .badState))
      ∧ (x.st ≠ .off → x.ending.isSome = true → exec (.stopPrint tag) (s.given (.stopPrint tag)) = .next (done 6))
      ∧ (x.st ≠ .off → x.st ≠ .paused → x.ending = none →
        let t := (done 6).setPrint { x with
          pendPaper := false, pendCommand := false, pendHot := false, ending := some .stopped }
        exec (.stopPrint tag) (s.given (.stopPrint tag)) = .next
          (if x.st = .slewing ∨ x.st = .trailingFeed then t.setPaper (stop s.paper .request) else t))
      ∧ (x.st = .paused → x.ending = none →
        exec (.stopPrint tag) (s.given (.stopPrint tag)) = .next ((done 6).setPrint { x with
          pendPaper := false, pendCommand := false, pendHot := false, ending := some .stopped, owed := 0, interrupted := none
          slew := none, slewing := none, cut := true, headLine := if x.firing = true then x.headLine else none }))
      ∧ (x.st = .off ∨ x.st = .paused →
        exec (.pausePrint tag) (s.given (.pausePrint tag)) = .next (s.handDone tag 7 .badState))
      ∧ (x.st ≠ .off → x.st ≠ .paused → x.ending = none →
        let inItem := (x.st = .printing ∧ x.headLine.isSome = true) ∨ x.st = .slewing ∨ x.st = .trailingFeed
        (inItem → exec (.pausePrint tag) (s.given (.pausePrint tag)) = .next ((done 7).setPrint { x with pendCommand := true }))
        ∧ (¬inItem → exec (.pausePrint tag) (s.given (.pausePrint tag)) = .next
          ((((done 7).setPmc { (done 7).pmc with urgent := false }).setPrint
            { x with st := .paused, pauseReason := some .command }).handEvent .stream 0 .done [1, byte x.params.ring.val, 5, 2])))
      ∧ (x.st ≠ .off → x.st ≠ .paused → x.ending.isSome = true →
        exec (.pausePrint tag) (s.given (.pausePrint tag)) = .next (done 7))
      ∧ (x.st ≠ .paused → exec (.resumePrint tag) (s.given (.resumePrint tag)) = .next (s.handDone tag 8 .badState))
      ∧ (x.st = .paused →
        let blocked := s.zone .paper = some .low ∨ s.zone .paper = some .unknown ∨ s.zone .cover = some .high
        (blocked → exec (.resumePrint tag) (s.given (.resumePrint tag)) = .next (s.handDone tag 8 .notReady))
        ∧ (¬blocked → x.ending = none → x.interrupted = none →
          let low := (done 8).setPmc { (done 8).pmc with urgent := false }
          exec (.resumePrint tag) (s.given (.resumePrint tag)) = .next
            (if s.zone .headTemp = some .high then (low.setPrint { x with pauseReason := none, st := .hot }).handEvent .stream 0 .done
                [1, byte x.params.ring.val, 6, 0xFF]
             else if x.ready then (done 8).setPrint { x with pauseReason := none, st := .printing }
             else low.setPrint { x with pauseReason := none, st := .waitLine }))
        ∧ (¬blocked → x.ending.isSome = true → exec (.resumePrint tag) (s.given (.resumePrint tag)) = .next (done 8))
        ∧ (∀ item, ¬blocked → x.ending = none → x.interrupted = some item →
          let st : PrintState := match item with | .line => .printing | .slew => .slewing | .feed => .trailingFeed
          let y := { x with pauseReason := none, st := st }
          let t := (if item = .line then done 8 else (done 8).setPmc { (done 8).pmc with urgent := false }).setPrint y
          exec (.resumePrint tag) (s.given (.resumePrint tag)) = .next
            (if x.firing = true ∨ s.paper.moving = true then t
             else if x.owed = 0 then t.completeItem item true
             else (t.setPrint { y with
                interrupted := none, headLine := x.headLine.map (fun h => { h with cycle := .advancing }) }).setPaper
              { s.paper with
                st := .move, requester := .print, direction := .forward, profile := x.params.profile
                requested := some x.owed, remaining := some x.owed, ramp := 0, taken := 0, stopCause := none, tag := 0
                timer := some ((s.profile x.params.profile).getD 0 0) })))
      ∧ (let inItem := (x.st = .printing ∧ x.headLine.isSome = true) ∨ x.st = .slewing ∨ x.st = .trailingFeed
         let low := s.setPmc { s.pmc with urgent := false }
         let cell := fun (t : State) => t.handEvent .stream 0 .done
          [1, byte t.print.params.ring.val, byte (printStateCode t.print.st), optByte (t.print.pauseReason.map printReasonCode)]
         let rest : PrintState := if x.ready then .printing else .waitLine
         s.zoneToBlocks .paper .low =
          (if x.ending.isSome ∨ x.st = .off ∨ x.st = .paused then s
           else if inItem then s.setPrint { x with pendPaper := true }
           else cell (low.setPrint { x with st := .paused, pauseReason := some .paper }))
        ∧ s.zoneToBlocks .headTemp .high =
          (if x.ending.isSome ∨ x.st = .off ∨ x.st = .paused ∨ x.st = .hot then s
           else if inItem then s.setPrint { x with pendHot := true }
           else cell (low.setPrint { x with st := .hot }))
        ∧ (∀ z : Zone, z ≠ .high → s.zoneToBlocks .headTemp z =
          if x.st = .hot ∧ x.ending = none then
            cell ((if x.ready then s else low).setPrint { x with pendHot := false, st := rest })
          else s.setPrint { x with pendHot := false })
        ∧ s.zoneToBlocks .cover .high =
            (((s.setDoc (stop s.doc .cover)).setPaper (stop s.paper .cover)).scanCut .cover).printCoverHigh
        ∧ s.printCoverHigh =
          (if x.st = .off ∨ x.st = .paused then s
           else if x.ending.isSome then
            match x.headLine with
            | none => s
            | some h => s.setPrint (match h.cycle with
              | .firing => { x with cut := true }
              | .gap => { x with headLine := none }
              | .waiting => { x with headLine := none }
              | .advancing => { x with interrupted := none })
           else
            cell (low.setPrint (match x.st, x.headLine with
              | .printing, some h => (match h.cycle with
                | .firing =>
                  { x with st := .paused, pauseReason := some .cover, interrupted := some .line, owed := x.params.k }
                | .gap =>
                  { x with st := .paused, pauseReason := some .cover, interrupted := some .line, owed := x.params.k
                           headLine := some { h with cycle := .waiting } }
                | _ => { x with st := .paused, pauseReason := some .cover, interrupted := some .line })
              | .slewing, _ => { x with st := .paused, pauseReason := some .cover, interrupted := some .slew }
              | .trailingFeed, _ => { x with st := .paused, pauseReason := some .cover, interrupted := some .feed }
              | _, _ => { x with st := .paused, pauseReason := some .cover }))))

/-- R55, R56, R59, R60, R61, R68, R69, R120: FETCH_START, for an active stream not ending with the fetch unit IDLE, an
unfetched line, the next buffer FREE and no slew waiting, and no PRINT burst waiting outside, reads the tag of the slot
at the fetch point with class PRINT. TAG_READ_COMPLETE of a tag, a host-written one too, its fields taken as written
and bits 4 to 7 of byte 4 and bytes 6 and 7 ignored (10.7), with a black count above 0 reads the slot's words into the
next buffer and the other becomes next; of a white one it reads up to 31 further tags. A white tag with no further line
is fetched by its words. WINDOW_READ_COMPLETE of 1 to 31 further tags: the white run ends before a black tag, before a
later page start and after a page end; one that reaches the threshold becomes the pending slew, beside one that runs,
which a stream in WAIT_LINE leaves for PRINTING where it is next, else the first line's words are read. URGENT raised
at FETCH_START and lowered where a window becomes a slew is log entry 8. FETCH_COMPLETE stages the shift unit's line
record, lowers URGENT, and sets the page's margin-loss flag where the page is not ending and an unlatched line of it
has MARGIN_LOSS (log entry 15). SHIFT_IN_START takes the staged line next in ring order into the EMPTY register;
SHIFT_IN_COMPLETE frees the buffer, the register is LOADED, and a stream in WAIT_LINE goes to PRINTING. All but the
last act while no control block word of PRINT waits outside (log entry 24). -/
def Obligations.FetchAndShiftRows : Prop :=
  ∀ (s : State) (d : RingDesc) (slot run : Nat) (written : Half × Half × Half × Half) (first : Tag)
        (more : List (Half × Half × Half × Half)) (data : List Half) (i : BufId),
      let x := s.print
      let halves := fun (q : Half × Half × Half × Half) => [q.1, q.2.1, q.2.2.1, q.2.2.2]
      let tagOf := fun (q : Half × Half × Half × Half) => ({
        line := q.1.toNat, black := q.2.1.toNat, lost := q.2.2.1.toNat / 256
        pageStart := q.2.2.1.getLsbD 0, endOfPage := q.2.2.1.getLsbD 1, merged := q.2.2.1.getLsbD 2
        lostTail := q.2.2.1.getLsbD 3 } : Tag)
      let tag := tagOf written
      let tags := more.map tagOf
      let r := s.ring x.params.ring
      let a := fun (m : Nat) => d.base + m * (8 + 4 * d.words)
      let readWords := fun (m : Nat) (t : Tag) =>
        (s.setPrint { x.setBuf x.nextBuf { st := .fetching, line := { tag := t } } with
            fetch := .words m x.nextBuf, nextBuf := x.nextBuf.other, window := [] }).issueRead .print .fetchWords (a m + 8)
          (2 * d.words)
      let free := s.wordWaits .print = false
      r.desc = some d →
      (x.st ≠ .off → x.ending = none → x.fetch = .idle → 1 ≤ s.unfetched → (x.buf x.nextBuf).st = .free →
        x.slew = none → (∀ b ∈ s.pmc.waiting, b.cls ≠ .print) →
        exec .fetchStart s = .next
          (((s.setPmc { s.pmc with urgent := s.pmc.urgent || x.awaitsFetch }).setPrint
            { x with fetch := .tag ((r.take + x.taken) % d.slots) }).issueRead .print .fetchTag
            (a ((r.take + x.taken) % d.slots)) 4))
      ∧ (free → x.fetch = .tag slot → x.ending = none → s.nothingFor .fetchTag →
        (1 ≤ tag.black → exec .tagReadComplete (s.delivered .fetchTag (halves written)) = .next (readWords slot tag))
        ∧ (tag.black = 0 → s.unfetched ≤ 1 → 2 ≤ x.params.threshold →
          exec .tagReadComplete (s.delivered .fetchTag (halves written)) = .next (readWords slot tag))
        ∧ (tag.black = 0 → 2 ≤ s.unfetched →
          exec .tagReadComplete (s.delivered .fetchTag (halves written)) = .next
            ((s.setPrint { x with
              fetch := .window slot tag (min 31 (s.unfetched - 1)), window := [tag] }).issueWindow d slot
              (min 31 (s.unfetched - 1)))))
      ∧ (free → x.fetch = .window slot first tags.length → 1 ≤ tags.length → x.ending = none → s.nothingFor .fetchWindow →
        first.black = 0 →
        let at' := fun (k : Nat) => (first :: tags).getD k {}
        1 ≤ run → run ≤ tags.length + 1 →
        (∀ k < run, (at' k).black = 0 ∧ (0 < k → (at' k).pageStart = false) ∧ (k + 1 < run → (at' k).endOfPage = false)) →
        (run = tags.length + 1 ∨ (at' (run - 1)).endOfPage = true ∨ (at' run).black ≠ 0 ∨ (at' run).pageStart = true) →
        exec .windowReadComplete (s.deliveredEach .fetchWindow (more.map halves)) = .next
          (if x.params.threshold ≤ run then
            (s.setPrint { x with
              fetch := .idle, window := []
              slew := some { lines := run, first := slot, pageStart := first.pageStart
                             endsPage := (at' (run - 1)).endOfPage }
              st := if x.st = .waitLine ∧ (x.headSt = .loaded ∨ (x.slewing = none ∧ x.headLine = none ∧ x.headSt = .empty
                  ∧ x.bufA.st = .free ∧ x.bufB.st = .free)) then .printing else x.st }).setPmc { s.pmc with urgent := false }
           else readWords slot first))
      ∧ (free → x.fetch = .words slot i → x.ending = none → s.nothingFor .fetchWords →
        let y : Print := { x.setBuf i ⟨.staged, lineRecord x.params (x.buf i).line.tag (halvesToWords data)⟩ with fetch := .idle }
        exec .fetchComplete (s.delivered .fetchWords data) = .next
          ((s.setPmc { s.pmc with urgent := false }).setPrint { y with
            marginLoss := x.marginLoss || (!x.pageEnding
              && pageLoss (x.pageBegun || x.headLine.isSome || x.slewing.isSome) y.unlatched) }))
      ∧ (free → x.headSt = .empty → x.nextStaged = some i →
        exec .shiftInStart s = .next (s.setPrint { x.setBuf i { x.buf i with st := .shifting } with
          headSt := .shifting, headRec := (x.buf i).line }))
      ∧ (x.headSt = .shifting → x.shiftingBuf = some i →
        exec .shiftInComplete s = .next (s.setPrint { x.setBuf i {} with
          headSt := .loaded, st := if x.st = .waitLine ∧ x.ending = none then .printing else x.st }))

/-- R57, R58, R59, R60: For every margin shift m of less than the head width either way, every head of n words and
every source line: output pel j of the head is source pel j - m where the source line has one and white where it has
none; and MARGIN_LOSS is set exactly when some black source pel i has its destination i + m outside the head. With |m|
at or above the head width the output line is entirely white and MARGIN_LOSS is set exactly when the source line has a
black pel, on a ring wider than the head too (R59 followed there: log entry 23). A pel is bit 31 - (i mod 32) of word i
/ 32. The line record has the tag, the output words and the MARGIN_LOSS of the stream's own shift and head width; its
total is the number of black pels of the output line, and of ceil(head width / 256) block counts, count b is the number
of black pels among dots 256b to 256b + 255. -/
def Obligations.ShiftUnitIsTheShift : Prop :=
  ∀ (m : Int) (n : Nat) (ws : List Word),
      let pel := fun (l : List Word) (i : Nat) => (l.getD (i / 32) 0).getLsbD (31 - i % 32)
      (shiftLine m n ws).1.length = n
      ∧ (m.natAbs < 32 * n →
        (∀ j < 32 * n, pel (shiftLine m n ws).1 j =
          (decide (m ≤ j ∧ (j : Int) - m < 32 * ws.length) && pel ws ((j : Int) - m).toNat))
        ∧ ((shiftLine m n ws).2 = true ↔
          ∃ i < 32 * ws.length, pel ws i = true ∧ ((i : Int) + m < 0 ∨ 32 * (n : Int) ≤ (i : Int) + m)))
      ∧ (32 * n ≤ m.natAbs →
        (∀ j < 32 * n, pel (shiftLine m n ws).1 j = false)
        ∧ ((shiftLine m n ws).2 = true ↔ ∃ i < 32 * ws.length, pel ws i = true))
      ∧ ∀ (p : PrintParams) (tag : Tag),
        let r := lineRecord p tag ws
        let out := shiftLine p.shift (p.headWidth / 32) ws
        r.tag = tag ∧ r.words = out.1 ∧ r.loss = out.2
        ∧ r.total = (List.range (32 * (p.headWidth / 32))).countP (pel r.words)
        ∧ r.blocks.length = (p.headWidth + 255) / 256
        ∧ ∀ b < r.blocks.length, r.blocks.getD b 0 = (List.range 256).countP (fun j => pel r.words (256 * b + j))

/-- R62: For every dot budget and every line of block counts of at most 256: the phases drive exactly the blocks whose
count is above 0, each once, in order; a phase's dot sum is the sum of its blocks' counts, above 0 and at most max(D,
256); the block that opens a later phase would have taken the phase before it above max(D, 256); and a line with no
black dot fires no phase. -/
def Obligations.StrobePlan : Prop :=
  ∀ (budget : Nat) (counts : List Nat), (∀ n ∈ counts, n ≤ 256) →
      let plan := strobePlan budget counts
      plan.flatMap (·.blocks) = (List.range counts.length).filter (fun b => decide (0 < counts.getD b 0))
      ∧ (∀ p ∈ plan, p.dots = (p.blocks.map (fun b => counts.getD b 0)).sum ∧ 0 < p.dots ∧ p.dots ≤ max budget 256)
      ∧ (∀ (before after : List Phase) (p q : Phase) (b : Nat), plan = before ++ p :: q :: after → q.blocks.head? = some b →
          max budget 256 < p.dots + counts.getD b 0)
      ∧ ((∀ n ∈ counts, n = 0) → plan = [])

/-- R64, R65, R66, R67, R68, R70, R71, R72, R73, R76, R77, R78: LINE_LATCH, with R65's conditions and no PRINT word
waiting outside, as for SLEW_BEGIN (log entry 24), makes the register's line the head line with its plan and its band's
pulse plus the cold boost where it holds, at most the table's maximum (`elapsed` brings the cool counter up to date:
log entry 18); the register is EMPTY; the first phase fires, or with no phase the advance of K steps is requested. A
page start that finds the counters not both 0 first hands PAGE_PRINTED with no end mark and clears them, at a latch and
at a slew. PHASE_END clears the cool counter and, with phases left, waits for NEXT_PHASE_START, else advances; a cut
stream drops the line (in one that was ending too: log entry 13); an interrupted one fires no more and, resumed
meanwhile (log entry 12), begins its owed move. SLEW_BEGIN enters SLEWING and asks for n times K steps. Each move's
start sets the host command tag to 0 (log entry 26). At the end of the PAPER move: a line or run is released and
counted; a page end feeds the trailing steps first, or hands PAGE_PRINTED with its bytes (margin loss of lines fetched
ahead, in the trailing feed too, joins the page after it: log entry 15) and waits for a line; else a pending condition
takes effect, PAPER before COMMAND before HOT (a HOT zone found after an owed move is one), or the stream goes on as
R68 gives, an underrun counted where nothing is left, but not after an item that a RESUME PRINT took up (R76). A paused
stream keeps what a cut move owes; resumed, it begins it. An ending stream releases a line whose advance is complete,
makes the rest of one taken up again, passes the whole lines of a slew cut short, and reports its page, after a feed
cut short too (log entry 11). PRINT_STREAM_OFF hands the final STREAM cell with its bytes (its state OFF, and the
counts 0 of a condition's STREAM cell, are log entry 10), leaves the stream as after a cold start (its parameters too:
log entry 6), lowers URGENT, detaches and gives the PAPER channel back. -/
def Obligations.LineCycleRows : Prop :=
  ∀ (s : State) (elapsed : Half) (table : Heat) (h : HeadLine) (w : Slew),
      let x := s.print
      let advance := fun (steps : Nat) => { s.paper with
        st := ChanState.move, requester := .print, direction := .forward, profile := x.params.profile
        requested := some steps, remaining := some steps, ramp := 0, taken := 0, stopCause := none, tag := 0
        timer := some ((s.profile x.params.profile).getD 0 0) }
      let printed := fun (t : State) (m : Bool) => t.handEvent .pagePrinted 0 (if m then .done else .failed)
        ([byte t.print.params.ring.val, byte ((if t.print.marginLoss then 1 else 0) + if m then 2 else 0), 0]
          ++ twoBytes t.print.linesPrinted ++ twoBytes t.print.linesSlewed ++ [byte t.print.underruns])
      let low := fun (t : State) => t.setPmc { t.pmc with urgent := false }
      let cell := fun (t : State) => t.handEvent .stream 0 .done
        [1, byte t.print.params.ring.val, byte (printStateCode t.print.st), optByte (t.print.pauseReason.map printReasonCode)]
      let pend := fun (goOn : State → State) (t : State) =>
        let y := { t.print with pendPaper := false, pendCommand := false, pendHot := false }
        if t.print.pendPaper then cell ((low t).setPrint { y with st := .paused, pauseReason := some .paper })
        else if t.print.pendCommand then cell ((low t).setPrint { y with st := .paused, pauseReason := some .command })
        else if t.print.pendHot then cell ((low t).setPrint { y with st := .hot })
        else goOn (t.setPrint y)
      let goOn := fun (resumed : Bool) (t : State) =>
        let ahead := t.setPrint { t.print with st := .printing }
        if t.print.headSt ≠ .empty ∨ t.print.nextStaged.isSome = true ∨ t.print.slew.isSome = true then ahead
        else if t.print.fetch ≠ .idle then ahead.setPmc { t.pmc with urgent := true }
        else if 0 < t.unfetched then ahead
        else (low t).setPrint { t.print with
          st := .waitLine, underruns := if resumed then t.print.underruns else min 255 (t.print.underruns + 1) }
      let fed := fun (t : State) => pend (fun u => (low u).setPrint { u.print with
        st := if u.print.ready then .printing else .waitLine }) (t.pagePrinted true)
      let page := fun (t : State) => if 0 < x.params.trailing then
          ((low t).setPrint { t.print with st := .trailingFeed }).setPaper (advance (x.params.trailing * x.params.k))
        else fed t
      let y := { x with owed := 0, interrupted := none }
      let line := fun (h : HeadLine) (y : Print) => (s.releaseSlots x.params.ring 1).setPrint { y with
        linesPrinted := min 16383 (x.linesPrinted + 1), prevDark := decide (h.plan = []), headLine := none }
      let slewed := fun (n : Nat) (y : Print) => (s.releaseSlots x.params.ring n).setPrint { y with
        linesSlewed := min 16383 (x.linesSlewed + n), prevDark := true, slewing := none }
      let notTaken := s.paper.requested.getD 0 - s.paper.taken
      let feeds := x.headLine = none ∧ x.slewing = none
      let free := s.wordWaits .print = false
      (free → x.st = .printing → x.ending = none → x.headSt = .loaded → x.headLine = none → s.paper.moving = false → x.owed = 0 →
        x.slewing = none → s.zone .headTemp ≠ some .unknown → s.tables.heat = some table →
        (x.headRec.tag.pageStart = true → x.linesPrinted = 0 ∧ x.linesSlewed = 0) →
        let band := match s.sense.roleEntry .headTemp with | some e => e.reading / 16 | none => 0
        let first := x.linesPrinted = 0 ∧ x.linesSlewed = 0
        let plan := strobePlan x.params.budget x.headRec.blocks
        let boost := (x.prevDark = true ∧ ¬first) ∨ table.interval < min 65535 (x.cool + elapsed.toNat)
        ∃ t, exec (.lineLatch elapsed) s = .next t
          ∧ t.print.headLine = some {
              line := x.headRec, plan := plan, ended := 0, cycle := if plan = [] then .advancing else .firing
              pulse := min table.maximum (table.bands.getD band 0 + if boost then table.boost else 0) }
          ∧ t.print.headSt = .empty ∧ t.print.st = .printing
          ∧ t.paper = (if plan = [] then advance x.params.k else s.paper)
          ∧ t.mem = s.mem ∧ t.rings = s.rings ∧ t.cells = s.cells ∧ t.doc = s.doc)
      ∧ (free → x.st = .printing → x.ending = none → x.headSt = .loaded → x.headLine = none → s.paper.moving = false → x.owed = 0 →
        x.slewing = none → s.zone .headTemp ≠ some .unknown → s.tables.heat = some table →
        x.headRec.tag.pageStart = true → (x.linesPrinted ≠ 0 ∨ x.linesSlewed ≠ 0) →
        let band := match s.sense.roleEntry .headTemp with | some e => e.reading / 16 | none => 0
        let plan := strobePlan x.params.budget x.headRec.blocks
        ∃ t, exec (.lineLatch elapsed) s = .next t
          ∧ t.print.headLine = some {
              line := x.headRec, plan := plan, ended := 0, cycle := if plan = [] then .advancing else .firing
              pulse := min table.maximum (table.bands.getD band 0
                + if table.interval < min 65535 (x.cool + elapsed.toNat) then table.boost else 0) }
          ∧ t.print.headSt = .empty ∧ t.print.st = .printing ∧ t.print.linesPrinted = 0 ∧ t.print.linesSlewed = 0
          ∧ t.print.underruns = 0 ∧ t.cells = (printed s false).cells
          ∧ t.paper = (if plan = [] then advance x.params.k else s.paper) ∧ t.mem = s.mem ∧ t.rings = s.rings)
      ∧ (∀ m, s.pagePrinted m = (printed s m).setPrint
          { x with linesPrinted := 0, linesSlewed := 0, underruns := 0
                   marginLoss := pageLoss (x.headLine.isSome || x.slewing.isSome) x.unlatched })
      ∧ (x.headLine = some h → h.cycle = .firing → x.cut = true →
        exec .phaseEnd s = .next (s.setPrint { x with cool := 0, headLine := none }))
      ∧ (x.headLine = some h → h.cycle = .firing → x.cut = false → x.interrupted = some .line →
        (x.st = .paused → exec .phaseEnd s = .next (s.setPrint { x with
          cool := 0, headLine := some { h with ended := h.ended + 1, cycle := .waiting } }))
        ∧ (x.st ≠ .paused → 0 < x.owed → s.paper.moving = false → exec .phaseEnd s = .next ((s.setPrint { x with
          cool := 0, interrupted := none
          headLine := some { h with ended := h.ended + 1, cycle := .advancing } }).setPaper (advance x.owed))))
      ∧ (x.headLine = some h → h.cycle = .firing → x.cut = false → x.interrupted ≠ some .line →
        (h.ended + 1 < h.plan.length → exec .phaseEnd s = .next (s.setPrint { x with
          cool := 0, headLine := some { h with ended := h.ended + 1, cycle := .gap } }))
        ∧ (h.plan.length ≤ h.ended + 1 → s.paper.moving = false → exec .phaseEnd s = .next ((s.setPrint { x with
          cool := 0, headLine := some { h with ended := h.ended + 1, cycle := .advancing } }).setPaper (advance x.params.k))))
      ∧ (x.headLine = some h → h.cycle = .gap → exec .nextPhaseStart s = .next (s.setPrint { x with
          headLine := some { h with cycle := .firing } }))
      ∧ (free → x.slew = some w → x.slewing = none → x.st = .printing → x.ending = none → x.headLine = none → x.headSt = .empty →
        x.bufA.st = .free → x.bufB.st = .free → s.paper.moving = false → x.owed = 0 →
        let t := if w.pageStart = true ∧ (x.linesPrinted ≠ 0 ∨ x.linesSlewed ≠ 0) then s.pagePrinted false else s
        exec .slewBegin s = .next (((low t).setPrint { t.print with
          st := .slewing, slew := none, slewing := some w }).setPaper (advance (w.lines * x.params.k))))
      ∧ (s.paper.moving = false → x.ending = none → ∀ resumed : Bool,
        let z := { y with pendHot := x.pendHot || (resumed && decide (s.zone .headTemp = some .high)) }
        (x.headLine = some h → s.completeItem .line resumed =
          if h.line.tag.endOfPage then page (line h z) else pend (goOn resumed) (line h z))
        ∧ (x.slewing = some w → s.completeItem .slew resumed =
          if w.endsPage then page (slewed w.lines z) else pend (goOn resumed) (slewed w.lines z))
        ∧ s.completeItem .feed resumed = fed (s.setPrint z))
      ∧ (x.ending = none → x.st ≠ .paused → x.interrupted = none → notTaken = 0 →
        let resumed := decide (0 < x.owed)
        (x.headLine = some h → s.printMoveEnd = s.completeItem .line resumed)
        ∧ (x.headLine = none → x.slewing = some w → s.printMoveEnd = s.completeItem .slew resumed)
        ∧ (feeds → x.st = .trailingFeed → s.printMoveEnd = s.completeItem .feed resumed))
      ∧ (x.ending = none → x.headLine.isSome = true ∨ x.slewing.isSome = true ∨ x.interrupted = some .feed →
        (x.st = .paused → s.printMoveEnd = s.setPrint { x with owed := notTaken })
        ∧ (x.st ≠ .paused → x.interrupted.isSome = true → 0 < notTaken → s.paper.moving = false →
          s.printMoveEnd = (s.setPrint { x with
            owed := notTaken, interrupted := none
            headLine := x.headLine.map (fun h => { h with cycle := .advancing }) }).setPaper (advance notTaken)))
      ∧ (x.ending.isSome = true → s.paper.moving = false →
        (x.headLine = some h → s.printMoveEnd =
          if notTaken = 0 ∧ x.cut = false then
            (if h.line.tag.endOfPage then (line h y).pagePrinted true else line h y)
          else if x.interrupted = some .line ∧ x.st ≠ .paused ∧ x.cut = false then
            (s.setPrint { x with owed := notTaken, interrupted := none
                                 headLine := some { h with cycle := .advancing } }).setPaper (advance notTaken)
          else s.setPrint { y with headLine := none })
        ∧ (x.headLine = none → x.slewing = some w →
          let n := if notTaken = 0 then w.lines else (w.lines * x.params.k - notTaken) / x.params.k
          s.printMoveEnd = if n = w.lines ∧ w.endsPage = true then (slewed n y).pagePrinted true else slewed n y)
        ∧ (feeds → x.st = .trailingFeed ∨ x.interrupted = some .feed →
          s.printMoveEnd = (s.setPrint y).pagePrinted true))
      ∧ (x.st ≠ .off → x.ending.isSome = true → x.headLine = none → s.paper.moving = false → x.fetch = .idle →
        x.slewing = none →
        ∃ t, exec .printStreamOff s = .next t ∧ t.print = {} ∧ t.paper = { s.paper with owner := .host }
          ∧ t.pmc.urgent = false ∧ (t.ring x.params.ring).consAttached = false
          ∧ (∀ reason, x.ending = some reason → t.cells = (s.handEvent .stream 0
              (match reason with
                | .paper | .cover | .command | .stopped => .done
                | .supply | .clock => .failed
                | .aborted => .aborted)
              ([1, byte x.params.ring.val, 0, byte (printReasonCode reason), if x.marginLoss then 1 else 0]
                ++ twoBytes x.linesPrinted ++ twoBytes x.linesSlewed ++ [byte x.underruns])).cells)
          ∧ (t.ring x.params.ring).take = (s.ring x.params.ring).take ∧ t.mem = s.mem ∧ t.doc = s.doc ∧ t.scan = s.scan)

/-- R65, R66, R67: For every command and state in which a pulse is in progress and the PAPER channel, which the host
does not own, is at rest: if exec answers a next state in which the pulse is still in progress, the channel is at rest
there. And a command after which a pulse is in progress that was not before is LINE_LATCH with the PAPER channel at
rest, or NEXT_PHASE_START of a line between two phases. -/
def Obligations.NoMoveUnderAPulse : Prop :=
  ∀ (i : Instr) (s t : State), exec i s = .next t → t.print.firing = true →
      (s.print.firing = true → s.paper.owner ≠ .host → s.paper.moving = false → t.paper.moving = false)
      ∧ (s.print.firing = false →
          ((∃ elapsed, i = .lineLatch elapsed) ∧ s.paper.moving = false ∧ t.paper.moving = false)
          ∨ (i = .nextPhaseStart ∧ ∃ h, s.print.headLine = some h ∧ h.cycle = .gap))

/-- R94, R95: HOLD_MOTOR: a channel outside DOC and PAPER is BAD_ARG, one owned by a stream IN_USE, a moving one, or
any in ENTERING, BUSY; otherwise the channel is in HOLD on its pattern and the DONE carries the pattern index.
RELEASE_MOTOR: the same checks but for ENTERING; otherwise the channel is IDLE with its pattern kept and its phase
outputs off, and the DONE is DONE. Nothing else changes. In IDLE the four phase outputs are off; in every other state
pattern index 0 to 7 drives A, AB, B, BC, C, CD, D, DA. -/
def Obligations.HoldAndReleaseMotor : Prop :=
  ∀ (s : State) (tag channel : Byte),
      (2 ≤ channel.toNat →
        exec (.holdMotor tag channel) (s.given (.holdMotor tag channel)) = .next (s.handDone tag 12 .badArg)
        ∧ exec (.releaseMotor tag channel) (s.given (.releaseMotor tag channel)) = .next (s.handDone tag 13 .badArg))
      ∧ ∀ ch : Chan, channel.toNat = (match ch with | .doc => 0 | .paper => 1) →
        let c := s.chan ch
        exec (.holdMotor tag channel) (s.given (.holdMotor tag channel)) = .next
          (if c.owner ≠ .host then s.handDone tag 12 .inUse
           else if c.moving ∨ s.clk.power = .entering then s.handDone tag 12 .busy
           else (s.setChan ch { c with st := .hold }).handDone tag 12 .done [byte c.pattern.val])
        ∧ exec (.releaseMotor tag channel) (s.given (.releaseMotor tag channel)) = .next
          (if c.owner ≠ .host then s.handDone tag 13 .inUse
           else if c.moving then s.handDone tag 13 .busy
           else (s.setChan ch { c with st := .idle }).handDone tag 13 .done)
        ∧ c.phases = if c.st = .idle then (false, false, false, false) else match c.pattern.val with
          | 0 => (true, false, false, false)
          | 1 => (true, true, false, false)
          | 2 => (false, true, false, false)
          | 3 => (false, true, true, false)
          | 4 => (false, false, true, false)
          | 5 => (false, false, true, true)
          | 6 => (false, false, false, true)
          | _ => (true, false, false, true)

/-- R83, R92, R180: MOVE_MOTOR while a STOP ALL is in flight is BUSY. Otherwise an argument out of range is BAD_ARG;
then a channel owned by a stream IN_USE, a moving one BUSY, ENTERING BUSY, an empty profile NOT_READY, a COVER zone
HIGH or a SUPPLY zone LOW NOT_READY, each changing nothing but the DONE. An accepted one puts the channel in MOVE for
the host with the direction, profile, count and tag recorded, ramp index and steps taken 0, the timer on the profile's
first interval; the pattern stays and nothing else changes. -/
def Obligations.MoveMotorRow : Prop :=
  ∀ (s : State) (tag channel direction profile : Byte) (steps : Half),
      let i : Instr := .moveMotor tag channel direction profile steps
      (s.cells.stopAll.isSome = true → exec i (s.given i) = .next (s.handDone tag 11 .busy))
      ∧ (s.cells.stopAll = none →
        (2 ≤ channel.toNat ∨ 2 ≤ direction.toNat ∨ 8 ≤ profile.toNat ∨ steps.toNat = 0 →
          exec i (s.given i) = .next (s.handDone tag 11 .badArg))
        ∧ ∀ (ch : Chan) (dir : Direction) (p : Fin 8), channel.toNat = (match ch with | .doc => 0 | .paper => 1) →
          direction.toNat = (match dir with | .forward => 0 | .back => 1) → p.val = profile.toNat → 1 ≤ steps.toNat →
          let c := s.chan ch
          exec i (s.given i) = .next
            (if c.owner ≠ .host then s.handDone tag 11 .inUse
             else if c.moving then s.handDone tag 11 .busy
             else if s.clk.power = .entering then s.handDone tag 11 .busy
             else if s.profile p = [] then s.handDone tag 11 .notReady
             else if s.zone .cover = some .high ∨ s.zone .supply = some .low then s.handDone tag 11 .notReady
             else s.setChan ch { c with
                st := .move, requester := .host, direction := dir, profile := p, requested := some steps.toNat
                remaining := some steps.toNat, ramp := 0, taken := 0, stopCause := none, tag := tag
                timer := some ((s.profile p).getD 0 0) }))

/-- R81, R84, R85, R93, R91, R28, R29, R42, R37, R48, R44: A step moves the pattern index by one in HALF mode or from
an even index, by two otherwise, up in FORWARD and down in BACK, modulo 8; it adds 1 to the steps taken, up to 65535,
and takes 1 from a bounded remaining count. With i the ramp index and rem the steps remaining after the step, the new
index is i - 1 where rem is at most i; else i + 1 where rem is above i + 1, or unbounded, and the profile has that
index; else i; a ramp index below the remaining count stays below it while steps remain. At rem 0 the channel is in
HOLD with its timer stopped; otherwise its state stays and its timer runs on the interval at the new index.
STEP_INTERVAL_EXPIRY on a host move changes that channel alone, and at the end hands MOVE_END (result DONE for every
cause: log entry 10) and then the MOVE MOTOR's DONE with the end cause (STOPPED too: log entry 10). On a print stream's
PAPER move, its end goes to the print path. On a scan stream's DOC channel each step is counted: in WAIT_EDGE to the
feed limit, where the page ends NO_DOCUMENT; in CAPTURE, STALLED and TRAILING, every K-th is a trigger position: it
uses up a line to skip, or is nothing while closing, or is a line trigger: a readout in progress is abandoned, its line
lost OVERRUN, and its buffer reads anew; else the free buffer, A first, begins a readout; else the line is lost
NO_BUFFER. The trigger that reaches the page limit, or that uses up the trailing lines, closes the page with LIMIT or
EDGE, LIMIT first, and ends it where no readout is in progress. At HOLD a STALLED stream restarts, and one ENDING with
PAGE_SCANNED written is OFF, detached, the channel given back. -/
def Obligations.StepIntervalRow : Prop :=
  ∀ (s : State) (ch : Chan),
      let c := s.chan ch
      let mode := s.stepMode ch
      let profile := s.profile c.profile
      let y := c.step mode profile
      let stride := if mode = .half ∨ c.pattern.val % 2 = 0 then 1 else 2
      (y.pattern.val = (match c.direction with | .forward => (c.pattern.val + stride) % 8 | .back => (c.pattern.val + 8 - stride) % 8))
      ∧ y.taken = min 65535 (c.taken + 1) ∧ y.remaining = c.remaining.map (· - 1)
      ∧ (c.remaining = none →
        y.ramp = (if c.ramp + 1 < profile.length then c.ramp + 1 else c.ramp)
        ∧ y.st = c.st ∧ y.timer = some (profile.getD y.ramp 0))
      ∧ (∀ rem, c.remaining = some (rem + 1) →
        y.ramp = (if rem ≤ c.ramp then c.ramp - 1
          else if c.ramp + 1 < rem ∧ c.ramp + 1 < profile.length then c.ramp + 1
          else c.ramp)
        ∧ (c.ramp < rem + 1 → 1 ≤ rem → y.ramp < rem)
        ∧ (1 ≤ rem → y.st = c.st ∧ y.timer = some (profile.getD y.ramp 0))
        ∧ (rem = 0 → y.st = .hold ∧ y.timer = none))
      ∧ (c.moving = true → c.timer.isSome = true → c.requester = .host → (ch = .doc → s.doc.owner ≠ .scan) →
        let cause : EndCause := if c.requested = some y.taken then .complete else
          match c.stopCause with
          | some .request => .request
          | some .stopped => .stopped
          | some .cover => .cover
          | none => .complete
        exec (.stepIntervalExpiry ch) s = .next
          (if y.remaining ≠ some 0 then s.setChan ch y
           else ((s.setChan ch y).handEvent .moveEnd c.tag .done
              ([byte (chanCode ch), byte (endCauseCode cause), byte y.pattern.val] ++ twoBytes (c.requested.getD 0)
                ++ twoBytes y.taken)).handDone c.tag 11 (if cause = .complete then .done else .aborted)
              (twoBytes y.taken ++ [byte (endCauseCode cause)])))
      ∧ (c.moving = true → c.timer.isSome = true → ch = .paper → c.requester = .print →
        exec (.stepIntervalExpiry ch) s = .next
          (if y.remaining ≠ some 0 then s.setChan ch y else (s.setChan ch y).printMoveEnd))
      ∧ (c.moving = true → c.timer.isSome = true → ch = .doc → c.requester = .scan → s.doc.owner = .scan →
        let u := (s.setDoc y).scanDocStep
        exec (.stepIntervalExpiry ch) s = .next (if y.remaining ≠ some 0 then u else u.scanRestart.scanTryOff))
      ∧ (let x := s.scan
        (x.st = .off ∨ x.st = .ending ∨ x.st = .cal → s.scanDocStep = s)
        ∧ (x.st = .waitEdge →
          let n := min 65535 (x.feedCount + 1)
          let u := s.setScan { x with feedCount := n }
          s.scanDocStep = if x.params.feedLimit ≤ n then u.scanPageEnd .noDocument else u)
        ∧ (x.st = .capture ∨ x.st = .stalled ∨ x.st = .trailing →
          (x.stepCounter + 1 < x.params.k → s.scanDocStep = s.setScan { x with stepCounter := x.stepCounter + 1 })
          ∧ (x.params.k ≤ x.stepCounter + 1 → 0 < x.skipRemaining →
            s.scanDocStep = s.setScan { x with stepCounter := 0, skipRemaining := x.skipRemaining - 1 })
          ∧ (x.params.k ≤ x.stepCounter + 1 → x.skipRemaining = 0 → x.closing = true →
            s.scanDocStep = s.setScan { x with stepCounter := 0 })
          ∧ (x.params.k ≤ x.stepCounter + 1 → x.skipRemaining = 0 → x.closing = false →
            let counts := x.st = .trailing ∨ x.stalledFrom = .trailing ∧ x.st = .stalled
            let left := if counts then x.trailingRemaining - 1 else x.trailingRemaining
            let limit := x.params.pageLimit ≤ x.triggerCount + 1
            let edge := counts ∧ left = 0
            let z := { x with
              stepCounter := 0, triggerCount := x.triggerCount + 1, trailingRemaining := left
              closing := decide (limit ∨ edge), endReason := if limit then some .limit else if edge then some .edge else x.endReason }
            let reading : ScanBuf := { st := .readout, words := [], black := 0 }
            let lost := { z with
              lostSinceWritten := min 255 (x.lostSinceWritten + 1), lostOverrun := min 65535 (x.lostOverrun + 1)
              nextRow := List.replicate 2048 0, carry := 0 }
            let none' := s.setScan { z with
              lostSinceWritten := min 255 (x.lostSinceWritten + 1), lostNoBuffer := min 65535 (x.lostNoBuffer + 1) }
            s.scanDocStep =
              if x.bufA.st = .readout then s.setScan { lost with bufA := reading }
              else if x.bufB.st = .readout then s.setScan { lost with bufB := reading }
              else if x.bufA.st = .free then s.setScan { z with bufA := reading }
              else if x.bufB.st = .free then s.setScan { z with bufB := reading }
              else if limit then none'.scanPageEnd .limit
              else if edge then none'.scanPageEnd .edge
              else none'))
        ∧ (s.doc.moving = false → s.scanTryOff =
          if x.st = .ending ∧ x.endCell = .written then
            ((s.setScan { x with st := .off }).setRing x.params.ring { s.ring x.params.ring with prodAttached := false }).setDoc
              { s.doc with owner := .host }
          else s))

/-- R103, R104, R105, R106, R107, R109, R110, R111, R143, R78, R88: CONVERSION_COMPLETE: the entry's reading is the raw
value times the gain, limited to 255; its new zone follows from its present zone: from UNKNOWN and MID, LOW below lo,
HIGH above hi, else MID; from LOW, LOW below lo + h limited to 255, else HIGH above hi, else MID; from HIGH, HIGH above
hi - h limited to 0, else LOW below lo, else MID. A change from a zone other than UNKNOWN hands a SENSE cell where the
entry reports, but not in STANDBY, then goes to the blocks that act on the role, then is a wake cause where the entry
wakes; a first setting goes to the blocks alone, and in a standby sweep nowhere. The cells' order and DOC before PAPER
in an emergency are log entries 9 and 10. Then the next entry's conversion begins unless the hold stands; after the
last of a normal sweep a snapshot falls due and an owed sweep begins, its pending list installed; a standby sweep
converts the entries with the wake flag alone, hands SENSE cells also in LEAVING, where R111 says none (log entry 19),
and at its end FAST_RC is no more asked for, and is STOPPED in STANDBY. A conversion of an abandoned sweep stores
nothing. SUPPLY LOW stops both channels at once: a moving one is in HOLD with nothing remaining (its stop cause and
ramp index kept: log entry 25); then the scan and print streams are cut, and a host move's MOVE_END and DONE, ABORTED,
follow. COVER, PAPER, HEAD_TEMP and DOC_EDGE are in PrintCommandRows and ScanStopsAndStalls. -/
def Obligations.ConversionRow : Prop :=
  ∀ (s : State) (raw : Byte) (p : Nat) (i : Installed),
      let x := s.sense
      let lo := i.entry.low
      let hi := i.entry.high
      let h := i.entry.hyst
      let r := min 255 (raw.toNat * i.entry.gain)
      let plain : Zone := if r < lo then .low else if hi < r then .high else .mid
      let zone : Zone := match i.zone with
        | .unknown => plain
        | .mid => plain
        | .low => if r < min 255 (lo + h) then .low else if hi < r then .high else .mid
        | .high => if hi - h < r then .high else if r < lo then .low else .mid
      let t := s.setSense { x with list := x.list.set p { i with reading := r, zone := zone }, converting := false }
      let handed := fun (first : State) =>
        if i.zone = zone then t
        else if i.zone = .unknown then first
        else
          let u := (if i.entry.report = true ∧ s.clk.power ≠ .standby then t.handEvent .sense 0 .done
              [byte p, byte (roleCode i.entry.role), byte i.entry.channel, byte (zoneCode i.zone), byte (zoneCode zone), byte r]
            else t).zoneToBlocks i.entry.role zone
          if i.entry.wake = true then u.wake (.sense p zone) else u
      let begins := fun (u : State) =>
        let y := match u.sense.pendingList with
          | none => u.sense
          | some n => { u.sense with
              list := n.entries.map (fun e => { entry := e, reading := 0, zone := .unknown }), period := n.period
              standby := n.standby, pendingList := none }
        if y.list = [] then (u.setSense { y with sweep := .none }).snapshotDue
        else u.setSense { y with sweep := .normal 0, converting := !y.hold }
      let ended := fun (u : State) =>
        if u.sense.owed then begins (u.setSense { u.sense with sweep := .none, owed := false })
        else u.setSense { u.sense with sweep := .none }
      (x.converting = true → x.sweep = .normal p → x.list[p]? = some i →
        let u := handed (t.zoneToBlocks i.entry.role zone)
        exec (.conversionComplete raw) s = .next
          (if p + 1 < x.list.length then u.setSense { u.sense with sweep := .normal (p + 1), converting := !u.sense.hold }
           else ended u.snapshotDue))
      ∧ (x.converting = true → x.sweep = .standby p → x.list[p]? = some i →
        let u := handed t
        (∀ q j, p < q → (∀ k, p < k → k < q → ∀ j, x.list[k]? = some j → j.entry.wake = false) → x.list[q]? = some j →
          j.entry.wake = true →
          exec (.conversionComplete raw) s = .next
            (u.setSense { u.sense with sweep := .standby q, converting := !u.sense.hold }))
        ∧ ((∀ k, p < k → ∀ j, x.list[k]? = some j → j.entry.wake = false) →
          exec (.conversionComplete raw) s = .next (ended (u.setClk { u.clk with
            needSense := false, fastRc := if u.clk.power = .standby then .stopped else u.clk.fastRc }))))
      ∧ (x.converting = true → x.sweep = .none →
        exec (.conversionComplete raw) s = .next (s.setSense { x with converting := false }))
      ∧ s.zoneToBlocks .supply .low = s.emergencyStop .supply .supply .supply
      ∧ (∀ reason : PrintReason,
        let y := s.print
        s.printCut reason = if y.st = .off then s else s.setPrint { y with
          pendPaper := false, pendCommand := false, pendHot := false, ending := some (y.ending.getD reason), cut := true
          owed := 0, interrupted := none
          headLine := if y.firing = true ∧ reason = .aborted then y.headLine else none
          cool := if y.firing = true ∧ reason ≠ .aborted then 0 else y.cool
          slew := none, slewing := if y.st = .paused then none else y.slewing })
      ∧ (∀ (a : ScanReason) (b : PrintReason) (cause : EndCause), cause ≠ .complete →
        let stop := fun (c : Channel) => if c.moving then { c with st := .hold, remaining := some 0, timer := none } else c
        let told := fun (ch : Chan) (u : State) =>
          let c := u.chan ch
          match c.requester with
          | .host => (u.handEvent .moveEnd c.tag .done
              ([byte (chanCode ch), byte (endCauseCode cause), byte c.pattern.val] ++ twoBytes (c.requested.getD 0)
                ++ twoBytes c.taken)).handDone c.tag 11 .aborted (twoBytes c.taken ++ [byte (endCauseCode cause)])
          | .scan => u.scanRestart.scanTryOff
          | .print => u.printMoveEnd
        let u := (((s.setDoc (stop s.doc)).setPaper (stop s.paper)).scanCut a).printCut b
        let v := if s.doc.moving then told .doc u else u
        s.emergencyStop a b cause = if s.paper.moving then told .paper v else v)

/-- R104, R108, R111, R134, R143, R156: SWEEP_PERIOD_EXPIRY in RUN or SLOW with a sweep in progress marks one owed;
with none, a pending list is installed, every reading 0 and every zone UNKNOWN, and the first conversion begins unless
the hold stands; a sweep of an empty list begins and ends there, with a snapshot due. In another power state, with the
timer stopped, or while the last conversion of an abandoned sweep still runs, the row changes nothing (log entry 8).
STANDBY_TIMER_EXPIRY in STANDBY with a standby sweep in progress is dropped; with none, FAST_RC STOPPED is asked for,
STARTING awaited, and on RUNNING the standby sweep begins. FAST_RC_RUNNING makes it RUNNING; asked for by leaving it
moves the core to FAST_RC and takes memory out of self-refresh under a refresh burst; asked for by the sense unit it
begins the standby sweep. A standby sweep installs a pending list and converts the first entry with the wake flag,
unless the hold stands, or with no such entry ends at once (log entry 34): FAST_RC is no more asked for, and is STOPPED
in STANDBY; a standby interval of 0 then in force stops the standby timer. -/
def Obligations.SweepRows : Prop :=
  ∀ (s : State) (e : Installed) (rest : List Installed),
      (s.sense.periodTimer = true → (s.clk.power = .run ∨ s.clk.power = .slow) → s.sense.sweep ≠ .none →
        exec .sweepPeriodExpiry s = .next (s.setSense { s.sense with owed := true }))
      ∧ (s.sense.periodTimer = true → (s.clk.power = .run ∨ s.clk.power = .slow) → s.sense.sweep = .none →
        s.sense.converting = false →
        (s.sense.pendingList = none → s.sense.list = [] → exec .sweepPeriodExpiry s = .next s.snapshotDue)
        ∧ (∀ (t : SenseTable), s.sense.pendingList = some t → t.entries = [] →
          exec .sweepPeriodExpiry s = .next (s.setSense { s.sense with
            list := [], period := t.period, standby := t.standby, pendingList := none }).snapshotDue)
        ∧ (s.sense.pendingList = none → s.sense.list = e :: rest →
          exec .sweepPeriodExpiry s = .next (s.setSense { s.sense with sweep := .normal 0, converting := !s.sense.hold }))
        ∧ (∀ (t : SenseTable), s.sense.pendingList = some t → t.entries ≠ [] →
          exec .sweepPeriodExpiry s = .next (s.setSense { s.sense with
            list := t.entries.map (fun x => { entry := x, reading := 0, zone := .unknown }), period := t.period
            standby := t.standby, pendingList := none, sweep := .normal 0, converting := !s.sense.hold })))
      ∧ ((s.sense.periodTimer = false ∨ (s.clk.power ≠ .run ∧ s.clk.power ≠ .slow)
          ∨ (s.sense.sweep = .none ∧ s.sense.converting = true)) → exec .sweepPeriodExpiry s = .next s)
      ∧ (s.clk.power = .standby → s.sense.standbyTimer = true →
        (s.sense.sweep ≠ .none → exec .standbyTimerExpiry s = .next s)
        ∧ (s.sense.sweep = .none → s.clk.fastRc = .stopped →
          exec .standbyTimerExpiry s = .next (s.setClk { s.clk with needSense := true, fastRc := .starting }))
        ∧ (s.sense.sweep = .none → s.clk.fastRc = .starting →
          exec .standbyTimerExpiry s = .next (s.setClk { s.clk with needSense := true })))
      ∧ (let y : Sense := match s.sense.pendingList with
           | none => s.sense
           | some n => { s.sense with
               list := n.entries.map (fun e => { entry := e, reading := 0, zone := .unknown }), period := n.period
               standby := n.standby, pendingList := none }
         let z := { y with standbyTimer := s.sense.standbyTimer && y.standby != 0 }
         let begun := fun (t : State) (out : Host.Outcome State Fault Refusal) =>
          (∀ p (i : Installed), y.list[p]? = some i → i.entry.wake = true → (∀ k < p, ∀ j : Installed, y.list[k]? = some j → j.entry.wake = false) →
            out = .next (t.setSense { z with sweep := .standby p, converting := !s.sense.hold }))
          ∧ ((∀ j ∈ y.list, j.entry.wake = false) →
            out = .next ((t.setClk { t.clk with
              needSense := false, fastRc := if t.clk.power = .standby then .stopped else t.clk.fastRc }).setSense
              { z with sweep := .none }))
         let left := (s.setClk { s.clk with fastRc := .running, core := .fastRc, needLeave := false }).setPmc
          ({ s.pmc with st := .srExit, refreshTimer := true, burstRem := 8 }.grantPoint s.cfg)
         (s.clk.power = .standby → s.sense.standbyTimer = true → s.sense.sweep = .none → s.clk.fastRc = .running →
          s.sense.owed = false → begun (s.setClk { s.clk with needSense := true }) (exec .standbyTimerExpiry s))
         ∧ (s.clk.fastRc = .starting →
          (s.clk.needSense = true → s.clk.needLeave = false → s.sense.owed = false →
            begun (s.setClk { s.clk with fastRc := .running }) (exec .fastRcRunning s))
          ∧ (s.clk.needLeave = true → s.pmc.st = .selfRefresh →
            (s.clk.needSense = false → exec .fastRcRunning s = .next left)
            ∧ (s.clk.needSense = true → s.sense.owed = false → begun left (exec .fastRcRunning s)))))

/-- R107, R112, R113, R114, R115, R116: RING_EDGE: in IDLE it begins a run of one edge; in COUNTING it counts and
restarts the edge gap, and at Q edges the burst qualifies: the ring count goes up by 1, up to 255, the burst-end timer
runs, the silence timer stops, a RING cell (result DONE: log entry 10) carries the count, but not in STANDBY, and the
burst is a wake cause; in QUALIFIED it restarts the burst-end timer. EDGE_GAP_EXPIRY ends a run. BURST_END_EXPIRY ends
a burst and starts the silence timer, whose expiry sets the ring count to 0. INPUT_LEVEL_CHANGE runs the debounce timer
exactly while the level differs from the stable one. DEBOUNCE_EXPIRY sets the stable level: a KEY press hands an INPUT
cell and is a wake cause, a KEY release nothing, and a HOOK change, with the ring count 0 and the silence timer
stopped, hands an INPUT cell and is a wake cause; no cell in STANDBY. What a wake cause does in each power state is
StandbyRows. -/
def Obligations.LineInputRows : Prop :=
  ∀ (s : State) (high : Bool),
      let x := s.lines
      let handed := fun (t : State) (k : Kind) (fields : List Byte) =>
        if s.clk.power = .standby then t else t.handEvent k 0 .done fields
      (x.watching = true → x.qual = .idle →
        exec .ringEdge s = .next (s.setLines { x with qual := .counting, edges := 1, edgeGapTimer := true }))
      ∧ (x.watching = true → x.qual = .counting → x.edges < 15 →
        exec .ringEdge s = .next
          (if s.cfg.ringQ ≤ x.edges + 1 then
            (handed (s.setLines { x with
              qual := .qualified, edges := x.edges + 1, edgeGapTimer := false, burstEndTimer := true, silenceTimer := false
              ringCount := min 255 (x.ringCount + 1) }) .ring [byte (min 255 (x.ringCount + 1))]).wake
              (.ring (min 255 (x.ringCount + 1)))
           else s.setLines { x with edges := x.edges + 1, edgeGapTimer := true }))
      ∧ (x.watching = true → x.qual = .qualified → exec .ringEdge s = .next (s.setLines { x with burstEndTimer := true }))
      ∧ (x.qual = .counting → x.edgeGapTimer = true →
        exec .edgeGapExpiry s = .next (s.setLines { x with qual := .idle, edges := 0, edgeGapTimer := false }))
      ∧ (x.qual = .qualified → x.burstEndTimer = true →
        exec .burstEndExpiry s = .next (s.setLines { x with
          qual := .idle, edges := 0, burstEndTimer := false, silenceTimer := true }))
      ∧ (x.silenceTimer = true →
        exec .silenceTimerExpiry s = .next (s.setLines { x with ringCount := 0, silenceTimer := false }))
      ∧ (x.watching = true → x.hook.level ≠ high →
        exec (.inputLevelChange .hook high) s = .next (s.setLines { x with
          hook := { level := high, stable := x.hook.stable, timer := decide (high ≠ x.hook.stable) } }))
      ∧ (x.watching = true → x.key.level ≠ high →
        exec (.inputLevelChange .key high) s = .next (s.setLines { x with
          key := { level := high, stable := x.key.stable, timer := decide (high ≠ x.key.stable) } }))
      ∧ (x.key.timer = true →
        let t := s.setLines { x with key := { level := x.key.level, stable := x.key.level, timer := false } }
        exec (.debounceExpiry .key) s = .next
          (if x.key.level then (handed t .input [1, 1]).wake .key else t))
      ∧ (x.hook.timer = true →
        exec (.debounceExpiry .hook) s = .next
          ((handed (s.setLines { x with
            hook := { level := x.hook.level, stable := x.hook.level, timer := false }, ringCount := 0
            silenceTimer := false }) .input [0, if x.hook.level then 1 else 0]).wake (.hook x.hook.level)))

/-- R141, R142, R144, R145: SWITCH_CLOCK: outside RUN and SLOW it is BUSY; then a target that is none of CRYSTAL,
CRYSTAL_X2 and FAST_RC, or is not fitted, BAD_ARG; then with a switch pending BUSY; each changes nothing but the DONE.
A target equal to the core source is DONE at once. Otherwise the switch is pending with origin COMMAND and the tag, and
no cell is handed: in WAIT_QUIET under the conversion hold for FAST_RC and for CRYSTAL with the crystal RUNNING; in
LOCKING for CRYSTAL_X2 with the crystal RUNNING; else in STARTING with a crystal start. SETTLE_COUNT_REACHED moves a
starting switch to WAIT_QUIET or LOCKING, PLL_LOCK a locking one to WAIT_QUIET. -/
def Obligations.SwitchClockRow : Prop :=
  ∀ (s : State) (tag target : Byte) (g : Source),
      let x := s.clk
      let i : Instr := .switchClock tag target
      let held := fun (u : State) => u.setSense { s.sense with hold := true }
      (x.power ≠ .run → x.power ≠ .slow → exec i (s.given i) = .next (s.handDone tag 15 .busy))
      ∧ (x.power = .run ∨ x.power = .slow →
        (¬((target.toNat = 0 ∧ s.cfg.preX ≠ 0) ∨ (target.toNat = 1 ∧ s.cfg.preX2 ≠ 0) ∨ target.toNat = 2) →
          exec i (s.given i) = .next (s.handDone tag 15 .badArg))
        ∧ (target.toNat = sourceCode g → (g = .crystal → s.cfg.preX ≠ 0) → (g = .crystalX2 → s.cfg.preX2 ≠ 0) →
          g ≠ .slowRc →
          let w : Switch := { st := .none, target := some g, origin := some .command, tag := tag }
          exec i (s.given i) = .next
            (if x.sw.st ≠ .none then s.handDone tag 15 .busy
             else if g = x.core then s.handDone tag 15 .done [0, byte (sourceCode x.core)]
             else if g = .fastRc ∨ (g = .crystal ∧ x.crystal = .running) then
              held (s.setClk { x with sw := { w with st := .waitQuiet } })
             else if x.crystal = .running then s.setClk { x with pll := .locking, sw := { w with st := .locking } }
             else s.setClk { x with crystal := .starting, settle := 0, sw := { w with st := .starting } })))
      ∧ (x.crystal = .starting → x.sw.target = some .crystal → exec .settleCountReached s = .next
          (held (s.setClk { x with crystal := .running, settle := 4096, sw := { x.sw with st := .waitQuiet } })))
      ∧ (x.crystal = .starting → x.sw.target = some .crystalX2 → exec .settleCountReached s = .next
          (s.setClk { x with crystal := .running, settle := 4096, pll := .locking, sw := { x.sw with st := .locking } }))
      ∧ (x.pll = .locking → exec .pllLock s = .next
          (held (s.setClk { x with pll := .locked, sw := { x.sw with st := .waitQuiet } })))

/-- R141, R142, R145, R146, R147, R148, R149, R150, R158, R88: SWITCH_COMPLETE in WAIT_QUIET while both channels are at
rest, no heat pulse and no conversion is in progress: the core source is the target, the oscillators it does not need
are stopped, CLOCK_FAILED is cleared for a crystal target, the hold is lifted, the switch is NONE; a CLOCK cell, and
for origin COMMAND the DONE, report DONE. START_WINDOW_EXPIRY, LOCK_WINDOW_EXPIRY, and LOSS_WINDOW_EXPIRY in WAIT_QUIET
with the core on FAST_RC: the switch fails, what it started and the core does not need is stopped, CLOCK_FAILED is set
for a boot switch alone, and the cells report FAILED with CRYSTAL_NO_START, PLL_NO_LOCK or CRYSTAL_LOST.
LOSS_WINDOW_EXPIRY with the core on the crystal: the core is on FAST_RC, the crystal and PLL are STOPPED, CLOCK_FAILED
is set, the settle counter is 0 (here and wherever the crystal is stopped: log entry 31), the switch is NONE, both
channels are at rest and no heat pulse is in progress; memory is as before: a switch pending then fails first with its
own cells, CRYSTAL_LOST, then the failure's CLOCK cell is handed, FAILED, origin MONITOR, CRYSTAL_LOST, target FF hex
(log entry 32), FAST_RC, CLOCK_FAILED, and then both channels stop at once and the streams are cut with CLOCK, as
ConversionRow says, their cells following (R149 fixes no order of these with the CLOCK cell: log entry 9). -/
def Obligations.SwitchEndRows : Prop :=
  ∀ (s : State) (g : Source) (o : Origin),
      let x := s.clk
      let lifted := { s.sense with
        hold := false, converting := s.sense.converting || (s.sense.hold && s.sense.sweep != .none) }
      let report := fun (u : State) (r : Result) (code : Byte) =>
        let cell := fun (tag : Byte) => u.handEvent .clock tag r
          [byte (originCode o), code, byte (sourceCode g), byte (sourceCode u.clk.core), if u.clk.failed then 1 else 0]
        if o = .command then (cell x.sw.tag).handDone x.sw.tag 15 r [code, byte (sourceCode u.clk.core)] else cell 0
      let failed := x.failed || decide (o = .boot)
      (x.sw.target = some g → x.sw.origin = some o →
        (x.sw.st = .waitQuiet → g ≠ .slowRc → s.doc.moving = false → s.paper.moving = false → s.print.firing = false →
          s.sense.converting = false →
          let y := { x with core := g, sw := {} }
          exec .switchComplete s = .next (report ((s.setClk (match g with
            | .crystal => { y with pll := .stopped, failed := false }
            | .crystalX2 => { y with failed := false }
            | .fastRc | .slowRc => { y with crystal := .stopped, pll := .stopped, settle := 0 })).setSense lifted) .done 0))
        ∧ (x.crystal = .starting → x.core = .fastRc → exec .startWindowExpiry s = .next
            (report ((s.setClk { x with crystal := .stopped, pll := .stopped, settle := 0, sw := {}, failed := failed }).setSense
              lifted) .failed 1))
        ∧ (x.pll = .locking → (x.core = .crystal ∨ x.core = .fastRc) → exec .lockWindowExpiry s = .next
            (report ((s.setClk (if x.core = .crystal then { x with pll := .stopped, sw := {}, failed := failed }
              else { x with crystal := .stopped, pll := .stopped, settle := 0, sw := {}, failed := failed })).setSense
              lifted) .failed 2))
        ∧ (s.cfg.monitor = true → x.core = .fastRc → x.sw.st = .waitQuiet → (g = .crystal ∨ g = .crystalX2) →
            exec .lossWindowExpiry s = .next
              (report ((s.setClk { x with crystal := .stopped, pll := .stopped, settle := 0, sw := {}, failed := failed }).setSense
                lifted) .failed 3)))
      ∧ (s.cfg.monitor = true → (x.core = .crystal ∨ x.core = .crystalX2) →
        let lost := { x with core := .fastRc, crystal := .stopped, pll := .stopped, settle := 0, failed := true }
        let told := fun (u : State) => (u.handEvent .clock 0 .failed [3, 3, 0xFF, 2, 1]).emergencyStop .clock .clock .clock
        (x.sw.st = .none → exec .lossWindowExpiry s = .next (told (s.setClk lost)))
        ∧ (x.sw.st ≠ .none → x.sw.target = some g → x.sw.origin = some o →
          exec .lossWindowExpiry s = .next (told (report ((s.setClk { lost with sw := {} }).setSense lifted) .failed 3))))
      ∧ (s.cfg.monitor = true → (x.core = .crystal ∨ x.core = .crystalX2) → (s.print.st = .off → s.print = {}) →
        ∃ t, exec .lossWindowExpiry s = .next t
          ∧ t.clk.core = .fastRc ∧ t.clk.crystal = .stopped ∧ t.clk.pll = .stopped ∧ t.clk.settle = 0
          ∧ t.clk.failed = true ∧ t.clk.sw.st = .none ∧ t.clk.power = x.power
          ∧ t.doc.moving = false ∧ t.paper.moving = false ∧ t.print.firing = false
          ∧ (s.print.st ≠ .off → t.print.ending.isSome = true)
          ∧ (s.scan.st = .waitEdge ∨ s.scan.st = .capture ∨ s.scan.st = .stalled ∨ s.scan.st = .trailing →
              t.scan.endReason = some .clock ∧ (t.scan.st = .ending ∨ t.scan.st = .off))
          ∧ t.mem = s.mem)

/-- R138, R145, R149, R154, R156, R159: For every command: if exec answers a next state with another core source, the
command is SWITCH_COMPLETE in WAIT_QUIET, with both channels at rest and no heat pulse or conversion in progress, and
the new source is the target; or LOSS_WINDOW_EXPIRY with the core on a crystal source, and the new source is FAST_RC
with CLOCK_FAILED set; or STANDBY_ENTRY, and it is SLOW_RC; or the part was leaving STANDBY or takes a wake cause in
it, and it is FAST_RC; or one of the rows at which a cold start may begin, and it is FAST_RC. -/
def Obligations.CoreSourceChanges : Prop :=
  ∀ (i : Instr) (s t : State), exec i s = .next t → t.clk.core ≠ s.clk.core →
      (i = .switchComplete ∧ s.clk.sw.st = .waitQuiet ∧ s.clk.sw.target = some t.clk.core ∧ s.doc.moving = false
          ∧ s.paper.moving = false ∧ s.print.firing = false ∧ s.sense.converting = false)
      ∨ (i = .lossWindowExpiry ∧ s.clk.core.isCrystal = true ∧ t.clk.core = .fastRc ∧ t.clk.failed = true)
      ∨ (i = .standbyEntry ∧ s.clk.power = .entering ∧ t.clk.core = .slowRc)
      ∨ ((s.clk.power = .standby ∨ s.clk.needLeave = true) ∧ t.clk.core = .fastRc)
      ∨ ((i = .powerOnDetect ∨ i = .resetPinLow ∨ i = .responsePutAcknowledged) ∧ t.clk.core = .fastRc)

/-- R98, R110, R152, R154, R143: SET_POWER in ENTERING or LEAVING is BUSY, and elsewhere with a target of 3 or more
BAD_ARG. RUN: ratio 1 and snap-back clear. SLOW: the ratio is the power of two at or below the one given, 0 taken as 1
and what is above 128 as 128, and the snap-back flag the one given. STANDBY: BUSY with a stream active, the link on, a
channel moving, a table load in flight or a switch pending; otherwise the wake timer setting is kept, the DONE handed,
the state is ENTERING, held motors are released and marked, the period timer stops and a sweep is abandoned, a standby
sweep's need of FAST_RC with it. Each DONE carries the state and ratio in force where it is handed, a refusal's too
(log entry 27), and nothing else changes. -/
def Obligations.SetPowerRow : Prop :=
  ∀ (s : State) (tag target : Byte) (snapBack : Bool) (ratio wakeTimer : Half) (k : Nat),
      let x := s.clk
      let i : Instr := .setPower tag target snapBack ratio wakeTimer
      let inForce := [byte (match x.power with | .run => 0 | .slow => 1 | .entering => 2 | .standby => 3 | .leaving => 4), byte x.ratio]
      let release := fun (c : Channel) => if c.st = .hold then { c with st := .idle, released := true } else { c with released := false }
      (x.power = .entering ∨ x.power = .leaving → exec i (s.given i) = .next (s.handDone tag 14 .busy inForce))
      ∧ (x.power ≠ .entering → x.power ≠ .leaving →
        (3 ≤ target.toNat → exec i (s.given i) = .next (s.handDone tag 14 .badArg inForce))
        ∧ (target.toNat = 0 → exec i (s.given i) = .next
            ((s.setClk { x with power := .run, ratio := 1, snapBack := false }).handDone tag 14 .done [0, 1]))
        ∧ (target.toNat = 1 → 2 ^ k ≤ min 128 (max 1 ratio.toNat) → min 128 (max 1 ratio.toNat) < 2 ^ (k + 1) →
            exec i (s.given i) = .next
              ((s.setClk { x with power := .slow, ratio := 2 ^ k, snapBack := snapBack }).handDone tag 14 .done
                [1, byte (2 ^ k)]))
        ∧ (target.toNat = 2 → exec i (s.given i) = .next
            (if s.scan.st ≠ .off ∨ s.print.st ≠ .off ∨ s.link.st ≠ .off ∨ s.doc.moving = true ∨ s.paper.moving = true
                ∨ s.cells.loader ≠ .idle ∨ x.sw.st ≠ .none then s.handDone tag 14 .busy inForce
             else
              (((((s.setClk { x with wakeSetting := wakeTimer.toNat }).handDone tag 14 .done
                  inForce .standby).setClk
                  { x with
                    wakeSetting := wakeTimer.toNat, power := .entering, doneWritten := false, entrySent := false
                    needSense := false }).setDoc
                  (release s.doc)).setPaper (release s.paper)).setSense
                { s.sense with periodTimer := false, owed := false, sweep := .none })))

/-- R98, R147, R153, R154, R155, R156, R157, R158, R193, R132, R134, R188: HOST_CLOCK_STOP in ENTERING with the DONE
written, no request sent, no wake cause and no host request outstanding stops HOST_CLK and sends the entry request.
STANDBY_ENTRY in SELF_REFRESH with no conversion running records the core source, stops the oscillators, the settle
counter then 0 (log entry 31), moves the core to SLOW_RC and starts the timers whose settings are not 0.
WAKE_TIMER_EXPIRY in STANDBY with FAST_RC STOPPED latches TIMER, stops the timers and asks for FAST_RC in LEAVING.
REFRESH_BURST_DONE in SR_EXIT: memory is RUNNING; in LEAVING the state is RUN with ratio 1, HOST_CLK runs, the WAKE
cell is handed, the period timer runs, and a crystal source before standby begins a switch with origin WAKE; in
ENTERING the abandoned entry returns to RUN with the release undone and its WAKE cell marked; a snapshot falls due. A
wake cause does nothing in RUN and LEAVING, in SLOW without snap-back, and in ENTERING after the first; in SLOW with
snap-back the state is RUN with ratio 1 and a WAKE cell from SLOW follows; in ENTERING with no request sent, or
withdrawing the one memory has not reported, the entry is abandoned at once, and after SELF_REFRESH memory is first
asked to exit; in STANDBY the cause is latched, the timers stop, and the core moves to FAST_RC and memory exits where
it is RUNNING, else FAST_RC is asked for. The source before standby becomes absent whatever it was (log entry 30);
snap-back stays as it was (log entry 33). A WAKE cell (result DONE: log entry 10) has the cause, the state it came in,
the abandoned mark, the list position, level or count, and the zone; bytes 6 and 7 hold FF hex where the cause has no
such detail (log entry 32). -/
def Obligations.StandbyRows : Prop :=
  ∀ (s : State) (w : WakeLatch) (g : Source) (cause : WakeCause),
      let x := s.clk
      let cell := fun (c : WakeCause) (t : State) (at' : Byte) (abandoned : Byte) => t.handEvent .wake 0 .done
        (match c with
          | .sense p z => [0, at', abandoned, byte p, byte (zoneCode z)]
          | .ring n => [1, at', abandoned, byte n, 0xFF]
          | .hook b => [2, at', abandoned, if b then 1 else 0, 0xFF]
          | .key => [3, at', abandoned, 0xFF, 0xFF]
          | .timer => [4, at', abandoned, 0xFF, 0xFF])
      let running := s.setPmc { s.pmc with st := .running }
      let back := { x with
        hostClk := true, power := .run, ratio := 1, wakeLatch := none, entrySent := false, doneWritten := false }
      let undo := fun (c : Channel) => if c.released then { c with st := .hold, released := false } else c
      let undone := fun (t : State) => (((t.setClk back).setDoc (undo s.doc)).setPaper (undo s.paper)).setSense
        { s.sense with periodTimer := true }
      let exiting := Pmc.grantPoint s.cfg { s.pmc with st := .srExit, refreshTimer := true, burstRem := 8 }
      (x.power = .entering → x.doneWritten = true → x.entrySent = false → x.wakeLatch = none →
        s.pmc.hostOutstanding = false → s.pmc.st = .running →
        exec .hostClockStop s = .next
          ((s.setClk { x with hostClk := false, entrySent := true }).setPmc { s.pmc with st := .srEntry }))
      ∧ (x.power = .entering → x.entrySent = true → x.wakeLatch = none → s.pmc.st = .selfRefresh →
        s.sense.converting = false →
        exec .standbyEntry s = .next
          ((((s.setClk { x with
              power := .standby, sourceBefore := some x.core, core := .slowRc, fastRc := .stopped, crystal := .stopped
              pll := .stopped, settle := 0, wakeTimer := decide (x.wakeSetting ≠ 0) }).setSense
              { s.sense with standbyTimer := decide (s.sense.standby ≠ 0) }).setDoc
              { s.doc with released := false }).setPaper { s.paper with released := false }))
      ∧ (x.power = .standby → x.wakeTimer = true → x.fastRc = .stopped →
        exec .wakeTimerExpiry s = .next
          ((s.setClk { x with
              wakeTimer := false, wakeLatch := some ⟨.timer, false⟩, power := .leaving, needLeave := true
              fastRc := .starting }).setSense { s.sense with standbyTimer := false }))
      ∧ (s.pmc.st = .srExit → s.pmc.burstRem = 0 → x.power = .leaving → x.wakeLatch = some w → x.sourceBefore = some g →
        x.crystal = .stopped →
        let base := { back with sourceBefore := none }
        exec .refreshBurstDone s = .next
          ((((cell w.cause (running.setClk base) 3 0).setSense { s.sense with periodTimer := true }).setClk (match g with
                | .crystal | .crystalX2 =>
                  { base with
                    crystal := .starting, settle := 0, sw := ⟨.starting, some g, some .wake, 0⟩ }
                | .fastRc | .slowRc => base)).snapshotDue))
      ∧ (s.pmc.st = .srExit → s.pmc.burstRem = 0 → x.power = .entering → x.wakeLatch = some w →
        exec .refreshBurstDone s = .next
          (cell w.cause (undone running) 2 1).snapshotDue)
      ∧ (x.power = .run ∨ x.power = .leaving ∨ (x.power = .slow ∧ x.snapBack = false)
          ∨ (x.power = .entering ∧ x.wakeLatch.isSome = true) → s.wake cause = s)
      ∧ (x.power = .slow → x.snapBack = true → s.wake cause = cell cause (s.setClk { x with power := .run, ratio := 1 }) 1 0)
      ∧ (x.power = .entering → x.wakeLatch = none →
        (x.entrySent = false → s.wake cause = (cell cause (undone s) 2 1).snapshotDue)
        ∧ (x.entrySent = true → s.pmc.st = .srEntry → s.wake cause = (cell cause (undone running) 2 1).snapshotDue)
        ∧ (x.entrySent = true → s.pmc.st = .selfRefresh →
          s.wake cause = (s.setClk { x with wakeLatch := some ⟨cause, true⟩ }).setPmc exiting))
      ∧ (x.power = .standby →
        let latched := { x with wakeLatch := some ⟨cause, false⟩, power := .leaving, wakeTimer := false }
        let quiet := s.setSense { s.sense with standbyTimer := false }
        s.wake cause =
          if x.fastRc = .running then
            let t := quiet.setClk { latched with needLeave := false, core := .fastRc }
            if s.pmc.st = .selfRefresh then t.setPmc exiting else t
          else quiet.setClk { latched with needLeave := true, fastRc := .starting })

/-- R133, R134, R140, R154, R155, R156: For every command but a SET POWER judged in STANDBY (memory is in self-refresh
there and no command cell can be read): if the state satisfies it and exec answers a next state, that state satisfies
it. It: HOST_CLK runs, or the power state is ENTERING with the entry request sent, STANDBY or LEAVING; memory is in
SELF_REFRESH only in those, and in SR_ENTRY only in ENTERING with the entry request sent. -/
def Obligations.StandbyHeldKept : Prop :=
  ∀ (i : Instr) (s t : State),
      (s.clk.power = .standby → ∀ tag target snapBack ratio wakeTimer, i ≠ .setPower tag target snapBack ratio wakeTimer) →
      s.standbyHeld = true → exec i s = .next t → t.standbyHeld = true

/-- R159, R160, R161, R162, R164, R167, R168, R169, R172, R193: With no write burst in progress, POWER_ON_DETECT, and
RESET_PIN_LOW with the pin high, leave every block as after a cold start with the cause recorded (its values where the
spec gives none: log entries 5 and 6); memory, the pins and the waiting commands stay (3 and 1), the free-value counter
moves on (2), and a REBOOT's DONE performed and not acknowledged is marked (28). RESET is left for ROM_READ where
RESET_N is high and the supply good. RESET_PIN_HIGH in RESET leaves it so too. A ROM transaction stays open until a
read from another address, READY or FAILED (log entry 36); a halfword of the ROM is two bytes, the low one first, each
all ones where no device drives it. ROM_HEADER_READ: marker B62C hex and a count of 1 to 16 lead to CONFIG, else the
boot fails with code 1. RECORD_HEADER_READ: an unknown type, or a record past the end of the ROM, fails with code 3; in
CONFIG a CONFIG record of length 17 is kept, any other fails with code 2; in TABLES a second CONFIG fails with code 2,
an image is passed over, a table is kept or, of length 0, flagged and passed over, END and the last record lead to
HOST_IMAGE (the position: log entry 29); in HOST_IMAGE other records are passed over, a bad image fails with code 4, a
good one is written to its destination with class TABLE, in transfers of 2048 halfwords (log entry 16), and at END or
past the last record the boot fails with code 4 with no image copied, else enters RELEASE as BootDataRows gives.
FAULT_PULSE_TIMER_EXPIRY makes the groups of 200 ms pulses. -/
def Obligations.BootHeaderRows : Prop :=
  ∀ (s : State) (marker count typeAndTable length destination check image : List (Option Byte)),
      let x := s.boot
      let half := fun (b : List (Option Byte)) (k : Nat) =>
        ((b.getD (k + 1) none).getD 0xFF ++ (b.getD k none).getD 0xFF : Half)
      let word := fun (b : List (Option Byte)) => (half b 2 ++ half b 0 : Word)
      let records := (half count 0).toNat
      let cold := fun (pins : Pins) (cause : ColdCause) (acked : Bool) => ({ State.reset with
        pending := s.pending, mem := s.mem, pins := pins, freeCount := s.freeCount + 1
        lines := { hook := { level := s.lines.hook.level }, key := { level := s.lines.key.level } }
        boot := { cause := cause, st := if pins.resetHigh ∧ pins.supplyGood then .romRead else .reset, rebootAcked := acked } } : State)
      let reads := fun (a n : Nat) => { x with
        spiNext := some (a + n)
        spiSent := if x.spiNext = some a then x.spiSent else [0x03, byte (a / 65536), byte (a / 256), byte a] }
      let failed := fun (y : Boot) (code : Nat) => { y with
        st := .failed, code := code, fault := true, pulse := 1, faultMs := 200, header := none, spiNext := none }
      let n := (word length).toNat
      let passed := fun (y : Boot) => { y with position := x.position + 1, romAddr := x.romAddr + 12 + 2 * n }
      let flagged := fun (y : Boot) (id : Nat) => if id < 12 then { y with defaulted := y.defaulted ||| (1 <<< id) } else y
      let y := reads x.romAddr 12
      let kind := (half typeAndTable 0).toNat % 256
      let id := (half typeAndTable 0).toNat / 256
      let a := (word destination).toNat
      let halves := (List.range n).map (fun j => half image (2 * j))
      let walked := { y with st := .hostImage, position := 2, romAddr := 50 }
      let release := if x.images = 0 then s.setBoot (failed y 4) else (s.setBoot y).enterRelease
      let pastEnd := 0x1000000 < x.romAddr + 12 ∨ (kind ≠ 3 ∧ 0x1000000 < x.romAddr + 12 + 2 * n)
      let i : Instr := .recordHeaderRead typeAndTable length destination check image
      let kept := fun (k : RecordType) => { y with
        header := some { kind := k, table := id, length := n, destination := a, check := half check 0 } }
      ((∀ b cycles, s.pmc.act = .access b cycles → b.dir = .read) →
        exec .powerOnDetect s = .next (cold { s.pins with supplyGood := true } .powerOn false)
        ∧ (s.pins.resetHigh = true → exec .resetPinLow s = .next (cold { s.pins with resetHigh := false } .resetPin
          ((s.cells.putWrites.take (s.pmc.countDone .respPut)).contains .reboot))))
      ∧ (s.pins.supplyGood = true → exec .resetPinHigh s = .next
          ((s.setPins { s.pins with resetHigh := true }).setBoot (if x.st = .reset then { x with st := .romRead, rebootAcked := false } else x)))
      ∧ (x.st = .romRead → exec (.romHeaderRead marker count) s = .next (s.setBoot
          (if half marker 0 = 0xB62C ∧ 1 ≤ records ∧ records ≤ 16 then
            { reads 0 4 with st := .config, recordCount := records, position := 1, romAddr := 4 }
           else failed (reads 0 4) 1)))
      ∧ (x.st = .config → x.header = none → exec i s = .next (s.setBoot
          (if 4 ≤ kind ∨ pastEnd then failed y 3
           else if kind = 0 ∧ n = 17 then kept .config else failed y 2)))
      ∧ (x.st = .tables → x.header = none → 2 ≤ x.recordCount → exec i s = .next (s.setBoot
          (if 4 ≤ kind ∨ pastEnd then failed y 3
           else if kind = 0 then failed y 2
           else if kind = 1 ∧ n ≠ 0 then kept .table
           else if kind = 1 then flagged (if x.position < x.recordCount then passed y else walked) id
           else if kind = 2 ∧ x.position < x.recordCount then passed y
           else walked)))
      ∧ (x.st = .hostImage → x.header = none →
        (4 ≤ kind ∨ pastEnd → exec i s = .next (s.setBoot (failed y 3)))
        ∧ (kind ≤ 1 → ¬pastEnd → exec i s = .next (if x.position < x.recordCount then s.setBoot (passed y) else release))
        ∧ (kind = 3 → ¬pastEnd → exec i s = .next release)
        ∧ (kind = 2 → ¬pastEnd →
          let bad := n = 0 ∨ 524288 < n ∨ a % 2 = 1 ∨ 0x100000 < a + 2 * n ∨ s.cfg.memSize < a + 2 * n
            ∨ (a < s.cfg.cbAddr + (256 + 16 * (s.cfg.nc + s.cfg.nr)) ∧ s.cfg.cbAddr < a + 2 * n)
          (bad → exec i s = .next (s.setBoot (failed y 4)))
          ∧ (¬bad → exec i s = .next ((s.setBoot { kept .hostImage with
              spiNext := some (x.romAddr + 12 + 2 * n), imageSum := halves.foldl (· + ·) 0 }).writeImage a halves
                ((n + 2047) / 2048)))))
      ∧ (∀ (t : State) (b : Nat) (data : List Half) (k : Nat), t.writeImage b data (k + 1) =
          (t.issueWrite .table (if data.length ≤ 2048 then .bootImage else .word) b (data.take 2048)).writeImage (b + 4096)
            (data.drop 2048) k ∧ t.writeImage b data 0 = t)
      ∧ (x.st = .failed → exec .faultPulseTimerExpiry s = .next (s.setBoot
          (if x.fault then { x with fault := false, faultMs := if x.pulse < x.code then 200 else 1000 }
           else { x with fault := true, faultMs := 200, pulse := if x.pulse < x.code then x.pulse + 1 else 1 })))

/-- R132, R161, R163, R165, R166, R168, R169, R170, R173, R180, R193: A record's halfwords are its bytes two by two,
the low one first, each all ones where no device drives it. CONFIG_RECORD_READ: a bad record fails with code 2; a good
one is in force, a crystal initial source begins a switch with origin BOOT, the state is MEMORY_UP and a refresh burst
of 8 begins. REFRESH_BURST_DONE in STARTING leads to TABLES, or with one record to a failure with code 4 (its position:
log entry 35). An open ROM transaction ends at READY or FAILED (log entry 36). TABLE_RECORD_READ: a good record
installs its table (TableLoading says into which field) and clears its flag, a bad one leaves the table and sets it,
and the walk goes on, or with the last record to HOST_IMAGE. IMAGE_WRITES_ACKNOWLEDGED: a wrong sum fails with code 4;
a right one counts the image and the walk goes on, or, the list ended, RELEASE is entered: the sense unit watches its
inputs, and the index words, the summary words and the whole snapshot are written with class TABLE, as three writes
(log entry 16). RELEASE_WRITES_ACKNOWLEDGED releases the host, starts the taking of commands and is READY. REBOOT stops
the taking of commands and hands its DONE, but is BUSY in ENTERING; an unknown code is UNKNOWN. -/
def Obligations.BootDataRows : Prop :=
  ∀ (s : State) (h : RecordHeader) (bytes : List (Option Byte)) (tag code : Byte),
      let x := s.boot
      let half := fun (k : Nat) => ((bytes.getD (k + 1) none).getD 0xFF ++ (bytes.getD k none).getD 0xFF : Half)
      let data := (List.range h.length).map (fun j => half (2 * j))
      let a := x.romAddr + 12
      let y := { x with
        spiNext := some (a + 2 * h.length)
        spiSent := if x.spiNext = some a then x.spiSent else [0x03, byte (a / 65536), byte (a / 256), byte a] }
      let failed := fun (y : Boot) (code : Nat) => { y with
        st := .failed, code := code, fault := true, pulse := 1, faultMs := 200, header := none, spiNext := none }
      let passed := fun (y : Boot) => { y with position := x.position + 1, romAddr := a + 2 * h.length, header := none }
      let walked := fun (y : Boot) => if x.position < x.recordCount then passed y
        else { y with st := .hostImage, position := 2, romAddr := 50, header := none }
      let good := data.foldl (· + ·) 0 = h.check
      (x.st = .config → x.header = some h →
        (¬good ∨ parseConfig data = none → exec (.configRecordRead bytes) s = .next (s.setBoot (failed y 2)))
        ∧ ∀ c, good → parseConfig data = some c → s.pmc = {} → s.clk.crystal = .stopped →
          exec (.configRecordRead bytes) s = .next
            ((((s.setCfg c).setBoot { y with st := .memoryUp, header := none }).setClk (match c.initial with
              | .crystal | .crystalX2 =>
                { s.clk with crystal := .starting, settle := 0, sw := ⟨.starting, some c.initial, some .boot, 0⟩ }
              | .fastRc | .slowRc => s.clk)).setPmc { st := .starting, refreshTimer := true, act := .refresh, burstRem := 7 }))
      ∧ (s.pmc.st = .starting → s.pmc.burstRem = 0 → x.st = .memoryUp → x.images = 0 → exec .refreshBurstDone s = .next
          ((s.setPmc { s.pmc with st := .running }).setBoot
            (if 2 ≤ x.recordCount then { x with st := .tables, position := 2, romAddr := 50 }
             else failed { x with st := .hostImage, position := 2, romAddr := 50 } 4)))
      ∧ (x.st = .tables → x.header = some h → 2 ≤ x.recordCount →
        let filled := s.setTables { s.tables with loadArea := data.take 2048 }
        (12 ≤ h.table → exec (.tableRecordRead bytes) s = .next (filled.setBoot (walked y)))
        ∧ ∀ id : TableId, h.table = tableIdCode id →
          let bit : BitVec 16 := 1 <<< tableIdCode id
          (¬good ∨ 2048 < h.length ∨ parseTable id data = none → exec (.tableRecordRead bytes) s = .next
            (filled.setBoot (walked { y with defaulted := x.defaulted ||| bit })))
          ∧ ∀ t, good → h.length ≤ 2048 → parseTable id data = some t → exec (.tableRecordRead bytes) s = .next
            ((filled.installTable t).setBoot (walked { y with defaulted := x.defaulted &&& ~~~bit })))
      ∧ (x.st = .hostImage → x.header = some h → s.nothingFor .bootImage →
        (x.imageSum ≠ h.check → exec .imageWritesAcknowledged (s.delivered .bootImage []) = .next (s.setBoot (failed x 4)))
        ∧ (x.imageSum = h.check → x.position < x.recordCount →
          exec .imageWritesAcknowledged (s.delivered .bootImage []) = .next
            (s.setBoot (passed { x with images := x.images + 1 })))
        ∧ (x.imageSum = h.check → x.recordCount ≤ x.position →
          exec .imageWritesAcknowledged (s.delivered .bootImage []) = .next
            (s.setBoot { x with images := x.images + 1, header := none }).enterRelease))
      ∧ (let u := ((s.setBoot { x with st := .release }).setLines { s.lines with
            watching := true, hook := { s.lines.hook with stable := s.lines.hook.level }
            key := { s.lines.key with stable := s.lines.key.level } }).setSense { s.sense with periodTimer := true }
         s.enterRelease = ((u.issueWrite .table .word s.cfg.cbAddr [0, 0, 0, 0, 0, 0]).issueWrite .table .word
            (s.cfg.cbAddr + 16) [0, 0, 0, 0, 0, 0, 0, 0]).issueWrite .table .bootInit (s.cfg.cbAddr + 32)
            (u.snapshotHalves 0 .ready))
      ∧ (x.st = .release → s.nothingFor .bootInit →
        exec .releaseWritesAcknowledged (s.delivered .bootInit []) = .next
          ((s.setCells { s.cells with taking := .taking }).setBoot { x with
            st := .ready, hostReset := false, spiNext := none }))
      ∧ exec (.reboot tag) (s.given (.reboot tag)) = .next
          (if s.clk.power = .entering then s.handDone tag 17 .busy
           else (s.setCells { s.cells with taking := .stopped }).handDone tag 17 .done [] .reboot)
      ∧ exec (.unknownCommand tag code) (s.given (.unknownCommand tag code)) = .next (s.handDone tag code.toNat .unknown)

/-- R159, R169, R170, R173: For every state in which the host is held exactly until READY and RELEASE and READY are
reached with an image copied: if exec answers a next state, it is so there. And for every such state: the host reset
line is released only by RELEASE_WRITES_ACKNOWLEDGED in RELEASE, with at least one image copied, and asserted only at
the rows at which a cold start may begin. -/
def Obligations.HostHeldKept : Prop :=
  ∀ (i : Instr) (s t : State), s.hostHeld = true → exec i s = .next t →
      t.hostHeld = true
      ∧ (s.boot.hostReset = true → t.boot.hostReset = false →
          i = .releaseWritesAcknowledged ∧ s.boot.st = .release ∧ 1 ≤ s.boot.images)
      ∧ (s.boot.hostReset = false → t.boot.hostReset = true →
          (i = .powerOnDetect ∨ i = .resetPinLow ∨ i = .responsePutAcknowledged) ∧ t.boot.images = 0)

/-- R1, R17, R25, R52, R79, R122, R138, R140, R159, R160, R176: The state after reset: the core on FAST_RC with
prescaler 8, HOST_CLK at a quarter of it and running, the crystal and PLL STOPPED, CLOCK_FAILED clear, RUN; page memory
DOWN, both streams and the link OFF, the link naming no ring, the rings undefined, both motors IDLE, the sense list
empty with a period of 10 ms, the table defaults of R160, the cell unit not started, the host held and FAULT
deasserted. There page memory has its canonical form, the memory controller is sound, the response ring has room, the
line rings, the copy link, the error stores and the scan accounting are within their bounds, the scan stores whole, and
the host and standby invariants hold. -/
def Obligations.StateAfterReset : Prop :=
  ∀ s : State, s = State.reset →
      (s.clk.core = .fastRc ∧ s.prescaler = some 8 ∧ s.hostClockDivisor = some 4 ∧ s.clk.crystal = .stopped
        ∧ s.clk.pll = .stopped ∧ s.clk.fastRc = .running ∧ s.clk.failed = false ∧ s.clk.power = .run ∧ s.clk.sw.st = .none)
      ∧ (s.pmc.st = .down ∧ s.scan.st = .off ∧ s.print.st = .off ∧ s.link.st = .off ∧ s.link.source = none
        ∧ s.link.destination = none ∧ (∀ r, (s.ring r).desc = none)
        ∧ s.doc.st = .idle ∧ s.paper.st = .idle ∧ s.sense.list = [] ∧ s.sense.period = 10 ∧ s.sense.pendingList = none
        ∧ s.cells.taking = .notStarted ∧ s.boot.hostReset = true ∧ s.boot.fault = false)
      ∧ (s.tables.shading = List.replicate 2048 ⟨0, 256⟩ ∧ s.tables.tone = List.range 256 ∧ s.tables.heat = none
        ∧ ∀ p, s.profile p = [])
      ∧ memoryWf s.mem = true ∧ s.pmc.sound = true ∧ s.responseRoom ∧ s.link.bounded = true
      ∧ s.errorsBounded = true ∧ s.scan.accounted = true ∧ s.hostHeld = true ∧ s.standbyHeld = true
      ∧ s.ringsBounded = true ∧ s.scanWhole = true
end

