-- ==== Sys2Proof/Laws/State.lean ====
section
/-! SUPPORT. The state's updates: for each setter and each field, what the field is after the update. Later proofs rewrite with
these and unfold no record update. -/

namespace Sys2Proof.Machine

open Sys2Proof

@[simp] theorem State.setPending_pending (s : State) (x : List Instr) : (s.setPending x).pending = x := rfl
@[simp] theorem State.setPending_mem (s : State) (x : List Instr) : (s.setPending x).mem = s.mem := rfl
@[simp] theorem State.setPending_cfg (s : State) (x : List Instr) : (s.setPending x).cfg = s.cfg := rfl
@[simp] theorem State.setPending_tables (s : State) (x : List Instr) : (s.setPending x).tables = s.tables := rfl
@[simp] theorem State.setPending_rings (s : State) (x : List Instr) : (s.setPending x).rings = s.rings := rfl
@[simp] theorem State.setPending_link (s : State) (x : List Instr) : (s.setPending x).link = s.link := rfl
@[simp] theorem State.setPending_scan (s : State) (x : List Instr) : (s.setPending x).scan = s.scan := rfl
@[simp] theorem State.setPending_print (s : State) (x : List Instr) : (s.setPending x).print = s.print := rfl
@[simp] theorem State.setPending_doc (s : State) (x : List Instr) : (s.setPending x).doc = s.doc := rfl
@[simp] theorem State.setPending_paper (s : State) (x : List Instr) : (s.setPending x).paper = s.paper := rfl
@[simp] theorem State.setPending_sense (s : State) (x : List Instr) : (s.setPending x).sense = s.sense := rfl
@[simp] theorem State.setPending_lines (s : State) (x : List Instr) : (s.setPending x).lines = s.lines := rfl
@[simp] theorem State.setPending_pmc (s : State) (x : List Instr) : (s.setPending x).pmc = s.pmc := rfl
@[simp] theorem State.setPending_clk (s : State) (x : List Instr) : (s.setPending x).clk = s.clk := rfl
@[simp] theorem State.setPending_boot (s : State) (x : List Instr) : (s.setPending x).boot = s.boot := rfl
@[simp] theorem State.setPending_cells (s : State) (x : List Instr) : (s.setPending x).cells = s.cells := rfl
@[simp] theorem State.setPending_pins (s : State) (x : List Instr) : (s.setPending x).pins = s.pins := rfl
@[simp] theorem State.setPending_freeCount (s : State) (x : List Instr) : (s.setPending x).freeCount = s.freeCount := rfl

@[simp] theorem State.setMem_pending (s : State) (x : List Host.Cell) : (s.setMem x).pending = s.pending := rfl
@[simp] theorem State.setMem_mem (s : State) (x : List Host.Cell) : (s.setMem x).mem = x := rfl
@[simp] theorem State.setMem_cfg (s : State) (x : List Host.Cell) : (s.setMem x).cfg = s.cfg := rfl
@[simp] theorem State.setMem_tables (s : State) (x : List Host.Cell) : (s.setMem x).tables = s.tables := rfl
@[simp] theorem State.setMem_rings (s : State) (x : List Host.Cell) : (s.setMem x).rings = s.rings := rfl
@[simp] theorem State.setMem_link (s : State) (x : List Host.Cell) : (s.setMem x).link = s.link := rfl
@[simp] theorem State.setMem_scan (s : State) (x : List Host.Cell) : (s.setMem x).scan = s.scan := rfl
@[simp] theorem State.setMem_print (s : State) (x : List Host.Cell) : (s.setMem x).print = s.print := rfl
@[simp] theorem State.setMem_doc (s : State) (x : List Host.Cell) : (s.setMem x).doc = s.doc := rfl
@[simp] theorem State.setMem_paper (s : State) (x : List Host.Cell) : (s.setMem x).paper = s.paper := rfl
@[simp] theorem State.setMem_sense (s : State) (x : List Host.Cell) : (s.setMem x).sense = s.sense := rfl
@[simp] theorem State.setMem_lines (s : State) (x : List Host.Cell) : (s.setMem x).lines = s.lines := rfl
@[simp] theorem State.setMem_pmc (s : State) (x : List Host.Cell) : (s.setMem x).pmc = s.pmc := rfl
@[simp] theorem State.setMem_clk (s : State) (x : List Host.Cell) : (s.setMem x).clk = s.clk := rfl
@[simp] theorem State.setMem_boot (s : State) (x : List Host.Cell) : (s.setMem x).boot = s.boot := rfl
@[simp] theorem State.setMem_cells (s : State) (x : List Host.Cell) : (s.setMem x).cells = s.cells := rfl
@[simp] theorem State.setMem_pins (s : State) (x : List Host.Cell) : (s.setMem x).pins = s.pins := rfl
@[simp] theorem State.setMem_freeCount (s : State) (x : List Host.Cell) : (s.setMem x).freeCount = s.freeCount := rfl

@[simp] theorem State.setCfg_pending (s : State) (x : BoardConfig) : (s.setCfg x).pending = s.pending := rfl
@[simp] theorem State.setCfg_mem (s : State) (x : BoardConfig) : (s.setCfg x).mem = s.mem := rfl
@[simp] theorem State.setCfg_cfg (s : State) (x : BoardConfig) : (s.setCfg x).cfg = x := rfl
@[simp] theorem State.setCfg_tables (s : State) (x : BoardConfig) : (s.setCfg x).tables = s.tables := rfl
@[simp] theorem State.setCfg_rings (s : State) (x : BoardConfig) : (s.setCfg x).rings = s.rings := rfl
@[simp] theorem State.setCfg_link (s : State) (x : BoardConfig) : (s.setCfg x).link = s.link := rfl
@[simp] theorem State.setCfg_scan (s : State) (x : BoardConfig) : (s.setCfg x).scan = s.scan := rfl
@[simp] theorem State.setCfg_print (s : State) (x : BoardConfig) : (s.setCfg x).print = s.print := rfl
@[simp] theorem State.setCfg_doc (s : State) (x : BoardConfig) : (s.setCfg x).doc = s.doc := rfl
@[simp] theorem State.setCfg_paper (s : State) (x : BoardConfig) : (s.setCfg x).paper = s.paper := rfl
@[simp] theorem State.setCfg_sense (s : State) (x : BoardConfig) : (s.setCfg x).sense = s.sense := rfl
@[simp] theorem State.setCfg_lines (s : State) (x : BoardConfig) : (s.setCfg x).lines = s.lines := rfl
@[simp] theorem State.setCfg_pmc (s : State) (x : BoardConfig) : (s.setCfg x).pmc = s.pmc := rfl
@[simp] theorem State.setCfg_clk (s : State) (x : BoardConfig) : (s.setCfg x).clk = s.clk := rfl
@[simp] theorem State.setCfg_boot (s : State) (x : BoardConfig) : (s.setCfg x).boot = s.boot := rfl
@[simp] theorem State.setCfg_cells (s : State) (x : BoardConfig) : (s.setCfg x).cells = s.cells := rfl
@[simp] theorem State.setCfg_pins (s : State) (x : BoardConfig) : (s.setCfg x).pins = s.pins := rfl
@[simp] theorem State.setCfg_freeCount (s : State) (x : BoardConfig) : (s.setCfg x).freeCount = s.freeCount := rfl

@[simp] theorem State.setTables_pending (s : State) (x : TableStore) : (s.setTables x).pending = s.pending := rfl
@[simp] theorem State.setTables_mem (s : State) (x : TableStore) : (s.setTables x).mem = s.mem := rfl
@[simp] theorem State.setTables_cfg (s : State) (x : TableStore) : (s.setTables x).cfg = s.cfg := rfl
@[simp] theorem State.setTables_tables (s : State) (x : TableStore) : (s.setTables x).tables = x := rfl
@[simp] theorem State.setTables_rings (s : State) (x : TableStore) : (s.setTables x).rings = s.rings := rfl
@[simp] theorem State.setTables_link (s : State) (x : TableStore) : (s.setTables x).link = s.link := rfl
@[simp] theorem State.setTables_scan (s : State) (x : TableStore) : (s.setTables x).scan = s.scan := rfl
@[simp] theorem State.setTables_print (s : State) (x : TableStore) : (s.setTables x).print = s.print := rfl
@[simp] theorem State.setTables_doc (s : State) (x : TableStore) : (s.setTables x).doc = s.doc := rfl
@[simp] theorem State.setTables_paper (s : State) (x : TableStore) : (s.setTables x).paper = s.paper := rfl
@[simp] theorem State.setTables_sense (s : State) (x : TableStore) : (s.setTables x).sense = s.sense := rfl
@[simp] theorem State.setTables_lines (s : State) (x : TableStore) : (s.setTables x).lines = s.lines := rfl
@[simp] theorem State.setTables_pmc (s : State) (x : TableStore) : (s.setTables x).pmc = s.pmc := rfl
@[simp] theorem State.setTables_clk (s : State) (x : TableStore) : (s.setTables x).clk = s.clk := rfl
@[simp] theorem State.setTables_boot (s : State) (x : TableStore) : (s.setTables x).boot = s.boot := rfl
@[simp] theorem State.setTables_cells (s : State) (x : TableStore) : (s.setTables x).cells = s.cells := rfl
@[simp] theorem State.setTables_pins (s : State) (x : TableStore) : (s.setTables x).pins = s.pins := rfl
@[simp] theorem State.setTables_freeCount (s : State) (x : TableStore) : (s.setTables x).freeCount = s.freeCount := rfl

@[simp] theorem State.setRings_pending (s : State) (x : Rings) : (s.setRings x).pending = s.pending := rfl
@[simp] theorem State.setRings_mem (s : State) (x : Rings) : (s.setRings x).mem = s.mem := rfl
@[simp] theorem State.setRings_cfg (s : State) (x : Rings) : (s.setRings x).cfg = s.cfg := rfl
@[simp] theorem State.setRings_tables (s : State) (x : Rings) : (s.setRings x).tables = s.tables := rfl
@[simp] theorem State.setRings_rings (s : State) (x : Rings) : (s.setRings x).rings = x := rfl
@[simp] theorem State.setRings_link (s : State) (x : Rings) : (s.setRings x).link = s.link := rfl
@[simp] theorem State.setRings_scan (s : State) (x : Rings) : (s.setRings x).scan = s.scan := rfl
@[simp] theorem State.setRings_print (s : State) (x : Rings) : (s.setRings x).print = s.print := rfl
@[simp] theorem State.setRings_doc (s : State) (x : Rings) : (s.setRings x).doc = s.doc := rfl
@[simp] theorem State.setRings_paper (s : State) (x : Rings) : (s.setRings x).paper = s.paper := rfl
@[simp] theorem State.setRings_sense (s : State) (x : Rings) : (s.setRings x).sense = s.sense := rfl
@[simp] theorem State.setRings_lines (s : State) (x : Rings) : (s.setRings x).lines = s.lines := rfl
@[simp] theorem State.setRings_pmc (s : State) (x : Rings) : (s.setRings x).pmc = s.pmc := rfl
@[simp] theorem State.setRings_clk (s : State) (x : Rings) : (s.setRings x).clk = s.clk := rfl
@[simp] theorem State.setRings_boot (s : State) (x : Rings) : (s.setRings x).boot = s.boot := rfl
@[simp] theorem State.setRings_cells (s : State) (x : Rings) : (s.setRings x).cells = s.cells := rfl
@[simp] theorem State.setRings_pins (s : State) (x : Rings) : (s.setRings x).pins = s.pins := rfl
@[simp] theorem State.setRings_freeCount (s : State) (x : Rings) : (s.setRings x).freeCount = s.freeCount := rfl

@[simp] theorem State.setLink_pending (s : State) (x : Link) : (s.setLink x).pending = s.pending := rfl
@[simp] theorem State.setLink_mem (s : State) (x : Link) : (s.setLink x).mem = s.mem := rfl
@[simp] theorem State.setLink_cfg (s : State) (x : Link) : (s.setLink x).cfg = s.cfg := rfl
@[simp] theorem State.setLink_tables (s : State) (x : Link) : (s.setLink x).tables = s.tables := rfl
@[simp] theorem State.setLink_rings (s : State) (x : Link) : (s.setLink x).rings = s.rings := rfl
@[simp] theorem State.setLink_link (s : State) (x : Link) : (s.setLink x).link = x := rfl
@[simp] theorem State.setLink_scan (s : State) (x : Link) : (s.setLink x).scan = s.scan := rfl
@[simp] theorem State.setLink_print (s : State) (x : Link) : (s.setLink x).print = s.print := rfl
@[simp] theorem State.setLink_doc (s : State) (x : Link) : (s.setLink x).doc = s.doc := rfl
@[simp] theorem State.setLink_paper (s : State) (x : Link) : (s.setLink x).paper = s.paper := rfl
@[simp] theorem State.setLink_sense (s : State) (x : Link) : (s.setLink x).sense = s.sense := rfl
@[simp] theorem State.setLink_lines (s : State) (x : Link) : (s.setLink x).lines = s.lines := rfl
@[simp] theorem State.setLink_pmc (s : State) (x : Link) : (s.setLink x).pmc = s.pmc := rfl
@[simp] theorem State.setLink_clk (s : State) (x : Link) : (s.setLink x).clk = s.clk := rfl
@[simp] theorem State.setLink_boot (s : State) (x : Link) : (s.setLink x).boot = s.boot := rfl
@[simp] theorem State.setLink_cells (s : State) (x : Link) : (s.setLink x).cells = s.cells := rfl
@[simp] theorem State.setLink_pins (s : State) (x : Link) : (s.setLink x).pins = s.pins := rfl
@[simp] theorem State.setLink_freeCount (s : State) (x : Link) : (s.setLink x).freeCount = s.freeCount := rfl

@[simp] theorem State.setScan_pending (s : State) (x : Scan) : (s.setScan x).pending = s.pending := rfl
@[simp] theorem State.setScan_mem (s : State) (x : Scan) : (s.setScan x).mem = s.mem := rfl
@[simp] theorem State.setScan_cfg (s : State) (x : Scan) : (s.setScan x).cfg = s.cfg := rfl
@[simp] theorem State.setScan_tables (s : State) (x : Scan) : (s.setScan x).tables = s.tables := rfl
@[simp] theorem State.setScan_rings (s : State) (x : Scan) : (s.setScan x).rings = s.rings := rfl
@[simp] theorem State.setScan_link (s : State) (x : Scan) : (s.setScan x).link = s.link := rfl
@[simp] theorem State.setScan_scan (s : State) (x : Scan) : (s.setScan x).scan = x := rfl
@[simp] theorem State.setScan_print (s : State) (x : Scan) : (s.setScan x).print = s.print := rfl
@[simp] theorem State.setScan_doc (s : State) (x : Scan) : (s.setScan x).doc = s.doc := rfl
@[simp] theorem State.setScan_paper (s : State) (x : Scan) : (s.setScan x).paper = s.paper := rfl
@[simp] theorem State.setScan_sense (s : State) (x : Scan) : (s.setScan x).sense = s.sense := rfl
@[simp] theorem State.setScan_lines (s : State) (x : Scan) : (s.setScan x).lines = s.lines := rfl
@[simp] theorem State.setScan_pmc (s : State) (x : Scan) : (s.setScan x).pmc = s.pmc := rfl
@[simp] theorem State.setScan_clk (s : State) (x : Scan) : (s.setScan x).clk = s.clk := rfl
@[simp] theorem State.setScan_boot (s : State) (x : Scan) : (s.setScan x).boot = s.boot := rfl
@[simp] theorem State.setScan_cells (s : State) (x : Scan) : (s.setScan x).cells = s.cells := rfl
@[simp] theorem State.setScan_pins (s : State) (x : Scan) : (s.setScan x).pins = s.pins := rfl
@[simp] theorem State.setScan_freeCount (s : State) (x : Scan) : (s.setScan x).freeCount = s.freeCount := rfl

@[simp] theorem State.setPrint_pending (s : State) (x : Print) : (s.setPrint x).pending = s.pending := rfl
@[simp] theorem State.setPrint_mem (s : State) (x : Print) : (s.setPrint x).mem = s.mem := rfl
@[simp] theorem State.setPrint_cfg (s : State) (x : Print) : (s.setPrint x).cfg = s.cfg := rfl
@[simp] theorem State.setPrint_tables (s : State) (x : Print) : (s.setPrint x).tables = s.tables := rfl
@[simp] theorem State.setPrint_rings (s : State) (x : Print) : (s.setPrint x).rings = s.rings := rfl
@[simp] theorem State.setPrint_link (s : State) (x : Print) : (s.setPrint x).link = s.link := rfl
@[simp] theorem State.setPrint_scan (s : State) (x : Print) : (s.setPrint x).scan = s.scan := rfl
@[simp] theorem State.setPrint_print (s : State) (x : Print) : (s.setPrint x).print = x := rfl
@[simp] theorem State.setPrint_doc (s : State) (x : Print) : (s.setPrint x).doc = s.doc := rfl
@[simp] theorem State.setPrint_paper (s : State) (x : Print) : (s.setPrint x).paper = s.paper := rfl
@[simp] theorem State.setPrint_sense (s : State) (x : Print) : (s.setPrint x).sense = s.sense := rfl
@[simp] theorem State.setPrint_lines (s : State) (x : Print) : (s.setPrint x).lines = s.lines := rfl
@[simp] theorem State.setPrint_pmc (s : State) (x : Print) : (s.setPrint x).pmc = s.pmc := rfl
@[simp] theorem State.setPrint_clk (s : State) (x : Print) : (s.setPrint x).clk = s.clk := rfl
@[simp] theorem State.setPrint_boot (s : State) (x : Print) : (s.setPrint x).boot = s.boot := rfl
@[simp] theorem State.setPrint_cells (s : State) (x : Print) : (s.setPrint x).cells = s.cells := rfl
@[simp] theorem State.setPrint_pins (s : State) (x : Print) : (s.setPrint x).pins = s.pins := rfl
@[simp] theorem State.setPrint_freeCount (s : State) (x : Print) : (s.setPrint x).freeCount = s.freeCount := rfl

@[simp] theorem State.setDoc_pending (s : State) (x : Channel) : (s.setDoc x).pending = s.pending := rfl
@[simp] theorem State.setDoc_mem (s : State) (x : Channel) : (s.setDoc x).mem = s.mem := rfl
@[simp] theorem State.setDoc_cfg (s : State) (x : Channel) : (s.setDoc x).cfg = s.cfg := rfl
@[simp] theorem State.setDoc_tables (s : State) (x : Channel) : (s.setDoc x).tables = s.tables := rfl
@[simp] theorem State.setDoc_rings (s : State) (x : Channel) : (s.setDoc x).rings = s.rings := rfl
@[simp] theorem State.setDoc_link (s : State) (x : Channel) : (s.setDoc x).link = s.link := rfl
@[simp] theorem State.setDoc_scan (s : State) (x : Channel) : (s.setDoc x).scan = s.scan := rfl
@[simp] theorem State.setDoc_print (s : State) (x : Channel) : (s.setDoc x).print = s.print := rfl
@[simp] theorem State.setDoc_doc (s : State) (x : Channel) : (s.setDoc x).doc = x := rfl
@[simp] theorem State.setDoc_paper (s : State) (x : Channel) : (s.setDoc x).paper = s.paper := rfl
@[simp] theorem State.setDoc_sense (s : State) (x : Channel) : (s.setDoc x).sense = s.sense := rfl
@[simp] theorem State.setDoc_lines (s : State) (x : Channel) : (s.setDoc x).lines = s.lines := rfl
@[simp] theorem State.setDoc_pmc (s : State) (x : Channel) : (s.setDoc x).pmc = s.pmc := rfl
@[simp] theorem State.setDoc_clk (s : State) (x : Channel) : (s.setDoc x).clk = s.clk := rfl
@[simp] theorem State.setDoc_boot (s : State) (x : Channel) : (s.setDoc x).boot = s.boot := rfl
@[simp] theorem State.setDoc_cells (s : State) (x : Channel) : (s.setDoc x).cells = s.cells := rfl
@[simp] theorem State.setDoc_pins (s : State) (x : Channel) : (s.setDoc x).pins = s.pins := rfl
@[simp] theorem State.setDoc_freeCount (s : State) (x : Channel) : (s.setDoc x).freeCount = s.freeCount := rfl

@[simp] theorem State.setPaper_pending (s : State) (x : Channel) : (s.setPaper x).pending = s.pending := rfl
@[simp] theorem State.setPaper_mem (s : State) (x : Channel) : (s.setPaper x).mem = s.mem := rfl
@[simp] theorem State.setPaper_cfg (s : State) (x : Channel) : (s.setPaper x).cfg = s.cfg := rfl
@[simp] theorem State.setPaper_tables (s : State) (x : Channel) : (s.setPaper x).tables = s.tables := rfl
@[simp] theorem State.setPaper_rings (s : State) (x : Channel) : (s.setPaper x).rings = s.rings := rfl
@[simp] theorem State.setPaper_link (s : State) (x : Channel) : (s.setPaper x).link = s.link := rfl
@[simp] theorem State.setPaper_scan (s : State) (x : Channel) : (s.setPaper x).scan = s.scan := rfl
@[simp] theorem State.setPaper_print (s : State) (x : Channel) : (s.setPaper x).print = s.print := rfl
@[simp] theorem State.setPaper_doc (s : State) (x : Channel) : (s.setPaper x).doc = s.doc := rfl
@[simp] theorem State.setPaper_paper (s : State) (x : Channel) : (s.setPaper x).paper = x := rfl
@[simp] theorem State.setPaper_sense (s : State) (x : Channel) : (s.setPaper x).sense = s.sense := rfl
@[simp] theorem State.setPaper_lines (s : State) (x : Channel) : (s.setPaper x).lines = s.lines := rfl
@[simp] theorem State.setPaper_pmc (s : State) (x : Channel) : (s.setPaper x).pmc = s.pmc := rfl
@[simp] theorem State.setPaper_clk (s : State) (x : Channel) : (s.setPaper x).clk = s.clk := rfl
@[simp] theorem State.setPaper_boot (s : State) (x : Channel) : (s.setPaper x).boot = s.boot := rfl
@[simp] theorem State.setPaper_cells (s : State) (x : Channel) : (s.setPaper x).cells = s.cells := rfl
@[simp] theorem State.setPaper_pins (s : State) (x : Channel) : (s.setPaper x).pins = s.pins := rfl
@[simp] theorem State.setPaper_freeCount (s : State) (x : Channel) : (s.setPaper x).freeCount = s.freeCount := rfl

@[simp] theorem State.setSense_pending (s : State) (x : Sense) : (s.setSense x).pending = s.pending := rfl
@[simp] theorem State.setSense_mem (s : State) (x : Sense) : (s.setSense x).mem = s.mem := rfl
@[simp] theorem State.setSense_cfg (s : State) (x : Sense) : (s.setSense x).cfg = s.cfg := rfl
@[simp] theorem State.setSense_tables (s : State) (x : Sense) : (s.setSense x).tables = s.tables := rfl
@[simp] theorem State.setSense_rings (s : State) (x : Sense) : (s.setSense x).rings = s.rings := rfl
@[simp] theorem State.setSense_link (s : State) (x : Sense) : (s.setSense x).link = s.link := rfl
@[simp] theorem State.setSense_scan (s : State) (x : Sense) : (s.setSense x).scan = s.scan := rfl
@[simp] theorem State.setSense_print (s : State) (x : Sense) : (s.setSense x).print = s.print := rfl
@[simp] theorem State.setSense_doc (s : State) (x : Sense) : (s.setSense x).doc = s.doc := rfl
@[simp] theorem State.setSense_paper (s : State) (x : Sense) : (s.setSense x).paper = s.paper := rfl
@[simp] theorem State.setSense_sense (s : State) (x : Sense) : (s.setSense x).sense = x := rfl
@[simp] theorem State.setSense_lines (s : State) (x : Sense) : (s.setSense x).lines = s.lines := rfl
@[simp] theorem State.setSense_pmc (s : State) (x : Sense) : (s.setSense x).pmc = s.pmc := rfl
@[simp] theorem State.setSense_clk (s : State) (x : Sense) : (s.setSense x).clk = s.clk := rfl
@[simp] theorem State.setSense_boot (s : State) (x : Sense) : (s.setSense x).boot = s.boot := rfl
@[simp] theorem State.setSense_cells (s : State) (x : Sense) : (s.setSense x).cells = s.cells := rfl
@[simp] theorem State.setSense_pins (s : State) (x : Sense) : (s.setSense x).pins = s.pins := rfl
@[simp] theorem State.setSense_freeCount (s : State) (x : Sense) : (s.setSense x).freeCount = s.freeCount := rfl

@[simp] theorem State.setLines_pending (s : State) (x : LineInputs) : (s.setLines x).pending = s.pending := rfl
@[simp] theorem State.setLines_mem (s : State) (x : LineInputs) : (s.setLines x).mem = s.mem := rfl
@[simp] theorem State.setLines_cfg (s : State) (x : LineInputs) : (s.setLines x).cfg = s.cfg := rfl
@[simp] theorem State.setLines_tables (s : State) (x : LineInputs) : (s.setLines x).tables = s.tables := rfl
@[simp] theorem State.setLines_rings (s : State) (x : LineInputs) : (s.setLines x).rings = s.rings := rfl
@[simp] theorem State.setLines_link (s : State) (x : LineInputs) : (s.setLines x).link = s.link := rfl
@[simp] theorem State.setLines_scan (s : State) (x : LineInputs) : (s.setLines x).scan = s.scan := rfl
@[simp] theorem State.setLines_print (s : State) (x : LineInputs) : (s.setLines x).print = s.print := rfl
@[simp] theorem State.setLines_doc (s : State) (x : LineInputs) : (s.setLines x).doc = s.doc := rfl
@[simp] theorem State.setLines_paper (s : State) (x : LineInputs) : (s.setLines x).paper = s.paper := rfl
@[simp] theorem State.setLines_sense (s : State) (x : LineInputs) : (s.setLines x).sense = s.sense := rfl
@[simp] theorem State.setLines_lines (s : State) (x : LineInputs) : (s.setLines x).lines = x := rfl
@[simp] theorem State.setLines_pmc (s : State) (x : LineInputs) : (s.setLines x).pmc = s.pmc := rfl
@[simp] theorem State.setLines_clk (s : State) (x : LineInputs) : (s.setLines x).clk = s.clk := rfl
@[simp] theorem State.setLines_boot (s : State) (x : LineInputs) : (s.setLines x).boot = s.boot := rfl
@[simp] theorem State.setLines_cells (s : State) (x : LineInputs) : (s.setLines x).cells = s.cells := rfl
@[simp] theorem State.setLines_pins (s : State) (x : LineInputs) : (s.setLines x).pins = s.pins := rfl
@[simp] theorem State.setLines_freeCount (s : State) (x : LineInputs) : (s.setLines x).freeCount = s.freeCount := rfl

@[simp] theorem State.setPmc_pending (s : State) (x : Pmc) : (s.setPmc x).pending = s.pending := rfl
@[simp] theorem State.setPmc_mem (s : State) (x : Pmc) : (s.setPmc x).mem = s.mem := rfl
@[simp] theorem State.setPmc_cfg (s : State) (x : Pmc) : (s.setPmc x).cfg = s.cfg := rfl
@[simp] theorem State.setPmc_tables (s : State) (x : Pmc) : (s.setPmc x).tables = s.tables := rfl
@[simp] theorem State.setPmc_rings (s : State) (x : Pmc) : (s.setPmc x).rings = s.rings := rfl
@[simp] theorem State.setPmc_link (s : State) (x : Pmc) : (s.setPmc x).link = s.link := rfl
@[simp] theorem State.setPmc_scan (s : State) (x : Pmc) : (s.setPmc x).scan = s.scan := rfl
@[simp] theorem State.setPmc_print (s : State) (x : Pmc) : (s.setPmc x).print = s.print := rfl
@[simp] theorem State.setPmc_doc (s : State) (x : Pmc) : (s.setPmc x).doc = s.doc := rfl
@[simp] theorem State.setPmc_paper (s : State) (x : Pmc) : (s.setPmc x).paper = s.paper := rfl
@[simp] theorem State.setPmc_sense (s : State) (x : Pmc) : (s.setPmc x).sense = s.sense := rfl
@[simp] theorem State.setPmc_lines (s : State) (x : Pmc) : (s.setPmc x).lines = s.lines := rfl
@[simp] theorem State.setPmc_pmc (s : State) (x : Pmc) : (s.setPmc x).pmc = x := rfl
@[simp] theorem State.setPmc_clk (s : State) (x : Pmc) : (s.setPmc x).clk = s.clk := rfl
@[simp] theorem State.setPmc_boot (s : State) (x : Pmc) : (s.setPmc x).boot = s.boot := rfl
@[simp] theorem State.setPmc_cells (s : State) (x : Pmc) : (s.setPmc x).cells = s.cells := rfl
@[simp] theorem State.setPmc_pins (s : State) (x : Pmc) : (s.setPmc x).pins = s.pins := rfl
@[simp] theorem State.setPmc_freeCount (s : State) (x : Pmc) : (s.setPmc x).freeCount = s.freeCount := rfl

@[simp] theorem State.setClk_pending (s : State) (x : ClockPower) : (s.setClk x).pending = s.pending := rfl
@[simp] theorem State.setClk_mem (s : State) (x : ClockPower) : (s.setClk x).mem = s.mem := rfl
@[simp] theorem State.setClk_cfg (s : State) (x : ClockPower) : (s.setClk x).cfg = s.cfg := rfl
@[simp] theorem State.setClk_tables (s : State) (x : ClockPower) : (s.setClk x).tables = s.tables := rfl
@[simp] theorem State.setClk_rings (s : State) (x : ClockPower) : (s.setClk x).rings = s.rings := rfl
@[simp] theorem State.setClk_link (s : State) (x : ClockPower) : (s.setClk x).link = s.link := rfl
@[simp] theorem State.setClk_scan (s : State) (x : ClockPower) : (s.setClk x).scan = s.scan := rfl
@[simp] theorem State.setClk_print (s : State) (x : ClockPower) : (s.setClk x).print = s.print := rfl
@[simp] theorem State.setClk_doc (s : State) (x : ClockPower) : (s.setClk x).doc = s.doc := rfl
@[simp] theorem State.setClk_paper (s : State) (x : ClockPower) : (s.setClk x).paper = s.paper := rfl
@[simp] theorem State.setClk_sense (s : State) (x : ClockPower) : (s.setClk x).sense = s.sense := rfl
@[simp] theorem State.setClk_lines (s : State) (x : ClockPower) : (s.setClk x).lines = s.lines := rfl
@[simp] theorem State.setClk_pmc (s : State) (x : ClockPower) : (s.setClk x).pmc = s.pmc := rfl
@[simp] theorem State.setClk_clk (s : State) (x : ClockPower) : (s.setClk x).clk = x := rfl
@[simp] theorem State.setClk_boot (s : State) (x : ClockPower) : (s.setClk x).boot = s.boot := rfl
@[simp] theorem State.setClk_cells (s : State) (x : ClockPower) : (s.setClk x).cells = s.cells := rfl
@[simp] theorem State.setClk_pins (s : State) (x : ClockPower) : (s.setClk x).pins = s.pins := rfl
@[simp] theorem State.setClk_freeCount (s : State) (x : ClockPower) : (s.setClk x).freeCount = s.freeCount := rfl

@[simp] theorem State.setBoot_pending (s : State) (x : Boot) : (s.setBoot x).pending = s.pending := rfl
@[simp] theorem State.setBoot_mem (s : State) (x : Boot) : (s.setBoot x).mem = s.mem := rfl
@[simp] theorem State.setBoot_cfg (s : State) (x : Boot) : (s.setBoot x).cfg = s.cfg := rfl
@[simp] theorem State.setBoot_tables (s : State) (x : Boot) : (s.setBoot x).tables = s.tables := rfl
@[simp] theorem State.setBoot_rings (s : State) (x : Boot) : (s.setBoot x).rings = s.rings := rfl
@[simp] theorem State.setBoot_link (s : State) (x : Boot) : (s.setBoot x).link = s.link := rfl
@[simp] theorem State.setBoot_scan (s : State) (x : Boot) : (s.setBoot x).scan = s.scan := rfl
@[simp] theorem State.setBoot_print (s : State) (x : Boot) : (s.setBoot x).print = s.print := rfl
@[simp] theorem State.setBoot_doc (s : State) (x : Boot) : (s.setBoot x).doc = s.doc := rfl
@[simp] theorem State.setBoot_paper (s : State) (x : Boot) : (s.setBoot x).paper = s.paper := rfl
@[simp] theorem State.setBoot_sense (s : State) (x : Boot) : (s.setBoot x).sense = s.sense := rfl
@[simp] theorem State.setBoot_lines (s : State) (x : Boot) : (s.setBoot x).lines = s.lines := rfl
@[simp] theorem State.setBoot_pmc (s : State) (x : Boot) : (s.setBoot x).pmc = s.pmc := rfl
@[simp] theorem State.setBoot_clk (s : State) (x : Boot) : (s.setBoot x).clk = s.clk := rfl
@[simp] theorem State.setBoot_boot (s : State) (x : Boot) : (s.setBoot x).boot = x := rfl
@[simp] theorem State.setBoot_cells (s : State) (x : Boot) : (s.setBoot x).cells = s.cells := rfl
@[simp] theorem State.setBoot_pins (s : State) (x : Boot) : (s.setBoot x).pins = s.pins := rfl
@[simp] theorem State.setBoot_freeCount (s : State) (x : Boot) : (s.setBoot x).freeCount = s.freeCount := rfl

@[simp] theorem State.setCells_pending (s : State) (x : Cells) : (s.setCells x).pending = s.pending := rfl
@[simp] theorem State.setCells_mem (s : State) (x : Cells) : (s.setCells x).mem = s.mem := rfl
@[simp] theorem State.setCells_cfg (s : State) (x : Cells) : (s.setCells x).cfg = s.cfg := rfl
@[simp] theorem State.setCells_tables (s : State) (x : Cells) : (s.setCells x).tables = s.tables := rfl
@[simp] theorem State.setCells_rings (s : State) (x : Cells) : (s.setCells x).rings = s.rings := rfl
@[simp] theorem State.setCells_link (s : State) (x : Cells) : (s.setCells x).link = s.link := rfl
@[simp] theorem State.setCells_scan (s : State) (x : Cells) : (s.setCells x).scan = s.scan := rfl
@[simp] theorem State.setCells_print (s : State) (x : Cells) : (s.setCells x).print = s.print := rfl
@[simp] theorem State.setCells_doc (s : State) (x : Cells) : (s.setCells x).doc = s.doc := rfl
@[simp] theorem State.setCells_paper (s : State) (x : Cells) : (s.setCells x).paper = s.paper := rfl
@[simp] theorem State.setCells_sense (s : State) (x : Cells) : (s.setCells x).sense = s.sense := rfl
@[simp] theorem State.setCells_lines (s : State) (x : Cells) : (s.setCells x).lines = s.lines := rfl
@[simp] theorem State.setCells_pmc (s : State) (x : Cells) : (s.setCells x).pmc = s.pmc := rfl
@[simp] theorem State.setCells_clk (s : State) (x : Cells) : (s.setCells x).clk = s.clk := rfl
@[simp] theorem State.setCells_boot (s : State) (x : Cells) : (s.setCells x).boot = s.boot := rfl
@[simp] theorem State.setCells_cells (s : State) (x : Cells) : (s.setCells x).cells = x := rfl
@[simp] theorem State.setCells_pins (s : State) (x : Cells) : (s.setCells x).pins = s.pins := rfl
@[simp] theorem State.setCells_freeCount (s : State) (x : Cells) : (s.setCells x).freeCount = s.freeCount := rfl

@[simp] theorem State.setPins_pending (s : State) (x : Pins) : (s.setPins x).pending = s.pending := rfl
@[simp] theorem State.setPins_mem (s : State) (x : Pins) : (s.setPins x).mem = s.mem := rfl
@[simp] theorem State.setPins_cfg (s : State) (x : Pins) : (s.setPins x).cfg = s.cfg := rfl
@[simp] theorem State.setPins_tables (s : State) (x : Pins) : (s.setPins x).tables = s.tables := rfl
@[simp] theorem State.setPins_rings (s : State) (x : Pins) : (s.setPins x).rings = s.rings := rfl
@[simp] theorem State.setPins_link (s : State) (x : Pins) : (s.setPins x).link = s.link := rfl
@[simp] theorem State.setPins_scan (s : State) (x : Pins) : (s.setPins x).scan = s.scan := rfl
@[simp] theorem State.setPins_print (s : State) (x : Pins) : (s.setPins x).print = s.print := rfl
@[simp] theorem State.setPins_doc (s : State) (x : Pins) : (s.setPins x).doc = s.doc := rfl
@[simp] theorem State.setPins_paper (s : State) (x : Pins) : (s.setPins x).paper = s.paper := rfl
@[simp] theorem State.setPins_sense (s : State) (x : Pins) : (s.setPins x).sense = s.sense := rfl
@[simp] theorem State.setPins_lines (s : State) (x : Pins) : (s.setPins x).lines = s.lines := rfl
@[simp] theorem State.setPins_pmc (s : State) (x : Pins) : (s.setPins x).pmc = s.pmc := rfl
@[simp] theorem State.setPins_clk (s : State) (x : Pins) : (s.setPins x).clk = s.clk := rfl
@[simp] theorem State.setPins_boot (s : State) (x : Pins) : (s.setPins x).boot = s.boot := rfl
@[simp] theorem State.setPins_cells (s : State) (x : Pins) : (s.setPins x).cells = s.cells := rfl
@[simp] theorem State.setPins_pins (s : State) (x : Pins) : (s.setPins x).pins = x := rfl
@[simp] theorem State.setPins_freeCount (s : State) (x : Pins) : (s.setPins x).freeCount = s.freeCount := rfl

@[simp] theorem State.setFreeCount_pending (s : State) (x : Nat) : (s.setFreeCount x).pending = s.pending := rfl
@[simp] theorem State.setFreeCount_mem (s : State) (x : Nat) : (s.setFreeCount x).mem = s.mem := rfl
@[simp] theorem State.setFreeCount_cfg (s : State) (x : Nat) : (s.setFreeCount x).cfg = s.cfg := rfl
@[simp] theorem State.setFreeCount_tables (s : State) (x : Nat) : (s.setFreeCount x).tables = s.tables := rfl
@[simp] theorem State.setFreeCount_rings (s : State) (x : Nat) : (s.setFreeCount x).rings = s.rings := rfl
@[simp] theorem State.setFreeCount_link (s : State) (x : Nat) : (s.setFreeCount x).link = s.link := rfl
@[simp] theorem State.setFreeCount_scan (s : State) (x : Nat) : (s.setFreeCount x).scan = s.scan := rfl
@[simp] theorem State.setFreeCount_print (s : State) (x : Nat) : (s.setFreeCount x).print = s.print := rfl
@[simp] theorem State.setFreeCount_doc (s : State) (x : Nat) : (s.setFreeCount x).doc = s.doc := rfl
@[simp] theorem State.setFreeCount_paper (s : State) (x : Nat) : (s.setFreeCount x).paper = s.paper := rfl
@[simp] theorem State.setFreeCount_sense (s : State) (x : Nat) : (s.setFreeCount x).sense = s.sense := rfl
@[simp] theorem State.setFreeCount_lines (s : State) (x : Nat) : (s.setFreeCount x).lines = s.lines := rfl
@[simp] theorem State.setFreeCount_pmc (s : State) (x : Nat) : (s.setFreeCount x).pmc = s.pmc := rfl
@[simp] theorem State.setFreeCount_clk (s : State) (x : Nat) : (s.setFreeCount x).clk = s.clk := rfl
@[simp] theorem State.setFreeCount_boot (s : State) (x : Nat) : (s.setFreeCount x).boot = s.boot := rfl
@[simp] theorem State.setFreeCount_cells (s : State) (x : Nat) : (s.setFreeCount x).cells = s.cells := rfl
@[simp] theorem State.setFreeCount_pins (s : State) (x : Nat) : (s.setFreeCount x).pins = s.pins := rfl
@[simp] theorem State.setFreeCount_freeCount (s : State) (x : Nat) : (s.setFreeCount x).freeCount = x := rfl

/-! ### Channels and rings -/

@[simp] theorem State.setChan_chan (s : State) (c : Chan) (x : Channel) : (s.setChan c x).chan c = x := by
  cases c <;> rfl

@[simp] theorem Rings.get_set (q : Rings) (r : RingId) (x : Ring) : (q.set r x).get r = x := by
  match r with
  | 0 => rfl
  | 1 => rfl
  | 2 => rfl
  | 3 => rfl

theorem Rings.get_set_other (q : Rings) {r t : RingId} (x : Ring) (h : t ≠ r) : (q.set r x).get t = q.get t := by
  match r, t with
  | 0, 0 | 1, 1 | 2, 2 | 3, 3 => exact absurd rfl h
  | 0, 1 | 0, 2 | 0, 3 | 1, 0 | 1, 2 | 1, 3 | 2, 0 | 2, 1 | 2, 3 | 3, 0 | 3, 1 | 3, 2 => rfl

@[simp] theorem State.setRing_ring (s : State) (r : RingId) (x : Ring) : (s.setRing r x).ring r = x :=
  Rings.get_set s.rings r x

theorem State.setRing_ring_other (s : State) {r t : RingId} (x : Ring) (h : t ≠ r) :
    (s.setRing r x).ring t = s.ring t := Rings.get_set_other s.rings x h

@[simp] theorem State.setChan_pending (s : State) (c : Chan) (x : Channel) : (s.setChan c x).pending = s.pending := by
  cases c <;> rfl
@[simp] theorem State.setChan_mem (s : State) (c : Chan) (x : Channel) : (s.setChan c x).mem = s.mem := by
  cases c <;> rfl
@[simp] theorem State.setChan_cfg (s : State) (c : Chan) (x : Channel) : (s.setChan c x).cfg = s.cfg := by
  cases c <;> rfl
@[simp] theorem State.setChan_tables (s : State) (c : Chan) (x : Channel) : (s.setChan c x).tables = s.tables := by
  cases c <;> rfl
@[simp] theorem State.setChan_rings (s : State) (c : Chan) (x : Channel) : (s.setChan c x).rings = s.rings := by
  cases c <;> rfl
@[simp] theorem State.setChan_link (s : State) (c : Chan) (x : Channel) : (s.setChan c x).link = s.link := by
  cases c <;> rfl
@[simp] theorem State.setChan_scan (s : State) (c : Chan) (x : Channel) : (s.setChan c x).scan = s.scan := by
  cases c <;> rfl
@[simp] theorem State.setChan_print (s : State) (c : Chan) (x : Channel) : (s.setChan c x).print = s.print := by
  cases c <;> rfl
@[simp] theorem State.setChan_sense (s : State) (c : Chan) (x : Channel) : (s.setChan c x).sense = s.sense := by
  cases c <;> rfl
@[simp] theorem State.setChan_lines (s : State) (c : Chan) (x : Channel) : (s.setChan c x).lines = s.lines := by
  cases c <;> rfl
@[simp] theorem State.setChan_pmc (s : State) (c : Chan) (x : Channel) : (s.setChan c x).pmc = s.pmc := by
  cases c <;> rfl
@[simp] theorem State.setChan_clk (s : State) (c : Chan) (x : Channel) : (s.setChan c x).clk = s.clk := by
  cases c <;> rfl
@[simp] theorem State.setChan_boot (s : State) (c : Chan) (x : Channel) : (s.setChan c x).boot = s.boot := by
  cases c <;> rfl
@[simp] theorem State.setChan_cells (s : State) (c : Chan) (x : Channel) : (s.setChan c x).cells = s.cells := by
  cases c <;> rfl
@[simp] theorem State.setChan_pins (s : State) (c : Chan) (x : Channel) : (s.setChan c x).pins = s.pins := by
  cases c <;> rfl
@[simp] theorem State.setChan_freeCount (s : State) (c : Chan) (x : Channel) : (s.setChan c x).freeCount = s.freeCount := by
  cases c <;> rfl
@[simp] theorem State.setRing_pending (s : State) (r : RingId) (x : Ring) : (s.setRing r x).pending = s.pending := rfl
@[simp] theorem State.setRing_mem (s : State) (r : RingId) (x : Ring) : (s.setRing r x).mem = s.mem := rfl
@[simp] theorem State.setRing_cfg (s : State) (r : RingId) (x : Ring) : (s.setRing r x).cfg = s.cfg := rfl
@[simp] theorem State.setRing_tables (s : State) (r : RingId) (x : Ring) : (s.setRing r x).tables = s.tables := rfl
@[simp] theorem State.setRing_link (s : State) (r : RingId) (x : Ring) : (s.setRing r x).link = s.link := rfl
@[simp] theorem State.setRing_scan (s : State) (r : RingId) (x : Ring) : (s.setRing r x).scan = s.scan := rfl
@[simp] theorem State.setRing_print (s : State) (r : RingId) (x : Ring) : (s.setRing r x).print = s.print := rfl
@[simp] theorem State.setRing_doc (s : State) (r : RingId) (x : Ring) : (s.setRing r x).doc = s.doc := rfl
@[simp] theorem State.setRing_paper (s : State) (r : RingId) (x : Ring) : (s.setRing r x).paper = s.paper := rfl
@[simp] theorem State.setRing_sense (s : State) (r : RingId) (x : Ring) : (s.setRing r x).sense = s.sense := rfl
@[simp] theorem State.setRing_lines (s : State) (r : RingId) (x : Ring) : (s.setRing r x).lines = s.lines := rfl
@[simp] theorem State.setRing_pmc (s : State) (r : RingId) (x : Ring) : (s.setRing r x).pmc = s.pmc := rfl
@[simp] theorem State.setRing_clk (s : State) (r : RingId) (x : Ring) : (s.setRing r x).clk = s.clk := rfl
@[simp] theorem State.setRing_boot (s : State) (r : RingId) (x : Ring) : (s.setRing r x).boot = s.boot := rfl
@[simp] theorem State.setRing_cells (s : State) (r : RingId) (x : Ring) : (s.setRing r x).cells = s.cells := rfl
@[simp] theorem State.setRing_pins (s : State) (r : RingId) (x : Ring) : (s.setRing r x).pins = s.pins := rfl
@[simp] theorem State.setRing_freeCount (s : State) (r : RingId) (x : Ring) : (s.setRing r x).freeCount = s.freeCount := rfl

/-! ### The later of two settings of one field stands -/

@[simp] theorem State.setPending_setPending (s : State) (x y : List Instr) : (s.setPending x).setPending y = s.setPending y := rfl
@[simp] theorem State.setMem_setMem (s : State) (x y : List Host.Cell) : (s.setMem x).setMem y = s.setMem y := rfl
@[simp] theorem State.setCfg_setCfg (s : State) (x y : BoardConfig) : (s.setCfg x).setCfg y = s.setCfg y := rfl
@[simp] theorem State.setTables_setTables (s : State) (x y : TableStore) : (s.setTables x).setTables y = s.setTables y := rfl
@[simp] theorem State.setRings_setRings (s : State) (x y : Rings) : (s.setRings x).setRings y = s.setRings y := rfl
@[simp] theorem State.setLink_setLink (s : State) (x y : Link) : (s.setLink x).setLink y = s.setLink y := rfl
@[simp] theorem State.setScan_setScan (s : State) (x y : Scan) : (s.setScan x).setScan y = s.setScan y := rfl
@[simp] theorem State.setPrint_setPrint (s : State) (x y : Print) : (s.setPrint x).setPrint y = s.setPrint y := rfl
@[simp] theorem State.setDoc_setDoc (s : State) (x y : Channel) : (s.setDoc x).setDoc y = s.setDoc y := rfl
@[simp] theorem State.setPaper_setPaper (s : State) (x y : Channel) : (s.setPaper x).setPaper y = s.setPaper y := rfl
@[simp] theorem State.setSense_setSense (s : State) (x y : Sense) : (s.setSense x).setSense y = s.setSense y := rfl
@[simp] theorem State.setLines_setLines (s : State) (x y : LineInputs) : (s.setLines x).setLines y = s.setLines y := rfl
@[simp] theorem State.setPmc_setPmc (s : State) (x y : Pmc) : (s.setPmc x).setPmc y = s.setPmc y := rfl
@[simp] theorem State.setClk_setClk (s : State) (x y : ClockPower) : (s.setClk x).setClk y = s.setClk y := rfl
@[simp] theorem State.setBoot_setBoot (s : State) (x y : Boot) : (s.setBoot x).setBoot y = s.setBoot y := rfl
@[simp] theorem State.setCells_setCells (s : State) (x y : Cells) : (s.setCells x).setCells y = s.setCells y := rfl
@[simp] theorem State.setPins_setPins (s : State) (x y : Pins) : (s.setPins x).setPins y = s.setPins y := rfl
@[simp] theorem State.setFreeCount_setFreeCount (s : State) (x y : Nat) : (s.setFreeCount x).setFreeCount y = s.setFreeCount y := rfl

/-! ### A field set to what it holds -/

@[simp] theorem State.setPending_self (s : State) : s.setPending s.pending = s := rfl
@[simp] theorem State.setMem_self (s : State) : s.setMem s.mem = s := rfl
@[simp] theorem State.setCfg_self (s : State) : s.setCfg s.cfg = s := rfl
@[simp] theorem State.setTables_self (s : State) : s.setTables s.tables = s := rfl
@[simp] theorem State.setRings_self (s : State) : s.setRings s.rings = s := rfl
@[simp] theorem State.setLink_self (s : State) : s.setLink s.link = s := rfl
@[simp] theorem State.setScan_self (s : State) : s.setScan s.scan = s := rfl
@[simp] theorem State.setPrint_self (s : State) : s.setPrint s.print = s := rfl
@[simp] theorem State.setDoc_self (s : State) : s.setDoc s.doc = s := rfl
@[simp] theorem State.setPaper_self (s : State) : s.setPaper s.paper = s := rfl
@[simp] theorem State.setSense_self (s : State) : s.setSense s.sense = s := rfl
@[simp] theorem State.setLines_self (s : State) : s.setLines s.lines = s := rfl
@[simp] theorem State.setPmc_self (s : State) : s.setPmc s.pmc = s := rfl
@[simp] theorem State.setClk_self (s : State) : s.setClk s.clk = s := rfl
@[simp] theorem State.setBoot_self (s : State) : s.setBoot s.boot = s := rfl
@[simp] theorem State.setCells_self (s : State) : s.setCells s.cells = s := rfl
@[simp] theorem State.setPins_self (s : State) : s.setPins s.pins = s := rfl
@[simp] theorem State.setFreeCount_self (s : State) : s.setFreeCount s.freeCount = s := rfl

end Sys2Proof.Machine
end

