-- ==== Sys2Proof/Laws/Frames.lean ====
section
/-! SUPPORT. Frames of the shared operations: what the operations of the streams, motors, rings and cells leave alone. -/

namespace Sys2Proof.Machine

open Sys2Proof

/-! ### The link's rings (R17) -/

@[simp] theorem Link.sourceRing_of_source {x : Link} {r : RingId} (h : x.source = some r) : x.sourceRing = r := by
  simp [Link.sourceRing, h]

@[simp] theorem Link.destRing_of_destination {x : Link} {r : RingId} (h : x.destination = some r) : x.destRing = r := by
  simp [Link.destRing, h]

@[simp] theorem linkStarted_sourceRing (a b : RingId) (k : Nat) : (linkStarted a b k).sourceRing = a := rfl

@[simp] theorem linkStarted_destRing (a b : RingId) (k : Nat) : (linkStarted a b k).destRing = b := rfl

/-- What the streams, the motors and the cells leave alone: the waiting commands, memory, the configuration, the tables, the pins,
the boot controller and the free-value counter. -/
structure Ground where
  pending : List Instr
  mem : List Host.Cell
  cfg : BoardConfig
  tables : TableStore
  pins : Pins
  boot : Boot
  freeCount : Nat

/-- The ground of a state. -/
def State.ground (s : State) : Ground := ⟨s.pending, s.mem, s.cfg, s.tables, s.pins, s.boot, s.freeCount⟩

/-- The controller's own state: what offering a burst, taking a delivery or an arrival, and URGENT leave alone. -/
def Pmc.core (x : Pmc) : Pmc := { x with waiting := [], inbox := [], arrivals := [], urgent := false, hostData := 0 }

/-- What the operations of the streams, motors, rings and cells leave alone. -/
structure Base where
  ground : Ground
  clk : ClockPower
  core : Pmc
  sense : Sense
  lines : LineInputs

/-- The base of a state. -/
def State.base (s : State) : Base := ⟨s.ground, s.clk, s.pmc.core, s.sense, s.lines⟩

@[simp] theorem State.setLink_base (s : State) (x : Link) : (s.setLink x).base = s.base := rfl
@[simp] theorem State.setScan_base (s : State) (x : Scan) : (s.setScan x).base = s.base := rfl
@[simp] theorem State.setPrint_base (s : State) (x : Print) : (s.setPrint x).base = s.base := rfl
@[simp] theorem State.setDoc_base (s : State) (x : Channel) : (s.setDoc x).base = s.base := rfl
@[simp] theorem State.setPaper_base (s : State) (x : Channel) : (s.setPaper x).base = s.base := rfl
@[simp] theorem State.setCells_base (s : State) (x : Cells) : (s.setCells x).base = s.base := rfl
@[simp] theorem State.setRings_base (s : State) (x : Rings) : (s.setRings x).base = s.base := rfl

@[simp] theorem State.setLink_ground (s : State) (x : Link) : (s.setLink x).ground = s.ground := rfl
@[simp] theorem State.setScan_ground (s : State) (x : Scan) : (s.setScan x).ground = s.ground := rfl
@[simp] theorem State.setPrint_ground (s : State) (x : Print) : (s.setPrint x).ground = s.ground := rfl
@[simp] theorem State.setDoc_ground (s : State) (x : Channel) : (s.setDoc x).ground = s.ground := rfl
@[simp] theorem State.setPaper_ground (s : State) (x : Channel) : (s.setPaper x).ground = s.ground := rfl
@[simp] theorem State.setCells_ground (s : State) (x : Cells) : (s.setCells x).ground = s.ground := rfl
@[simp] theorem State.setRings_ground (s : State) (x : Rings) : (s.setRings x).ground = s.ground := rfl
@[simp] theorem State.setSense_ground (s : State) (x : Sense) : (s.setSense x).ground = s.ground := rfl
@[simp] theorem State.setLines_ground (s : State) (x : LineInputs) : (s.setLines x).ground = s.ground := rfl
@[simp] theorem State.setClk_ground (s : State) (x : ClockPower) : (s.setClk x).ground = s.ground := rfl
@[simp] theorem State.setPmc_ground (s : State) (x : Pmc) : (s.setPmc x).ground = s.ground := rfl

@[simp] theorem State.setChan_base (s : State) (c : Chan) (x : Channel) : (s.setChan c x).base = s.base := by
  cases c <;> rfl

@[simp] theorem State.setRing_base (s : State) (r : RingId) (x : Ring) : (s.setRing r x).base = s.base := rfl

@[simp] theorem State.setChan_ground (s : State) (c : Chan) (x : Channel) : (s.setChan c x).ground = s.ground := by
  cases c <;> rfl

@[simp] theorem State.setRing_ground (s : State) (r : RingId) (x : Ring) : (s.setRing r x).ground = s.ground := rfl

/-- A controller update that leaves the controller's own state alone leaves the base alone. -/
theorem State.setPmc_base (s : State) (x : Pmc) (h : x.core = s.pmc.core) : (s.setPmc x).base = s.base := by
  simp [State.base, State.ground, h]

/-! ### Ops -/

@[simp] theorem State.offer_base (s : State) (bs : List Burst) : (s.offer bs).base = s.base := rfl

@[simp] theorem State.offer_ground (s : State) (bs : List Burst) : (s.offer bs).ground = s.ground := congrArg Base.ground (State.offer_base s bs)
@[simp] theorem State.offer_clk (s : State) (bs : List Burst) : (s.offer bs).clk = s.clk := congrArg Base.clk (State.offer_base s bs)
@[simp] theorem State.offer_core (s : State) (bs : List Burst) : (s.offer bs).pmc.core = s.pmc.core := congrArg Base.core (State.offer_base s bs)
@[simp] theorem State.offer_sense (s : State) (bs : List Burst) : (s.offer bs).sense = s.sense := congrArg Base.sense (State.offer_base s bs)
@[simp] theorem State.offer_lines (s : State) (bs : List Burst) : (s.offer bs).lines = s.lines := congrArg Base.lines (State.offer_base s bs)

@[simp] theorem State.issueRead_base (s : State) (cls : MemClass) (req : Req) (address len : Nat) : (s.issueRead cls req address len).base = s.base := rfl

@[simp] theorem State.issueRead_ground (s : State) (cls : MemClass) (req : Req) (address len : Nat) : (s.issueRead cls req address len).ground = s.ground := congrArg Base.ground (State.issueRead_base s cls req address len)
@[simp] theorem State.issueRead_clk (s : State) (cls : MemClass) (req : Req) (address len : Nat) : (s.issueRead cls req address len).clk = s.clk := congrArg Base.clk (State.issueRead_base s cls req address len)
@[simp] theorem State.issueRead_core (s : State) (cls : MemClass) (req : Req) (address len : Nat) : (s.issueRead cls req address len).pmc.core = s.pmc.core := congrArg Base.core (State.issueRead_base s cls req address len)
@[simp] theorem State.issueRead_sense (s : State) (cls : MemClass) (req : Req) (address len : Nat) : (s.issueRead cls req address len).sense = s.sense := congrArg Base.sense (State.issueRead_base s cls req address len)
@[simp] theorem State.issueRead_lines (s : State) (cls : MemClass) (req : Req) (address len : Nat) : (s.issueRead cls req address len).lines = s.lines := congrArg Base.lines (State.issueRead_base s cls req address len)

@[simp] theorem State.issueWrite_base (s : State) (cls : MemClass) (req : Req) (address : Nat) (data : List Half) : (s.issueWrite cls req address data).base = s.base := rfl

@[simp] theorem State.issueWrite_ground (s : State) (cls : MemClass) (req : Req) (address : Nat) (data : List Half) : (s.issueWrite cls req address data).ground = s.ground := congrArg Base.ground (State.issueWrite_base s cls req address data)
@[simp] theorem State.issueWrite_clk (s : State) (cls : MemClass) (req : Req) (address : Nat) (data : List Half) : (s.issueWrite cls req address data).clk = s.clk := congrArg Base.clk (State.issueWrite_base s cls req address data)
@[simp] theorem State.issueWrite_core (s : State) (cls : MemClass) (req : Req) (address : Nat) (data : List Half) : (s.issueWrite cls req address data).pmc.core = s.pmc.core := congrArg Base.core (State.issueWrite_base s cls req address data)
@[simp] theorem State.issueWrite_sense (s : State) (cls : MemClass) (req : Req) (address : Nat) (data : List Half) : (s.issueWrite cls req address data).sense = s.sense := congrArg Base.sense (State.issueWrite_base s cls req address data)
@[simp] theorem State.issueWrite_lines (s : State) (cls : MemClass) (req : Req) (address : Nat) (data : List Half) : (s.issueWrite cls req address data).lines = s.lines := congrArg Base.lines (State.issueWrite_base s cls req address data)

@[simp] theorem State.writeWord_base (s : State) (cls : MemClass) (offset value : Nat) : (s.writeWord cls offset value).base = s.base := rfl

@[simp] theorem State.writeWord_ground (s : State) (cls : MemClass) (offset value : Nat) : (s.writeWord cls offset value).ground = s.ground := congrArg Base.ground (State.writeWord_base s cls offset value)
@[simp] theorem State.writeWord_clk (s : State) (cls : MemClass) (offset value : Nat) : (s.writeWord cls offset value).clk = s.clk := congrArg Base.clk (State.writeWord_base s cls offset value)
@[simp] theorem State.writeWord_core (s : State) (cls : MemClass) (offset value : Nat) : (s.writeWord cls offset value).pmc.core = s.pmc.core := congrArg Base.core (State.writeWord_base s cls offset value)
@[simp] theorem State.writeWord_sense (s : State) (cls : MemClass) (offset value : Nat) : (s.writeWord cls offset value).sense = s.sense := congrArg Base.sense (State.writeWord_base s cls offset value)
@[simp] theorem State.writeWord_lines (s : State) (cls : MemClass) (offset value : Nat) : (s.writeWord cls offset value).lines = s.lines := congrArg Base.lines (State.writeWord_base s cls offset value)

@[simp] theorem State.takeOne_base (s : State) (q : Req) : (s.takeOne q).base = s.base := rfl

@[simp] theorem State.takeOne_ground (s : State) (q : Req) : (s.takeOne q).ground = s.ground := congrArg Base.ground (State.takeOne_base s q)
@[simp] theorem State.takeOne_clk (s : State) (q : Req) : (s.takeOne q).clk = s.clk := congrArg Base.clk (State.takeOne_base s q)
@[simp] theorem State.takeOne_core (s : State) (q : Req) : (s.takeOne q).pmc.core = s.pmc.core := congrArg Base.core (State.takeOne_base s q)
@[simp] theorem State.takeOne_sense (s : State) (q : Req) : (s.takeOne q).sense = s.sense := congrArg Base.sense (State.takeOne_base s q)
@[simp] theorem State.takeOne_lines (s : State) (q : Req) : (s.takeOne q).lines = s.lines := congrArg Base.lines (State.takeOne_base s q)

@[simp] theorem State.takeAll_base (s : State) (q : Req) : (s.takeAll q).base = s.base := rfl

@[simp] theorem State.takeAll_ground (s : State) (q : Req) : (s.takeAll q).ground = s.ground := congrArg Base.ground (State.takeAll_base s q)
@[simp] theorem State.takeAll_clk (s : State) (q : Req) : (s.takeAll q).clk = s.clk := congrArg Base.clk (State.takeAll_base s q)
@[simp] theorem State.takeAll_core (s : State) (q : Req) : (s.takeAll q).pmc.core = s.pmc.core := congrArg Base.core (State.takeAll_base s q)
@[simp] theorem State.takeAll_sense (s : State) (q : Req) : (s.takeAll q).sense = s.sense := congrArg Base.sense (State.takeAll_base s q)
@[simp] theorem State.takeAll_lines (s : State) (q : Req) : (s.takeAll q).lines = s.lines := congrArg Base.lines (State.takeAll_base s q)

@[simp] theorem State.writeCell_base (s : State) (mark : CellMark) (bytes : List Byte) : (s.writeCell mark bytes).base = s.base := rfl

@[simp] theorem State.writeCell_ground (s : State) (mark : CellMark) (bytes : List Byte) : (s.writeCell mark bytes).ground = s.ground := congrArg Base.ground (State.writeCell_base s mark bytes)
@[simp] theorem State.writeCell_clk (s : State) (mark : CellMark) (bytes : List Byte) : (s.writeCell mark bytes).clk = s.clk := congrArg Base.clk (State.writeCell_base s mark bytes)
@[simp] theorem State.writeCell_core (s : State) (mark : CellMark) (bytes : List Byte) : (s.writeCell mark bytes).pmc.core = s.pmc.core := congrArg Base.core (State.writeCell_base s mark bytes)
@[simp] theorem State.writeCell_sense (s : State) (mark : CellMark) (bytes : List Byte) : (s.writeCell mark bytes).sense = s.sense := congrArg Base.sense (State.writeCell_base s mark bytes)
@[simp] theorem State.writeCell_lines (s : State) (mark : CellMark) (bytes : List Byte) : (s.writeCell mark bytes).lines = s.lines := congrArg Base.lines (State.writeCell_base s mark bytes)

@[simp] theorem State.writeSummary_base (s : State) : (s.writeSummary).base = s.base := rfl

@[simp] theorem State.writeSummary_ground (s : State) : (s.writeSummary).ground = s.ground := congrArg Base.ground (State.writeSummary_base s)
@[simp] theorem State.writeSummary_clk (s : State) : (s.writeSummary).clk = s.clk := congrArg Base.clk (State.writeSummary_base s)
@[simp] theorem State.writeSummary_core (s : State) : (s.writeSummary).pmc.core = s.pmc.core := congrArg Base.core (State.writeSummary_base s)
@[simp] theorem State.writeSummary_sense (s : State) : (s.writeSummary).sense = s.sense := congrArg Base.sense (State.writeSummary_base s)
@[simp] theorem State.writeSummary_lines (s : State) : (s.writeSummary).lines = s.lines := congrArg Base.lines (State.writeSummary_base s)

@[simp] theorem State.recordLost_base (s : State) (k : Kind) : (s.recordLost k).base = s.base := by
  unfold State.recordLost; dsimp only; split <;> simp

@[simp] theorem State.recordLost_ground (s : State) (k : Kind) : (s.recordLost k).ground = s.ground := congrArg Base.ground (State.recordLost_base s k)
@[simp] theorem State.recordLost_clk (s : State) (k : Kind) : (s.recordLost k).clk = s.clk := congrArg Base.clk (State.recordLost_base s k)
@[simp] theorem State.recordLost_core (s : State) (k : Kind) : (s.recordLost k).pmc.core = s.pmc.core := congrArg Base.core (State.recordLost_base s k)
@[simp] theorem State.recordLost_sense (s : State) (k : Kind) : (s.recordLost k).sense = s.sense := congrArg Base.sense (State.recordLost_base s k)
@[simp] theorem State.recordLost_lines (s : State) (k : Kind) : (s.recordLost k).lines = s.lines := congrArg Base.lines (State.recordLost_base s k)

@[simp] theorem State.handEvent_base (s : State) (k : Kind) (tag : Byte) (r : Result) (fields : List Byte) (mark : CellMark) : (s.handEvent k tag r fields mark).base = s.base := by
  unfold State.handEvent; repeat' split
  all_goals simp

@[simp] theorem State.handEvent_ground (s : State) (k : Kind) (tag : Byte) (r : Result) (fields : List Byte) (mark : CellMark) : (s.handEvent k tag r fields mark).ground = s.ground := congrArg Base.ground (State.handEvent_base s k tag r fields mark)
@[simp] theorem State.handEvent_clk (s : State) (k : Kind) (tag : Byte) (r : Result) (fields : List Byte) (mark : CellMark) : (s.handEvent k tag r fields mark).clk = s.clk := congrArg Base.clk (State.handEvent_base s k tag r fields mark)
@[simp] theorem State.handEvent_core (s : State) (k : Kind) (tag : Byte) (r : Result) (fields : List Byte) (mark : CellMark) : (s.handEvent k tag r fields mark).pmc.core = s.pmc.core := congrArg Base.core (State.handEvent_base s k tag r fields mark)
@[simp] theorem State.handEvent_sense (s : State) (k : Kind) (tag : Byte) (r : Result) (fields : List Byte) (mark : CellMark) : (s.handEvent k tag r fields mark).sense = s.sense := congrArg Base.sense (State.handEvent_base s k tag r fields mark)
@[simp] theorem State.handEvent_lines (s : State) (k : Kind) (tag : Byte) (r : Result) (fields : List Byte) (mark : CellMark) : (s.handEvent k tag r fields mark).lines = s.lines := congrArg Base.lines (State.handEvent_base s k tag r fields mark)

@[simp] theorem State.handDone_base (s : State) (tag : Byte) (code : Nat) (r : Result) (detail : List Byte) (mark : CellMark) : (s.handDone tag code r detail mark).base = s.base := by
  unfold State.handDone; split <;> simp

@[simp] theorem State.handDone_ground (s : State) (tag : Byte) (code : Nat) (r : Result) (detail : List Byte) (mark : CellMark) : (s.handDone tag code r detail mark).ground = s.ground := congrArg Base.ground (State.handDone_base s tag code r detail mark)
@[simp] theorem State.handDone_clk (s : State) (tag : Byte) (code : Nat) (r : Result) (detail : List Byte) (mark : CellMark) : (s.handDone tag code r detail mark).clk = s.clk := congrArg Base.clk (State.handDone_base s tag code r detail mark)
@[simp] theorem State.handDone_core (s : State) (tag : Byte) (code : Nat) (r : Result) (detail : List Byte) (mark : CellMark) : (s.handDone tag code r detail mark).pmc.core = s.pmc.core := congrArg Base.core (State.handDone_base s tag code r detail mark)
@[simp] theorem State.handDone_sense (s : State) (tag : Byte) (code : Nat) (r : Result) (detail : List Byte) (mark : CellMark) : (s.handDone tag code r detail mark).sense = s.sense := congrArg Base.sense (State.handDone_base s tag code r detail mark)
@[simp] theorem State.handDone_lines (s : State) (tag : Byte) (code : Nat) (r : Result) (detail : List Byte) (mark : CellMark) : (s.handDone tag code r detail mark).lines = s.lines := congrArg Base.lines (State.handDone_base s tag code r detail mark)

@[simp] theorem State.writeSnapshot_base (s : State) : (s.writeSnapshot).base = s.base := rfl

@[simp] theorem State.writeSnapshot_ground (s : State) : (s.writeSnapshot).ground = s.ground := congrArg Base.ground (State.writeSnapshot_base s)
@[simp] theorem State.writeSnapshot_clk (s : State) : (s.writeSnapshot).clk = s.clk := congrArg Base.clk (State.writeSnapshot_base s)
@[simp] theorem State.writeSnapshot_core (s : State) : (s.writeSnapshot).pmc.core = s.pmc.core := congrArg Base.core (State.writeSnapshot_base s)
@[simp] theorem State.writeSnapshot_sense (s : State) : (s.writeSnapshot).sense = s.sense := congrArg Base.sense (State.writeSnapshot_base s)
@[simp] theorem State.writeSnapshot_lines (s : State) : (s.writeSnapshot).lines = s.lines := congrArg Base.lines (State.writeSnapshot_base s)

@[simp] theorem State.snapshotDue_base (s : State) : (s.snapshotDue).base = s.base := by
  unfold State.snapshotDue; repeat' split
  all_goals simp

@[simp] theorem State.snapshotDue_ground (s : State) : (s.snapshotDue).ground = s.ground := congrArg Base.ground (State.snapshotDue_base s)
@[simp] theorem State.snapshotDue_clk (s : State) : (s.snapshotDue).clk = s.clk := congrArg Base.clk (State.snapshotDue_base s)
@[simp] theorem State.snapshotDue_core (s : State) : (s.snapshotDue).pmc.core = s.pmc.core := congrArg Base.core (State.snapshotDue_base s)
@[simp] theorem State.snapshotDue_sense (s : State) : (s.snapshotDue).sense = s.sense := congrArg Base.sense (State.snapshotDue_base s)
@[simp] theorem State.snapshotDue_lines (s : State) : (s.snapshotDue).lines = s.lines := congrArg Base.lines (State.snapshotDue_base s)

/-! ### Rings -/

@[simp] theorem State.claimSlot_base (s : State) (r : RingId) (d : RingDesc) (tag : Tag) (words : List Word) (buf : Option BufId) : (s.claimSlot r d tag words buf).base = s.base := rfl

@[simp] theorem State.claimSlot_ground (s : State) (r : RingId) (d : RingDesc) (tag : Tag) (words : List Word) (buf : Option BufId) : (s.claimSlot r d tag words buf).ground = s.ground := congrArg Base.ground (State.claimSlot_base s r d tag words buf)
@[simp] theorem State.claimSlot_clk (s : State) (r : RingId) (d : RingDesc) (tag : Tag) (words : List Word) (buf : Option BufId) : (s.claimSlot r d tag words buf).clk = s.clk := congrArg Base.clk (State.claimSlot_base s r d tag words buf)
@[simp] theorem State.claimSlot_core (s : State) (r : RingId) (d : RingDesc) (tag : Tag) (words : List Word) (buf : Option BufId) : (s.claimSlot r d tag words buf).pmc.core = s.pmc.core := congrArg Base.core (State.claimSlot_base s r d tag words buf)
@[simp] theorem State.claimSlot_sense (s : State) (r : RingId) (d : RingDesc) (tag : Tag) (words : List Word) (buf : Option BufId) : (s.claimSlot r d tag words buf).sense = s.sense := congrArg Base.sense (State.claimSlot_base s r d tag words buf)
@[simp] theorem State.claimSlot_lines (s : State) (r : RingId) (d : RingDesc) (tag : Tag) (words : List Word) (buf : Option BufId) : (s.claimSlot r d tag words buf).lines = s.lines := congrArg Base.lines (State.claimSlot_base s r d tag words buf)

@[simp] theorem State.publish_base (s : State) (r : RingId) (d : RingDesc) : (s.publish r d).base = s.base := rfl

@[simp] theorem State.publish_ground (s : State) (r : RingId) (d : RingDesc) : (s.publish r d).ground = s.ground := congrArg Base.ground (State.publish_base s r d)
@[simp] theorem State.publish_clk (s : State) (r : RingId) (d : RingDesc) : (s.publish r d).clk = s.clk := congrArg Base.clk (State.publish_base s r d)
@[simp] theorem State.publish_core (s : State) (r : RingId) (d : RingDesc) : (s.publish r d).pmc.core = s.pmc.core := congrArg Base.core (State.publish_base s r d)
@[simp] theorem State.publish_sense (s : State) (r : RingId) (d : RingDesc) : (s.publish r d).sense = s.sense := congrArg Base.sense (State.publish_base s r d)
@[simp] theorem State.publish_lines (s : State) (r : RingId) (d : RingDesc) : (s.publish r d).lines = s.lines := congrArg Base.lines (State.publish_base s r d)

@[simp] theorem State.acknowledgeSlot_base (s : State) (r : RingId) (d : RingDesc) (c : Claim) (rest : List Claim) : (s.acknowledgeSlot r d c rest).base = s.base := by
  unfold State.acknowledgeSlot; dsimp only; repeat' split
  all_goals simp

@[simp] theorem State.acknowledgeSlot_ground (s : State) (r : RingId) (d : RingDesc) (c : Claim) (rest : List Claim) : (s.acknowledgeSlot r d c rest).ground = s.ground := congrArg Base.ground (State.acknowledgeSlot_base s r d c rest)
@[simp] theorem State.acknowledgeSlot_clk (s : State) (r : RingId) (d : RingDesc) (c : Claim) (rest : List Claim) : (s.acknowledgeSlot r d c rest).clk = s.clk := congrArg Base.clk (State.acknowledgeSlot_base s r d c rest)
@[simp] theorem State.acknowledgeSlot_core (s : State) (r : RingId) (d : RingDesc) (c : Claim) (rest : List Claim) : (s.acknowledgeSlot r d c rest).pmc.core = s.pmc.core := congrArg Base.core (State.acknowledgeSlot_base s r d c rest)
@[simp] theorem State.acknowledgeSlot_sense (s : State) (r : RingId) (d : RingDesc) (c : Claim) (rest : List Claim) : (s.acknowledgeSlot r d c rest).sense = s.sense := congrArg Base.sense (State.acknowledgeSlot_base s r d c rest)
@[simp] theorem State.acknowledgeSlot_lines (s : State) (r : RingId) (d : RingDesc) (c : Claim) (rest : List Claim) : (s.acknowledgeSlot r d c rest).lines = s.lines := congrArg Base.lines (State.acknowledgeSlot_base s r d c rest)

@[simp] theorem State.askPageEnd_base (s : State) (r : RingId) (lostTail : Bool) : (s.askPageEnd r lostTail).base = s.base := by
  unfold State.askPageEnd; split <;> simp

@[simp] theorem State.askPageEnd_ground (s : State) (r : RingId) (lostTail : Bool) : (s.askPageEnd r lostTail).ground = s.ground := congrArg Base.ground (State.askPageEnd_base s r lostTail)
@[simp] theorem State.askPageEnd_clk (s : State) (r : RingId) (lostTail : Bool) : (s.askPageEnd r lostTail).clk = s.clk := congrArg Base.clk (State.askPageEnd_base s r lostTail)
@[simp] theorem State.askPageEnd_core (s : State) (r : RingId) (lostTail : Bool) : (s.askPageEnd r lostTail).pmc.core = s.pmc.core := congrArg Base.core (State.askPageEnd_base s r lostTail)
@[simp] theorem State.askPageEnd_sense (s : State) (r : RingId) (lostTail : Bool) : (s.askPageEnd r lostTail).sense = s.sense := congrArg Base.sense (State.askPageEnd_base s r lostTail)
@[simp] theorem State.askPageEnd_lines (s : State) (r : RingId) (lostTail : Bool) : (s.askPageEnd r lostTail).lines = s.lines := congrArg Base.lines (State.askPageEnd_base s r lostTail)

@[simp] theorem State.beginPageEnd_base (s : State) (r : RingId) (d : RingDesc) : (s.beginPageEnd r d).base = s.base := by
  unfold State.beginPageEnd; dsimp only; repeat' split
  all_goals simp

@[simp] theorem State.beginPageEnd_ground (s : State) (r : RingId) (d : RingDesc) : (s.beginPageEnd r d).ground = s.ground := congrArg Base.ground (State.beginPageEnd_base s r d)
@[simp] theorem State.beginPageEnd_clk (s : State) (r : RingId) (d : RingDesc) : (s.beginPageEnd r d).clk = s.clk := congrArg Base.clk (State.beginPageEnd_base s r d)
@[simp] theorem State.beginPageEnd_core (s : State) (r : RingId) (d : RingDesc) : (s.beginPageEnd r d).pmc.core = s.pmc.core := congrArg Base.core (State.beginPageEnd_base s r d)
@[simp] theorem State.beginPageEnd_sense (s : State) (r : RingId) (d : RingDesc) : (s.beginPageEnd r d).sense = s.sense := congrArg Base.sense (State.beginPageEnd_base s r d)
@[simp] theorem State.beginPageEnd_lines (s : State) (r : RingId) (d : RingDesc) : (s.beginPageEnd r d).lines = s.lines := congrArg Base.lines (State.beginPageEnd_base s r d)

@[simp] theorem State.finishPageEnd_base (s : State) (r : RingId) (d : RingDesc) : (s.finishPageEnd r d).base = s.base := rfl

@[simp] theorem State.finishPageEnd_ground (s : State) (r : RingId) (d : RingDesc) : (s.finishPageEnd r d).ground = s.ground := congrArg Base.ground (State.finishPageEnd_base s r d)
@[simp] theorem State.finishPageEnd_clk (s : State) (r : RingId) (d : RingDesc) : (s.finishPageEnd r d).clk = s.clk := congrArg Base.clk (State.finishPageEnd_base s r d)
@[simp] theorem State.finishPageEnd_core (s : State) (r : RingId) (d : RingDesc) : (s.finishPageEnd r d).pmc.core = s.pmc.core := congrArg Base.core (State.finishPageEnd_base s r d)
@[simp] theorem State.finishPageEnd_sense (s : State) (r : RingId) (d : RingDesc) : (s.finishPageEnd r d).sense = s.sense := congrArg Base.sense (State.finishPageEnd_base s r d)
@[simp] theorem State.finishPageEnd_lines (s : State) (r : RingId) (d : RingDesc) : (s.finishPageEnd r d).lines = s.lines := congrArg Base.lines (State.finishPageEnd_base s r d)

@[simp] theorem State.releaseTake_base (s : State) (r : RingId) (n : Nat) : (s.releaseTake r n).base = s.base := by
  unfold State.releaseTake; repeat' split
  all_goals simp

@[simp] theorem State.releaseTake_ground (s : State) (r : RingId) (n : Nat) : (s.releaseTake r n).ground = s.ground := congrArg Base.ground (State.releaseTake_base s r n)
@[simp] theorem State.releaseTake_clk (s : State) (r : RingId) (n : Nat) : (s.releaseTake r n).clk = s.clk := congrArg Base.clk (State.releaseTake_base s r n)
@[simp] theorem State.releaseTake_core (s : State) (r : RingId) (n : Nat) : (s.releaseTake r n).pmc.core = s.pmc.core := congrArg Base.core (State.releaseTake_base s r n)
@[simp] theorem State.releaseTake_sense (s : State) (r : RingId) (n : Nat) : (s.releaseTake r n).sense = s.sense := congrArg Base.sense (State.releaseTake_base s r n)
@[simp] theorem State.releaseTake_lines (s : State) (r : RingId) (n : Nat) : (s.releaseTake r n).lines = s.lines := congrArg Base.lines (State.releaseTake_base s r n)

@[simp] theorem State.attachProducer_base (s : State) (r : RingId) (on : Bool) : (s.attachProducer r on).base = s.base := rfl

@[simp] theorem State.attachProducer_ground (s : State) (r : RingId) (on : Bool) : (s.attachProducer r on).ground = s.ground := congrArg Base.ground (State.attachProducer_base s r on)
@[simp] theorem State.attachProducer_clk (s : State) (r : RingId) (on : Bool) : (s.attachProducer r on).clk = s.clk := congrArg Base.clk (State.attachProducer_base s r on)
@[simp] theorem State.attachProducer_core (s : State) (r : RingId) (on : Bool) : (s.attachProducer r on).pmc.core = s.pmc.core := congrArg Base.core (State.attachProducer_base s r on)
@[simp] theorem State.attachProducer_sense (s : State) (r : RingId) (on : Bool) : (s.attachProducer r on).sense = s.sense := congrArg Base.sense (State.attachProducer_base s r on)
@[simp] theorem State.attachProducer_lines (s : State) (r : RingId) (on : Bool) : (s.attachProducer r on).lines = s.lines := congrArg Base.lines (State.attachProducer_base s r on)

@[simp] theorem State.attachConsumer_base (s : State) (r : RingId) (on : Bool) : (s.attachConsumer r on).base = s.base := rfl

@[simp] theorem State.attachConsumer_ground (s : State) (r : RingId) (on : Bool) : (s.attachConsumer r on).ground = s.ground := congrArg Base.ground (State.attachConsumer_base s r on)
@[simp] theorem State.attachConsumer_clk (s : State) (r : RingId) (on : Bool) : (s.attachConsumer r on).clk = s.clk := congrArg Base.clk (State.attachConsumer_base s r on)
@[simp] theorem State.attachConsumer_core (s : State) (r : RingId) (on : Bool) : (s.attachConsumer r on).pmc.core = s.pmc.core := congrArg Base.core (State.attachConsumer_base s r on)
@[simp] theorem State.attachConsumer_sense (s : State) (r : RingId) (on : Bool) : (s.attachConsumer r on).sense = s.sense := congrArg Base.sense (State.attachConsumer_base s r on)
@[simp] theorem State.attachConsumer_lines (s : State) (r : RingId) (on : Bool) : (s.attachConsumer r on).lines = s.lines := congrArg Base.lines (State.attachConsumer_base s r on)

@[simp] theorem State.installRing_base (s : State) (r : RingId) (d : RingDesc) : (s.installRing r d).base = s.base := rfl

@[simp] theorem State.installRing_ground (s : State) (r : RingId) (d : RingDesc) : (s.installRing r d).ground = s.ground := congrArg Base.ground (State.installRing_base s r d)
@[simp] theorem State.installRing_clk (s : State) (r : RingId) (d : RingDesc) : (s.installRing r d).clk = s.clk := congrArg Base.clk (State.installRing_base s r d)
@[simp] theorem State.installRing_core (s : State) (r : RingId) (d : RingDesc) : (s.installRing r d).pmc.core = s.pmc.core := congrArg Base.core (State.installRing_base s r d)
@[simp] theorem State.installRing_sense (s : State) (r : RingId) (d : RingDesc) : (s.installRing r d).sense = s.sense := congrArg Base.sense (State.installRing_base s r d)
@[simp] theorem State.installRing_lines (s : State) (r : RingId) (d : RingDesc) : (s.installRing r d).lines = s.lines := congrArg Base.lines (State.installRing_base s r d)

@[simp] theorem State.ringFault_base (s : State) (r : RingId) (index : Nat) (written held : Nat) : (s.ringFault r index written held).base = s.base := by simp [State.ringFault]

@[simp] theorem State.ringFault_ground (s : State) (r : RingId) (index : Nat) (written held : Nat) : (s.ringFault r index written held).ground = s.ground := congrArg Base.ground (State.ringFault_base s r index written held)
@[simp] theorem State.ringFault_clk (s : State) (r : RingId) (index : Nat) (written held : Nat) : (s.ringFault r index written held).clk = s.clk := congrArg Base.clk (State.ringFault_base s r index written held)
@[simp] theorem State.ringFault_core (s : State) (r : RingId) (index : Nat) (written held : Nat) : (s.ringFault r index written held).pmc.core = s.pmc.core := congrArg Base.core (State.ringFault_base s r index written held)
@[simp] theorem State.ringFault_sense (s : State) (r : RingId) (index : Nat) (written held : Nat) : (s.ringFault r index written held).sense = s.sense := congrArg Base.sense (State.ringFault_base s r index written held)
@[simp] theorem State.ringFault_lines (s : State) (r : RingId) (index : Nat) (written held : Nat) : (s.ringFault r index written held).lines = s.lines := congrArg Base.lines (State.ringFault_base s r index written held)

/-! ### Motion -/

@[simp] theorem State.startMove_base (s : State) (c : Chan) (requester : Owner) (dir : Direction) (profile : Fin 8) (steps : Option Nat) (tag : Byte) : (s.startMove c requester dir profile steps tag).base = s.base := by simp [State.startMove]

@[simp] theorem State.startMove_ground (s : State) (c : Chan) (requester : Owner) (dir : Direction) (profile : Fin 8) (steps : Option Nat) (tag : Byte) : (s.startMove c requester dir profile steps tag).ground = s.ground := congrArg Base.ground (State.startMove_base s c requester dir profile steps tag)
@[simp] theorem State.startMove_clk (s : State) (c : Chan) (requester : Owner) (dir : Direction) (profile : Fin 8) (steps : Option Nat) (tag : Byte) : (s.startMove c requester dir profile steps tag).clk = s.clk := congrArg Base.clk (State.startMove_base s c requester dir profile steps tag)
@[simp] theorem State.startMove_core (s : State) (c : Chan) (requester : Owner) (dir : Direction) (profile : Fin 8) (steps : Option Nat) (tag : Byte) : (s.startMove c requester dir profile steps tag).pmc.core = s.pmc.core := congrArg Base.core (State.startMove_base s c requester dir profile steps tag)
@[simp] theorem State.startMove_sense (s : State) (c : Chan) (requester : Owner) (dir : Direction) (profile : Fin 8) (steps : Option Nat) (tag : Byte) : (s.startMove c requester dir profile steps tag).sense = s.sense := congrArg Base.sense (State.startMove_base s c requester dir profile steps tag)
@[simp] theorem State.startMove_lines (s : State) (c : Chan) (requester : Owner) (dir : Direction) (profile : Fin 8) (steps : Option Nat) (tag : Byte) : (s.startMove c requester dir profile steps tag).lines = s.lines := congrArg Base.lines (State.startMove_base s c requester dir profile steps tag)

@[simp] theorem State.stopMove_base (s : State) (c : Chan) (cause : StopCause) : (s.stopMove c cause).base = s.base := by simp [State.stopMove]

@[simp] theorem State.stopMove_ground (s : State) (c : Chan) (cause : StopCause) : (s.stopMove c cause).ground = s.ground := congrArg Base.ground (State.stopMove_base s c cause)
@[simp] theorem State.stopMove_clk (s : State) (c : Chan) (cause : StopCause) : (s.stopMove c cause).clk = s.clk := congrArg Base.clk (State.stopMove_base s c cause)
@[simp] theorem State.stopMove_core (s : State) (c : Chan) (cause : StopCause) : (s.stopMove c cause).pmc.core = s.pmc.core := congrArg Base.core (State.stopMove_base s c cause)
@[simp] theorem State.stopMove_sense (s : State) (c : Chan) (cause : StopCause) : (s.stopMove c cause).sense = s.sense := congrArg Base.sense (State.stopMove_base s c cause)
@[simp] theorem State.stopMove_lines (s : State) (c : Chan) (cause : StopCause) : (s.stopMove c cause).lines = s.lines := congrArg Base.lines (State.stopMove_base s c cause)

@[simp] theorem State.stopBoth_base (s : State) (cause : StopCause) : (s.stopBoth cause).base = s.base := rfl

@[simp] theorem State.stopBoth_ground (s : State) (cause : StopCause) : (s.stopBoth cause).ground = s.ground := congrArg Base.ground (State.stopBoth_base s cause)
@[simp] theorem State.stopBoth_clk (s : State) (cause : StopCause) : (s.stopBoth cause).clk = s.clk := congrArg Base.clk (State.stopBoth_base s cause)
@[simp] theorem State.stopBoth_core (s : State) (cause : StopCause) : (s.stopBoth cause).pmc.core = s.pmc.core := congrArg Base.core (State.stopBoth_base s cause)
@[simp] theorem State.stopBoth_sense (s : State) (cause : StopCause) : (s.stopBoth cause).sense = s.sense := congrArg Base.sense (State.stopBoth_base s cause)
@[simp] theorem State.stopBoth_lines (s : State) (cause : StopCause) : (s.stopBoth cause).lines = s.lines := congrArg Base.lines (State.stopBoth_base s cause)

@[simp] theorem State.reportHostEnd_base (s : State) (ch : Chan) (c : Channel) (cause : EndCause) : (s.reportHostEnd ch c cause).base = s.base := by simp [State.reportHostEnd]

@[simp] theorem State.reportHostEnd_ground (s : State) (ch : Chan) (c : Channel) (cause : EndCause) : (s.reportHostEnd ch c cause).ground = s.ground := congrArg Base.ground (State.reportHostEnd_base s ch c cause)
@[simp] theorem State.reportHostEnd_clk (s : State) (ch : Chan) (c : Channel) (cause : EndCause) : (s.reportHostEnd ch c cause).clk = s.clk := congrArg Base.clk (State.reportHostEnd_base s ch c cause)
@[simp] theorem State.reportHostEnd_core (s : State) (ch : Chan) (c : Channel) (cause : EndCause) : (s.reportHostEnd ch c cause).pmc.core = s.pmc.core := congrArg Base.core (State.reportHostEnd_base s ch c cause)
@[simp] theorem State.reportHostEnd_sense (s : State) (ch : Chan) (c : Channel) (cause : EndCause) : (s.reportHostEnd ch c cause).sense = s.sense := congrArg Base.sense (State.reportHostEnd_base s ch c cause)
@[simp] theorem State.reportHostEnd_lines (s : State) (ch : Chan) (c : Channel) (cause : EndCause) : (s.reportHostEnd ch c cause).lines = s.lines := congrArg Base.lines (State.reportHostEnd_base s ch c cause)

/-! ### Scan -/

@[simp] theorem State.handPageScanned_base (s : State) (mark : CellMark) : (s.handPageScanned mark).base = s.base := by simp [State.handPageScanned]

@[simp] theorem State.handPageScanned_ground (s : State) (mark : CellMark) : (s.handPageScanned mark).ground = s.ground := congrArg Base.ground (State.handPageScanned_base s mark)
@[simp] theorem State.handPageScanned_clk (s : State) (mark : CellMark) : (s.handPageScanned mark).clk = s.clk := congrArg Base.clk (State.handPageScanned_base s mark)
@[simp] theorem State.handPageScanned_core (s : State) (mark : CellMark) : (s.handPageScanned mark).pmc.core = s.pmc.core := congrArg Base.core (State.handPageScanned_base s mark)
@[simp] theorem State.handPageScanned_sense (s : State) (mark : CellMark) : (s.handPageScanned mark).sense = s.sense := congrArg Base.sense (State.handPageScanned_base s mark)
@[simp] theorem State.handPageScanned_lines (s : State) (mark : CellMark) : (s.handPageScanned mark).lines = s.lines := congrArg Base.lines (State.handPageScanned_base s mark)

@[simp] theorem State.scanOff_base (s : State) : (s.scanOff).base = s.base := rfl

@[simp] theorem State.scanOff_ground (s : State) : (s.scanOff).ground = s.ground := congrArg Base.ground (State.scanOff_base s)
@[simp] theorem State.scanOff_clk (s : State) : (s.scanOff).clk = s.clk := congrArg Base.clk (State.scanOff_base s)
@[simp] theorem State.scanOff_core (s : State) : (s.scanOff).pmc.core = s.pmc.core := congrArg Base.core (State.scanOff_base s)
@[simp] theorem State.scanOff_sense (s : State) : (s.scanOff).sense = s.sense := congrArg Base.sense (State.scanOff_base s)
@[simp] theorem State.scanOff_lines (s : State) : (s.scanOff).lines = s.lines := congrArg Base.lines (State.scanOff_base s)

@[simp] theorem State.scanTryOff_base (s : State) : (s.scanTryOff).base = s.base := by
  unfold State.scanTryOff; split <;> simp

@[simp] theorem State.scanTryOff_ground (s : State) : (s.scanTryOff).ground = s.ground := congrArg Base.ground (State.scanTryOff_base s)
@[simp] theorem State.scanTryOff_clk (s : State) : (s.scanTryOff).clk = s.clk := congrArg Base.clk (State.scanTryOff_base s)
@[simp] theorem State.scanTryOff_core (s : State) : (s.scanTryOff).pmc.core = s.pmc.core := congrArg Base.core (State.scanTryOff_base s)
@[simp] theorem State.scanTryOff_sense (s : State) : (s.scanTryOff).sense = s.sense := congrArg Base.sense (State.scanTryOff_base s)
@[simp] theorem State.scanTryOff_lines (s : State) : (s.scanTryOff).lines = s.lines := congrArg Base.lines (State.scanTryOff_base s)

@[simp] theorem State.scanPageEndComplete_base (s : State) : (s.scanPageEndComplete).base = s.base := by simp [State.scanPageEndComplete]

@[simp] theorem State.scanPageEndComplete_ground (s : State) : (s.scanPageEndComplete).ground = s.ground := congrArg Base.ground (State.scanPageEndComplete_base s)
@[simp] theorem State.scanPageEndComplete_clk (s : State) : (s.scanPageEndComplete).clk = s.clk := congrArg Base.clk (State.scanPageEndComplete_base s)
@[simp] theorem State.scanPageEndComplete_core (s : State) : (s.scanPageEndComplete).pmc.core = s.pmc.core := congrArg Base.core (State.scanPageEndComplete_base s)
@[simp] theorem State.scanPageEndComplete_sense (s : State) : (s.scanPageEndComplete).sense = s.sense := congrArg Base.sense (State.scanPageEndComplete_base s)
@[simp] theorem State.scanPageEndComplete_lines (s : State) : (s.scanPageEndComplete).lines = s.lines := congrArg Base.lines (State.scanPageEndComplete_base s)

@[simp] theorem State.scanPageEnd_base (s : State) (reason : ScanReason) : (s.scanPageEnd reason).base = s.base := by
  unfold State.scanPageEnd; dsimp only; repeat' split
  all_goals simp

@[simp] theorem State.scanPageEnd_ground (s : State) (reason : ScanReason) : (s.scanPageEnd reason).ground = s.ground := congrArg Base.ground (State.scanPageEnd_base s reason)
@[simp] theorem State.scanPageEnd_clk (s : State) (reason : ScanReason) : (s.scanPageEnd reason).clk = s.clk := congrArg Base.clk (State.scanPageEnd_base s reason)
@[simp] theorem State.scanPageEnd_core (s : State) (reason : ScanReason) : (s.scanPageEnd reason).pmc.core = s.pmc.core := congrArg Base.core (State.scanPageEnd_base s reason)
@[simp] theorem State.scanPageEnd_sense (s : State) (reason : ScanReason) : (s.scanPageEnd reason).sense = s.sense := congrArg Base.sense (State.scanPageEnd_base s reason)
@[simp] theorem State.scanPageEnd_lines (s : State) (reason : ScanReason) : (s.scanPageEnd reason).lines = s.lines := congrArg Base.lines (State.scanPageEnd_base s reason)

@[simp] theorem State.calFinish_base (s : State) : (s.calFinish).base = s.base := by simp [State.calFinish]

@[simp] theorem State.calFinish_ground (s : State) : (s.calFinish).ground = s.ground := congrArg Base.ground (State.calFinish_base s)
@[simp] theorem State.calFinish_clk (s : State) : (s.calFinish).clk = s.clk := congrArg Base.clk (State.calFinish_base s)
@[simp] theorem State.calFinish_core (s : State) : (s.calFinish).pmc.core = s.pmc.core := congrArg Base.core (State.calFinish_base s)
@[simp] theorem State.calFinish_sense (s : State) : (s.calFinish).sense = s.sense := congrArg Base.sense (State.calFinish_base s)
@[simp] theorem State.calFinish_lines (s : State) : (s.calFinish).lines = s.lines := congrArg Base.lines (State.calFinish_base s)

@[simp] theorem State.calCut_base (s : State) (reason : ScanReason) : (s.calCut reason).base = s.base := by
  unfold State.calCut; dsimp only; repeat' split
  all_goals simp

@[simp] theorem State.calCut_ground (s : State) (reason : ScanReason) : (s.calCut reason).ground = s.ground := congrArg Base.ground (State.calCut_base s reason)
@[simp] theorem State.calCut_clk (s : State) (reason : ScanReason) : (s.calCut reason).clk = s.clk := congrArg Base.clk (State.calCut_base s reason)
@[simp] theorem State.calCut_core (s : State) (reason : ScanReason) : (s.calCut reason).pmc.core = s.pmc.core := congrArg Base.core (State.calCut_base s reason)
@[simp] theorem State.calCut_sense (s : State) (reason : ScanReason) : (s.calCut reason).sense = s.sense := congrArg Base.sense (State.calCut_base s reason)
@[simp] theorem State.calCut_lines (s : State) (reason : ScanReason) : (s.calCut reason).lines = s.lines := congrArg Base.lines (State.calCut_base s reason)

@[simp] theorem State.scanCut_base (s : State) (reason : ScanReason) : (s.scanCut reason).base = s.base := by
  unfold State.scanCut; split <;> simp

@[simp] theorem State.scanCut_ground (s : State) (reason : ScanReason) : (s.scanCut reason).ground = s.ground := congrArg Base.ground (State.scanCut_base s reason)
@[simp] theorem State.scanCut_clk (s : State) (reason : ScanReason) : (s.scanCut reason).clk = s.clk := congrArg Base.clk (State.scanCut_base s reason)
@[simp] theorem State.scanCut_core (s : State) (reason : ScanReason) : (s.scanCut reason).pmc.core = s.pmc.core := congrArg Base.core (State.scanCut_base s reason)
@[simp] theorem State.scanCut_sense (s : State) (reason : ScanReason) : (s.scanCut reason).sense = s.sense := congrArg Base.sense (State.scanCut_base s reason)
@[simp] theorem State.scanCut_lines (s : State) (reason : ScanReason) : (s.scanCut reason).lines = s.lines := congrArg Base.lines (State.scanCut_base s reason)

@[simp] theorem State.scanCheckMargin_base (s : State) : (s.scanCheckMargin).base = s.base := by
  unfold State.scanCheckMargin; dsimp only; repeat' split
  all_goals simp

@[simp] theorem State.scanCheckMargin_ground (s : State) : (s.scanCheckMargin).ground = s.ground := congrArg Base.ground (State.scanCheckMargin_base s)
@[simp] theorem State.scanCheckMargin_clk (s : State) : (s.scanCheckMargin).clk = s.clk := congrArg Base.clk (State.scanCheckMargin_base s)
@[simp] theorem State.scanCheckMargin_core (s : State) : (s.scanCheckMargin).pmc.core = s.pmc.core := congrArg Base.core (State.scanCheckMargin_base s)
@[simp] theorem State.scanCheckMargin_sense (s : State) : (s.scanCheckMargin).sense = s.sense := congrArg Base.sense (State.scanCheckMargin_base s)
@[simp] theorem State.scanCheckMargin_lines (s : State) : (s.scanCheckMargin).lines = s.lines := congrArg Base.lines (State.scanCheckMargin_base s)

@[simp] theorem State.scanRestart_base (s : State) : (s.scanRestart).base = s.base := by
  unfold State.scanRestart; dsimp only; split <;> simp

@[simp] theorem State.scanRestart_ground (s : State) : (s.scanRestart).ground = s.ground := congrArg Base.ground (State.scanRestart_base s)
@[simp] theorem State.scanRestart_clk (s : State) : (s.scanRestart).clk = s.clk := congrArg Base.clk (State.scanRestart_base s)
@[simp] theorem State.scanRestart_core (s : State) : (s.scanRestart).pmc.core = s.pmc.core := congrArg Base.core (State.scanRestart_base s)
@[simp] theorem State.scanRestart_sense (s : State) : (s.scanRestart).sense = s.sense := congrArg Base.sense (State.scanRestart_base s)
@[simp] theorem State.scanRestart_lines (s : State) : (s.scanRestart).lines = s.lines := congrArg Base.lines (State.scanRestart_base s)

@[simp] theorem State.scanFreed_base (s : State) (r : RingId) : (s.scanFreed r).base = s.base := by
  unfold State.scanFreed; split <;> simp

@[simp] theorem State.scanFreed_ground (s : State) (r : RingId) : (s.scanFreed r).ground = s.ground := congrArg Base.ground (State.scanFreed_base s r)
@[simp] theorem State.scanFreed_clk (s : State) (r : RingId) : (s.scanFreed r).clk = s.clk := congrArg Base.clk (State.scanFreed_base s r)
@[simp] theorem State.scanFreed_core (s : State) (r : RingId) : (s.scanFreed r).pmc.core = s.pmc.core := congrArg Base.core (State.scanFreed_base s r)
@[simp] theorem State.scanFreed_sense (s : State) (r : RingId) : (s.scanFreed r).sense = s.sense := congrArg Base.sense (State.scanFreed_base s r)
@[simp] theorem State.scanFreed_lines (s : State) (r : RingId) : (s.scanFreed r).lines = s.lines := congrArg Base.lines (State.scanFreed_base s r)

@[simp] theorem State.releaseSlots_base (s : State) (r : RingId) (n : Nat) : (s.releaseSlots r n).base = s.base := by simp [State.releaseSlots]

@[simp] theorem State.releaseSlots_ground (s : State) (r : RingId) (n : Nat) : (s.releaseSlots r n).ground = s.ground := congrArg Base.ground (State.releaseSlots_base s r n)
@[simp] theorem State.releaseSlots_clk (s : State) (r : RingId) (n : Nat) : (s.releaseSlots r n).clk = s.clk := congrArg Base.clk (State.releaseSlots_base s r n)
@[simp] theorem State.releaseSlots_core (s : State) (r : RingId) (n : Nat) : (s.releaseSlots r n).pmc.core = s.pmc.core := congrArg Base.core (State.releaseSlots_base s r n)
@[simp] theorem State.releaseSlots_sense (s : State) (r : RingId) (n : Nat) : (s.releaseSlots r n).sense = s.sense := congrArg Base.sense (State.releaseSlots_base s r n)
@[simp] theorem State.releaseSlots_lines (s : State) (r : RingId) (n : Nat) : (s.releaseSlots r n).lines = s.lines := congrArg Base.lines (State.releaseSlots_base s r n)

@[simp] theorem State.scanCloseIfIdle_base (s : State) : (s.scanCloseIfIdle).base = s.base := by
  unfold State.scanCloseIfIdle; split <;> simp

@[simp] theorem State.scanCloseIfIdle_ground (s : State) : (s.scanCloseIfIdle).ground = s.ground := congrArg Base.ground (State.scanCloseIfIdle_base s)
@[simp] theorem State.scanCloseIfIdle_clk (s : State) : (s.scanCloseIfIdle).clk = s.clk := congrArg Base.clk (State.scanCloseIfIdle_base s)
@[simp] theorem State.scanCloseIfIdle_core (s : State) : (s.scanCloseIfIdle).pmc.core = s.pmc.core := congrArg Base.core (State.scanCloseIfIdle_base s)
@[simp] theorem State.scanCloseIfIdle_sense (s : State) : (s.scanCloseIfIdle).sense = s.sense := congrArg Base.sense (State.scanCloseIfIdle_base s)
@[simp] theorem State.scanCloseIfIdle_lines (s : State) : (s.scanCloseIfIdle).lines = s.lines := congrArg Base.lines (State.scanCloseIfIdle_base s)

@[simp] theorem State.scanTriggerPosition_base (s : State) : (s.scanTriggerPosition).base = s.base := by
  unfold State.scanTriggerPosition; dsimp only; repeat' split
  all_goals simp

@[simp] theorem State.scanTriggerPosition_ground (s : State) : (s.scanTriggerPosition).ground = s.ground := congrArg Base.ground (State.scanTriggerPosition_base s)
@[simp] theorem State.scanTriggerPosition_clk (s : State) : (s.scanTriggerPosition).clk = s.clk := congrArg Base.clk (State.scanTriggerPosition_base s)
@[simp] theorem State.scanTriggerPosition_core (s : State) : (s.scanTriggerPosition).pmc.core = s.pmc.core := congrArg Base.core (State.scanTriggerPosition_base s)
@[simp] theorem State.scanTriggerPosition_sense (s : State) : (s.scanTriggerPosition).sense = s.sense := congrArg Base.sense (State.scanTriggerPosition_base s)
@[simp] theorem State.scanTriggerPosition_lines (s : State) : (s.scanTriggerPosition).lines = s.lines := congrArg Base.lines (State.scanTriggerPosition_base s)

@[simp] theorem State.scanDocStep_base (s : State) : (s.scanDocStep).base = s.base := by
  unfold State.scanDocStep; dsimp only; repeat' split
  all_goals simp

@[simp] theorem State.scanDocStep_ground (s : State) : (s.scanDocStep).ground = s.ground := congrArg Base.ground (State.scanDocStep_base s)
@[simp] theorem State.scanDocStep_clk (s : State) : (s.scanDocStep).clk = s.clk := congrArg Base.clk (State.scanDocStep_base s)
@[simp] theorem State.scanDocStep_core (s : State) : (s.scanDocStep).pmc.core = s.pmc.core := congrArg Base.core (State.scanDocStep_base s)
@[simp] theorem State.scanDocStep_sense (s : State) : (s.scanDocStep).sense = s.sense := congrArg Base.sense (State.scanDocStep_base s)
@[simp] theorem State.scanDocStep_lines (s : State) : (s.scanDocStep).lines = s.lines := congrArg Base.lines (State.scanDocStep_base s)

@[simp] theorem State.startCapture_base (s : State) : (s.startCapture).base = s.base := by simp [State.startCapture]

@[simp] theorem State.startCapture_ground (s : State) : (s.startCapture).ground = s.ground := congrArg Base.ground (State.startCapture_base s)
@[simp] theorem State.startCapture_clk (s : State) : (s.startCapture).clk = s.clk := congrArg Base.clk (State.startCapture_base s)
@[simp] theorem State.startCapture_core (s : State) : (s.startCapture).pmc.core = s.pmc.core := congrArg Base.core (State.startCapture_base s)
@[simp] theorem State.startCapture_sense (s : State) : (s.startCapture).sense = s.sense := congrArg Base.sense (State.startCapture_base s)
@[simp] theorem State.startCapture_lines (s : State) : (s.startCapture).lines = s.lines := congrArg Base.lines (State.startCapture_base s)

@[simp] theorem State.docEdgeHigh_base (s : State) : (s.docEdgeHigh).base = s.base := by
  unfold State.docEdgeHigh; split <;> simp

@[simp] theorem State.docEdgeHigh_ground (s : State) : (s.docEdgeHigh).ground = s.ground := congrArg Base.ground (State.docEdgeHigh_base s)
@[simp] theorem State.docEdgeHigh_clk (s : State) : (s.docEdgeHigh).clk = s.clk := congrArg Base.clk (State.docEdgeHigh_base s)
@[simp] theorem State.docEdgeHigh_core (s : State) : (s.docEdgeHigh).pmc.core = s.pmc.core := congrArg Base.core (State.docEdgeHigh_base s)
@[simp] theorem State.docEdgeHigh_sense (s : State) : (s.docEdgeHigh).sense = s.sense := congrArg Base.sense (State.docEdgeHigh_base s)
@[simp] theorem State.docEdgeHigh_lines (s : State) : (s.docEdgeHigh).lines = s.lines := congrArg Base.lines (State.docEdgeHigh_base s)

@[simp] theorem State.closeAtEdge_base (s : State) : (s.closeAtEdge).base = s.base := by
  unfold State.closeAtEdge; dsimp only; split <;> simp

@[simp] theorem State.closeAtEdge_ground (s : State) : (s.closeAtEdge).ground = s.ground := congrArg Base.ground (State.closeAtEdge_base s)
@[simp] theorem State.closeAtEdge_clk (s : State) : (s.closeAtEdge).clk = s.clk := congrArg Base.clk (State.closeAtEdge_base s)
@[simp] theorem State.closeAtEdge_core (s : State) : (s.closeAtEdge).pmc.core = s.pmc.core := congrArg Base.core (State.closeAtEdge_base s)
@[simp] theorem State.closeAtEdge_sense (s : State) : (s.closeAtEdge).sense = s.sense := congrArg Base.sense (State.closeAtEdge_base s)
@[simp] theorem State.closeAtEdge_lines (s : State) : (s.closeAtEdge).lines = s.lines := congrArg Base.lines (State.closeAtEdge_base s)

@[simp] theorem State.docEdgeLow_base (s : State) : (s.docEdgeLow).base = s.base := by
  unfold State.docEdgeLow; dsimp only; repeat' split
  all_goals simp

@[simp] theorem State.docEdgeLow_ground (s : State) : (s.docEdgeLow).ground = s.ground := congrArg Base.ground (State.docEdgeLow_base s)
@[simp] theorem State.docEdgeLow_clk (s : State) : (s.docEdgeLow).clk = s.clk := congrArg Base.clk (State.docEdgeLow_base s)
@[simp] theorem State.docEdgeLow_core (s : State) : (s.docEdgeLow).pmc.core = s.pmc.core := congrArg Base.core (State.docEdgeLow_base s)
@[simp] theorem State.docEdgeLow_sense (s : State) : (s.docEdgeLow).sense = s.sense := congrArg Base.sense (State.docEdgeLow_base s)
@[simp] theorem State.docEdgeLow_lines (s : State) : (s.docEdgeLow).lines = s.lines := congrArg Base.lines (State.docEdgeLow_base s)

@[simp] theorem State.beginScan_base (s : State) (p : ScanParams) (edge : Bool) : (s.beginScan p edge).base = s.base := by
  unfold State.beginScan; dsimp only; repeat' split
  all_goals simp

@[simp] theorem State.beginScan_ground (s : State) (p : ScanParams) (edge : Bool) : (s.beginScan p edge).ground = s.ground := congrArg Base.ground (State.beginScan_base s p edge)
@[simp] theorem State.beginScan_clk (s : State) (p : ScanParams) (edge : Bool) : (s.beginScan p edge).clk = s.clk := congrArg Base.clk (State.beginScan_base s p edge)
@[simp] theorem State.beginScan_core (s : State) (p : ScanParams) (edge : Bool) : (s.beginScan p edge).pmc.core = s.pmc.core := congrArg Base.core (State.beginScan_base s p edge)
@[simp] theorem State.beginScan_sense (s : State) (p : ScanParams) (edge : Bool) : (s.beginScan p edge).sense = s.sense := congrArg Base.sense (State.beginScan_base s p edge)
@[simp] theorem State.beginScan_lines (s : State) (p : ScanParams) (edge : Bool) : (s.beginScan p edge).lines = s.lines := congrArg Base.lines (State.beginScan_base s p edge)

@[simp] theorem State.scanClaim_base (s : State) (i : BufId) (words : List Word) (black : Nat) : (s.scanClaim i words black).base = s.base := by
  unfold State.scanClaim; dsimp only; repeat' split
  all_goals simp

@[simp] theorem State.scanClaim_ground (s : State) (i : BufId) (words : List Word) (black : Nat) : (s.scanClaim i words black).ground = s.ground := congrArg Base.ground (State.scanClaim_base s i words black)
@[simp] theorem State.scanClaim_clk (s : State) (i : BufId) (words : List Word) (black : Nat) : (s.scanClaim i words black).clk = s.clk := congrArg Base.clk (State.scanClaim_base s i words black)
@[simp] theorem State.scanClaim_core (s : State) (i : BufId) (words : List Word) (black : Nat) : (s.scanClaim i words black).pmc.core = s.pmc.core := congrArg Base.core (State.scanClaim_base s i words black)
@[simp] theorem State.scanClaim_sense (s : State) (i : BufId) (words : List Word) (black : Nat) : (s.scanClaim i words black).sense = s.sense := congrArg Base.sense (State.scanClaim_base s i words black)
@[simp] theorem State.scanClaim_lines (s : State) (i : BufId) (words : List Word) (black : Nat) : (s.scanClaim i words black).lines = s.lines := congrArg Base.lines (State.scanClaim_base s i words black)

/-! ### Link -/

@[simp] theorem State.linkStream_base (s : State) : (s.linkStream).base = s.base := by simp [State.linkStream]

@[simp] theorem State.linkStream_ground (s : State) : (s.linkStream).ground = s.ground := congrArg Base.ground (State.linkStream_base s)
@[simp] theorem State.linkStream_clk (s : State) : (s.linkStream).clk = s.clk := congrArg Base.clk (State.linkStream_base s)
@[simp] theorem State.linkStream_core (s : State) : (s.linkStream).pmc.core = s.pmc.core := congrArg Base.core (State.linkStream_base s)
@[simp] theorem State.linkStream_sense (s : State) : (s.linkStream).sense = s.sense := congrArg Base.sense (State.linkStream_base s)
@[simp] theorem State.linkStream_lines (s : State) : (s.linkStream).lines = s.lines := congrArg Base.lines (State.linkStream_base s)

@[simp] theorem State.linkTryOff_base (s : State) : (s.linkTryOff).base = s.base := by
  unfold State.linkTryOff; dsimp only; repeat' split
  all_goals simp

@[simp] theorem State.linkTryOff_ground (s : State) : (s.linkTryOff).ground = s.ground := congrArg Base.ground (State.linkTryOff_base s)
@[simp] theorem State.linkTryOff_clk (s : State) : (s.linkTryOff).clk = s.clk := congrArg Base.clk (State.linkTryOff_base s)
@[simp] theorem State.linkTryOff_core (s : State) : (s.linkTryOff).pmc.core = s.pmc.core := congrArg Base.core (State.linkTryOff_base s)
@[simp] theorem State.linkTryOff_sense (s : State) : (s.linkTryOff).sense = s.sense := congrArg Base.sense (State.linkTryOff_base s)
@[simp] theorem State.linkTryOff_lines (s : State) : (s.linkTryOff).lines = s.lines := congrArg Base.lines (State.linkTryOff_base s)

@[simp] theorem State.linkDropReads_base (s : State) : (s.linkDropReads).base = s.base := rfl

@[simp] theorem State.linkDropReads_ground (s : State) : (s.linkDropReads).ground = s.ground := congrArg Base.ground (State.linkDropReads_base s)
@[simp] theorem State.linkDropReads_clk (s : State) : (s.linkDropReads).clk = s.clk := congrArg Base.clk (State.linkDropReads_base s)
@[simp] theorem State.linkDropReads_core (s : State) : (s.linkDropReads).pmc.core = s.pmc.core := congrArg Base.core (State.linkDropReads_base s)
@[simp] theorem State.linkDropReads_sense (s : State) : (s.linkDropReads).sense = s.sense := congrArg Base.sense (State.linkDropReads_base s)
@[simp] theorem State.linkDropReads_lines (s : State) : (s.linkDropReads).lines = s.lines := congrArg Base.lines (State.linkDropReads_base s)

@[simp] theorem State.linkDetachSource_base (s : State) : (s.linkDetachSource).base = s.base := rfl

@[simp] theorem State.linkDetachSource_ground (s : State) : (s.linkDetachSource).ground = s.ground := congrArg Base.ground (State.linkDetachSource_base s)
@[simp] theorem State.linkDetachSource_clk (s : State) : (s.linkDetachSource).clk = s.clk := congrArg Base.clk (State.linkDetachSource_base s)
@[simp] theorem State.linkDetachSource_core (s : State) : (s.linkDetachSource).pmc.core = s.pmc.core := congrArg Base.core (State.linkDetachSource_base s)
@[simp] theorem State.linkDetachSource_sense (s : State) : (s.linkDetachSource).sense = s.sense := congrArg Base.sense (State.linkDetachSource_base s)
@[simp] theorem State.linkDetachSource_lines (s : State) : (s.linkDetachSource).lines = s.lines := congrArg Base.lines (State.linkDetachSource_base s)

@[simp] theorem State.linkReadsAbandoned_base (s : State) : (s.linkReadsAbandoned).base = s.base := by
  unfold State.linkReadsAbandoned; split <;> simp

@[simp] theorem State.linkReadsAbandoned_ground (s : State) : (s.linkReadsAbandoned).ground = s.ground := congrArg Base.ground (State.linkReadsAbandoned_base s)
@[simp] theorem State.linkReadsAbandoned_clk (s : State) : (s.linkReadsAbandoned).clk = s.clk := congrArg Base.clk (State.linkReadsAbandoned_base s)
@[simp] theorem State.linkReadsAbandoned_core (s : State) : (s.linkReadsAbandoned).pmc.core = s.pmc.core := congrArg Base.core (State.linkReadsAbandoned_base s)
@[simp] theorem State.linkReadsAbandoned_sense (s : State) : (s.linkReadsAbandoned).sense = s.sense := congrArg Base.sense (State.linkReadsAbandoned_base s)
@[simp] theorem State.linkReadsAbandoned_lines (s : State) : (s.linkReadsAbandoned).lines = s.lines := congrArg Base.lines (State.linkReadsAbandoned_base s)

@[simp] theorem State.abandonClaims_base (s : State) (r : RingId) : (s.abandonClaims r).base = s.base := rfl

@[simp] theorem State.abandonClaims_ground (s : State) (r : RingId) : (s.abandonClaims r).ground = s.ground := congrArg Base.ground (State.abandonClaims_base s r)
@[simp] theorem State.abandonClaims_clk (s : State) (r : RingId) : (s.abandonClaims r).clk = s.clk := congrArg Base.clk (State.abandonClaims_base s r)
@[simp] theorem State.abandonClaims_core (s : State) (r : RingId) : (s.abandonClaims r).pmc.core = s.pmc.core := congrArg Base.core (State.abandonClaims_base s r)
@[simp] theorem State.abandonClaims_sense (s : State) (r : RingId) : (s.abandonClaims r).sense = s.sense := congrArg Base.sense (State.abandonClaims_base s r)
@[simp] theorem State.abandonClaims_lines (s : State) (r : RingId) : (s.abandonClaims r).lines = s.lines := congrArg Base.lines (State.abandonClaims_base s r)

@[simp] theorem State.linkEnd_base (s : State) (abort : Bool) : (s.linkEnd abort).base = s.base := by
  unfold State.linkEnd; dsimp only; repeat' split
  all_goals simp

@[simp] theorem State.linkEnd_ground (s : State) (abort : Bool) : (s.linkEnd abort).ground = s.ground := congrArg Base.ground (State.linkEnd_base s abort)
@[simp] theorem State.linkEnd_clk (s : State) (abort : Bool) : (s.linkEnd abort).clk = s.clk := congrArg Base.clk (State.linkEnd_base s abort)
@[simp] theorem State.linkEnd_core (s : State) (abort : Bool) : (s.linkEnd abort).pmc.core = s.pmc.core := congrArg Base.core (State.linkEnd_base s abort)
@[simp] theorem State.linkEnd_sense (s : State) (abort : Bool) : (s.linkEnd abort).sense = s.sense := congrArg Base.sense (State.linkEnd_base s abort)
@[simp] theorem State.linkEnd_lines (s : State) (abort : Bool) : (s.linkEnd abort).lines = s.lines := congrArg Base.lines (State.linkEnd_base s abort)

@[simp] theorem State.linkStopAll_base (s : State) : (s.linkStopAll).base = s.base := by
  unfold State.linkStopAll; split <;> simp

@[simp] theorem State.linkStopAll_ground (s : State) : (s.linkStopAll).ground = s.ground := congrArg Base.ground (State.linkStopAll_base s)
@[simp] theorem State.linkStopAll_clk (s : State) : (s.linkStopAll).clk = s.clk := congrArg Base.clk (State.linkStopAll_base s)
@[simp] theorem State.linkStopAll_core (s : State) : (s.linkStopAll).pmc.core = s.pmc.core := congrArg Base.core (State.linkStopAll_base s)
@[simp] theorem State.linkStopAll_sense (s : State) : (s.linkStopAll).sense = s.sense := congrArg Base.sense (State.linkStopAll_base s)
@[simp] theorem State.linkStopAll_lines (s : State) : (s.linkStopAll).lines = s.lines := congrArg Base.lines (State.linkStopAll_base s)

@[simp] theorem State.linkEmit_base (s : State) : (s.linkEmit).base = s.base := by
  unfold State.linkEmit; dsimp only; split <;> simp

@[simp] theorem State.linkEmit_ground (s : State) : (s.linkEmit).ground = s.ground := congrArg Base.ground (State.linkEmit_base s)
@[simp] theorem State.linkEmit_clk (s : State) : (s.linkEmit).clk = s.clk := congrArg Base.clk (State.linkEmit_base s)
@[simp] theorem State.linkEmit_core (s : State) : (s.linkEmit).pmc.core = s.pmc.core := congrArg Base.core (State.linkEmit_base s)
@[simp] theorem State.linkEmit_sense (s : State) : (s.linkEmit).sense = s.sense := congrArg Base.sense (State.linkEmit_base s)
@[simp] theorem State.linkEmit_lines (s : State) : (s.linkEmit).lines = s.lines := congrArg Base.lines (State.linkEmit_base s)

@[simp] theorem State.linkEmitOrWait_base (s : State) : (s.linkEmitOrWait).base = s.base := by
  unfold State.linkEmitOrWait; split <;> simp

@[simp] theorem State.linkEmitOrWait_ground (s : State) : (s.linkEmitOrWait).ground = s.ground := congrArg Base.ground (State.linkEmitOrWait_base s)
@[simp] theorem State.linkEmitOrWait_clk (s : State) : (s.linkEmitOrWait).clk = s.clk := congrArg Base.clk (State.linkEmitOrWait_base s)
@[simp] theorem State.linkEmitOrWait_core (s : State) : (s.linkEmitOrWait).pmc.core = s.pmc.core := congrArg Base.core (State.linkEmitOrWait_base s)
@[simp] theorem State.linkEmitOrWait_sense (s : State) : (s.linkEmitOrWait).sense = s.sense := congrArg Base.sense (State.linkEmitOrWait_base s)
@[simp] theorem State.linkEmitOrWait_lines (s : State) : (s.linkEmitOrWait).lines = s.lines := congrArg Base.lines (State.linkEmitOrWait_base s)

@[simp] theorem State.linkSlotAcknowledged_base (s : State) : (s.linkSlotAcknowledged).base = s.base := by
  unfold State.linkSlotAcknowledged; dsimp only; repeat' split
  all_goals simp

@[simp] theorem State.linkSlotAcknowledged_ground (s : State) : (s.linkSlotAcknowledged).ground = s.ground := congrArg Base.ground (State.linkSlotAcknowledged_base s)
@[simp] theorem State.linkSlotAcknowledged_clk (s : State) : (s.linkSlotAcknowledged).clk = s.clk := congrArg Base.clk (State.linkSlotAcknowledged_base s)
@[simp] theorem State.linkSlotAcknowledged_core (s : State) : (s.linkSlotAcknowledged).pmc.core = s.pmc.core := congrArg Base.core (State.linkSlotAcknowledged_base s)
@[simp] theorem State.linkSlotAcknowledged_sense (s : State) : (s.linkSlotAcknowledged).sense = s.sense := congrArg Base.sense (State.linkSlotAcknowledged_base s)
@[simp] theorem State.linkSlotAcknowledged_lines (s : State) : (s.linkSlotAcknowledged).lines = s.lines := congrArg Base.lines (State.linkSlotAcknowledged_base s)

@[simp] theorem State.linkPageEndComplete_base (s : State) : (s.linkPageEndComplete).base = s.base := by
  unfold State.linkPageEndComplete; repeat' split
  all_goals simp

@[simp] theorem State.linkPageEndComplete_ground (s : State) : (s.linkPageEndComplete).ground = s.ground := congrArg Base.ground (State.linkPageEndComplete_base s)
@[simp] theorem State.linkPageEndComplete_clk (s : State) : (s.linkPageEndComplete).clk = s.clk := congrArg Base.clk (State.linkPageEndComplete_base s)
@[simp] theorem State.linkPageEndComplete_core (s : State) : (s.linkPageEndComplete).pmc.core = s.pmc.core := congrArg Base.core (State.linkPageEndComplete_base s)
@[simp] theorem State.linkPageEndComplete_sense (s : State) : (s.linkPageEndComplete).sense = s.sense := congrArg Base.sense (State.linkPageEndComplete_base s)
@[simp] theorem State.linkPageEndComplete_lines (s : State) : (s.linkPageEndComplete).lines = s.lines := congrArg Base.lines (State.linkPageEndComplete_base s)

@[simp] theorem State.linkUnendedPage_base (s : State) (t : Tag) : (s.linkUnendedPage t).base = s.base := by
  unfold State.linkUnendedPage; dsimp only; repeat' split
  all_goals simp

@[simp] theorem State.linkUnendedPage_ground (s : State) (t : Tag) : (s.linkUnendedPage t).ground = s.ground := congrArg Base.ground (State.linkUnendedPage_base s t)
@[simp] theorem State.linkUnendedPage_clk (s : State) (t : Tag) : (s.linkUnendedPage t).clk = s.clk := congrArg Base.clk (State.linkUnendedPage_base s t)
@[simp] theorem State.linkUnendedPage_core (s : State) (t : Tag) : (s.linkUnendedPage t).pmc.core = s.pmc.core := congrArg Base.core (State.linkUnendedPage_base s t)
@[simp] theorem State.linkUnendedPage_sense (s : State) (t : Tag) : (s.linkUnendedPage t).sense = s.sense := congrArg Base.sense (State.linkUnendedPage_base s t)
@[simp] theorem State.linkUnendedPage_lines (s : State) (t : Tag) : (s.linkUnendedPage t).lines = s.lines := congrArg Base.lines (State.linkUnendedPage_base s t)

/-! ### Print -/

@[simp] theorem State.pagePrinted_base (s : State) (endMark : Bool) : (s.pagePrinted endMark).base = s.base := by simp [State.pagePrinted]

@[simp] theorem State.pagePrinted_ground (s : State) (endMark : Bool) : (s.pagePrinted endMark).ground = s.ground := congrArg Base.ground (State.pagePrinted_base s endMark)
@[simp] theorem State.pagePrinted_clk (s : State) (endMark : Bool) : (s.pagePrinted endMark).clk = s.clk := congrArg Base.clk (State.pagePrinted_base s endMark)
@[simp] theorem State.pagePrinted_core (s : State) (endMark : Bool) : (s.pagePrinted endMark).pmc.core = s.pmc.core := congrArg Base.core (State.pagePrinted_base s endMark)
@[simp] theorem State.pagePrinted_sense (s : State) (endMark : Bool) : (s.pagePrinted endMark).sense = s.sense := congrArg Base.sense (State.pagePrinted_base s endMark)
@[simp] theorem State.pagePrinted_lines (s : State) (endMark : Bool) : (s.pagePrinted endMark).lines = s.lines := congrArg Base.lines (State.pagePrinted_base s endMark)

@[simp] theorem State.printStream_base (s : State) : (s.printStream).base = s.base := by simp [State.printStream]

@[simp] theorem State.printStream_ground (s : State) : (s.printStream).ground = s.ground := congrArg Base.ground (State.printStream_base s)
@[simp] theorem State.printStream_clk (s : State) : (s.printStream).clk = s.clk := congrArg Base.clk (State.printStream_base s)
@[simp] theorem State.printStream_core (s : State) : (s.printStream).pmc.core = s.pmc.core := congrArg Base.core (State.printStream_base s)
@[simp] theorem State.printStream_sense (s : State) : (s.printStream).sense = s.sense := congrArg Base.sense (State.printStream_base s)
@[simp] theorem State.printStream_lines (s : State) : (s.printStream).lines = s.lines := congrArg Base.lines (State.printStream_base s)

@[simp] theorem State.finalStream_base (s : State) (r : PrintReason) : (s.finalStream r).base = s.base := by simp [State.finalStream]

@[simp] theorem State.finalStream_ground (s : State) (r : PrintReason) : (s.finalStream r).ground = s.ground := congrArg Base.ground (State.finalStream_base s r)
@[simp] theorem State.finalStream_clk (s : State) (r : PrintReason) : (s.finalStream r).clk = s.clk := congrArg Base.clk (State.finalStream_base s r)
@[simp] theorem State.finalStream_core (s : State) (r : PrintReason) : (s.finalStream r).pmc.core = s.pmc.core := congrArg Base.core (State.finalStream_base s r)
@[simp] theorem State.finalStream_sense (s : State) (r : PrintReason) : (s.finalStream r).sense = s.sense := congrArg Base.sense (State.finalStream_base s r)
@[simp] theorem State.finalStream_lines (s : State) (r : PrintReason) : (s.finalStream r).lines = s.lines := congrArg Base.lines (State.finalStream_base s r)

@[simp] theorem State.setUrgent_base (s : State) (on : Bool) : (s.setUrgent on).base = s.base := rfl

@[simp] theorem State.setUrgent_ground (s : State) (on : Bool) : (s.setUrgent on).ground = s.ground := congrArg Base.ground (State.setUrgent_base s on)
@[simp] theorem State.setUrgent_clk (s : State) (on : Bool) : (s.setUrgent on).clk = s.clk := congrArg Base.clk (State.setUrgent_base s on)
@[simp] theorem State.setUrgent_core (s : State) (on : Bool) : (s.setUrgent on).pmc.core = s.pmc.core := congrArg Base.core (State.setUrgent_base s on)
@[simp] theorem State.setUrgent_sense (s : State) (on : Bool) : (s.setUrgent on).sense = s.sense := congrArg Base.sense (State.setUrgent_base s on)
@[simp] theorem State.setUrgent_lines (s : State) (on : Bool) : (s.setUrgent on).lines = s.lines := congrArg Base.lines (State.setUrgent_base s on)

@[simp] theorem State.enterPrint_base (s : State) (st : PrintState) : (s.enterPrint st).base = s.base := by
  unfold State.enterPrint; split <;> simp

@[simp] theorem State.enterPrint_ground (s : State) (st : PrintState) : (s.enterPrint st).ground = s.ground := congrArg Base.ground (State.enterPrint_base s st)
@[simp] theorem State.enterPrint_clk (s : State) (st : PrintState) : (s.enterPrint st).clk = s.clk := congrArg Base.clk (State.enterPrint_base s st)
@[simp] theorem State.enterPrint_core (s : State) (st : PrintState) : (s.enterPrint st).pmc.core = s.pmc.core := congrArg Base.core (State.enterPrint_base s st)
@[simp] theorem State.enterPrint_sense (s : State) (st : PrintState) : (s.enterPrint st).sense = s.sense := congrArg Base.sense (State.enterPrint_base s st)
@[simp] theorem State.enterPrint_lines (s : State) (st : PrintState) : (s.enterPrint st).lines = s.lines := congrArg Base.lines (State.enterPrint_base s st)

@[simp] theorem State.enterPause_base (s : State) (r : PrintReason) : (s.enterPause r).base = s.base := by simp [State.enterPause]

@[simp] theorem State.enterPause_ground (s : State) (r : PrintReason) : (s.enterPause r).ground = s.ground := congrArg Base.ground (State.enterPause_base s r)
@[simp] theorem State.enterPause_clk (s : State) (r : PrintReason) : (s.enterPause r).clk = s.clk := congrArg Base.clk (State.enterPause_base s r)
@[simp] theorem State.enterPause_core (s : State) (r : PrintReason) : (s.enterPause r).pmc.core = s.pmc.core := congrArg Base.core (State.enterPause_base s r)
@[simp] theorem State.enterPause_sense (s : State) (r : PrintReason) : (s.enterPause r).sense = s.sense := congrArg Base.sense (State.enterPause_base s r)
@[simp] theorem State.enterPause_lines (s : State) (r : PrintReason) : (s.enterPause r).lines = s.lines := congrArg Base.lines (State.enterPause_base s r)

@[simp] theorem State.enterHot_base (s : State) : (s.enterHot).base = s.base := by simp [State.enterHot]

@[simp] theorem State.enterHot_ground (s : State) : (s.enterHot).ground = s.ground := congrArg Base.ground (State.enterHot_base s)
@[simp] theorem State.enterHot_clk (s : State) : (s.enterHot).clk = s.clk := congrArg Base.clk (State.enterHot_base s)
@[simp] theorem State.enterHot_core (s : State) : (s.enterHot).pmc.core = s.pmc.core := congrArg Base.core (State.enterHot_base s)
@[simp] theorem State.enterHot_sense (s : State) : (s.enterHot).sense = s.sense := congrArg Base.sense (State.enterHot_base s)
@[simp] theorem State.enterHot_lines (s : State) : (s.enterHot).lines = s.lines := congrArg Base.lines (State.enterHot_base s)

@[simp] theorem State.printWake_base (s : State) : (s.printWake).base = s.base := by
  unfold State.printWake; split <;> simp

@[simp] theorem State.printWake_ground (s : State) : (s.printWake).ground = s.ground := congrArg Base.ground (State.printWake_base s)
@[simp] theorem State.printWake_clk (s : State) : (s.printWake).clk = s.clk := congrArg Base.clk (State.printWake_base s)
@[simp] theorem State.printWake_core (s : State) : (s.printWake).pmc.core = s.pmc.core := congrArg Base.core (State.printWake_base s)
@[simp] theorem State.printWake_sense (s : State) : (s.printWake).sense = s.sense := congrArg Base.sense (State.printWake_base s)
@[simp] theorem State.printWake_lines (s : State) : (s.printWake).lines = s.lines := congrArg Base.lines (State.printWake_base s)

theorem State.takePending_base (s : State) (goOn : State → State) (h : ∀ s, (goOn s).base = s.base) :
    (s.takePending goOn).base = s.base := by
  unfold State.takePending; dsimp only; repeat' split
  all_goals simp [h]

@[simp] theorem State.printGoOn_base (s : State) (resumed : Bool) : (s.printGoOn resumed).base = s.base := by
  unfold State.printGoOn; dsimp only; repeat' split
  all_goals simp

@[simp] theorem State.printGoOn_ground (s : State) (resumed : Bool) : (s.printGoOn resumed).ground = s.ground := congrArg Base.ground (State.printGoOn_base s resumed)
@[simp] theorem State.printGoOn_clk (s : State) (resumed : Bool) : (s.printGoOn resumed).clk = s.clk := congrArg Base.clk (State.printGoOn_base s resumed)
@[simp] theorem State.printGoOn_core (s : State) (resumed : Bool) : (s.printGoOn resumed).pmc.core = s.pmc.core := congrArg Base.core (State.printGoOn_base s resumed)
@[simp] theorem State.printGoOn_sense (s : State) (resumed : Bool) : (s.printGoOn resumed).sense = s.sense := congrArg Base.sense (State.printGoOn_base s resumed)
@[simp] theorem State.printGoOn_lines (s : State) (resumed : Bool) : (s.printGoOn resumed).lines = s.lines := congrArg Base.lines (State.printGoOn_base s resumed)

@[simp] theorem State.feedEnd_base (s : State) : (s.feedEnd).base = s.base := by
  unfold State.feedEnd; dsimp only; split
  · simp
  · rw [State.takePending_base _ _ (by intro s; simp)]; simp

@[simp] theorem State.feedEnd_ground (s : State) : (s.feedEnd).ground = s.ground := congrArg Base.ground (State.feedEnd_base s)
@[simp] theorem State.feedEnd_clk (s : State) : (s.feedEnd).clk = s.clk := congrArg Base.clk (State.feedEnd_base s)
@[simp] theorem State.feedEnd_core (s : State) : (s.feedEnd).pmc.core = s.pmc.core := congrArg Base.core (State.feedEnd_base s)
@[simp] theorem State.feedEnd_sense (s : State) : (s.feedEnd).sense = s.sense := congrArg Base.sense (State.feedEnd_base s)
@[simp] theorem State.feedEnd_lines (s : State) : (s.feedEnd).lines = s.lines := congrArg Base.lines (State.feedEnd_base s)

@[simp] theorem State.paperMove_base (s : State) (steps : Nat) : (s.paperMove steps).base = s.base := rfl

@[simp] theorem State.paperMove_ground (s : State) (steps : Nat) : (s.paperMove steps).ground = s.ground := congrArg Base.ground (State.paperMove_base s steps)
@[simp] theorem State.paperMove_clk (s : State) (steps : Nat) : (s.paperMove steps).clk = s.clk := congrArg Base.clk (State.paperMove_base s steps)
@[simp] theorem State.paperMove_core (s : State) (steps : Nat) : (s.paperMove steps).pmc.core = s.pmc.core := congrArg Base.core (State.paperMove_base s steps)
@[simp] theorem State.paperMove_sense (s : State) (steps : Nat) : (s.paperMove steps).sense = s.sense := congrArg Base.sense (State.paperMove_base s steps)
@[simp] theorem State.paperMove_lines (s : State) (steps : Nat) : (s.paperMove steps).lines = s.lines := congrArg Base.lines (State.paperMove_base s steps)

@[simp] theorem State.pageEnds_base (s : State) : (s.pageEnds).base = s.base := by
  unfold State.pageEnds; dsimp only; repeat' split
  all_goals simp

@[simp] theorem State.pageEnds_ground (s : State) : (s.pageEnds).ground = s.ground := congrArg Base.ground (State.pageEnds_base s)
@[simp] theorem State.pageEnds_clk (s : State) : (s.pageEnds).clk = s.clk := congrArg Base.clk (State.pageEnds_base s)
@[simp] theorem State.pageEnds_core (s : State) : (s.pageEnds).pmc.core = s.pmc.core := congrArg Base.core (State.pageEnds_base s)
@[simp] theorem State.pageEnds_sense (s : State) : (s.pageEnds).sense = s.sense := congrArg Base.sense (State.pageEnds_base s)
@[simp] theorem State.pageEnds_lines (s : State) : (s.pageEnds).lines = s.lines := congrArg Base.lines (State.pageEnds_base s)

@[simp] theorem State.itemFollow_base (s : State) (resumed : Bool) : (s.itemFollow resumed).base = s.base := by
  unfold State.itemFollow; split
  · rfl
  · exact State.takePending_base _ _ (by intro s; simp)

@[simp] theorem State.itemFollow_ground (s : State) (resumed : Bool) : (s.itemFollow resumed).ground = s.ground := congrArg Base.ground (State.itemFollow_base s resumed)
@[simp] theorem State.itemFollow_clk (s : State) (resumed : Bool) : (s.itemFollow resumed).clk = s.clk := congrArg Base.clk (State.itemFollow_base s resumed)
@[simp] theorem State.itemFollow_core (s : State) (resumed : Bool) : (s.itemFollow resumed).pmc.core = s.pmc.core := congrArg Base.core (State.itemFollow_base s resumed)
@[simp] theorem State.itemFollow_sense (s : State) (resumed : Bool) : (s.itemFollow resumed).sense = s.sense := congrArg Base.sense (State.itemFollow_base s resumed)
@[simp] theorem State.itemFollow_lines (s : State) (resumed : Bool) : (s.itemFollow resumed).lines = s.lines := congrArg Base.lines (State.itemFollow_base s resumed)

@[simp] theorem State.lineDone_base (s : State) (h : HeadLine) (resumed : Bool) : (s.lineDone h resumed).base = s.base := by
  unfold State.lineDone; split <;> simp

@[simp] theorem State.lineDone_ground (s : State) (h : HeadLine) (resumed : Bool) : (s.lineDone h resumed).ground = s.ground := congrArg Base.ground (State.lineDone_base s h resumed)
@[simp] theorem State.lineDone_clk (s : State) (h : HeadLine) (resumed : Bool) : (s.lineDone h resumed).clk = s.clk := congrArg Base.clk (State.lineDone_base s h resumed)
@[simp] theorem State.lineDone_core (s : State) (h : HeadLine) (resumed : Bool) : (s.lineDone h resumed).pmc.core = s.pmc.core := congrArg Base.core (State.lineDone_base s h resumed)
@[simp] theorem State.lineDone_sense (s : State) (h : HeadLine) (resumed : Bool) : (s.lineDone h resumed).sense = s.sense := congrArg Base.sense (State.lineDone_base s h resumed)
@[simp] theorem State.lineDone_lines (s : State) (h : HeadLine) (resumed : Bool) : (s.lineDone h resumed).lines = s.lines := congrArg Base.lines (State.lineDone_base s h resumed)

@[simp] theorem State.slewEnd_base (s : State) (w : Slew) (n : Nat) (resumed : Bool) : (s.slewEnd w n resumed).base = s.base := by
  unfold State.slewEnd; split <;> simp

@[simp] theorem State.slewEnd_ground (s : State) (w : Slew) (n : Nat) (resumed : Bool) : (s.slewEnd w n resumed).ground = s.ground := congrArg Base.ground (State.slewEnd_base s w n resumed)
@[simp] theorem State.slewEnd_clk (s : State) (w : Slew) (n : Nat) (resumed : Bool) : (s.slewEnd w n resumed).clk = s.clk := congrArg Base.clk (State.slewEnd_base s w n resumed)
@[simp] theorem State.slewEnd_core (s : State) (w : Slew) (n : Nat) (resumed : Bool) : (s.slewEnd w n resumed).pmc.core = s.pmc.core := congrArg Base.core (State.slewEnd_base s w n resumed)
@[simp] theorem State.slewEnd_sense (s : State) (w : Slew) (n : Nat) (resumed : Bool) : (s.slewEnd w n resumed).sense = s.sense := congrArg Base.sense (State.slewEnd_base s w n resumed)
@[simp] theorem State.slewEnd_lines (s : State) (w : Slew) (n : Nat) (resumed : Bool) : (s.slewEnd w n resumed).lines = s.lines := congrArg Base.lines (State.slewEnd_base s w n resumed)

@[simp] theorem State.completeItem_base (s : State) (item : Item) (resumed : Bool) : (s.completeItem item resumed).base = s.base := by
  unfold State.completeItem; dsimp only; split <;> simp

@[simp] theorem State.completeItem_ground (s : State) (item : Item) (resumed : Bool) : (s.completeItem item resumed).ground = s.ground := congrArg Base.ground (State.completeItem_base s item resumed)
@[simp] theorem State.completeItem_clk (s : State) (item : Item) (resumed : Bool) : (s.completeItem item resumed).clk = s.clk := congrArg Base.clk (State.completeItem_base s item resumed)
@[simp] theorem State.completeItem_core (s : State) (item : Item) (resumed : Bool) : (s.completeItem item resumed).pmc.core = s.pmc.core := congrArg Base.core (State.completeItem_base s item resumed)
@[simp] theorem State.completeItem_sense (s : State) (item : Item) (resumed : Bool) : (s.completeItem item resumed).sense = s.sense := congrArg Base.sense (State.completeItem_base s item resumed)
@[simp] theorem State.completeItem_lines (s : State) (item : Item) (resumed : Bool) : (s.completeItem item resumed).lines = s.lines := congrArg Base.lines (State.completeItem_base s item resumed)

@[simp] theorem State.beginOwed_base (s : State) (item : Item) : (s.beginOwed item).base = s.base := by
  unfold State.beginOwed; dsimp only; split <;> simp

@[simp] theorem State.beginOwed_ground (s : State) (item : Item) : (s.beginOwed item).ground = s.ground := congrArg Base.ground (State.beginOwed_base s item)
@[simp] theorem State.beginOwed_clk (s : State) (item : Item) : (s.beginOwed item).clk = s.clk := congrArg Base.clk (State.beginOwed_base s item)
@[simp] theorem State.beginOwed_core (s : State) (item : Item) : (s.beginOwed item).pmc.core = s.pmc.core := congrArg Base.core (State.beginOwed_base s item)
@[simp] theorem State.beginOwed_sense (s : State) (item : Item) : (s.beginOwed item).sense = s.sense := congrArg Base.sense (State.beginOwed_base s item)
@[simp] theorem State.beginOwed_lines (s : State) (item : Item) : (s.beginOwed item).lines = s.lines := congrArg Base.lines (State.beginOwed_base s item)

@[simp] theorem State.endItem_base (s : State) (item : Item) (notTaken : Nat) : (s.endItem item notTaken).base = s.base := by
  unfold State.endItem; dsimp only; split <;> simp

@[simp] theorem State.endItem_ground (s : State) (item : Item) (notTaken : Nat) : (s.endItem item notTaken).ground = s.ground := congrArg Base.ground (State.endItem_base s item notTaken)
@[simp] theorem State.endItem_clk (s : State) (item : Item) (notTaken : Nat) : (s.endItem item notTaken).clk = s.clk := congrArg Base.clk (State.endItem_base s item notTaken)
@[simp] theorem State.endItem_core (s : State) (item : Item) (notTaken : Nat) : (s.endItem item notTaken).pmc.core = s.pmc.core := congrArg Base.core (State.endItem_base s item notTaken)
@[simp] theorem State.endItem_sense (s : State) (item : Item) (notTaken : Nat) : (s.endItem item notTaken).sense = s.sense := congrArg Base.sense (State.endItem_base s item notTaken)
@[simp] theorem State.endItem_lines (s : State) (item : Item) (notTaken : Nat) : (s.endItem item notTaken).lines = s.lines := congrArg Base.lines (State.endItem_base s item notTaken)

@[simp] theorem State.endingMoveEnd_base (s : State) (item : Item) (notTaken : Nat) : (s.endingMoveEnd item notTaken).base = s.base := by
  unfold State.endingMoveEnd; dsimp only; repeat' split
  all_goals simp

@[simp] theorem State.endingMoveEnd_ground (s : State) (item : Item) (notTaken : Nat) : (s.endingMoveEnd item notTaken).ground = s.ground := congrArg Base.ground (State.endingMoveEnd_base s item notTaken)
@[simp] theorem State.endingMoveEnd_clk (s : State) (item : Item) (notTaken : Nat) : (s.endingMoveEnd item notTaken).clk = s.clk := congrArg Base.clk (State.endingMoveEnd_base s item notTaken)
@[simp] theorem State.endingMoveEnd_core (s : State) (item : Item) (notTaken : Nat) : (s.endingMoveEnd item notTaken).pmc.core = s.pmc.core := congrArg Base.core (State.endingMoveEnd_base s item notTaken)
@[simp] theorem State.endingMoveEnd_sense (s : State) (item : Item) (notTaken : Nat) : (s.endingMoveEnd item notTaken).sense = s.sense := congrArg Base.sense (State.endingMoveEnd_base s item notTaken)
@[simp] theorem State.endingMoveEnd_lines (s : State) (item : Item) (notTaken : Nat) : (s.endingMoveEnd item notTaken).lines = s.lines := congrArg Base.lines (State.endingMoveEnd_base s item notTaken)

@[simp] theorem State.printMoveEnd_base (s : State) : (s.printMoveEnd).base = s.base := by
  unfold State.printMoveEnd; dsimp only; repeat' split
  all_goals simp

@[simp] theorem State.printMoveEnd_ground (s : State) : (s.printMoveEnd).ground = s.ground := congrArg Base.ground (State.printMoveEnd_base s)
@[simp] theorem State.printMoveEnd_clk (s : State) : (s.printMoveEnd).clk = s.clk := congrArg Base.clk (State.printMoveEnd_base s)
@[simp] theorem State.printMoveEnd_core (s : State) : (s.printMoveEnd).pmc.core = s.pmc.core := congrArg Base.core (State.printMoveEnd_base s)
@[simp] theorem State.printMoveEnd_sense (s : State) : (s.printMoveEnd).sense = s.sense := congrArg Base.sense (State.printMoveEnd_base s)
@[simp] theorem State.printMoveEnd_lines (s : State) : (s.printMoveEnd).lines = s.lines := congrArg Base.lines (State.printMoveEnd_base s)

@[simp] theorem State.beginPrint_base (s : State) (p : PrintParams) : (s.beginPrint p).base = s.base := rfl

@[simp] theorem State.beginPrint_ground (s : State) (p : PrintParams) : (s.beginPrint p).ground = s.ground := congrArg Base.ground (State.beginPrint_base s p)
@[simp] theorem State.beginPrint_clk (s : State) (p : PrintParams) : (s.beginPrint p).clk = s.clk := congrArg Base.clk (State.beginPrint_base s p)
@[simp] theorem State.beginPrint_core (s : State) (p : PrintParams) : (s.beginPrint p).pmc.core = s.pmc.core := congrArg Base.core (State.beginPrint_base s p)
@[simp] theorem State.beginPrint_sense (s : State) (p : PrintParams) : (s.beginPrint p).sense = s.sense := congrArg Base.sense (State.beginPrint_base s p)
@[simp] theorem State.beginPrint_lines (s : State) (p : PrintParams) : (s.beginPrint p).lines = s.lines := congrArg Base.lines (State.beginPrint_base s p)

@[simp] theorem State.stopPrint_base (s : State) : (s.stopPrint).base = s.base := by
  unfold State.stopPrint; dsimp only; repeat' split
  all_goals simp

@[simp] theorem State.stopPrint_ground (s : State) : (s.stopPrint).ground = s.ground := congrArg Base.ground (State.stopPrint_base s)
@[simp] theorem State.stopPrint_clk (s : State) : (s.stopPrint).clk = s.clk := congrArg Base.clk (State.stopPrint_base s)
@[simp] theorem State.stopPrint_core (s : State) : (s.stopPrint).pmc.core = s.pmc.core := congrArg Base.core (State.stopPrint_base s)
@[simp] theorem State.stopPrint_sense (s : State) : (s.stopPrint).sense = s.sense := congrArg Base.sense (State.stopPrint_base s)
@[simp] theorem State.stopPrint_lines (s : State) : (s.stopPrint).lines = s.lines := congrArg Base.lines (State.stopPrint_base s)

@[simp] theorem State.printCut_base (s : State) (reason : PrintReason) : (s.printCut reason).base = s.base := by
  unfold State.printCut; dsimp only; split <;> simp

@[simp] theorem State.printCut_ground (s : State) (reason : PrintReason) : (s.printCut reason).ground = s.ground := congrArg Base.ground (State.printCut_base s reason)
@[simp] theorem State.printCut_clk (s : State) (reason : PrintReason) : (s.printCut reason).clk = s.clk := congrArg Base.clk (State.printCut_base s reason)
@[simp] theorem State.printCut_core (s : State) (reason : PrintReason) : (s.printCut reason).pmc.core = s.pmc.core := congrArg Base.core (State.printCut_base s reason)
@[simp] theorem State.printCut_sense (s : State) (reason : PrintReason) : (s.printCut reason).sense = s.sense := congrArg Base.sense (State.printCut_base s reason)
@[simp] theorem State.printCut_lines (s : State) (reason : PrintReason) : (s.printCut reason).lines = s.lines := congrArg Base.lines (State.printCut_base s reason)

@[simp] theorem State.fetchWordsOf_base (s : State) (d : RingDesc) (slot : Nat) (tag : Tag) : (s.fetchWordsOf d slot tag).base = s.base := rfl

@[simp] theorem State.fetchWordsOf_ground (s : State) (d : RingDesc) (slot : Nat) (tag : Tag) : (s.fetchWordsOf d slot tag).ground = s.ground := congrArg Base.ground (State.fetchWordsOf_base s d slot tag)
@[simp] theorem State.fetchWordsOf_clk (s : State) (d : RingDesc) (slot : Nat) (tag : Tag) : (s.fetchWordsOf d slot tag).clk = s.clk := congrArg Base.clk (State.fetchWordsOf_base s d slot tag)
@[simp] theorem State.fetchWordsOf_core (s : State) (d : RingDesc) (slot : Nat) (tag : Tag) : (s.fetchWordsOf d slot tag).pmc.core = s.pmc.core := congrArg Base.core (State.fetchWordsOf_base s d slot tag)
@[simp] theorem State.fetchWordsOf_sense (s : State) (d : RingDesc) (slot : Nat) (tag : Tag) : (s.fetchWordsOf d slot tag).sense = s.sense := congrArg Base.sense (State.fetchWordsOf_base s d slot tag)
@[simp] theorem State.fetchWordsOf_lines (s : State) (d : RingDesc) (slot : Nat) (tag : Tag) : (s.fetchWordsOf d slot tag).lines = s.lines := congrArg Base.lines (State.fetchWordsOf_base s d slot tag)

@[simp] theorem State.decideWindow_base (s : State) (d : RingDesc) (slot : Nat) (tags : List Tag) : (s.decideWindow d slot tags).base = s.base := by
  unfold State.decideWindow; dsimp only; split <;> simp

@[simp] theorem State.decideWindow_ground (s : State) (d : RingDesc) (slot : Nat) (tags : List Tag) : (s.decideWindow d slot tags).ground = s.ground := congrArg Base.ground (State.decideWindow_base s d slot tags)
@[simp] theorem State.decideWindow_clk (s : State) (d : RingDesc) (slot : Nat) (tags : List Tag) : (s.decideWindow d slot tags).clk = s.clk := congrArg Base.clk (State.decideWindow_base s d slot tags)
@[simp] theorem State.decideWindow_core (s : State) (d : RingDesc) (slot : Nat) (tags : List Tag) : (s.decideWindow d slot tags).pmc.core = s.pmc.core := congrArg Base.core (State.decideWindow_base s d slot tags)
@[simp] theorem State.decideWindow_sense (s : State) (d : RingDesc) (slot : Nat) (tags : List Tag) : (s.decideWindow d slot tags).sense = s.sense := congrArg Base.sense (State.decideWindow_base s d slot tags)
@[simp] theorem State.decideWindow_lines (s : State) (d : RingDesc) (slot : Nat) (tags : List Tag) : (s.decideWindow d slot tags).lines = s.lines := congrArg Base.lines (State.decideWindow_base s d slot tags)

@[simp] theorem State.issueWindow_base (s : State) (d : RingDesc) (slot n : Nat) :
    (s.issueWindow d slot n).base = s.base := by
  induction n generalizing s slot with
  | zero => rfl
  | succ n ih => simp [State.issueWindow, ih]

@[simp] theorem State.issueWindow_ground (s : State) (d : RingDesc) (slot : Nat) (n : Nat) : (s.issueWindow d slot n).ground = s.ground := congrArg Base.ground (State.issueWindow_base s d slot n)
@[simp] theorem State.issueWindow_clk (s : State) (d : RingDesc) (slot : Nat) (n : Nat) : (s.issueWindow d slot n).clk = s.clk := congrArg Base.clk (State.issueWindow_base s d slot n)
@[simp] theorem State.issueWindow_core (s : State) (d : RingDesc) (slot : Nat) (n : Nat) : (s.issueWindow d slot n).pmc.core = s.pmc.core := congrArg Base.core (State.issueWindow_base s d slot n)
@[simp] theorem State.issueWindow_sense (s : State) (d : RingDesc) (slot : Nat) (n : Nat) : (s.issueWindow d slot n).sense = s.sense := congrArg Base.sense (State.issueWindow_base s d slot n)
@[simp] theorem State.issueWindow_lines (s : State) (d : RingDesc) (slot : Nat) (n : Nat) : (s.issueWindow d slot n).lines = s.lines := congrArg Base.lines (State.issueWindow_base s d slot n)

@[simp] theorem State.requestAdvance_base (s : State) (h : HeadLine) : (s.requestAdvance h).base = s.base := rfl

@[simp] theorem State.requestAdvance_ground (s : State) (h : HeadLine) : (s.requestAdvance h).ground = s.ground := congrArg Base.ground (State.requestAdvance_base s h)
@[simp] theorem State.requestAdvance_clk (s : State) (h : HeadLine) : (s.requestAdvance h).clk = s.clk := congrArg Base.clk (State.requestAdvance_base s h)
@[simp] theorem State.requestAdvance_core (s : State) (h : HeadLine) : (s.requestAdvance h).pmc.core = s.pmc.core := congrArg Base.core (State.requestAdvance_base s h)
@[simp] theorem State.requestAdvance_sense (s : State) (h : HeadLine) : (s.requestAdvance h).sense = s.sense := congrArg Base.sense (State.requestAdvance_base s h)
@[simp] theorem State.requestAdvance_lines (s : State) (h : HeadLine) : (s.requestAdvance h).lines = s.lines := congrArg Base.lines (State.requestAdvance_base s h)

@[simp] theorem State.closeUnterminated_base (s : State) (pageStart : Bool) : (s.closeUnterminated pageStart).base = s.base := by
  unfold State.closeUnterminated; split <;> simp

@[simp] theorem State.closeUnterminated_ground (s : State) (pageStart : Bool) : (s.closeUnterminated pageStart).ground = s.ground := congrArg Base.ground (State.closeUnterminated_base s pageStart)
@[simp] theorem State.closeUnterminated_clk (s : State) (pageStart : Bool) : (s.closeUnterminated pageStart).clk = s.clk := congrArg Base.clk (State.closeUnterminated_base s pageStart)
@[simp] theorem State.closeUnterminated_core (s : State) (pageStart : Bool) : (s.closeUnterminated pageStart).pmc.core = s.pmc.core := congrArg Base.core (State.closeUnterminated_base s pageStart)
@[simp] theorem State.closeUnterminated_sense (s : State) (pageStart : Bool) : (s.closeUnterminated pageStart).sense = s.sense := congrArg Base.sense (State.closeUnterminated_base s pageStart)
@[simp] theorem State.closeUnterminated_lines (s : State) (pageStart : Bool) : (s.closeUnterminated pageStart).lines = s.lines := congrArg Base.lines (State.closeUnterminated_base s pageStart)

@[simp] theorem State.latch_base (s : State) : (s.latch).base = s.base := by
  unfold State.latch; dsimp only; split <;> simp

@[simp] theorem State.latch_ground (s : State) : (s.latch).ground = s.ground := congrArg Base.ground (State.latch_base s)
@[simp] theorem State.latch_clk (s : State) : (s.latch).clk = s.clk := congrArg Base.clk (State.latch_base s)
@[simp] theorem State.latch_core (s : State) : (s.latch).pmc.core = s.pmc.core := congrArg Base.core (State.latch_base s)
@[simp] theorem State.latch_sense (s : State) : (s.latch).sense = s.sense := congrArg Base.sense (State.latch_base s)
@[simp] theorem State.latch_lines (s : State) : (s.latch).lines = s.lines := congrArg Base.lines (State.latch_base s)

@[simp] theorem State.afterPhase_base (s : State) (h : HeadLine) : (s.afterPhase h).base = s.base := by
  unfold State.afterPhase; dsimp only; repeat' split
  all_goals simp

@[simp] theorem State.afterPhase_ground (s : State) (h : HeadLine) : (s.afterPhase h).ground = s.ground := congrArg Base.ground (State.afterPhase_base s h)
@[simp] theorem State.afterPhase_clk (s : State) (h : HeadLine) : (s.afterPhase h).clk = s.clk := congrArg Base.clk (State.afterPhase_base s h)
@[simp] theorem State.afterPhase_core (s : State) (h : HeadLine) : (s.afterPhase h).pmc.core = s.pmc.core := congrArg Base.core (State.afterPhase_base s h)
@[simp] theorem State.afterPhase_sense (s : State) (h : HeadLine) : (s.afterPhase h).sense = s.sense := congrArg Base.sense (State.afterPhase_base s h)
@[simp] theorem State.afterPhase_lines (s : State) (h : HeadLine) : (s.afterPhase h).lines = s.lines := congrArg Base.lines (State.afterPhase_base s h)

@[simp] theorem State.printPaperLow_base (s : State) : (s.printPaperLow).base = s.base := by
  unfold State.printPaperLow; dsimp only; repeat' split
  all_goals simp

@[simp] theorem State.printPaperLow_ground (s : State) : (s.printPaperLow).ground = s.ground := congrArg Base.ground (State.printPaperLow_base s)
@[simp] theorem State.printPaperLow_clk (s : State) : (s.printPaperLow).clk = s.clk := congrArg Base.clk (State.printPaperLow_base s)
@[simp] theorem State.printPaperLow_core (s : State) : (s.printPaperLow).pmc.core = s.pmc.core := congrArg Base.core (State.printPaperLow_base s)
@[simp] theorem State.printPaperLow_sense (s : State) : (s.printPaperLow).sense = s.sense := congrArg Base.sense (State.printPaperLow_base s)
@[simp] theorem State.printPaperLow_lines (s : State) : (s.printPaperLow).lines = s.lines := congrArg Base.lines (State.printPaperLow_base s)

@[simp] theorem State.printHeadHot_base (s : State) : (s.printHeadHot).base = s.base := by
  unfold State.printHeadHot; dsimp only; repeat' split
  all_goals simp

@[simp] theorem State.printHeadHot_ground (s : State) : (s.printHeadHot).ground = s.ground := congrArg Base.ground (State.printHeadHot_base s)
@[simp] theorem State.printHeadHot_clk (s : State) : (s.printHeadHot).clk = s.clk := congrArg Base.clk (State.printHeadHot_base s)
@[simp] theorem State.printHeadHot_core (s : State) : (s.printHeadHot).pmc.core = s.pmc.core := congrArg Base.core (State.printHeadHot_base s)
@[simp] theorem State.printHeadHot_sense (s : State) : (s.printHeadHot).sense = s.sense := congrArg Base.sense (State.printHeadHot_base s)
@[simp] theorem State.printHeadHot_lines (s : State) : (s.printHeadHot).lines = s.lines := congrArg Base.lines (State.printHeadHot_base s)

@[simp] theorem State.printHeadCool_base (s : State) : (s.printHeadCool).base = s.base := by
  unfold State.printHeadCool; dsimp only; split <;> simp

@[simp] theorem State.printHeadCool_ground (s : State) : (s.printHeadCool).ground = s.ground := congrArg Base.ground (State.printHeadCool_base s)
@[simp] theorem State.printHeadCool_clk (s : State) : (s.printHeadCool).clk = s.clk := congrArg Base.clk (State.printHeadCool_base s)
@[simp] theorem State.printHeadCool_core (s : State) : (s.printHeadCool).pmc.core = s.pmc.core := congrArg Base.core (State.printHeadCool_base s)
@[simp] theorem State.printHeadCool_sense (s : State) : (s.printHeadCool).sense = s.sense := congrArg Base.sense (State.printHeadCool_base s)
@[simp] theorem State.printHeadCool_lines (s : State) : (s.printHeadCool).lines = s.lines := congrArg Base.lines (State.printHeadCool_base s)

@[simp] theorem State.printCoverHigh_base (s : State) : (s.printCoverHigh).base = s.base := by
  unfold State.printCoverHigh; dsimp only; repeat' split
  all_goals simp

@[simp] theorem State.printCoverHigh_ground (s : State) : (s.printCoverHigh).ground = s.ground := congrArg Base.ground (State.printCoverHigh_base s)
@[simp] theorem State.printCoverHigh_clk (s : State) : (s.printCoverHigh).clk = s.clk := congrArg Base.clk (State.printCoverHigh_base s)
@[simp] theorem State.printCoverHigh_core (s : State) : (s.printCoverHigh).pmc.core = s.pmc.core := congrArg Base.core (State.printCoverHigh_base s)
@[simp] theorem State.printCoverHigh_sense (s : State) : (s.printCoverHigh).sense = s.sense := congrArg Base.sense (State.printCoverHigh_base s)
@[simp] theorem State.printCoverHigh_lines (s : State) : (s.printCoverHigh).lines = s.lines := congrArg Base.lines (State.printCoverHigh_base s)

@[simp] theorem State.pausePrint_base (s : State) : (s.pausePrint).base = s.base := by
  unfold State.pausePrint; dsimp only; repeat' split
  all_goals simp

@[simp] theorem State.pausePrint_ground (s : State) : (s.pausePrint).ground = s.ground := congrArg Base.ground (State.pausePrint_base s)
@[simp] theorem State.pausePrint_clk (s : State) : (s.pausePrint).clk = s.clk := congrArg Base.clk (State.pausePrint_base s)
@[simp] theorem State.pausePrint_core (s : State) : (s.pausePrint).pmc.core = s.pmc.core := congrArg Base.core (State.pausePrint_base s)
@[simp] theorem State.pausePrint_sense (s : State) : (s.pausePrint).sense = s.sense := congrArg Base.sense (State.pausePrint_base s)
@[simp] theorem State.pausePrint_lines (s : State) : (s.pausePrint).lines = s.lines := congrArg Base.lines (State.pausePrint_base s)

@[simp] theorem State.resumePrint_base (s : State) : (s.resumePrint).base = s.base := by
  unfold State.resumePrint; dsimp only; repeat' split
  all_goals simp

@[simp] theorem State.resumePrint_ground (s : State) : (s.resumePrint).ground = s.ground := congrArg Base.ground (State.resumePrint_base s)
@[simp] theorem State.resumePrint_clk (s : State) : (s.resumePrint).clk = s.clk := congrArg Base.clk (State.resumePrint_base s)
@[simp] theorem State.resumePrint_core (s : State) : (s.resumePrint).pmc.core = s.pmc.core := congrArg Base.core (State.resumePrint_base s)
@[simp] theorem State.resumePrint_sense (s : State) : (s.resumePrint).sense = s.sense := congrArg Base.sense (State.resumePrint_base s)
@[simp] theorem State.resumePrint_lines (s : State) : (s.resumePrint).lines = s.lines := congrArg Base.lines (State.resumePrint_base s)

/-! ### Reports -/

@[simp] theorem State.scanMoveEnd_base (s : State) : (s.scanMoveEnd).base = s.base := by simp [State.scanMoveEnd]

@[simp] theorem State.scanMoveEnd_ground (s : State) : (s.scanMoveEnd).ground = s.ground := congrArg Base.ground (State.scanMoveEnd_base s)
@[simp] theorem State.scanMoveEnd_clk (s : State) : (s.scanMoveEnd).clk = s.clk := congrArg Base.clk (State.scanMoveEnd_base s)
@[simp] theorem State.scanMoveEnd_core (s : State) : (s.scanMoveEnd).pmc.core = s.pmc.core := congrArg Base.core (State.scanMoveEnd_base s)
@[simp] theorem State.scanMoveEnd_sense (s : State) : (s.scanMoveEnd).sense = s.sense := congrArg Base.sense (State.scanMoveEnd_base s)
@[simp] theorem State.scanMoveEnd_lines (s : State) : (s.scanMoveEnd).lines = s.lines := congrArg Base.lines (State.scanMoveEnd_base s)

@[simp] theorem State.reportEnd_base (s : State) (ch : Chan) (cause : EndCause) : (s.reportEnd ch cause).base = s.base := by
  unfold State.reportEnd; split <;> simp

@[simp] theorem State.reportEnd_ground (s : State) (ch : Chan) (cause : EndCause) : (s.reportEnd ch cause).ground = s.ground := congrArg Base.ground (State.reportEnd_base s ch cause)
@[simp] theorem State.reportEnd_clk (s : State) (ch : Chan) (cause : EndCause) : (s.reportEnd ch cause).clk = s.clk := congrArg Base.clk (State.reportEnd_base s ch cause)
@[simp] theorem State.reportEnd_core (s : State) (ch : Chan) (cause : EndCause) : (s.reportEnd ch cause).pmc.core = s.pmc.core := congrArg Base.core (State.reportEnd_base s ch cause)
@[simp] theorem State.reportEnd_sense (s : State) (ch : Chan) (cause : EndCause) : (s.reportEnd ch cause).sense = s.sense := congrArg Base.sense (State.reportEnd_base s ch cause)
@[simp] theorem State.reportEnd_lines (s : State) (ch : Chan) (cause : EndCause) : (s.reportEnd ch cause).lines = s.lines := congrArg Base.lines (State.reportEnd_base s ch cause)

@[simp] theorem State.reportStep_base (s : State) (ch : Chan) : (s.reportStep ch).base = s.base := by
  unfold State.reportStep; split <;> simp

@[simp] theorem State.reportStep_ground (s : State) (ch : Chan) : (s.reportStep ch).ground = s.ground := congrArg Base.ground (State.reportStep_base s ch)
@[simp] theorem State.reportStep_clk (s : State) (ch : Chan) : (s.reportStep ch).clk = s.clk := congrArg Base.clk (State.reportStep_base s ch)
@[simp] theorem State.reportStep_core (s : State) (ch : Chan) : (s.reportStep ch).pmc.core = s.pmc.core := congrArg Base.core (State.reportStep_base s ch)
@[simp] theorem State.reportStep_sense (s : State) (ch : Chan) : (s.reportStep ch).sense = s.sense := congrArg Base.sense (State.reportStep_base s ch)
@[simp] theorem State.reportStep_lines (s : State) (ch : Chan) : (s.reportStep ch).lines = s.lines := congrArg Base.lines (State.reportStep_base s ch)

@[simp] theorem State.emergencyHold_base (s : State) : s.emergencyHold.base = s.base := rfl

@[simp] theorem State.emergencyReport_base (s : State) (doc paper : Bool) (cause : EndCause) :
    (s.emergencyReport doc paper cause).base = s.base := by
  unfold State.emergencyReport; dsimp only; repeat' split
  all_goals simp

@[simp] theorem State.emergencyStop_base (s : State) (a : ScanReason) (b : PrintReason) (cause : EndCause) : (s.emergencyStop a b cause).base = s.base := by
  simp [State.emergencyStop]

@[simp] theorem State.emergencyStop_ground (s : State) (a : ScanReason) (b : PrintReason) (cause : EndCause) : (s.emergencyStop a b cause).ground = s.ground := congrArg Base.ground (State.emergencyStop_base s a b cause)
@[simp] theorem State.emergencyStop_clk (s : State) (a : ScanReason) (b : PrintReason) (cause : EndCause) : (s.emergencyStop a b cause).clk = s.clk := congrArg Base.clk (State.emergencyStop_base s a b cause)
@[simp] theorem State.emergencyStop_core (s : State) (a : ScanReason) (b : PrintReason) (cause : EndCause) : (s.emergencyStop a b cause).pmc.core = s.pmc.core := congrArg Base.core (State.emergencyStop_base s a b cause)
@[simp] theorem State.emergencyStop_sense (s : State) (a : ScanReason) (b : PrintReason) (cause : EndCause) : (s.emergencyStop a b cause).sense = s.sense := congrArg Base.sense (State.emergencyStop_base s a b cause)
@[simp] theorem State.emergencyStop_lines (s : State) (a : ScanReason) (b : PrintReason) (cause : EndCause) : (s.emergencyStop a b cause).lines = s.lines := congrArg Base.lines (State.emergencyStop_base s a b cause)

/-! ### RingEvents -/

@[simp] theorem State.pageEndComplete_base (s : State) (d : RingDesc) : (s.pageEndComplete d).base = s.base := by
  unfold State.pageEndComplete; split <;> simp

@[simp] theorem State.pageEndComplete_ground (s : State) (d : RingDesc) : (s.pageEndComplete d).ground = s.ground := congrArg Base.ground (State.pageEndComplete_base s d)
@[simp] theorem State.pageEndComplete_clk (s : State) (d : RingDesc) : (s.pageEndComplete d).clk = s.clk := congrArg Base.clk (State.pageEndComplete_base s d)
@[simp] theorem State.pageEndComplete_core (s : State) (d : RingDesc) : (s.pageEndComplete d).pmc.core = s.pmc.core := congrArg Base.core (State.pageEndComplete_base s d)
@[simp] theorem State.pageEndComplete_sense (s : State) (d : RingDesc) : (s.pageEndComplete d).sense = s.sense := congrArg Base.sense (State.pageEndComplete_base s d)
@[simp] theorem State.pageEndComplete_lines (s : State) (d : RingDesc) : (s.pageEndComplete d).lines = s.lines := congrArg Base.lines (State.pageEndComplete_base s d)

@[simp] theorem State.slotAcknowledged_base (s : State) (d : RingDesc) (c : Claim) : (s.slotAcknowledged d c).base = s.base := by
  unfold State.slotAcknowledged; (repeat' split) <;> simp

@[simp] theorem State.slotAcknowledged_ground (s : State) (d : RingDesc) (c : Claim) : (s.slotAcknowledged d c).ground = s.ground := congrArg Base.ground (State.slotAcknowledged_base s d c)
@[simp] theorem State.slotAcknowledged_clk (s : State) (d : RingDesc) (c : Claim) : (s.slotAcknowledged d c).clk = s.clk := congrArg Base.clk (State.slotAcknowledged_base s d c)
@[simp] theorem State.slotAcknowledged_core (s : State) (d : RingDesc) (c : Claim) : (s.slotAcknowledged d c).pmc.core = s.pmc.core := congrArg Base.core (State.slotAcknowledged_base s d c)
@[simp] theorem State.slotAcknowledged_sense (s : State) (d : RingDesc) (c : Claim) : (s.slotAcknowledged d c).sense = s.sense := congrArg Base.sense (State.slotAcknowledged_base s d c)
@[simp] theorem State.slotAcknowledged_lines (s : State) (d : RingDesc) (c : Claim) : (s.slotAcknowledged d c).lines = s.lines := congrArg Base.lines (State.slotAcknowledged_base s d c)

@[simp] theorem State.waitingPageEnd_base (s : State) (r : RingId) (d : RingDesc) : (s.waitingPageEnd r d).base = s.base := by
  unfold State.waitingPageEnd; dsimp only; repeat' split
  all_goals simp

@[simp] theorem State.waitingPageEnd_ground (s : State) (r : RingId) (d : RingDesc) : (s.waitingPageEnd r d).ground = s.ground := congrArg Base.ground (State.waitingPageEnd_base s r d)
@[simp] theorem State.waitingPageEnd_clk (s : State) (r : RingId) (d : RingDesc) : (s.waitingPageEnd r d).clk = s.clk := congrArg Base.clk (State.waitingPageEnd_base s r d)
@[simp] theorem State.waitingPageEnd_core (s : State) (r : RingId) (d : RingDesc) : (s.waitingPageEnd r d).pmc.core = s.pmc.core := congrArg Base.core (State.waitingPageEnd_base s r d)
@[simp] theorem State.waitingPageEnd_sense (s : State) (r : RingId) (d : RingDesc) : (s.waitingPageEnd r d).sense = s.sense := congrArg Base.sense (State.waitingPageEnd_base s r d)
@[simp] theorem State.waitingPageEnd_lines (s : State) (r : RingId) (d : RingDesc) : (s.waitingPageEnd r d).lines = s.lines := congrArg Base.lines (State.waitingPageEnd_base s r d)

end Sys2Proof.Machine
end

