-- ==== Sys2Proof/Laws/Memory.lean ====
section
/-! SUPPORT. Page memory: every memory operation keeps the canonical form; what a store does to every byte. -/

namespace Sys2Proof.Machine

open Sys2Proof

/-- The canonical form as its two parts: no byte 0 listed, and every later address above the first. -/
theorem memoryWf_cons (a : Nat) (v : Byte) (rest : List Host.Cell) :
    memoryWf ((a, v) :: rest) = true ↔ v ≠ unlistedByte ∧ (∀ c ∈ rest, a < c.1) ∧ memoryWf rest = true := by
  induction rest generalizing a v with
  | nil => simp [memoryWf]
  | cons c rest ih =>
    obtain ⟨b, w⟩ := c
    have hb := ih b w
    simp only [memoryWf, Bool.and_eq_true, bne_iff_ne, decide_eq_true_eq, List.mem_cons, forall_eq_or_imp]
    constructor
    · rintro ⟨⟨hv, hab⟩, hr⟩
      exact ⟨hv, ⟨hab, fun c hc => Nat.lt_trans hab ((hb.mp hr).2.1 c hc)⟩, hr⟩
    · rintro ⟨hv, ⟨hab, -⟩, hr⟩
      exact ⟨⟨hv, hab⟩, hr⟩

/-- An address below every listed one reads as unlisted. -/
theorem readByte_unlisted (m : List Host.Cell) (a : Nat) (h : ∀ c ∈ m, a < c.1) : readByte m a = unlistedByte := by
  induction m with
  | nil => rfl
  | cons c rest ih =>
    obtain ⟨b, w⟩ := c
    have hb : a < b := h (b, w) (by simp)
    simp only [readByte, Nat.ne_of_lt hb, if_false]
    exact ih fun c hc => h c (by simp [hc])

/-- A store lists no address but its own beside those listed. -/
theorem mem_writeByte {m : List Host.Cell} {a : Nat} {v : Byte} {c : Host.Cell} (h : c ∈ writeByte m a v) :
    c = (a, v) ∨ c ∈ m := by
  induction m with
  | nil =>
    simp only [writeByte] at h
    split at h
    · cases h
    · exact .inl (List.mem_singleton.mp h)
  | cons d rest ih =>
    obtain ⟨b, w⟩ := d
    simp only [writeByte] at h
    split at h
    · split at h
      · exact .inr h
      · exact (List.mem_cons.mp h)
    · split at h
      · split at h
        · exact .inr (List.mem_cons_of_mem _ h)
        · exact (List.mem_cons.mp h).imp id (List.mem_cons_of_mem _)
      · rcases List.mem_cons.mp h with h | h
        · exact .inr (h ▸ List.mem_cons_self)
        · exact (ih h).imp id (List.mem_cons_of_mem _)

/-- A store of one byte keeps the canonical form. -/
theorem writeByte_wf {m : List Host.Cell} (a : Nat) (v : Byte) (h : memoryWf m = true) :
    memoryWf (writeByte m a v) = true := by
  induction m with
  | nil =>
    simp only [writeByte]
    split <;> simp_all [memoryWf]
  | cons d rest ih =>
    obtain ⟨b, w⟩ := d
    obtain ⟨hw, hb, hr⟩ := (memoryWf_cons b w rest).mp h
    simp only [writeByte]
    split
    · rename_i hab
      split
      · exact h
      · refine (memoryWf_cons a v _).mpr ⟨‹_›, ?_, h⟩
        intro c hc
        rcases List.mem_cons.mp hc with rfl | hc
        · exact hab
        · exact Nat.lt_trans hab (hb c hc)
    · split
      · rename_i hab
        subst hab
        split
        · exact hr
        · exact (memoryWf_cons _ v _).mpr ⟨‹_›, hb, hr⟩
      · refine (memoryWf_cons b w _).mpr ⟨hw, ?_, ih hr⟩
        intro c hc
        rcases mem_writeByte hc with rfl | hc
        · show b < a
          omega
        · exact hb c hc

/-- A read after a store: the stored address gives the byte stored, every other address what it gave. -/
theorem readByte_writeByte {m : List Host.Cell} (a : Nat) (v : Byte) (b : Nat) (h : memoryWf m = true) :
    readByte (writeByte m a v) b = if b = a then v else readByte m b := by
  induction m with
  | nil =>
    simp only [writeByte]
    split <;> simp_all [readByte]
  | cons d rest ih =>
    obtain ⟨k, w⟩ := d
    obtain ⟨hw, hk, hr⟩ := (memoryWf_cons k w rest).mp h
    simp only [writeByte]
    split
    · rename_i hak
      split
      · rename_i hv
        split
        · rename_i hb
          subst hb
          rw [hv]
          exact readByte_unlisted _ _ fun c hc => by
            rcases List.mem_cons.mp hc with rfl | hc
            · exact hak
            · exact Nat.lt_trans hak (hk c hc)
        · rfl
      · rfl
    · split
      · rename_i hak
        subst hak
        split
        · rename_i hv
          by_cases hb : b = a
          · subst hb
            simp only [if_true, hv]
            exact readByte_unlisted _ _ hk
          · simp [readByte, hb]
        · by_cases hb : b = a <;> simp [readByte, hb]
      · by_cases hb : b = k
        · subst hb
          have : b ≠ a := by omega
          simp [readByte, this]
        · simp only [readByte, hb, if_false]
          exact ih hr

/-- A store of a halfword under byte enables keeps the canonical form. -/
theorem writeHalf_wf {m : List Host.Cell} (a : Nat) (d : Half) (low high : Bool) (h : memoryWf m = true) :
    memoryWf (writeHalf m a d low high) = true := by
  unfold writeHalf
  split <;> split <;> simp only [writeByte_wf, h]

/-- A store of halfwords keeps the canonical form. -/
theorem writeHalves_wf {m : List Host.Cell} (a : Nat) (low high : Bool) (ds : List Half) (h : memoryWf m = true) :
    memoryWf (writeHalves m a low high ds) = true := by
  induction ds generalizing m a with
  | nil => exact h
  | cons d ds ih => exact ih (a + 1) (writeHalf_wf a d low high h)

/-- The cut of a write burst keeps the canonical form, whatever the free bytes are. -/
theorem cutBytes_wf {m : List Host.Cell} (free a n : Nat) (h : memoryWf m = true) :
    memoryWf (cutBytes m free a n) = true := by
  induction n generalizing m a with
  | zero => exact h
  | succ n ih => exact ih (a + 1) (writeByte_wf a _ h)

/-- A store of a halfword leaves every byte outside it as it was. -/
theorem readByte_writeHalf_outside {m : List Host.Cell} (a : Nat) (d : Half) (low high : Bool) (b : Nat)
    (h : memoryWf m = true) (hb : b < 2 * a ∨ 2 * a + 2 ≤ b) : readByte (writeHalf m a d low high) b = readByte m b := by
  have h1 : b ≠ 2 * a := by omega
  have h2 : b ≠ 2 * a + 1 := by omega
  unfold writeHalf
  split <;> split <;> simp only [readByte_writeByte, writeByte_wf, h, h1, h2, if_false]

/-- A store of halfwords leaves every byte outside them as it was. -/
theorem readByte_writeHalves_outside {m : List Host.Cell} (a : Nat) (low high : Bool) (ds : List Half) (b : Nat)
    (h : memoryWf m = true) (hb : b < 2 * a ∨ 2 * (a + ds.length) ≤ b) :
    readByte (writeHalves m a low high ds) b = readByte m b := by
  induction ds generalizing m a with
  | nil => rfl
  | cons d ds ih =>
    simp only [List.length_cons] at hb
    rw [writeHalves, ih (a + 1) (writeHalf_wf a d low high h) (by omega)]
    exact readByte_writeHalf_outside a d low high b h (by omega)

/-- The machine's memory after reset has the canonical form. -/
theorem reset_memoryWf : memoryWf State.reset.mem = true := rfl

end Sys2Proof.Machine
end

