-- ==== Sys2Proof/Laws/Ops.lean ====
section
/-! SUPPORT. What the shared operations do: taking a command, an arrival or a delivery; offering bursts; handing a cell. -/

namespace Sys2Proof.Machine

open Sys2Proof

/-- Taking a command succeeds only for the oldest one handed, and takes it alone. -/
theorem claimCommand_some {s t : State} {i : Instr} (h : s.claimCommand i = some t) :
    ∃ rest, s.cells.handed = i :: rest ∧ t = s.setCells { s.cells with handed := rest } := by
  unfold State.claimCommand at h
  split at h
  · cases h
  · rename_i j rest hj
    split at h
    · rename_i hji
      subst hji
      exact ⟨rest, hj, (Option.some.inj h).symm⟩
    · cases h

/-- The command a state was given is taken, and the state is the one it was given to. -/
@[simp] theorem claimCommand_given (s : State) (i : Instr) : (s.given i).claimCommand i = some s := by
  simp [State.claimCommand, State.given, State.setCells]

/-- The arrival handed to a state is taken, and the state is the one it was handed to. -/
@[simp] theorem claimArrival_arrived (s : State) (offset : Nat) (value : Half) :
    (s.arrived offset value).claimArrival offset value = some s := by
  simp [State.claimArrival, State.arrived, State.setPmc]

/-- A requester whose transfer was just completed has a complete delivery. -/
@[simp] theorem delivered_hasDone (s : State) (q : Req) (data : List Half) : (s.delivered q data).pmc.hasDone q = true := by
  simp [State.delivered, Pmc.hasDone, State.setPmc]

/-- The one delivery just completed is what is taken. -/
@[simp] theorem delivered_takeOne (s : State) (q : Req) (data : List Half) : (s.delivered q data).takeOne q = s := by
  simp [State.delivered, State.takeOne, takeFirst, State.setPmc]

/-- With nothing else delivered, taking all takes the one delivery. -/
theorem delivered_takeAll (s : State) (q : Req) (data : List Half) (h : s.nothingFor q) :
    (s.delivered q data).takeAll q = s := by
  have hf : s.pmc.inbox.filter (fun d => d.req ≠ q) = s.pmc.inbox :=
    List.filter_eq_self.mpr fun d hd => by simpa using h d hd
  simp only [State.delivered, State.takeAll, State.setPmc, List.filter_cons, ne_eq, not_true_eq_false, decide_false,
    Bool.false_eq_true, if_false]
  simp only [ne_eq] at hf
  rw [hf]

/-- With nothing else delivered, the data is that of the one delivery. -/
theorem delivered_dataOf (s : State) (q : Req) (data : List Half) (h : s.nothingFor q) :
    (s.delivered q data).pmc.dataOf q = data := by
  have hf : s.pmc.inbox.filter (fun d => d.req = q && d.complete) = [] :=
    List.filter_eq_nil_iff.mpr fun d hd => by simp [h d hd]
  simp only [State.delivered, Pmc.dataOf, State.setPmc, List.filter_cons, decide_true, Bool.and_self, if_true,
    List.flatMap_cons, hf, List.flatMap_nil, List.append_nil]

/-! ### What a waiting burst holds (R120) -/

/-- A burst of a class waits exactly where one of those outside is of the class. -/
theorem burstWaits_iff (s : State) (c : MemClass) : s.burstWaits c = true ↔ ∃ b ∈ s.pmc.waiting, b.cls = c := by
  simp [State.burstWaits]

/-- A word of a class waits exactly where one of the bursts outside is of the class and a word. -/
theorem wordWaits_iff (s : State) (c : MemClass) :
    s.wordWaits c = true ↔ ∃ b ∈ s.pmc.waiting, b.cls = c ∧ (b.req = .word ∨ b.req = .respPut) := by
  simp [State.wordWaits]

/-- Where no burst of a class waits, none of its words does. -/
theorem wordWaits_of_burstWaits {s : State} {c : MemClass} (h : s.burstWaits c = false) : s.wordWaits c = false := by
  rw [← Bool.not_eq_true, burstWaits_iff] at h
  rw [← Bool.not_eq_true, wordWaits_iff]
  exact fun ⟨b, hb, hc, _⟩ => h ⟨b, hb, hc⟩

@[simp] theorem given_burstWaits (s : State) (i : Instr) (c : MemClass) : (s.given i).burstWaits c = s.burstWaits c := rfl
@[simp] theorem given_wordWaits (s : State) (i : Instr) (c : MemClass) : (s.given i).wordWaits c = s.wordWaits c := rfl
@[simp] theorem arrived_wordWaits (s : State) (offset : Nat) (value : Half) (c : MemClass) :
    (s.arrived offset value).wordWaits c = s.wordWaits c := rfl
@[simp] theorem delivered_burstWaits (s : State) (q : Req) (data : List Half) (c : MemClass) :
    (s.delivered q data).burstWaits c = s.burstWaits c := rfl
@[simp] theorem delivered_wordWaits (s : State) (q : Req) (data : List Half) (c : MemClass) :
    (s.delivered q data).wordWaits c = s.wordWaits c := rfl
@[simp] theorem setCells_wordWaits (s : State) (x : Cells) (c : MemClass) : (s.setCells x).wordWaits c = s.wordWaits c := rfl

/-- R120: an acknowledged response cell is left as it is while a word of the cell unit waits outside. -/
theorem responseCellAcknowledged_held {s : State} (h : s.wordWaits .cell = true) :
    execResponseCellAcknowledged s = .next s := by
  simp only [execResponseCellAcknowledged, h, Bool.true_eq_false, and_false, if_false]
  split <;> rfl

/-! ### Several deliveries -/

/-- One delivery is the case of a list of one. -/
theorem deliveredEach_singleton (s : State) (q : Req) (data : List Half) : s.deliveredEach q [data] = s.delivered q data := rfl

/-- With nothing else delivered, the data of several deliveries is theirs, oldest first. -/
theorem deliveredEach_dataOf (s : State) (q : Req) (data : List (List Half)) (h : s.nothingFor q) :
    (s.deliveredEach q data).pmc.dataOf q = data.flatten := by
  have hf : s.pmc.inbox.filter (fun d => d.req = q && d.complete) = [] :=
    List.filter_eq_nil_iff.mpr fun d hd => by simp [h d hd]
  have hd : ∀ l : List (List Half), ((l.map fun x => (⟨q, x, true⟩ : Delivery)).filter (fun d => d.req = q && d.complete)).flatMap
      (·.data) = l.flatten := by
    intro l
    induction l with
    | nil => rfl
    | cons x xs ih => simp only [decide_true, Bool.and_self, List.map_cons, List.filter_cons, if_true, List.flatMap_cons, List.flatten_cons, ih]
  simp only [State.deliveredEach, Pmc.dataOf, State.setPmc, List.filter_append, hf,
    List.append_nil, hd]

/-- R161: as many bytes are read as were clocked in. -/
@[simp] theorem romBytes_length (n : Nat) (data : List (Option Byte)) : (romBytes n data).length = n := by
  induction n generalizing data with
  | zero => rfl
  | succ n ih => cases data <;> simp [romBytes, ih]

/-- R161: a byte that no device drives is all ones. -/
theorem romBytes_undriven (n : Nat) : romBytes n [] = List.replicate n 0xFF := by
  induction n with
  | zero => rfl
  | succ n ih => simp [romBytes, ih, List.replicate_succ]

/-- Handing a cell changes the cell unit and adds bursts that wait, and nothing else. -/
theorem writeCell_sameButCells (s : State) (mark : CellMark) (bytes : List Byte) :
    s.sameButCells (s.writeCell mark bytes) := rfl

/-- Handing an event changes the cell unit and adds bursts that wait, and nothing else. -/
theorem handEvent_sameButCells (s : State) (k : Kind) (tag : Byte) (r : Result) (fields : List Byte) (mark : CellMark) :
    s.sameButCells (s.handEvent k tag r fields mark) := by
  unfold State.handEvent
  split
  · rfl
  · split
    · exact writeCell_sameButCells s _ _
    · unfold State.recordLost
      dsimp only
      split <;> rfl

/-- Handing a DONE changes the cell unit and adds bursts that wait, and nothing else. -/
theorem handDone_sameButCells (s : State) (tag : Byte) (code : Nat) (r : Result) (detail : List Byte) (mark : CellMark) :
    s.sameButCells (s.handDone tag code r detail mark) := by
  unfold State.handDone
  split
  · rfl
  · rfl

/-- R86: a stop request starts no move and ends none. -/
@[simp] theorem Channel.stop_moving (c : Channel) (cause : StopCause) : (c.stop cause).moving = c.moving := by
  unfold Channel.stop
  cases h : c.st <;> dsimp only <;> (try split) <;> simp [Channel.moving, h]

/-- R88: after an emergency no channel moves. -/
@[simp] theorem Channel.emergency_moving (c : Channel) : c.emergency.moving = false := by
  unfold Channel.emergency
  split
  · rfl
  · simp_all

/-- R86: a stop request to a channel at rest, as one that an emergency has put in HOLD, changes nothing. -/
theorem Channel.stop_atRest (c : Channel) (cause : StopCause) (h : c.moving = false) : c.stop cause = c := by
  unfold Channel.stop
  cases hs : c.st <;> simp_all [Channel.moving]

end Sys2Proof.Machine
end

