-- ==== Sys2Proof/Laws/PerInstr.lean ====
section
/-! SUPPORT. Per-constructor facts of the commands as syntax. -/

namespace Sys2Proof.Laws.CellLength

open Sys2Proof

/-- R181, 10.5: a host command is a cell of 16 bytes; a row that is no host command has none. -/
def Statement (i : Instr) : Prop := (encodeCell i).length = if (commandCode i).isSome then 16 else 0

theorem loadTable (tag table : Byte) (length : Half) (source : Word) : Statement (.loadTable tag table length source) := rfl
theorem setRing (tag ring producer consumer : Byte) (slots words : Half) (base : Word) : Statement (.setRing tag ring producer consumer slots words base) := rfl
theorem startScan (tag ring : Byte) (mode start k profile : BitVec 4) (theta skip trailing : Byte) (width pageLimit feedLimit : Half) (stopMargin restartMargin : Byte) : Statement (.startScan tag ring mode start k profile theta skip trailing width pageLimit feedLimit stopMargin restartMargin) := rfl
theorem startScanCal (tag : Byte) (lamp : Bool) (lines : Byte) (width interval : Half) (destination : Word) : Statement (.startScanCal tag lamp lines width interval destination) := rfl
theorem stopScan (tag : Byte) : Statement (.stopScan tag) := rfl
theorem startPrint (tag ring k profile threshold : Byte) (headWidth shift budget trailing : Half) : Statement (.startPrint tag ring k profile threshold headWidth shift budget trailing) := rfl
theorem stopPrint (tag : Byte) : Statement (.stopPrint tag) := rfl
theorem pausePrint (tag : Byte) : Statement (.pausePrint tag) := rfl
theorem resumePrint (tag : Byte) : Statement (.resumePrint tag) := rfl
theorem linkRings (tag source destination : Byte) (keep : Half) : Statement (.linkRings tag source destination keep) := rfl
theorem unlink (tag : Byte) : Statement (.unlink tag) := rfl
theorem moveMotor (tag channel direction profile : Byte) (steps : Half) : Statement (.moveMotor tag channel direction profile steps) := rfl
theorem holdMotor (tag channel : Byte) : Statement (.holdMotor tag channel) := rfl
theorem releaseMotor (tag channel : Byte) : Statement (.releaseMotor tag channel) := rfl
theorem setPower (tag target : Byte) (snapBack : Bool) (ratio wakeTimer : Half) : Statement (.setPower tag target snapBack ratio wakeTimer) := rfl
theorem switchClock (tag target : Byte) : Statement (.switchClock tag target) := rfl
theorem stopAll (tag : Byte) : Statement (.stopAll tag) := rfl
theorem reboot (tag : Byte) : Statement (.reboot tag) := rfl
theorem unknownCommand (tag code : Byte) : Statement (.unknownCommand tag code) := rfl
theorem commandTakeStart : Statement (.commandTakeStart) := rfl
theorem commandPutWrite (value : Half) : Statement (.commandPutWrite value) := rfl
theorem responseTakeWrite (value : Half) : Statement (.responseTakeWrite value) := rfl
theorem summaryWordWrite (value : Half) : Statement (.summaryWordWrite value) := rfl
theorem lineRingPutWrite (ring : RingId) (value : Half) : Statement (.lineRingPutWrite ring value) := rfl
theorem lineRingTakeWrite (ring : RingId) (value : Half) : Statement (.lineRingTakeWrite ring value) := rfl
theorem controlBlockWrite (offset : Byte) (value : Half) : Statement (.controlBlockWrite offset value) := rfl
theorem hostRead (address : BitVec 22) : Statement (.hostRead address) := rfl
theorem hostWrite (address : BitVec 22) (data : Half) (lowEnable highEnable : Bool) : Statement (.hostWrite address data lowEnable highEnable) := rfl
theorem burstEnter (dir : Dir) : Statement (.burstEnter dir) := rfl
theorem accessEnd : Statement (.accessEnd) := rfl
theorem refreshEnd : Statement (.refreshEnd) := rfl
theorem refreshTimerExpiry : Statement (.refreshTimerExpiry) := rfl
theorem closeTimerExpiry (bank : Fin 2) : Statement (.closeTimerExpiry bank) := rfl
theorem refreshBurstDone : Statement (.refreshBurstDone) := rfl
theorem selfRefreshEntry : Statement (.selfRefreshEntry) := rfl
theorem slotWritesAcknowledged (ring : RingId) : Statement (.slotWritesAcknowledged ring) := rfl
theorem pageEndTagAcknowledged (ring : RingId) : Statement (.pageEndTagAcknowledged ring) := rfl
theorem stepIntervalExpiry (channel : Chan) : Statement (.stepIntervalExpiry channel) := rfl
theorem readoutComplete (samples : List Byte) : Statement (.readoutComplete samples) := rfl
theorem calTriggerExpiry : Statement (.calTriggerExpiry) := rfl
theorem calReadoutComplete (samples : List Byte) : Statement (.calReadoutComplete samples) := rfl
theorem calSumsAcknowledged : Statement (.calSumsAcknowledged) := rfl
theorem linkTakeSourceLine : Statement (.linkTakeSourceLine) := rfl
theorem linkReadComplete : Statement (.linkReadComplete) := rfl
theorem fetchStart : Statement (.fetchStart) := rfl
theorem tagReadComplete : Statement (.tagReadComplete) := rfl
theorem windowReadComplete : Statement (.windowReadComplete) := rfl
theorem fetchComplete : Statement (.fetchComplete) := rfl
theorem shiftInStart : Statement (.shiftInStart) := rfl
theorem shiftInComplete : Statement (.shiftInComplete) := rfl
theorem lineLatch (elapsed : Half) : Statement (.lineLatch elapsed) := rfl
theorem phaseEnd : Statement (.phaseEnd) := rfl
theorem nextPhaseStart : Statement (.nextPhaseStart) := rfl
theorem slewBegin : Statement (.slewBegin) := rfl
theorem printStreamOff : Statement (.printStreamOff) := rfl
theorem sweepPeriodExpiry : Statement (.sweepPeriodExpiry) := rfl
theorem conversionComplete (raw : Byte) : Statement (.conversionComplete raw) := rfl
theorem standbyTimerExpiry : Statement (.standbyTimerExpiry) := rfl
theorem ringEdge : Statement (.ringEdge) := rfl
theorem edgeGapExpiry : Statement (.edgeGapExpiry) := rfl
theorem burstEndExpiry : Statement (.burstEndExpiry) := rfl
theorem silenceTimerExpiry : Statement (.silenceTimerExpiry) := rfl
theorem inputLevelChange (input : InputLine) (high : Bool) : Statement (.inputLevelChange input high) := rfl
theorem debounceExpiry (input : InputLine) : Statement (.debounceExpiry input) := rfl
theorem settleCountReached : Statement (.settleCountReached) := rfl
theorem startWindowExpiry : Statement (.startWindowExpiry) := rfl
theorem pllLock : Statement (.pllLock) := rfl
theorem lockWindowExpiry : Statement (.lockWindowExpiry) := rfl
theorem fastRcRunning : Statement (.fastRcRunning) := rfl
theorem switchComplete : Statement (.switchComplete) := rfl
theorem lossWindowExpiry : Statement (.lossWindowExpiry) := rfl
theorem wakeTimerExpiry : Statement (.wakeTimerExpiry) := rfl
theorem hostClockStop : Statement (.hostClockStop) := rfl
theorem standbyEntry : Statement (.standbyEntry) := rfl
theorem powerOnDetect : Statement (.powerOnDetect) := rfl
theorem resetPinLow : Statement (.resetPinLow) := rfl
theorem resetPinHigh : Statement (.resetPinHigh) := rfl
theorem romHeaderRead (marker count : List (Option Byte)) : Statement (.romHeaderRead marker count) := rfl
theorem recordHeaderRead (typeAndTable length destination check image : List (Option Byte)) : Statement (.recordHeaderRead typeAndTable length destination check image) := rfl
theorem configRecordRead (data : List (Option Byte)) : Statement (.configRecordRead data) := rfl
theorem tableRecordRead (data : List (Option Byte)) : Statement (.tableRecordRead data) := rfl
theorem imageWritesAcknowledged : Statement (.imageWritesAcknowledged) := rfl
theorem releaseWritesAcknowledged : Statement (.releaseWritesAcknowledged) := rfl
theorem faultPulseTimerExpiry : Statement (.faultPulseTimerExpiry) := rfl
theorem responseCellAcknowledged : Statement (.responseCellAcknowledged) := rfl
theorem responsePutAcknowledged : Statement (.responsePutAcknowledged) := rfl
theorem snapshotAcknowledged : Statement (.snapshotAcknowledged) := rfl
theorem tableLoadReadsComplete : Statement (.tableLoadReadsComplete) := rfl
theorem stopAllComplete : Statement (.stopAllComplete) := rfl

end Sys2Proof.Laws.CellLength
end

