-- ==== Sys2Proof/Laws/Units.lean ====
section
/-! SUPPORT. Frames of the operations of the memory controller, the clock and power unit, the sense unit and the cell unit: none of
them changes the waiting commands, memory, the configuration, the tables, the pins, the boot controller or the free-value
counter; performing a burst changes memory alone among these. -/

namespace Sys2Proof.Machine

open Sys2Proof

/-! ### Sweep -/

@[simp] theorem State.sweepStart_ground (s : State) : (s.sweepStart).ground = s.ground := by
  unfold State.sweepStart; dsimp only; split <;> simp

@[simp] theorem State.sweepStart_clk (s : State) : (s.sweepStart).clk = s.clk := by
  unfold State.sweepStart; dsimp only; split <;> simp

@[simp] theorem State.sweepStart_core (s : State) : (s.sweepStart).pmc.core = s.pmc.core := by
  unfold State.sweepStart; dsimp only; split <;> simp

@[simp] theorem State.sweepStart_lines (s : State) : (s.sweepStart).lines = s.lines := by
  unfold State.sweepStart; dsimp only; split <;> simp

@[simp] theorem State.sweepEnded_ground (s : State) : (s.sweepEnded).ground = s.ground := by
  unfold State.sweepEnded; dsimp only; split <;> simp

@[simp] theorem State.sweepEnded_clk (s : State) : (s.sweepEnded).clk = s.clk := by
  unfold State.sweepEnded; dsimp only; split <;> simp

@[simp] theorem State.sweepEnded_core (s : State) : (s.sweepEnded).pmc.core = s.pmc.core := by
  unfold State.sweepEnded; dsimp only; split <;> simp

@[simp] theorem State.sweepEnded_lines (s : State) : (s.sweepEnded).lines = s.lines := by
  unfold State.sweepEnded; dsimp only; split <;> simp

@[simp] theorem State.normalSweepEnd_ground (s : State) : (s.normalSweepEnd).ground = s.ground := by simp [State.normalSweepEnd]

@[simp] theorem State.normalSweepEnd_clk (s : State) : (s.normalSweepEnd).clk = s.clk := by simp [State.normalSweepEnd]

@[simp] theorem State.normalSweepEnd_core (s : State) : (s.normalSweepEnd).pmc.core = s.pmc.core := by simp [State.normalSweepEnd]

@[simp] theorem State.normalSweepEnd_lines (s : State) : (s.normalSweepEnd).lines = s.lines := by simp [State.normalSweepEnd]

@[simp] theorem State.placeHold_ground (s : State) : (s.placeHold).ground = s.ground := rfl

@[simp] theorem State.placeHold_clk (s : State) : (s.placeHold).clk = s.clk := rfl

@[simp] theorem State.placeHold_core (s : State) : (s.placeHold).pmc.core = s.pmc.core := rfl

@[simp] theorem State.placeHold_lines (s : State) : (s.placeHold).lines = s.lines := rfl

@[simp] theorem State.liftHold_ground (s : State) : (s.liftHold).ground = s.ground := rfl

@[simp] theorem State.liftHold_clk (s : State) : (s.liftHold).clk = s.clk := rfl

@[simp] theorem State.liftHold_core (s : State) : (s.liftHold).pmc.core = s.pmc.core := rfl

@[simp] theorem State.liftHold_lines (s : State) : (s.liftHold).lines = s.lines := rfl

@[simp] theorem State.abandonSweep_ground (s : State) : (s.abandonSweep).ground = s.ground := rfl

@[simp] theorem State.abandonSweep_clk (s : State) : (s.abandonSweep).clk = { s.clk with needSense := false } := rfl

@[simp] theorem State.abandonSweep_core (s : State) : (s.abandonSweep).pmc.core = s.pmc.core := rfl

@[simp] theorem State.abandonSweep_lines (s : State) : (s.abandonSweep).lines = s.lines := rfl

@[simp] theorem State.startPeriod_ground (s : State) : (s.startPeriod).ground = s.ground := rfl

@[simp] theorem State.startPeriod_clk (s : State) : (s.startPeriod).clk = s.clk := rfl

@[simp] theorem State.startPeriod_core (s : State) : (s.startPeriod).pmc.core = s.pmc.core := rfl

@[simp] theorem State.startPeriod_lines (s : State) : (s.startPeriod).lines = s.lines := rfl

/-! ### Pmc -/

@[simp] theorem State.grantPoint_ground (s : State) : (s.grantPoint).ground = s.ground := rfl

@[simp] theorem State.grantPoint_clk (s : State) : (s.grantPoint).clk = s.clk := rfl

@[simp] theorem State.grantPoint_sense (s : State) : (s.grantPoint).sense = s.sense := rfl

@[simp] theorem State.grantPoint_lines (s : State) : (s.grantPoint).lines = s.lines := rfl

@[simp] theorem State.memoryStart_ground (s : State) : (s.memoryStart).ground = s.ground := by
  unfold State.memoryStart; split <;> simp

@[simp] theorem State.memoryStart_clk (s : State) : (s.memoryStart).clk = s.clk := by
  unfold State.memoryStart; split <;> simp

@[simp] theorem State.memoryStart_sense (s : State) : (s.memoryStart).sense = s.sense := by
  unfold State.memoryStart; split <;> simp

@[simp] theorem State.memoryStart_lines (s : State) : (s.memoryStart).lines = s.lines := by
  unfold State.memoryStart; split <;> simp

@[simp] theorem State.memoryEntry_ground (s : State) : (s.memoryEntry).ground = s.ground := by
  unfold State.memoryEntry; split <;> simp

@[simp] theorem State.memoryEntry_clk (s : State) : (s.memoryEntry).clk = s.clk := by
  unfold State.memoryEntry; split <;> simp

@[simp] theorem State.memoryEntry_sense (s : State) : (s.memoryEntry).sense = s.sense := by
  unfold State.memoryEntry; split <;> simp

@[simp] theorem State.memoryEntry_lines (s : State) : (s.memoryEntry).lines = s.lines := by
  unfold State.memoryEntry; split <;> simp

@[simp] theorem State.memoryWithdraw_ground (s : State) : (s.memoryWithdraw).ground = s.ground := by
  unfold State.memoryWithdraw; split <;> simp

@[simp] theorem State.memoryWithdraw_clk (s : State) : (s.memoryWithdraw).clk = s.clk := by
  unfold State.memoryWithdraw; split <;> simp

@[simp] theorem State.memoryWithdraw_sense (s : State) : (s.memoryWithdraw).sense = s.sense := by
  unfold State.memoryWithdraw; split <;> simp

@[simp] theorem State.memoryWithdraw_lines (s : State) : (s.memoryWithdraw).lines = s.lines := by
  unfold State.memoryWithdraw; split <;> simp

@[simp] theorem State.memoryExit_ground (s : State) : (s.memoryExit).ground = s.ground := by
  unfold State.memoryExit; split <;> simp

@[simp] theorem State.memoryExit_clk (s : State) : (s.memoryExit).clk = s.clk := by
  unfold State.memoryExit; split <;> simp

@[simp] theorem State.memoryExit_sense (s : State) : (s.memoryExit).sense = s.sense := by
  unfold State.memoryExit; split <;> simp

@[simp] theorem State.memoryExit_lines (s : State) : (s.memoryExit).lines = s.lines := by
  unfold State.memoryExit; split <;> simp

@[simp] theorem State.snoop_ground (s : State) (b : Burst) : (s.snoop b).ground = s.ground := by
  unfold State.snoop; dsimp only; split <;> simp

@[simp] theorem State.snoop_clk (s : State) (b : Burst) : (s.snoop b).clk = s.clk := by
  unfold State.snoop; dsimp only; split <;> simp

@[simp] theorem State.snoop_sense (s : State) (b : Burst) : (s.snoop b).sense = s.sense := by
  unfold State.snoop; dsimp only; split <;> simp

@[simp] theorem State.snoop_lines (s : State) (b : Burst) : (s.snoop b).lines = s.lines := by
  unfold State.snoop; dsimp only; split <;> simp

@[simp] theorem State.commandRead_ground (s : State) : (s.commandRead).ground = s.ground := by
  unfold State.commandRead; repeat' split
  all_goals simp

@[simp] theorem State.commandRead_clk (s : State) : (s.commandRead).clk = s.clk := by
  unfold State.commandRead; repeat' split
  all_goals simp

@[simp] theorem State.commandRead_sense (s : State) : (s.commandRead).sense = s.sense := by
  unfold State.commandRead; repeat' split
  all_goals simp

@[simp] theorem State.commandRead_lines (s : State) : (s.commandRead).lines = s.lines := by
  unfold State.commandRead; repeat' split
  all_goals simp

/-! ### Clock -/

@[simp] theorem State.clockCell_ground (s : State) (tag : Byte) (r : Result) (origin : Origin) (code : ClockCode) (target : Option Source) : (s.clockCell tag r origin code target).ground = s.ground := by simp [State.clockCell]

@[simp] theorem State.clockCell_core (s : State) (tag : Byte) (r : Result) (origin : Origin) (code : ClockCode) (target : Option Source) : (s.clockCell tag r origin code target).pmc.core = s.pmc.core := by simp [State.clockCell]

@[simp] theorem State.clockCell_lines (s : State) (tag : Byte) (r : Result) (origin : Origin) (code : ClockCode) (target : Option Source) : (s.clockCell tag r origin code target).lines = s.lines := by simp [State.clockCell]

@[simp] theorem State.reportSwitch_ground (s : State) (w : Switch) (r : Result) (code : ClockCode) : (s.reportSwitch w r code).ground = s.ground := by
  unfold State.reportSwitch; dsimp only; split <;> simp

@[simp] theorem State.reportSwitch_core (s : State) (w : Switch) (r : Result) (code : ClockCode) : (s.reportSwitch w r code).pmc.core = s.pmc.core := by
  unfold State.reportSwitch; dsimp only; split <;> simp

@[simp] theorem State.reportSwitch_lines (s : State) (w : Switch) (r : Result) (code : ClockCode) : (s.reportSwitch w r code).lines = s.lines := by
  unfold State.reportSwitch; dsimp only; split <;> simp

@[simp] theorem State.enterWaitQuiet_ground (s : State) : (s.enterWaitQuiet).ground = s.ground := rfl

@[simp] theorem State.enterWaitQuiet_core (s : State) : (s.enterWaitQuiet).pmc.core = s.pmc.core := rfl

@[simp] theorem State.enterWaitQuiet_lines (s : State) : (s.enterWaitQuiet).lines = s.lines := rfl

@[simp] theorem State.crystalStart_ground (s : State) : (s.crystalStart).ground = s.ground := rfl

@[simp] theorem State.crystalStart_core (s : State) : (s.crystalStart).pmc.core = s.pmc.core := rfl

@[simp] theorem State.crystalStart_lines (s : State) : (s.crystalStart).lines = s.lines := rfl

@[simp] theorem State.pllStart_ground (s : State) : (s.pllStart).ground = s.ground := rfl

@[simp] theorem State.pllStart_core (s : State) : (s.pllStart).pmc.core = s.pmc.core := rfl

@[simp] theorem State.pllStart_lines (s : State) : (s.pllStart).lines = s.lines := rfl

@[simp] theorem State.crystalReady_ground (s : State) (target : Source) : (s.crystalReady target).ground = s.ground := by
  unfold State.crystalReady; split <;> simp

@[simp] theorem State.crystalReady_core (s : State) (target : Source) : (s.crystalReady target).pmc.core = s.pmc.core := by
  unfold State.crystalReady; split <;> simp

@[simp] theorem State.crystalReady_lines (s : State) (target : Source) : (s.crystalReady target).lines = s.lines := by
  unfold State.crystalReady; split <;> simp

@[simp] theorem State.beginSwitch_ground (s : State) (target : Source) (origin : Origin) (tag : Byte) : (s.beginSwitch target origin tag).ground = s.ground := by
  unfold State.beginSwitch; dsimp only; repeat' split
  all_goals simp

@[simp] theorem State.beginSwitch_core (s : State) (target : Source) (origin : Origin) (tag : Byte) : (s.beginSwitch target origin tag).pmc.core = s.pmc.core := by
  unfold State.beginSwitch; dsimp only; repeat' split
  all_goals simp

@[simp] theorem State.beginSwitch_lines (s : State) (target : Source) (origin : Origin) (tag : Byte) : (s.beginSwitch target origin tag).lines = s.lines := by
  unfold State.beginSwitch; dsimp only; repeat' split
  all_goals simp

@[simp] theorem State.switchFail_ground (s : State) (code : ClockCode) : (s.switchFail code).ground = s.ground := by simp [State.switchFail]

@[simp] theorem State.switchFail_core (s : State) (code : ClockCode) : (s.switchFail code).pmc.core = s.pmc.core := by simp [State.switchFail]

@[simp] theorem State.switchFail_lines (s : State) (code : ClockCode) : (s.switchFail code).lines = s.lines := by simp [State.switchFail]

@[simp] theorem State.clockFailure_ground (s : State) : (s.clockFailure).ground = s.ground := by
  unfold State.clockFailure; dsimp only; split <;> simp

@[simp] theorem State.clockFailure_core (s : State) : (s.clockFailure).pmc.core = s.pmc.core := by
  unfold State.clockFailure; dsimp only; split <;> simp

@[simp] theorem State.clockFailure_lines (s : State) : (s.clockFailure).lines = s.lines := by
  unfold State.clockFailure; dsimp only; split <;> simp

/-! ### Power -/

@[simp] theorem State.wakeCell_ground (s : State) (cause : WakeCause) (fromState : PowerState) (abandoned : Bool) : (s.wakeCell cause fromState abandoned).ground = s.ground := by simp [State.wakeCell]

@[simp] theorem State.wakeCell_lines (s : State) (cause : WakeCause) (fromState : PowerState) (abandoned : Bool) : (s.wakeCell cause fromState abandoned).lines = s.lines := by simp [State.wakeCell]

@[simp] theorem State.releaseMotors_ground (s : State) : (s.releaseMotors).ground = s.ground := rfl

@[simp] theorem State.releaseMotors_lines (s : State) : (s.releaseMotors).lines = s.lines := rfl

@[simp] theorem State.undoRelease_ground (s : State) : (s.undoRelease).ground = s.ground := rfl

@[simp] theorem State.undoRelease_lines (s : State) : (s.undoRelease).lines = s.lines := rfl

@[simp] theorem State.finishAbandon_ground (s : State) : (s.finishAbandon).ground = s.ground := by
  unfold State.finishAbandon; split <;> simp

@[simp] theorem State.finishAbandon_lines (s : State) : (s.finishAbandon).lines = s.lines := by
  unfold State.finishAbandon; split <;> simp

@[simp] theorem State.abandonEntry_ground (s : State) : (s.abandonEntry).ground = s.ground := by
  unfold State.abandonEntry; repeat' split
  all_goals simp

@[simp] theorem State.abandonEntry_lines (s : State) : (s.abandonEntry).lines = s.lines := by
  unfold State.abandonEntry; repeat' split
  all_goals simp

@[simp] theorem State.leaveOnFastRc_ground (s : State) : (s.leaveOnFastRc).ground = s.ground := by simp [State.leaveOnFastRc]

@[simp] theorem State.leaveOnFastRc_lines (s : State) : (s.leaveOnFastRc).lines = s.lines := by simp [State.leaveOnFastRc]

@[simp] theorem State.beginLeaving_ground (s : State) : (s.beginLeaving).ground = s.ground := by
  unfold State.beginLeaving; dsimp only; split <;> simp

@[simp] theorem State.beginLeaving_lines (s : State) : (s.beginLeaving).lines = s.lines := by
  unfold State.beginLeaving; dsimp only; split <;> simp

@[simp] theorem State.finishLeaving_ground (s : State) : (s.finishLeaving).ground = s.ground := by
  unfold State.finishLeaving; dsimp only; repeat' split
  all_goals simp

@[simp] theorem State.finishLeaving_lines (s : State) : (s.finishLeaving).lines = s.lines := by
  unfold State.finishLeaving; dsimp only; repeat' split
  all_goals simp

@[simp] theorem State.wake_ground (s : State) (cause : WakeCause) : (s.wake cause).ground = s.ground := by
  unfold State.wake; repeat' split
  all_goals simp

@[simp] theorem State.wake_lines (s : State) (cause : WakeCause) : (s.wake cause).lines = s.lines := by
  unfold State.wake; repeat' split
  all_goals simp

@[simp] theorem State.donePower_ground (s : State) (tag : Byte) (r : Result) (mark : CellMark) : (s.donePower tag r mark).ground = s.ground := by simp [State.donePower]

@[simp] theorem State.donePower_lines (s : State) (tag : Byte) (r : Result) (mark : CellMark) : (s.donePower tag r mark).lines = s.lines := by simp [State.donePower]

@[simp] theorem State.beginEntry_ground (s : State) (tag : Byte) (wakeTimer : Nat) : (s.beginEntry tag wakeTimer).ground = s.ground := by simp [State.beginEntry]

@[simp] theorem State.beginEntry_lines (s : State) (tag : Byte) (wakeTimer : Nat) : (s.beginEntry tag wakeTimer).lines = s.lines := by simp [State.beginEntry]

/-! ### Sense -/

@[simp] theorem State.zoneToBlocks_ground (s : State) (role : Role) (zone : Zone) : (s.zoneToBlocks role zone).ground = s.ground := by
  unfold State.zoneToBlocks; split <;> simp

@[simp] theorem State.zoneToBlocks_lines (s : State) (role : Role) (zone : Zone) : (s.zoneToBlocks role zone).lines = s.lines := by
  unfold State.zoneToBlocks; split <;> simp

@[simp] theorem State.senseCell_ground (s : State) (position : Nat) (e : SenseEntry) (before after : Zone) (reading : Nat) : (s.senseCell position e before after reading).ground = s.ground := by simp [State.senseCell]

@[simp] theorem State.senseCell_lines (s : State) (position : Nat) (e : SenseEntry) (before after : Zone) (reading : Nat) : (s.senseCell position e before after reading).lines = s.lines := by simp [State.senseCell]

@[simp] theorem State.zoneChange_ground (s : State) (standbySweep : Bool) (position : Nat) (e : SenseEntry) (before after : Zone) (reading : Nat) : (s.zoneChange standbySweep position e before after reading).ground = s.ground := by
  unfold State.zoneChange; dsimp only; repeat' split
  all_goals simp

@[simp] theorem State.zoneChange_lines (s : State) (standbySweep : Bool) (position : Nat) (e : SenseEntry) (before after : Zone) (reading : Nat) : (s.zoneChange standbySweep position e before after reading).lines = s.lines := by
  unfold State.zoneChange; dsimp only; repeat' split
  all_goals simp

@[simp] theorem State.convertEntry_ground (s : State) (standbySweep : Bool) (position raw : Nat) : (s.convertEntry standbySweep position raw).ground = s.ground := by
  unfold State.convertEntry; dsimp only; repeat' split
  all_goals simp

@[simp] theorem State.convertEntry_lines (s : State) (standbySweep : Bool) (position raw : Nat) : (s.convertEntry standbySweep position raw).lines = s.lines := by
  unfold State.convertEntry; dsimp only; repeat' split
  all_goals simp

@[simp] theorem State.dropFastRc_ground (s : State) : (s.dropFastRc).ground = s.ground := rfl

@[simp] theorem State.dropFastRc_lines (s : State) : (s.dropFastRc).lines = s.lines := rfl

@[simp] theorem State.standbySweepEnd_ground (s : State) : (s.standbySweepEnd).ground = s.ground := by simp [State.standbySweepEnd]

@[simp] theorem State.standbySweepEnd_lines (s : State) : (s.standbySweepEnd).lines = s.lines := by simp [State.standbySweepEnd]

@[simp] theorem State.standbySweepStart_ground (s : State) : (s.standbySweepStart).ground = s.ground := by
  unfold State.standbySweepStart; dsimp only; split <;> simp

@[simp] theorem State.standbySweepStart_lines (s : State) : (s.standbySweepStart).lines = s.lines := by
  unfold State.standbySweepStart; dsimp only; split <;> simp

@[simp] theorem State.sweepFrom_ground (s : State) (standbySweep : Bool) (p : Nat) : (s.sweepFrom standbySweep p).ground = s.ground := by
  unfold State.sweepFrom; repeat' split
  all_goals simp

@[simp] theorem State.sweepFrom_lines (s : State) (standbySweep : Bool) (p : Nat) : (s.sweepFrom standbySweep p).lines = s.lines := by
  unfold State.sweepFrom; repeat' split
  all_goals simp

/-! ### Lines -/

@[simp] theorem State.lineCell_ground (s : State) (k : Kind) (fields : List Byte) : (s.lineCell k fields).ground = s.ground := by
  unfold State.lineCell; split <;> simp

@[simp] theorem State.burstQualifies_ground (s : State) : (s.burstQualifies).ground = s.ground := by simp [State.burstQualifies]

@[simp] theorem State.debouncedChange_ground (s : State) (input : InputLine) (high : Bool) : (s.debouncedChange input high).ground = s.ground := by
  unfold State.debouncedChange; repeat' split
  all_goals simp

/-! ### CellUnit -/

@[simp] theorem State.cellFault_ground (s : State) (ring index written held : Nat) : (s.cellFault ring index written held).ground = s.ground := by simp [State.cellFault]

@[simp] theorem State.standbyWritten_ground (s : State) : (s.standbyWritten).ground = s.ground := by
  unfold State.standbyWritten; dsimp only; split <;> simp

@[simp] theorem State.pageScannedWritten_ground (s : State) : (s.pageScannedWritten).ground = s.ground := by
  unfold State.pageScannedWritten; split <;> simp

@[simp] theorem State.readSource_ground (s : State) (source length n : Nat) :
    (s.readSource source length n).ground = s.ground := by
  induction n generalizing s source length with
  | zero => rfl
  | succ n ih => simp [State.readSource, ih]

@[simp] theorem State.finishStopAll_ground (s : State) (x : StopAll) : (s.finishStopAll x).ground = s.ground := by simp [State.finishStopAll]

end Sys2Proof.Machine
end

