-- ==== Sys2Proof/Tests/Slice0.lean ====
section
/-! SUPPORT. The model's own tests: ill-formed commands are refused, command cells decode as 10.5 gives them, the worked figures of
the spec come out, and the hypotheses of each obligation are met by a concrete state. -/

namespace Sys2Proof.Tests

open Sys2Proof Sys2Proof.Machine

/-! ### Small states -/

/-- A step or a command answers a next state that has a property. -/
def nextHas (o : Out) (p : State → Bool) : Bool :=
  match o with
  | .next t => p t
  | .fault _ | .refused _ => false

/-- The machine in RUN with the host running: the control block at 7F000 hex, one reserved response slot. -/
def ready : State :=
  { cfg := { memSize := 0x80000, cbAddr := 0x7F000 }
    boot := { st := .ready, hostReset := false, images := 1, recordCount := 3, position := 3 }
    cells := { taking := .taking, reserved := 1, inFlight := [⟨16, 9⟩] }
    pmc := { st := .running, refreshTimer := true }
    pins := { resetHigh := true } }

/-- A ring of 8 slots of one word at 1000 hex. -/
def ring8 (producer consumer : Side) : RingDesc :=
  { base := 0x1000, slots := 8, words := 1, producer := producer, consumer := consumer }

/-- With nothing delivered at all, nothing is delivered to a requester. -/
theorem nothing_delivered {s : State} (h : s.pmc.inbox = []) (q : Req) : s.nothingFor q := by
  intro d hd
  rw [h] at hd
  cases hd

/-! ### Well-formed commands: each check refuses an ill-formed term -/

theorem test_wf_startScan_cal : WellFormed (.startScan 1 0 2 0 1 0 0 0 0 32 1 1 0 1) = false := by decide
theorem test_wf_unknownCommand : WellFormed (.unknownCommand 1 5) = false := by decide
theorem test_wf_unknownCommand_edges :
    WellFormed (.unknownCommand 1 17) = false ∧ WellFormed (.unknownCommand 1 18) = true
      ∧ WellFormed (.unknownCommand 1 0) = true := by decide
theorem test_wf_controlBlockWrite_odd : WellFormed (.controlBlockWrite 0x21 0) = false := by decide
theorem test_wf_hostRead_odd : WellFormed (.hostRead 0x101) = false := by decide
theorem test_wf_hostWrite_odd : WellFormed (.hostWrite 0x101 0 true true) = false := by decide
theorem test_wf_hostWrite_no_enable : WellFormed (.hostWrite 0x100 0 false false) = false := by decide
theorem test_wf_readoutComplete_length : WellFormed (.readoutComplete [1, 2, 3]) = false := by decide
theorem test_wf_calReadoutComplete_empty : WellFormed (.calReadoutComplete []) = false := by decide

/-! ### Command cells, byte by byte from the table of 10.5 -/

theorem test_cell_loadTable :
    decodeCell [0x01, 0x10, 0x02, 0, 0x13, 0x00, 0, 0, 0x00, 0x20, 0x01, 0x00, 0, 0, 0, 0] = .loadTable 0x10 2 19 0x00012000 := by
  decide
theorem test_cell_setRing :
    decodeCell [0x02, 0x11, 0x01, 0x00, 0x01, 0, 0x08, 0x00, 0x20, 0x00, 0x00, 0x10, 0x02, 0x00, 0, 0]
      = .setRing 0x11 1 0 1 8 32 0x00021000 := by decide
theorem test_cell_startScan :
    decodeCell [0x03, 0x12, 0x02, 0x11, 0x54, 0x80, 0x03, 0x04, 0xC0, 0x06, 0x98, 0x08, 0x40, 0x1F, 0x02, 0x05]
      = .startScan 0x12 2 1 1 4 5 128 3 4 1728 2200 8000 2 5 := by decide
theorem test_cell_startScanCal :
    decodeCell [0x03, 0x13, 0, 0x12, 0x08, 0, 0, 0, 0x00, 0x08, 0x10, 0x27, 0x00, 0x00, 0x01, 0x00]
      = .startScanCal 0x13 true 8 2048 10000 0x00010000 := by decide
theorem test_cell_startPrint :
    decodeCell [0x05, 0x14, 0x03, 0x02, 0x07, 0x04, 0xC0, 0x06, 0xF6, 0xFF, 0x58, 0x02, 0x18, 0x00, 0, 0]
      = .startPrint 0x14 3 2 7 4 1728 0xFFF6 600 24 := by decide
theorem test_cell_linkRings :
    decodeCell [0x09, 0x18, 0x00, 0x01, 0xC0, 0x00, 0, 0, 0, 0, 0, 0, 0, 0, 0, 0] = .linkRings 0x18 0 1 192 := by decide
theorem test_cell_moveMotor :
    decodeCell [0x0B, 0x15, 0x01, 0x01, 0x06, 0, 0xE8, 0x03, 0, 0, 0, 0, 0, 0, 0, 0] = .moveMotor 0x15 1 1 6 1000 := by
  decide
theorem test_cell_setPower :
    decodeCell [0x0E, 0x16, 0x01, 0x01, 0x40, 0x00, 0, 0, 0, 0, 0, 0, 0, 0, 0, 0] = .setPower 0x16 1 true 64 0 := by decide
theorem test_cell_unknown :
    decodeCell [0x12, 0x17, 0, 0, 0, 0, 0, 0, 0, 0, 0, 0, 0, 0, 0, 0] = .unknownCommand 0x17 0x12 := by decide

/-! ### The spec's worked figures -/

/-- Chapter 1, host index checks: S = 8, put 5, take 2: 10 is accepted; 12 and 16 are not; 5 changes nothing. -/
theorem test_host_put_checks :
    let s := ready.setRings { r0 := { desc := some (ring8 .host .print), put := 5, take := 2 } }
    nextHas (exec (.lineRingPutWrite 0 10) (s.arrived 0x10 10)) (fun t => t.rings.r0.put == 10)
      ∧ nextHas (exec (.lineRingPutWrite 0 12) (s.arrived 0x10 12)) (fun t => t.rings.r0.put == 5 && t.cells.writing.length == 1)
      ∧ nextHas (exec (.lineRingPutWrite 0 16) (s.arrived 0x10 16)) (fun t => t.rings.r0.put == 5 && t.cells.writing.length == 1)
      ∧ nextHas (exec (.lineRingPutWrite 0 5) (s.arrived 0x10 5)) (fun t => t.rings.r0.put == 5 && t.cells.writing == []) := by
  decide

/-- Chapter 1: S = 8, put 9, take 4: a take of 10 would pass put, a take of 9 empties the ring. -/
theorem test_host_take_checks :
    let s := ready.setRings { r0 := { desc := some (ring8 .scan .host), put := 9, take := 4 } }
    nextHas (exec (.lineRingTakeWrite 0 10) (s.arrived 0x12 10)) (fun t => t.rings.r0.take == 4)
      ∧ nextHas (exec (.lineRingTakeWrite 0 9) (s.arrived 0x12 9)) (fun t => t.rings.r0.take == 9) := by decide

/-- Chapter 2, one pel: shading of 140 with b = 12, g = 300 gives 150, and the errors of -125 are -54, -23, -7 and -41. -/
theorem test_one_pel :
    shadeSample ⟨12, 300⟩ 140 = 150 ∧ shadeSample ⟨0, 1023⟩ 250 = 255 ∧ diffuseError 130 = -125
      ∧ errorShare 7 (-125) = -54 ∧ errorShare 3 (-125) = -23 ∧ errorShare 1 (-125) = -7 := by decide

/-- Chapter 2, the start of a halftone line: samples 100, 140, 200 and 60 give black, white, white, black. -/
theorem test_halftone_start : (diffuse none 0 0 [(100, 0), (140, 0), (200, 0), (60, 0)]).1 = [true, false, false, true] := by
  decide

/-- Chapter 3, a strobe plan: counts 40, 190, 220, 0, 12, 130, 60 under a budget of 320. -/
theorem test_strobe_plan :
    strobePlan 320 [40, 190, 220, 0, 12, 130, 60] = [⟨[0, 1], 230⟩, ⟨[2, 4], 232⟩, ⟨[5, 6], 190⟩] := by decide

/-- Chapter 3, a shift of 37 pels: black pels 0, 30, 31, 40, 70, 90 of three words land at 37, 67, 68, 77; two are lost. -/
theorem test_shift_of_37 :
    shiftLine 37 3 [0x80000003, 0x00800000, 0x02000020] = ([0, 0x04000000, 0x18040000], true) := by decide
/-- R59, ShiftUnitIsTheShift: a shift of the head width either way whites the line; the black pel of a wider ring is lost. -/
theorem test_shift_of_head_width :
    shiftLine (-64) 2 [0, 0, 1] = ([0, 0], true) ∧ shiftLine 64 2 [0, 0, 1] = ([0, 0], true)
      ∧ shiftLine (-64) 2 [0, 0, 0] = ([0, 0], false) ∧ shiftLine (-63) 2 [0, 0, 0x80000000] = ([0x40000000, 0], false) := by decide

/-- Chapter 3, a heat pulse: band 9 of 180, boost 60, maximum 220: 220 with the boost, 180 without. -/
theorem test_heat_pulse :
    let h : Heat := { bands := List.replicate 9 100 ++ [180], boost := 60, interval := 2500, maximum := 220 }
    heatPulse h 9 (boostHolds h false 3100) = 220 ∧ heatPulse h 9 (boostHolds h false 1200) = 180 := by decide

/-- Chapter 4, a bounded move: a step with 5 left at ramp index 4 leaves index 3 and 4 steps to go. -/
theorem test_bounded_move_step :
    let c : Channel := { st := .move, ramp := 4, remaining := some 5, requested := some 12, taken := 7, timer := some 800 }
    let y := c.step .half [2000, 1400, 1100, 900, 800]
    y.ramp = 3 ∧ y.remaining = some 4 ∧ y.taken = 8 ∧ y.timer = some 900 := by decide

/-- Chapter 4: the last of twelve steps ends the move in HOLD. -/
theorem test_bounded_move_end :
    let c : Channel := { st := .move, ramp := 0, remaining := some 1, requested := some 12, taken := 11, timer := some 2000 }
    let y := c.step .half [2000, 1400, 1100, 900, 800]
    y.st = .hold ∧ y.remaining = some 0 ∧ y.timer = none := by decide

/-- Chapter 5, a paper sensor: the eight sweeps' readings and zones. -/
theorem test_paper_sensor :
    let e : SenseEntry := ⟨3, 2, 40, 200, 10, .paper, true, false⟩
    gainReading 2 60 = 120 ∧ e.nextZone .unknown 120 = .mid ∧ e.nextZone .mid 36 = .low ∧ e.nextZone .low 46 = .low
      ∧ e.nextZone .low 50 = .mid ∧ e.nextZone .mid 220 = .high ∧ e.nextZone .high 196 = .high
      ∧ e.nextZone .high 190 = .mid ∧ gainReading 2 130 = 255 := by decide

/-- Chapter 6, refresh under load: at owed 4 with a read queued, a refresh is granted and 3 are owed; at 3 the read goes first. -/
theorem test_refresh_under_load :
    let r : Burst := { dir := .read, cls := .scan, half := 0, len := 1, last := true, req := .word }
    let x : Pmc := { st := .running, refreshTimer := true, readQ := [r], owed := 4 }
    ((x.grantPoint {}).act == .refresh && (x.grantPoint {}).owed == 3) = true
      ∧ (({ x with owed := 3 } : Pmc).grantPoint {}).act ≠ .refresh := by decide

/-- Chapter 7, host clock rates: a ratio of 100 gives 64 and one of 3 gives 2; 0 is taken as 1 and 200 as 128 (R152). -/
theorem test_slow_ratio : powerOfTwo 100 = 64 ∧ powerOfTwo 3 = 2 ∧ powerOfTwo 0 = 1 ∧ powerOfTwo 200 = 128 := by decide

/-- Chapter 8, a check value: 1234, F000 and 2000 hex sum to 2234 hex. -/
theorem test_check_value : checkSum [0x1234, 0xF000, 0x2000] = 0x2234 := by decide

/-- Chapter 9, a response ring under pressure: an event with no free unreserved slot joins the summary and is counted. -/
theorem test_response_pressure :
    let s := ready.setCells { ready.cells with respPut := 14, reserved := 2 }
    let t := s.handEvent .pageScanned 0 .done []
    t.cells.writing = [] ∧ t.cells.summary = 2 ∧ t.cells.dropped = 1 := by decide

/-- R178 at its edge: with Nc = 16 and nothing taken, a put of 16 fills the ring and one of 17 is a fault. -/
theorem test_command_put_edges :
    nextHas (exec (.commandPutWrite 16) (ready.arrived 0 16)) (fun t => t.cells.cmdPut == 16)
      ∧ nextHas (exec (.commandPutWrite 17) (ready.arrived 0 17)) (fun t => t.cells.cmdPut == 0 && t.cells.writing.length == 1) := by
  decide

/-! ### Witnesses: states and operands that meet the hypotheses of the obligations, clause by clause -/

/-- A write of 1234 hex at 100 hex in progress. -/
def writing : State :=
  ready.setPmc { ready.pmc with act := .access (
    { dir := .write, cls := .host, half := 0x80, len := 1, data := [0x1234], last := true, req := .host }) 3 }

/-- A read of the last halfword of memory by the host in progress. -/
def reading : State :=
  ready.setPmc { ready.pmc with act := .access (
    { dir := .read, cls := .host, half := 0x3FFFF, len := 1, last := true, req := .host }) 3 }

/-- StepRunsFront: an empty queue. -/
theorem test_StepRunsFront : State.reset.pending = [] := by decide
/-- CommandsLeaveQueue, MemoryCanonicalKept, MemoryChangedBy, AccessEndStores: a write that ends, and what it stores. -/
theorem test_AccessEndStores :
    memoryWf writing.mem = true ∧ 2 * (0x80 + 1) ≤ writing.cfg.memSize
      ∧ nextHas (exec .accessEnd writing) (fun t => t.mem == [(0x100, 0x34), (0x101, 0x12)])
      ∧ nextHas (step (writing.setPending [.accessEnd])) (fun t => memoryWf t.mem && t.pending == []) := by decide
/-- AccessEndStores: a burst that ends one halfword past memory faults. -/
theorem test_AccessEndStores_outside :
    exec .accessEnd (writing.setPmc { writing.pmc with act := .access (
      { dir := .write, cls := .cell, half := 0x40000, len := 1, data := [1], last := true, req := .word }) 3 })
      = .fault .accessOutsideMemory := by rfl
/-- MemoryChangedBy: a cold start that cuts a write burst. -/
theorem test_MemoryChangedBy_cut : nextHas (exec .powerOnDetect writing) (fun t => t.freeCount == 1 && t.boot.st == .romRead) := by
  decide
/-- AccessEndReads: the host's read, and a read for a part block, of the last halfword of memory. -/
theorem test_AccessEndReads :
    2 * (0x3FFFF + 1) ≤ reading.cfg.memSize ∧ reading.cells.reading = none ∧ reading.link.st ≠ .ending
      ∧ nextHas (exec .accessEnd reading) (fun t => t.pmc.hostData == 0 && t.pmc.act == .free) := by decide
/-- HostSide: the last halfword inside memory and the first outside it; a burst inside the control block and one outside. -/
theorem test_HostSide :
    ready.hostMayRequest = true ∧ (0x7FFFE : BitVec 22).toNat < ready.cfg.memSize
      ∧ ready.cfg.memSize ≤ (0x80000 : BitVec 22).toNat ∧ ready.cfg.cbAddr ≤ 2 * 0x3F800 ∧ 2 * 0x3F87F < ready.cfg.cbAddr + 256
      ∧ ¬2 * 0x3F880 < ready.cfg.cbAddr + 256 := by decide
/-- ControllerSoundKept, ResponseRoomKept, LinkBoundsKept, ScanAccountingKept, DiffusionBoundedKept, HostHeldKept,
StandbyHeldKept: a state with every invariant whose step answers a next state. -/
theorem test_invariants :
    ready.pmc.sound = true ∧ ready.link.bounded = true ∧ ready.scan.accounted = true ∧ ready.hostHeld = true
      ∧ ready.standbyHeld = true
      ∧ nextHas (step (ready.setPending [.refreshTimerExpiry])) (fun t => t.pmc.act == .refresh && t.pmc.owed == 0) := by decide
/-- ResponseRoomKept: the response ring of that state has room. -/
theorem test_ResponseRoomKept : ready.responseRoom := by
  refine ⟨by decide, by decide, by decide, by decide, by decide⟩
/-- ScanAccountingKept: a page with one line written, one lost and a readout in progress. -/
theorem test_ScanAccountingKept :
    Scan.accounted { st := .capture, params := { pageLimit := 16383 }, triggerCount := 3, linesWritten := 1, lostNoSlot := 1
                     bufA := { st := .readout } } = true := by decide

/-- A read of a class, its row, age and passed-over count. -/
def aRead (cls : MemClass) (half age passed : Nat) : Burst :=
  { dir := .read, cls := cls, half := half, len := 1, last := true, req := .word, age := age, passed := passed }

/-- GrantOrder: the six rules' premises, at their boundaries. -/
theorem test_GrantOrder :
    let x := ready.pmc
    x.act = .free ∧ x.st = .running
      ∧ (({ x with burstRem := 1 } : Pmc).grantPoint {}).burstRem = 0 ∧ (({ x with owed := 1 } : Pmc).grantPoint {}).owed = 0
      ∧ (({ x with owed := 3, readQ := [aRead .table 0 0 0] } : Pmc).grantPoint {}).owed = 3
      ∧ (({ x with owed := 4, readQ := [aRead .table 0 0 0] } : Pmc).grantPoint {}).owed = 3 := by decide
/-- The burst an access performs. -/
def accessOf : Activity → Option Burst
  | .access b _ => some b
  | .free | .refresh => none
/-- GrantOrder, RequestRule (R121): a PRINT read held by the second of two SCAN writes that entered before it: the older write of
that class stands in; the read is no candidate until both are performed. -/
theorem test_GrantOrder_held :
    let r := aRead .print 8 2 0
    let w := fun (half age : Nat) => { aRead .scan half age 0 with dir := .write }
    let x : Pmc := { ready.pmc with urgent := true, nextAge := 3, readQ := [r], writeQ := [w 40 0, w 8 1] }
    x.inBounds = true ∧ x.eligibleRead .print = some r ∧ x.standIn r = w 40 0 ∧ x.candidates = [w 40 0, w 40 0]
      ∧ accessOf (x.grantPoint {}).act = some (w 40 0)
      ∧ accessOf (({ x with writeQ := [w 40 0] } : Pmc).grantPoint {}).act = some r := by decide
/-- RequestRule: an aged entry goes before a higher class; a page hit goes before it too; else the class decides. -/
theorem test_RequestRule :
    Pmc.chooseRequest {} { readQ := [aRead .table 0 0 32, aRead .host 600 1 31] } = some (aRead .table 0 0 32)
      ∧ Pmc.chooseRequest {} { readQ := [aRead .table 0 0 31, aRead .host 600 1 0], bank0 := { openRow := some 0 } }
        = some (aRead .table 0 0 31)
      ∧ Pmc.chooseRequest {} { readQ := [aRead .table 0 0 31, aRead .host 600 1 0] } = some (aRead .host 600 1 0) := by decide
/-- BurstEnterRows: a HOST read goes before a SCAN read that waits longer, a PRINT read before both under URGENT; a sixth write
raises DRAIN. -/
theorem test_BurstEnterRows :
    let w := { aRead .scan 4 0 0 with dir := .write }
    nextHas (exec (.burstEnter .read) (ready.setPmc { ready.pmc with waiting := [aRead .scan 0 0 0, aRead .host 2 0 0] }))
        (fun t => t.pmc.waiting == [aRead .scan 0 0 0])
      ∧ nextHas (exec (.burstEnter .read) (ready.setPmc { ready.pmc with
          urgent := true, waiting := [aRead .host 2 0 0, aRead .print 0 0 0] })) (fun t => t.pmc.waiting == [aRead .host 2 0 0])
      ∧ nextHas (exec (.burstEnter .write) (ready.setPmc { ready.pmc with
          act := .refresh, waiting := [w], nextAge := 9, writeQ := List.replicate 5 w }))
          (fun t => t.pmc.drain && t.pmc.waiting == []) := by decide
/-- A word of the control block that waits outside in a class. -/
def outside (cls : MemClass) (req : Req) : Pmc := { ready.pmc with waiting := [{ aRead cls 0 0 0 with dir := .write, req := req }] }
/-- BurstEnterRows (R120): each row is held while a burst of its class waits outside, and goes on once it has entered. -/
theorem test_BurstEnterRows_holds :
    let take := ready.setCells { ready.cells with cmdPut := 1 }
    let cell := (ready.setCells { ready.cells with writing := [⟨0, .plain⟩] }).setPmc
      { outside .cell .respPut with inbox := [⟨.respCell, [], true⟩] }
    let slot := (ready.setRings { r0 := { desc := some (ring8 .scan .print), writing := [⟨0, {}, none, false⟩] } }).setPmc
      { outside .scan .word with inbox := [⟨.slotTag 0, [], true⟩] }
    let entered := fun (s : State) => s.setPmc { s.pmc with waiting := [] }
    let stays := fun (i : Instr) (s : State) => nextHas (exec i s) (fun t => t.cells == s.cells && t.pmc == s.pmc && t.rings == s.rings)
    stays .commandTakeStart (take.setPmc (outside .cell .respCell))
      ∧ nextHas (exec .commandTakeStart take) (fun t => t.cells.reading == some 0)
      ∧ stays .responseCellAcknowledged cell
      ∧ nextHas (exec .responseCellAcknowledged (entered cell)) (fun t => t.cells.respPut == 1)
      ∧ stays (.slotWritesAcknowledged 0) slot
      ∧ nextHas (exec (.slotWritesAcknowledged 0) (entered slot)) (fun t => t.rings.r0.held == some ⟨0, {}⟩)
      ∧ (slot.setPmc (outside .scan .slotWords)).wordWaits .scan = false := by decide
/-- RefreshRows: each of the four rows acts. -/
theorem test_RefreshRows :
    nextHas (exec .refreshEnd (ready.setPmc { ready.pmc with act := .refresh })) (fun t => t.pmc.act == .free)
      ∧ nextHas (exec .refreshTimerExpiry (ready.setPmc { ready.pmc with act := .refresh, owed := 8 })) (fun t => t.pmc.owed == 8)
      ∧ nextHas (exec (.closeTimerExpiry 0) (ready.setPmc { ready.pmc with bank0 := ⟨some 3, some 1⟩ }))
          (fun t => t.pmc.bank0 == {})
      ∧ nextHas (exec (.closeTimerExpiry 1) (ready.setPmc { ready.pmc with bank1 := ⟨some 3, some 1⟩ }))
          (fun t => t.pmc.bank1 == {})
      ∧ nextHas (exec .selfRefreshEntry (ready.setPmc { ready.pmc with st := .srEntry, bank0 := ⟨some 3, none⟩ }))
          (fun t => t.pmc.st == .selfRefresh && t.pmc.bank0 == {}) := by decide
/-- TransferSplit: twenty halfwords from four before a row's end are three bursts, of 4, 16 and none left over. -/
theorem test_TransferSplit :
    (cutBursts 512 .read .scan .word 20 508 20 []).map (fun b => (b.half, b.len, b.last)) = [(508, 4, false), (512, 16, true)] := by
  decide

/-- CellHanding: an event where a slot is free and where none is, and a DONE under a reservation. -/
theorem test_CellHanding :
    0 < ready.respFree ∧ (ready.setCells { ready.cells with respPut := 16, reserved := 0 }).respFree = 0
      ∧ 0 < ready.cells.reserved ∧ State.reset.cells.taking = .notStarted := by decide
/-- CellHanding: an event that finds no slot asserts ATTN; with equal indices and an empty summary it is deasserted. -/
theorem test_CellHanding_attn :
    let full := ready.setCells { ready.cells with respPut := 16, reserved := 0 }
    ready.attn = false ∧ full.cells.respPut < 2 * full.cfg.nr ∧ full.respFree = 0
      ∧ (full.handEvent .stream 0 .done []).attn = true
      ∧ (full.handEvent .stream 0 .done []).pmc.waiting.map (·.half) = [full.cfg.cbAddr / 2 + 4, full.cfg.cbAddr / 2 + 5] := by decide
/-- CommandTaking: a command to take, and a read under way. -/
theorem test_CommandTaking :
    nextHas (exec .commandTakeStart (ready.setCells { ready.cells with cmdPut := 1 }))
        (fun t => t.cells.reserved == 2 && t.cells.reading == some 0 && t.pmc.waiting.length == 1)
      ∧ (ready.setCells { ready.cells with cmdPut := 1, reading := some 0 }).cells.reading = some 0
      ∧ ready.pmc.inbox = [] := by decide
/-- CommandTaking: the end of a command cell's read hands the command, here UNLINK with tag 9. -/
theorem test_CommandTaking_handed :
    let b : Burst := { dir := .read, cls := .cell, half := 0x20, len := 8, last := true, req := .cmdRead }
    let s := ((ready.setCells { ready.cells with cmdPut := 1, reading := some 0 }).setMem [(0x40, 10), (0x41, 9)]).setPmc
      { ready.pmc with act := .access b 9, readQ := [b] }
    s.pmc.inbox = [] ∧ nextHas (exec .accessEnd s) (fun t => t.cells.handed == [.unlink 9] && t.cells.cmdTake == 1
      && t.cells.reading == none && t.pmc.readQ == [] && t.pmc.waiting.length == 1) := by decide
/-- ControlBlockWrites: a nonzero summary write, and an offset that is no word the part acts on. -/
theorem test_ControlBlockWrites : (3 : Half) ≠ 0 ∧ ready.actedOn (0x20 : Byte).toNat = false := by decide
/-- ResponsePublication: a cell acknowledged, then its put word, under each mark. -/
theorem test_ResponsePublication :
    let s := ready.setCells { ready.cells with writing := [⟨0, .standby⟩] }
    let t := ready.setCells { ready.cells with putWrites := [.standby] }
    nextHas (exec .responseCellAcknowledged (s.delivered .respCell [])) (fun t => t.cells.respPut == 1 && t.cells.writing == [])
      ∧ nextHas (exec .responsePutAcknowledged ((t.setClk { t.clk with power := .entering }).delivered .respPut []))
          (fun t => t.clk.doneWritten && t.cells.putWrites == [])
      ∧ nextHas (exec .responsePutAcknowledged
          ((t.setCells { t.cells with putWrites := [.reboot] }).delivered .respPut [])) (fun t => t.boot.cause == .reboot) := by
  decide
/-- ResponsePublication: RESET_N low between a REBOOT's DONE and its acknowledgement; RESET_N high drops that. -/
theorem test_ResponsePublication_reset :
    let s := (ready.setCells { ready.cells with putWrites := [.reboot] }).delivered .respPut []
    nextHas (exec .resetPinLow s) (fun t => t.boot.cause == .resetPin && t.boot.rebootAcked && t.cells.putWrites == []
      && nextHas (exec .responsePutAcknowledged t) (fun u => u.boot.cause == .reboot && !u.boot.rebootAcked)
      && nextHas (exec .resetPinHigh t) (fun u => u.boot.cause == .resetPin && !u.boot.rebootAcked)) := by decide
/-- SnapshotWriting: a snapshot's writes acknowledged with one owed. -/
theorem test_SnapshotWriting :
    nextHas (exec .snapshotAcknowledged
      ((ready.setCells { ready.cells with snapBusy := true, snapOwed := true, sequence := 65535 }).delivered .snapshot []))
      (fun t => t.cells.snapBusy && !t.cells.snapOwed && t.cells.sequence == 0) := by decide
/-- SnapshotWriting (10.3): halfwords at 22, 3A, 4A, 4E and 5C hex of a snapshot. -/
theorem test_SnapshotWriting_places :
    let s := ((ready.setSense { list := [{ entry := ⟨3, 1, 40, 200, 10, .none, false, false⟩, reading := 7, zone := .high }] }).setLines
      { hook := { stable := true } }).setClk { power := .slow, ratio := 64, sourceBefore := some .crystal }
    let at' := fun (k : Nat) => ((s.setCells { s.cells with stopAll := some ⟨9, false, false, false, false, false⟩ }).snapshotHalves
      3 .ready).getD k 0
    at' 1 = 0x0307 ∧ at' 13 = 0x0001 ∧ at' 21 = 0x4001 ∧ at' 23 = 0x00FF ∧ at' 30 = 1 ∧ at' 31 = 3 := by decide
/-- TableLoading: an accepted load, and one whose reads complete. -/
theorem test_TableLoading :
    let s := ready.setCells { ready.cells with loader := .loading 9 (.profile 0) 0x100 2 }
    tableIdOf (4 : Byte).toNat = some (.profile 0) ∧ tableIdOf (12 : Byte).toNat = none
      ∧ nextHas (exec (.loadTable 9 4 2 0x100) (ready.given (.loadTable 9 4 2 0x100)))
          (fun t => t.cells.loader == .loading 9 (.profile 0) 0x100 2 && t.pmc.waiting.length == 1)
      ∧ s.pmc.inbox = []
      ∧ nextHas (exec .tableLoadReadsComplete (s.delivered .tableLoad [1, 20]))
          (fun t => t.tables.profiles.head? == some [20] && t.cells.loader == .idle) := by decide
/-- TableLoading: a source of one halfword more than the load area, whose two reads are delivered. -/
theorem test_TableLoading_long :
    let s := ready.setCells { ready.cells with loader := .loading 9 .shading 0x100 2049 }
    s.pmc.inbox = [] ∧ (List.replicate 2048 (0 : Half)).length = 2048 ∧ 2049 = 2048 + ([0] : List Half).length := by
  exact ⟨by decide, List.length_replicate, by decide⟩
/-- TableLoading: a profile is in use while a channel moves with it, and a shading table while a scan stream is active. -/
theorem test_TableLoading_inUse :
    let s := (ready.setDoc { st := .stopping, profile := 3, timer := some 20 }).setScan { st := .ending }
    s.tableInUse (.profile 3) = true ∧ s.tableInUse (.profile 2) = false ∧ s.tableInUse .shading = true ∧ s.tableInUse .heat = false
      ∧ ready.tableInUse .tone = false ∧ tableIdOf 11 = some (.profile 7) := by decide
/-- TableSources: the smallest profile, at its boundaries. -/
theorem test_TableSources :
    parseProfile [1, 16] = some [16] ∧ parseProfile [1, 15] = none ∧ parseProfile [2, 16] = none ∧ parseProfile [0] = none := by
  decide
/-- TableSources: the sense source's smallest list, and one with a role twice; a heat source at its bounds. -/
theorem test_TableSources_sense :
    (parseSense [0x0101, 0, 0x0100, 0xFF00, 0x3000]).isSome = true
      ∧ parseSense [0x0102, 0, 0x0100, 0xFF00, 0x3100, 0x0100, 0xFF00, 0x3100] = none
      ∧ (parseHeat (List.replicate 16 1 ++ [0, 65534, 2047])).isSome = true
      ∧ parseHeat (List.replicate 16 1 ++ [0, 65535, 2047]) = none := by decide
/-- StopAllRows: with all at rest, and one in flight. -/
theorem test_StopAllRows :
    nextHas (exec (.stopAll 9) (ready.given (.stopAll 9))) (fun t => t.cells.reserved == 0 && t.cells.stopAll == none)
      ∧ nextHas (exec .stopAllComplete (ready.setCells { ready.cells with stopAll := some ⟨9, true, false, false, false, false⟩ }))
          (fun t => t.cells.stopAll == none && t.cells.reserved == 0) := by decide

/-- StopAllRows: a page in capture is cut ABORTED and its stream's DOC channel stops with cause STOPPED. -/
theorem test_StopAllRows_scan :
    nextHas (exec (.stopAll 9) ((ready.setScan { st := .capture }).setDoc { st := .run, owner := .scan, timer := some 20 }
        |>.given (.stopAll 9))) (fun t => t.scan.endReason == some .aborted && t.scan.st == .ending
      && t.doc.stopCause == some .stopped && t.doc.remaining == some 1) := by decide
/-- StopAllRows: with a motor moving and a link already ending, the STOP ALL is in flight with what it stopped. -/
theorem test_StopAllRows_inFlight :
    let s := (ready.setDoc { st := .run, timer := some 20 }).setLink { st := .ending }
    nextHas (exec (.stopAll 9) (s.given (.stopAll 9))) (fun t => t.cells.stopAll == some ⟨9, false, false, true, true, false⟩
      && t.link.abortCell && t.doc.st == .stopping && t.doc.stopCause == some .stopped) := by decide
/-- SetRingRow: an accepted descriptor that ends where memory ends below the control block, and ones refused. -/
theorem test_SetRingRow :
    nextHas (exec (.setRing 9 0 0 1 2 1 0x1000) (ready.given (.setRing 9 0 0 1 2 1 0x1000)))
        (fun t => t.rings.r0.desc == some ⟨0x1000, 2, 1, .scan, .print⟩)
      ∧ 0x7EFE8 + 2 * (8 + 4 * 1) ≤ ready.cfg.cbAddr ∧ 4 ≤ (4 : Byte).toNat ∧ (ready.ring 0).attached = false
      ∧ (ready.setRings { r0 := { consAttached := true } } |>.ring 0).attached = true := by decide
/-- HostIndexWrites: a take write that frees the slots a STALLED scan stream waits for. -/
theorem test_HostIndexWrites :
    let s := ((ready.setRings { r0 := { desc := some (ring8 .scan .host), put := 8 } }).setScan
      { st := .stalled, stalledFrom := .trailing, params := { restartMargin := 3 } }).setDoc { st := .hold, owner := .scan }
    nextHas (exec (.lineRingTakeWrite 0 3) (s.arrived 0x12 3)) (fun t => t.rings.r0.take == 3 && t.scan.st == .trailing
        && t.doc.st == .run)
      ∧ nextHas (exec (.lineRingTakeWrite 0 2) (s.arrived 0x12 2)) (fun t => t.scan.st == .stalled) := by decide
/-- RingCounts: a ring with a held slot, one claim and room. -/
theorem test_RingCounts :
    let x : Ring := { desc := some (ring8 .scan .print), put := 3, take := 1, held := some ⟨3, {}⟩, writing := [⟨4, {}, none, false⟩] }
    let d := ring8 .scan .print
    x.put < 2 * d.slots ∧ x.take < 2 * d.slots ∧ x.occupancy d + 1 + x.writing.length < d.slots ∧ 1 ≤ x.occupancy d := by decide
/-- SlotAndPageEndRows: the first line's slot acknowledged is held, the second publishes the first. -/
theorem test_SlotAndPageEndRows :
    let s := ready.setRings { r0 := { desc := some (ring8 .scan .print), writing := [⟨0, {}, none, false⟩, ⟨1, {}, none, false⟩] } }
    nextHas (exec (.slotWritesAcknowledged 0) (s.delivered (.slotTag 0) [])) (fun t =>
        t.rings.r0.held == some ⟨0, {}⟩ && t.rings.r0.put == 0
          && nextHas (exec (.slotWritesAcknowledged 0) (t.delivered (.slotTag 0) []))
            (fun u => u.rings.r0.held == some ⟨1, {}⟩ && u.rings.r0.put == 1)) := by decide
/-- SlotAndPageEndRows: an abandoned claim's slot acknowledged is dropped, and a page end's rewritten tag publishes the slot. -/
theorem test_SlotAndPageEndRows_end :
    let s := ready.setRings { r0 := { desc := some (ring8 .scan .print), writing := [⟨0, {}, none, true⟩] } }
    let u := ready.setRings { r0 := { desc := some (ring8 .scan .print), held := some ⟨0, {}⟩, pageEnd := some ⟨true, true⟩ } }
    nextHas (exec (.slotWritesAcknowledged 0) (s.delivered (.slotTag 0) [])) (fun t => t.rings.r0.writing == [])
      ∧ nextHas (exec (.pageEndTagAcknowledged 0) (u.delivered (.pageEndTag 0) []))
          (fun t => t.rings.r0.put == 1 && t.rings.r0.held == none) := by decide

/-- RingCounts: a state within its bounds, and the state after reset, whose scan stores are whole. -/
theorem test_ringsBounded :
    (ready.setRings { r0 := { desc := some (ring8 .scan .print), put := 3, take := 1, held := some ⟨3, {}⟩ } }).ringsBounded = true
      ∧ State.reset.ringsBounded = true ∧ State.reset.scanWhole = true := by
  refine ⟨by decide, by decide, ?_⟩
  have h1 : State.reset.tables.shading.length = 2048 := List.length_replicate
  have h2 : State.reset.scan.currentRow.length = 2048 := List.length_replicate
  have h3 : State.reset.scan.nextRow.length = 2048 := List.length_replicate
  simp only [State.scanWhole, h1, h2, h3]; decide

/-- Two rings for the copy link: lines published in the first, the second empty. -/
def linked : State :=
  (ready.setRings { r0 := { desc := some (ring8 .scan .link), put := 2, consAttached := true }
                    r1 := { desc := some (ring8 .link .print), prodAttached := true } }).setLink
    { st := .wait, source := some 0, destination := some 1, keep := 192 }

/-- LinkCommandRows: LINK RINGS accepted, and UNLINK in WAIT with nothing held. -/
theorem test_LinkCommandRows :
    let s := ready.setRings { r0 := { desc := some (ring8 .scan .link) }, r1 := { desc := some (ring8 .link .print) } }
    nextHas (exec (.linkRings 9 0 1 100) (s.given (.linkRings 9 0 1 100)))
        (fun t => t.link.st == .wait && t.link.keep == 128 && t.rings.r0.consAttached && t.rings.r1.prodAttached)
      ∧ nextHas (exec (.unlink 9) (linked.given (.unlink 9))) (fun t => t.link.st == .off && t.rings.r0.take == 0) := by decide
/-- LinkLineRows: a published line and a free slot; a read line that brings the accumulator to 192. -/
theorem test_LinkLineRows :
    let s := linked.setLink { linked.link with st := .reading, readsOut := true }
    nextHas (exec .linkTakeSourceLine linked) (fun t => t.link.st == .reading && t.pmc.waiting.length == 2)
      ∧ s.pmc.inbox = [] ∧ s.link.acc + s.link.keep < 256
      ∧ nextHas (exec .linkReadComplete ((s.delivered .linkTag [0, 1, 0, 0]).delivered .linkWords [1, 0]))
          (fun t => t.link.st == .wait && t.link.acc == 192 && t.link.hold == [1] && t.rings.r0.take == 1) := by decide
/-- LinkLineRows: the emitted line's slot is acknowledged. -/
theorem test_LinkLineRows_written :
    let s := (linked.setLink { linked.link with st := .writing, hold := [1] }).setRings
      { linked.rings with r1 := { linked.rings.r1 with writing := [⟨0, {}, none, false⟩] } }
    nextHas (exec (.slotWritesAcknowledged 1) (s.delivered (.slotTag 1) []))
      (fun t => t.link.st == .wait && t.link.hold == [] && t.rings.r1.held == some ⟨0, {}⟩) := by decide

/-- LinkLineRows: a page start with a line held drops it; at 256 the link emits; a page's last line, with a slot held before it. -/
theorem test_LinkLineRows_pages :
    let s := linked.setLink { linked.link with st := .reading, readsOut := true, acc := 200, heldCount := 1, hold := [8] }
    let w := (linked.setLink { linked.link with st := .writing, hold := [1], emitEnd := true }).setRings
      { linked.rings with r1 := { linked.rings.r1 with writing := [⟨1, {}, none, false⟩], held := some ⟨0, {}⟩ } }
    nextHas (exec .linkReadComplete ((s.delivered .linkTag [0, 1, 1, 0]).delivered .linkWords [1, 0]))
        (fun t => t.link.st == .wait && t.link.acc == 192 && t.link.hold == [1] && t.link.dropped == 1 && t.link.startPending)
      ∧ nextHas (exec .linkReadComplete ((s.delivered .linkTag [0, 1, 0, 0]).delivered .linkWords [1, 0]))
        (fun t => t.link.st == .writing && t.link.acc == 136 && t.rings.r1.writing.length == 1)
      ∧ nextHas (exec (.slotWritesAcknowledged 1) (w.delivered (.slotTag 1) [])) (fun t => t.rings.r1.put == 1
          && t.rings.r1.held == some ⟨1, { endOfPage := true }⟩ && t.rings.r1.pageEnd == some ⟨false, true⟩) := by decide
/-- LinkCommandRows: UNLINK in READING rewrites the held tag and waits for its reads; in WRITING it abandons the slot; in READING
with nothing held it is ENDING. -/
theorem test_LinkCommandRows_unlink :
    let rd := linked.setLink { linked.link with st := .reading, readsOut := true, acc := 200, heldCount := 1, hold := [8] }
    let h := rd.setRings { rd.rings with r1 := { rd.rings.r1 with held := some ⟨0, {}⟩ } }
    let w := (linked.setLink { linked.link with st := .writing, hold := [1], mergedWriting := 2 }).setRings
      { linked.rings with r1 := { linked.rings.r1 with writing := [⟨1, {}, none, false⟩] } }
    let run := fun (s : State) => exec (.unlink 9) (s.given (.unlink 9))
    h.pmc.inbox = [] ∧ nextHas (run h) (fun t => t.link.st == .ending && t.rings.r0.consAttached && t.link.dropped == 1
        && t.rings.r1.held == some ⟨0, { endOfPage := true, lostTail := true }⟩ && t.rings.r1.pageEnd == some ⟨true, true⟩)
      ∧ nextHas (run w) (fun t => t.link.st == .ending && !t.rings.r0.consAttached && t.link.dropped == 2
        && t.rings.r1.writing == [⟨1, {}, none, true⟩] && t.rings.r1.pageEnd == some ⟨true, false⟩)
      ∧ nextHas (run rd) (fun t => t.link.st == .ending && t.rings.r0.consAttached && t.rings.r1.pageEnd == none) := by decide
/-- SlotAndPageEndRows: an abandoned slot with the page end waiting, with a slot held and with none; a WRITING link's page end; a
scan page whose held slot is published hands PAGE_SCANNED, and finding no slot goes OFF. -/
theorem test_SlotAndPageEndRows_ends :
    let r1 := { linked.rings.r1 with writing := [⟨1, {}, none, true⟩], pageEnd := some ⟨true, false⟩ }
    let a := (linked.setLink { linked.link with st := .ending }).setRings { linked.rings with r1 := r1 }
    let w := (linked.setLink { linked.link with st := .writing }).setRings
      { linked.rings with r1 := { r1 with writing := [], held := some ⟨0, {}⟩, pageEnd := some ⟨true, true⟩ } }
    let s := ((ready.setScan { st := .ending, endReason := some .limit, linesWritten := 1 }).setDoc
      { st := .hold, owner := .scan }).setRings { r0 := { desc := some (ring8 .scan .print), prodAttached := true
                                                          held := some ⟨0, {}⟩, pageEnd := some ⟨false, true⟩ } }
    let end0 := fun (s : State) => exec (.pageEndTagAcknowledged 0) (s.delivered (.pageEndTag 0) [])
    nextHas (exec (.slotWritesAcknowledged 1) ((a.setRings { a.rings with r1 := { r1 with held := some ⟨0, {}⟩ } }).delivered
        (.slotTag 1) [])) (fun t => t.rings.r1.pageEnd == some ⟨true, true⟩ && t.rings.r1.put == 0)
      ∧ nextHas (exec (.slotWritesAcknowledged 1) (a.delivered (.slotTag 1) [])) (fun t => t.link.st == .off)
      ∧ nextHas (exec (.pageEndTagAcknowledged 1) (w.delivered (.pageEndTag 1) [])) (fun t => t.link.st == .wait)
      ∧ nextHas (end0 s) (fun t => t.rings.r0.put == 1 && t.scan.endCell == .handed && t.scan.st == .ending)
      ∧ nextHas (end0 (s.setCells { s.cells with respPut := 16, reserved := 0 })) (fun t => t.scan.st == .off
        && !t.rings.r0.prodAttached && t.doc.owner == .host) := by decide
/-- AccessEndReads: the end of an ENDING link's last abandoned read. -/
theorem test_AccessEndReads_abandoned :
    let b : Burst := { dir := .read, cls := .link, half := 0x800, len := 4, last := true, req := .linkTag }
    let s := (linked.setLink { linked.link with st := .ending, readsOut := true }).delivered .linkWords [1, 0]
    nextHas (exec .accessEnd (s.setPmc { s.pmc with act := .access b 9, readQ := [b] })) (fun t => t.link.st == .off
      && !t.link.readsOut && !t.rings.r0.consAttached && t.rings.r0.take == linked.rings.r0.take && t.pmc.inbox == []) := by decide
/-- SlotAndPageEndRows: a READING link that waits to emit claims the next slot; an ENDING one goes OFF, also where its source ring
is held by another consumer again (R23). -/
theorem test_SlotAndPageEndRows_link :
    let rings := { linked.rings with r1 := { linked.rings.r1 with held := some ⟨0, {}⟩, pageEnd := some ⟨false, true⟩ } }
    let e := (linked.setLink { linked.link with st := .reading, emitPending := true, acc := 300, heldCount := 2 }).setRings rings
    let o := (linked.setLink { linked.link with st := .ending }).setRings rings
    nextHas (exec (.pageEndTagAcknowledged 1) (e.delivered (.pageEndTag 1) [])) (fun t => t.rings.r1.put == 1
        && t.link.st == .writing && t.rings.r1.writing.length == 1)
      ∧ o.rings.r0.consAttached = true ∧ nextHas (exec (.pageEndTagAcknowledged 1) (o.delivered (.pageEndTag 1) []))
        (fun t => t.link.st == .off && !t.rings.r1.prodAttached && t.rings.r0.consAttached) := by decide

/-- A ring the scan path produces into, and a loaded profile 0. -/
def scannable : State :=
  (ready.setRings { r0 := { desc := some (ring8 .scan .print) } }).setTables
    { shading := List.replicate 32 ⟨0, 256⟩, profiles := [[2000, 1400]] ++ List.replicate 7 [] }

/-- A scan stream in CAPTURE. -/
def capturing : State :=
  (scannable.setScan { st := .capture, params := { width := 32, pageLimit := 9, theta := 128 }, triggerCount := 1
                       bufA := { st := .readout } }).setDoc { st := .run, owner := .scan, requester := .scan, timer := some 2000 }

/-- StartScanRow: an accepted start by the host, with the widest width that rounds up to the ring's 32. -/
theorem test_StartScanRow :
    nextHas (exec (.startScan 9 0 0 1 1 0 128 0 0 31 9 9 1 2) (scannable.given (.startScan 9 0 0 1 1 0 128 0 0 31 9 9 1 2)))
      (fun t => t.scan.st == .capture && t.doc.st == .run && t.rings.r0.prodAttached && t.scan.params.width == 32) := by decide
/-- ScanStopsAndStalls: STOP SCAN in CAPTURE, and a margin of all eight slots. -/
theorem test_ScanStopsAndStalls :
    nextHas (exec (.stopScan 9) (capturing.given (.stopScan 9)))
        (fun t => t.doc.st == .stopping && t.scan.endReason == some .stopped && t.scan.st != .capture)
      ∧ ((capturing.setScan { capturing.scan with params := { capturing.scan.params with stopMargin := 8 } }).scanCheckMargin).scan.st
        = .stalled
      ∧ ((capturing.setScan { capturing.scan with st := .stalled }).setDoc { st := .hold }).scanRestart.scan.st = .capture := by
  decide
/-- ScanStopsAndStalls, PrintCommandRows (R86): a stop request with i + 1 steps left changes the state alone; in a run it records
its cause. ConversionRow (R43): at SUPPLY LOW the stream's own stop request finds DOC in HOLD and records none. -/
theorem test_stopRequests :
    let c : Channel := { st := .move, ramp := 1, remaining := some 2, timer := some 9 }
    c.stop .cover = { c with st := .stopping }
      ∧ { c with remaining := none, st := .run }.stop .cover = { c with st := .stopping, stopCause := some .cover }
      ∧ (capturing.zoneToBlocks .supply .low).doc.stopCause = none ∧ (capturing.zoneToBlocks .supply .low).doc.st = .hold
      ∧ (capturing.zoneToBlocks .supply .low).scan.endReason = some .supply := by decide
/-- ScanStopsAndStalls: a page end with the channel moving and at rest, DOC_EDGE HIGH and LOW, LAMP. -/
theorem test_ScanStopsAndStalls_edges :
    let rest := capturing.setDoc { st := .hold, owner := .scan }
    let full := rest.setCells { rest.cells with respPut := 16, reserved := 0 }
    let edge := capturing.setScan { capturing.scan with bufA := {} }
    (capturing.scanPageEnd .limit).scan.endCell = .handed ∧ (full.scanPageEnd .edge).scan.st = .off
      ∧ ((capturing.setScan { capturing.scan with st := .waitEdge }).zoneToBlocks .docEdge .high).scan.st = .capture
      ∧ (capturing.zoneToBlocks .docEdge .low).scan.closing = true ∧ (edge.zoneToBlocks .docEdge .low).scan.st = .ending
      ∧ ((capturing.setScan { capturing.scan with skipRemaining := 1 }).zoneToBlocks .docEdge .low).scan.st = .ending
      ∧ (capturing.scanCut .cover).scan.lostOverrun = 1 ∧ capturing.lamp = true ∧ ready.lamp = false := by decide
/-- ReadoutCompleteRow: pel 0 is bit 31 of word 0; a tag's flags and lost-before share a halfword. -/
theorem test_ReadoutCompleteRow_layout :
    packWords 2 (true :: List.replicate 31 false ++ List.replicate 31 false ++ [true]) = [0x80000000, 1]
      ∧ (true :: List.replicate 31 false ++ List.replicate 31 false ++ [true]).length = 32 * 2
      ∧ tagHalves ⟨5, 6, 7, true, false, false, true⟩ = [5, 6, 0x0709, 0] := by decide
/-- ReadoutCompleteRow: a readout of 32 samples, with room and with a full ring. -/
theorem test_ReadoutCompleteRow :
    let full := capturing.setRings { r0 := { desc := some (ring8 .scan .print), put := 8 } }
    nextHas (exec (.readoutComplete (List.replicate 32 100)) capturing)
        (fun t => t.scan.linesWritten == 1 && t.scan.bufA.black == 32 && t.rings.r0.writing.length == 1)
      ∧ nextHas (exec (.readoutComplete (List.replicate 32 128)) full)
          (fun t => t.scan.lostNoSlot == 1 && t.scan.bufA.st == .free) := by decide
/-- ReadoutCompleteRow: a closing page ends after its last readout; in HALFTONE, 32 black samples leave no error. -/
theorem test_ReadoutCompleteRow_closing :
    let s := capturing.setScan { capturing.scan with closing := true, endReason := some .limit }
    nextHas (exec (.readoutComplete (List.replicate 32 100)) s)
      (fun t => t.scan.st == .ending && t.scan.endReason == some .limit && t.scan.linesWritten == 1) := by decide
theorem test_ReadoutCompleteRow_halftone :
    let s := (ready.setScan { st := .capture, params := { mode := .halftone }, bufA := { st := .readout } }).setRings
      { r0 := { desc := some (ring8 .scan .print) } }
    s.scanWhole = true ∧ s.scan.params.mode = .halftone ∧ s.scan.params.width = 32
      ∧ ∀ j < 32, (List.replicate 32 (0 : Int)).getD j 0 = 0 := by
  intro s
  have h1 : s.tables.shading.length = 2048 := List.length_replicate
  have h2 : s.scan.currentRow.length = 2048 := List.length_replicate
  have h3 : s.scan.nextRow.length = 2048 := List.length_replicate
  refine ⟨?_, by decide, by decide, by decide⟩
  simp only [State.scanWhole, h1, h2, h3]; decide
/-- CalibrationRows: a calibration in CAL of one readout, up to its end. -/
theorem test_CalibrationRows :
    let s := scannable.setScan { st := .cal, params := { mode := .cal, width := 32, calLines := 1 }, calTimer := true
                                 calSums := List.replicate 32 0 }
    nextHas (exec .calTriggerExpiry s) (fun t => t.scan.calReadout && !t.scan.calTimer
        && nextHas (exec (.calReadoutComplete (List.replicate 32 7)) t) (fun u => u.scan.calWriting && u.scan.calSums.head? == some 7
          && nextHas (exec .calSumsAcknowledged (u.delivered .calSums [])) (fun v => v.scan.st == .off))) := by decide

/-- CalibrationRows: a cut while the sums are written keeps the first reason; a cut before ends the calibration at once. -/
theorem test_CalibrationRows_cut :
    let s := scannable.setScan { st := .cal, params := { mode := .cal, width := 32, lamp := true }, calReadout := true
                                 calSums := [], currentRow := [], nextRow := [] }
    let w := s.setScan { s.scan with calWriting := true, endReason := some .cover }
    (w.scanCut .supply).scan.endReason = some .cover ∧ (w.scanCut .supply).scan.st = .cal ∧ s.lamp = true
      ∧ (s.scanCut .supply).scan.st = .off ∧ (s.scanCut .supply).scan.lostOverrun = 1 := by decide

/-- CalibrationRows: STOP SCAN in CAL hands its DONE, and ends it at once or leaves its sums to be written. -/
theorem test_CalibrationRows_stop :
    let s := scannable.setScan { st := .cal, params := { mode := .cal, width := 32 }, calSums := [], currentRow := [], nextRow := [] }
    let run := fun (s : State) => exec (.stopScan 9) (s.given (.stopScan 9))
    nextHas (run s) (fun t => t.scan.st == .off && t.cells.reserved == 0 && t.cells.writing.length == 2
        && (t.pmc.waiting.head?.map (fun b => halvesToBytes (b.data.take 2))) == some [0, 9, 0, 4])
      ∧ nextHas (run (s.setScan { s.scan with calWriting := true })) (fun t => t.scan.st == .cal
        && t.scan.endReason == some .stopped && t.cells.writing.length == 1) := by decide

/-- DiffusionBoundedKept: error stores at both ends of their bound. -/
theorem test_DiffusionBoundedKept :
    ((capturing.setScan { capturing.scan with currentRow := [72, -72], nextRow := [0] }).setTables
      { scannable.tables with tone := [0, 255] }).errorsBounded = true := by decide

/-- A loaded heat table and profile 0, and a ring of three published lines for the print path. -/
def printable : State :=
  (ready.setRings { r0 := { desc := some (ring8 .scan .print), put := 3 } }).setTables
    { heat := some { bands := List.replicate 16 100, boost := 60, interval := 2500, maximum := 150 }
      profiles := [[2000, 1400]] ++ List.replicate 7 [] }

/-- A print stream in PRINTING with a line in the head register. -/
def printing : State :=
  (printable.setPrint { st := .printing, headSt := .loaded, headRec := { blocks := [3], total := 3 }
                        params := { k := 2, threshold := 2, headWidth := 32, trailing := 4 } }).setPaper { owner := .print }

/-- StartPrintRow: the smallest arguments, accepted, with the shift and budget clamped. -/
theorem test_StartPrintRow :
    let i : Instr := .startPrint 9 0 1 0 2 32 0x7FFF 10 1023
    nextHas (exec i (printable.given i)) (fun t => t.print.st == .waitLine && t.print.params.shift == 2047
      && t.print.params.budget == 256 && t.rings.r0.consAttached && t.paper.owner == .print) := by decide
/-- PrintCommandRows: STOP in PRINTING, PAUSE with a line latched and without, RESUME after a pause. -/
theorem test_PrintCommandRows :
    let h : HeadLine := ⟨{}, [⟨[0], 3⟩], 9, 0, .firing⟩
    nextHas (exec (.stopPrint 9) (printing.given (.stopPrint 9))) (fun t => t.print.ending == some .stopped)
      ∧ nextHas (exec (.pausePrint 9) ((printing.setPrint { printing.print with headLine := some h }).given (.pausePrint 9)))
          (fun t => t.print.pendCommand && t.print.st == .printing)
      ∧ nextHas (exec (.pausePrint 9) (printing.given (.pausePrint 9))) (fun t => t.print.st == .paused
          && nextHas (exec (.resumePrint 9) (t.given (.resumePrint 9))) (fun u => u.print.st == .printing)) := by decide
/-- PrintCommandRows: a PAPER zone LOW refuses RESUME; a stream paused may be stopped. -/
theorem test_PrintCommandRows_paused :
    let s := (printing.setPrint { printing.print with st := .paused, pauseReason := some .paper }).setSense
      { list := [{ entry := ⟨3, 1, 40, 200, 10, .paper, false, false⟩, zone := .low }] }
    s.zone .paper = some .low ∧ nextHas (exec (.resumePrint 9) (s.given (.resumePrint 9))) (fun t => t.print.st == .paused)
      ∧ nextHas (exec (.stopPrint 9) (s.given (.stopPrint 9))) (fun t => t.print.ending == some .stopped) := by decide
/-- PrintCommandRows: PAUSE and RESUME in an ending stream, and RESUME of an interrupted line that owes two steps. -/
theorem test_PrintCommandRows_items :
    let e := printing.setPrint { printing.print with ending := some .stopped }
    let i := printing.setPrint { printing.print with
      st := .paused, interrupted := some .line, owed := 2, headLine := some ⟨{}, [], 9, 0, .waiting⟩ }
    nextHas (exec (.pausePrint 9) (e.given (.pausePrint 9))) (fun t => t.print == e.print)
      ∧ nextHas (exec (.resumePrint 9) ((e.setPrint { e.print with st := .paused }).given (.resumePrint 9)))
        (fun t => t.print.st == .paused)
      ∧ nextHas (exec (.resumePrint 9) (i.given (.resumePrint 9))) (fun t => t.print.st == .printing && t.paper.st == .move
        && t.paper.remaining == some 2 && t.print.interrupted == none) := by decide
/-- PrintCommandRows: RESUME with no item enters HOT with a STREAM cell; STOP in PAUSED keeps a head line that fires. -/
theorem test_PrintCommandRows_hot :
    let s := (printing.setPrint { printing.print with st := .paused, pauseReason := some .command }).setSense
      { list := [{ entry := ⟨3, 1, 40, 200, 10, .headTemp, false, false⟩, zone := .high }] }
    let f := s.setPrint { s.print with owed := 2, interrupted := some .line, headLine := some ⟨{}, [⟨[0], 3⟩], 9, 0, .firing⟩ }
    nextHas (exec (.resumePrint 9) (s.given (.resumePrint 9))) (fun t => t.print.st == .hot && t.cells.writing.length == 2)
      ∧ nextHas (exec (.stopPrint 9) (f.given (.stopPrint 9))) (fun t => t.print.firing && t.print.owed == 0 && t.print.cut
        && t.cells.writing.length == 1) := by decide
/-- PrintCommandRows: each zone, with nothing in progress and with a line latched. -/
theorem test_PrintCommandRows_zones :
    let l := printing.setPrint { printing.print with headLine := some ⟨{}, [⟨[0], 3⟩], 9, 0, .firing⟩ }
    (printing.zoneToBlocks .paper .low).print.pauseReason = some .paper ∧ (l.zoneToBlocks .paper .low).print.pendPaper = true
      ∧ (printing.zoneToBlocks .headTemp .high).print.st = .hot ∧ (l.zoneToBlocks .headTemp .high).print.pendHot = true
      ∧ ((printing.zoneToBlocks .headTemp .high).zoneToBlocks .headTemp .mid).print.st = .printing
      ∧ (l.zoneToBlocks .cover .high).print.interrupted = some .line ∧ (l.zoneToBlocks .cover .high).print.owed = 2
      ∧ ((l.setPrint { l.print with ending := some .stopped }).zoneToBlocks .cover .high).print.cut = true := by decide
/-- FetchAndShiftRows: a fetch from its start to the staged line, and a staged line shifted in. -/
theorem test_FetchAndShiftRows :
    let s := printable.setPrint { st := .printing, params := { headWidth := 32 } }
    s.pmc.inbox = [] ∧ nextHas (exec .fetchStart s) (fun t => t.print.fetch == .tag 0 && t.pmc.urgent
      && nextHas (exec .tagReadComplete (t.delivered .fetchTag [0, 1, 0, 0])) (fun u => u.print.fetch == .words 0 .a
        && nextHas (exec .fetchComplete (u.delivered .fetchWords [1, 0])) (fun v => v.print.bufA.st == .staged
          && v.print.bufA.line.total == 1 && !v.pmc.urgent
          && nextHas (exec .shiftInStart v) (fun w => w.print.headSt == .shifting
            && nextHas (exec .shiftInComplete w) (fun y => y.print.headSt == .loaded && y.print.bufA.st == .free))))) := by
  decide
/-- FetchAndShiftRows: a white tag with two unfetched lines reads one more, and a white second line makes a slew of two. -/
theorem test_FetchAndShiftRows_white :
    let s := printable.setPrint { st := .printing, fetch := .tag 0, params := { threshold := 2 } }
    2 ≤ s.unfetched ∧ nextHas (exec .tagReadComplete (s.delivered .fetchTag [0, 0, 0, 0])) (fun t =>
        t.print.fetch == .window 0 {} 2)
      ∧ nextHas (exec .windowReadComplete ((s.setPrint { s.print with fetch := .window 0 {} 1, window := [{}] }).delivered
          .fetchWindow [1, 0, 0, 0])) (fun t => t.print.slew == some ⟨2, 0, false, false⟩) := by decide
/-- FetchAndShiftRows: of two further tags the second ends the run; at a threshold of 3 the first line's words are read. -/
theorem test_FetchAndShiftRows_window :
    let s := printable.setPrint { st := .waitLine, fetch := .window 0 {} 2, window := [{}], params := { threshold := 2 } }
    let run := fun (s : State) =>
      exec .windowReadComplete (s.deliveredEach .fetchWindow (([{}, { black := 2048 }] : List Tag).map tagHalves))
    s.pmc.inbox = [] ∧ nextHas (run s) (fun t => t.print.slew == some ⟨2, 0, false, false⟩ && t.print.st == .printing)
      ∧ nextHas (run (s.setPrint { s.print with params := { threshold := 3 } })) (fun t => t.print.fetch == .words 0 .a) := by decide
/-- FetchAndShiftRows, LineCycleRows (R59): a line of the next page that loses a black pel, fetched in a trailing feed, sets no flag
there, and the flag of its own page when the feed's end reports the page before. -/
theorem test_FetchAndShiftRows_feedLoss :
    let s := printable.setPrint { st := .trailingFeed, linesPrinted := 3, fetch := .words 0 .a, bufA := { st := .fetching }, nextBuf := .b
                                  params := { headWidth := 32, shift := 1 } }
    nextHas (exec .fetchComplete (s.delivered .fetchWords [1, 0])) (fun t => t.print.bufA.line.loss && !t.print.marginLoss
      && t.feedEnd.print.marginLoss && t.feedEnd.print.linesPrinted == 0
      && (t.feedEnd.pmc.waiting.head?.map (fun b => b.data.drop 2 |>.take 2)) == some [0x0002, 3]) := by decide
/-- BurstEnterRows (R120): the print path's rows are held while a take word of its stream waits outside, and go on once it has
entered. -/
theorem test_BurstEnterRows_printHolds :
    let tag := (printable.setPrint { st := .printing, fetch := .tag 0, params := { threshold := 2 } }).delivered .fetchTag [0, 1, 0, 0]
    let window := (printable.setPrint { st := .printing, fetch := .window 0 {} 1, params := { threshold := 2 } }).delivered
      .fetchWindow [0, 0, 0, 0]
    let words := (printable.setPrint { st := .printing, fetch := .words 0 .a, params := { headWidth := 32 } }).delivered
      .fetchWords [1, 0]
    let staged := printable.setPrint { st := .printing, bufA := { st := .staged } }
    let slew := printing.setPrint { printing.print with headSt := .empty, slew := some ⟨3, 0, true, false⟩ }
    let held := fun (i : Instr) (s : State) =>
      let t := s.setPmc { s.pmc with waiting := (outside .print .word).waiting }
      nextHas (exec i t) (fun u => u.print == t.print && u.pmc.waiting.length == 1 && u.paper.st == t.paper.st)
        && nextHas (exec i s) (fun u => u.print != s.print)
    held .tagReadComplete tag ∧ held .windowReadComplete window ∧ held .fetchComplete words ∧ held .shiftInStart staged
      ∧ held (.lineLatch 0) printing ∧ held .slewBegin slew := by decide
/-- FetchAndShiftRows (10.7): a host-written tag with a black count above 2048 and bits that name no field is read as written. -/
theorem test_FetchAndShiftRows_hostTag :
    let s := printable.setPrint { st := .printing, fetch := .tag 0, params := { threshold := 2 } }
    nextHas (exec .tagReadComplete (s.delivered .fetchTag [0xFFFF, 0x8000, 0x05F3, 0xFFFF])) (fun t =>
      t.print.fetch == .words 0 .a && t.print.bufA.line.tag == ⟨0xFFFF, 0x8000, 5, true, true, false, false⟩) := by decide
/-- ShiftUnitIsTheShift (R60): a head of 288 dots has two blocks, the second of 32 dots. -/
theorem test_ShiftUnitIsTheShift_blocks :
    (lineRecord { headWidth := 288 } {} ([1, 0, 0, 0, 0, 0, 0, 3, 7] : List Word)).blocks = [3, 3]
      ∧ (lineRecord { headWidth := 288 } {} ([1, 0, 0, 0, 0, 0, 0, 3, 7] : List Word)).total = 6 := by decide
/-- StrobePlan: counts at the bound of 256. -/
theorem test_StrobePlan : (∀ n ∈ [256, 0, 256], n ≤ 256) ∧ strobePlan 0 [256, 0, 256] = [⟨[0], 256⟩, ⟨[2], 256⟩] := by decide
/-- LineCycleRows, NoMoveUnderAPulse: a line is latched, its one phase fires and the advance of two steps begins. -/
theorem test_LineCycleRows :
    printing.paper.owner ≠ .host ∧ nextHas (exec (.lineLatch 0) printing) (fun t => t.print.firing && !t.paper.moving
      && (t.print.headLine.map (·.pulse)) == some 150 && t.print.headSt == .empty
      && nextHas (exec .phaseEnd t) (fun u => !u.print.firing && u.paper.st == .move && u.paper.remaining == some 2)) := by decide
/-- LineCycleRows, NoMoveUnderAPulse: between two phases the next one fires. -/
theorem test_LineCycleRows_gap :
    let h : HeadLine := ⟨{}, [⟨[0], 3⟩, ⟨[1], 3⟩], 9, 0, .firing⟩
    nextHas (exec .phaseEnd (printing.setPrint { printing.print with headLine := some h })) (fun t =>
      (t.print.headLine.map (·.cycle)) == some .gap
        && nextHas (exec .nextPhaseStart t) (fun u => u.print.firing && u.paper.st == .idle)) := by decide
/-- LineCycleRows: a pending slew begins, and an ending stream with nothing under way goes off. -/
theorem test_LineCycleRows_slew :
    let s := printing.setPrint { printing.print with headSt := .empty, slew := some ⟨3, 0, true, false⟩ }
    nextHas (exec .slewBegin s) (fun t => t.print.st == .slewing && t.paper.remaining == some 6)
      ∧ nextHas (exec .printStreamOff (s.setPrint { s.print with ending := some .stopped }))
          (fun t => t.print == {} && t.paper.owner == .host) := by decide

/-- LineCycleRows (R70): a run decided while a slew runs waits beside it; the running one's end releases its lines and leaves the
other. FetchAndShiftRows: the fetch point lies beyond the running run. -/
theorem test_LineCycleRows_twoSlews :
    let s := printable.setPrint { st := .slewing, slewing := some ⟨2, 0, false, false⟩, fetch := .window 2 {} 1
                                  params := { threshold := 2, k := 2 } }
    s.print.taken = 2
      ∧ nextHas (exec .windowReadComplete (s.delivered .fetchWindow [0, 0, 0, 0])) (fun t =>
        t.print.slew == some ⟨2, 2, false, false⟩ && t.print.slewing == some ⟨2, 0, false, false⟩ && t.print.taken == 4)
      ∧ let u := (s.setPrint { s.print with slew := some ⟨2, 2, false, false⟩, fetch := .idle }).setPaper
          { st := .hold, requested := some 4, taken := 4 }
        u.printMoveEnd.print.linesSlewed = 2 ∧ u.printMoveEnd.print.slewing = none ∧ u.printMoveEnd.print.st = .printing
          ∧ u.printMoveEnd.print.slew = some ⟨2, 2, false, false⟩ := by decide
/-- LineCycleRows (R76): a line that ends with nothing left counts an underrun, but not when a RESUME PRINT took it up. -/
theorem test_LineCycleRows_underrun :
    let l := (printing.setPrint { printing.print with headSt := .empty, headLine := some ⟨{}, [], 9, 0, .advancing⟩ }).setPaper
      { st := .hold, requested := some 2, taken := 2 }
    let s := l.setRings { l.rings with r0 := { l.rings.r0 with put := l.rings.r0.take + 1 } }
    s.printMoveEnd.print.underruns = 1 ∧ s.printMoveEnd.print.st = .waitLine
      ∧ (s.setPrint { s.print with owed := 2 }).printMoveEnd.print.underruns = 0
      ∧ (s.setPrint { s.print with owed := 2 }).printMoveEnd.print.st = .waitLine := by decide

/-- LineCycleRows: an unterminated page at a latch, a phase that ends cut, interrupted in PAUSED, and interrupted and resumed. -/
theorem test_LineCycleRows_phases :
    let u := printing.setPrint { printing.print with linesPrinted := 3, headRec := { tag := { pageStart := true } } }
    let f := printing.setPrint { printing.print with headLine := some ⟨{}, [⟨[0], 3⟩, ⟨[1], 3⟩], 9, 0, .firing⟩ }
    let i := f.setPrint { f.print with interrupted := some .line, owed := 2 }
    nextHas (exec (.lineLatch 0) u) (fun t => t.print.linesPrinted == 0 && t.cells.writing.length == 1 && t.paper.st == .move)
      ∧ nextHas (exec .phaseEnd (f.setPrint { f.print with cut := true })) (fun t => t.print.headLine == none)
      ∧ nextHas (exec .phaseEnd (i.setPrint { i.print with st := .paused })) (fun t =>
        t.print.headLine.map (·.cycle) == some .waiting && t.print.owed == 2)
      ∧ nextHas (exec .phaseEnd i) (fun t => t.paper.remaining == some 2 && t.print.interrupted == none) := by decide
/-- LineCycleRows: the end of a line's advance, of a page's last line (R71) and of its trailing feed after a resume into a HOT zone
(R76); a paused stream's cut move; a slew of an ending stream two lines short; a line that a RESUME took up (R77). -/
theorem test_LineCycleRows_ends :
    let hot := ready.setSense { list := [{ entry := ⟨3, 1, 40, 200, 10, .headTemp, false, false⟩, zone := .high }] }
    let l := (printing.setPrint { printing.print with headLine := some ⟨{}, [], 9, 0, .advancing⟩ }).setPaper
      { st := .hold, owner := .print, requested := some 2, taken := 2 }
    let e := l.setPrint { l.print with headLine := some ⟨{ tag := { endOfPage := true } }, [], 9, 0, .advancing⟩, owed := 2 }
    let c := l.setPaper { l.paper with taken := 1 }
    let i := c.setPrint { c.print with ending := some .stopped, interrupted := some .line }
    let w := (printing.setPrint { printing.print with st := .slewing, slewing := some ⟨3, 0, false, false⟩, ending := some .stopped
                                                      headSt := .empty }).setPaper { st := .hold, requested := some 6, taken := 3 }
    l.printMoveEnd.print.linesPrinted = 1 ∧ l.printMoveEnd.rings.r0.take = 1
      ∧ e.printMoveEnd.print.st = .trailingFeed ∧ e.printMoveEnd.paper.remaining = some 8
      ∧ (e.setSense hot.sense).printMoveEnd.print.pendHot = true
      ∧ ((e.setSense hot.sense).printMoveEnd.setPaper { l.paper with st := .hold }).printMoveEnd.print.st = .hot
      ∧ (c.setPrint { c.print with st := .paused }).printMoveEnd.print.owed = 1
      ∧ i.printMoveEnd.paper.remaining = some 1 ∧ i.printMoveEnd.print.headLine.isSome = true
      ∧ w.printMoveEnd.print.linesSlewed = 1 ∧ w.printMoveEnd.rings.r0.take = 1 := by decide

/-- HoldAndReleaseMotor: each channel's number, and one that is neither. -/
theorem test_HoldAndReleaseMotor :
    nextHas (exec (.holdMotor 9 1) (ready.given (.holdMotor 9 1))) (fun t => t.paper.st == .hold
        && nextHas (exec (.releaseMotor 9 1) (t.given (.releaseMotor 9 1))) (fun u => u.paper.st == .idle))
      ∧ 2 ≤ (2 : Byte).toNat ∧ ready.cells.stopAll = none := by decide
/-- MoveMotorRow: one step backwards on profile 0; profile 7 is empty; no step at all is a bad argument. -/
theorem test_MoveMotorRow :
    nextHas (exec (.moveMotor 9 0 1 0 1) (printable.given (.moveMotor 9 0 1 0 1)))
        (fun t => t.doc.st == .move && t.doc.direction == .back && t.doc.timer == some 2000)
      ∧ nextHas (exec (.moveMotor 9 0 1 7 1) (printable.given (.moveMotor 9 0 1 7 1))) (fun t => t.doc.st == .idle)
      ∧ nextHas (exec (.moveMotor 9 0 1 0 0) (printable.given (.moveMotor 9 0 1 0 0))) (fun t => t.doc.st == .idle) := by decide
/-- StepIntervalRow: a host move's last step but one, and its last, which is reported. -/
theorem test_StepIntervalRow :
    let s := printable.setDoc { st := .move, remaining := some 2, requested := some 2, timer := some 2000, tag := 9 }
    s.doc.moving = true ∧ s.doc.ramp < 2 ∧ nextHas (exec (.stepIntervalExpiry .doc) s) (fun t =>
      t.doc.ramp == 0 && t.doc.timer == some 2000 && t.doc.pattern == 2
        && nextHas (exec (.stepIntervalExpiry .doc) t) (fun u =>
          u.doc.st == .hold && u.doc.taken == 2 && u.cells.writing.length == 2)) := by decide

/-- StepIntervalRow (R84): the three rows of the ramp rule at their boundaries, the profile's end, and an unbounded run. -/
theorem test_StepIntervalRow_ramp :
    let c := fun (i : Nat) (remaining : Option Nat) =>
      (({ st := .run, ramp := i, remaining := remaining } : Channel).step .half [50, 40, 30]).ramp
    c 1 (some 2) = 0 ∧ c 1 (some 3) = 1 ∧ c 1 (some 4) = 2 ∧ c 2 (some 9) = 2 ∧ c 0 (some 1) = 0
      ∧ c 0 none = 1 ∧ c 2 none = 2
      ∧ (({ st := .run, remaining := none } : Channel).step .half [50, 40, 30]).timer = some 40
      ∧ (({ st := .run, remaining := none } : Channel).step .half [50, 40, 30]).st = .run := by decide

/-- StepIntervalRow: a scan stream's K-th step is a trigger, in each case of R29; the feed limit; a step at the page limit. -/
theorem test_StepIntervalRow_scan :
    let b := fun (x y : ScanBufState) => capturing.setScan { capturing.scan with bufA := { st := x }, bufB := { st := y } }
    let run := fun (s : State) => exec (.stepIntervalExpiry .doc) s
    capturing.doc.requester = .scan ∧ capturing.doc.owner = .scan ∧ capturing.doc.moving = true
      ∧ nextHas (run capturing) (fun t => t.scan.triggerCount == 2 && t.scan.lostOverrun == 1)
      ∧ nextHas (run (b .free .writing)) (fun t => t.scan.bufA.st == .readout)
      ∧ nextHas (run (b .writing .writing)) (fun t => t.scan.lostNoBuffer == 1 && t.scan.lostSinceWritten == 1)
      ∧ nextHas (run ((b .writing .writing).setScan { (b .writing .writing).scan with triggerCount := 8 }))
        (fun t => t.scan.st == .ending && t.scan.endReason == some .limit)
      ∧ nextHas (run (capturing.setScan { capturing.scan with st := .waitEdge }))
        (fun t => t.scan.st == .ending && t.scan.endReason == some .noDocument) := by decide
/-- StepIntervalRow: the DOC channel's last step under an ENDING stream, and a PAPER move's last step. -/
theorem test_StepIntervalRow_streams :
    let d := (capturing.setDoc { capturing.doc with st := .stopping, remaining := some 1 }).setScan
      { capturing.scan with st := .ending, endCell := .written }
    let p := (printing.setPrint { printing.print with headLine := some ⟨{}, [], 9, 0, .advancing⟩ }).setPaper
      { st := .move, owner := .print, requester := .print, requested := some 2, taken := 1, remaining := some 1, timer := some 9 }
    nextHas (exec (.stepIntervalExpiry .doc) d) (fun t => t.scan.st == .off && t.doc.owner == .host && t.doc.st == .hold)
      ∧ nextHas (exec (.stepIntervalExpiry .paper) p) (fun t => t.print.linesPrinted == 1 && t.paper.st == .hold) := by decide

/-- An installed list of two entries of no role, the first being converted in a normal sweep. -/
def sensing : State :=
  ready.setSense { list := [{ entry := ⟨3, 2, 40, 200, 10, .none, false, true⟩ }, { entry := ⟨4, 1, 0, 0, 0, .none, false, false⟩ }]
                   sweep := .normal 0, converting := true, periodTimer := true }

/-- ConversionRow: the first entry, its flags clear, is converted and the second one's conversion begins. -/
theorem test_ConversionRow :
    let s := sensing.setSense { sensing.sense with
      list := [{ entry := ⟨3, 2, 40, 200, 10, .none, false, false⟩, zone := .low }, { entry := ⟨4, 1, 0, 0, 0, .none, false, false⟩ }] }
    nextHas (exec (.conversionComplete 23) s) (fun t => t.sense.sweep == .normal 1 && t.sense.converting
        && (t.sense.list.head?.map (fun e => (e.reading, e.zone))) == some (46, .low))
      ∧ nextHas (exec (.conversionComplete 23) (s.setSense { s.sense with sweep := .none })) (fun t => !t.sense.converting) := by
  decide
/-- ConversionRow: a PAPER sensor that goes LOW in WAIT_LINE gives SENSE and then STREAM; the last entry ends the sweep. -/
theorem test_ConversionRow_paper :
    let s := (printing.setPrint { printing.print with st := .waitLine }).setSense
      { list := [{ entry := ⟨3, 1, 40, 200, 10, .paper, true, false⟩, zone := .mid }], sweep := .normal 0, converting := true }
    nextHas (exec (.conversionComplete 39) s) (fun t => t.print.st == .paused && t.sense.sweep == .none
      && ((t.pmc.waiting.take 2).map (fun b => b.data.head?)) == [some 5, some 3]) := by decide
/-- ConversionRow: the wake entry of a standby sweep, and its last one; SUPPLY LOW ends a host move. -/
theorem test_ConversionRow_standby :
    let w : Installed := { entry := ⟨3, 1, 40, 200, 10, .none, true, true⟩, zone := .mid }
    let s := (ready.setClk { power := .standby, core := .slowRc, needSense := true }).setSense
      { list := [w, w], sweep := .standby 0, converting := true }
    nextHas (exec (.conversionComplete 100) s) (fun t => t.sense.sweep == .standby 1
        && nextHas (exec (.conversionComplete 39) t) (fun u => u.sense.sweep == .none && u.clk.power == .leaving
          && !u.clk.needSense && u.cells.writing == []))
      ∧ ((ready.setDoc { st := .move, timer := some 9 }).zoneToBlocks .supply .low).doc.st = .hold
      ∧ ((ready.setDoc { st := .move, timer := some 9 }).zoneToBlocks .supply .low).cells.writing.length = 2 := by decide
/-- SweepRows: a period expiry in a sweep, with none, and with a pending list. -/
theorem test_SweepRows :
    let rest := sensing.setSense { sensing.sense with sweep := .none, converting := false }
    let table : SenseTable := { period := 5, standby := 8, entries := [⟨1, 1, 9, 9, 0, .cover, true, true⟩] }
    nextHas (exec .sweepPeriodExpiry sensing) (fun t => t.sense.owed)
      ∧ nextHas (exec .sweepPeriodExpiry rest) (fun t => t.sense.sweep == .normal 0 && t.sense.converting)
      ∧ nextHas (exec .sweepPeriodExpiry (rest.setSense { rest.sense with pendingList := some table }))
          (fun t => t.sense.list.length == 1 && t.sense.period == 5 && t.sense.pendingList == none) := by decide
/-- SweepRows: an empty list's sweep, an abandoned sweep's last conversion, a standby sweep whose first entry has no wake flag and
one with none. -/
theorem test_SweepRows_empty :
    let rest := sensing.setSense { sensing.sense with sweep := .none, converting := false }
    let run := fun (s : State) => exec .sweepPeriodExpiry s
    let w := fun (wake : Bool) => ({ entry := ⟨3, 2, 40, 200, 10, .none, false, wake⟩ } : Installed)
    let s := fun (l : List Installed) => (rest.setSense { rest.sense with list := l, standbyTimer := true }).setClk
      { power := .standby, core := .slowRc, fastRc := .starting, needSense := true }
    nextHas (run (rest.setSense { rest.sense with list := [] })) (fun t => t.sense.sweep == .none && t.cells.snapBusy)
      ∧ nextHas (run (rest.setSense { rest.sense with pendingList := some { period := 5, standby := 8, entries := [] } }))
        (fun t => t.sense.list == [] && t.sense.period == 5 && t.cells.snapBusy)
      ∧ nextHas (run (rest.setSense { rest.sense with converting := true })) (fun t => t.sense.converting && t.sense.sweep == .none
        && !t.sense.owed)
      ∧ nextHas (exec .fastRcRunning (s [w false, w true])) (fun t => t.sense.sweep == .standby 1 && t.sense.converting)
      ∧ nextHas (exec .fastRcRunning (s [w false])) (fun t => t.sense.sweep == .none && t.clk.fastRc == .stopped
        && !t.clk.needSense && !t.sense.standbyTimer) := by decide
/-- SweepRows: the standby timer asks for FAST_RC, and FAST_RC running serves the sweep or the leaving. -/
theorem test_SweepRows_standby :
    let s := (sensing.setSense { sensing.sense with sweep := .none, converting := false, standbyTimer := true, standby := 8 }).setClk
      { power := .standby, core := .slowRc, fastRc := .stopped }
    let l := (s.setClk { power := .leaving, core := .slowRc, fastRc := .starting, needLeave := true }).setPmc { st := .selfRefresh }
    nextHas (exec .standbyTimerExpiry s) (fun t => t.clk.needSense && t.clk.fastRc == .starting
        && nextHas (exec .fastRcRunning t) (fun u => u.sense.sweep == .standby 0 && u.clk.core == .slowRc))
      ∧ nextHas (exec .fastRcRunning l) (fun t => t.clk.core == .fastRc && t.pmc.st == .srExit && t.pmc.burstRem == 7) := by decide
/-- LineInputRows: a run of two edges qualifies, ends and is silenced; a run of one is a click. -/
theorem test_LineInputRows :
    let s := ready.setLines { watching := true }
    nextHas (exec .ringEdge s) (fun t => t.lines.qual == .counting
      && nextHas (exec .edgeGapExpiry t) (fun u => u.lines.qual == .idle)
      && nextHas (exec .ringEdge t) (fun u => u.lines.qual == .qualified && u.lines.ringCount == 1
        && nextHas (exec .ringEdge u) (fun v => v.lines.burstEndTimer)
        && nextHas (exec .burstEndExpiry u) (fun v => v.lines.silenceTimer
          && nextHas (exec .silenceTimerExpiry v) (fun w => w.lines.ringCount == 0)))) := by decide
/-- LineInputRows: the handset lifted and the key pressed, debounced. -/
theorem test_LineInputRows_debounce :
    let s := ready.setLines { watching := true, ringCount := 2 }
    nextHas (exec (.inputLevelChange .hook true) s) (fun t => t.lines.hook.timer
        && nextHas (exec (.debounceExpiry .hook) t) (fun u => u.lines.hook.stable && u.lines.ringCount == 0
          && u.cells.writing.length == 1))
      ∧ nextHas (exec (.inputLevelChange .key true) s) (fun t => t.lines.key.timer
        && nextHas (exec (.debounceExpiry .key) t) (fun u => u.lines.key.stable && u.cells.writing.length == 1)) := by decide

/-- LineInputRows: a burst and a handset lifted in STANDBY hand no cell and wake the part. -/
theorem test_LineInputRows_standby :
    let s := (ready.setClk { power := .standby }).setLines { watching := true, qual := .counting, edges := 1 }
    nextHas (exec .ringEdge s) (fun t => t.clk.power == .leaving && t.clk.wakeLatch == some ⟨.ring 1, false⟩ && t.cells.writing == [])
      ∧ nextHas (exec (.debounceExpiry .hook) (s.setLines { hook := ⟨true, false, true⟩ }))
        (fun t => t.clk.wakeLatch == some ⟨.hook true, false⟩ && t.cells.writing == []) := by decide

/-- A board with a crystal and its multiple, the clock monitor on. -/
def crystalBoard : State := ready.setCfg { ready.cfg with preX := 16, preX2 := 32, monitor := true }

/-- SwitchClockRow: each first stage, and a target that is the core source, not fitted or no target. -/
theorem test_SwitchClockRow :
    let run := fun (s : State) (i : Instr) => exec i (s.given i)
    nextHas (run crystalBoard (.switchClock 9 1)) (fun t => t.clk.sw.st == .starting
        && nextHas (exec .settleCountReached t) (fun u => u.clk.sw.st == .locking
          && nextHas (exec .pllLock u) (fun v => v.clk.sw.st == .waitQuiet && v.sense.hold)))
      ∧ nextHas (run crystalBoard (.switchClock 9 0)) (fun t =>
          nextHas (exec .settleCountReached t) (fun u => u.clk.sw.st == .waitQuiet))
      ∧ nextHas (run ready (.switchClock 9 0)) (fun t => t.clk.sw.st == .none)
      ∧ nextHas (run crystalBoard (.switchClock 9 2)) (fun t => t.clk == crystalBoard.clk)
      ∧ nextHas (run crystalBoard (.switchClock 9 3)) (fun t => t.clk == crystalBoard.clk) := by decide
/-- SwitchEndRows: a switch to the crystal completes; the three failures. -/
theorem test_SwitchEndRows :
    let s := crystalBoard.setClk { crystal := .running, sw := ⟨.waitQuiet, some .crystal, some .command, 9⟩ }
    let b := crystalBoard.setClk { crystal := .starting, sw := ⟨.starting, some .crystal, some .boot, 0⟩ }
    let l := crystalBoard.setClk { crystal := .running, pll := .locking, sw := ⟨.locking, some .crystalX2, some .wake, 0⟩ }
    s.quiet = true ∧ nextHas (exec .switchComplete s) (fun t => t.clk.core == .crystal && t.cells.writing.length == 2)
      ∧ nextHas (exec .startWindowExpiry b) (fun t => t.clk.failed && t.clk.crystal == .stopped && t.clk.sw == {})
      ∧ nextHas (exec .lockWindowExpiry l) (fun t => !t.clk.failed && t.clk.pll == .stopped)
      ∧ nextHas (exec .lossWindowExpiry s) (fun t => t.clk.core == .fastRc && !t.clk.failed && t.cells.writing.length == 2) := by
  decide
/-- SwitchEndRows, CoreSourceChanges: the crystal lost under a running motor. -/
theorem test_SwitchEndRows_loss :
    let s := (crystalBoard.setClk { core := .crystal, crystal := .running }).setDoc { st := .move, timer := some 20 }
    nextHas (exec .lossWindowExpiry s) (fun t => t.clk.core == .fastRc && t.clk.failed && t.doc.st == .hold) := by decide

/-- SwitchEndRows: the crystal lost while a switch to its multiple is pending: that switch's cells, then the failure's. -/
theorem test_SwitchEndRows_lossPending :
    let s := crystalBoard.setClk { core := .crystal, crystal := .running, pll := .locking, sw := ⟨.locking, some .crystalX2, some .wake, 0⟩ }
    nextHas (exec .lossWindowExpiry s) (fun t => t.clk.sw == {} && t.cells.writing.length == 2
      && (t.pmc.waiting.map (fun b => halvesToBytes (b.data.take 4)))
        == [[9, 0, 7, 1, 3, 1, 2, 1], [9, 0, 7, 3, 3, 0xFF, 2, 1]]) := by decide
/-- SetPowerRow: RUN, SLOW at the largest ratio, STANDBY with a held motor, and a target of 3. -/
theorem test_SetPowerRow :
    let s := ready.setDoc { st := .hold }
    let run := fun (i : Instr) => exec i (s.given i)
    2 ^ 7 ≤ min 128 (max 1 (0xFFFF : Half).toNat) ∧ min 128 (max 1 (0xFFFF : Half).toNat) < 2 ^ 8
      ∧ nextHas (run (.setPower 9 1 true 0xFFFF 0)) (fun t => t.clk.power == .slow && t.clk.ratio == 128)
      ∧ nextHas (run (.setPower 9 0 true 0 0)) (fun t => t.clk.power == .run && !t.clk.snapBack)
      ∧ nextHas (run (.setPower 9 2 true 0 480)) (fun t => t.clk.power == .entering && t.clk.wakeSetting == 480
          && t.doc.released && t.doc.st == .idle)
      ∧ nextHas (run (.setPower 9 3 true 0 0)) (fun t => t.clk == s.clk) := by decide
/-- SetPowerRow: a refused SET POWER's DONE carries the state and ratio; an entry drops a standby sweep's need of FAST_RC. -/
theorem test_SetPowerRow_refused :
    let s := ready.setClk { power := .slow, ratio := 64, needSense := true }
    nextHas (exec (.setPower 9 3 false 0 0) (s.given (.setPower 9 3 false 0 0)))
        (fun t => (t.pmc.waiting.head?.map (fun b => b.data.take 3)) == some [0x0900, 0x0E03, 0x4001])
      ∧ nextHas (exec (.setPower 9 2 false 0 0) (s.given (.setPower 9 2 false 0 0))) (fun t => !t.clk.needSense) := by decide
/-- StandbyRows, StandbyHeldKept: into STANDBY and out of it by the wake timer, as the rows follow each other. -/
theorem test_StandbyRows :
    let s := ready.setClk { power := .entering, doneWritten := true, wakeSetting := 1 }
    nextHas (exec .hostClockStop s) (fun t => !t.clk.hostClk && t.pmc.st == .srEntry && t.standbyHeld
      && nextHas (exec .selfRefreshEntry t) (fun u => nextHas (exec .standbyEntry u) (fun v => v.clk.core == .slowRc
        && v.clk.power == .standby && v.clk.wakeTimer && v.standbyHeld
        && nextHas (exec .wakeTimerExpiry v) (fun w => w.clk.power == .leaving && w.clk.fastRc == .starting
          && w.standbyHeld)))) := by decide
/-- StandbyRows: memory is back, on leaving with a crystal before and on an abandoned entry. -/
theorem test_StandbyRows_back :
    let x : Pmc := { ready.pmc with st := .srExit }
    let l := (ready.setPmc x).setClk { power := .leaving, hostClk := false, wakeLatch := some ⟨.key, false⟩
                                       sourceBefore := some .crystal }
    let a := ((ready.setPmc x).setClk { power := .entering, entrySent := true, hostClk := false
                                        wakeLatch := some ⟨.hook true, true⟩ }).setPaper { released := true }
    nextHas (exec .refreshBurstDone l) (fun t => t.clk.power == .run && t.clk.hostClk && t.clk.sw.origin == some .wake
        && t.clk.sourceBefore == none && t.cells.writing.length == 1)
      ∧ nextHas (exec .refreshBurstDone a) (fun t => t.clk.power == .run && t.clk.hostClk && t.paper.st == .hold
        && t.cells.writing.length == 1) := by decide

/-- StandbyRows: wake causes in SLOW with snap-back, in ENTERING at each stage, and in STANDBY with FAST_RC running. -/
theorem test_StandbyRows_wake :
    let e := fun (sent : Bool) (st : PmcState) => (ready.setClk { power := .entering, entrySent := sent }).setPmc { ready.pmc with st := st }
    ((ready.setClk { power := .slow, ratio := 8, snapBack := true }).wake .key).clk.ratio = 1
      ∧ ((e false .running).wake .key).clk.power = .run ∧ ((e true .srEntry).wake .key).pmc.st = .running
      ∧ ((e true .selfRefresh).wake .key).pmc.st = .srExit ∧ ((e true .selfRefresh).wake .key).clk.power = .entering
      ∧ (((ready.setClk { power := .standby, core := .slowRc }).setPmc { st := .selfRefresh }).wake .key).clk.core = .fastRc := by
  decide

/-- StandbyRows (R158, R193): the WAKE cells of KEY and RING, their absent bytes FF hex. -/
theorem test_StandbyRows_cells :
    let s := ready.setClk { power := .slow, ratio := 8, snapBack := true }
    let cell := fun (c : WakeCause) => (s.wake c).pmc.waiting.map (fun b => halvesToBytes (b.data.take 4))
    cell .key = [[8, 0, 0, 3, 1, 0, 0xFF, 0xFF]] ∧ cell (.ring 2) = [[8, 0, 0, 1, 1, 0, 2, 0xFF]] := by decide
/-- A boot state in a walk of three records, at the second. -/
def booting (st : BootState) : State :=
  { cfg := ready.cfg, boot := { st := st, recordCount := 3, position := 2, romAddr := 50 }, pins := { resetHigh := true } }

/-- Halfwords as a serial ROM drives them, and a record header and image data of it. -/
def rom (hs : List Half) : List (Option Byte) := (halvesToBytes hs).map some
def record (typeAndTable : Half) (length destination : List Half) (check : Half) (image : List Half) : Instr :=
  .recordHeaderRead (rom [typeAndTable]) (rom length) (rom destination) (rom [check]) (rom image)

/-- BootHeaderRows: the three cold start rows, the ROM header and the FAULT pulses. -/
theorem test_BootHeaderRows :
    ready.pmc.act = .free ∧ nextHas (exec .resetPinLow ready) (fun t => t.boot.cause == .resetPin && t.boot.st == .reset
        && t.boot.hostReset && nextHas (exec .resetPinHigh t) (fun u => u.boot.st == .romRead))
      ∧ nextHas (exec (.romHeaderRead [some 0x2C, some 0xB6] (rom [16])) (booting .romRead)) (fun t => t.boot.st == .config && t.boot.recordCount == 16)
      ∧ nextHas (exec (.romHeaderRead [] []) (booting .romRead)) (fun t => t.boot.code == 1 && t.boot.fault
        && nextHas (exec .faultPulseTimerExpiry t) (fun u => !u.boot.fault && u.boot.faultMs == 1000)) := by decide
/-- BootHeaderRows: record headers in CONFIG, TABLES and HOST_IMAGE, the last record that fits the ROM and one that does not. -/
theorem test_BootHeaderRows_records :
    nextHas (exec (record 0 [17, 0] [0, 0] 5 []) (booting .config)) (fun t => t.boot.header.isSome)
      ∧ nextHas (exec (record 0x0201 [19, 0] [0, 0] 5 []) (booting .tables)) (fun t => t.boot.header.isSome)
      ∧ nextHas (exec (record 3 [0, 0] [0, 0] 0 []) (booting .tables)) (fun t => t.boot.st == .hostImage)
      ∧ nextHas (exec (record 2 [1, 0] [65534, 7] 5 [5]) (booting .hostImage))
          (fun t => t.boot.imageSum == 5 && t.pmc.waiting.length == 1)
      ∧ nextHas (exec (record 2 [1, 0] [0, 8] 5 [5]) (booting .hostImage)) (fun t => t.boot.code == 4)
      ∧ nextHas (exec (record 4 [1, 0] [0, 0] 0 []) (booting .tables)) (fun t => t.boot.code == 3)
      ∧ nextHas (exec (record 3 [0, 0] [0, 0] 0 []) ((booting .tables).setBoot { (booting .tables).boot with romAddr := 0xFFFFF5 }))
          (fun t => t.boot.code == 3) := by decide

/-- BootHeaderRows: an undriven byte is all ones; a TABLE record of any length but 0 is read; the last record ends each walk. -/
theorem test_BootHeaderRows_walks :
    let last := fun (st : BootState) (images : Nat) => (booting st).setBoot { (booting st).boot with position := 3, images := images }
    romHalves 2 [some 0x34, none, some 0x12] = [0xFF34, 0xFF12]
      ∧ nextHas (exec (record 0x0201 [1, 8] [0, 0] 5 []) (booting .tables)) (fun t => t.boot.header.isSome)
      ∧ nextHas (exec (record 0x0201 [0, 0] [0, 0] 5 []) (last .tables 0)) (fun t => t.boot.st == .hostImage && t.boot.defaulted == 4)
      ∧ nextHas (exec (record 1 [9, 0] [0, 0] 5 []) (last .hostImage 0)) (fun t => t.boot.code == 4)
      ∧ nextHas (exec (record 1 [9, 0] [0, 0] 5 []) (last .hostImage 1)) (fun t => t.boot.st == .release && t.boot.position == 3)
      ∧ nextHas (exec (record 3 [0, 0] [0, 0] 0 []) ((last .hostImage 1).setBoot { (last .hostImage 1).boot with position := 2 }))
        (fun t => t.boot.st == .release) := by decide

/-- The 17 halfwords of a configuration record for 512 KB, a crystal of prescaler 16 and the smallest cell rings. -/
def configData : List Half :=
  [0x0100, 512, 0x0101, 0x0101, 0x000F, 0x0010, 0x0008, 0x0101, 0x0001, 0x0000, 0x0202, 0x0802, 0x0001, 16, 16, 0x0000, 0x0007]

/-- BootDataRows: the configuration record in force, with its crystal as initial source, and memory starting. -/
theorem test_BootDataRows_config :
    let h : RecordHeader := ⟨.config, 0, 17, 0, checkSum configData⟩
    let s := (booting .config).setBoot { (booting .config).boot with header := some h }
    s.pmc = {} ∧ nextHas (exec (.configRecordRead (rom configData)) s) (fun t => t.boot.st == .memoryUp && t.clk.sw.st == .starting
        && t.pmc.st == .starting && t.pmc.burstRem == 7 && t.cfg.cbAddr == 0x70000 && t.cfg.memSize == 0x80000)
      ∧ nextHas (exec (.configRecordRead (rom (configData.map (· + 1)))) s) (fun t => t.boot.code == 2) := by decide
/-- TableSources: the configuration record's fields, and one whose control area passes memory by one cell. -/
theorem test_TableSources_config :
    (parseConfig configData).isSome = true ∧ parseConfig (configData.set 4 0x0007) = none
      ∧ (parseConfig ((configData.set 15 0xFD00).set 14 16)).isSome = true
      ∧ parseConfig ((configData.set 15 0xFD00).set 14 17) = none := by decide
/-- BootDataRows: memory RUNNING, with records and with none. -/
theorem test_BootDataRows_memory :
    let s := (booting .memoryUp).setPmc { st := .starting, refreshTimer := true }
    nextHas (exec .refreshBurstDone s) (fun t => t.boot.st == .tables && t.pmc.st == .running)
      ∧ nextHas (exec .refreshBurstDone (s.setBoot { s.boot with recordCount := 1 })) (fun t => t.boot.code == 4) := by decide
/-- BootDataRows: a good profile, and one whose sum is wrong. -/
theorem test_BootDataRows_table :
    let s := fun (check : Half) => (booting .tables).setBoot { (booting .tables).boot with header := some ⟨.table, 4, 2, 0, check⟩ }
    nextHas (exec (.tableRecordRead (rom [1, 20])) (s 21)) (fun t => t.tables.profiles.head? == some [20] && t.boot.position == 3)
      ∧ nextHas (exec (.tableRecordRead (rom [1, 20])) (s 22)) (fun t => t.tables.profiles.head? == some [] && t.boot.defaulted == 0x10) := by
  decide
/-- BootDataRows: the last record of the first walk, a table of no table id, leads to HOST_IMAGE. -/
theorem test_BootDataRows_last :
    let s := (booting .tables).setBoot { (booting .tables).boot with position := 3, header := some ⟨.table, 12, 1, 0, 7⟩ }
    nextHas (exec (.tableRecordRead (rom [7])) s) (fun t => t.boot.st == .hostImage && t.boot.position == 2 && t.boot.romAddr == 50
      && t.boot.defaulted == 0 && t.tables.loadArea == [7]) := by decide
/-- BootDataRows, HostHeldKept: the last image acknowledged, RELEASE, and the host released. -/
theorem test_BootDataRows_release :
    let b := (booting .hostImage).boot
    let s := (booting .hostImage).setBoot { b with position := 3, header := some ⟨.hostImage, 0, 1, 0, 5⟩, imageSum := 5 }
    s.pmc.inbox = [] ∧ s.hostHeld = true
      ∧ nextHas (exec .imageWritesAcknowledged (s.delivered .bootImage [])) (fun t => t.boot.st == .release && t.lines.watching
        && t.hostHeld && nextHas (exec .releaseWritesAcknowledged (t.delivered .bootInit []))
          (fun u => u.boot.st == .ready && !u.boot.hostReset && u.cells.taking == .taking && u.hostHeld))
      ∧ nextHas (exec .imageWritesAcknowledged ((s.setBoot { s.boot with imageSum := 6 }).delivered .bootImage []))
          (fun t => t.boot.code == 4 && t.boot.hostReset) := by decide
/-- BootDataRows: REBOOT stops the taking of commands; a code that names no command is answered. -/
theorem test_BootDataRows_reboot :
    nextHas (exec (.reboot 9) (ready.given (.reboot 9))) (fun t => t.cells.taking == .stopped && t.cells.writing == [⟨0, .reboot⟩])
      ∧ nextHas (exec (.unknownCommand 9 0x12) (ready.given (.unknownCommand 9 0x12))) (fun t => t.cells.writing.length == 1) := by
  decide
/-- CellRoundTrip: a well-formed host command, and a cell that names none. -/
theorem test_CellRoundTrip :
    WellFormed (.setRing 9 0 0 1 2 1 0x1000) = true ∧ (commandCode (.setRing 9 0 0 1 2 1 0x1000)).isSome = true
      ∧ WellFormed (.unknownCommand 9 0x12) = true ∧ commandCode .accessEnd = none := by decide

end Sys2Proof.Tests
end

