-- ==== Sys2Proof/Proofs/StrobePlan.lean ====
section
/-! The strobe planner (R62). The planner is restated over a count function and a run of consecutive blocks (`planOver`), so
that each fact about it is one induction over the number of blocks still to place, along the planner's own choice: the next
block joins the open phase, or closes it. -/

namespace Sys2Proof.Machine

open Sys2Proof

/-! ### A block that joins a phase -/

@[simp] theorem Phase.join_dots (p : Phase) (b n : Nat) : (p.join b n).dots = p.dots + n := rfl

theorem Phase.join_blocks (p : Phase) (b n : Nat) :
    (p.join b n).blocks = p.blocks ++ (if 0 < n then [b] else []) := by
  rcases n.eq_zero_or_pos with rfl | hn
  · simp [Phase.join]
  · simp [Phase.join, hn, hn.ne']

/-- The phase has the dots of the blocks it drives, and they are within the budget. -/
structure Phase.Fits (c : Nat → Nat) (budget : Nat) (p : Phase) : Prop where
  dots_eq : p.dots = (p.blocks.map c).sum
  dots_le : p.dots ≤ budget

section
variable {c : Nat → Nat} {budget : Nat}

theorem Phase.fits_empty : Phase.Fits c budget ⟨[], 0⟩ := ⟨rfl, budget.zero_le⟩

theorem Phase.Fits.join {p : Phase} {b : Nat} (hp : p.Fits c budget) (hle : p.dots + c b ≤ budget) :
    (p.join b (c b)).Fits c budget where
  dots_eq := by
    rw [Phase.join_dots, hp.dots_eq, Phase.join_blocks]
    rcases (c b).eq_zero_or_pos with hwhite | hblack
    · simp [hwhite]
    · simp [hblack]
  dots_le := hle

end

/-! ### The planner over a run of blocks -/

/-- The planner with the phase `cur` open and the `k` blocks from `b` on, of the counts `c`, still to place. -/
def planOver (c : Nat → Nat) (budget : Nat) (cur : Phase) (b k : Nat) : List Phase :=
  planFrom budget cur b ((List.range' b k).map c)

section
variable {c : Nat → Nat} {budget : Nat}

theorem planOver_zero (cur : Phase) (b : Nat) : planOver c budget cur b 0 = [cur] := rfl

theorem planOver_joins {cur : Phase} {b : Nat} (k : Nat) (h : cur.dots + c b ≤ budget) :
    planOver c budget cur b (k + 1) = planOver c budget (cur.join b (c b)) (b + 1) k := by
  simp [planOver, List.range'_succ, planFrom, h]

theorem planOver_closes {cur : Phase} {b : Nat} (k : Nat) (h : ¬ cur.dots + c b ≤ budget) :
    planOver c budget cur b (k + 1) = cur :: planOver c budget (Phase.join ⟨[], 0⟩ b (c b)) (b + 1) k := by
  simp [planOver, List.range'_succ, planFrom, h]

/-- A block that joins a phase is the first of the blocks to come. -/
theorem join_blocks_append_filter (p : Phase) (b k : Nat) :
    (p.join b (c b)).blocks ++ (List.range' (b + 1) k).filter (fun i => decide (0 < c i))
      = p.blocks ++ (List.range' b (k + 1)).filter (fun i => decide (0 < c i)) := by
  rw [Phase.join_blocks, List.range'_succ, List.filter_cons, List.append_assoc]
  rcases (c b).eq_zero_or_pos with hwhite | hblack
  · simp [hwhite]
  · simp [hblack]

/-- Together the phases drive what the open phase drives already and the blocks to come with a black dot, in order. -/
theorem planOver_blocks (cur : Phase) (b k : Nat) : (planOver c budget cur b k).flatMap (·.blocks)
      = cur.blocks ++ (List.range' b k).filter (fun i => decide (0 < c i)) := by
  induction k generalizing cur b with
  | zero => simp [planOver_zero]
  | succ k ih =>
    by_cases h : cur.dots + c b ≤ budget
    · rw [planOver_joins k h, ih, join_blocks_append_filter]
    · rw [planOver_closes k h, List.flatMap_cons, ih, join_blocks_append_filter, List.nil_append]

theorem planOver_fits (hc : ∀ i, c i ≤ budget) {cur : Phase} (hcur : cur.Fits c budget) (b k : Nat) :
    ∀ p ∈ planOver c budget cur b k, p.Fits c budget := by
  induction k generalizing cur b with
  | zero => simpa [planOver_zero] using hcur
  | succ k ih =>
    by_cases h : cur.dots + c b ≤ budget
    · rw [planOver_joins k h]
      exact ih (hcur.join h) _
    · have hopen : (Phase.join ⟨[], 0⟩ b (c b)).Fits c budget := Phase.fits_empty.join (by simpa using hc b)
      rw [planOver_closes k h, List.forall_mem_cons]
      exact ⟨hcur, ih hopen _⟩

/-- A block is refused by a phase within the budget only if it has a black dot, so it opens a phase of dots. -/
theorem count_pos_of_closes {cur : Phase} {b : Nat} (hcur : cur.dots ≤ budget) (h : ¬ cur.dots + c b ≤ budget) :
    0 < c b := by
  omega

theorem planOver_dots_pos {cur : Phase} (hpos : 0 < cur.dots) (hc : ∀ i, c i ≤ budget) (hcur : cur.dots ≤ budget)
    (b k : Nat) : ∀ p ∈ planOver c budget cur b k, 0 < p.dots := by
  induction k generalizing cur b with
  | zero => simpa [planOver_zero] using hpos
  | succ k ih =>
    by_cases h : cur.dots + c b ≤ budget
    · rw [planOver_joins k h]
      exact ih (Nat.add_pos_left hpos _) h _
    · have hb : 0 < (Phase.join ⟨[], 0⟩ b (c b)).dots := by
        simpa using count_pos_of_closes hcur h
      rw [planOver_closes k h, List.forall_mem_cons]
      exact ⟨hpos, ih hb (by simpa using hc b) _⟩

/-- From the empty phase: the line is white and its one phase is empty, or every phase has a dot. -/
theorem planOver_empty_cases (hc : ∀ i, c i ≤ budget) (b k : Nat) :
    planOver c budget ⟨[], 0⟩ b k = [⟨[], 0⟩] ∨ ∀ p ∈ planOver c budget ⟨[], 0⟩ b k, 0 < p.dots := by
  induction k generalizing b with
  | zero => exact .inl rfl
  | succ k ih =>
    rw [planOver_joins k (by simpa using hc b)]
    rcases (c b).eq_zero_or_pos with hwhite | hblack
    · simpa [hwhite, Phase.join] using ih (b + 1)
    · exact .inr (planOver_dots_pos (by simpa) hc (by simpa using hc b) _ _)

/-- The open phase keeps its first blocks: it becomes the plan's first phase. -/
theorem planOver_head_prefix (cur : Phase) (b k : Nat) :
    ∀ q ∈ (planOver c budget cur b k).head?, cur.blocks <+: q.blocks := by
  induction k generalizing cur b with
  | zero => simp [planOver_zero]
  | succ k ih =>
    by_cases h : cur.dots + c b ≤ budget
    · rw [planOver_joins k h]
      intro q hq
      have hjoin : cur.blocks <+: (cur.join b (c b)).blocks := by
        rw [Phase.join_blocks]
        exact List.prefix_append _ _
      exact hjoin.trans (ih _ _ q hq)
    · simp [planOver_closes k h]

/-- The block that opens the phase `q` would have taken the phase `p` before it above the budget. -/
def OpensOver (c : Nat → Nat) (budget : Nat) (p q : Phase) : Prop :=
  ∀ b, q.blocks.head? = some b → budget < p.dots + c b

theorem planOver_isChain (hc : ∀ i, c i ≤ budget) {cur : Phase} (hcur : cur.dots ≤ budget) (b k : Nat) :
    (planOver c budget cur b k).IsChain (OpensOver c budget) := by
  induction k generalizing cur b with
  | zero => exact .singleton _
  | succ k ih =>
    by_cases h : cur.dots + c b ≤ budget
    · rw [planOver_joins k h]
      exact ih h _
    · have hopen : (Phase.join ⟨[], 0⟩ b (c b)).blocks = [b] := by
        simp [Phase.join_blocks, count_pos_of_closes hcur h]
      rw [planOver_closes k h, List.isChain_cons]
      refine ⟨fun q hq i hi => ?_, ih (by simpa using hc b) _⟩
      have hprefix : [b] <+: q.blocks := hopen ▸ planOver_head_prefix _ _ _ q hq
      obtain rfl : b = i := by
        obtain ⟨rest, hrest⟩ := hprefix
        simpa [← hrest] using hi
      exact Nat.lt_of_not_le h

end

/-! ### A line's plan -/

section
variable {counts : List Nat}

theorem getD_mem_or_eq_zero (counts : List Nat) (i : Nat) : counts.getD i 0 ∈ counts ∨ counts.getD i 0 = 0 := by
  rcases Nat.lt_or_ge i counts.length with hi | hi
  · exact .inl (by simp [hi])
  · exact .inr (by simp [hi])

theorem getD_le_effectiveBudget (hc : ∀ n ∈ counts, n ≤ 256) (d i : Nat) : counts.getD i 0 ≤ effectiveBudget d := by
  have hle : counts.getD i 0 ≤ 256 := by
    rcases getD_mem_or_eq_zero counts i with hmem | hzero
    · exact hc _ hmem
    · omega
  exact hle.trans (Nat.le_max_right d 256)

theorem map_getD_range' (counts : List Nat) : (List.range' 0 counts.length).map (counts.getD · 0) = counts := by
  apply List.ext_getElem
  · simp
  · intro i _ hi
    simp [hi]

/-- A line's plan is the whole line placed from the empty phase, less a phase with no dots. -/
theorem strobePlan_eq (hc : ∀ n ∈ counts, n ≤ 256) (d : Nat) : strobePlan d counts
      = (planOver (counts.getD · 0) (effectiveBudget d) ⟨[], 0⟩ 0 counts.length).filter (fun p => 0 < p.dots) := by
  rw [planOver, map_getD_range']
  cases counts with
  | nil => rfl
  | cons n rest =>
    have hn : 0 + n ≤ effectiveBudget d := by simpa using getD_le_effectiveBudget hc d 0
    simp only [strobePlan, planFrom, if_pos hn]

/-- The filter takes out the one empty phase of a white line, or nothing. -/
theorem strobePlan_cases (hc : ∀ n ∈ counts, n ≤ 256) (d : Nat) :
    (strobePlan d counts = [] ∧ planOver (counts.getD · 0) (effectiveBudget d) ⟨[], 0⟩ 0 counts.length = [⟨[], 0⟩])
      ∨ strobePlan d counts = planOver (counts.getD · 0) (effectiveBudget d) ⟨[], 0⟩ 0 counts.length := by
  rw [strobePlan_eq hc d]
  rcases planOver_empty_cases (getD_le_effectiveBudget hc d) 0 counts.length with hwhite | hpos
  · exact .inl ⟨by rw [hwhite]; rfl, hwhite⟩
  · exact .inr (List.filter_eq_self.2 (by simpa using hpos))

theorem strobePlan_blocks (hc : ∀ n ∈ counts, n ≤ 256) (d : Nat) : (strobePlan d counts).flatMap (·.blocks)
      = (List.range counts.length).filter (fun b => decide (0 < counts.getD b 0)) := by
  have hblocks := planOver_blocks (c := (counts.getD · 0)) (budget := effectiveBudget d) ⟨[], 0⟩ 0 counts.length
  rw [List.nil_append, ← List.range_eq_range'] at hblocks
  rw [← hblocks]
  rcases strobePlan_cases hc d with ⟨hnone, hwhite⟩ | hplan
  · rw [hnone, hwhite]
    rfl
  · rw [hplan]

theorem strobePlan_fits (hc : ∀ n ∈ counts, n ≤ 256) (d : Nat) :
    ∀ p ∈ strobePlan d counts, p.Fits (counts.getD · 0) (effectiveBudget d) ∧ 0 < p.dots := by
  intro p hp
  rw [strobePlan_eq hc d, List.mem_filter] at hp
  obtain ⟨hmem, hpos⟩ := hp
  exact ⟨planOver_fits (getD_le_effectiveBudget hc d) Phase.fits_empty _ _ p hmem, by simpa using hpos⟩

theorem strobePlan_isChain (hc : ∀ n ∈ counts, n ≤ 256) (d : Nat) :
    (strobePlan d counts).IsChain (OpensOver (counts.getD · 0) (effectiveBudget d)) := by
  rcases strobePlan_cases hc d with ⟨hnone, _⟩ | hplan
  · rw [hnone]
    exact .nil
  · rw [hplan]
    exact planOver_isChain (getD_le_effectiveBudget hc d) (Nat.zero_le _) _ _

/-- A white line fires no phase: a phase's dots are counts of the line, and none of those is above 0. -/
theorem strobePlan_of_white (hwhite : ∀ n ∈ counts, n = 0) (d : Nat) : strobePlan d counts = [] := by
  have hc : ∀ n ∈ counts, n ≤ 256 := fun n hn => by simp [hwhite n hn]
  have hcount : ∀ i, counts.getD i 0 = 0 := fun i => by
    rcases getD_mem_or_eq_zero counts i with hmem | hzero
    · exact hwhite _ hmem
    · exact hzero
  refine List.eq_nil_iff_forall_not_mem.2 fun p hp => ?_
  obtain ⟨hfits, hpos⟩ := strobePlan_fits hc d p hp
  have hzero : p.dots = 0 := by simp only [hfits.dots_eq, hcount, List.map_const', List.sum_replicate, smul_zero]
  omega

end

end Sys2Proof.Machine

namespace Sys2Proof.Proofs

open Sys2Proof Sys2Proof.Machine

/-- Settles O42: the plan's blocks, its phases' dots, its closed phases and the white line, each from its own lemma. -/
theorem strobePlan : Obligations.StrobePlan := by
  intro budget counts hc
  refine ⟨strobePlan_blocks hc budget, fun p hp => ?_, ?_, fun hwhite => strobePlan_of_white hwhite budget⟩
  · obtain ⟨hfits, hpos⟩ := strobePlan_fits hc budget p hp
    exact ⟨hfits.dots_eq, hpos, hfits.dots_le⟩
  · intro before after p q b hplan hb
    have hchain := strobePlan_isChain hc budget
    rw [hplan, List.isChain_append_cons_cons] at hchain
    obtain ⟨_, hopens, _⟩ := hchain
    exact hopens b hb

end Sys2Proof.Proofs
end

