-- ==== Sys2Proof/Proofs/HoldAndReleaseMotor.lean ====
section
/-! HOLD MOTOR and RELEASE MOTOR (R94, R95). Each row is said once: a channel number that names no channel, a channel its
checks refuse, and a channel they accept. The obligation's chain of results is then the chain of `checkHold` and
`checkRelease`, branch by branch. -/

namespace Sys2Proof.Machine

open Sys2Proof

/-! ### The channel a number names -/

theorem chanOf_of_two_le {n : Nat} (h : 2 ≤ n) : chanOf n = none := by
  match n with
  | _ + 2 => rfl

@[simp] theorem chanOf_chanCode (ch : Chan) : chanOf (chanCode ch) = some ch := by
  cases ch <;> rfl

/-! ### The phase outputs (R80) -/

theorem Channel.phases_of_idle {c : Channel} (h : c.st = .idle) : c.phases = (false, false, false, false) := by
  rw [Channel.phases, h]

theorem Channel.phases_of_ne_idle {c : Channel} (h : c.st ≠ .idle) : c.phases = patternPhases c.pattern := by
  unfold Channel.phases
  cases hst : c.st with
  | idle => exact absurd hst h
  | hold | run | move | stopping => rfl

/-! ### HOLD_MOTOR (R94) and RELEASE_MOTOR (R95) -/

section
variable {s : State} {tag channel : Byte} {ch : Chan} {r : Result}

theorem exec_holdMotor : exec (.holdMotor tag channel) s = execHoldMotor tag channel s := rfl

theorem exec_releaseMotor : exec (.releaseMotor tag channel) s = execReleaseMotor tag channel s := rfl

theorem holdMotor_given_noChannel (hch : chanOf channel.toNat = none) :
    exec (.holdMotor tag channel) (s.given (.holdMotor tag channel)) = .next (s.handDone tag 12 .badArg) := by
  simp only [exec_holdMotor, execHoldMotor, claimCommand_given, hch]

theorem releaseMotor_given_noChannel (hch : chanOf channel.toNat = none) :
    exec (.releaseMotor tag channel) (s.given (.releaseMotor tag channel)) = .next (s.handDone tag 13 .badArg) := by
  simp only [exec_releaseMotor, execReleaseMotor, claimCommand_given, hch]

theorem holdMotor_given_refused (hch : chanOf channel.toNat = some ch) (hr : s.checkHold ch = some r) :
    exec (.holdMotor tag channel) (s.given (.holdMotor tag channel)) = .next (s.handDone tag 12 r) := by
  simp only [exec_holdMotor, execHoldMotor, claimCommand_given, hch, hr]

theorem releaseMotor_given_refused (hch : chanOf channel.toNat = some ch) (hr : s.checkRelease ch = some r) :
    exec (.releaseMotor tag channel) (s.given (.releaseMotor tag channel)) = .next (s.handDone tag 13 r) := by
  simp only [exec_releaseMotor, execReleaseMotor, claimCommand_given, hch, hr]

/-- R94: an accepted channel holds the pattern it is on, and the DONE carries that pattern's index. -/
theorem holdMotor_given_accepted (hch : chanOf channel.toNat = some ch) (hr : s.checkHold ch = none) :
    exec (.holdMotor tag channel) (s.given (.holdMotor tag channel))
      = .next ((s.setChan ch { s.chan ch with st := .hold }).handDone tag 12 .done [byte (s.chan ch).pattern.val]) := by
  simp only [exec_holdMotor, execHoldMotor, claimCommand_given, hch, hr, State.setChan_chan]

/-- R95: an accepted channel is idle, its pattern kept. -/
theorem releaseMotor_given_accepted (hch : chanOf channel.toNat = some ch) (hr : s.checkRelease ch = none) :
    exec (.releaseMotor tag channel) (s.given (.releaseMotor tag channel))
      = .next ((s.setChan ch { s.chan ch with st := .idle }).handDone tag 13 .done) := by
  simp only [exec_releaseMotor, execReleaseMotor, claimCommand_given, hch, hr]

end

end Sys2Proof.Machine

namespace Sys2Proof.Proofs

open Sys2Proof Sys2Proof.Machine

/-- Settles O45: each result of the two commands is the answer of one branch of its checks; the phases are the pattern
table's, index by index. -/
theorem holdAndReleaseMotor : Obligations.HoldAndReleaseMotor := by
  intro s tag channel
  refine ⟨fun hrange => ?_, fun ch hnumber => ?_⟩
  · have hch : chanOf channel.toNat = none := chanOf_of_two_le hrange
    exact ⟨holdMotor_given_noChannel hch, releaseMotor_given_noChannel hch⟩
  · have hch : chanOf channel.toNat = some ch := by
      rw [hnumber]
      exact chanOf_chanCode ch
    refine ⟨?hold, ?release, ?phases⟩
    case hold =>
      split_ifs with howner hbusy
      · exact holdMotor_given_refused hch (by rw [State.checkHold, if_pos howner])
      · exact holdMotor_given_refused hch (by rw [State.checkHold, if_neg howner, if_pos hbusy])
      · exact holdMotor_given_accepted hch (by rw [State.checkHold, if_neg howner, if_neg hbusy])
    case release =>
      split_ifs with howner hmoving
      · exact releaseMotor_given_refused hch (by rw [State.checkRelease, if_pos howner])
      · exact releaseMotor_given_refused hch (by rw [State.checkRelease, if_neg howner, if_pos hmoving])
      · exact releaseMotor_given_accepted hch (by rw [State.checkRelease, if_neg howner, if_neg hmoving])
    case phases =>
      split_ifs with hidle
      · exact Channel.phases_of_idle hidle
      · rw [Channel.phases_of_ne_idle hidle]
        generalize (s.chan ch).pattern = pattern
        fin_cases pattern <;> rfl

end Sys2Proof.Proofs
end

