-- ==== Sys2Proof/Proofs/Rows.lean ====
section
/-! How a row is taken, said once for all rows: what a row answers (`Meets`), a host command that is not the oldest one handed
does not occur, an arrival likewise, and which rows leave the ground (the waiting commands, memory, the configuration, the tables,
the pins, the boot controller) alone. -/

namespace Sys2Proof.Machine

open Sys2Proof

/-- Where a row answers a next state, that state has a property. -/
def Meets (P : State → Prop) (o : Out) : Prop := ∀ t, o = .next t → P t

@[simp] theorem meets_next {P : State → Prop} {t : State} : Meets P (.next t) ↔ P t :=
  ⟨fun h => h t rfl, fun h _ ht => Host.Outcome.next.inj ht ▸ h⟩

@[simp] theorem meets_fault {P : State → Prop} {r : Fault} : Meets P (.fault r) :=
  fun _ h => nomatch h

/-- A property of every answer is one of each branch's. -/
theorem meets_ite {P : State → Prop} {c : Prop} [Decidable c] {a b : Out} (ha : c → Meets P a) (hb : ¬c → Meets P b) :
    Meets P (if c then a else b) := by
  split
  · exact ha ‹_›
  · exact hb ‹_›

/-! ### Host commands (R180) -/

/-- A host command that is not the oldest one handed does not occur. -/
theorem exec_unclaimed {i : Instr} {s : State} (hi : (commandCode i).isSome) (h : s.claimCommand i = none) :
    exec i s = .next s := by
  cases i <;> simp only [commandCode, Option.isSome_none, Option.isSome_some, Bool.false_eq_true] at hi
  all_goals
    simp only [exec, execLoadTable, execSetRing, execStartScan, execStartScanCal, execStopScan, execStartPrint,
      execStopPrint, execPausePrint, execResumePrint, execLinkRings, execUnlink, execMoveMotor, execHoldMotor,
      execReleaseMotor, execSetPower, execSwitchClock, execStopAll, execReboot, execUnknownCommand, h]

/-- Where a host command occurs, it was given to the state. -/
theorem given_of_claimCommand {s u : State} {i : Instr} (h : s.claimCommand i = some u) : s = u.given i := by
  obtain ⟨rest, hrest, rfl⟩ := claimCommand_some h
  simp only [State.given, State.setCells, ← hrest]

/-- A property of a host command's answer: it holds of the state itself, and of the answer where the command was given. -/
theorem meets_command {P : State → Prop} {i : Instr} {s : State} (hi : (commandCode i).isSome) (stay : P s)
    (act : ∀ u : State, s = u.given i → Meets P (exec i (u.given i))) : Meets P (exec i s) := by
  cases h : s.claimCommand i with
  | none => rw [exec_unclaimed hi h]; exact meets_next.mpr stay
  | some u =>
    have hu := given_of_claimCommand h
    rw [hu]
    exact act u hu

/-! ### Arrivals (R136) -/

/-- Where an arrival is taken, it arrived in the state. -/
theorem arrived_of_claimArrival {s u : State} {offset : Nat} {value : Half} (h : s.claimArrival offset value = some u) :
    s = u.arrived offset value := by
  unfold State.claimArrival at h
  split at h
  · cases h
  · rename_i a rest ha
    split at h
    · rename_i hav
      subst hav
      obtain rfl := Option.some.inj h
      simp only [State.arrived, State.setPmc, ← ha]
    · cases h

/-! ### Rows that leave the ground alone -/

/-- The rows that leave the whole ground alone: all but the end of an access, the rows of the boot controller and of a cold start,
and those that end a refresh burst or a table load. -/
def keepsGround : Instr → Bool
  | .accessEnd | .refreshBurstDone | .powerOnDetect | .resetPinLow | .resetPinHigh | .romHeaderRead .. | .recordHeaderRead ..
  | .configRecordRead _ | .tableRecordRead _ | .imageWritesAcknowledged | .releaseWritesAcknowledged | .faultPulseTimerExpiry
  | .responsePutAcknowledged | .tableLoadReadsComplete => false
  | _ => true
theorem given_ground (s : State) (i : Instr) : (s.given i).ground = s.ground := rfl

theorem exec_command_ground {i : Instr} (hi : (commandCode i).isSome) (s : State) :
    Meets (fun t => t.ground = s.ground) (exec i s) := by
  refine meets_command hi rfl ?_
  rintro u rfl
  rw [given_ground]
  cases i <;> simp only [commandCode, Option.isSome_none, Option.isSome_some, Bool.false_eq_true] at hi
  all_goals
    simp only [exec, execLoadTable, execSetRing, execStartScan, execStartScanCal, execStopScan, execStartPrint,
      execStopPrint, execPausePrint, execResumePrint, execLinkRings, execUnlink, execMoveMotor, execHoldMotor,
      execReleaseMotor, execSetPower, execSwitchClock, execStopAll, execReboot, execUnknownCommand, claimCommand_given,
      -List.reduceReplicate]
    repeat' split
  all_goals simp [-List.reduceReplicate]

theorem claimArrival_ground {s u : State} {o : Nat} {v : Half} (h : s.claimArrival o v = some u) : u.ground = s.ground := by
  rw [arrived_of_claimArrival h]; rfl

theorem exec_ground {i : Instr} (hi : keepsGround i) (s : State) :
    Meets (fun t => t.ground = s.ground) (exec i s) := by
  by_cases hc : (commandCode i).isSome
  · exact exec_command_ground hc s
  cases i <;> simp only [commandCode, Option.isSome_none, Option.isSome_some, not_true_eq_false] at hc
  all_goals simp only [keepsGround, Bool.false_eq_true] at hi
  case controlBlockWrite =>
    simp only [exec, execControlBlockWrite]
    split
    · simp
    · split
      · simp
      · simp [claimArrival_ground ‹_›]
  case commandPutWrite | responseTakeWrite | summaryWordWrite | lineRingPutWrite | lineRingTakeWrite =>
    simp only [exec, execCommandPutWrite, execResponseTakeWrite, execSummaryWordWrite, execLineRingPutWrite,
      execLineRingTakeWrite]
    split
    · simp
    · rw [← claimArrival_ground ‹_›]
      repeat' split
      all_goals simp
  all_goals
    simp only [exec, execCommandTakeStart, execHostRead, execHostWrite, execBurstEnter, execRefreshEnd, execRefreshTimerExpiry,
      execCloseTimerExpiry, execSelfRefreshEntry, execSlotWritesAcknowledged, execPageEndTagAcknowledged, execStepIntervalExpiry,
      execReadoutComplete, execCalTriggerExpiry, execCalReadoutComplete, execCalSumsAcknowledged, execLinkTakeSourceLine,
      execLinkReadComplete, execFetchStart, execTagReadComplete, execWindowReadComplete, execFetchComplete, execShiftInStart,
      execShiftInComplete, execLineLatch, execPhaseEnd, execNextPhaseStart, execSlewBegin, execPrintStreamOff,
      execSweepPeriodExpiry, execConversionComplete, execStandbyTimerExpiry, execRingEdge, execEdgeGapExpiry, execBurstEndExpiry,
      execSilenceTimerExpiry, execInputLevelChange, execDebounceExpiry, execSettleCountReached, execStartWindowExpiry,
      execPllLock, execLockWindowExpiry, execFastRcRunning, execSwitchComplete, execLossWindowExpiry, execWakeTimerExpiry,
      execHostClockStop, execStandbyEntry, execResponseCellAcknowledged, execSnapshotAcknowledged, execStopAllComplete]
    repeat' split
  all_goals simp
/-! ### What no boot step touches -/

/-- Of the ground: the waiting commands, memory, the pins and the free-value counter, which the boot controller's and the table
loader's rows leave alone too. -/
structure Lasting where
  pending : List Instr
  mem : List Host.Cell
  pins : Pins
  freeCount : Nat

/-- What of the ground lasts. -/
def Ground.lasting (g : Ground) : Lasting := ⟨g.pending, g.mem, g.pins, g.freeCount⟩

@[simp] theorem State.setBoot_lasting (s : State) (x : Boot) : (s.setBoot x).ground.lasting = s.ground.lasting := rfl
@[simp] theorem State.setCfg_lasting (s : State) (x : BoardConfig) : (s.setCfg x).ground.lasting = s.ground.lasting := rfl
@[simp] theorem State.setTables_lasting (s : State) (x : TableStore) : (s.setTables x).ground.lasting = s.ground.lasting := rfl
@[simp] theorem State.bootFail_lasting (s : State) (code : Nat) : (s.bootFail code).ground.lasting = s.ground.lasting := rfl
@[simp] theorem State.spiRead_lasting (s : State) (a n : Nat) : (s.spiRead a n).ground.lasting = s.ground.lasting := rfl

@[simp] theorem State.enterRelease_lasting (s : State) : s.enterRelease.ground.lasting = s.ground.lasting := by
  simp [State.enterRelease, State.beginWatching]

@[simp] theorem State.endImageWalk_lasting (s : State) : s.endImageWalk.ground.lasting = s.ground.lasting := by
  unfold State.endImageWalk; split <;> simp

@[simp] theorem State.endWalk_lasting (s : State) : s.endWalk.ground.lasting = s.ground.lasting := by
  unfold State.endWalk; dsimp only; repeat' split
  all_goals simp

@[simp] theorem State.nextRecord_lasting (s : State) (len : Nat) : (s.nextRecord len).ground.lasting = s.ground.lasting := by
  unfold State.nextRecord; dsimp only; split <;> simp

@[simp] theorem State.enterTables_lasting (s : State) : s.enterTables.ground.lasting = s.ground.lasting := by
  unfold State.enterTables; dsimp only; split <;> simp

@[simp] theorem State.badTable_lasting (s : State) (table : Nat) : (s.badTable table).ground.lasting = s.ground.lasting := by
  unfold State.badTable; split <;> simp

@[simp] theorem State.configHeader_lasting (s : State) (h : RecordHeader) : (s.configHeader h).ground.lasting = s.ground.lasting := by
  unfold State.configHeader; split <;> simp

@[simp] theorem State.tablesHeader_lasting (s : State) (h : RecordHeader) : (s.tablesHeader h).ground.lasting = s.ground.lasting := by
  unfold State.tablesHeader; repeat' split
  all_goals simp

@[simp] theorem State.writeImage_ground (s : State) (a : Nat) (data : List Half) (n : Nat) :
    (s.writeImage a data n).ground = s.ground := by
  induction n generalizing s a data with
  | zero => rfl
  | succ n ih => simp [State.writeImage, ih]

@[simp] theorem State.imageHeader_lasting (s : State) (h : RecordHeader) (image : List (Option Byte)) :
    (s.imageHeader h image).ground.lasting = s.ground.lasting := by
  unfold State.imageHeader; repeat' split
  · simp
  · simp
  · simp
  · simp
  · simp

@[simp] theorem State.applyConfig_lasting (s : State) (c : BoardConfig) : (s.applyConfig c).ground.lasting = s.ground.lasting := by
  unfold State.applyConfig; dsimp only; split <;> simp

@[simp] theorem State.installTable_lasting (s : State) (t : TableData) : (s.installTable t).ground.lasting = s.ground.lasting := by
  cases t <;> rfl

/-! ### Which rows leave what lasts alone -/

/-- ACCESS_END stores, and the rows of the reset pin and those at which a cold start may begin change pins and memory; every
other row leaves what lasts alone. -/
def keepsLasting : Instr → Bool
  | .accessEnd | .powerOnDetect | .resetPinLow | .resetPinHigh | .responsePutAcknowledged => false
  | _ => true

theorem execRefreshBurstDone_lasting (s : State) :
    Meets (fun t => t.ground.lasting = s.ground.lasting) (execRefreshBurstDone s) := by
  unfold execRefreshBurstDone State.memoryBack
  dsimp only
  repeat' split
  all_goals simp

theorem execRecordHeaderRead_lasting (s : State) (a b c d e : List (Option Byte)) :
    Meets (fun t => t.ground.lasting = s.ground.lasting) (execRecordHeaderRead a b c d e s) := by
  unfold execRecordHeaderRead
  dsimp only
  repeat' split
  all_goals simp

theorem execConfigRecordRead_lasting (s : State) (data : List (Option Byte)) :
    Meets (fun t => t.ground.lasting = s.ground.lasting) (execConfigRecordRead data s) := by
  unfold execConfigRecordRead
  dsimp only
  split
  · split <;> simp
  · simp

@[simp] theorem State.fillLoadArea_lasting (s : State) (d : List Half) :
    (s.fillLoadArea d).ground.lasting = s.ground.lasting := rfl

theorem execTableRecordRead_lasting (s : State) (data : List (Option Byte)) :
    Meets (fun t => t.ground.lasting = s.ground.lasting) (execTableRecordRead data s) := by
  unfold execTableRecordRead
  dsimp only
  repeat' split
  all_goals simp

theorem finishLoad_lasting {s u : State} {id : TableId} {data : List Half} (h : s.finishLoad id data = .ok u) :
    u.ground.lasting = s.ground.lasting := by
  unfold State.finishLoad at h
  split at h
  · cases h
  · split at h
    · cases h
    · cases h
      simp

theorem execTableLoadReadsComplete_lasting (s : State) :
    Meets (fun t => t.ground.lasting = s.ground.lasting) (execTableLoadReadsComplete s) := by
  unfold execTableLoadReadsComplete
  dsimp only
  split
  · simp
  · split
    · split
      next => simp
      next h => simp [finishLoad_lasting h]
    · simp

/-- Every row but ACCESS_END, the reset pin's and those of a cold start leaves the waiting commands, memory, the pins and the
free-value counter alone. -/
theorem exec_lasting {i : Instr} (hi : keepsLasting i) (s : State) :
    Meets (fun t => t.ground.lasting = s.ground.lasting) (exec i s) := by
  by_cases hg : keepsGround i
  · exact fun t ht => congrArg Ground.lasting (exec_ground hg s t ht)
  cases i <;> simp only [keepsGround, keepsLasting, not_true_eq_false, Bool.false_eq_true] at hg hi
  case refreshBurstDone => exact execRefreshBurstDone_lasting s
  case recordHeaderRead => exact execRecordHeaderRead_lasting s _ _ _ _ _
  case configRecordRead => exact execConfigRecordRead_lasting s _
  case tableRecordRead => exact execTableRecordRead_lasting s _
  case tableLoadReadsComplete => exact execTableLoadReadsComplete_lasting s
  all_goals
    simp only [exec, execRomHeaderRead, execImageWritesAcknowledged, execReleaseWritesAcknowledged,
      execFaultPulseTimerExpiry]
    repeat' split
  all_goals simp

end Sys2Proof.Machine
end

