-- ==== Sys2Proof/Proofs/Core1.lean ====
section
/-! The block and its memory: the step (R180), the queue of waiting commands, the one row that stores and the rows of a cold start
(R122, R129, R174), and the host reset line (R170). -/

namespace Sys2Proof.Machine

open Sys2Proof

/-! ### Cold starts (R159) -/

/-- The rows at which a cold start may begin (R159, R173). -/
def coldRow : Instr → Bool
  | .powerOnDetect | .resetPinLow | .responsePutAcknowledged => true
  | _ => false

@[simp] theorem State.leaveReset_mem (s : State) : s.leaveReset.mem = s.mem := by
  unfold State.leaveReset; split <;> rfl

@[simp] theorem State.leaveReset_pending (s : State) : s.leaveReset.pending = s.pending := by
  unfold State.leaveReset; split <;> rfl

@[simp] theorem State.coldStart_pending (s : State) (cause : ColdCause) : (s.coldStart cause).pending = s.pending := by
  simp [State.coldStart]

@[simp] theorem State.coldStart_mem (s : State) (cause : ColdCause) : (s.coldStart cause).mem = s.cutMemory := by
  simp [State.coldStart]

/-- A row of a cold start that does not begin one leaves the ground alone, but for the level of a pin. -/
theorem exec_coldRow {i : Instr} (hi : coldRow i) (s : State) :
    Meets (fun t => (∃ (u : State) (cause : ColdCause), t = u.coldStart cause ∧ u.mem = s.mem ∧ u.pending = s.pending ∧ u.pmc.act = s.pmc.act
        ∧ u.freeCount = s.freeCount) ∨ t.ground = s.ground) (exec i s) := by
  cases i <;> simp only [coldRow, Bool.false_eq_true] at hi
  case powerOnDetect =>
    exact meets_next.mpr (.inl ⟨s.setPins { s.pins with supplyGood := true }, _, rfl, rfl, rfl, rfl, rfl⟩)
  case resetPinLow =>
    refine meets_ite (fun _ => meets_next.mpr (.inl ?_)) (fun _ => meets_next.mpr (.inr rfl))
    exact ⟨s.setPins { s.pins with resetHigh := false }, _, rfl, rfl, rfl, rfl, rfl⟩
  case responsePutAcknowledged =>
    simp only [exec, execResponsePutAcknowledged]
    split
    · split
      · split
        · simp
        · exact meets_next.mpr (.inl ⟨_, _, rfl, rfl, rfl, rfl, rfl⟩)
        · simp
        · simp
      · simp
    · split
      · exact meets_next.mpr (.inl ⟨s, _, rfl, rfl, rfl, rfl, rfl⟩)
      · simp

/-! ### The end of an access (R129) -/

/-- Performing a burst changes memory alone of the ground. -/
theorem perform_ground (s : State) (b : Burst) : (s.perform b).ground = { s.ground with
    mem := match b.dir with
      | .read => s.mem
      | .write => writeHalves s.mem b.half b.lowEnable b.highEnable b.data } := by
  unfold State.perform
  cases b.dir <;> simp <;> rfl

/-- ACCESS_END changes memory alone of the ground, by the halfwords of the burst it performs. -/
theorem execAccessEnd_ground (s : State) : Meets (fun t => t.ground = s.ground
    ∨ ∃ b cycles, s.pmc.act = .access b cycles ∧ b.dir = .write
      ∧ t.ground = { s.ground with mem := writeHalves s.mem b.half b.lowEnable b.highEnable b.data }) (execAccessEnd s) := by
  unfold execAccessEnd
  split
  next b cycles hact =>
    refine meets_ite (fun _ => meets_next.mpr ?_) (fun _ => meets_fault)
    simp only [State.grantPoint_ground, State.linkReadsAbandoned_ground, State.commandRead_ground, perform_ground]
    cases hd : b.dir with
    | read => exact .inl rfl
    | write => exact .inr ⟨b, cycles, hact, hd, rfl⟩
  all_goals exact meets_next.mpr (.inl rfl)

/-! ### The waiting commands and memory, row by row -/

theorem exec_pending (i : Instr) (s : State) : Meets (fun t => t.pending = s.pending) (exec i s) := by
  intro t ht
  by_cases hl : keepsLasting i
  · exact congrArg Lasting.pending (exec_lasting hl s t ht)
  by_cases hc : coldRow i
  · obtain ⟨u, cause, rfl, -, hu, -⟩ | hg := exec_coldRow hc s t ht
    · exact (State.coldStart_pending u cause).trans hu
    · exact congrArg Ground.pending hg
  cases i <;> simp only [keepsLasting, coldRow, not_true_eq_false] at hl hc
  case accessEnd =>
    obtain hg | ⟨b, cycles, -, -, hg⟩ := execAccessEnd_ground s t ht
    · exact congrArg Ground.pending hg
    · exact congrArg Ground.pending hg
  case resetPinHigh =>
    cases ht
    exact State.leaveReset_pending _

/-- What a row does to memory: nothing; or the stores of the write burst that ACCESS_END performs; or what a cold start leaves of a
write burst it cuts. -/
theorem exec_mem (i : Instr) (s : State) : Meets (fun t => t.mem = s.mem
    ∨ (i = .accessEnd ∧ ∃ b cycles, s.pmc.act = .access b cycles ∧ b.dir = .write
        ∧ t.mem = writeHalves s.mem b.half b.lowEnable b.highEnable b.data)
    ∨ (coldRow i ∧ t.mem = s.cutMemory)) (exec i s) := by
  intro t ht
  by_cases hl : keepsLasting i
  · exact .inl (congrArg Lasting.mem (exec_lasting hl s t ht))
  by_cases hc : coldRow i
  · obtain ⟨u, cause, rfl, hmem, -, hact, hfree⟩ | hg := exec_coldRow hc s t ht
    · exact .inr (.inr ⟨hc, by simp only [State.coldStart_mem, State.cutMemory, hmem, hact, hfree]⟩)
    · exact .inl (congrArg Ground.mem hg)
  cases i <;> simp only [keepsLasting, coldRow, not_true_eq_false] at hl hc
  case accessEnd =>
    obtain hg | ⟨b, cycles, hact, hd, hg⟩ := execAccessEnd_ground s t ht
    · exact .inl (congrArg Ground.mem hg)
    · exact .inr (.inl ⟨rfl, b, cycles, hact, hd, congrArg Ground.mem hg⟩)
  case resetPinHigh =>
    cases ht
    exact .inl (State.leaveReset_mem _)

/-- What a cold start cuts is a write burst in progress. -/
theorem cutMemory_eq (s : State) : s.cutMemory = s.mem
    ∨ ∃ b cycles, s.pmc.act = .access b cycles ∧ b.dir = .write
      ∧ s.cutMemory = cutBytes s.mem s.freeCount (2 * b.half) (2 * b.len) := by
  unfold State.cutMemory
  split
  next b cycles hact =>
    cases hd : b.dir with
    | read => exact .inl rfl
    | write => exact .inr ⟨b, cycles, hact, hd, rfl⟩
  all_goals exact .inl rfl

theorem cutMemory_wf {s : State} (h : memoryWf s.mem = true) : memoryWf s.cutMemory = true := by
  obtain hs | ⟨b, -, -, -, hs⟩ := cutMemory_eq s
  · rw [hs]; exact h
  · rw [hs]; exact cutBytes_wf _ _ _ h

/-- A cut write burst leaves every byte outside it as it was. -/
theorem readByte_cutBytes_outside {m : List Host.Cell} (free a n b : Nat) (h : memoryWf m = true)
    (hb : b < a ∨ a + n ≤ b) : readByte (cutBytes m free a n) b = readByte m b := by
  induction n generalizing m a with
  | zero => rfl
  | succ n ih =>
    rw [cutBytes, ih (a + 1) (writeByte_wf a _ h) (by omega), readByte_writeByte a _ b h, if_neg (by omega)]

theorem exec_memoryWf {i : Instr} {s : State} (h : memoryWf s.mem = true) :
    Meets (fun t => memoryWf t.mem = true) (exec i s) := by
  intro t ht
  obtain hm | ⟨-, b, -, -, -, hm⟩ | ⟨-, hm⟩ := exec_mem i s t ht
  · rw [hm]; exact h
  · rw [hm]; exact writeHalves_wf _ _ _ _ h
  · rw [hm]; exact cutMemory_wf h

/-! ### Steps -/

/-- An invariant that every row keeps, that the queue does not enter and that a tick keeps is one that every step keeps. -/
theorem step_keeps {P : State → Prop} (hrow : ∀ i s, P s → Meets P (exec i s)) (hqueue : ∀ s x, P s → P (s.setPending x))
    (htick : ∀ s, P s → P s.tick) {s t : State} (hs : P s) (h : step s = .next t) : P t := by
  unfold step at h
  split at h
  · exact Host.Outcome.next.inj h ▸ htick s hs
  · exact hrow _ _ (hqueue s _ hs) t h

/-- A tick leaves everything but the print path alone. -/
theorem State.tick_eq (s : State) : ∃ x, s.tick = s.setPrint x := by
  unfold State.tick
  split
  · exact ⟨_, rfl⟩
  · exact ⟨s.print, rfl⟩

end Sys2Proof.Machine

namespace Sys2Proof.Proofs

open Sys2Proof Sys2Proof.Machine

/-- Settles O1: both claims are the definition of `step`, and on an empty queue that of `State.tick`. -/
theorem stepRunsFront : Obligations.StepRunsFront := by
  refine ⟨fun s c rest => rfl, fun s hempty => ?_⟩
  have hstep : step s = .next s.tick := by simp only [step, hempty]
  have hactive : s.print.active = true ↔ s.print.st ≠ .off := by simp [Print.active]
  simp only [hstep, State.tick, hactive, Bool.not_eq_true]
  rfl

/-- Settles O2. -/
theorem commandsLeaveQueue : Obligations.CommandsLeaveQueue := exec_pending

/-- Settles O4: every store and every cut keeps the canonical form. -/
theorem memoryCanonicalKept : Obligations.MemoryCanonicalKept := by
  intro s t hs h
  refine step_keeps (P := fun s => memoryWf s.mem = true) (fun _ _ h => exec_memoryWf h) (fun _ _ h => h) (fun s h => ?_) hs h
  obtain ⟨x, hx⟩ := s.tick_eq
  rw [hx]
  exact h

/-- Settles O5: a row whose answer has another memory performs a write burst or cuts one. -/
theorem memoryChangedBy : Obligations.MemoryChangedBy := by
  intro i s t hs h hne
  obtain hm | ⟨rfl, b, cycles, hact, hd, hm⟩ | ⟨hcold, hm⟩ := exec_mem i s t h
  · exact absurd hm hne
  · refine ⟨.inl rfl, b, cycles, hact, hd, fun a ha => ?_⟩
    rw [hm]
    exact readByte_writeHalves_outside _ _ _ _ _ hs (by omega)
  · obtain hc | ⟨b, cycles, hact, hd, hc⟩ := cutMemory_eq s
    · exact absurd (hm.trans hc) hne
    · refine ⟨?_, b, cycles, hact, hd, fun a ha => ?_⟩
      · cases i <;> simp_all [coldRow]
      · rw [hm, hc]
        exact readByte_cutBytes_outside _ _ _ _ hs (by omega)

end Sys2Proof.Proofs
end

