-- ==== Sys2Proof/Proofs/HostHeld.lean ====
section
/-! The host reset line (R170). While the boot controller works, it holds the host and comes to RELEASE with an image copied alone
(`booting`); each of its operations keeps that, and only RELEASE_WRITES_ACKNOWLEDGED goes on to READY. -/

namespace Sys2Proof.Machine

open Sys2Proof

/-- The boot controller is at work and holds the host; in RELEASE an image has been copied. -/
structure Boot.booting (x : Boot) : Prop where
  held : x.hostReset = true
  unready : x.st ≠ .ready
  copied : x.st = .release → 1 ≤ x.images

/-- Before RELEASE holding the host is all there is. -/
theorem booting_of_st {x : Boot} (held : x.hostReset = true) (hready : x.st ≠ .ready) (hrelease : x.st ≠ .release) :
    x.booting := ⟨held, hready, fun h => absurd h hrelease⟩

theorem Boot.booting.congr {x y : Boot} (h : x.booting) (held : y.hostReset = x.hostReset) (st : y.st = x.st)
    (images : y.images = x.images) : y.booting :=
  ⟨held.trans h.held, fun hy => h.unready (st.symm.trans hy), fun hy => images ▸ h.copied (st.symm.trans hy)⟩

theorem hostHeld_iff (s : State) : s.hostHeld = true ↔
    (s.boot.hostReset = true ↔ s.boot.st ≠ .ready) ∧ (s.boot.st = .release ∨ s.boot.st = .ready → 1 ≤ s.boot.images) := by
  simp only [State.hostHeld, Bool.and_eq_true, Bool.or_eq_true, Bool.not_eq_true', beq_iff_eq, decide_eq_true_eq,
    Bool.or_eq_false_iff, beq_eq_false_iff_ne]
  constructor
  · rintro ⟨h1, h2⟩
    refine ⟨by rw [h1]; simp, fun h => ?_⟩
    rcases h2 with h2 | h2
    · rcases h with h | h
      · exact absurd h h2.1
      · exact absurd h h2.2
    · exact h2
  · rintro ⟨h1, h2⟩
    refine ⟨?_, ?_⟩
    · cases hr : s.boot.hostReset <;> cases hs : s.boot.st <;> simp_all
    · by_cases h : s.boot.st = .release ∨ s.boot.st = .ready
      · exact .inr (h2 h)
      · exact .inl (not_or.mp h)

theorem hostHeld_of_booting {s : State} (h : s.boot.booting) : s.hostHeld = true := by
  obtain ⟨hreset, hst, himages⟩ := h
  refine (hostHeld_iff s).mpr ⟨⟨fun _ => hst, fun _ => hreset⟩, ?_⟩
  rintro (h | h)
  · exact himages h
  · exact absurd h hst

theorem booting_of_hostHeld {s : State} (h : s.hostHeld = true) (hst : s.boot.st ≠ .ready) : s.boot.booting :=
  have ⟨hreset, himages⟩ := (hostHeld_iff s).mp h
  ⟨hreset.mpr hst, hst, fun h => himages (.inl h)⟩

theorem boot_of_ground {s t : State} (h : t.ground = s.ground) : t.boot = s.boot := congrArg Ground.boot h

theorem handDone_boot (s : State) (tag : Byte) (code : Nat) (r : Result) (detail : List Byte) (mark : CellMark) :
    (s.handDone tag code r detail mark).boot = s.boot := boot_of_ground (State.handDone_ground ..)

/-! ### The boot controller's operations -/

theorem bootFail_booting {s : State} (h : s.boot.booting) (code : Nat) : (s.bootFail code).boot.booting :=
  booting_of_st h.held (by simp [State.bootFail]) (by simp [State.bootFail])

theorem enterRelease_boot (s : State) : s.enterRelease.boot = { s.boot with st := .release } :=
  boot_of_ground (s := s.setBoot { s.boot with st := .release }) (by simp [State.enterRelease, State.beginWatching])

theorem spiRead_booting {s : State} (h : s.boot.booting) (a n : Nat) : (s.spiRead a n).boot.booting := h.congr rfl rfl rfl

theorem endImageWalk_booting {s : State} (h : s.boot.booting) : s.endImageWalk.boot.booting := by
  unfold State.endImageWalk
  split
  · exact bootFail_booting h 4
  · rw [enterRelease_boot]
    exact ⟨h.held, by simp, fun _ => Nat.one_le_iff_ne_zero.mpr ‹_›⟩

theorem endWalk_booting {s : State} (h : s.boot.booting) : s.endWalk.boot.booting := by
  have hwalk : (s.setBoot { s.boot with st := .hostImage, position := 2, romAddr := secondRecord, header := none }).boot.booting :=
    booting_of_st h.held (by simp) (by simp)
  unfold State.endWalk
  split
  · dsimp only
    split
    · exact endImageWalk_booting hwalk
    · exact hwalk
  · exact endImageWalk_booting h
  all_goals exact h

theorem nextRecord_booting {s : State} (h : s.boot.booting) (len : Nat) : (s.nextRecord len).boot.booting := by
  unfold State.nextRecord
  dsimp only
  split
  · exact endWalk_booting (h.congr rfl rfl rfl)
  · exact h.congr rfl rfl rfl

theorem enterTables_booting {s : State} (h : s.boot.booting) : s.enterTables.boot.booting := by
  have htables : (s.setBoot { s.boot with st := .tables, position := 2, romAddr := secondRecord }).boot.booting :=
    booting_of_st h.held (by simp) (by simp)
  unfold State.enterTables
  dsimp only
  split
  · exact endWalk_booting htables
  · exact htables

theorem badTable_booting {s : State} (h : s.boot.booting) (table : Nat) : (s.badTable table).boot.booting := by
  unfold State.badTable
  split
  · exact h.congr rfl rfl rfl
  · exact h

theorem writeImage_boot (s : State) (a : Nat) (data : List Half) (n : Nat) : (s.writeImage a data n).boot = s.boot :=
  boot_of_ground (State.writeImage_ground ..)

theorem configHeader_booting {s : State} (h : s.boot.booting) (x : RecordHeader) : (s.configHeader x).boot.booting := by
  unfold State.configHeader
  split
  · exact h.congr rfl rfl rfl
  · exact bootFail_booting h 2

theorem tablesHeader_booting {s : State} (h : s.boot.booting) (x : RecordHeader) : (s.tablesHeader x).boot.booting := by
  unfold State.tablesHeader
  split
  · exact bootFail_booting h 2
  · exact endWalk_booting h
  · exact nextRecord_booting h _
  · split
    · exact nextRecord_booting (badTable_booting h _) _
    · exact h.congr rfl rfl rfl

theorem imageHeader_booting {s : State} (h : s.boot.booting) (x : RecordHeader) (image : List (Option Byte)) :
    (s.imageHeader x image).boot.booting := by
  unfold State.imageHeader
  split
  · exact endWalk_booting h
  · exact nextRecord_booting h _
  · exact nextRecord_booting h _
  · split
    · exact bootFail_booting h 4
    · rw [writeImage_boot]
      exact h.congr rfl rfl rfl

theorem applyConfig_boot (s : State) (c : BoardConfig) : (s.applyConfig c).boot = { s.boot with st := .memoryUp, header := none } := by
  unfold State.applyConfig
  dsimp only
  split
  · exact boot_of_ground (s := (s.setCfg c).setBoot { s.boot with st := .memoryUp, header := none }) (by simp)
  · exact boot_of_ground (s := (s.setCfg c).setBoot { s.boot with st := .memoryUp, header := none }) (by simp)

theorem installTable_boot (s : State) (t : TableData) : (s.installTable t).boot = s.boot := by
  cases t <;> rfl

/-! ### The boot controller's rows -/

/-- What a row of the boot controller at work does to it: nothing, or a step of its work. -/
def bootWorks (s : State) : State → Prop := fun t => t.boot = s.boot ∨ s.boot.booting ∧ t.boot.booting

theorem execRecordHeaderRead_works {s : State} (h : s.boot.st ≠ .ready → s.boot.booting) (a b c d e : List (Option Byte)) :
    Meets (bootWorks s) (execRecordHeaderRead a b c d e s) := by
  unfold execRecordHeaderRead
  dsimp only
  refine meets_ite (fun hst => ?_) (fun _ => meets_next.mpr (.inl rfl))
  have hb : s.boot.booting := h (by rcases hst.1 with h | h | h <;> simp [h])
  have ht : (s.spiRead s.boot.romAddr 12).boot.booting := hb.congr rfl rfl rfl
  split
  · exact meets_next.mpr (.inr ⟨hb, bootFail_booting ht 3⟩)
  · split
    · exact meets_next.mpr (.inr ⟨hb, bootFail_booting ht 3⟩)
    · split
      · exact meets_next.mpr (.inr ⟨hb, configHeader_booting ht _⟩)
      · exact meets_next.mpr (.inr ⟨hb, tablesHeader_booting ht _⟩)
      all_goals exact meets_next.mpr (.inr ⟨hb, imageHeader_booting ht _ _⟩)

theorem execConfigRecordRead_works {s : State} (h : s.boot.st ≠ .ready → s.boot.booting) (data : List (Option Byte)) :
    Meets (bootWorks s) (execConfigRecordRead data s) := by
  unfold execConfigRecordRead
  split
  next x hst hx =>
    have hb : s.boot.booting := h (by simp [hst])
    dsimp only
    split
    · refine meets_next.mpr (.inr ⟨hb, ?_⟩)
      rw [applyConfig_boot]
      exact booting_of_st hb.held (by simp) (by simp)
    · exact meets_next.mpr (.inr ⟨hb, bootFail_booting (spiRead_booting hb _ _) 2⟩)
  · exact meets_next.mpr (.inl rfl)

theorem execTableRecordRead_works {s : State} (h : s.boot.st ≠ .ready → s.boot.booting) (data : List (Option Byte)) :
    Meets (bootWorks s) (execTableRecordRead data s) := by
  unfold execTableRecordRead
  split
  next x hst hx =>
    have hb : s.boot.booting := h (by simp [hst])
    dsimp only
    split
    · refine meets_next.mpr (.inr ⟨hb, nextRecord_booting ?_ _⟩)
      refine hb.congr ?_ ?_ ?_ <;> rw [State.setBoot_boot, installTable_boot] <;> rfl
    · refine meets_next.mpr (.inr ⟨hb, nextRecord_booting (badTable_booting ?_ _) _⟩)
      exact spiRead_booting hb _ _
  · exact meets_next.mpr (.inl rfl)

theorem execImageWritesAcknowledged_works {s : State} (h : s.boot.st ≠ .ready → s.boot.booting) :
    Meets (bootWorks s) (execImageWritesAcknowledged s) := by
  unfold execImageWritesAcknowledged
  split
  next x hst hx =>
    have hb : s.boot.booting := h (by simp [hst])
    refine meets_ite (fun _ => ?_) (fun _ => meets_next.mpr (.inl rfl))
    refine meets_ite (fun _ => meets_next.mpr (.inr ⟨hb, nextRecord_booting ?_ _⟩))
      (fun _ => meets_next.mpr (.inr ⟨hb, bootFail_booting (hb.congr rfl rfl rfl) 4⟩))
    exact ⟨hb.held, hb.unready, fun h => Nat.le_trans (hb.copied h) (Nat.le_succ _)⟩
  · exact meets_next.mpr (.inl rfl)

theorem execRefreshBurstDone_works {s : State} (h : s.boot.st ≠ .ready → s.boot.booting) :
    Meets (bootWorks s) (execRefreshBurstDone s) := by
  unfold execRefreshBurstDone
  refine meets_ite (fun _ => ?_) (fun _ => meets_next.mpr (.inl rfl))
  split
  · dsimp only
    split
    next hst =>
      have hb : s.boot.booting := h (by simp [show s.boot.st = .memoryUp from hst])
      exact meets_next.mpr (.inr ⟨hb, enterTables_booting hb⟩)
    · exact meets_next.mpr (.inl rfl)
  · refine meets_next.mpr (.inl (boot_of_ground ?_))
    unfold State.memoryBack
    split <;> simp
  all_goals exact meets_next.mpr (.inl rfl)

theorem finishLoad_boot {s u : State} {id : TableId} {data : List Half} (h : s.finishLoad id data = .ok u) :
    u.boot = s.boot := by
  unfold State.finishLoad at h
  split at h
  · cases h
  · split at h
    · cases h
    · cases h
      exact installTable_boot s _

theorem execTableLoadReadsComplete_boot (s : State) :
    Meets (fun t => t.boot = s.boot) (execTableLoadReadsComplete s) := by
  unfold execTableLoadReadsComplete
  dsimp only
  split
  · exact meets_next.mpr rfl
  · refine meets_ite (fun _ => ?_) (fun _ => meets_next.mpr rfl)
    split
    · exact meets_next.mpr (by rw [handDone_boot]; rfl)
    next hu => exact meets_next.mpr (by rw [handDone_boot, finishLoad_boot hu]; rfl)

/-- Every row but a cold start's and RELEASE_WRITES_ACKNOWLEDGED leaves the boot controller alone or goes on with its work. -/
theorem exec_bootWorks {i : Instr} {s : State} (hc : coldRow i = false) (hi : i ≠ .releaseWritesAcknowledged)
    (h : s.boot.st ≠ .ready → s.boot.booting) : Meets (bootWorks s) (exec i s) := by
  intro t ht
  by_cases hg : keepsGround i
  · exact .inl (boot_of_ground (exec_ground hg s t ht))
  cases i <;> simp only [keepsGround, coldRow, not_true_eq_false, Bool.true_eq_false, ne_eq] at hg hc hi
  case accessEnd =>
    obtain hg | ⟨b, cycles, -, -, hg⟩ := execAccessEnd_ground s t ht
    · exact .inl (boot_of_ground hg)
    · exact .inl (congrArg Ground.boot hg)
  case refreshBurstDone => exact execRefreshBurstDone_works h t ht
  case recordHeaderRead => exact execRecordHeaderRead_works h _ _ _ _ _ t ht
  case configRecordRead => exact execConfigRecordRead_works h _ t ht
  case tableRecordRead => exact execTableRecordRead_works h _ t ht
  case imageWritesAcknowledged => exact execImageWritesAcknowledged_works h t ht
  case resetPinHigh =>
    cases ht
    unfold State.leaveReset
    split
    next hst =>
      have hb := h (by simp [show s.boot.st = .reset from hst.1])
      exact .inr ⟨hb, booting_of_st hb.held (by simp) (by simp)⟩
    · exact .inl rfl
  case romHeaderRead =>
    revert t
    refine meets_ite (fun hst => ?_) (fun _ => meets_next.mpr (.inl rfl))
    have hb := h (by simp [hst])
    refine meets_ite (fun _ => meets_next.mpr (.inr ⟨hb, ?_⟩)) (fun _ => meets_next.mpr (.inr ⟨hb, bootFail_booting (spiRead_booting hb _ _) 1⟩))
    exact booting_of_st hb.held (by simp) (by simp)
  case faultPulseTimerExpiry =>
    revert t
    refine meets_ite (fun hst => ?_) (fun _ => meets_next.mpr (.inl rfl))
    have hb := h (by simp [hst])
    exact meets_ite (fun _ => meets_next.mpr (.inr ⟨hb, hb.congr rfl rfl rfl⟩))
      (fun _ => meets_next.mpr (.inr ⟨hb, hb.congr rfl rfl rfl⟩))
  case tableLoadReadsComplete => exact .inl (execTableLoadReadsComplete_boot s t ht)

theorem coldStart_booting (s : State) (cause : ColdCause) : (s.coldStart cause).boot.booting := by
  unfold State.coldStart State.leaveReset
  split <;> exact booting_of_st rfl (by simp) (by simp)

theorem coldStart_images (s : State) (cause : ColdCause) : (s.coldStart cause).boot.images = 0 := by
  unfold State.coldStart State.leaveReset
  split <;> rfl

/-- RELEASE_WRITES_ACKNOWLEDGED releases the host in RELEASE, and changes nothing else of what holds it. -/
theorem execReleaseWritesAcknowledged_boot (s : State) : Meets (fun t => t.boot = s.boot
    ∨ s.boot.st = .release ∧ t.boot = { s.boot with st := .ready, hostReset := false, spiNext := none })
    (execReleaseWritesAcknowledged s) := by
  refine meets_ite (fun h => meets_next.mpr (.inr ⟨h.1, rfl⟩)) (fun _ => meets_next.mpr (.inl rfl))

end Sys2Proof.Machine

namespace Sys2Proof.Proofs

open Sys2Proof Sys2Proof.Machine

/-- Settles O59: a row leaves the boot controller alone, works on while it holds the host, releases the host in RELEASE, or begins a
cold start. -/
theorem hostHeldKept : Obligations.HostHeldKept := by
  intro i s t hs h
  have hb := fun hst => booting_of_hostHeld hs hst
  by_cases hc : coldRow i
  · obtain ⟨u, cause, rfl, -⟩ | hg := exec_coldRow hc s t h
    · refine ⟨hostHeld_of_booting (coldStart_booting u cause), fun _ h => ?_, fun _ _ => ⟨?_, coldStart_images u cause⟩⟩
      · simp [(coldStart_booting u cause).held] at h
      · cases i <;> simp_all [coldRow]
    · have hboot := boot_of_ground hg
      refine ⟨?_, fun h1 h2 => ?_, fun h1 h2 => ?_⟩
      · simpa only [State.hostHeld, hboot] using hs
      · simp [hboot, h1] at h2
      · simp [hboot, h1] at h2
  · by_cases hr : i = .releaseWritesAcknowledged
    · subst hr
      obtain hboot | ⟨hst, hboot⟩ := execReleaseWritesAcknowledged_boot s t h
      · refine ⟨?_, fun h1 h2 => ?_, fun h1 h2 => ?_⟩
        · simpa only [State.hostHeld, hboot] using hs
        · simp [hboot, h1] at h2
        · simp [hboot, h1] at h2
      · have himages := (hb (by simp [hst])).copied hst
        refine ⟨(hostHeld_iff t).mpr ?_, fun _ _ => ⟨rfl, hst, himages⟩, fun _ h => ?_⟩
        · rw [hboot]
          exact ⟨by simp, fun _ => himages⟩
        · rw [hboot] at h
          cases h
    · obtain hboot | ⟨hbefore, hbooting⟩ := exec_bootWorks (by simpa using hc) hr hb t h
      · refine ⟨?_, fun h1 h2 => ?_, fun h1 h2 => ?_⟩
        · simpa only [State.hostHeld, hboot] using hs
        · simp [hboot, h1] at h2
        · simp [hboot, h1] at h2
      · refine ⟨hostHeld_of_booting hbooting, fun _ h => ?_, fun h1 h2 => ?_⟩
        · simp [hbooting.held] at h
        · simp [hbefore.held] at h1

end Sys2Proof.Proofs
end

