-- ==== Sys2Proof/Proofs/CellForm.lean ====
section
/-! Command cells (R193, R194): a field read back from the bytes it was written as is the field, and so is the command. -/

namespace Sys2Proof.Machine

open Sys2Proof

@[simp] theorem halfOf_bytes (h : Half) : halfOf (lowByte h) (highByte h) = h :=
  BitVec.eq_of_getLsbD_eq fun i hi => by
    refine BitVec.getLsbD_append.trans ?_
    simp only [lowByte, highByte, BitVec.getLsbD_extractLsb']
    by_cases h8 : i < 8
    · simp [h8]
    · simp [h8, show i - 8 < 8 by omega, show 8 + (i - 8) = i by omega]

@[simp] theorem wordOf_halves (w : Word) : wordOf (w.extractLsb' 0 16) (w.extractLsb' 16 16) = w :=
  BitVec.eq_of_getLsbD_eq fun i hi => by
    refine BitVec.getLsbD_append.trans ?_
    simp only [BitVec.getLsbD_extractLsb']
    by_cases h16 : i < 16
    · simp [h16]
    · simp [h16, show i - 16 < 16 by omega, show 16 + (i - 16) = i by omega]

theorem getLsbD_nibbles (low high : BitVec 4) (i : Nat) :
    (nibbles low high).getLsbD i = if i < 4 then low.getLsbD i else high.getLsbD (i - 4) :=
  BitVec.getLsbD_append

@[simp] theorem lowNibble_nibbles (low high : BitVec 4) : lowNibble (nibbles low high) = low :=
  BitVec.eq_of_getLsbD_eq fun i hi => by simp [lowNibble, getLsbD_nibbles, hi]

@[simp] theorem highNibble_nibbles (low high : BitVec 4) : highNibble (nibbles low high) = high :=
  BitVec.eq_of_getLsbD_eq fun i hi => by simp [highNibble, getLsbD_nibbles, hi]

/-- R49: the lamp flag is bit 4 of a calibration's mode byte. -/
theorem lampBit (lamp : Bool) : (nibbles calModeCode (if lamp then 1 else 0))[4] = lamp := by
  cases lamp <;> rfl

/-- The opcode of a cell that names no command. -/
theorem decodeCell_unknown {bs : List Byte} (h : (byteAt bs 0).toNat = 0 ∨ 17 < (byteAt bs 0).toNat) :
    decodeCell bs = .unknownCommand (byteAt bs 1) (byteAt bs 0) := by
  unfold decodeCell
  dsimp only
  split <;> first | omega | rfl

end Sys2Proof.Machine

namespace Sys2Proof.Proofs

open Sys2Proof Sys2Proof.Machine

/-- Settles O3: each code's fields are read at the places they are written, and a field read back is the field. -/
theorem cellRoundTrip : Obligations.CellRoundTrip := by
  intro i hwf hi
  cases i <;> simp only [commandCode, Option.isSome_none, Bool.false_eq_true] at hi
  case unknownCommand tag code =>
    refine decodeCell_unknown ?_
    change code.toNat = 0 ∨ 17 < code.toNat
    simpa [WellFormed] using hwf
  case startScan tag ring mode _ _ _ _ _ _ _ _ _ _ _ =>
    have hmode : mode ≠ calModeCode := by simpa [WellFormed] using hwf
    simp [decodeCell, encodeCell, cellBytes, decodeStartScan, byteAt, halfAt, halfBytes, hmode]
  case startScanCal =>
    simp [decodeCell, encodeCell, cellBytes, decodeStartScan, byteAt, halfAt, wordAt, halfBytes, wordBytes, halvesOf]
    exact lampBit _
  case setPower tag target snapBack ratio wakeTimer =>
    cases snapBack <;> simp [decodeCell, encodeCell, cellBytes, byteAt, halfAt, halfBytes]
  case loadTable | setRing => simp [decodeCell, encodeCell, cellBytes, byteAt, halfAt, wordAt, halfBytes, wordBytes, halvesOf]
  all_goals simp [decodeCell, encodeCell, cellBytes, byteAt, halfAt, halfBytes]

end Sys2Proof.Proofs
end

