-- ==== Sys2Proof/Proofs/Reset.lean ====
section
/-! The state after reset: the values the spec gives, and every invariant of the machine. -/

namespace Sys2Proof.Proofs

open Sys2Proof Sys2Proof.Machine

theorem reset_errorsBounded : State.reset.errorsBounded = true := by
  have htone : State.reset.tables.tone = List.range 256 := by dsimp only [State.reset]
  have hcur : State.reset.scan.currentRow = List.replicate 2048 0 := by dsimp only [State.reset]
  have hnext : State.reset.scan.nextRow = List.replicate 2048 0 := by dsimp only [State.reset]
  have hcarry : State.reset.scan.carry = 0 := rfl
  simp only [State.errorsBounded, htone, hcur, hnext, hcarry, List.all_replicate, List.all_eq_true, List.mem_range,
    Bool.and_eq_true, decide_eq_true_eq, beq_self_eq_true]
  refine ⟨⟨⟨?_, ?_⟩, trivial⟩, fun t ht => by omega⟩ <;> split <;> decide

theorem reset_scanWhole : State.reset.scanWhole = true := by
  have hshade : State.reset.tables.shading = List.replicate 2048 {} := by dsimp only [State.reset]
  have hcur : State.reset.scan.currentRow = List.replicate 2048 0 := by dsimp only [State.reset]
  have hnext : State.reset.scan.nextRow = List.replicate 2048 0 := by dsimp only [State.reset]
  have hst : State.reset.scan.st = .off := rfl
  have hfrom : State.reset.scan.stalledFrom = .capture := rfl
  simp only [State.scanWhole, hshade, hcur, hnext, hst, hfrom, List.length_replicate]
  decide

theorem reset_responseRoom : State.reset.responseRoom := by
  refine ⟨by decide, by decide, by decide, fun _ => ⟨rfl, rfl, rfl, rfl, rfl, rfl⟩, fun _ => rfl⟩

/-- Settles O60: every value is the field's default, and each invariant is checked there. -/
theorem stateAfterReset : Obligations.StateAfterReset := by
  rintro s rfl
  refine ⟨⟨rfl, rfl, rfl, rfl, rfl, rfl, rfl, rfl, rfl⟩, ⟨rfl, rfl, rfl, rfl, rfl, rfl, fun r => ?_, rfl, rfl, rfl, rfl, rfl, rfl, rfl, rfl⟩,
    ⟨by dsimp only [State.reset], by dsimp only [State.reset], rfl, fun p => ?_⟩, rfl, by decide, reset_responseRoom, by decide, reset_errorsBounded, by decide, by decide, by decide,
    by decide, reset_scanWhole⟩
  · fin_cases r <;> rfl
  · fin_cases p <;> rfl

end Sys2Proof.Proofs
end

