-- ==== Sys2Proof/Proofs/Units.lean ====
section
/-! The clock and power unit and the memory controller's own state: which rows leave both alone, and what a wake cause that a row
hands may do to them. -/

namespace Sys2Proof.Machine

open Sys2Proof

/-- The rows that change the clock and power unit or the memory controller's own state. -/
def movesUnits : Instr → Bool
  | .setPower .. | .switchClock .. | .ringEdge | .debounceExpiry _ | .conversionComplete _ | .standbyTimerExpiry
  | .settleCountReached | .startWindowExpiry | .pllLock | .lockWindowExpiry | .fastRcRunning | .switchComplete
  | .lossWindowExpiry | .wakeTimerExpiry | .hostClockStop | .standbyEntry | .configRecordRead _ | .refreshBurstDone
  | .powerOnDetect | .resetPinLow | .responsePutAcknowledged | .burstEnter _ | .accessEnd | .refreshEnd | .refreshTimerExpiry
  | .closeTimerExpiry _ | .selfRefreshEntry => true
  | _ => false

/-- The clock and power unit, and the memory controller's own state. -/
structure Units where
  clk : ClockPower
  core : Pmc

/-- The units of a state. -/
def State.units (s : State) : Units := ⟨s.clk, s.pmc.core⟩

theorem units_of_base {s t : State} (h : t.base = s.base) : t.units = s.units :=
  congrArg (fun b : Base => (⟨b.clk, b.core⟩ : Units)) h

theorem units_ext {s t : State} (clk : t.clk = s.clk) (core : t.pmc.core = s.pmc.core) : t.units = s.units := by
  rw [State.units, clk, core]; rfl

theorem claimArrival_units {s u : State} {o : Nat} {v : Half} (h : s.claimArrival o v = some u) : u.units = s.units := by
  rw [arrived_of_claimArrival h]; rfl

/-! ### The operations of the cell unit, the table loader and the boot controller -/

@[simp] theorem State.setBoot_units (s : State) (x : Boot) : (s.setBoot x).units = s.units := rfl
@[simp] theorem State.setTables_units (s : State) (x : TableStore) : (s.setTables x).units = s.units := rfl
@[simp] theorem State.setCells_units (s : State) (x : Cells) : (s.setCells x).units = s.units := rfl
@[simp] theorem State.setSense_units (s : State) (x : Sense) : (s.setSense x).units = s.units := rfl
@[simp] theorem State.takeOne_units (s : State) (q : Req) : (s.takeOne q).units = s.units := rfl
@[simp] theorem State.takeAll_units (s : State) (q : Req) : (s.takeAll q).units = s.units := rfl
@[simp] theorem State.fillLoadArea_units (s : State) (d : List Half) : (s.fillLoadArea d).units = s.units := rfl
@[simp] theorem State.bootFail_units (s : State) (code : Nat) : (s.bootFail code).units = s.units := rfl
@[simp] theorem State.spiRead_units (s : State) (a n : Nat) : (s.spiRead a n).units = s.units := rfl

@[simp] theorem State.handDone_units (s : State) (tag : Byte) (code : Nat) (r : Result) (detail : List Byte)
    (mark : CellMark) : (s.handDone tag code r detail mark).units = s.units := units_of_base (State.handDone_base ..)

@[simp] theorem State.readSource_base (s : State) (source length n : Nat) : (s.readSource source length n).base = s.base := by
  induction n generalizing s source length with
  | zero => rfl
  | succ n ih => simp [State.readSource, ih]

@[simp] theorem State.finishStopAll_base (s : State) (x : StopAll) : (s.finishStopAll x).base = s.base := by
  simp [State.finishStopAll]

@[simp] theorem State.cellFault_base (s : State) (ring index written held : Nat) :
    (s.cellFault ring index written held).base = s.base := by
  simp [State.cellFault]

@[simp] theorem State.writeImage_base (s : State) (a : Nat) (data : List Half) (n : Nat) :
    (s.writeImage a data n).base = s.base := by
  induction n generalizing s a data with
  | zero => rfl
  | succ n ih => simp [State.writeImage, ih]

@[simp] theorem State.installTable_units (s : State) (t : TableData) : (s.installTable t).units = s.units := by
  cases t <;> rfl

@[simp] theorem State.enterRelease_units (s : State) : s.enterRelease.units = s.units := by
  apply units_ext <;> simp [State.enterRelease, State.beginWatching]

@[simp] theorem State.endImageWalk_units (s : State) : s.endImageWalk.units = s.units := by
  unfold State.endImageWalk; split <;> simp

@[simp] theorem State.endWalk_units (s : State) : s.endWalk.units = s.units := by
  unfold State.endWalk; dsimp only; repeat' split
  all_goals simp

@[simp] theorem State.nextRecord_units (s : State) (len : Nat) : (s.nextRecord len).units = s.units := by
  unfold State.nextRecord; dsimp only; split <;> simp

@[simp] theorem State.enterTables_units (s : State) : s.enterTables.units = s.units := by
  unfold State.enterTables; dsimp only; split <;> simp

@[simp] theorem State.badTable_units (s : State) (table : Nat) : (s.badTable table).units = s.units := by
  unfold State.badTable; split <;> simp

@[simp] theorem State.configHeader_units (s : State) (h : RecordHeader) : (s.configHeader h).units = s.units := by
  unfold State.configHeader; split <;> simp

@[simp] theorem State.tablesHeader_units (s : State) (h : RecordHeader) : (s.tablesHeader h).units = s.units := by
  unfold State.tablesHeader; repeat' split
  all_goals simp

@[simp] theorem State.imageHeader_units (s : State) (h : RecordHeader) (image : List (Option Byte)) :
    (s.imageHeader h image).units = s.units := by
  unfold State.imageHeader; dsimp only; repeat' split
  · simp
  · simp
  · simp
  · simp
  · exact (units_of_base (State.writeImage_base ..)).trans (by simp)

/-! ### Rows that leave both alone -/

theorem exec_command_units {i : Instr} (hi : (commandCode i).isSome) (hm : movesUnits i = false) (s : State) :
    Meets (fun t => t.units = s.units) (exec i s) := by
  refine meets_command hi rfl ?_
  rintro u rfl
  change Meets (fun t => t.units = u.units) _
  cases i <;> simp only [commandCode, Option.isSome_none, Option.isSome_some, Bool.false_eq_true] at hi
  all_goals try (cases hm; done)
  all_goals
    simp only [exec, execLoadTable, execSetRing, execStartScan, execStartScanCal, execStopScan, execStartPrint,
      execStopPrint, execPausePrint, execResumePrint, execLinkRings, execUnlink, execMoveMotor, execHoldMotor,
      execReleaseMotor, execStopAll, execReboot, execUnknownCommand, claimCommand_given, -List.reduceReplicate]
    repeat' split
  all_goals exact meets_next.mpr (units_of_base (by simp [-List.reduceReplicate]))

theorem finishLoad_units {s u : State} {id : TableId} {data : List Half} (h : s.finishLoad id data = .ok u) :
    u.units = s.units := by
  unfold State.finishLoad at h
  split at h
  · cases h
  · split at h
    · cases h
    · cases h
      exact State.installTable_units s _

theorem execTableLoadReadsComplete_units (s : State) :
    Meets (fun t => t.units = s.units) (execTableLoadReadsComplete s) := by
  unfold execTableLoadReadsComplete
  dsimp only
  split
  · exact meets_next.mpr rfl
  · refine meets_ite (fun _ => ?_) (fun _ => meets_next.mpr rfl)
    split
    · exact meets_next.mpr (by simp)
    next hu => exact meets_next.mpr (by simp [finishLoad_units hu])

theorem exec_boot_units {i : Instr} (hi : keepsGround i = false) (hm : movesUnits i = false) (s : State) :
    Meets (fun t => t.units = s.units) (exec i s) := by
  cases i
  all_goals try (cases hi; done)
  all_goals try (cases hm; done)
  case tableLoadReadsComplete => exact execTableLoadReadsComplete_units s
  case resetPinHigh =>
    refine meets_next.mpr ?_
    unfold State.leaveReset
    split <;> rfl
  all_goals
    simp only [exec, execRomHeaderRead, execRecordHeaderRead, execTableRecordRead, execImageWritesAcknowledged,
      execReleaseWritesAcknowledged, execFaultPulseTimerExpiry]
    repeat' split
  all_goals simp

/-- The other rows leave the clock and power unit and the memory controller's own state alone. -/
theorem exec_units {i : Instr} (hm : movesUnits i = false) (s : State) :
    Meets (fun t => t.units = s.units) (exec i s) := by
  by_cases hc : (commandCode i).isSome
  · exact exec_command_units hc hm s
  by_cases hg : keepsGround i = false
  · exact exec_boot_units hg hm s
  cases i <;> simp only [commandCode, Option.isSome_none, Option.isSome_some, not_true_eq_false] at hc
  all_goals try (cases hm; done)
  all_goals simp only [keepsGround, not_true_eq_false, Bool.true_eq_false, not_false_eq_true] at hg
  case controlBlockWrite =>
    simp only [exec, execControlBlockWrite]
    split
    · simp
    · split
      · simp
      · simp [claimArrival_units ‹_›]
  case commandPutWrite | responseTakeWrite | summaryWordWrite | lineRingPutWrite | lineRingTakeWrite =>
    simp only [exec, execCommandPutWrite, execResponseTakeWrite, execSummaryWordWrite, execLineRingPutWrite,
      execLineRingTakeWrite]
    split
    · simp
    · rw [← claimArrival_units ‹_›]
      repeat' split
      all_goals exact meets_next.mpr (units_of_base (by simp))
  case stopAllComplete =>
    simp only [exec, execStopAllComplete]
    repeat' split
    all_goals exact meets_next.mpr (units_of_base (by simp))
  case hostRead =>
    simp only [exec, execHostRead]
    repeat' split
    all_goals exact meets_next.mpr rfl
  all_goals
    simp only [exec, execCommandTakeStart, execHostWrite, execSlotWritesAcknowledged, execPageEndTagAcknowledged,
      execStepIntervalExpiry, execReadoutComplete, execCalTriggerExpiry, execCalReadoutComplete, execCalSumsAcknowledged,
      execLinkTakeSourceLine, execLinkReadComplete, execFetchStart, execTagReadComplete, execWindowReadComplete,
      execFetchComplete, execShiftInStart, execShiftInComplete, execLineLatch, execPhaseEnd, execNextPhaseStart, execSlewBegin,
      execPrintStreamOff, execSweepPeriodExpiry, execEdgeGapExpiry, execBurstEndExpiry, execSilenceTimerExpiry,
      execInputLevelChange, execResponseCellAcknowledged, execSnapshotAcknowledged]
    repeat' split
  all_goals exact meets_next.mpr (units_ext (by simp) (by simp))

end Sys2Proof.Machine
end

