-- ==== Sys2Proof/Proofs/CoreSource.lean ====
section
/-! The core source (7.1): each operation of the clock and power unit keeps it, but a completed switch, a clock failure, the entry
to STANDBY and the leaving of it. -/

namespace Sys2Proof.Machine

open Sys2Proof

/-! ### Wake causes that a row hands (R153) -/

/-- At most a wake cause acts on the clock and power unit and on the memory controller. -/
def Woken (s t : State) : Prop :=
  t.units = s.units ∨ ∃ (u : State) (cause : WakeCause), u.units = s.units ∧ t.units = (u.wake cause).units

theorem woken_of_wake {s u t : State} {cause : WakeCause} (hu : u.units = s.units) (ht : t.units = (u.wake cause).units) :
    Woken s t := .inr ⟨u, cause, hu, ht⟩

@[simp] theorem State.zoneToBlocks_units (s : State) (role : Role) (zone : Zone) :
    (s.zoneToBlocks role zone).units = s.units := by
  unfold State.zoneToBlocks; split <;> exact units_of_base (by simp)

@[simp] theorem State.senseCell_units (s : State) (position : Nat) (e : SenseEntry) (before after : Zone) (reading : Nat) :
    (s.senseCell position e before after reading).units = s.units := units_of_base (by simp [State.senseCell])

@[simp] theorem State.lineCell_units (s : State) (k : Kind) (fields : List Byte) : (s.lineCell k fields).units = s.units := by
  unfold State.lineCell; split <;> exact units_of_base (by simp)

@[simp] theorem State.setLines_units (s : State) (x : LineInputs) : (s.setLines x).units = s.units := rfl

theorem zoneChange_woken (s : State) (standbySweep : Bool) (position : Nat) (e : SenseEntry) (before after : Zone)
    (reading : Nat) : Woken s (s.zoneChange standbySweep position e before after reading) := by
  unfold State.zoneChange
  split
  · split
    · exact .inl rfl
    · exact .inl (by simp)
  · dsimp only
    split
    · exact woken_of_wake (by split <;> simp) rfl
    · exact .inl (by split <;> simp)

theorem convertEntry_woken (s : State) (standbySweep : Bool) (position raw : Nat) :
    Woken s (s.convertEntry standbySweep position raw) := by
  unfold State.convertEntry
  split
  · exact .inl rfl
  · dsimp only
    split
    · exact .inl rfl
    · exact zoneChange_woken ..

theorem burstQualifies_woken (s : State) : Woken s s.burstQualifies := by
  unfold State.burstQualifies
  exact woken_of_wake (by simp) rfl

theorem debouncedChange_woken (s : State) (input : InputLine) (high : Bool) : Woken s (s.debouncedChange input high) := by
  unfold State.debouncedChange
  split
  · split
    · exact woken_of_wake (by simp) rfl
    · exact .inl rfl
  · exact woken_of_wake (by simp) rfl

theorem execRingEdge_woken (s : State) : Meets (Woken s) (execRingEdge s) := by
  unfold execRingEdge
  refine meets_ite (fun _ => ?_) (fun _ => meets_next.mpr (.inl rfl))
  split
  · exact meets_next.mpr (.inl rfl)
  · exact meets_ite (fun _ => meets_next.mpr (burstQualifies_woken (s.setLines _))) (fun _ => meets_next.mpr (.inl rfl))
  · exact meets_next.mpr (.inl rfl)

theorem execDebounceExpiry_woken (s : State) (input : InputLine) : Meets (Woken s) (execDebounceExpiry input s) :=
  meets_ite (fun _ => meets_next.mpr (debouncedChange_woken (s.setLines _) _ _)) (fun _ => meets_next.mpr (.inl rfl))

/-! ### Sweeps (R104, R111) -/

@[simp] theorem State.sweepEnded_units (s : State) : s.sweepEnded.units = s.units := units_ext (by simp) (by simp)

theorem sweepFrom_units (s : State) (standbySweep : Bool) (p : Nat) :
    (s.sweepFrom standbySweep p).units = s.units ∨ (s.sweepFrom standbySweep p).units = s.dropFastRc.units := by
  unfold State.sweepFrom
  split
  · exact .inl rfl
  · split
    · exact .inr (State.sweepEnded_units _)
    · exact .inl (units_ext (by simp) (by simp))

theorem standbySweepStart_units (s : State) :
    s.standbySweepStart.units = s.units ∨ s.standbySweepStart.units = s.dropFastRc.units := by
  unfold State.standbySweepStart
  dsimp only
  split
  · exact .inl rfl
  · exact .inr (State.sweepEnded_units _)

/-- What CONVERSION_COMPLETE does to the clock and power unit and to the memory controller: a wake cause acts at most, and then a
standby sweep may end. -/
theorem execConversionComplete_woken (s : State) (raw : Byte) : Meets (fun t => ∃ u : State, Woken s u
    ∧ (t.units = u.units ∨ t.units = u.dropFastRc.units)) (execConversionComplete raw s) := by
  refine meets_ite (fun _ => ?_) (fun _ => meets_next.mpr ⟨s, .inl rfl, .inl rfl⟩)
  dsimp only
  split
  · exact meets_next.mpr ⟨s, .inl rfl, .inl rfl⟩
  · refine meets_next.mpr ⟨_, ?_, sweepFrom_units _ _ _⟩
    exact convertEntry_woken (s.setSense { s.sense with converting := false }) _ _ _
  · refine meets_next.mpr ⟨_, ?_, sweepFrom_units _ _ _⟩
    exact convertEntry_woken (s.setSense { s.sense with converting := false }) _ _ _

theorem clk_of_units {s t : State} (h : t.units = s.units) : t.clk = s.clk := congrArg Units.clk h

theorem core_of_units {s t : State} (h : t.units = s.units) : t.pmc.core = s.pmc.core := congrArg Units.core h

/-! ### The core source under the operations of the clock and power unit -/

@[simp] theorem State.clockCell_clk (s : State) (tag : Byte) (r : Result) (origin : Origin) (code : ClockCode)
    (target : Option Source) : (s.clockCell tag r origin code target).clk = s.clk := by simp [State.clockCell]

@[simp] theorem State.reportSwitch_clk (s : State) (w : Switch) (r : Result) (code : ClockCode) :
    (s.reportSwitch w r code).clk = s.clk := by
  unfold State.reportSwitch; dsimp only; split <;> simp

@[simp] theorem State.wakeCell_clk (s : State) (cause : WakeCause) (fromState : PowerState) (abandoned : Bool) :
    (s.wakeCell cause fromState abandoned).clk = s.clk := by simp [State.wakeCell]

@[simp] theorem State.donePower_clk (s : State) (tag : Byte) (r : Result) (mark : CellMark) :
    (s.donePower tag r mark).clk = s.clk := by simp [State.donePower]

@[simp] theorem State.undoRelease_clk (s : State) : s.undoRelease.clk = s.clk := rfl

@[simp] theorem ClockPower.stopUnneeded_core (x : ClockPower) : x.stopUnneeded.core = x.core := by
  cases h : x.core <;> simp [ClockPower.stopUnneeded, h]

@[simp] theorem ClockPower.moveCore_core (x : ClockPower) (target : Source) : (x.moveCore target).core = target := by
  cases target <;> rfl

theorem standbySweepStart_core (s : State) : s.standbySweepStart.clk.core = s.clk.core := by
  obtain h | h := standbySweepStart_units s
  · rw [clk_of_units h]
  · rw [clk_of_units h]; rfl

theorem enterWaitQuiet_coreSource (s : State) : s.enterWaitQuiet.clk.core = s.clk.core := rfl

theorem crystalReady_core (s : State) (target : Source) : (s.crystalReady target).clk.core = s.clk.core := by
  cases target <;> rfl

theorem beginSwitch_core (s : State) (target : Source) (origin : Origin) (tag : Byte) :
    (s.beginSwitch target origin tag).clk.core = s.clk.core := by
  unfold State.beginSwitch
  dsimp only
  split
  · split
    · exact crystalReady_core _ target
    · rfl
  · rfl

theorem switchFail_core (s : State) (code : ClockCode) : (s.switchFail code).clk.core = s.clk.core := by
  simp [State.switchFail]

theorem clockFailure_clk (s : State) : s.clockFailure.clk.core = .fastRc ∧ s.clockFailure.clk.failed = true := by
  unfold State.clockFailure
  dsimp only
  split
  · simp [State.switchFail, ClockPower.stopUnneeded]
  · simp

theorem finishAbandon_core (s : State) : s.finishAbandon.clk.core = s.clk.core := by
  unfold State.finishAbandon
  split <;> simp

theorem abandonEntry_core (s : State) : s.abandonEntry.clk.core = s.clk.core := by
  unfold State.abandonEntry
  repeat' split
  all_goals simp [finishAbandon_core]

theorem leaveOnFastRc_core (s : State) : s.leaveOnFastRc.clk.core = .fastRc := by
  simp [State.leaveOnFastRc]

theorem beginLeaving_core (s : State) : s.beginLeaving.clk.core = s.clk.core ∨ s.beginLeaving.clk.core = .fastRc := by
  unfold State.beginLeaving
  dsimp only
  split
  · exact .inr (leaveOnFastRc_core _)
  · exact .inl rfl
  · exact .inl rfl

theorem finishLeaving_core (s : State) : s.finishLeaving.clk.core = s.clk.core := by
  unfold State.finishLeaving
  dsimp only
  repeat' split
  all_goals simp [beginSwitch_core]

/-- A wake cause moves the core source in STANDBY alone, to FAST_RC. -/
theorem wake_core (s : State) (cause : WakeCause) : (s.wake cause).clk.core = s.clk.core
    ∨ s.clk.power = .standby ∧ (s.wake cause).clk.core = .fastRc := by
  unfold State.wake
  split
  · exact .inl rfl
  · exact .inl rfl
  · split <;> exact .inl (by simp)
  · split
    · exact .inl rfl
    · exact .inl (abandonEntry_core _)
  next hpower => exact (beginLeaving_core _).imp id fun h => ⟨hpower, h⟩

/-- The core source is as it was, or the part was in STANDBY or leaving it, and it is FAST_RC. -/
def coreLeaves (s t : State) : Prop :=
  t.clk.core = s.clk.core ∨ (s.clk.power = .standby ∨ s.clk.needLeave = true) ∧ t.clk.core = .fastRc

theorem woken_coreLeaves {s t : State} (h : Woken s t) : coreLeaves s t := by
  obtain h | ⟨u, cause, hu, ht⟩ := h
  · exact .inl (congrArg ClockPower.core (clk_of_units h))
  · rw [coreLeaves, clk_of_units ht, ← clk_of_units hu]
    exact (wake_core u cause).imp id fun h => ⟨.inl h.1, h.2⟩

/-! ### The core source row by row -/

/-- The rows of the memory controller leave the clock and power unit alone. -/
def keepsClk : Instr → Bool
  | .burstEnter _ | .accessEnd | .refreshEnd | .refreshTimerExpiry | .closeTimerExpiry _ | .selfRefreshEntry => true
  | _ => false

@[simp] theorem State.perform_clk (s : State) (b : Burst) : (s.perform b).clk = s.clk := by
  unfold State.perform
  cases b.dir <;> simp

theorem exec_clk {i : Instr} (hi : keepsClk i) (s : State) : Meets (fun t => t.clk = s.clk) (exec i s) := by
  cases i
  all_goals try (cases hi; done)
  all_goals
    simp only [exec, execBurstEnter, execAccessEnd, execRefreshEnd, execRefreshTimerExpiry, execCloseTimerExpiry,
      execSelfRefreshEntry]
    repeat' split
  all_goals simp

/-- The rows at which the core source may change otherwise than as the part leaves STANDBY. -/
def coreRow : Instr → Bool
  | .switchComplete | .lossWindowExpiry | .standbyEntry => true
  | i => coldRow i

theorem exec_coreLeaves {i : Instr} (hi : coreRow i = false) (s : State) : Meets (coreLeaves s) (exec i s) := by
  intro t ht
  by_cases hm : movesUnits i = false
  · exact .inl (congrArg ClockPower.core (clk_of_units (exec_units hm s t ht)))
  by_cases hk : keepsClk i
  · exact .inl (congrArg ClockPower.core (exec_clk hk s t ht))
  revert t
  change Meets (coreLeaves s) (exec i s)
  cases i
  all_goals try (exact absurd rfl hm)
  all_goals try (exact absurd rfl hk)
  all_goals try (cases hi; done)
  case ringEdge => exact fun t ht => woken_coreLeaves (execRingEdge_woken s t ht)
  case debounceExpiry input => exact fun t ht => woken_coreLeaves (execDebounceExpiry_woken s input t ht)
  case conversionComplete raw =>
    intro t ht
    obtain ⟨u, hu, h⟩ := execConversionComplete_woken s raw t ht
    have hcore : t.clk.core = u.clk.core := by
      obtain h | h := h
      · exact congrArg ClockPower.core (clk_of_units h)
      · exact (congrArg ClockPower.core (clk_of_units (s := u.dropFastRc) h)).trans rfl
    rw [coreLeaves, hcore]
    exact woken_coreLeaves hu
  case setPower tag target snapBack ratio wakeTimer =>
    refine meets_command rfl (.inl rfl) ?_
    rintro u rfl
    simp only [exec, execSetPower, claimCommand_given, State.beginEntry]
    repeat' split
    all_goals exact meets_next.mpr (.inl (by simp; rfl))
  case switchClock tag target =>
    refine meets_command rfl (.inl rfl) ?_
    rintro u rfl
    simp only [exec, execSwitchClock, claimCommand_given]
    repeat' split
    all_goals exact meets_next.mpr (.inl (by simp [beginSwitch_core]; rfl))
  case standbyTimerExpiry =>
    refine meets_ite (fun _ => ?_) (fun _ => meets_next.mpr (.inl rfl))
    dsimp only
    split
    · exact meets_next.mpr (.inl (by rw [standbySweepStart_core]; rfl))
    · exact meets_next.mpr (.inl rfl)
    · exact meets_next.mpr (.inl rfl)
  case fastRcRunning =>
    refine meets_ite (fun _ => meets_next.mpr ?_) (fun _ => meets_next.mpr (.inl rfl))
    dsimp only
    repeat' split
    next hneed _ => exact .inr ⟨.inr hneed, by rw [standbySweepStart_core, leaveOnFastRc_core]⟩
    next hneed _ => exact .inr ⟨.inr hneed, leaveOnFastRc_core _⟩
    next hneed _ => exact .inl (by rw [standbySweepStart_core]; rfl)
    next hneed _ => exact .inl rfl
  case wakeTimerExpiry =>
    refine meets_ite (fun _ => meets_next.mpr ?_) (fun _ => meets_next.mpr (.inl rfl))
    exact (wake_core _ _).imp id fun h => ⟨.inl h.1, h.2⟩
  case configRecordRead data =>
    simp only [exec, execConfigRecordRead]
    repeat' split
    · simp only [meets_next, State.applyConfig]
      split
      · exact .inl (by simp [beginSwitch_core]; rfl)
      · exact .inl (by simp; rfl)
    · exact meets_next.mpr (.inl rfl)
    · exact meets_next.mpr (.inl rfl)
  case refreshBurstDone =>
    simp only [exec, execRefreshBurstDone, State.memoryBack]
    repeat' split
    case h_1.isTrue => exact meets_next.mpr (.inl (by rw [clk_of_units (State.enterTables_units _)]; rfl))
    all_goals exact meets_next.mpr (.inl (by simp [finishAbandon_core, finishLeaving_core]))
  all_goals
    simp only [exec, execSettleCountReached, execStartWindowExpiry, execPllLock, execLockWindowExpiry, execHostClockStop]
    repeat' split
  all_goals exact meets_next.mpr (.inl (by simp [crystalReady_core, switchFail_core, enterWaitQuiet_coreSource]))

theorem coldStart_core (s : State) (cause : ColdCause) : (s.coldStart cause).clk.core = .fastRc := by
  unfold State.coldStart State.leaveReset
  split <;> rfl

@[simp] theorem State.leaveReset_clk (s : State) : s.leaveReset.clk = s.clk := by
  unfold State.leaveReset; split <;> rfl

/-- A row of a cold start that begins none leaves the core source alone. -/
theorem coldRow_core {i : Instr} (hi : coldRow i) (s : State) :
    Meets (fun t => t.clk.core = s.clk.core ∨ t.clk.core = .fastRc) (exec i s) := by
  cases i
  all_goals try (cases hi; done)
  case powerOnDetect => exact meets_next.mpr (.inr (coldStart_core _ _))
  case resetPinLow => exact meets_ite (fun _ => meets_next.mpr (.inr (coldStart_core _ _))) (fun _ => meets_next.mpr (.inl rfl))
  case responsePutAcknowledged =>
    simp only [exec, execResponsePutAcknowledged, State.standbyWritten, State.pageScannedWritten]
    repeat' split
    all_goals simp [coldStart_core]

end Sys2Proof.Machine

namespace Sys2Proof.Proofs

open Sys2Proof Sys2Proof.Machine

/-- Settles O53: outside the rows of a switch's completion, a clock failure, the entry to STANDBY and a cold start, the core source
stays or the part leaves STANDBY. -/
theorem coreSourceChanges : Obligations.CoreSourceChanges := by
  intro i s t h hne
  by_cases hc : coreRow i
  · by_cases hcold : coldRow i
    · have hfast := (coldRow_core hcold s t h).resolve_left hne
      refine .inr (.inr (.inr (.inr ⟨?_, hfast⟩)))
      cases i <;> simp_all [coldRow]
    cases i
    all_goals try (cases hc; done)
    all_goals try (exact absurd rfl hcold)
    case switchComplete =>
      simp only [exec, execSwitchComplete] at h
      split at h
      next target hst htarget =>
        split at h
        next hquiet =>
          cases h
          simp only [State.quiet, Channel.atRest, Bool.and_eq_true, Bool.not_eq_true'] at hquiet
          obtain ⟨⟨⟨hdoc, hpaper⟩, hfiring⟩, hconv⟩ := hquiet
          exact .inl ⟨rfl, hst, by simpa using htarget, hdoc, hpaper, hfiring, hconv⟩
        · cases h
          exact absurd rfl hne
      all_goals
        cases h
        exact absurd rfl hne
    case lossWindowExpiry =>
      simp only [exec, execLossWindowExpiry] at h
      split at h
      · split at h
        next hcrystal =>
          cases h
          exact .inr (.inl ⟨rfl, hcrystal, clockFailure_clk s⟩)
        · cases h
          exact absurd (switchFail_core s _) hne
      · cases h
        exact absurd rfl hne
    case standbyEntry =>
      simp only [exec, execStandbyEntry] at h
      split at h
      next hentry =>
        cases h
        exact .inr (.inr (.inl ⟨rfl, hentry.1, rfl⟩))
      · cases h
        exact absurd rfl hne
  · have hleaves := exec_coreLeaves (by simpa using hc) s t h
    exact .inr (.inr (.inr (.inl (hleaves.resolve_left hne))))

end Sys2Proof.Proofs
end

