-- ==== Sys2Proof/Proofs/Ctrl.lean ====
section
/-! The page memory controller: what the order of the queues by age says, what an entry is represented by, how the request rule and a
grant point choose, and a granted access. -/

namespace Sys2Proof.Machine

open Sys2Proof

/-! ### Queues in age order (R119) -/

theorem agesBelow_iff {next : Nat} {q : List Burst} :
    agesBelow next q = true ↔ q.Pairwise (fun a b => a.age < b.age) ∧ ∀ b ∈ q, b.age < next := by
  induction q with
  | nil => simp [agesBelow]
  | cons a rest ih =>
    cases rest with
    | nil => simp [agesBelow]
    | cons b rest =>
      simp only [agesBelow, Bool.and_eq_true, decide_eq_true_eq, ih, List.pairwise_cons, List.mem_cons, forall_eq_or_imp]
      constructor
      · rintro ⟨hab, ⟨hb, hrest⟩, hn, hall⟩
        exact ⟨⟨⟨hab, fun e he => hab.trans (hb e he)⟩, hb, hrest⟩, hab.trans hn, hn, hall⟩
      · rintro ⟨⟨⟨hab, -⟩, hb, hrest⟩, -, hn, hall⟩
        exact ⟨hab, ⟨hb, hrest⟩, hn, hall⟩

/-- The first entry of a queue in age order that has a property is the oldest one that has it. -/
theorem find_eq_some_iff_oldest {q : List Burst} (h : q.Pairwise (fun a b => a.age < b.age)) (p : Burst → Bool) (b : Burst) :
    q.find? p = some b ↔ b ∈ q ∧ p b = true ∧ ∀ e ∈ q, p e = true → b.age ≤ e.age := by
  induction q with
  | nil => simp
  | cons a rest ih =>
    obtain ⟨ha, hrest⟩ := List.pairwise_cons.mp h
    cases hp : p a with
    | true =>
      simp only [List.find?_cons, hp, Option.some.injEq, List.mem_cons, forall_eq_or_imp, forall_const]
      constructor
      · rintro rfl
        exact ⟨.inl rfl, hp, le_refl _, fun e he _ => (ha e he).le⟩
      · rintro ⟨rfl | hb, -, hle, -⟩
        · rfl
        · exact absurd (ha b hb) (not_lt.mpr hle)
    | false =>
      simp only [List.find?_cons, hp, ih hrest, List.mem_cons, forall_eq_or_imp, Bool.false_eq_true, false_implies, true_and]
      constructor
      · rintro ⟨hb, hrest⟩
        exact ⟨.inr hb, hrest⟩
      · rintro ⟨rfl | hb, hpb, hrest⟩
        · rw [hp] at hpb; cases hpb
        · exact ⟨hb, hpb, hrest⟩

/-- The oldest entry of its class in a queue. -/
def OldestOfClass (q : List Burst) (b : Burst) : Prop := b ∈ q ∧ ∀ e ∈ q, e.cls = b.cls → b.age ≤ e.age

/-- A queued write that entered before a read and shares a halfword with it. -/
def Pmc.Holds (x : Pmc) (w r : Burst) : Prop :=
  w ∈ x.writeQ ∧ w.age < r.age ∧ w.half < r.half + r.len ∧ r.half < w.half + w.len

theorem find_class_iff {q : List Burst} (h : q.Pairwise (fun a b => a.age < b.age)) (k : MemClass) (b : Burst) :
    q.find? (fun e => e.cls = k) = some b ↔ OldestOfClass q b ∧ b.cls = k := by
  rw [find_eq_some_iff_oldest h]
  simp only [decide_eq_true_eq, OldestOfClass]
  constructor
  · rintro ⟨hb, rfl, hle⟩
    exact ⟨⟨hb, hle⟩, rfl⟩
  · rintro ⟨⟨hb, hle⟩, rfl⟩
    exact ⟨hb, rfl, hle⟩

theorem inBounds_ages {x : Pmc} (h : x.inBounds = true) :
    x.readQ.Pairwise (fun a b => a.age < b.age) ∧ x.writeQ.Pairwise (fun a b => a.age < b.age) := by
  simp only [Pmc.inBounds, Bool.and_eq_true, agesBelow_iff] at h
  exact ⟨h.1.2.1, h.2.1⟩

/-! ### What represents an entry (R121) -/

theorem eligibleRead_iff {x : Pmc} (h : x.inBounds = true) (k : MemClass) (r : Burst) :
    x.eligibleRead k = some r ↔ OldestOfClass x.readQ r ∧ r.cls = k := find_class_iff (inBounds_ages h).1 k r

theorem eligibleWrite_iff {x : Pmc} (h : x.inBounds = true) (k : MemClass) (w : Burst) :
    x.eligibleWrite k = some w ↔ OldestOfClass x.writeQ w ∧ w.cls = k := find_class_iff (inBounds_ages h).2 k w

theorem eligibleRead_none {x : Pmc} {k : MemClass} (h : ∀ e ∈ x.readQ, e.cls ≠ k) : x.eligibleRead k = none := by
  simpa [Pmc.eligibleRead] using h

theorem heldBy_none_iff (x : Pmc) (r : Burst) : x.heldBy r = none ↔ ∀ w, ¬x.Holds w r := by
  simp only [Pmc.heldBy, List.find?_eq_none, Burst.overlaps, Bool.and_eq_true, decide_eq_true_eq, Pmc.Holds, not_and]

theorem heldBy_some_iff {x : Pmc} (h : x.inBounds = true) (r w : Burst) :
    x.heldBy r = some w ↔ x.Holds w r ∧ ∀ v, x.Holds v r → w.age ≤ v.age := by
  simp only [Pmc.heldBy, find_eq_some_iff_oldest (inBounds_ages h).2, Burst.overlaps, Bool.and_eq_true, decide_eq_true_eq,
    Pmc.Holds, and_imp, and_assoc]

theorem standIn_free {x : Pmc} {r : Burst} (h : ∀ w, ¬x.Holds w r) : x.standIn r = r := by
  simp only [Pmc.standIn, (heldBy_none_iff x r).mpr h]

theorem standIn_held {x : Pmc} (h : x.inBounds = true) {r w a : Burst} (hw : x.Holds w r)
    (hold : ∀ v, x.Holds v r → w.age ≤ v.age) (ha : OldestOfClass x.writeQ a) (hcls : a.cls = w.cls) : x.standIn r = a := by
  simp only [Pmc.standIn, (heldBy_some_iff h r w).mpr ⟨hw, hold⟩, (eligibleWrite_iff h w.cls a).mpr ⟨ha, hcls⟩,
    Option.getD_some]

/-- A queued write's class has an eligible write. -/
theorem exists_eligibleWrite {x : Pmc} {w : Burst} (hw : w ∈ x.writeQ) : ∃ a, x.eligibleWrite w.cls = some a := by
  rw [← Option.isSome_iff_exists]
  simpa [Pmc.eligibleWrite] using ⟨w, hw, rfl⟩

/-- What stands in for a read: itself where no queued write holds it, or else an eligible write. -/
theorem standIn_cases {x : Pmc} (h : x.inBounds = true) (r : Burst) :
    (x.standIn r = r ∧ ∀ w, ¬x.Holds w r) ∨ OldestOfClass x.writeQ (x.standIn r) := by
  cases hr : x.heldBy r with
  | none => exact .inl ⟨standIn_free ((heldBy_none_iff x r).mp hr), (heldBy_none_iff x r).mp hr⟩
  | some w =>
    obtain ⟨hw, hold⟩ := (heldBy_some_iff h r w).mp hr
    obtain ⟨a, ha⟩ := exists_eligibleWrite hw.1
    obtain ⟨ho, hcls⟩ := (eligibleWrite_iff h _ a).mp ha
    rw [standIn_held h hw hold ho hcls]
    exact .inr ho

theorem mem_entryOrder (u : Bool) (k : MemClass) : k ∈ entryOrder u := by
  cases u <;> cases k <;> decide

/-- R125: what may be granted: an eligible write, or an eligible read that no queued write holds. -/
def Pmc.Grantable (x : Pmc) (b : Burst) : Prop :=
  OldestOfClass x.writeQ b ∨ (OldestOfClass x.readQ b ∧ ∀ w, ¬x.Holds w b)

theorem mem_candidates_iff {x : Pmc} (h : x.inBounds = true) (a : Burst) : a ∈ x.candidates ↔ x.Grantable a := by
  simp only [Pmc.candidates, List.mem_flatMap, List.mem_append, Option.mem_toList, Option.map_eq_some_iff,
    eligibleRead_iff h, eligibleWrite_iff h]
  constructor
  · rintro ⟨k, -, ⟨r, ⟨hr, -⟩, rfl⟩ | ⟨hw, -⟩⟩
    · obtain ⟨heq, hfree⟩ | hw := standIn_cases h r
      · rw [heq]; exact .inr ⟨hr, hfree⟩
      · exact .inl hw
    · exact .inl hw
  · rintro (hw | ⟨hr, hfree⟩)
    · exact ⟨a.cls, mem_entryOrder _ _, .inr ⟨hw, rfl⟩⟩
    · exact ⟨a.cls, mem_entryOrder _ _, .inl ⟨a, ⟨hr, rfl⟩, standIn_free hfree⟩⟩

/-! ### The request rule (R125) -/

theorem oldest_eq_none {l : List Burst} : oldest l = none ↔ l = [] := by
  cases l with
  | nil => simp [oldest]
  | cons b bs =>
    simp only [oldest, reduceCtorEq, iff_false]
    split
    · simp
    · split <;> simp

theorem oldest_eq_some {l : List Burst} {b : Burst} (h : oldest l = some b) : b ∈ l ∧ ∀ a ∈ l, b.age ≤ a.age := by
  induction l generalizing b with
  | nil => simp [oldest] at h
  | cons c cs ih =>
    simp only [oldest] at h
    split at h
    next hnone =>
      obtain rfl := Option.some.inj h
      simp [oldest_eq_none.mp hnone]
    next a ha =>
      obtain ⟨hmem, hle⟩ := ih ha
      split at h <;> obtain rfl := Option.some.inj h
      next hca =>
        refine ⟨List.mem_cons_self, ?_⟩
        rintro e (_ | ⟨_, he⟩)
        · exact le_refl _
        · exact hca.trans (hle e he)
      next hca =>
        refine ⟨List.mem_cons_of_mem _ hmem, ?_⟩
        rintro e (_ | ⟨_, he⟩)
        · exact (not_le.mp hca).le
        · exact hle e he

theorem bestByClass_eq_none {bs : List Burst} {order : List MemClass} (hall : ∀ a ∈ bs, a.cls ∈ order) :
    bestByClass bs order = none ↔ bs = [] := by
  induction order generalizing bs with
  | nil =>
    simp only [bestByClass, true_iff]
    exact List.eq_nil_iff_forall_not_mem.mpr fun a ha => List.not_mem_nil (hall a ha)
  | cons k ks ih =>
    simp only [bestByClass]
    split
    next b hb =>
      obtain ⟨hmem, -⟩ := oldest_eq_some hb
      simp only [reduceCtorEq, false_iff]
      exact List.ne_nil_of_mem (List.mem_of_mem_filter hmem)
    next hnone =>
      refine ih fun a ha => (List.mem_cons.mp (hall a ha)).resolve_left fun hk => ?_
      have : a ∈ bs.filter (fun b => b.cls = k) := List.mem_filter.mpr ⟨ha, by simpa using hk⟩
      rw [oldest_eq_none.mp hnone] at this
      exact List.not_mem_nil this

/-- R125, steps 3 and 4: what is best goes before every other by class, or is at least as old in its class. -/
theorem bestByClass_eq_some {bs : List Burst} {order : List MemClass} {b : Burst}
    (horder : order.Pairwise (fun j k => classRank j < classRank k)) (hall : ∀ a ∈ bs, a.cls ∈ order)
    (h : bestByClass bs order = some b) :
    b ∈ bs ∧ ∀ a ∈ bs, classRank b.cls < classRank a.cls ∨ (a.cls = b.cls ∧ b.age ≤ a.age) := by
  induction order generalizing bs with
  | nil => simp [bestByClass] at h
  | cons k ks ih =>
    obtain ⟨hk, hks⟩ := List.pairwise_cons.mp horder
    simp only [bestByClass] at h
    split at h
    next c hc =>
      obtain rfl := Option.some.inj h
      obtain ⟨hmem, hle⟩ := oldest_eq_some hc
      obtain ⟨hb, hcls⟩ := List.mem_filter.mp hmem
      obtain rfl : c.cls = k := by simpa using hcls
      refine ⟨hb, fun a ha => ?_⟩
      obtain heq | hin := List.mem_cons.mp (hall a ha)
      · exact .inr ⟨heq, hle a (List.mem_filter.mpr ⟨ha, by simpa using heq⟩)⟩
      · exact .inl (hk _ hin)
    next hnone =>
      refine ih hks (fun a ha => (List.mem_cons.mp (hall a ha)).resolve_left fun heq => ?_) h
      have : a ∈ bs.filter (fun b => b.cls = k) := List.mem_filter.mpr ⟨ha, by simpa using heq⟩
      rw [oldest_eq_none.mp hnone] at this
      exact List.not_mem_nil this

theorem entryOrder_ranked : (entryOrder false).Pairwise (fun j k => classRank j < classRank k) := by decide

theorem chooseRequest_eq_none (c : BoardConfig) (x : Pmc) : x.chooseRequest c = none ↔ x.candidates = [] := by
  simp only [Pmc.chooseRequest]
  split
  next b hb =>
    obtain ⟨hmem, -⟩ := oldest_eq_some hb
    simp only [reduceCtorEq, false_iff]
    exact List.ne_nil_of_mem (List.mem_of_mem_filter hmem)
  next =>
    rw [bestByClass_eq_none fun a _ => mem_entryOrder _ _]
    split
    next => rfl
    next hhits =>
      refine iff_of_false hhits fun hnil => hhits ?_
      rw [hnil, List.filter_nil]

/-- R125: the oldest aged candidate; or, with none aged, the best page hit; or, with none hit, the best candidate. -/
theorem chooseRequest_eq_some {c : BoardConfig} {x : Pmc} {b : Burst} (h : x.chooseRequest c = some b) :
    oldest (x.candidates.filter (fun a => 32 ≤ a.passed)) = some b
    ∨ (∀ a ∈ x.candidates, a.passed < 32) ∧ x.candidates.filter (x.pageHit c) ≠ []
      ∧ bestByClass (x.candidates.filter (x.pageHit c)) (entryOrder false) = some b
    ∨ (∀ a ∈ x.candidates, a.passed < 32) ∧ (∀ a ∈ x.candidates, x.pageHit c a = false)
      ∧ bestByClass x.candidates (entryOrder false) = some b := by
  simp only [Pmc.chooseRequest] at h
  split at h
  next a ha =>
    obtain rfl := Option.some.inj h
    exact .inl ha
  next hnone =>
    have hyoung : ∀ a ∈ x.candidates, a.passed < 32 := fun a ha => not_le.mp fun h32 =>
      List.filter_eq_nil_iff.mp (oldest_eq_none.mp hnone) a ha (decide_eq_true h32)
    split at h
    next hhits => exact .inr (.inr ⟨hyoung, by simpa using hhits, h⟩)
    next hhits => exact .inr (.inl ⟨hyoung, hhits, h⟩)

theorem chooseRequest_mem {c : BoardConfig} {x : Pmc} {b : Burst} (h : x.chooseRequest c = some b) : b ∈ x.candidates := by
  obtain hold | ⟨-, -, hbest⟩ | ⟨-, -, hbest⟩ := chooseRequest_eq_some h
  · exact List.mem_of_mem_filter (oldest_eq_some hold).1
  · exact List.mem_of_mem_filter (bestByClass_eq_some entryOrder_ranked (fun _ _ => mem_entryOrder _ _) hbest).1
  · exact (bestByClass_eq_some entryOrder_ranked (fun _ _ => mem_entryOrder _ _) hbest).1

/-! ### A grant point (R123, R124) -/

/-- R123: the states in which grants are made. -/
def Pmc.Granting (x : Pmc) : Prop := x.st = .starting ∨ x.st = .running ∨ x.st = .srEntry ∨ x.st = .srExit

theorem mayGrant_iff (x : Pmc) : x.mayGrant = true ↔ x.act = .free ∧ x.Granting := by
  simp only [Pmc.mayGrant, Bool.and_eq_true, beq_iff_eq, Pmc.Granting]
  cases x.st <;> simp

theorem grantPoint_of_not {c : BoardConfig} {x : Pmc} (h : x.mayGrant = false) : x.grantPoint c = x := by
  simp only [Pmc.grantPoint, h, Bool.false_eq_true, if_false]

/-- A grant point, as the rules of R124 in order. -/
theorem grantPoint_eq {c : BoardConfig} {x : Pmc} (h : x.mayGrant = true) : x.grantPoint c =
    (if 0 < x.burstRem then
      { x with act := .refresh, bank0 := {}, bank1 := {}, owed := x.owed - 1, burstRem := x.burstRem - 1 }
    else if 4 ≤ x.owed then { x with act := .refresh, bank0 := {}, bank1 := {}, owed := x.owed - 1 }
    else
      match (if x.urgent then x.eligibleRead .print else none), (if x.drain then x.writeQ.head? else none),
        x.chooseRequest c with
      | some r, _, _ => x.startAccess c (x.standIn r)
      | none, some w, _ => x.startAccess c w
      | none, none, some b => x.startAccess c b
      | none, none, none =>
        if 0 < x.owed then { x with act := .refresh, bank0 := {}, bank1 := {}, owed := x.owed - 1 } else x) := by
  simp only [Pmc.grantPoint, h, if_true, Pmc.choose]
  by_cases hburst : 0 < x.burstRem
  · simp only [if_pos hburst, Pmc.startRefresh, Pmc.closeAll, if_true]
  by_cases howed : 4 ≤ x.owed
  · simp only [if_neg hburst, if_pos howed, Pmc.startRefresh, Pmc.closeAll, Bool.false_eq_true, if_false]
  simp only [if_neg hburst, if_neg howed, Pmc.chooseEntry]
  cases (if x.urgent then x.eligibleRead .print else none) with
  | some r => rfl
  | none =>
    cases (if x.drain then x.writeQ.head? else none) with
    | some w => rfl
    | none =>
      cases x.chooseRequest c with
      | some b => rfl
      | none =>
        by_cases hzero : 0 < x.owed
        · simp only [if_pos hzero, Pmc.startRefresh, Pmc.closeAll, Bool.false_eq_true, if_false]
        · simp only [if_neg hzero]

theorem head_oldest {q : List Burst} (h : q.Pairwise (fun a b => a.age < b.age)) {b : Burst} (hb : q.head? = some b) :
    OldestOfClass q b := by
  cases q with
  | nil => cases hb
  | cons a rest =>
    obtain rfl := Option.some.inj hb
    refine ⟨List.mem_cons_self, ?_⟩
    rintro e (_ | ⟨_, he⟩) _
    · exact le_refl _
    · exact ((List.pairwise_cons.mp h).1 e he).le

/-- What a grant point may do: a refresh, an access of a grantable entry, or nothing with nothing to grant. -/
theorem grantPoint_cases {c : BoardConfig} {x : Pmc} (hm : x.mayGrant = true) :
    (∃ burst, x.grantPoint c = x.startRefresh burst)
    ∨ (∃ b, x.grantPoint c = x.startAccess c b ∧ (x.inBounds = true → x.Grantable b))
    ∨ (x.grantPoint c = x ∧ x.burstRem = 0 ∧ x.owed = 0 ∧ x.candidates = []) := by
  simp only [Pmc.grantPoint, hm, if_true]
  split
  next burst _ => exact .inl ⟨burst, rfl⟩
  next b hb =>
    refine .inr (.inl ⟨b, rfl, fun hx => ?_⟩)
    simp only [Pmc.choose, Pmc.chooseEntry] at hb
    split at hb
    · cases hb
    split at hb
    · cases hb
    split at hb
    next r hr =>
      obtain rfl := Grant.access.inj (Option.some.inj hb)
      split at hr
      · obtain ⟨hold, -⟩ := (eligibleRead_iff hx _ _).mp hr
        obtain ⟨heq, hfree⟩ | hw := standIn_cases hx r
        · rw [heq]; exact .inr ⟨hold, hfree⟩
        · exact .inl hw
      · cases hr
    split at hb
    next w hw =>
      obtain rfl := Grant.access.inj (Option.some.inj hb)
      split at hw
      · exact .inl (head_oldest (inBounds_ages hx).2 hw)
      · cases hw
    split at hb
    next a ha =>
      obtain rfl := Grant.access.inj (Option.some.inj hb)
      exact (mem_candidates_iff hx _).mp (chooseRequest_mem ha)
    split at hb <;> cases hb
  next hnone =>
    refine .inr (.inr ⟨rfl, ?_⟩)
    simp only [Pmc.choose, Pmc.chooseEntry] at hnone
    split at hnone
    · cases hnone
    next hburst =>
    split at hnone
    · cases hnone
    split at hnone
    · cases hnone
    split at hnone
    · cases hnone
    split at hnone
    · cases hnone
    next hreq =>
    split at hnone
    · cases hnone
    next howed =>
    exact ⟨by omega, by omega, (chooseRequest_eq_none c x).mp hreq⟩

/-! ### A granted access (R129, R130) -/

@[simp] theorem setBank_act (x : Pmc) (one : Bool) (b : Bank) : (x.setBank one b).act = x.act := by cases one <;> rfl
@[simp] theorem setBank_readQ (x : Pmc) (one : Bool) (b : Bank) : (x.setBank one b).readQ = x.readQ := by cases one <;> rfl
@[simp] theorem setBank_writeQ (x : Pmc) (one : Bool) (b : Bank) : (x.setBank one b).writeQ = x.writeQ := by cases one <;> rfl

@[simp] theorem bank_setBank (x : Pmc) (one : Bool) (b : Bank) : (x.setBank one b).bank one = b := by cases one <;> rfl

@[simp] theorem bank_setBank_other (x : Pmc) (one : Bool) (b : Bank) : (x.setBank one b).bank (!one) = x.bank (!one) := by
  cases one <;> rfl

theorem startAccess_bank (c : BoardConfig) (x : Pmc) (b : Burst) (one : Bool) : (x.startAccess c b).bank one =
    (x.setBank (c.bankOf b.half) { openRow := some (c.rowOf b.half), closeTimer := none }).bank one := rfl

theorem Burst.columnUses_eq (b : Burst) :
    b.columnUses = if b.dir = .write ∧ b.lowEnable ≠ b.highEnable then 2 * b.len else b.len :=
  if_congr (by simp only [Bool.and_eq_true, decide_eq_true_eq, bne_iff_ne]) rfl rfl

end Sys2Proof.Machine

namespace Sys2Proof.Proofs

open Sys2Proof Sys2Proof.Machine

/-- Settles O11: the three ways the rule chooses, each by what is oldest or best of a list. -/
theorem requestRule : Obligations.RequestRule := by
  intro c x
  refine ⟨fun h a => ?_, chooseRequest_eq_none c x, fun b hb => ⟨chooseRequest_mem hb, ?_, ?_, ?_⟩⟩
  · simp only [mem_candidates_iff h, Pmc.Grantable, OldestOfClass, Pmc.Holds, not_and, and_assoc]
  all_goals obtain hold | ⟨hyoung, hhits, hbest⟩ | ⟨hyoung, hmiss, hbest⟩ := chooseRequest_eq_some hb
  · intro _
    obtain ⟨hmem, hle⟩ := oldest_eq_some hold
    simp only [List.mem_filter, decide_eq_true_eq] at hmem hle
    exact ⟨hmem.2, fun a ha h32 => hle a ⟨ha, h32⟩⟩
  · rintro ⟨a, ha, h32⟩
    exact absurd (hyoung a ha) (not_lt.mpr h32)
  · rintro ⟨a, ha, h32⟩
    exact absurd (hyoung a ha) (not_lt.mpr h32)
  · intro hyoung
    obtain ⟨hmem, -⟩ := oldest_eq_some hold
    simp only [List.mem_filter, decide_eq_true_eq] at hmem
    exact absurd (hyoung b hmem.1) (not_lt.mpr hmem.2)
  · intro _ _
    obtain ⟨hmem, hfirst⟩ := bestByClass_eq_some entryOrder_ranked (fun _ _ => mem_entryOrder _ _) hbest
    exact ⟨(List.mem_filter.mp hmem).2, fun a ha hhit => hfirst a (List.mem_filter.mpr ⟨ha, hhit⟩)⟩
  · rintro - ⟨a, ha, hhit⟩
    rw [hmiss a ha] at hhit
    cases hhit
  · intro hyoung
    obtain ⟨hmem, -⟩ := oldest_eq_some hold
    simp only [List.mem_filter, decide_eq_true_eq] at hmem
    exact absurd (hyoung b hmem.1) (not_lt.mpr hmem.2)
  · intro _ hmiss
    simp_all
  · intro _ _
    exact (bestByClass_eq_some entryOrder_ranked (fun _ _ => mem_entryOrder _ _) hbest).2

/-- Settles O12: the equations of a granted access. -/
theorem accessTiming : Obligations.AccessTiming := by
  intro c x b
  have hbank := startAccess_bank c x b
  refine ⟨?_, ?_, ?_, ?_, ?_, ?_⟩
  · refine congrArg (Activity.access b) ?_
    rcases (x.bank (c.bankOf b.half)).openRow with _ | row
    · exact congrArg (fun uses => c.rowOpen + c.column * uses) b.columnUses_eq
    · exact congrArg (fun uses => if row = b.half / c.rowLen / c.banks then c.column * uses
        else c.precharge + c.rowOpen + c.column * uses) b.columnUses_eq
  · rw [hbank, bank_setBank]; rfl
  · rw [hbank, bank_setBank]
  · rw [hbank, bank_setBank_other]
  · simp only [Pmc.startAccess, setBank_readQ, passOver]; rfl
  · simp only [Pmc.startAccess, setBank_writeQ, passOver]; rfl

/-- Settles O10: the chain of `grantPoint_eq`, and what each choice takes of the queues. -/
theorem grantOrder : Obligations.GrantOrder := by
  intro c x hact hst oldestIn holds
  have hm : x.mayGrant = true := (mayGrant_iff x).mpr ⟨hact, hst⟩
  refine ⟨grantPoint_eq hm, fun hx => ⟨fun r hr => ?_, fun k => eligibleRead_none, fun r => standIn_free,
    fun r w a hw hold ha hcls => standIn_held hx hw hold ha hcls, fun b n hb => ?_⟩⟩
  · exact (eligibleRead_iff hx _ _).mpr ⟨hr, rfl⟩
  · obtain ⟨burst, hg⟩ | ⟨e, hg, he⟩ | ⟨hg, -⟩ := grantPoint_cases (c := c) hm
    · rw [hg] at hb; cases hb
    · rw [hg] at hb; cases hb
      exact he hx
    · rw [hg, hact] at hb; cases hb

end Sys2Proof.Proofs
end

