-- ==== Sys2Proof/Proofs/Bursts.lean ====
section
/-! How transfers come to the controller: a transfer cut into bursts, the burst that enters a queue, what a burst that waits outside
holds, the host's side, and the refresh and close timers. -/

namespace Sys2Proof.Machine

open Sys2Proof

/-! ### A transfer cut into bursts (R119) -/

/-- R119: what a cut of a transfer is, burst by burst: each runs to 16 halfwords, to its row's end or to the transfer's end. -/
inductive Cut (rowLen : Nat) (dir : Dir) (cls : MemClass) (req : Req) : Nat → Nat → List Half → List Burst → Prop
  | done (h : Nat) : Cut rowLen dir cls req h 0 [] []
  | more {h n len : Nat} {data : List Half} {bs : List Burst} (pos : 1 ≤ n) (short : n ≤ 16) (fits : n ≤ len)
      (row : h % rowLen + n ≤ rowLen) (full : n = 16 ∨ (h + n) % rowLen = 0 ∨ len = n)
      (rest : Cut rowLen dir cls req (h + n) (len - n) (data.drop n) bs) :
      Cut rowLen dir cls req h len data
        ({ dir := dir, cls := cls, half := h, len := n, data := data.take n, last := decide (len ≤ n), req := req } :: bs)

theorem cutBursts_cut {rowLen : Nat} (hrow : 0 < rowLen) (dir : Dir) (cls : MemClass) (req : Req) (fuel h len : Nat)
    (data : List Half) (hfuel : len ≤ fuel) (hdata : data.length ≤ len) :
    Cut rowLen dir cls req h len data (cutBursts rowLen dir cls req fuel h len data) := by
  induction fuel generalizing h len data with
  | zero =>
    obtain rfl : len = 0 := by omega
    obtain rfl := List.length_eq_zero_iff.mp (Nat.le_zero.mp hdata)
    exact .done h
  | succ fuel ih =>
    unfold cutBursts
    split
    next hlen =>
      subst hlen
      obtain rfl := List.length_eq_zero_iff.mp (Nat.le_zero.mp hdata)
      exact .done h
    next hlen =>
      have hmod : h % rowLen < rowLen := Nat.mod_lt _ hrow
      dsimp only [Config.burstLength]
      generalize hn : max 1 (min 16 (min (rowLen - h % rowLen) len)) = n
      have hrowEnd : h % rowLen + n = rowLen → (h + n) % rowLen = 0 := fun hend => by
        rw [Nat.add_mod, ← Nat.add_mod_mod, Nat.mod_mod, ← Nat.add_mod, ← Nat.mod_add_mod, hend, Nat.mod_self]
      refine .more (by omega) (by omega) (by omega) (by omega) ?_ (ih _ _ _ (by omega) (by simp only [List.length_drop]; omega))
      obtain h16 | hend | hlast : n = 16 ∨ h % rowLen + n = rowLen ∨ len = n := by omega
      · exact .inl h16
      · exact .inr (.inl (hrowEnd hend))
      · exact .inr (.inr hlast)

section
variable {rowLen : Nat} {dir : Dir} {cls : MemClass} {req : Req} {h len : Nat} {data : List Half} {bs : List Burst}

theorem Cut.sum_len (c : Cut rowLen dir cls req h len data bs) : (bs.map (·.len)).sum = len := by
  induction c with
  | done => rfl
  | more _ _ fits _ _ _ ih => simp only [List.map_cons, List.sum_cons, ih]; omega

theorem Cut.flatMap_data (c : Cut rowLen dir cls req h len data bs) : bs.flatMap (·.data) = data := by
  induction c with
  | done => rfl
  | more _ _ _ _ _ _ ih => simp only [List.flatMap_cons, ih, List.take_append_drop]

theorem Cut.forall_burst (c : Cut rowLen dir cls req h len data bs) : ∀ b ∈ bs, b.dir = dir ∧ b.cls = cls ∧ b.req = req
    ∧ 1 ≤ b.len ∧ b.len ≤ 16 ∧ b.half % rowLen + b.len ≤ rowLen := by
  induction c with
  | done => simp
  | more pos short _ row _ _ ih =>
    rintro b (_ | ⟨_, hb⟩)
    · exact ⟨rfl, rfl, rfl, pos, short, row⟩
    · exact ih b hb

theorem Cut.eq_nil_iff (c : Cut rowLen dir cls req h len data bs) : bs = [] ↔ len = 0 := by
  cases c with
  | done => simp
  | more pos _ fits => simp; omega

theorem Cut.place (c : Cut rowLen dir cls req h len data bs) (before after : List Burst) (b : Burst)
    (hb : bs = before ++ b :: after) : b.half = h + (before.map (·.len)).sum ∧ (b.last = true ↔ after = [])
      ∧ (b.len = 16 ∨ (b.half + b.len) % rowLen = 0 ∨ after = []) := by
  induction c generalizing before with
  | done => simp at hb
  | more pos _ fits _ full rest ih =>
    cases before with
    | nil =>
      obtain ⟨rfl, rfl⟩ := List.cons.inj hb
      have hafter := rest.eq_nil_iff
      refine ⟨rfl, by simp [hafter, Nat.sub_eq_zero_iff_le], full.imp id (.imp id fun heq => hafter.mpr (by omega))⟩
    | cons first before =>
      obtain ⟨rfl, hrest⟩ := List.cons.inj hb
      obtain ⟨hhalf, hlast⟩ := ih before hrest
      exact ⟨by rw [hhalf, List.map_cons, List.sum_cons, Nat.add_assoc], hlast⟩

end

/-! ### Entering a queue (R120) -/

/-- The class that a freed entry is given to: no other waiting class goes before it. -/
def GoesFirst (urgent : Bool) (k c : MemClass) : Prop :=
  if urgent then k = .print ∨ (c ≠ .print ∧ classRank k < classRank c) else classRank k < classRank c

/-- In the order of R120, no class that stands before another goes after it. -/
theorem entryOrder_split (urgent : Bool) (k : MemClass) : ∃ pre post, entryOrder urgent = pre ++ k :: post
    ∧ ∀ c ∈ pre, c ≠ k ∧ ¬GoesFirst urgent k c := by
  refine ⟨(entryOrder urgent).takeWhile (· ≠ k), ((entryOrder urgent).dropWhile (· ≠ k)).tail, ?_, ?_⟩
  · cases urgent <;> cases k <;> decide
  · unfold GoesFirst
    cases urgent <;> cases k <;> decide

theorem firstWaiting_append {dir : Dir} {waiting : List Burst} {pre post : List MemClass} {k : MemClass} {b : Burst}
    (hpre : ∀ c ∈ pre, ∀ a ∈ waiting, a.dir = dir → a.cls ≠ c)
    (hk : waiting.find? (fun a => a.dir = dir && a.cls = k) = some b) :
    firstWaiting dir waiting (pre ++ k :: post) = some b := by
  induction pre with
  | nil => simp only [List.nil_append, firstWaiting, hk]
  | cons c pre ih =>
    have hnone : waiting.find? (fun a => a.dir = dir && a.cls = c) = none := by
      simpa using hpre c List.mem_cons_self
    simp only [List.cons_append, firstWaiting, hnone]
    exact ih fun c hc => hpre c (List.mem_cons_of_mem _ hc)

/-- The burst that enters: the first of its class issued, of a class that no other waiting class goes before. -/
theorem firstWaiting_eq {urgent : Bool} {before after : List Burst} {b : Burst}
    (hfirst : ∀ a ∈ before, a.dir = b.dir → a.cls ≠ b.cls)
    (hclass : ∀ a ∈ before ++ after, a.dir = b.dir → a.cls ≠ b.cls → GoesFirst urgent b.cls a.cls) :
    firstWaiting b.dir (before ++ b :: after) (entryOrder urgent) = some b := by
  obtain ⟨pre, post, horder, hpre⟩ := entryOrder_split urgent b.cls
  rw [horder]
  refine firstWaiting_append (fun c hc a ha hdir hcls => ?_) ?_
  · obtain ⟨hne, hnot⟩ := hpre c hc
    subst hcls
    have hmem : a ∈ before ++ after := by
      simp only [List.mem_append, List.mem_cons] at ha ⊢
      obtain hb | rfl | hafter := ha
      · exact .inl hb
      · exact absurd rfl hne
      · exact .inr hafter
    exact hnot (hclass a hmem hdir hne)
  · have hnone : before.find? (fun a => a.dir = b.dir && a.cls = b.cls) = none := by simpa using hfirst
    simp [List.find?_append, hnone]

theorem erase_waiting {before after : List Burst} {b : Burst} (hfirst : ∀ a ∈ before, a.dir = b.dir → a.cls ≠ b.cls) :
    (before ++ b :: after).erase b = before ++ after := by
  rw [List.erase_append_right _ fun hb => hfirst b hb rfl rfl, List.erase_cons_head]

theorem enter_read {x : Pmc} {b : Burst} (h : b.dir = .read) : x.enter b = { x with
    waiting := x.waiting.erase b, nextAge := x.nextAge + 1, readQ := x.readQ ++ [{ b with age := x.nextAge, passed := 0 }] } := by
  unfold Pmc.enter
  split
  · rfl
  next hw => rw [h] at hw; cases hw

theorem enter_write {x : Pmc} {b : Burst} (h : b.dir = .write) : x.enter b = { x with
    waiting := x.waiting.erase b, nextAge := x.nextAge + 1, writeQ := x.writeQ ++ [{ b with age := x.nextAge, passed := 0 }] } := by
  unfold Pmc.enter
  split
  next hr => rw [h] at hr; cases hr
  · rfl

/-! ### The host side (R135, R136) -/

/-- R136: a performed burst is a host write inside the 256 bytes of the control block. -/
def BoardConfig.Snooped (c : BoardConfig) (b : Burst) : Prop :=
  b.cls = .host ∧ b.dir = .write ∧ c.cbAddr ≤ 2 * b.half ∧ 2 * b.half < c.cbAddr + 256

theorem snoop_of_snooped {s : State} {b : Burst} (h : s.cfg.Snooped b) : s.snoop b = s.setPmc { s.pmc with
    arrivals := s.pmc.arrivals ++ [⟨2 * b.half - s.cfg.cbAddr, readHalf s.mem b.half⟩] } := by
  unfold State.snoop
  exact if_pos h

theorem snoop_of_not {s : State} {b : Burst} (h : ¬s.cfg.Snooped b) : s.snoop b = s := by
  unfold State.snoop
  exact if_neg h

@[simp] theorem setBank_arrivals (x : Pmc) (one : Bool) (b : Bank) : (x.setBank one b).arrivals = x.arrivals := by
  cases one <;> rfl

@[simp] theorem afterAccess_arrivals (c : BoardConfig) (x : Pmc) (b : Burst) : (x.afterAccess c b).arrivals = x.arrivals := by
  unfold Pmc.afterAccess
  dsimp only
  split <;> simp

@[simp] theorem leave_arrivals (x : Pmc) (b : Burst) : (x.leave b).arrivals = x.arrivals := by
  unfold Pmc.leave
  split <;> rfl

@[simp] theorem answer_arrivals (x : Pmc) (b : Burst) (data : List Half) : (x.answer b data).arrivals = x.arrivals := by
  unfold Pmc.answer
  repeat' split
  all_goals rfl

/-- A performed burst, but for the arrival. -/
def State.performed (s : State) (b : Burst) : State :=
  let s := match b.dir with
    | .read => s.setPmc (s.pmc.answer b (readHalves s.mem b.half b.len))
    | .write => (s.setMem (writeHalves s.mem b.half b.lowEnable b.highEnable b.data)).setPmc (s.pmc.answer b [])
  s.setPmc (({ s.pmc with act := .free }.leave b).afterAccess s.cfg b)

theorem perform_eq_snoop (s : State) (b : Burst) : s.perform b = (s.performed b).snoop b := rfl

@[simp] theorem performed_cfg (s : State) (b : Burst) : (s.performed b).cfg = s.cfg := by
  unfold State.performed
  dsimp only
  split <;> rfl

@[simp] theorem performed_arrivals (s : State) (b : Burst) : (s.performed b).pmc.arrivals = s.pmc.arrivals := by
  unfold State.performed
  dsimp only
  split <;> simp

/-! ### What a waiting burst holds (R120, log entry 24) -/

theorem exec_printHeld {s : State} (h : s.wordWaits .print = true) {i : Instr}
    (hi : i ∈ [.tagReadComplete, .windowReadComplete, .fetchComplete, .shiftInStart, .slewBegin]
      ∨ ∃ elapsed, i = .lineLatch elapsed) : exec i s = .next s := by
  obtain hi | ⟨elapsed, rfl⟩ := hi
  · simp only [List.mem_cons, List.not_mem_nil, or_false] at hi
    obtain rfl | rfl | rfl | rfl | rfl := hi
    · simp only [exec, execTagReadComplete, h, reduceCtorEq, and_false, if_false]; split <;> rfl
    · simp only [exec, execWindowReadComplete, h, reduceCtorEq, and_false, if_false]; split <;> rfl
    · simp only [exec, execFetchComplete, h, reduceCtorEq, and_false, if_false]; split <;> rfl
    · simp only [exec, execShiftInStart, h, if_true]; split <;> rfl
    · simp only [exec, execSlewBegin, h, reduceCtorEq, and_false, if_false]; split <;> rfl
  · simp [exec, execLineLatch, State.mayLatch, h]

theorem exec_ringHeld {s : State} {r : RingId} {d : RingDesc} (hd : (s.ring r).desc = some d)
    (h : s.wordWaits (sideClass d.producer) = true) :
    exec (.slotWritesAcknowledged r) s = .next s ∧ exec (.pageEndTagAcknowledged r) s = .next s := by
  constructor
  · simp only [exec, execSlotWritesAcknowledged, hd]
    split
    next heq _ => obtain rfl := Option.some.inj heq; simp [h]
    next => rfl
  · simp only [exec, execPageEndTagAcknowledged, hd]
    split
    next heq _ => obtain rfl := Option.some.inj heq; simp [h]
    next => rfl

end Sys2Proof.Machine

namespace Sys2Proof.Proofs

open Sys2Proof Sys2Proof.Machine

/-- Settles O15: by induction over the cut. -/
theorem transferSplit : Obligations.TransferSplit := by
  intro rowLen dir cls req h len data hrow hwrite hread bs
  have hdata : data.length ≤ len := by
    cases dir with
    | write => exact (hwrite rfl).le
    | read => simp [hread rfl]
  have c := cutBursts_cut hrow dir cls req len h len data le_rfl hdata
  exact ⟨c.sum_len, c.flatMap_data, c.forall_burst, c.place⟩

/-- Settles O14: each row is the operation it names. -/
theorem refreshRows : Obligations.RefreshRows := by
  intro s
  refine ⟨fun h => ?_, fun h => ?_, fun h => ?_, fun h => ?_, fun hst hr hw hz ha => ?_⟩
  · simp only [exec, execRefreshEnd, h]; rfl
  · simp only [exec, execRefreshTimerExpiry, h, if_true, satAdd]; rfl
  · have hbank : (s.pmc.bank false).closeTimer.isSome = true := h
    simp [exec, execCloseTimerExpiry, hbank, Pmc.setBank]
  · have hbank : (s.pmc.bank true).closeTimer.isSome = true := h
    simp [exec, execCloseTimerExpiry, hbank, Pmc.setBank]
  · simp [exec, execSelfRefreshEntry, Pmc.maySelfRefresh, Pmc.closeAll, hst, hr, hw, hz, ha]

/-- Settles O13: the held rows by their guards, the entering burst by `firstWaiting_eq`. -/
theorem burstEnterRows : Obligations.BurstEnterRows := by
  refine ⟨fun s r d k => ⟨fun h => ?_, fun h => ?_, fun h => ?_, fun h => ⟨?_, ?_⟩, fun h => ?_, fun h i hi => exec_printHeld h hi,
    fun hd h => exec_ringHeld hd h, burstWaits_iff s k, wordWaits_iff s k⟩, ?_⟩
  · simp [exec, execCommandTakeStart, State.mayTake, h]
  · simp only [exec, execLinkTakeSourceLine, State.linkMayTake, h]
    split <;> simp
  · simp only [exec, execFetchStart, State.mayFetch, h]
    split <;> simp
  · exact responseCellAcknowledged_held h
  · simp [exec, execSnapshotAcknowledged, h]
  · simp [exec, execLinkReadComplete, h]
  · intro s before after b hst hwait hfirst hclass e
    have hacc : s.pmc.accepting = true := by
      unfold Pmc.accepting
      obtain hst | hst | hst := hst <;> rw [hst]
    refine ⟨fun hdir hlen => ?_, fun hdir hlen => ?_⟩
    · have hroom : s.pmc.hasRoom .read = true := by simpa [Pmc.hasRoom] using hlen
      have hfw : firstWaiting .read s.pmc.waiting (entryOrder s.pmc.urgent) = some b := by
        rw [hwait, ← hdir]
        exact firstWaiting_eq hfirst hclass
      simp only [exec, execBurstEnter, hacc, hroom, and_self, if_true, hfw, enter_read hdir]
      rw [hwait, erase_waiting hfirst]
      rfl
    · have hroom : s.pmc.hasRoom .write = true := by simpa [Pmc.hasRoom] using hlen
      have hfw : firstWaiting .write s.pmc.waiting (entryOrder s.pmc.urgent) = some b := by
        rw [hwait, ← hdir]
        exact firstWaiting_eq hfirst hclass
      simp only [exec, execBurstEnter, hacc, hroom, and_self, if_true, hfw, enter_write hdir, Pmc.raiseDrain,
        List.length_append, List.length_singleton]
      rw [hwait, erase_waiting hfirst]
      rfl

/-- Settles O8: the host's rows by their guards, and the arrival by the snoop that follows a performed burst. -/
theorem hostSide : Obligations.HostSide := by
  intro s a d low high b
  refine ⟨fun h => ⟨fun hin => ?_, fun hout => ?_⟩, fun h => ?_, fun h => ?_⟩
  · simp only [exec, execHostRead, execHostWrite, h, hin, if_true]
    exact ⟨rfl, rfl⟩
  · simp [exec, execHostRead, execHostWrite, h, not_lt.mpr hout]
  · have hsnoop : (s.performed b).cfg.Snooped b := by simpa only [performed_cfg, BoardConfig.Snooped] using h
    simp only [perform_eq_snoop, snoop_of_snooped hsnoop, State.setPmc_pmc, State.setPmc_mem, performed_arrivals, performed_cfg]
  · have hsnoop : ¬(s.performed b).cfg.Snooped b := by simpa only [performed_cfg, BoardConfig.Snooped] using h
    simp only [perform_eq_snoop, snoop_of_not hsnoop, performed_arrivals]

end Sys2Proof.Proofs
end

