-- ==== Sys2Proof/Proofs/Sound.lean ====
section
/-! The controller's invariant: a grant point restores it from the ranges alone, and each row keeps the ranges. -/

namespace Sys2Proof.Machine

open Sys2Proof

/-! ### The ranges, which a grant point completes (R122, R124) -/

/-- The invariant without the DRAM's part: what holds between a row's own change and its grant point. -/
structure Pmc.Ranged (x : Pmc) : Prop where
  owed : x.owed ≤ 8
  burstRem : x.burstRem ≤ 8
  reads : x.readQ.length ≤ 4
  writes : x.writeQ.length ≤ 8
  readAges : agesBelow x.nextAge x.readQ = true
  writeAges : agesBelow x.nextAge x.writeQ = true
  legal : x.stateLegal = true

theorem ranged_iff {x : Pmc} : x.Ranged ↔ x.inBounds = true ∧ x.stateLegal = true := by
  simp only [Pmc.inBounds, Bool.and_eq_true, decide_eq_true_eq]
  constructor
  · rintro ⟨h1, h2, h3, h4, h5, h6, h7⟩
    exact ⟨⟨⟨⟨⟨⟨h1, h2⟩, h3⟩, h4⟩, h5⟩, h6⟩, h7⟩
  · rintro ⟨⟨⟨⟨⟨⟨h1, h2⟩, h3⟩, h4⟩, h5⟩, h6⟩, h7⟩
    exact ⟨h1, h2, h3, h4, h5, h6, h7⟩

theorem sound_iff {x : Pmc} : x.sound = true ↔ x.Ranged ∧ x.workConserving = true := by
  rw [ranged_iff, Pmc.sound, Bool.and_eq_true, Bool.and_eq_true]

theorem sound_of_not_mayGrant {x : Pmc} (h : x.Ranged) (hm : x.mayGrant = false) : x.sound = true :=
  sound_iff.mpr ⟨h, by simp only [Pmc.workConserving, hm, Bool.not_false, Bool.true_or]⟩

theorem legal_of_granting {x : Pmc} (h : x.Granting) : x.stateLegal = x.refreshTimer := by
  unfold Pmc.stateLegal
  obtain h | h | h | h := h <;> rw [h]

theorem timer_of_granting {x : Pmc} (h : x.Ranged) (hg : x.Granting) : x.refreshTimer = true :=
  (legal_of_granting hg).symm.trans h.legal

theorem legal_of_granting_timer {x : Pmc} (hg : x.Granting) (ht : x.refreshTimer = true) : x.stateLegal = true :=
  (legal_of_granting hg).trans ht

theorem granting_of_timer {x : Pmc} (h : x.Ranged) (ht : x.refreshTimer = true) : x.Granting := by
  have hl := h.legal
  unfold Pmc.stateLegal at hl
  unfold Pmc.Granting
  cases hst : x.st <;> simp_all

theorem passOver_length (age : Nat) (q : List Burst) : (passOver age q).length = q.length := List.length_map _

theorem passOver_ages (age next : Nat) (q : List Burst) : agesBelow next (passOver age q) = agesBelow next q := by
  have hage : ∀ e : Burst, (if e.age < age then { e with passed := satAdd Config.agedCount e.passed 1 } else e).age = e.age := by
    intro e; split <;> rfl
  rw [Bool.eq_iff_iff, agesBelow_iff, agesBelow_iff, passOver, List.pairwise_map]
  simp only [List.forall_mem_map, hage]

@[simp] theorem setBank_fields (x : Pmc) (one : Bool) (b : Bank) : (x.setBank one b).st = x.st
    ∧ (x.setBank one b).refreshTimer = x.refreshTimer ∧ (x.setBank one b).owed = x.owed
    ∧ (x.setBank one b).burstRem = x.burstRem ∧ (x.setBank one b).nextAge = x.nextAge := by
  cases one <;> exact ⟨rfl, rfl, rfl, rfl, rfl⟩

theorem setBank_ranged {x : Pmc} (h : x.Ranged) (one : Bool) (b : Bank) : (x.setBank one b).Ranged := by
  cases one <;> exact ⟨h.owed, h.burstRem, h.reads, h.writes, h.readAges, h.writeAges, h.legal⟩

theorem startAccess_ranged {c : BoardConfig} {x : Pmc} (h : x.Ranged) (hg : x.Granting) (b : Burst) :
    (x.startAccess c b).Ranged := by
  have hy := setBank_ranged h (c.bankOf b.half) { openRow := some (c.rowOf b.half), closeTimer := none }
  have hst := (setBank_fields x (c.bankOf b.half) { openRow := some (c.rowOf b.half), closeTimer := none }).1
  unfold Pmc.startAccess
  dsimp only
  generalize x.setBank (c.bankOf b.half) { openRow := some (c.rowOf b.half), closeTimer := none } = y at hy hst ⊢
  have hgy : y.Granting := by unfold Pmc.Granting; rw [hst]; exact hg
  have ht := timer_of_granting hy hgy
  refine ⟨hy.owed, hy.burstRem, ?_, ?_, ?_, ?_, ?_⟩
  · rw [passOver_length]; exact hy.reads
  · rw [passOver_length]; exact hy.writes
  · rw [passOver_ages]; exact hy.readAges
  · rw [passOver_ages]; exact hy.writeAges
  · exact legal_of_granting_timer hgy ht

theorem startRefresh_ranged {x : Pmc} (h : x.Ranged) (hg : x.Granting) (burst : Bool) : (x.startRefresh burst).Ranged := by
  have ht := timer_of_granting h hg
  refine ⟨?_, ?_, h.reads, h.writes, h.readAges, h.writeAges, ?_⟩
  · exact (Nat.sub_le _ _).trans h.owed
  · unfold Pmc.startRefresh
    split
    · exact (Nat.sub_le _ _).trans h.burstRem
    · exact h.burstRem
  · exact legal_of_granting_timer (x := x.startRefresh burst) hg ht

theorem queues_empty {x : Pmc} (h : x.candidates = []) : x.readQ = [] ∧ x.writeQ = [] := by
  have hnone : ∀ k, x.eligibleRead k = none ∧ x.eligibleWrite k = none := fun k => by
    have := List.flatMap_eq_nil_iff.mp h k (mem_entryOrder false k)
    simpa using this
  simp only [Pmc.eligibleRead, Pmc.eligibleWrite, List.find?_eq_none, decide_eq_true_eq] at hnone
  exact ⟨List.eq_nil_iff_forall_not_mem.mpr fun r hr => (hnone r.cls).1 r hr rfl,
    List.eq_nil_iff_forall_not_mem.mpr fun w hw => (hnone w.cls).2 w hw rfl⟩

/-- A grant point makes the controller sound. -/
theorem grantPoint_sound {x : Pmc} (h : x.Ranged) (c : BoardConfig) : (x.grantPoint c).sound = true := by
  cases hm : x.mayGrant with
  | false =>
    rw [grantPoint_of_not hm]
    exact sound_of_not_mayGrant h hm
  | true =>
    obtain ⟨-, hg⟩ := (mayGrant_iff x).mp hm
    obtain ⟨burst, heq⟩ | ⟨b, heq, -⟩ | ⟨heq, hrem, howed, hnone⟩ := grantPoint_cases (c := c) hm
    · rw [heq]
      exact sound_of_not_mayGrant (startRefresh_ranged h hg burst) rfl
    · rw [heq]
      exact sound_of_not_mayGrant (startAccess_ranged h hg b) rfl
    · rw [heq]
      obtain ⟨hr, hw⟩ := queues_empty hnone
      exact sound_iff.mpr ⟨h, by simp [Pmc.workConserving, hr, hw, hrem, howed]⟩

/-! ### Entering and leaving a queue -/

theorem agesBelow_append {next : Nat} {q : List Burst} {e : Burst} (h : agesBelow next q = true) (he : e.age = next) :
    agesBelow (next + 1) (q ++ [e]) = true := by
  obtain ⟨hsorted, hbelow⟩ := agesBelow_iff.mp h
  refine agesBelow_iff.mpr ⟨List.pairwise_append.mpr ⟨hsorted, List.pairwise_singleton _ _, ?_⟩, ?_⟩
  · intro a ha b hb
    rw [List.mem_singleton.mp hb, he]
    exact hbelow a ha
  · intro b hb
    obtain hb | hb := List.mem_append.mp hb
    · exact (hbelow b hb).trans (Nat.lt_succ_self _)
    · rw [List.mem_singleton.mp hb, he]
      exact Nat.lt_succ_self _

theorem agesBelow_succ {next : Nat} {q : List Burst} (h : agesBelow next q = true) : agesBelow (next + 1) q = true := by
  obtain ⟨hsorted, hbelow⟩ := agesBelow_iff.mp h
  exact agesBelow_iff.mpr ⟨hsorted, fun b hb => (hbelow b hb).trans (Nat.lt_succ_self _)⟩

theorem agesBelow_filter {next : Nat} {q : List Burst} (h : agesBelow next q = true) (p : Burst → Bool) :
    agesBelow next (q.filter p) = true := by
  obtain ⟨hsorted, hbelow⟩ := agesBelow_iff.mp h
  exact agesBelow_iff.mpr ⟨hsorted.filter p, fun b hb => hbelow b (List.mem_of_mem_filter hb)⟩

theorem granting_of_accepting {x : Pmc} (h : x.accepting = true) : x.Granting := by
  unfold Pmc.accepting at h
  unfold Pmc.Granting
  cases hst : x.st <;> simp_all

theorem enter_read_ranged {x : Pmc} {b : Burst} (h : x.Ranged) (hacc : x.accepting = true) (hroom : x.hasRoom .read = true)
    (hdir : b.dir = .read) : (x.enter b).Ranged := by
  rw [enter_read hdir]
  have hg := granting_of_accepting hacc
  have ht := timer_of_granting h hg
  refine ⟨h.owed, h.burstRem, ?_, h.writes, agesBelow_append h.readAges rfl, agesBelow_succ h.writeAges, ?_⟩
  · simpa [Pmc.hasRoom] using hroom
  · exact legal_of_granting_timer hg ht

theorem enter_write_ranged {x : Pmc} {b : Burst} (h : x.Ranged) (hacc : x.accepting = true) (hroom : x.hasRoom .write = true)
    (hdir : b.dir = .write) : (x.enter b).raiseDrain.Ranged := by
  rw [enter_write hdir]
  have hg := granting_of_accepting hacc
  have ht := timer_of_granting h hg
  refine ⟨h.owed, h.burstRem, h.reads, ?_, agesBelow_succ h.readAges, agesBelow_append h.writeAges rfl, ?_⟩
  · simpa [Pmc.hasRoom, Pmc.raiseDrain] using hroom
  · exact legal_of_granting_timer hg ht

theorem firstWaiting_dir {dir : Dir} {waiting : List Burst} {order : List MemClass} {b : Burst}
    (h : firstWaiting dir waiting order = some b) : b.dir = dir := by
  induction order with
  | nil => cases h
  | cons k ks ih =>
    simp only [firstWaiting] at h
    split at h
    next a ha =>
      obtain rfl := Option.some.inj h
      have := List.find?_some ha
      simp only [Bool.and_eq_true, decide_eq_true_eq] at this
      exact this.1
    · exact ih h

theorem execBurstEnter_sound {s : State} (h : s.pmc.Ranged) (hs : s.pmc.sound = true) (dir : Dir) :
    Meets (fun t => t.pmc.sound = true) (execBurstEnter dir s) := by
  refine meets_ite (fun hguard => ?_) (fun _ => meets_next.mpr hs)
  obtain ⟨hacc, hroom⟩ := hguard
  split
  next b hb =>
    have hdir := firstWaiting_dir hb
    refine meets_next.mpr (grantPoint_sound ?_ _)
    cases dir with
    | read => exact enter_read_ranged h hacc hroom hdir
    | write => exact enter_write_ranged h hacc hroom hdir
  · exact meets_next.mpr hs

/-- Keeping fewer entries keeps the ranges. -/
theorem ranged_filter {x : Pmc} (h : x.Ranged) (p q : Burst → Bool) :
    ({ x with readQ := x.readQ.filter p, writeQ := x.writeQ.filter q } : Pmc).Ranged := by
  refine ⟨h.owed, h.burstRem, (List.length_filter_le _ _).trans h.reads, (List.length_filter_le _ _).trans h.writes,
    agesBelow_filter h.readAges p, agesBelow_filter h.writeAges q, ?_⟩
  have hl := h.legal
  unfold Pmc.stateLegal at hl ⊢
  dsimp only
  cases hst : x.st <;> simp_all

theorem ranged_of_core {x y : Pmc} (h : x.core = y.core) (hy : y.Ranged) : x.Ranged := by
  have hb : x.core.inBounds = y.core.inBounds := congrArg Pmc.inBounds h
  have hl : x.core.stateLegal = y.core.stateLegal := congrArg Pmc.stateLegal h
  change x.inBounds = y.inBounds at hb
  change x.stateLegal = y.stateLegal at hl
  rw [ranged_iff] at hy ⊢
  rwa [hb, hl]

theorem sound_of_core {x y : Pmc} (h : x.core = y.core) : x.sound = y.sound := by
  have hs : x.core.sound = y.core.sound := congrArg Pmc.sound h
  exact hs

/-- Freeing the DRAM, or another DRAIN, keeps the ranges. -/
theorem ranged_act {x : Pmc} (h : x.Ranged) (a : Activity) (d : Bool) : ({ x with act := a, drain := d } : Pmc).Ranged :=
  ⟨h.owed, h.burstRem, h.reads, h.writes, h.readAges, h.writeAges, h.legal⟩

theorem leave_ranged {x : Pmc} (h : x.Ranged) (b : Burst) : (x.leave b).Ranged := by
  unfold Pmc.leave
  split
  · have := ranged_filter h (fun e => e.age ≠ b.age) (fun _ => true)
    simpa using this
  · have := ranged_filter h (fun _ => true) (fun e => e.age ≠ b.age)
    rw [List.filter_true] at this
    exact ranged_act this _ _

theorem afterAccess_ranged {x : Pmc} (h : x.Ranged) (c : BoardConfig) (b : Burst) : (x.afterAccess c b).Ranged := by
  unfold Pmc.afterAccess
  dsimp only
  split <;> exact setBank_ranged h _ _

theorem answer_core (x : Pmc) (b : Burst) (data : List Half) : (x.answer b data).core = x.core := by
  unfold Pmc.answer
  repeat' split
  all_goals rfl

theorem performed_ranged {s : State} (h : s.pmc.Ranged) (b : Burst) : (s.performed b).pmc.Ranged := by
  unfold State.performed
  dsimp only
  split
  · refine afterAccess_ranged (leave_ranged (ranged_act (x := s.pmc.answer b _) ?_ .free _) b) _ b
    exact ranged_of_core (answer_core _ _ _) h
  · refine afterAccess_ranged (leave_ranged (ranged_act (x := s.pmc.answer b _) ?_ .free _) b) _ b
    exact ranged_of_core (answer_core _ _ _) h

theorem snoop_core (s : State) (b : Burst) : (s.snoop b).pmc.core = s.pmc.core := by
  unfold State.snoop
  dsimp only
  split <;> rfl

@[simp] theorem State.commandRead_base (s : State) : s.commandRead.base = s.base := by
  unfold State.commandRead
  split
  · rfl
  · split <;> simp

theorem execAccessEnd_sound {s : State} (h : s.pmc.Ranged) (hs : s.pmc.sound = true) :
    Meets (fun t => t.pmc.sound = true) (execAccessEnd s) := by
  unfold execAccessEnd
  split
  next b cycles hact =>
    refine meets_ite (fun _ => meets_next.mpr (grantPoint_sound ?_ _)) (fun _ => meets_fault)
    refine ranged_of_core ?_ (performed_ranged h b)
    rw [State.linkReadsAbandoned_core]
    exact (congrArg Base.core (State.commandRead_base _)).trans (snoop_core _ b)
  all_goals exact meets_next.mpr hs


/-! ### The other rows of the controller (R130, R131, R133) -/

theorem execRefreshEnd_sound {s : State} (h : s.pmc.Ranged) (hs : s.pmc.sound = true) :
    Meets (fun t => t.pmc.sound = true) (execRefreshEnd s) := by
  unfold execRefreshEnd
  split
  · exact meets_next.mpr (grantPoint_sound (ranged_act h .free s.pmc.drain) _)
  all_goals exact meets_next.mpr hs

theorem execRefreshTimerExpiry_sound {s : State} (h : s.pmc.Ranged) (hs : s.pmc.sound = true) :
    Meets (fun t => t.pmc.sound = true) (execRefreshTimerExpiry s) := by
  refine meets_ite (fun ht => meets_next.mpr (grantPoint_sound ?_ _)) (fun _ => meets_next.mpr hs)
  have hg := granting_of_timer h ht
  exact ⟨min_le_left _ _, h.burstRem, h.reads, h.writes, h.readAges, h.writeAges,
    legal_of_granting_timer hg ht⟩

theorem execCloseTimerExpiry_sound {s : State} (hs : s.pmc.sound = true) (bank : Fin 2) :
    Meets (fun t => t.pmc.sound = true) (execCloseTimerExpiry bank s) := by
  refine meets_ite (fun _ => meets_next.mpr ?_) (fun _ => meets_next.mpr hs)
  obtain ⟨hr, hw⟩ := sound_iff.mp hs
  refine sound_iff.mpr ⟨setBank_ranged hr _ _, ?_⟩
  rw [State.setPmc_pmc]
  unfold Pmc.setBank
  split <;> exact hw

theorem execSelfRefreshEntry_sound {s : State} (h : s.pmc.Ranged) (hs : s.pmc.sound = true) :
    Meets (fun t => t.pmc.sound = true) (execSelfRefreshEntry s) := by
  refine meets_ite (fun hm => meets_next.mpr (sound_of_not_mayGrant ?_ ?_)) (fun _ => meets_next.mpr hs)
  · simp only [Pmc.maySelfRefresh, Bool.and_eq_true, beq_iff_eq] at hm
    obtain ⟨⟨⟨⟨-, hr⟩, hw⟩, hz⟩, -⟩ := hm
    exact ⟨h.owed, h.burstRem, h.reads, h.writes, h.readAges, h.writeAges,
      by simp [Pmc.stateLegal, Pmc.closeAll, hr, hw, hz]⟩
  · simp [Pmc.mayGrant]

/-! ### Requests to the controller (R122, R133, R134) -/

theorem starting_ranged {x : Pmc} (h : x.Ranged) (st : PmcState) (hst : st = .starting ∨ st = .srExit) :
    ({ x with st := st, refreshTimer := true, burstRem := Config.burstRefreshes } : Pmc).Ranged := by
  refine ⟨h.owed, le_rfl, h.reads, h.writes, h.readAges, h.writeAges, ?_⟩
  obtain rfl | rfl := hst <;> rfl

/-- Another state among those that make grants keeps the controller sound. -/
theorem sound_of_granting {x : Pmc} (h : x.sound = true) (hg : x.Granting) {st : PmcState}
    (hst : ({ x with st := st } : Pmc).Granting) : ({ x with st := st } : Pmc).sound = true := by
  obtain ⟨hr, hw⟩ := sound_iff.mp h
  have ht := timer_of_granting hr hg
  refine sound_iff.mpr ⟨⟨hr.owed, hr.burstRem, hr.reads, hr.writes, hr.readAges, hr.writeAges,
    legal_of_granting_timer hst ht⟩, ?_⟩
  have hm : ({ x with st := st } : Pmc).mayGrant = x.mayGrant := by
    rw [Bool.eq_iff_iff, mayGrant_iff, mayGrant_iff]
    exact and_congr Iff.rfl (iff_of_true hst hg)
  unfold Pmc.workConserving at hw ⊢
  rw [hm]
  exact hw

theorem memoryStart_sound {s : State} (h : s.pmc.sound = true) : s.memoryStart.pmc.sound = true := by
  unfold State.memoryStart
  split
  · exact grantPoint_sound (starting_ranged (sound_iff.mp h).1 _ (.inl rfl)) s.cfg
  · exact h

theorem memoryExit_sound {s : State} (h : s.pmc.sound = true) : s.memoryExit.pmc.sound = true := by
  unfold State.memoryExit
  split
  · exact grantPoint_sound (starting_ranged (sound_iff.mp h).1 _ (.inr rfl)) s.cfg
  · exact h

theorem memoryEntry_sound {s : State} (h : s.pmc.sound = true) : s.memoryEntry.pmc.sound = true := by
  unfold State.memoryEntry
  split
  next hst => exact sound_of_granting h (.inr (.inl hst)) (.inr (.inr (.inl rfl)))
  · exact h

theorem memoryWithdraw_sound {s : State} (h : s.pmc.sound = true) : s.memoryWithdraw.pmc.sound = true := by
  unfold State.memoryWithdraw
  split
  next hst => exact sound_of_granting h (.inr (.inr (.inl hst))) (.inr (.inl rfl))
  · exact h

/-! ### The power unit's operations -/

theorem finishAbandon_pmcCore (s : State) : s.finishAbandon.pmc.core = s.pmc.core := by
  unfold State.finishAbandon
  split
  · rfl
  · simp [State.wakeCell, State.undoRelease, State.startPeriod]

theorem finishLeaving_pmcCore (s : State) : s.finishLeaving.pmc.core = s.pmc.core := by
  unfold State.finishLeaving
  dsimp only
  repeat' split
  all_goals simp [State.wakeCell, State.startPeriod]

theorem abandonEntry_sound {s : State} (h : s.pmc.sound = true) : s.abandonEntry.pmc.sound = true := by
  unfold State.abandonEntry
  split
  · split
    · rw [sound_of_core (finishAbandon_pmcCore _)]
      exact memoryWithdraw_sound h
    · exact memoryExit_sound h
    all_goals exact h
  · rw [sound_of_core (finishAbandon_pmcCore _)]
    exact h

theorem leaveOnFastRc_sound {s : State} (h : s.pmc.sound = true) : s.leaveOnFastRc.pmc.sound = true :=
  memoryExit_sound (s := s.setClk _) h

theorem beginLeaving_sound {s : State} (h : s.pmc.sound = true) : s.beginLeaving.pmc.sound = true := by
  unfold State.beginLeaving
  dsimp only
  split
  · exact leaveOnFastRc_sound h
  · exact h
  · exact h

theorem wake_sound {s : State} (h : s.pmc.sound = true) (cause : WakeCause) : (s.wake cause).pmc.sound = true := by
  unfold State.wake
  split
  · exact h
  · exact h
  · split
    · rw [sound_of_core (y := s.pmc) (by simp [State.wakeCell])]
      exact h
    · exact h
  · split
    · exact h
    · exact abandonEntry_sound h
  · exact beginLeaving_sound h

theorem woken_sound {s t : State} (hs : s.pmc.sound = true) (h : Woken s t) : t.pmc.sound = true := by
  obtain h | ⟨u, cause, hu, ht⟩ := h
  · rwa [sound_of_core (core_of_units h)]
  · rw [sound_of_core (core_of_units ht)]
    refine wake_sound ?_ cause
    rwa [sound_of_core (core_of_units hu)]

theorem reset_sound : State.reset.pmc.sound = true := by decide

theorem coldStart_sound (s : State) (cause : ColdCause) : (s.coldStart cause).pmc.sound = true := by
  unfold State.coldStart State.leaveReset
  split <;> exact reset_sound

theorem standbySweepStart_pmcCore (s : State) : s.standbySweepStart.pmc.core = s.pmc.core := by
  obtain h | h := standbySweepStart_units s
  · exact core_of_units h
  · exact (core_of_units h).trans rfl

theorem memoryBack_pmcCore (s : State) : s.memoryBack.pmc.core = s.pmc.core := by
  unfold State.memoryBack
  split
  · exact finishAbandon_pmcCore s
  · exact finishLeaving_pmcCore s
  all_goals rfl

theorem execRefreshBurstDone_sound {s : State} (hs : s.pmc.sound = true) :
    Meets (fun t => t.pmc.sound = true) (execRefreshBurstDone s) := by
  refine meets_ite (fun _ => ?_) (fun _ => meets_next.mpr hs)
  split
  next hst =>
    have hrun := sound_of_granting hs (.inl hst) (st := .running) (.inr (.inl rfl))
    refine meets_next.mpr ?_
    split
    · rwa [sound_of_core (core_of_units (State.enterTables_units _))]
    · exact hrun
  next hst =>
    have hrun := sound_of_granting hs (.inr (.inr (.inr hst))) (st := .running) (.inr (.inl rfl))
    exact meets_next.mpr ((sound_of_core (memoryBack_pmcCore _)).trans hrun)
  all_goals exact meets_next.mpr hs

@[simp] theorem State.standbyWritten_core (s : State) : s.standbyWritten.pmc.core = s.pmc.core := by
  unfold State.standbyWritten
  dsimp only
  split <;> rfl

@[simp] theorem State.pageScannedWritten_base (s : State) : s.pageScannedWritten.base = s.base := by
  unfold State.pageScannedWritten
  split <;> simp

/-- A row of a cold start that does not begin one leaves the controller's own state alone. -/
theorem coldRow_pmcCore {i : Instr} (hi : coldRow i) (s : State) :
    Meets (fun t => (∃ (u : State) (cause : ColdCause), t = u.coldStart cause) ∨ t.pmc.core = s.pmc.core) (exec i s) := by
  cases i
  all_goals try (cases hi; done)
  case powerOnDetect => exact meets_next.mpr (.inl ⟨_, _, rfl⟩)
  case resetPinLow => exact meets_ite (fun _ => meets_next.mpr (.inl ⟨_, _, rfl⟩)) (fun _ => meets_next.mpr (.inr rfl))
  case responsePutAcknowledged =>
    simp only [exec, execResponsePutAcknowledged]
    split
    · refine meets_ite (fun _ => ?_) (fun _ => meets_next.mpr (.inr rfl))
      split
      · exact meets_next.mpr (.inr rfl)
      · exact meets_next.mpr (.inl ⟨_, _, rfl⟩)
      · exact meets_next.mpr (.inr (State.standbyWritten_core _))
      · exact meets_next.mpr (.inr (congrArg Base.core (State.pageScannedWritten_base _)))
    · exact meets_ite (fun _ => meets_next.mpr (.inl ⟨_, _, rfl⟩)) (fun _ => meets_next.mpr (.inr rfl))

theorem exec_sound {i : Instr} {s : State} (hs : s.pmc.sound = true) : Meets (fun t => t.pmc.sound = true) (exec i s) := by
  obtain ⟨hr, -⟩ := sound_iff.mp hs
  by_cases hm : movesUnits i = false
  · exact fun t ht => (sound_of_core (core_of_units (exec_units hm s t ht))).trans hs
  have same : ∀ {t : State}, t.pmc.core = s.pmc.core → t.pmc.sound = true := fun ht => (sound_of_core ht).trans hs
  cases i
  all_goals try (exact absurd rfl hm)
  case burstEnter dir => exact execBurstEnter_sound hr hs dir
  case accessEnd => exact execAccessEnd_sound hr hs
  case refreshEnd => exact execRefreshEnd_sound hr hs
  case refreshTimerExpiry => exact execRefreshTimerExpiry_sound hr hs
  case closeTimerExpiry bank => exact execCloseTimerExpiry_sound hs bank
  case selfRefreshEntry => exact execSelfRefreshEntry_sound hr hs
  case ringEdge => exact fun t ht => woken_sound hs (execRingEdge_woken s t ht)
  case debounceExpiry input => exact fun t ht => woken_sound hs (execDebounceExpiry_woken s input t ht)
  case conversionComplete raw =>
    intro t ht
    obtain ⟨u, hu, h⟩ := execConversionComplete_woken s raw t ht
    have hcore : t.pmc.core = u.pmc.core := by
      obtain h | h := h
      · exact core_of_units h
      · exact (core_of_units (s := u.dropFastRc) h).trans rfl
    rw [sound_of_core hcore]
    exact woken_sound hs hu
  case setPower tag target snapBack ratio wakeTimer =>
    refine meets_command rfl hs ?_
    rintro u rfl
    simp only [exec, execSetPower, claimCommand_given, State.beginEntry]
    repeat' split
    all_goals exact meets_next.mpr (same (by simp [State.donePower, State.releaseMotors, State.abandonSweep]; rfl))
  case switchClock tag target =>
    refine meets_command rfl hs ?_
    rintro u rfl
    simp only [exec, execSwitchClock, claimCommand_given]
    repeat' split
    all_goals exact meets_next.mpr (same (by simp; rfl))
  case standbyTimerExpiry =>
    refine meets_ite (fun _ => ?_) (fun _ => meets_next.mpr hs)
    dsimp only
    split
    · exact meets_next.mpr (same (standbySweepStart_pmcCore _))
    · exact meets_next.mpr hs
    · exact meets_next.mpr hs
  case fastRcRunning =>
    refine meets_ite (fun _ => meets_next.mpr ?_) (fun _ => meets_next.mpr hs)
    dsimp only
    have hsweep : ∀ u : State, u.pmc.sound = true → (if u.clk.needSense then u.standbySweepStart else u).pmc.sound = true := by
      intro u hu
      split
      · exact (sound_of_core (standbySweepStart_pmcCore u)).trans hu
      · exact hu
    refine hsweep _ ?_
    split
    · exact leaveOnFastRc_sound (s := s.setClk { s.clk with fastRc := .running }) hs
    · exact hs
  case wakeTimerExpiry =>
    refine meets_ite (fun _ => meets_next.mpr ?_) (fun _ => meets_next.mpr hs)
    exact wake_sound (s := s.setClk { s.clk with wakeTimer := false }) hs _
  case configRecordRead data =>
    simp only [exec, execConfigRecordRead]
    repeat' split
    · refine meets_next.mpr (memoryStart_sound ?_)
      split
      · rwa [sound_of_core (State.beginSwitch_core ..)]
      · exact hs
    · exact meets_next.mpr hs
    · exact meets_next.mpr hs
  case refreshBurstDone =>
    exact execRefreshBurstDone_sound hs
  case hostClockStop =>
    refine meets_ite (fun _ => meets_next.mpr ?_) (fun _ => meets_next.mpr hs)
    exact memoryEntry_sound (s := s.setClk { s.clk with hostClk := false, entrySent := true }) hs
  case powerOnDetect | resetPinLow | responsePutAcknowledged =>
    intro t ht
    obtain ⟨u, cause, rfl⟩ | hcore := coldRow_pmcCore rfl s t ht
    · exact coldStart_sound u cause
    · exact same hcore
  all_goals
    simp only [exec, execSettleCountReached, execStartWindowExpiry, execPllLock, execLockWindowExpiry, execSwitchComplete,
      execLossWindowExpiry, execStandbyEntry]
    repeat' split
  all_goals exact meets_next.mpr (same (by simp))

end Sys2Proof.Machine

namespace Sys2Proof.Proofs

open Sys2Proof Sys2Proof.Machine

/-- Settles O9: each row keeps the ranges, and a grant point follows wherever the DRAM may come to idle over work. -/
theorem controllerSoundKept : Obligations.ControllerSoundKept := by
  intro s t hs h
  refine step_keeps (P := fun s => s.pmc.sound = true) (fun _ _ h => exec_sound h) (fun _ _ h => h) (fun s h => ?_) hs h
  obtain ⟨x, hx⟩ := s.tick_eq
  rw [hx]
  exact h

end Sys2Proof.Proofs
end

