-- ==== Sys2Proof/Proofs/CellLaws.lean ====
section
/-! Handing a cell reads the cell unit, the controller and the configuration alone: it commutes with a change of any other block. -/

namespace Sys2Proof.Machine

open Sys2Proof

variable (s : State) (k : Kind) (tag : Byte) (code : Nat) (r : Result) (fields detail : List Byte) (mark : CellMark)

theorem recordLost_setLink (x : Link) : (s.setLink x).recordLost k = (s.recordLost k).setLink x := by
  unfold State.recordLost
  dsimp only
  rw [apply_ite (State.setLink · x)]
  rfl

theorem handEvent_setLink (x : Link) :
    (s.setLink x).handEvent k tag r fields mark = (s.handEvent k tag r fields mark).setLink x := by
  unfold State.handEvent
  rw [recordLost_setLink, apply_ite (State.setLink · x), apply_ite (State.setLink · x)]
  rfl

theorem recordLost_setPrint (x : Print) : (s.setPrint x).recordLost k = (s.recordLost k).setPrint x := by
  unfold State.recordLost
  dsimp only
  rw [apply_ite (State.setPrint · x)]
  rfl

theorem handEvent_setPrint (x : Print) :
    (s.setPrint x).handEvent k tag r fields mark = (s.handEvent k tag r fields mark).setPrint x := by
  unfold State.handEvent
  rw [recordLost_setPrint, apply_ite (State.setPrint · x), apply_ite (State.setPrint · x)]
  rfl

theorem recordLost_setRings (x : Rings) : (s.setRings x).recordLost k = (s.recordLost k).setRings x := by
  unfold State.recordLost
  dsimp only
  rw [apply_ite (State.setRings · x)]
  rfl

theorem handEvent_setRings (x : Rings) :
    (s.setRings x).handEvent k tag r fields mark = (s.handEvent k tag r fields mark).setRings x := by
  unfold State.handEvent
  rw [recordLost_setRings, apply_ite (State.setRings · x), apply_ite (State.setRings · x)]
  rfl

/-! What a row takes changes the list it is taken from alone. -/

@[simp] theorem given_pending (i : Instr) : (s.given i).pending = s.pending := rfl
@[simp] theorem given_mem (i : Instr) : (s.given i).mem = s.mem := rfl
@[simp] theorem given_cfg (i : Instr) : (s.given i).cfg = s.cfg := rfl
@[simp] theorem given_tables (i : Instr) : (s.given i).tables = s.tables := rfl
@[simp] theorem given_clk (i : Instr) : (s.given i).clk = s.clk := rfl
@[simp] theorem given_sense (i : Instr) : (s.given i).sense = s.sense := rfl
@[simp] theorem given_lines (i : Instr) : (s.given i).lines = s.lines := rfl
@[simp] theorem given_pmc (i : Instr) : (s.given i).pmc = s.pmc := rfl
@[simp] theorem given_rings (i : Instr) : (s.given i).rings = s.rings := rfl
@[simp] theorem given_link (i : Instr) : (s.given i).link = s.link := rfl
@[simp] theorem given_scan (i : Instr) : (s.given i).scan = s.scan := rfl
@[simp] theorem given_print (i : Instr) : (s.given i).print = s.print := rfl
@[simp] theorem given_doc (i : Instr) : (s.given i).doc = s.doc := rfl
@[simp] theorem given_paper (i : Instr) : (s.given i).paper = s.paper := rfl
@[simp] theorem given_boot (i : Instr) : (s.given i).boot = s.boot := rfl
@[simp] theorem given_pins (i : Instr) : (s.given i).pins = s.pins := rfl
@[simp] theorem given_freeCount (i : Instr) : (s.given i).freeCount = s.freeCount := rfl
@[simp] theorem arrived_pending (offset : Nat) (v : Half) : (s.arrived offset v).pending = s.pending := rfl
@[simp] theorem arrived_mem (offset : Nat) (v : Half) : (s.arrived offset v).mem = s.mem := rfl
@[simp] theorem arrived_cfg (offset : Nat) (v : Half) : (s.arrived offset v).cfg = s.cfg := rfl
@[simp] theorem arrived_tables (offset : Nat) (v : Half) : (s.arrived offset v).tables = s.tables := rfl
@[simp] theorem arrived_clk (offset : Nat) (v : Half) : (s.arrived offset v).clk = s.clk := rfl
@[simp] theorem arrived_sense (offset : Nat) (v : Half) : (s.arrived offset v).sense = s.sense := rfl
@[simp] theorem arrived_lines (offset : Nat) (v : Half) : (s.arrived offset v).lines = s.lines := rfl
@[simp] theorem arrived_rings (offset : Nat) (v : Half) : (s.arrived offset v).rings = s.rings := rfl
@[simp] theorem arrived_link (offset : Nat) (v : Half) : (s.arrived offset v).link = s.link := rfl
@[simp] theorem arrived_scan (offset : Nat) (v : Half) : (s.arrived offset v).scan = s.scan := rfl
@[simp] theorem arrived_print (offset : Nat) (v : Half) : (s.arrived offset v).print = s.print := rfl
@[simp] theorem arrived_doc (offset : Nat) (v : Half) : (s.arrived offset v).doc = s.doc := rfl
@[simp] theorem arrived_paper (offset : Nat) (v : Half) : (s.arrived offset v).paper = s.paper := rfl
@[simp] theorem arrived_cells (offset : Nat) (v : Half) : (s.arrived offset v).cells = s.cells := rfl
@[simp] theorem arrived_boot (offset : Nat) (v : Half) : (s.arrived offset v).boot = s.boot := rfl
@[simp] theorem arrived_pins (offset : Nat) (v : Half) : (s.arrived offset v).pins = s.pins := rfl
@[simp] theorem arrived_freeCount (offset : Nat) (v : Half) : (s.arrived offset v).freeCount = s.freeCount := rfl
@[simp] theorem delivered_pending (q : Req) (data : List Half) : (s.delivered q data).pending = s.pending := rfl
@[simp] theorem delivered_mem (q : Req) (data : List Half) : (s.delivered q data).mem = s.mem := rfl
@[simp] theorem delivered_cfg (q : Req) (data : List Half) : (s.delivered q data).cfg = s.cfg := rfl
@[simp] theorem delivered_tables (q : Req) (data : List Half) : (s.delivered q data).tables = s.tables := rfl
@[simp] theorem delivered_clk (q : Req) (data : List Half) : (s.delivered q data).clk = s.clk := rfl
@[simp] theorem delivered_sense (q : Req) (data : List Half) : (s.delivered q data).sense = s.sense := rfl
@[simp] theorem delivered_lines (q : Req) (data : List Half) : (s.delivered q data).lines = s.lines := rfl
@[simp] theorem delivered_rings (q : Req) (data : List Half) : (s.delivered q data).rings = s.rings := rfl
@[simp] theorem delivered_link (q : Req) (data : List Half) : (s.delivered q data).link = s.link := rfl
@[simp] theorem delivered_scan (q : Req) (data : List Half) : (s.delivered q data).scan = s.scan := rfl
@[simp] theorem delivered_print (q : Req) (data : List Half) : (s.delivered q data).print = s.print := rfl
@[simp] theorem delivered_doc (q : Req) (data : List Half) : (s.delivered q data).doc = s.doc := rfl
@[simp] theorem delivered_paper (q : Req) (data : List Half) : (s.delivered q data).paper = s.paper := rfl
@[simp] theorem delivered_cells (q : Req) (data : List Half) : (s.delivered q data).cells = s.cells := rfl
@[simp] theorem delivered_boot (q : Req) (data : List Half) : (s.delivered q data).boot = s.boot := rfl
@[simp] theorem delivered_pins (q : Req) (data : List Half) : (s.delivered q data).pins = s.pins := rfl
@[simp] theorem delivered_freeCount (q : Req) (data : List Half) : (s.delivered q data).freeCount = s.freeCount := rfl
@[simp] theorem delivered_ring (q : Req) (data : List Half) (t : RingId) : (s.delivered q data).ring t = s.ring t := rfl

end Sys2Proof.Machine
end

