-- ==== Sys2Proof/Proofs/Access.lean ====
section
/-! The end of an access: what it stores, what it hands to its requester, and the controller it leaves. -/

namespace Sys2Proof.Machine

open Sys2Proof

/-! ### The halfwords stored (R129, R193) -/

theorem readByte_writeHalf_low {m : List Host.Cell} (h : memoryWf m = true) (a : Nat) (d : Half) (low high : Bool) :
    readByte (writeHalf m a d low high) (2 * a) = if low then lowByte d else readByte m (2 * a) := by
  cases low <;> cases high
  · rfl
  · simp only [writeHalf, Bool.false_eq_true, if_false, if_true]
    rw [readByte_writeByte _ _ _ h, if_neg (by omega)]
  · simp only [writeHalf, Bool.false_eq_true, if_false, if_true]
    rw [readByte_writeByte _ _ _ h, if_pos rfl]
  · simp only [writeHalf, if_true]
    rw [readByte_writeByte _ _ _ (writeByte_wf _ _ h), if_neg (by omega), readByte_writeByte _ _ _ h, if_pos rfl]

theorem readByte_writeHalf_high {m : List Host.Cell} (h : memoryWf m = true) (a : Nat) (d : Half) (low high : Bool) :
    readByte (writeHalf m a d low high) (2 * a + 1) = if high then highByte d else readByte m (2 * a + 1) := by
  cases low <;> cases high
  · rfl
  · simp only [writeHalf, Bool.false_eq_true, if_false, if_true]
    rw [readByte_writeByte _ _ _ h, if_pos rfl]
  · simp only [writeHalf, Bool.false_eq_true, if_false, if_true]
    rw [readByte_writeByte _ _ _ h, if_neg (by omega)]
  · simp only [writeHalf, if_true]
    rw [readByte_writeByte _ _ _ (writeByte_wf _ _ h), if_pos rfl]

theorem readByte_writeHalves_inside {m : List Host.Cell} (h : memoryWf m = true) (a : Nat) (low high : Bool) (ds : List Half)
    (k : Nat) (hk : k < ds.length) :
    readByte (writeHalves m a low high ds) (2 * (a + k)) = (if low then lowByte (ds.getD k 0) else readByte m (2 * (a + k)))
    ∧ readByte (writeHalves m a low high ds) (2 * (a + k) + 1)
      = (if high then highByte (ds.getD k 0) else readByte m (2 * (a + k) + 1)) := by
  induction ds generalizing m a k with
  | nil => exact absurd hk (Nat.not_lt_zero k)
  | cons d ds ih =>
    have hwf := writeHalf_wf a d low high h
    cases k with
    | zero =>
      simp only [writeHalves, Nat.add_zero, List.getD_cons_zero]
      rw [readByte_writeHalves_outside _ _ _ _ _ hwf (by omega), readByte_writeHalves_outside _ _ _ _ _ hwf (by omega)]
      exact ⟨readByte_writeHalf_low h a d low high, readByte_writeHalf_high h a d low high⟩
    | succ k =>
      simp only [writeHalves, List.getD_cons_succ, show a + (k + 1) = a + 1 + k by omega]
      obtain ⟨hl, hh⟩ := ih hwf (a + 1) k (Nat.lt_of_succ_lt_succ hk)
      rw [hl, hh, readByte_writeHalf_outside _ _ _ _ _ h (by omega), readByte_writeHalf_outside _ _ _ _ _ h (by omega)]
      exact ⟨rfl, rfl⟩

/-! ### The controller after a performed burst (R121, R129, R130) -/

/-- R121: what a performed burst delivers. -/
def Pmc.inboxAfter (x : Pmc) (b : Burst) (data : List Half) : List Delivery :=
  if b.req = .host ∨ b.req = .word ∨ b.req = .slotWords then x.inbox else deliver b.req data b.last x.inbox

theorem answer_eq (x : Pmc) (b : Burst) (data : List Half) : x.answer b data = { x with
    hostData := if b.req = .host ∧ b.dir = .read then data.getD 0 0 else x.hostData
    inbox := x.inboxAfter b data } := by
  unfold Pmc.answer Pmc.inboxAfter
  split
  next hreq => cases hdir : b.dir <;> simp [hreq]
  next hreq => simp [hreq]
  next hreq => simp [hreq]
  next hhost hword hslot =>
    have hnot : ¬(b.req = .host ∨ b.req = .word ∨ b.req = .slotWords) := by
      rintro (h | h | h)
      · exact hhost h
      · exact hword h
      · exact hslot h
    rw [if_neg hnot, if_neg fun h => hhost h.1]

/-- R130: the bank of a performed burst. -/
def BoardConfig.bankAfter (c : BoardConfig) (openRow : Option Nat) : Bank :=
  if c.closeInterval = 0 then {} else { openRow := openRow, closeTimer := some c.closeInterval }

theorem afterAccess_eq (c : BoardConfig) (x : Pmc) (b : Burst) : x.afterAccess c b =
    let one := b.half / c.rowLen % c.banks = 1
    { x with
      bank0 := if one then x.bank0 else c.bankAfter (if one then x.bank1 else x.bank0).openRow
      bank1 := if one then c.bankAfter (if one then x.bank1 else x.bank0).openRow else x.bank1 } := by
  unfold Pmc.afterAccess BoardConfig.bankAfter Pmc.setBank Pmc.bank BoardConfig.bankOf BoardConfig.rowNumber
  by_cases hone : b.half / c.rowLen % c.banks = 1
  · by_cases hc : c.closeInterval = 0 <;> simp [hone, hc]
  · by_cases hc : c.closeInterval = 0 <;> simp [hone, hc]

/-- R129, R130: the controller after a performed burst, but for the arrival. -/
def Pmc.afterBurst (c : BoardConfig) (x : Pmc) (b : Burst) (data : List Half) : Pmc :=
  let one := b.half / c.rowLen % c.banks = 1
  let bank := c.bankAfter (if one then x.bank1 else x.bank0).openRow
  let queue := x.writeQ.filter (fun e => e.age ≠ b.age)
  { x with
    act := .free
    readQ := if b.dir = .read then x.readQ.filter (fun e => e.age ≠ b.age) else x.readQ
    writeQ := if b.dir = .write then queue else x.writeQ
    drain := if b.dir = .write then x.drain && decide (2 < queue.length) else x.drain
    bank0 := if one then x.bank0 else bank
    bank1 := if one then bank else x.bank1
    hostData := if b.req = .host ∧ b.dir = .read then data.getD 0 0 else x.hostData
    inbox := x.inboxAfter b data }

theorem performed_read {s : State} {b : Burst} (h : b.dir = .read) :
    s.performed b = s.setPmc (s.pmc.afterBurst s.cfg b (readHalves s.mem b.half b.len)) := by
  unfold State.performed Pmc.afterBurst
  simp only [h, answer_eq, afterAccess_eq, Pmc.leave]
  rfl

theorem performed_write {s : State} {b : Burst} (h : b.dir = .write) : s.performed b =
    (s.setMem (writeHalves s.mem b.half b.lowEnable b.highEnable b.data)).setPmc (s.pmc.afterBurst s.cfg b []) := by
  unfold State.performed Pmc.afterBurst
  simp only [h, answer_eq, afterAccess_eq, Pmc.leave]
  rfl

theorem perform_read {s : State} {b : Burst} (h : b.dir = .read) :
    s.perform b = s.setPmc (s.pmc.afterBurst s.cfg b (readHalves s.mem b.half b.len)) := by
  rw [perform_eq_snoop, performed_read h]
  refine snoop_of_not ?_
  rintro ⟨-, hw, -⟩
  rw [h] at hw
  cases hw

theorem perform_write_mem {s : State} {b : Burst} (h : b.dir = .write) :
    (s.perform b).mem = writeHalves s.mem b.half b.lowEnable b.highEnable b.data := by
  have hg := congrArg Ground.mem (perform_ground s b)
  rw [h] at hg
  exact hg

theorem perform_write_pmc {s : State} {b : Burst} (h : b.dir = .write) : (s.perform b).pmc =
    { s.pmc.afterBurst s.cfg b [] with
      arrivals := if b.cls = .host ∧ s.cfg.cbAddr ≤ 2 * b.half ∧ 2 * b.half < s.cfg.cbAddr + 256 then
          s.pmc.arrivals ++ [⟨2 * b.half - s.cfg.cbAddr,
            readHalf (writeHalves s.mem b.half b.lowEnable b.highEnable b.data) b.half⟩]
        else s.pmc.arrivals } := by
  rw [perform_eq_snoop]
  by_cases hs : b.cls = .host ∧ s.cfg.cbAddr ≤ 2 * b.half ∧ 2 * b.half < s.cfg.cbAddr + 256
  · have hsnoop : (s.performed b).cfg.Snooped b := by
      rw [performed_cfg]
      exact ⟨hs.1, h, hs.2⟩
    rw [snoop_of_snooped hsnoop, if_pos hs, performed_write h]
    rfl
  · have hsnoop : ¬(s.performed b).cfg.Snooped b := by
      rw [performed_cfg]
      exact fun hsnoop => hs ⟨hsnoop.1, hsnoop.2.2⟩
    rw [snoop_of_not hsnoop, if_neg hs, performed_write h]
    rfl

/-! ### ACCESS_END -/

theorem exec_accessEnd {s : State} {b : Burst} {cycles : Nat} (hact : s.pmc.act = .access b cycles)
    (hin : 2 * (b.half + b.len) ≤ s.cfg.memSize) :
    exec .accessEnd s = .next ((s.perform b).commandRead.linkReadsAbandoned).grantPoint := by
  simp only [exec, execAccessEnd, hact, Burst.inside, hin, decide_true, if_true]

/-- The row's other parts leave memory alone. -/
theorem accessEnd_mem (s : State) (b : Burst) :
    (State.grantPoint (s.perform b).commandRead.linkReadsAbandoned).mem = (s.perform b).mem := by
  refine congrArg Ground.mem (?_ : (State.grantPoint (s.perform b).commandRead.linkReadsAbandoned).ground = (s.perform b).ground)
  rw [State.grantPoint_ground, State.linkReadsAbandoned_ground, State.commandRead_ground]

theorem commandRead_idle {s : State} (h : s.cells.reading = none) : s.commandRead = s := by
  unfold State.commandRead
  rw [h]

/-- R23: an ENDING link's abandoned reads are complete. -/
def State.Abandoned (s : State) : Prop :=
  s.link.st = .ending ∧ s.link.readsOut = true ∧ s.pmc.hasDone .linkWords = true ∧ s.pmc.hasDone .linkTag = true

theorem linkReadsAbandoned_of {s : State} (h : s.Abandoned) : s.linkReadsAbandoned = s.linkDetachSource.linkTryOff := by
  obtain ⟨hst, hout, hwords, htag⟩ := h
  simp [State.linkReadsAbandoned, State.linkReadsDone, hst, hout, hwords, htag]

theorem linkReadsAbandoned_of_not {s : State} (h : ¬s.Abandoned) : s.linkReadsAbandoned = s := by
  unfold State.linkReadsAbandoned State.linkReadsDone
  refine if_neg fun hc => h ?_
  simpa [State.Abandoned] using hc

@[simp] theorem performed_cells (s : State) (b : Burst) : (s.performed b).cells = s.cells := by
  unfold State.performed
  dsimp only
  split <;> rfl

@[simp] theorem performed_link (s : State) (b : Burst) : (s.performed b).link = s.link := by
  unfold State.performed
  dsimp only
  split <;> rfl

@[simp] theorem snoop_cells (s : State) (b : Burst) : (s.snoop b).cells = s.cells := by
  unfold State.snoop; dsimp only; split <;> rfl

@[simp] theorem snoop_link (s : State) (b : Burst) : (s.snoop b).link = s.link := by
  unfold State.snoop; dsimp only; split <;> rfl

@[simp] theorem snoop_cfg (s : State) (b : Burst) : (s.snoop b).cfg = s.cfg := by
  unfold State.snoop; dsimp only; split <;> rfl

end Sys2Proof.Machine

namespace Sys2Proof.Proofs

open Sys2Proof Sys2Proof.Machine

/-- The memory half of O6. -/
theorem accessEndStores : Obligations.AccessEndStores := by
  intro s b cycles hwf hact hdir hlen
  refine ⟨fun hin => ⟨_, exec_accessEnd hact hin, fun a ha => ?_, fun k hk => ?_, fun hreading => ?_⟩, fun hout => ?_⟩
  · rw [accessEnd_mem, perform_write_mem hdir]
    exact readByte_writeHalves_outside _ _ _ _ _ hwf (by omega)
  · rw [accessEnd_mem, perform_write_mem hdir]
    exact readByte_writeHalves_inside hwf _ _ _ _ _ (by omega)
  · intro one queue bank p hnot
    have hp : (s.perform b).pmc = p := by
      simp only [p, accessEnd_mem, perform_write_mem hdir, perform_write_pmc hdir, Pmc.afterBurst, hdir, reduceCtorEq, if_false,
        if_true, and_false]
      rfl
    have hcells : (s.perform b).cells = s.cells := by rw [perform_eq_snoop, snoop_cells, performed_cells]
    have hlink : (s.perform b).link = s.link := by rw [perform_eq_snoop, snoop_link, performed_link]
    rw [commandRead_idle (hcells ▸ hreading), linkReadsAbandoned_of_not (by rw [State.Abandoned, hlink, hp]; exact hnot)]
    change Pmc.grantPoint (s.perform b).cfg (s.perform b).pmc = _
    rw [hp, perform_eq_snoop, snoop_cfg, performed_cfg]
  · simp only [exec, execAccessEnd, hact, Burst.inside, not_le.mpr hout, decide_false, Bool.false_eq_true, if_false]

end Sys2Proof.Proofs
end

