-- ==== Sys2Proof/Proofs/AccessReads.lean ====
section
/-! The end of a read: what it hands to the host or to its requester, and the end of an abandoned link's reads. -/

namespace Sys2Proof.Machine

open Sys2Proof

/-! ### What a grant point leaves alone -/

@[simp] theorem startAccess_hostData (c : BoardConfig) (x : Pmc) (b : Burst) : (x.startAccess c b).hostData = x.hostData := by
  unfold Pmc.startAccess Pmc.setBank
  dsimp only
  split <;> rfl

@[simp] theorem startAccess_inbox (c : BoardConfig) (x : Pmc) (b : Burst) : (x.startAccess c b).inbox = x.inbox := by
  unfold Pmc.startAccess Pmc.setBank
  dsimp only
  split <;> rfl

@[simp] theorem grantPoint_hostData (c : BoardConfig) (x : Pmc) : (x.grantPoint c).hostData = x.hostData := by
  unfold Pmc.grantPoint
  repeat' split
  · rfl
  · simp
  · rfl
  · rfl

@[simp] theorem grantPoint_inbox (c : BoardConfig) (x : Pmc) : (x.grantPoint c).inbox = x.inbox := by
  unfold Pmc.grantPoint
  repeat' split
  · rfl
  · simp
  · rfl
  · rfl

/-! ### Delivered data (R121) -/

theorem deliver_of_nothing {q : Req} {l : List Delivery} (h : ∀ d ∈ l, d.req ≠ q) (data : List Half) (last : Bool) :
    deliver q data last l = l ++ [⟨q, data, last⟩] := by
  induction l with
  | nil => rfl
  | cons d ds ih =>
    have hd := h d List.mem_cons_self
    simp only [deliver, hd, decide_false, Bool.false_and, Bool.false_eq_true, if_false, List.cons_append]
    rw [ih fun e he => h e (List.mem_cons_of_mem _ he)]

/-- A transfer of one burst to a requester to which nothing is delivered is complete with its data. -/
theorem delivered_of_inbox {x : Pmc} {q : Req} {l : List Delivery} {data : List Half} (h : ∀ d ∈ l, d.req ≠ q)
    (hx : x.inbox = deliver q data true l) : x.dataOf q = data ∧ x.hasDone q = true := by
  rw [deliver_of_nothing h] at hx
  have hnone : l.filter (fun d => d.req = q && d.complete) = [] := by
    rw [List.filter_eq_nil_iff]
    intro d hd
    simp [h d hd]
  constructor
  · simp [Pmc.dataOf, hx, List.filter_append, hnone]
  · simp [Pmc.hasDone, hx]

/-! ### The row's parts keep what is driven to the host -/

theorem hostData_of_sameButCells {s t : State} (h : s.sameButCells t) : t.pmc.hostData = s.pmc.hostData := by
  unfold State.sameButCells at h
  rw [h]
  rfl

theorem commandRead_hostData (s : State) : s.commandRead.pmc.hostData = s.pmc.hostData := by
  unfold State.commandRead
  split
  · rfl
  · split <;> rfl

theorem linkStream_hostData (s : State) : s.linkStream.pmc.hostData = s.pmc.hostData :=
  hostData_of_sameButCells (handEvent_sameButCells ..)

theorem linkTryOff_hostData (s : State) : s.linkTryOff.pmc.hostData = s.pmc.hostData := by
  unfold State.linkTryOff
  dsimp only
  split
  · split
    · exact linkStream_hostData _
    · rfl
  · rfl

theorem linkReadsAbandoned_hostData (s : State) : s.linkReadsAbandoned.pmc.hostData = s.pmc.hostData := by
  unfold State.linkReadsAbandoned
  split
  · exact linkTryOff_hostData _
  · rfl

/-! ### The end of an abandoned link's reads (R23) -/

theorem attachConsumer_ring (s : State) (r t : RingId) (on : Bool) : (s.attachConsumer r on).ring t =
    if t = r then { s.ring r with consAttached := on } else s.ring t := by
  unfold State.attachConsumer
  split
  next h => subst h; exact State.setRing_ring s t _
  next h => exact State.setRing_ring_other s _ h

theorem attachProducer_ring (s : State) (r t : RingId) (on : Bool) : (s.attachProducer r on).ring t =
    if t = r then { s.ring r with prodAttached := on } else s.ring t := by
  unfold State.attachProducer
  split
  next h => subst h; exact State.setRing_ring s t _
  next h => exact State.setRing_ring_other s _ h

/-- R23: the link's reads are dropped. -/
def Pmc.dropLinkReads (x : Pmc) : Pmc := { x with inbox := x.inbox.filter (fun d => d.req ≠ .linkWords ∧ d.req ≠ .linkTag) }

theorem linkDropReads_eq (s : State) : s.linkDropReads = s.setPmc s.pmc.dropLinkReads := by
  unfold State.linkDropReads State.takeAll Pmc.dropLinkReads
  simp only [State.setPmc_pmc, List.filter_filter, ne_eq, Bool.decide_and, Bool.and_comm]
  rfl

/-- The state an ENDING link's abandoned reads leave, before the link goes OFF. -/
theorem linkDetachSource_eq (s : State) : s.linkDetachSource =
    ((s.setPmc s.pmc.dropLinkReads).attachConsumer s.link.sourceRing false).setLink { s.link with readsOut := false } := by
  unfold State.linkDetachSource
  dsimp only
  rw [linkDropReads_eq]
  rfl

/-- R23: the destination's page end is complete and nothing is being written there. -/
def Ring.ended (y : Ring) : Prop := y.pageEnd = none ∧ y.writing = []

theorem linkStream_setRings (s : State) (q : Rings) : (s.setRings q).linkStream = s.linkStream.setRings q :=
  handEvent_setRings ..

theorem link_of_sameButCells {s t : State} (h : s.sameButCells t) : t.link = s.link := by
  unfold State.sameButCells at h
  rw [h]
  rfl

theorem rings_of_sameButCells {s t : State} (h : s.sameButCells t) : t.rings = s.rings := by
  unfold State.sameButCells at h
  rw [h]
  rfl

theorem linkStream_link (s : State) : s.linkStream.link = s.link := link_of_sameButCells (handEvent_sameButCells ..)

theorem linkStream_rings (s : State) : s.linkStream.rings = s.rings := rings_of_sameButCells (handEvent_sameButCells ..)

/-- R23, R24: the link goes OFF, after the STREAM cell that a STOP ALL owes. -/
theorem linkTryOff_of {s : State} (hst : s.link.st = .ending) (hout : s.link.readsOut = false) (h : (s.ring s.link.destRing).ended) :
    s.linkTryOff = ((if s.link.abortCell then s.linkStream else s).setRings
      (s.rings.set s.link.destRing { s.ring s.link.destRing with prodAttached := false })).setLink
      { s.link with st := .off, abortCell := false } := by
  unfold State.linkTryOff
  dsimp only
  rw [if_pos ⟨hst, h.1, h.2, hout⟩]
  unfold State.attachProducer State.setRing
  dsimp only
  cases s.link.abortCell
  · rfl
  · simp only [if_true, linkStream_setRings, State.setRings_link, linkStream_link]

theorem linkTryOff_of_not {s : State} (h : ¬(s.ring s.link.destRing).ended) : s.linkTryOff = s := by
  unfold State.linkTryOff
  exact if_neg fun hc => h ⟨hc.2.1, hc.2.2.1⟩

/-- R23: the destination of a link has ended its page. -/
def State.linkEnded (s : State) : Prop := (s.ring s.link.destRing).pageEnd = none ∧ (s.ring s.link.destRing).writing = []

/-- R23: what an ENDING link's abandoned reads leave, the link ON or OFF. -/
structure AbandonedEnd (s t : State) : Prop where
  cons : (t.ring s.link.sourceRing).consAttached = false
  take : (t.ring s.link.sourceRing).take = (s.ring s.link.sourceRing).take
  offLink : s.linkEnded → t.link = { s.link with readsOut := false, st := .off, abortCell := false }
  offProd : s.linkEnded → (t.ring s.link.destRing).prodAttached = false
  onLink : ¬s.linkEnded → t.link = { s.link with readsOut := false }
  told : s.linkEnded → s.link.abortCell = true →
    t.pmc = ((s.setPmc s.pmc.dropLinkReads).linkStream).pmc ∧ t.cells = ((s.setPmc s.pmc.dropLinkReads).linkStream).cells
  quiet : ¬(s.linkEnded ∧ s.link.abortCell = true) → t.pmc = s.pmc.dropLinkReads ∧ t.cells = s.cells
  cfg : t.cfg = s.cfg

theorem linkReadsAbandoned_end {s : State} (h : s.Abandoned) : AbandonedEnd s s.linkReadsAbandoned := by
  rw [linkReadsAbandoned_of h, linkDetachSource_eq]
  set d := ((s.setPmc s.pmc.dropLinkReads).attachConsumer s.link.sourceRing false).setLink { s.link with readsOut := false }
    with hd
  have hring : ∀ r, d.ring r = if r = s.link.sourceRing then { s.ring s.link.sourceRing with consAttached := false }
      else s.ring r := fun r => attachConsumer_ring (s.setPmc s.pmc.dropLinkReads) s.link.sourceRing r false
  have hended : (d.ring d.link.destRing).ended ↔ s.linkEnded := by
    change (d.ring s.link.destRing).ended ↔ _
    rw [hring]
    split
    next heq => rw [State.linkEnded, heq]; rfl
    · rfl
  have hcell : d.linkStream = ((s.setPmc s.pmc.dropLinkReads).linkStream.setRings d.rings).setLink d.link := by
    have hfields : d.linkStream = (((s.setPmc s.pmc.dropLinkReads).setRings d.rings).setLink d.link).linkStream := rfl
    rw [hfields]
    unfold State.linkStream
    rw [handEvent_setLink, handEvent_setRings]
    rfl
  by_cases hoff : s.linkEnded
  · rw [linkTryOff_of (s := d) h.1 rfl (hended.mpr hoff)]
    have hset : ∀ r, (d.rings.set d.link.destRing { d.ring d.link.destRing with prodAttached := false }).get r =
        if r = d.link.destRing then { d.ring d.link.destRing with prodAttached := false } else d.ring r :=
      fun r => attachProducer_ring d d.link.destRing r false
    have hsource : d.ring s.link.sourceRing = { s.ring s.link.sourceRing with consAttached := false } := by
      rw [hring, if_pos rfl]
    refine ⟨?_, ?_, fun _ => rfl, fun _ => ?_, fun hon => absurd hoff hon, fun _ habort => ?_, fun hquiet => ?_, ?_⟩
    · refine (congrArg Ring.consAttached (hset _)).trans ?_
      split
      next heq => rw [← heq, hsource]
      · rw [hsource]
    · refine (congrArg Ring.take (hset _)).trans ?_
      split
      next heq => rw [← heq, hsource]
      · rw [hsource]
    · refine (congrArg Ring.prodAttached (hset _)).trans ?_
      split
      · rfl
      next hne => exact absurd rfl hne
    · have hd' : d.link.abortCell = true := habort
      rw [if_pos hd', hcell]
      exact ⟨rfl, rfl⟩
    · have hd' : ¬d.link.abortCell = true := fun habort => hquiet ⟨hoff, habort⟩
      rw [if_neg hd']
      exact ⟨rfl, rfl⟩
    · split
      · rw [hcell]
        exact congrArg Ground.cfg (State.handEvent_ground (s.setPmc s.pmc.dropLinkReads) ..)
      · rfl
  · rw [linkTryOff_of_not (s := d) (mt hended.mp hoff)]
    refine ⟨?_, ?_, fun h => absurd h hoff, fun h => absurd h hoff, fun _ => rfl, fun h => absurd h hoff, fun _ => ⟨rfl, rfl⟩, rfl⟩
    · rw [hring, if_pos rfl]
    · rw [hring, if_pos rfl]

end Sys2Proof.Machine

namespace Sys2Proof.Proofs

open Sys2Proof Sys2Proof.Machine

theorem accessEndReads : Obligations.AccessEndReads := by
  intro s b cycles hact hdir hin
  have hperform := perform_read (s := s) hdir
  have hidle : s.cells.reading = none → (s.perform b).commandRead = s.perform b := fun hreading =>
    commandRead_idle (by rw [hperform]; exact hreading)
  refine ⟨_, exec_accessEnd hact hin, ?_, ?_, ?_, ?_⟩
  · rw [accessEnd_mem, hperform]
    rfl
  · intro hreq hlen
    change (Pmc.grantPoint _ _).hostData = _
    rw [grantPoint_hostData, linkReadsAbandoned_hostData, commandRead_hostData, hperform]
    simp [Pmc.afterBurst, hreq, hdir, hlen, readHalves]
  · intro hlast hhost hword hslot hnothing hreading hlink
    have hnot : ¬(s.perform b).Abandoned := by
      rw [hperform]
      exact fun h => hlink h.1
    rw [hidle hreading, linkReadsAbandoned_of_not hnot, hperform]
    refine delivered_of_inbox hnothing ((grantPoint_inbox _ _).trans ?_)
    simp [Pmc.afterBurst, Pmc.inboxAfter, hhost, hword, hslot, hlast]
  · intro hreading one data bank p x y abandoned
    have hp : s.pmc.afterBurst s.cfg b data = p := by
      simp only [p, Pmc.afterBurst, Pmc.inboxAfter, BoardConfig.bankAfter, hdir, reduceCtorEq, if_false, if_true, and_true]
      rfl
    have hperf : s.perform b = s.setPmc p := hp ▸ hperform
    rw [hidle hreading, hperf]
    refine ⟨fun hnot => ?_, fun hab => ?_⟩
    · rw [linkReadsAbandoned_of_not (s := s.setPmc p) hnot]
      exact ⟨rfl, rfl, rfl, rfl⟩
    · intro rest off told
      have hend := linkReadsAbandoned_end (s := s.setPmc p) hab
      refine ⟨hend.cons, hend.take, fun hoff => ⟨hend.offLink hoff, hend.offProd hoff⟩, hend.onLink, ?_, ?_⟩
      · change Pmc.grantPoint _ _ = _
        rw [hend.cfg]
        split
        next htold => rw [(hend.told htold.1 htold.2).1]; rfl
        next htold => rw [(hend.quiet htold).1]; rfl
      · change ((s.setPmc p).linkReadsAbandoned).cells = _
        split
        next htold => rw [(hend.told htold.1 htold.2).2]; rfl
        next htold => rw [(hend.quiet htold).2]; rfl

end Sys2Proof.Proofs
end

