-- ==== Sys2Proof/Proofs/CellRows.lean ====
section
/-! The cell unit's rows: handing cells, taking commands, the host's index writes, and publishing responses. -/

namespace Sys2Proof.Machine

open Sys2Proof

/-! ### Ring indices (R3) -/

/-- The advance from one index to another of a ring of `m` positions. -/
theorem advance_eq {p t m : Nat} (hp : p < m) (ht : t < m) : (p + m - t) % m = if t ≤ p then p - t else p + m - t := by
  split
  · rw [show p + m - t = p - t + m by omega, Nat.add_mod_right, Nat.mod_eq_of_lt (by omega)]
  · exact Nat.mod_eq_of_lt (by omega)

theorem advance_pos_iff {p t m : Nat} (hp : p < m) (ht : t < m) : 0 < (p + m - t) % m ↔ p ≠ t := by
  rw [advance_eq hp ht]
  split <;> omega

theorem cellIndexRefused_iff (cells now written base limit : Nat) : cellIndexRefused cells now written base limit = true ↔
    ¬(written < 2 * cells ∧ base + (written + 2 * cells - now) % (2 * cells) ≤ limit) := by
  simp only [cellIndexRefused, Bool.or_eq_true, decide_eq_true_eq, not_and_or, not_lt, not_le]

/-! ### Handing cells (R182, R185) -/

theorem summaryBit_ne_zero (k : Kind) : summaryBit k ≠ 0 := by cases k <;> decide

theorem or_summaryBit_ne_zero (x : BitVec 16) (k : Kind) : x ||| summaryBit k ≠ 0 :=
  fun h => summaryBit_ne_zero k (BitVec.or_eq_zero_iff.mp h).2

theorem attn_iff {s : State} (hp : s.cells.respPut < 2 * s.cfg.nr) (ht : s.cells.respTake < 2 * s.cfg.nr) :
    s.attn = true ↔ s.cells.respPut ≠ s.cells.respTake ∨ s.cells.summary ≠ 0 := by
  simp only [State.attn, State.respOccupancy, Bool.or_eq_true, decide_eq_true_eq, advance_pos_iff hp ht, bne_iff_ne]

theorem attn_of_summary {s : State} (h : s.cells.summary ≠ 0) : s.attn = true := by
  simp only [State.attn, Bool.or_eq_true, bne_iff_ne]
  exact .inr h

theorem recordLost_summary (s : State) (k : Kind) : (s.recordLost k).cells.summary = s.cells.summary ||| summaryBit k := by
  unfold State.recordLost
  dsimp only
  split <;> rfl

/-- R185: what an event that finds no slot leaves. -/
theorem recordLost_eq (s : State) (k : Kind) :
    let summary := s.cells.summary ||| summaryBit k
    let dropped := min 255 (s.cells.dropped + 1)
    let word := fun (offset : Nat) (v : Half) => cutBursts s.cfg.rowLen .write .cell .word 1 ((s.cfg.cbAddr + offset) / 2) 1 [v]
    s.recordLost k = (s.setCells { s.cells with summary := summary, dropped := dropped }).setPmc { s.pmc with
      waiting := s.pmc.waiting ++ if summary = s.cells.summary ∧ dropped = s.cells.dropped then []
        else word 0x08 summary ++ word 0x0A (BitVec.ofNat 16 dropped) } := by
  intro summary dropped word
  unfold State.recordLost
  dsimp only
  by_cases hsame : summary = s.cells.summary ∧ dropped = s.cells.dropped
  · have hnot : ¬(summary != s.cells.summary || dropped != s.cells.dropped) = true := by simp [hsame]
    rw [if_pos hsame, List.append_nil]
    exact if_neg hnot
  · have hchanged : (summary != s.cells.summary || dropped != s.cells.dropped) = true := by
      simpa only [Bool.or_eq_true, bne_iff_ne, not_and_or] using hsame
    rw [if_neg hsame, ← List.append_assoc]
    refine (if_pos hchanged).trans ?_
    simp only [State.writeSummary, State.writeWord, BitVec.ofNat_toNat, BitVec.setWidth_eq]
    rfl

/-- R185: an event that finds no slot. -/
theorem handEvent_lost {s : State} (ht : s.cells.taking ≠ .notStarted) (hfree : s.respFree = 0) (k : Kind) (tag : Byte) (r : Result)
    (fields : List Byte) (mark : CellMark) : s.handEvent k tag r fields mark = s.recordLost k := by
  simp only [State.handEvent, ht, if_false, hfree, Nat.lt_irrefl]

theorem handEvent_written {s : State} (ht : s.cells.taking ≠ .notStarted) (hfree : 0 < s.respFree) (k : Kind) (tag : Byte)
    (r : Result) (fields : List Byte) (mark : CellMark) :
    s.handEvent k tag r fields mark = s.writeCell mark ([byte (kindCode k), tag, byte (resultCode r)] ++ fields) := by
  simp only [State.handEvent, ht, if_false, hfree, if_true]

theorem handEvent_notStarted {s : State} (ht : s.cells.taking = .notStarted) (k : Kind) (tag : Byte) (r : Result)
    (fields : List Byte) (mark : CellMark) : s.handEvent k tag r fields mark = s := by
  simp only [State.handEvent, ht, if_true]

/-! ### Taking commands (R179) -/

@[simp] theorem lowByte_halfOf (l h : Byte) : lowByte (halfOf l h) = l :=
  BitVec.eq_of_getLsbD_eq fun i hi => by
    simp only [lowByte, halfOf, BitVec.getLsbD_extractLsb', BitVec.getLsbD_append, hi, decide_true, Bool.true_and, Nat.zero_add,
      if_true]

@[simp] theorem highByte_halfOf (l h : Byte) : highByte (halfOf l h) = h :=
  BitVec.eq_of_getLsbD_eq fun i hi => by
    simp only [highByte, halfOf, BitVec.getLsbD_extractLsb', BitVec.getLsbD_append, hi, decide_true, Bool.true_and,
      show ¬8 + i < 8 by omega, if_false, Nat.add_sub_cancel_left]

theorem halvesToBytes_bytesToHalves {bytes : List Byte} (h : bytes.length % 2 = 0) :
    halvesToBytes (bytesToHalves bytes) = bytes := by
  induction bytes using bytesToHalves.induct with
  | case1 l h rest ih =>
    simp only [bytesToHalves, halvesToBytes, lowByte_halfOf, highByte_halfOf]
    rw [ih (by simp only [List.length_cons] at h; omega)]
  | case2 l => simp at h
  | case3 => rfl

/-- The state in which a command has been taken: it is in flight and handed, and the reader is IDLE. -/
def State.taken (s : State) (i : Instr) : State :=
  s.setCells { s.cells with
    cmdTake := (s.cells.cmdTake + 1) % (2 * s.cfg.nc), reading := none
    inFlight := s.cells.inFlight ++ [⟨(commandCode i).getD 0, commandTag i⟩]
    handed := s.cells.handed ++ [i] }

/-- R179: the read of a command cell completes with its data. -/
theorem commandRead_of {s : State} {slot : Nat} (hreading : s.cells.reading = some slot) (hdone : s.pmc.hasDone .cmdRead = true) :
    s.commandRead = (((s.takeAll .cmdRead).taken (decodeCell (halvesToBytes (s.pmc.dataOf .cmdRead)))).writeWord .cell 0x02
      ((s.cells.cmdTake + 1) % (2 * s.cfg.nc))) := by
  unfold State.commandRead
  simp only [hreading, hdone, if_true]
  rfl

/-! ### What a written cell brings about (R44) -/

/-- R44, R45: the PAGE_SCANNED cell of an ending scan stream is written; with the DOC channel at rest the stream is OFF. -/
theorem pageScannedWritten_eq (s : State) : s.pageScannedWritten =
    if s.scan.st = .ending ∧ s.scan.endCell = .handed then
      if s.doc.moving then s.setScan { s.scan with endCell := .written }
      else
        ((s.setScan { s.scan with endCell := .written, st := .off }).setRing s.scan.params.ring
          { s.ring s.scan.params.ring with prodAttached := false }).setDoc { s.doc with owner := .host }
    else s := by
  unfold State.pageScannedWritten
  by_cases hend : s.scan.st = .ending ∧ s.scan.endCell = .handed
  · rw [if_pos hend, if_pos hend]
    unfold State.scanTryOff Channel.atRest
    cases hm : s.doc.moving with
    | false => exact if_pos ⟨hend.1, rfl, by rw [State.setScan_doc, hm]; rfl⟩
    | true => exact if_neg fun h => by simp [hm] at h
  · rw [if_neg hend, if_neg hend]

end Sys2Proof.Machine

namespace Sys2Proof.Proofs

open Sys2Proof Sys2Proof.Machine

/-- Settles O16: the operations of R182 and R185 written out, and ATTN by the two indices and the summary. -/
theorem cellHanding : Obligations.CellHanding := by
  intro s k tag code r fields detail mark slot address bursts word summary dropped
  refine ⟨fun ht => handEvent_notStarted ht .., fun ht hfree => ?_, fun ht hfree => ?_, fun ht hres => ?_, fun hp htk => ⟨attn_iff hp htk, fun ht hfree => ?_⟩⟩
  · rw [handEvent_written ht hfree]
    rfl
  · rw [handEvent_lost ht hfree]
    exact recordLost_eq s k
  · have hne : ¬(s.cells.taking = .notStarted ∨ s.cells.reserved = 0) := by
      rintro (h | h)
      · exact ht h
      · omega
    simp only [State.handDone, hne, if_false]
    rfl
  · rw [handEvent_lost ht hfree]
    refine attn_of_summary ?_
    rw [recordLost_summary]
    exact or_summaryBit_ne_zero _ k

/-- Settles O18: the guard of R179, and the read's completion, at once or with its access. -/
theorem commandTaking : Obligations.CommandTaking := by
  intro s
  refine ⟨fun ht hr hocc hfree hh hw => ?_, ?_, ?_⟩
  · have hwait : s.burstWaits .cell = false := by
      rw [← Bool.not_eq_true, burstWaits_iff]
      rintro ⟨b, hb, hcls⟩
      exact hw b hb hcls
    have hmay : s.mayTake = true := by simp [State.mayTake, ht, hr, hocc, hfree, hh, hwait]
    simp only [exec, execCommandTakeStart, hmay, if_true]
    rfl
  · intro slot bytes hlen hreading hnothing i
    rw [commandRead_of (s := s.delivered .cmdRead (bytesToHalves bytes)) hreading (delivered_hasDone ..), delivered_takeAll s _ _ hnothing,
      delivered_dataOf s _ _ hnothing, halvesToBytes_bytesToHalves (by omega)]
    rfl
  · intro slot cycles b hact hdir hreq hcls hlast hin hreading hnothing hlink i take one bank
    have hinbox : (s.pmc.afterBurst s.cfg b (readHalves s.mem b.half b.len)).inbox =
        deliver .cmdRead (readHalves s.mem b.half b.len) true s.pmc.inbox := by
      simp [Pmc.afterBurst, Pmc.inboxAfter, hreq, hlast]
    obtain ⟨hdata, hdone⟩ := delivered_of_inbox hnothing hinbox
    have htake : (s.setPmc (s.pmc.afterBurst s.cfg b (readHalves s.mem b.half b.len))).takeAll .cmdRead =
        s.setPmc { s.pmc.afterBurst s.cfg b (readHalves s.mem b.half b.len) with inbox := s.pmc.inbox } := by
      have hfilter : s.pmc.inbox.filter (fun d => d.req ≠ .cmdRead) = s.pmc.inbox := by
        simpa [List.filter_eq_self, State.nothingFor] using hnothing
      unfold State.takeAll
      rw [State.setPmc_pmc, hinbox, deliver_of_nothing hnothing, List.filter_append, hfilter]
      simp
    have hskip : ∀ u : State, u.link = s.link → u.linkReadsAbandoned = u := fun u hu =>
      linkReadsAbandoned_of_not fun h => hlink (hu ▸ h.1)
    rw [exec_accessEnd hact hin, perform_read hdir,
      commandRead_of (s := s.setPmc (s.pmc.afterBurst s.cfg b (readHalves s.mem b.half b.len))) hreading hdone, State.setPmc_pmc,
      hdata, htake, hskip]
    · simp only [Pmc.afterBurst, hdir, hreq, reduceCtorEq, if_false, if_true, false_and]
      rfl
    · rfl

/-- Settles O19: each write by its check. -/
theorem controlBlockWrites : Obligations.ControlBlockWrites := by
  intro s v offset
  refine ⟨?_, ?_, ?_, fun hv => ?_, fun ha => ?_⟩
  · simp only [exec, execCommandPutWrite, claimArrival_arrived, cellIndexRefused_iff, State.cellFault, commandRingCode, ite_not]
    split <;> rfl
  · simp only [exec, execResponseTakeWrite, claimArrival_arrived, cellIndexRefused_iff, State.cellFault, responseRingCode,
      Nat.zero_add, ite_not]
    split <;> rfl
  · simp only [exec, execSummaryWordWrite, claimArrival_arrived, if_true]
    rfl
  · simp only [exec, execSummaryWordWrite, claimArrival_arrived, hv, if_false, State.writeWord, BitVec.ofNat_toNat,
      BitVec.setWidth_eq]
  · have ha' : (s.arrived offset.toNat v).actedOn offset.toNat = false := ha
    simp only [exec, execControlBlockWrite, ha', Bool.false_eq_true, if_false, claimArrival_arrived]

/-- Settles O20: each acknowledgement by the mark of the cell it is for. -/
theorem responsePublication : Obligations.ResponsePublication := by
  intro s w writing m words
  have hpublish : s.cells.writing = w :: writing → s.wordWaits .cell = false →
      exec .responseCellAcknowledged (s.delivered .respCell []) = .next
        ((s.setCells { s.cells with
            writing := writing, respPut := (s.cells.respPut + 1) % (2 * s.cfg.nr)
            putWrites := s.cells.putWrites ++ [w.mark] }).issueWrite .cell .respPut (s.cfg.cbAddr + 4)
          [BitVec.ofNat 16 ((s.cells.respPut + 1) % (2 * s.cfg.nr))]) := fun hw hwait => by
    simp only [exec, execResponseCellAcknowledged, delivered_cells, hw, delivered_hasDone, delivered_wordWaits, hwait, and_self, if_true,
      delivered_takeOne]
    rfl
  refine ⟨hpublish, fun hm => ?_, fun hw hwait hp hne ht => ⟨_, hpublish hw hwait, ?_⟩, fun hm => ?_⟩
  · simp only [exec, execResponsePutAcknowledged, delivered_cells, hm, delivered_hasDone, if_true, delivered_takeOne]
    cases m with
    | plain => rfl
    | reboot => rfl
    | standby => simp [State.standbyWritten]
    | pageScanned => exact congrArg _ (pageScannedWritten_eq _)
  · refine (attn_iff ?_ ?_).mpr (.inl ?_)
    · exact Nat.mod_lt _ (Nat.zero_lt_of_lt hp)
    · exact ht
    · exact hne
  · simp only [exec, execResponsePutAcknowledged, hm]
    split <;> rfl

end Sys2Proof.Proofs
end

