-- ==== Sys2Proof/Proofs/Sources.lean ====
section
/-! Table sources and the configuration record (R63, R82, R101, R164, R195): each parser by its condition and its value. -/

namespace Sys2Proof.Machine

open Sys2Proof

/-! ### Lists by their places -/

theorem map_toNat_getD (d : List Half) (i : Nat) : (d.map BitVec.toNat).getD i 0 = (d.getD i 0).toNat := by
  simpa using List.getD_map (f := BitVec.toNat) (l := d) (n := i) (d := (0 : Half))

theorem forall_mem_iff_getD {l : List Nat} {p : Nat → Prop} : (∀ x ∈ l, p x) ↔ ∀ j < l.length, p (l.getD j 0) := by
  rw [List.forall_mem_iff_forall_getElem]
  refine forall₂_congr fun j hj => ?_
  rw [List.getD_eq_getElem _ _ hj]

theorem take_getD {l : List Nat} {n j : Nat} (h : j < n) : (l.take n).getD j 0 = l.getD j 0 := by
  simp only [List.getD_eq_getElem?_getD, List.getElem?_take_of_lt h]

theorem drop_getD_half (l : List Half) (n j : Nat) : (l.drop n).getD j 0 = l.getD (n + j) 0 := by
  simp only [List.getD_eq_getElem?_getD, List.getElem?_drop]

theorem isSome_ite_some {α : Type} {p : Prop} [Decidable p] (a : α) : (if p then some a else none).isSome = true ↔ p := by
  split <;> simp [*]

theorem ite_some_eq {α : Type} {p : Prop} [Decidable p] {a b : α} (h : (if p then some a else none) = some b) : p ∧ a = b := by
  split at h
  · exact ⟨‹_›, Option.some.inj h⟩
  · cases h

/-! ### Heat, profile, shading and tone -/

theorem parseHeat_isSome (d : List Half) : (parseHeat d).isSome = true ↔
    d.length = 19 ∧ (∀ j < 16, 1 ≤ (d.getD j 0).toNat ∧ (d.getD j 0).toNat ≤ 2047)
      ∧ (d.getD 16 0).toNat ≤ 1023 ∧ 1 ≤ (d.getD 17 0).toNat ∧ (d.getD 17 0).toNat ≤ 65534
      ∧ 1 ≤ (d.getD 18 0).toNat ∧ (d.getD 18 0).toNat ≤ 2047 := by
  simp only [parseHeat, isSome_ite_some, map_toNat_getD, List.all_eq_true, decide_eq_true_eq, forall_mem_iff_getD]
  refine and_congr_right fun hlen => and_congr_left fun _ => ?_
  have htake : ((d.map BitVec.toNat).take 16).length = 16 := by simp [hlen]
  rw [htake]
  refine forall₂_congr fun j hj => ?_
  rw [take_getD hj, map_toNat_getD]

theorem parseHeat_eq {d : List Half} {t : Heat} (h : parseHeat d = some t) :
    t = ⟨(d.take 16).map (·.toNat), (d.getD 16 0).toNat, (d.getD 17 0).toNat, (d.getD 18 0).toNat⟩ := by
  simp only [parseHeat] at h
  obtain ⟨-, rfl⟩ := ite_some_eq h
  simp only [map_toNat_getD, List.map_take]

theorem parseProfile_isSome (d : List Half) : (parseProfile d).isSome = true ↔
    1 ≤ (d.getD 0 0).toNat ∧ (d.getD 0 0).toNat ≤ 64 ∧ d.length = (d.getD 0 0).toNat + 1
      ∧ ∀ j < (d.getD 0 0).toNat, 16 ≤ (d.getD (j + 1) 0).toNat := by
  simp only [parseProfile, isSome_ite_some, List.all_eq_true, decide_eq_true_eq, forall_mem_iff_getD, List.length_map,
    List.length_drop]
  refine and_congr_right fun hpos => and_congr_right fun _ => ?_
  constructor
  · rintro ⟨hlen, hall⟩
    refine ⟨by omega, fun j hj => ?_⟩
    have := hall j (by omega)
    rwa [map_toNat_getD, drop_getD_half, Nat.add_comm] at this
  · rintro ⟨hlen, hall⟩
    refine ⟨by omega, fun j hj => ?_⟩
    rw [map_toNat_getD, drop_getD_half, Nat.add_comm]
    exact hall j (by omega)

theorem parseProfile_eq {d : List Half} {t : List Nat} (h : parseProfile d = some t) : t = (d.drop 1).map (·.toNat) :=
  (ite_some_eq h).2.symm

theorem parseShading_isSome (d : List Half) : (parseShading d).isSome = true ↔ d.length = 2048 := isSome_ite_some _

theorem parseTone_isSome (d : List Half) : (parseTone d).isSome = true ↔ d.length = 128 := isSome_ite_some _

theorem parseShading_eq {d : List Half} {t : List Shade} (h : parseShading d = some t) :
    t.length = 2048 ∧ ∀ j < 2048, t.getD j {} = ⟨(d.getD j 0).toNat / 1024, (d.getD j 0).toNat % 1024⟩ := by
  obtain ⟨hlen, rfl⟩ := ite_some_eq h
  refine ⟨by rw [List.length_map, hlen], fun j hj => ?_⟩
  have hj' : j < d.length := by omega
  rw [List.getD_eq_getElem _ _ (by rwa [List.length_map]), List.getElem_map, List.getD_eq_getElem _ _ hj']

theorem halvesToBytes_length (d : List Half) : (halvesToBytes d).length = 2 * d.length := by
  induction d with
  | nil => rfl
  | cons h rest ih => simp only [halvesToBytes, List.length_cons, ih]; omega

theorem halvesToBytes_getD (d : List Half) (j : Nat) : ((halvesToBytes d).map BitVec.toNat).getD (2 * j) 0
      = (lowByte (d.getD j 0)).toNat
    ∧ ((halvesToBytes d).map BitVec.toNat).getD (2 * j + 1) 0 = (highByte (d.getD j 0)).toNat := by
  induction d generalizing j with
  | nil => simp [halvesToBytes, lowByte, highByte]
  | cons h rest ih =>
    cases j with
    | zero => exact ⟨rfl, rfl⟩
    | succ j =>
      obtain ⟨hl, hh⟩ := ih j
      exact ⟨hl, hh⟩

theorem parseTone_eq {d : List Half} {t : List Nat} (h : parseTone d = some t) : t.length = 256
    ∧ ∀ j < 128, t.getD (2 * j) 0 = (lowByte (d.getD j 0)).toNat ∧ t.getD (2 * j + 1) 0 = (highByte (d.getD j 0)).toNat := by
  obtain ⟨hlen, rfl⟩ := ite_some_eq h
  exact ⟨by rw [List.length_map, halvesToBytes_length, hlen], fun j _ => halvesToBytes_getD d j⟩

/-! ### The sense source -/

theorem roleOf_eq_some_iff (n : Nat) (r : Role) : roleOf n = some r ↔ roleCode r = n := by
  constructor
  · unfold roleOf
    split <;> rintro ⟨⟩ <;> rfl
  · rintro rfl
    cases r <;> rfl

theorem roleOf_isSome (n : Nat) : (∃ r, roleOf n = some r) ↔ n ≤ 6 := by
  constructor
  · rintro ⟨r, hr⟩
    rw [roleOf_eq_some_iff] at hr
    subst hr
    cases r <;> decide
  · intro h
    interval_cases n <;> exact ⟨_, rfl⟩

theorem roleCode_injective {r r' : Role} (h : roleCode r = roleCode r') : r = r' := by
  have := (roleOf_eq_some_iff _ r).mpr rfl
  rw [h, (roleOf_eq_some_iff _ r').mpr rfl] at this
  exact (Option.some.inj this).symm

/-- R101: the ranges of one sense entry of three halfwords. -/
structure SenseEntryGood (a b c : Half) : Prop where
  channel : (lowByte a).toNat ≤ 7
  gain : (highByte a).toNat ∈ [1, 2, 4, 8]
  low : (lowByte b).toNat ≤ (highByte b).toNat
  hyst : (lowByte c).toNat ≤ 63
  role : c.toNat / 256 % 16 ≤ 6

/-- 10.8: a sense entry holds its three halfwords' fields. -/
structure SenseEntryOf (a b c : Half) (e : SenseEntry) : Prop where
  channel : e.channel = (lowByte a).toNat
  gain : e.gain = (highByte a).toNat
  low : e.low = (lowByte b).toNat
  high : e.high = (highByte b).toNat
  hyst : e.hyst = (lowByte c).toNat
  role : roleCode e.role = c.toNat / 256 % 16
  report : e.report = c.getLsbD 12
  wake : e.wake = c.getLsbD 13

theorem parseSenseEntry_isSome (a b c : Half) : (∃ e, parseSenseEntry a b c = some e) ↔ SenseEntryGood a b c := by
  unfold parseSenseEntry
  constructor
  · rintro ⟨e, h⟩
    split at h
    · cases h
    next r hr =>
      obtain ⟨⟨hch, hgain, hlow, hhyst⟩, -⟩ := ite_some_eq h
      exact ⟨hch, by simpa using hgain, hlow, hhyst, (roleOf_isSome _).mp ⟨r, hr⟩⟩
  · rintro ⟨hch, hgain, hlow, hhyst, hrole⟩
    obtain ⟨r, hr⟩ := (roleOf_isSome _).mpr hrole
    rw [hr]
    exact ⟨_, if_pos ⟨hch, by simpa using hgain, hlow, hhyst⟩⟩

theorem parseSenseEntry_eq {a b c : Half} {e : SenseEntry} (h : parseSenseEntry a b c = some e) : SenseEntryOf a b c e := by
  unfold parseSenseEntry at h
  split at h
  · cases h
  next r hr =>
    obtain ⟨-, rfl⟩ := ite_some_eq h
    exact ⟨rfl, rfl, rfl, rfl, rfl, (roleOf_eq_some_iff _ _).mp hr, rfl, rfl⟩

/-- A list of three halfwords for each of `n + 1` entries. -/
theorem exists_three {l : List Half} {n : Nat} (h : l.length = 3 * (n + 1)) :
    ∃ a b c rest, l = a :: b :: c :: rest ∧ rest.length = 3 * n := by
  match l, h with
  | a :: b :: c :: rest, h =>
    refine ⟨a, b, c, rest, rfl, ?_⟩
    simp only [List.length_cons] at h
    omega

theorem parseSenseEntries_isSome {l : List Half} {n : Nat} (h : l.length = 3 * n) : (∃ es, parseSenseEntries l = some es) ↔
    ∀ j < n, SenseEntryGood (l.getD (3 * j) 0) (l.getD (3 * j + 1) 0) (l.getD (3 * j + 2) 0) := by
  induction n generalizing l with
  | zero =>
    obtain rfl := List.length_eq_zero_iff.mp h
    simp [parseSenseEntries]
  | succ n ih =>
    obtain ⟨a, b, c, rest, rfl, hrest⟩ := exists_three h
    have hsplit : (∃ es, parseSenseEntries (a :: b :: c :: rest) = some es) ↔
        (∃ e, parseSenseEntry a b c = some e) ∧ ∃ es, parseSenseEntries rest = some es := by
      simp only [parseSenseEntries]
      cases parseSenseEntry a b c <;> cases parseSenseEntries rest <;> simp
    rw [hsplit, parseSenseEntry_isSome, ih hrest, Nat.forall_lt_succ_left']
    rfl

theorem parseSenseEntries_eq {l : List Half} {n : Nat} {es : List SenseEntry} (h : l.length = 3 * n)
    (hp : parseSenseEntries l = some es) : es.length = n ∧ ∀ j < n, ∃ e, es[j]? = some e
      ∧ SenseEntryOf (l.getD (3 * j) 0) (l.getD (3 * j + 1) 0) (l.getD (3 * j + 2) 0) e := by
  induction n generalizing l es with
  | zero =>
    obtain rfl := List.length_eq_zero_iff.mp h
    obtain rfl := Option.some.inj hp
    simp
  | succ n ih =>
    obtain ⟨a, b, c, rest, rfl, hrest⟩ := exists_three h
    simp only [parseSenseEntries] at hp
    split at hp
    next e es' he hes =>
      obtain rfl := Option.some.inj hp
      obtain ⟨hlen, hall⟩ := ih hrest hes
      refine ⟨by rw [List.length_cons, hlen], fun j hj => ?_⟩
      cases j with
      | zero => exact ⟨e, rfl, parseSenseEntry_eq he⟩
      | succ j => exact hall j (Nat.lt_of_succ_lt_succ hj)
    next => cases hp

/-- R101: no role but NONE stands twice. -/
theorem rolesUnique_iff {es : List SenseEntry} {n : Nat} {role : Nat → Nat} (hlen : es.length = n)
    (hrole : ∀ j < n, ∃ e, es[j]? = some e ∧ roleCode e.role = role j) :
    rolesUnique es = true ↔ ∀ k < n, ∀ j < k, role j = role k → role j = 0 := by
  subst hlen
  have hget : ∀ j (hj : j < es.length), roleCode es[j].role = role j := fun j hj => by
    obtain ⟨e, he, hr⟩ := hrole j hj
    rw [List.getElem?_eq_getElem hj] at he
    rw [Option.some.inj he]
    exact hr
  have hdec : rolesUnique es = true ↔ ((es.map (·.role)).filter (fun r => r ≠ .none)).Nodup := decide_eq_true_iff
  have hzero : ∀ r : Role, roleCode r = 0 ↔ r = .none := fun r => by cases r <;> decide
  rw [hdec, List.Nodup, List.pairwise_filter, List.pairwise_map, List.pairwise_iff_getElem]
  constructor
  · intro h k hk j hjk heq
    have hj : j < es.length := hjk.trans hk
    by_contra hne
    rw [← hget j hj, hzero] at hne
    have hsame : es[j].role = es[k].role := roleCode_injective (by rw [hget j hj, hget k hk, heq])
    exact h j k hj hk hjk (decide_eq_true hne) (decide_eq_true (hsame ▸ hne)) hsame
  · intro h j k hj hk hjk hnone _ heq
    have h0 := h k hk j hjk (by rw [← hget j hj, ← hget k hk, heq])
    rw [← hget j hj, hzero] at h0
    exact absurd h0 (of_decide_eq_true hnone)

/-- R101, R195: what a sense source has to be. -/
structure SenseGood (d : List Half) : Prop where
  count : (lowByte (d.getD 0 0)).toNat ≤ 12
  period : 1 ≤ (highByte (d.getD 0 0)).toNat
  standby : (d.getD 1 0).toNat ≤ 255
  length : d.length = 2 + 3 * (lowByte (d.getD 0 0)).toNat

theorem parseSense_eq_some (d : List Half) (t : SenseTable) : parseSense d = some t ↔
    SenseGood d ∧ parseSenseEntries (d.drop 2) = some t.entries ∧ rolesUnique t.entries = true
      ∧ t.period = (highByte (d.getD 0 0)).toNat ∧ t.standby = (d.getD 1 0).toNat := by
  unfold parseSense
  dsimp only
  constructor
  · intro h
    split at h
    next hgood =>
      obtain ⟨hcount, hlen, hperiod, hstandby⟩ := hgood
      split at h
      · cases h
      next es hes =>
        obtain ⟨huniq, rfl⟩ := ite_some_eq h
        exact ⟨⟨hcount, Nat.one_le_iff_ne_zero.mpr hperiod, hstandby, hlen⟩, hes, huniq, rfl, rfl⟩
    · cases h
  · rintro ⟨hgood, hes, huniq, hperiod, hstandby⟩
    rw [if_pos ⟨hgood.count, hgood.length, Nat.one_le_iff_ne_zero.mp hgood.period, hgood.standby⟩, hes]
    refine (if_pos huniq).trans ?_
    rw [← hperiod, ← hstandby]

/-- The entries of a good sense source, at their places of 10.8. -/
theorem senseEntries_eq {d : List Half} {es : List SenseEntry} (hgood : SenseGood d) (h : parseSenseEntries (d.drop 2) = some es) :
    es.length = (lowByte (d.getD 0 0)).toNat ∧ ∀ j < (lowByte (d.getD 0 0)).toNat, ∃ e, es[j]? = some e
      ∧ SenseEntryOf (d.getD (2 + 3 * j) 0) (d.getD (3 + 3 * j) 0) (d.getD (4 + 3 * j) 0) e := by
  have hlen : (d.drop 2).length = 3 * (lowByte (d.getD 0 0)).toNat := by rw [List.length_drop, hgood.length]; omega
  simpa only [drop_getD_half, ← Nat.add_assoc, Nat.add_right_comm _ _ 1, Nat.add_right_comm _ _ 2] using
    parseSenseEntries_eq hlen h

theorem parseSense_isSome (d : List Half) : (parseSense d).isSome = true ↔ SenseGood d
    ∧ (∀ j < (lowByte (d.getD 0 0)).toNat,
        SenseEntryGood (d.getD (2 + 3 * j) 0) (d.getD (3 + 3 * j) 0) (d.getD (4 + 3 * j) 0))
    ∧ ∀ k < (lowByte (d.getD 0 0)).toNat, ∀ j < k,
        (d.getD (4 + 3 * j) 0).toNat / 256 % 16 = (d.getD (4 + 3 * k) 0).toNat / 256 % 16 →
          (d.getD (4 + 3 * j) 0).toNat / 256 % 16 = 0 := by
  have hentries : SenseGood d → ((∃ es, parseSenseEntries (d.drop 2) = some es) ↔ ∀ j < (lowByte (d.getD 0 0)).toNat,
      SenseEntryGood (d.getD (2 + 3 * j) 0) (d.getD (3 + 3 * j) 0) (d.getD (4 + 3 * j) 0)) := fun hgood => by
    have hlen : (d.drop 2).length = 3 * (lowByte (d.getD 0 0)).toNat := by rw [List.length_drop, hgood.length]; omega
    simpa only [drop_getD_half, ← Nat.add_assoc, Nat.add_right_comm _ _ 1, Nat.add_right_comm _ _ 2] using
      parseSenseEntries_isSome hlen
  have huniq : ∀ es, SenseGood d → parseSenseEntries (d.drop 2) = some es →
      (rolesUnique es = true ↔ ∀ k < (lowByte (d.getD 0 0)).toNat, ∀ j < k,
        (d.getD (4 + 3 * j) 0).toNat / 256 % 16 = (d.getD (4 + 3 * k) 0).toNat / 256 % 16 →
          (d.getD (4 + 3 * j) 0).toNat / 256 % 16 = 0) := fun es hgood hes => by
    obtain ⟨hlen, hall⟩ := senseEntries_eq hgood hes
    exact rolesUnique_iff (role := fun j => (d.getD (4 + 3 * j) 0).toNat / 256 % 16) hlen fun j hj => by
      obtain ⟨e, he, hof⟩ := hall j hj
      exact ⟨e, he, hof.role⟩
  rw [Option.isSome_iff_exists]
  constructor
  · rintro ⟨t, ht⟩
    obtain ⟨hgood, hes, hu, -⟩ := (parseSense_eq_some d t).mp ht
    exact ⟨hgood, (hentries hgood).mp ⟨_, hes⟩, (huniq _ hgood hes).mp hu⟩
  · rintro ⟨hgood, hall, hroles⟩
    obtain ⟨es, hes⟩ := (hentries hgood).mpr hall
    exact ⟨⟨_, _, es⟩, (parseSense_eq_some d _).mpr ⟨hgood, hes, (huniq _ hgood hes).mpr hroles, rfl, rfl⟩⟩

/-! ### The configuration record (R164) -/

theorem memSizeOf_eq_some (n m : Nat) : memSizeOf n = some m ↔ n ≤ 3 ∧ m = 0x80000 * 2 ^ n := by
  constructor
  · unfold memSizeOf
    split <;> rintro ⟨⟩ <;> decide
  · rintro ⟨hn, rfl⟩
    interval_cases n <;> rfl

theorem stepModeOf_eq_some (n : Nat) (m : StepMode) : stepModeOf n = some m ↔ n ≤ 1 ∧ m = if n = 0 then .half else .full := by
  constructor
  · unfold stepModeOf
    split <;> rintro ⟨⟩ <;> decide
  · rintro ⟨hn, rfl⟩
    interval_cases n <;> rfl

/-- 10.2: the initial source of a code. -/
def initialOf (n : Nat) : Source := if n = 0 then .crystal else if n = 1 then .crystalX2 else if n = 2 then .fastRc else .slowRc

theorem sourceOf_eq_some (n : Nat) (x : Source) : sourceOf n = some x ↔ n ≤ 3 ∧ x = initialOf n := by
  constructor
  · unfold sourceOf
    split <;> rintro ⟨⟩ <;> decide
  · rintro ⟨hn, rfl⟩
    interval_cases n <;> rfl

/-- 10.8: the fields of a configuration record at their places. -/
def recordFields (d : List Half) : BoardConfig :=
  let lo i := (lowByte (d.getD i 0)).toNat
  let hi i := (highByte (d.getD i 0)).toNat
  let hw i := (d.getD i 0).toNat
  { memSize := 0x80000 * 2 ^ lo 0, banks := hi 0, rowLen := hw 1, precharge := lo 2, rowOpen := hi 2, column := lo 3
    refreshCount := hi 3, refreshInterval := lo 4, closeInterval := hi 4, preX := lo 5, preX2 := hi 5, preRc := lo 6
    initial := initialOf (hi 6), divX := lo 7, divX2 := hi 7, divRc := lo 8, monitor := decide (hi 8 = 1)
    docMode := if lo 9 = 0 then .half else .full, paperMode := if hi 9 = 0 then .half else .full
    sensorDiv := lo 10, headDiv := hi 10, ringQ := lo 11, edgeGap := hi 11, burstGap := lo 12
    nc := hw 13, nr := hw 14, cbAddr := (wordOf (d.getD 15 0) (d.getD 16 0)).toNat }

/-- Every enumerated field of a configuration record holds a code. -/
def CodesExist (d : List Half) : Prop :=
  (lowByte (d.getD 0 0)).toNat ≤ 3 ∧ (highByte (d.getD 6 0)).toNat ≤ 3 ∧ (lowByte (d.getD 9 0)).toNat ≤ 1
    ∧ (highByte (d.getD 9 0)).toNat ≤ 1 ∧ (highByte (d.getD 8 0)).toNat ≤ 1

theorem configFields_eq_some (d : List Half) (c : BoardConfig) :
    configFields d = some c ↔ CodesExist d ∧ c = recordFields d := by
  unfold configFields CodesExist recordFields
  dsimp only
  constructor
  · intro h
    split at h
    next size initial doc paper hsize hinit hdoc hpaper =>
      obtain ⟨hmon, rfl⟩ := ite_some_eq h
      obtain ⟨hn, rfl⟩ := (memSizeOf_eq_some _ _).mp hsize
      obtain ⟨hi, rfl⟩ := (sourceOf_eq_some _ _).mp hinit
      obtain ⟨hd, rfl⟩ := (stepModeOf_eq_some _ _).mp hdoc
      obtain ⟨hp, rfl⟩ := (stepModeOf_eq_some _ _).mp hpaper
      exact ⟨⟨hn, hi, hd, hp, hmon⟩, rfl⟩
    · cases h
  · rintro ⟨⟨hn, hi, hd, hp, hmon⟩, rfl⟩
    rw [(memSizeOf_eq_some _ _).mpr ⟨hn, rfl⟩, (sourceOf_eq_some _ _).mpr ⟨hi, rfl⟩, (stepModeOf_eq_some _ _).mpr ⟨hd, rfl⟩,
      (stepModeOf_eq_some _ _).mpr ⟨hp, rfl⟩]
    exact if_pos hmon

theorem parseConfig_eq_some (d : List Half) (c : BoardConfig) :
    parseConfig d = some c ↔ d.length = 17 ∧ CodesExist d ∧ (recordFields d).inRange = true ∧ c = recordFields d := by
  unfold parseConfig
  constructor
  · intro h
    split at h
    next hlen =>
      split at h
      next x hx =>
        obtain ⟨hcodes, rfl⟩ := (configFields_eq_some d x).mp hx
        obtain ⟨hr, rfl⟩ := ite_some_eq h
        exact ⟨hlen, hcodes, hr, rfl⟩
      · cases h
    · cases h
  · rintro ⟨hlen, hcodes, hr, rfl⟩
    rw [if_pos hlen, (configFields_eq_some d _).mpr ⟨hcodes, rfl⟩]
    exact if_pos hr

/-- R164: the ranges of the fields, in the order of the check. -/
theorem inRange_iff (c : BoardConfig) : c.inRange = true ↔
    (c.banks = 1 ∨ c.banks = 2) ∧ (c.rowLen = 512 ∨ c.rowLen = 1024) ∧ (1 ≤ c.precharge ∧ c.precharge ≤ 15)
      ∧ (1 ≤ c.rowOpen ∧ c.rowOpen ≤ 15) ∧ (1 ≤ c.column ∧ c.column ≤ 15) ∧ (1 ≤ c.refreshCount ∧ c.refreshCount ≤ 15)
      ∧ (8 ≤ c.refreshInterval ∧ c.refreshInterval ≤ 63) ∧ c.closeInterval ≤ 255 ∧ c.preX ≤ 63 ∧ c.preX2 ≤ 63
      ∧ (1 ≤ c.preRc ∧ c.preRc ≤ 63) ∧ c.divX ∈ [1, 2, 4] ∧ c.divX2 ∈ [1, 2, 4] ∧ c.divRc ∈ [1, 2, 4]
      ∧ c.fitted c.initial = true ∧ (2 ≤ c.sensorDiv ∧ c.sensorDiv ≤ 64) ∧ (2 ≤ c.headDiv ∧ c.headDiv ≤ 64)
      ∧ (2 ≤ c.ringQ ∧ c.ringQ ≤ 15) ∧ (8 ≤ c.edgeGap ∧ c.edgeGap ≤ 255) ∧ (1 ≤ c.burstGap ∧ c.burstGap ≤ 255)
      ∧ (16 ≤ c.nc ∧ c.nc ≤ 256) ∧ (16 ≤ c.nr ∧ c.nr ≤ 256) ∧ c.cbAddr % 256 = 0
      ∧ c.cbAddr + areaLength c.nc c.nr ≤ c.memSize := by
  simp only [BoardConfig.inRange, dividerOk, Bool.and_eq_true, Bool.or_eq_true, decide_eq_true_eq, List.mem_cons,
    List.not_mem_nil, or_false, and_assoc, or_assoc]

/-- R164: a source that is fitted, by its code. -/
theorem fitted_initialOf (c : BoardConfig) {n : Nat} : n ≤ 3 ∧ c.fitted (initialOf n) = true ↔
    (n = 0 ∧ c.preX ≠ 0) ∨ (n = 1 ∧ c.preX2 ≠ 0) ∨ n = 2 := by
  by_cases hn : n ≤ 3
  · interval_cases n <;> simp [initialOf, BoardConfig.fitted]
  · refine iff_of_false (fun h => hn h.1) ?_
    omega

theorem fitted_of_inRange {c : BoardConfig} (h : c.inRange = true) : c.fitted c.initial = true := by
  obtain ⟨-, -, -, -, -, -, -, -, -, -, -, -, -, -, hfit, -⟩ := (inRange_iff c).mp h
  exact hfit

theorem areaLength_add (a nc nr : Nat) : a + areaLength nc nr = a + 256 + 16 * nc + 16 * nr := by
  unfold areaLength
  omega

theorem byte_le (b : Byte) : b.toNat ≤ 255 := Nat.le_of_lt_succ b.isLt

end Sys2Proof.Machine

namespace Sys2Proof.Proofs

open Sys2Proof Sys2Proof.Machine

/-- Settles O23: each parser by its condition and its value. -/
theorem tableSources : Obligations.TableSources := by
  intro d lo hi hw role address
  refine ⟨parseHeat_isSome d, fun t => parseHeat_eq, parseProfile_isSome d, fun t => parseProfile_eq, parseShading_isSome d,
    parseTone_isSome d, fun t => parseShading_eq, fun t => parseTone_eq, ?_, fun t ht => ?_, ?_, fun c hc => ?_⟩
  · rw [parseSense_isSome]
    constructor
    · rintro ⟨hgood, hall, hroles⟩
      exact ⟨hgood.count, hgood.period, hgood.standby, hgood.length,
        fun j hj => ⟨(hall j hj).channel, (hall j hj).gain, (hall j hj).low, (hall j hj).hyst, (hall j hj).role⟩, hroles⟩
    · rintro ⟨hcount, hperiod, hstandby, hlen, hall, hroles⟩
      exact ⟨⟨hcount, hperiod, hstandby, hlen⟩, fun j hj => by
        obtain ⟨h1, h2, h3, h4, h5⟩ := hall j hj
        exact ⟨h1, h2, h3, h4, h5⟩, hroles⟩
  · obtain ⟨hgood, hes, -, hperiod, hstandby⟩ := (parseSense_eq_some d t).mp ht
    obtain ⟨hlen, hall⟩ := senseEntries_eq hgood hes
    refine ⟨hperiod, hstandby, hlen, fun j hj => ?_⟩
    obtain ⟨e, he, hof⟩ := hall j hj
    exact ⟨e, he, hof.channel, hof.gain, hof.low, hof.high, hof.hyst, hof.role, hof.report, hof.wake⟩
  · have hfit := fitted_initialOf (recordFields d) (n := hi 6)
    simp only [Option.isSome_iff_exists, parseConfig_eq_some]
    constructor
    · rintro ⟨_, hlen, ⟨h0, h6, h9, h9', h8⟩, hr, -⟩
      obtain ⟨h1, h2, h3, h4, h5, h7, h10, -, h12, h13, h14, h15, h16, h17, h18, h19, h20, h21, h22, h23, h24, h25, h26, h27⟩ :=
        (inRange_iff _).mp hr
      refine ⟨hlen, h0, h1, h2, h3, h4, h5, h7, h10, h12, h13, h14, hfit.mp ⟨h6, h18⟩, h15, h16, h17, h8, h9, h9', h19, h20, h21,
        h22.1, h23.1, h24, h25, h26, ?_⟩
      exact (areaLength_add _ _ _).symm.trans_le h27
    · rintro ⟨hlen, h0, h1, h2, h3, h4, h5, h7, h10, h12, h13, h14, h18, h15, h16, h17, h8, h9, h9', h19, h20, h21, h22, h23, h24,
        h25, h26, h27⟩
      obtain ⟨h6, hinit⟩ := hfit.mpr h18
      refine ⟨_, hlen, ⟨h0, h6, h9, h9', h8⟩, (inRange_iff _).mpr ?_, rfl⟩
      refine ⟨h1, h2, h3, h4, h5, h7, h10, byte_le _, h12, h13, h14, h15, h16, h17, hinit, h19, h20, h21, ⟨h22, byte_le _⟩,
        ⟨h23, byte_le _⟩, h24, h25, h26, ?_⟩
      exact (areaLength_add _ _ _).trans_le h27
  · obtain ⟨-, ⟨-, h6, -⟩, hr, rfl⟩ := (parseConfig_eq_some d c).mp hc
    have hinit : initialOf (hi 6) = if hi 6 = 0 then .crystal else if hi 6 = 1 then .crystalX2 else .fastRc := by
      obtain ⟨h, -⟩ | ⟨h, -⟩ | h := (fitted_initialOf (recordFields d)).mp ⟨h6, fitted_of_inRange hr⟩
      all_goals
        change hi 6 = _ at h
        rw [h]
        rfl
    exact congrArg (fun x => { recordFields d with initial := x }) hinit

end Sys2Proof.Proofs
end

