-- ==== Sys2Proof/Proofs/Loader.lean ====
section
/-! The status snapshot and the table loader. -/

namespace Sys2Proof.Machine

open Sys2Proof

/-! ### The snapshot (R188, 10.3) -/

theorem snapshotDue_eq (s : State) : s.snapshotDue =
    if s.cells.taking = .notStarted ∨ (s.clk.power ≠ .run ∧ s.clk.power ≠ .slow) then s
    else if s.cells.snapBusy then s.setCells { s.cells with snapOwed := true } else s.writeSnapshot := by
  unfold State.snapshotDue
  by_cases ht : s.cells.taking = .notStarted
  · simp [ht]
  · cases hp : s.clk.power <;> simp [ht]

/-- 10.3: the sense positions stand from the second halfword on. -/
theorem snapshotHalves_position (s : State) (n : Nat) (b : BootState) {j : Nat} (hj : j < 12) :
    (s.snapshotHalves n b).getD (1 + j) 0 = snapshotPosition s.sense.list j := by
  interval_cases j <;> rfl

/-! ### The loader (R189, R190) -/

theorem readSource_short {s : State} {source length : Nat} (hpos : 1 ≤ length) (h : length ≤ 2048) :
    s.readSource source length (chunksOf length) = s.issueRead .table .tableLoad source length := by
  have hchunks : chunksOf length = 1 := by unfold chunksOf Config.transferLength; omega
  rw [hchunks, State.readSource, State.readSource, Config.transferLength, Nat.min_eq_right h]

theorem readSource_long {s : State} {source length : Nat} (hlong : ¬length ≤ 2048) (h : length ≤ 4096) :
    s.readSource source length (chunksOf length) =
      (s.issueRead .table .tableLoad source 2048).issueRead .table .tableLoad (source + 4096) (length - 2048) := by
  have hchunks : chunksOf length = 2 := by unfold chunksOf Config.transferLength; omega
  rw [hchunks, State.readSource, State.readSource, State.readSource, Config.transferLength, Nat.min_eq_left (by omega),
    Nat.min_eq_right (by omega)]

theorem tableIdOf_eq_some (code : Nat) (id : TableId) : tableIdOf code = some id ↔ code = tableIdCode id := by
  constructor
  · unfold tableIdOf
    split
    case h_5 n =>
      split
      · rintro ⟨⟩
        exact Nat.add_comm n 4
      · rintro ⟨⟩
    all_goals
      rintro ⟨⟩
      rfl
  · rintro rfl
    cases id with
    | profile k => 
      rw [tableIdCode, Nat.add_comm]
      exact dif_pos k.isLt
    | _ => rfl

theorem Channel.moving_iff (c : Channel) : c.moving = true ↔ c.st = .run ∨ c.st = .move ∨ c.st = .stopping := by
  unfold Channel.moving
  cases c.st <;> simp

@[simp] theorem tableInUse_setCells (s : State) (x : Cells) (id : TableId) : (s.setCells x).tableInUse id = s.tableInUse id := by
  cases id <;> rfl

@[simp] theorem tableInUse_setTables (s : State) (x : TableStore) (id : TableId) :
    (s.setTables x).tableInUse id = s.tableInUse id := by
  cases id <;> rfl

theorem fillLoadArea_short {s : State} {data : List Half} (h : data.length ≤ 2048) :
    s.fillLoadArea data = s.setTables { s.tables with loadArea := data } := by
  unfold State.fillLoadArea Config.loadAreaLength
  rw [List.take_of_length_le h]

theorem delivered_takeAll_again (s : State) (q : Req) (data : List Half) : (s.delivered q data).takeAll q = s.takeAll q := by
  simp [State.delivered, State.takeAll, State.setPmc]

/-- What is read of a source, where nothing of one was delivered before. -/
theorem halfwordsRead_delivered {s : State} (h : s.nothingFor .tableLoad) (data : List Half) :
    (s.delivered .tableLoad data).halfwordsRead = data.length := by
  have hnone : s.pmc.inbox.filter (fun d => d.req = .tableLoad) = [] := by
    simpa [List.filter_eq_nil_iff, State.nothingFor] using h
  simp [State.halfwordsRead, State.delivered, hnone]

theorem halfwordsRead_delivered_delivered {s : State} (h : s.nothingFor .tableLoad) (data rest : List Half) :
    ((s.delivered .tableLoad rest).delivered .tableLoad data).halfwordsRead = data.length + rest.length := by
  have hnone : s.pmc.inbox.filter (fun d => d.req = .tableLoad) = [] := by
    simpa [List.filter_eq_nil_iff, State.nothingFor] using h
  simp [State.halfwordsRead, State.delivered, hnone]

end Sys2Proof.Machine

namespace Sys2Proof.Proofs

open Sys2Proof Sys2Proof.Machine

/-- Settles O21: the row and the due snapshot by their guards, the halfwords by their places. -/
theorem snapshotWriting : Obligations.SnapshotWriting := by
  intro s written
  refine ⟨fun hbusy hwait => ?_, snapshotDue_eq s, ?_⟩
  · simp only [exec, execSnapshotAcknowledged, delivered_cells, hbusy, delivered_hasDone, delivered_wordWaits, hwait, and_self,
      if_true, delivered_takeOne]
    change (if s.cells.snapOwed = true then _ else _) = _
    split <;> rfl
  · intro n b at' two source bit
    have hsource : ∀ g : Option Source, optByte (g.map sourceCode) = byte (source g) := fun g => by
      cases g with
      | none => rfl
      | some x => cases x <;> rfl
    have hcore : sourceCode s.clk.core = source (some s.clk.core) := by cases s.clk.core <;> rfl
    have hreason : optByte (s.print.pauseReason.map printReasonCode) =
        byte (match s.print.pauseReason with | some r => printReasonCode r | none => 0xFF) := by
      cases s.print.pauseReason <;> rfl
    have hpower : powerCode s.clk.power =
        (match s.clk.power with | .run => 0 | .slow => 1 | .entering => 2 | .standby => 3 | .leaving => 4) := by
      cases s.clk.power <;> rfl
    have hflags : flag s.cells.stopAll.isSome 0 + flag (s.cells.loader != .idle) 1
        = bit s.cells.stopAll.isSome + 2 * bit (s.cells.loader != .idle) := by
      cases s.cells.stopAll.isSome <;> cases (s.cells.loader != .idle) <;> rfl
    refine ⟨rfl, rfl, rfl, fun j hj => ?_, rfl, rfl, rfl, rfl, rfl, rfl, rfl, ?_, ?_, ?_, ?_, rfl, rfl, rfl, rfl, rfl, rfl, ?_⟩
    · refine (snapshotHalves_position s n b hj).trans ?_
      unfold snapshotPosition
      rcases s.sense.list[j]? with _ | e
      · rfl
      · cases e.zone <;> rfl
    · exact congrArg (fun low => halfOf low (byte (linkStateCode s.link.st))) hreason
    · exact congrArg (fun low => pair low s.clk.ratio) hpower
    · exact congrArg (fun low => pair low (switchStateCode s.clk.sw.st)) hcore
    · exact congrArg₂ halfOf (hsource s.clk.sw.target) (hsource s.clk.sourceBefore)
    · exact congrArg (BitVec.ofNat 16) hflags

/-- Settles O22: LOAD TABLE by its checks, the completed reads by the source's length and values. -/
theorem tableLoading : Obligations.TableLoading := by
  intro s tag table length source id n data good
  refine ⟨fun hid => ?_, fun hid => ?_, fun hload hpos hn hlen hnothing => ?_, fun rest hload hlen hn hrest hnothing => ?_,
    fun code => ?_, ?_, ?_⟩
  · simp only [exec, execLoadTable, claimCommand_given, State.checkLoad, hid, good]
    by_cases hpower : s.clk.power = .entering
    · simp only [if_pos hpower]
    by_cases hgood : 1 ≤ length.toNat ∧ length.toNat ≤ 4096 ∧ source.toNat % 2 = 0
        ∧ source.toNat + 2 * length.toNat ≤ s.cfg.memSize
    · simp only [if_neg hpower, if_neg (not_not_intro hgood)]
      by_cases hidle : s.cells.loader ≠ .idle
      · simp only [if_pos hidle]
      by_cases huse : s.tableInUse id = true
      · simp only [if_neg hidle, if_pos huse]
      simp only [if_neg hidle, if_neg huse]
      by_cases hshort : length.toNat ≤ 2048
      · rw [if_pos hshort, readSource_short hgood.1 hshort]
      · rw [if_neg hshort, readSource_long hshort hgood.2.1]
    · simp only [if_neg hpower, if_pos hgood]
  · simp only [exec, execLoadTable, claimCommand_given, State.checkLoad, hid]
    by_cases hpower : s.clk.power = .entering
    · simp only [if_pos hpower]
    · simp only [if_neg hpower]
  · simp only [exec, execTableLoadReadsComplete, delivered_cells, hload, halfwordsRead_delivered hnothing, hlen, le_refl, if_true,
      delivered_dataOf s _ _ hnothing, delivered_takeAll s _ _ hnothing, State.finishLoad, Config.loadAreaLength, hn]
    rw [fillLoadArea_short (by omega)]
    cases parseTable id data with
    | none => rfl
    | some x =>
      simp only [State.setCells_tables, tableInUse_setTables, tableInUse_setCells]
      by_cases huse : s.tableInUse id = true
      · simp only [if_pos huse]
      · simp only [if_neg huse]
  · have hdata : ((s.delivered .tableLoad rest).delivered .tableLoad data).pmc.dataOf .tableLoad = data ++ rest := by
      refine (deliveredEach_dataOf s .tableLoad [data, rest] hnothing).trans ?_
      rw [List.flatten_cons, List.flatten_cons, List.flatten_nil, List.append_nil]
    have htake : ((s.delivered .tableLoad rest).delivered .tableLoad data).takeAll .tableLoad = s := by
      rw [delivered_takeAll_again, delivered_takeAll s _ _ hnothing]
    have hlong : ¬2048 + rest.length ≤ 2048 := by
      have := List.length_pos_iff.mpr hrest
      omega
    simp only [exec, execTableLoadReadsComplete, delivered_cells, hload, halfwordsRead_delivered_delivered hnothing, hlen, hn,
      le_refl, if_true, hdata, htake, State.finishLoad, Config.loadAreaLength, List.length_append, hlong, if_false,
      State.fillLoadArea]
    rw [List.take_left' hlen]
    rfl
  · rw [tableIdOf_eq_some]
    cases id <;> rfl
  · intro movesWith
    cases id <;> simp [State.tableInUse, Scan.active, movesWith, Channel.moving_iff]
  · intro installs
    cases id <;> simp only [installs, parseTable, Option.map_map] <;> rfl

end Sys2Proof.Proofs
end

