-- ==== Sys2Proof/Proofs/RingRows.lean ====
section
/-! SET RING and the host's index writes (R5 to R8, R16): the checks of a descriptor said by what they ask, and a stopped DOC
channel run forward by a stalled stream (R48). -/

namespace Sys2Proof.Machine

open Sys2Proof

/-! ### What a byte names -/

theorem ringOf_of_four_le {b : Byte} (h : 4 ≤ b.toNat) : ringOf b = none := dif_neg (by omega)

theorem ringOf_eq_some {b : Byte} {r : RingId} (h : r.val = b.toNat) : ringOf b = some r := by
  unfold ringOf
  rw [dif_pos (h ▸ r.isLt)]
  exact congrArg some (Fin.ext h.symm)

theorem sideOf_eq_some {n : Nat} {x : Side} : sideOf n = some x ↔ n = sideCode x := by
  match n with
  | 0 | 1 | 2 | 3 => cases x <;> simp [sideOf, sideCode]
  | n + 4 => cases x <;> simp [sideOf, sideCode]

/-! ### SET RING (R16) -/

section
variable {s : State} {tag ring p c : Byte} {slots words : Half} {base : Word} {r : RingId}

theorem setRing_given_refused {e : Result} (h : s.checkSetRing ring p c slots words base = .error e) :
    exec (.setRing tag ring p c slots words base) (s.given (.setRing tag ring p c slots words base)) =
      .next (s.handDone tag 2 e) := by
  simp only [exec, execSetRing, claimCommand_given, h]

theorem setRing_given_accepted {d : RingDesc} (h : s.checkSetRing ring p c slots words base = .ok (r, d)) :
    exec (.setRing tag ring p c slots words base) (s.given (.setRing tag ring p c slots words base)) =
      .next ((s.installRing r d).handDone tag 2 .done) := by
  simp only [exec, execSetRing, claimCommand_given, h]

theorem overlapsControl_iff (k : BoardConfig) (a n : Nat) :
    k.overlapsControl a n = true ↔ a < k.cbAddr + (256 + 16 * (k.nc + k.nr)) ∧ k.cbAddr < a + n := by
  rw [BoardConfig.overlapsControl, areaLength, Bool.and_eq_true, decide_eq_true_iff, decide_eq_true_iff]

/-- R16: what a descriptor must satisfy, with the ring known and not attached. -/
structure RingArgs (s : State) (p c : Byte) (slots words : Half) (base : Word) (producer consumer : Side) : Prop where
  size : 2 ≤ slots.toNat ∧ slots.toNat ≤ 1024 ∧ 1 ≤ words.toNat ∧ words.toNat ≤ 64
  prod : sideOf p.toNat = some producer
  cons : sideOf c.toNat = some consumer
  sides : ¬(producer = .print ∨ consumer = .scan ∨ (producer = .link ∧ consumer = .link) ∨ (producer = .host ∧ consumer = .host))
  aligned : base.toNat % 4 = 0
  placed : ¬(s.cfg.memSize < base.toNat + slots.toNat * (8 + 4 * words.toNat)
    ∨ s.cfg.overlapsControl base.toNat (slots.toNat * (8 + 4 * words.toNat)))

theorem checkSetRing_ok {producer consumer : Side} (hr : ringOf ring = some r) (hfree : (s.ring r).attached = false)
    (h : RingArgs s p c slots words base producer consumer) :
    s.checkSetRing ring p c slots words base = .ok (r, ⟨base.toNat, slots.toNat, words.toNat, producer, consumer⟩) := by
  simp only [State.checkSetRing, hr, hfree, Bool.false_eq_true, if_false, if_neg (not_not_intro h.size), h.prod, h.cons,
    if_neg h.sides, if_neg (not_not_intro h.aligned), if_neg h.placed]

/-- R16: with no sides that fit them, the arguments are bad. -/
theorem checkSetRing_badArg (hr : ringOf ring = some r) (hfree : (s.ring r).attached = false)
    (h : ∀ producer consumer, ¬RingArgs s p c slots words base producer consumer) :
    s.checkSetRing ring p c slots words base = .error .badArg := by
  simp only [State.checkSetRing, hr, hfree, Bool.false_eq_true, if_false]
  by_cases hsize : 2 ≤ slots.toNat ∧ slots.toNat ≤ 1024 ∧ 1 ≤ words.toNat ∧ words.toNat ≤ 64
  swap
  · rw [if_pos hsize]
  rw [if_neg (not_not_intro hsize)]
  cases hp : sideOf p.toNat with
  | none => rfl
  | some producer =>
    cases hc : sideOf c.toNat with
    | none => rfl
    | some consumer =>
      dsimp only
      split_ifs with hsides haligned hplaced
      · rfl
      · rfl
      · rfl
      · exact absurd ⟨hsize, hp, hc, hsides, not_not.mp haligned, hplaced⟩ (h producer consumer)

end

/-! ### The host's index writes (R6, R7) -/

theorem putRefused_iff (x : Ring) (d : RingDesc) (v : Nat) :
    putRefused x d v = true ↔ ¬(v < 2 * d.slots ∧ x.occupancy d + (v + 2 * d.slots - x.put) % (2 * d.slots) ≤ d.slots) := by
  rw [putRefused, indexAdvance, Bool.or_eq_true, decide_eq_true_iff, decide_eq_true_iff, not_and_or, not_lt, not_le]

theorem takeRefused_iff (x : Ring) (d : RingDesc) (v : Nat) :
    takeRefused x d v = true ↔ ¬(v < 2 * d.slots ∧ (v + 2 * d.slots - x.take) % (2 * d.slots) ≤ x.occupancy d) := by
  rw [takeRefused, indexAdvance, Bool.or_eq_true, decide_eq_true_iff, decide_eq_true_iff, not_and_or, not_lt, not_le]

section
variable {s : State} {r : RingId} {v : Half}

theorem putWrite_owned {d : RingDesc} (hd : (s.ring r).desc = some d) (hown : d.producer = .host) :
    exec (.lineRingPutWrite r v) (s.arrived (putOffset r) v) = .next
      (if putRefused (s.ring r) d v.toNat then s.ringFault r putIndexCode v.toNat (s.ring r).put
      else s.setRing r { s.ring r with put := v.toNat }) := by
  rw [apply_ite Host.Outcome.next]
  simp only [exec, execLineRingPutWrite, claimArrival_arrived]
  split
  · simp_all
  · obtain rfl := Option.some.inj (hd.symm.trans ‹_›)
    rw [if_neg (not_not_intro hown)]

theorem putWrite_unowned (h : ∀ d, (s.ring r).desc = some d → d.producer ≠ .host) :
    exec (.lineRingPutWrite r v) (s.arrived (putOffset r) v) = .next s := by
  simp only [exec, execLineRingPutWrite, claimArrival_arrived]
  split
  · rfl
  · rw [if_pos (h _ ‹_›)]

theorem takeWrite_owned {d : RingDesc} (hd : (s.ring r).desc = some d) (hown : d.consumer = .host) :
    exec (.lineRingTakeWrite r v) (s.arrived (takeOffset r) v) = .next
      (if takeRefused (s.ring r) d v.toNat then s.ringFault r takeIndexCode v.toNat (s.ring r).take
      else if v.toNat ≠ (s.ring r).take then (s.setRing r { s.ring r with take := v.toNat }).scanFreed r
      else s.setRing r { s.ring r with take := v.toNat }) := by
  rw [apply_ite Host.Outcome.next, apply_ite Host.Outcome.next]
  simp only [exec, execLineRingTakeWrite, claimArrival_arrived]
  split
  · simp_all
  · obtain rfl := Option.some.inj (hd.symm.trans ‹_›)
    rw [if_neg (not_not_intro hown)]

theorem takeWrite_unowned (h : ∀ d, (s.ring r).desc = some d → d.consumer ≠ .host) :
    exec (.lineRingTakeWrite r v) (s.arrived (takeOffset r) v) = .next s := by
  simp only [exec, execLineRingTakeWrite, claimArrival_arrived]
  split
  · rfl
  · rw [if_pos (h _ ‹_›)]

end

theorem Channel.moving_of_hold {c : Channel} (h : c.st = .hold) : c.moving = false := by
  rw [Channel.moving, h]

/-- R83: a start request to a channel at rest. -/
theorem Channel.start_of_atRest {c : Channel} (h : c.moving = false) (requester : Owner) (dir : Direction) (profile : Fin 8)
    (intervals : List Nat) (steps : Option Nat) (tag : Byte) :
    c.start requester dir profile intervals steps tag =
      { c with
        st := if steps.isSome then .move else .run
        requester := requester, direction := dir, profile := profile, requested := steps, remaining := steps
        ramp := 0, taken := 0, stopCause := none, tag := tag, timer := some (intervals.getD 0 0) } := by
  simp only [Channel.start, h, Bool.false_eq_true, if_false]

theorem State.ringFree_eq {s : State} {r : RingId} {d : RingDesc} (h : (s.ring r).desc = some d) :
    s.ringFree r = (s.ring r).free d := by
  simp only [State.ringFree, h]

/-- R48: a stalled stream with its channel held and slots enough restarts. -/
theorem scanRestart_of {s : State} (hst : s.scan.st = .stalled) (hdoc : s.doc.st = .hold)
    (hfree : s.scan.params.restartMargin ≤ s.ringFree s.scan.params.ring) :
    s.scanRestart = (s.setDoc { s.doc with
        st := .run, requester := .scan, direction := .forward, profile := s.scan.params.profile, requested := none
        remaining := none, ramp := 0, taken := 0, stopCause := none, tag := 0
        timer := some ((s.profile s.scan.params.profile).getD 0 0) }).setScan { s.scan with st := s.scan.stalledFrom } := by
  unfold State.scanRestart State.startMove
  dsimp only
  rw [if_pos ⟨hst, hdoc, hfree⟩]
  have hrest : (s.chan .doc).moving = false := Channel.moving_of_hold hdoc
  rw [Channel.start_of_atRest hrest]
  rfl

theorem scanRestart_of_not {s : State}
    (h : ¬(s.scan.st = .stalled ∧ s.doc.st = .hold ∧ s.scan.params.restartMargin ≤ s.ringFree s.scan.params.ring)) :
    s.scanRestart = s := if_neg h

/-- R13, R48: slots freed on a ring restart the stream that stalled on it. -/
theorem scanFreed_eq (s : State) (r : RingId) :
    s.scanFreed r =
      if s.scan.st = .stalled ∧ s.scan.params.ring = r ∧ s.doc.st = .hold ∧ s.scan.params.restartMargin ≤ s.ringFree r then
        (s.setDoc { s.doc with
          st := .run, requester := .scan, direction := .forward, profile := s.scan.params.profile, requested := none
          remaining := none, ramp := 0, taken := 0, stopCause := none, tag := 0
          timer := some ((s.profile s.scan.params.profile).getD 0 0) }).setScan { s.scan with st := s.scan.stalledFrom }
      else s := by
  unfold State.scanFreed
  by_cases hring : s.scan.params.ring = r
  · subst hring
    rw [if_pos rfl]
    split
    case isTrue h => exact scanRestart_of h.1 h.2.2.1 h.2.2.2
    case isFalse h => exact scanRestart_of_not fun h' => h ⟨h'.1, rfl, h'.2.1, h'.2.2⟩
  · rw [if_neg hring, if_neg fun h => hring h.2.1]

end Sys2Proof.Machine

namespace Sys2Proof.Proofs

open Sys2Proof Sys2Proof.Machine

/-- Settles O25: the checks of R16 in order; where they pass, the descriptor is the one the command spells. -/
theorem setRingRow : Obligations.SetRingRow := by
  intro s tag ring p c slots words base i len
  refine ⟨fun hring => ?_, fun r hr => ⟨fun ha => ?_, fun hfree => ⟨?_, fun hbad => ?_⟩⟩⟩
  · exact setRing_given_refused (by rw [State.checkSetRing, ringOf_of_four_le hring])
  · refine setRing_given_refused ?_
    simp only [State.checkSetRing, ringOf_eq_some hr, ha, if_true]
  · intro producer consumer h2 h1024 h1 h64 hp hc hnp hnc hll hhh halign hmem harea
    have hargs : RingArgs s p c slots words base producer consumer := by
      refine ⟨⟨h2, h1024, h1, h64⟩, hp, hc, by tauto, halign, ?_⟩
      rw [overlapsControl_iff]
      dsimp only [len] at hmem harea ⊢
      omega
    rw [setRing_given_accepted (checkSetRing_ok (ringOf_eq_some hr) hfree hargs)]
    rfl
  · refine setRing_given_refused (checkSetRing_badArg (ringOf_eq_some hr) hfree ?_)
    rintro producer consumer ⟨hsize, hp, hc, hsides, haligned, hplaced⟩
    rw [overlapsControl_iff] at hplaced
    rw [sideOf_eq_some] at hp hc
    dsimp only [len] at hbad
    cases producer <;> cases consumer <;> simp [sideCode] at hp hc hsides <;> omega

/-- Settles O26: a write the check takes moves the index, and a stalled stream is told. -/
theorem hostIndexWrites : Obligations.HostIndexWrites := by
  intro s r v x put take
  refine ⟨fun d hd hown => ?_, fun d hd hown => ?_, fun hother => putWrite_unowned hother, fun hother => takeWrite_unowned hother⟩
  · refine (putWrite_owned hd hown).trans (congrArg _ ?_)
    simp only [putRefused_iff, ite_not]
    split <;> rfl
  · refine (takeWrite_owned hd hown).trans (congrArg _ ?_)
    simp only [takeRefused_iff, ite_not]
    by_cases hgood : v.toNat < 2 * d.slots ∧ (v.toNat + 2 * d.slots - (s.ring r).take) % (2 * d.slots) ≤ (s.ring r).occupancy d
    swap
    · rw [if_neg hgood, if_neg hgood]
      rfl
    rw [if_pos hgood, if_pos hgood]
    by_cases hmoved : v.toNat = (s.ring r).take
    · rw [if_pos hmoved, if_neg fun h => h.1 hmoved]
    rw [if_neg hmoved]
    have hfree : (s.setRing r { s.ring r with take := v.toNat }).ringFree r =
        ({ s.ring r with take := v.toNat } : Ring).free d := by
      rw [State.ringFree_eq (d := d) (by rw [State.setRing_ring]; exact hd), State.setRing_ring]
    rw [scanFreed_eq, hfree]
    split
    case isTrue h => rw [if_pos ⟨hmoved, h⟩]; rfl
    case isFalse h => rw [if_neg fun h' => h h'.2]

end Sys2Proof.Proofs
end

