-- ==== Sys2Proof/Proofs/Moves.lean ====
section
/-! MOVE MOTOR (R92): its arguments in range, what refuses them, and the move an accepted one starts. -/

namespace Sys2Proof.Machine

open Sys2Proof

/-- R26, R92: the service conditions fail where the cover is open or the supply low. -/
theorem coverAndSupplyGood_eq_false (s : State) :
    (¬s.coverAndSupplyGood = true) ↔ s.zone .cover = some .high ∨ s.zone .supply = some .low := by
  simp only [State.coverAndSupplyGood, Bool.and_eq_true, bne_iff_ne, ne_eq, not_and_or, not_not]

theorem profileOf_eq_some {n : Nat} {p : Fin 8} (h : p.val = n) : profileOf n = some p := by
  unfold profileOf
  rw [dif_pos (h ▸ p.isLt)]
  exact congrArg some (Fin.ext h.symm)

theorem profileOf_of_eight_le {n : Nat} (h : 8 ≤ n) : profileOf n = none := dif_neg (by omega)

theorem directionOf_of_two_le {n : Nat} (h : 2 ≤ n) : directionOf n = none := by
  match n with
  | _ + 2 => rfl

section
variable {channel direction profile : Byte} {steps : Half}

theorem moveArgs_eq_none
    (h : 2 ≤ channel.toNat ∨ 2 ≤ direction.toNat ∨ 8 ≤ profile.toNat ∨ steps.toNat = 0) :
    moveArgs channel direction profile steps = none := by
  unfold moveArgs
  split
  case h_2 => rfl
  case h_1 c d p hc hd hp =>
    refine if_pos ?_
    obtain h | h | h | h := h
    · rw [chanOf_of_two_le h] at hc; cases hc
    · rw [directionOf_of_two_le h] at hd; cases hd
    · rw [profileOf_of_eight_le h] at hp; cases hp
    · exact h

theorem moveArgs_eq_some {c : Chan} {d : Direction} {p : Fin 8} (hc : chanOf channel.toNat = some c)
    (hd : directionOf direction.toNat = some d) (hp : profileOf profile.toNat = some p) (hsteps : 1 ≤ steps.toNat) :
    moveArgs channel direction profile steps = some ⟨c, d, p, steps.toNat⟩ := by
  have hne : ¬steps.toNat = 0 := by omega
  simp only [moveArgs, hc, hd, hp, if_neg hne]

variable {s : State} {tag : Byte}

theorem moveMotor_given_badArg (hstop : s.cells.stopAll = none) (h : moveArgs channel direction profile steps = none) :
    exec (.moveMotor tag channel direction profile steps) (s.given (.moveMotor tag channel direction profile steps)) =
      .next (s.handDone tag 11 .badArg) := by
  simp [exec, execMoveMotor, hstop, h]

theorem moveMotor_given {a : MoveArgs} (hstop : s.cells.stopAll = none) (h : moveArgs channel direction profile steps = some a) :
    exec (.moveMotor tag channel direction profile steps) (s.given (.moveMotor tag channel direction profile steps)) =
      .next (match s.checkMove a with
        | some r => s.handDone tag 11 r
        | none => s.startMove a.channel .host a.direction a.profile (some a.steps) tag) := by
  simp only [exec, execMoveMotor, claimCommand_given, hstop, h, Option.isSome_none, Bool.false_eq_true, if_false]
  cases s.checkMove a <;> rfl

end

end Sys2Proof.Machine

namespace Sys2Proof.Proofs

open Sys2Proof Sys2Proof.Machine

/-- Settles O46: the results are the answers of `checkMove`, branch by branch; the accepted channel was at rest. -/
theorem moveMotorRow : Obligations.MoveMotorRow := by
  intro s tag channel direction profile steps i
  refine ⟨fun hstop => ?_, fun hstop => ⟨fun hbad => moveMotor_given_badArg hstop (moveArgs_eq_none hbad), ?_⟩⟩
  · simp only [i, exec, execMoveMotor, claimCommand_given, hstop, if_true]
  · intro ch dir p hch hdir hp hsteps c
    have hargs : moveArgs channel direction profile steps = some ⟨ch, dir, p, steps.toNat⟩ := by
      refine moveArgs_eq_some ?_ ?_ (profileOf_eq_some hp) hsteps
      · rw [hch]; cases ch <;> rfl
      · rw [hdir]; cases dir <;> rfl
    refine (moveMotor_given hstop hargs).trans (congrArg _ ?_)
    simp only [State.checkMove, coverAndSupplyGood_eq_false]
    split_ifs with howner hmoving hpower hprofile hservice
    · rfl
    · rfl
    · rfl
    · rfl
    · rfl
    · simp only [State.startMove, Channel.start_of_atRest (Bool.eq_false_iff.mpr hmoving)]
      rfl

end Sys2Proof.Proofs
end

