-- ==== Sys2Proof/Proofs/LineRows.lean ====
section
/-! The ring qualifier, the silence timer and the two debouncers (R112 to R116). -/

namespace Sys2Proof.Machine

open Sys2Proof

variable (s : State)

theorem satAdd_of_le {limit a b : Nat} (h : a + b ≤ limit) : satAdd limit a b = a + b := Nat.min_eq_right h

theorem ringEdge_idle (hw : s.lines.watching = true) (hq : s.lines.qual = .idle) :
    exec .ringEdge s = .next (s.setLines { s.lines with qual := .counting, edges := 1, edgeGapTimer := true }) := by
  simp only [exec, execRingEdge, hw, hq, if_true]

theorem ringEdge_qualified (hw : s.lines.watching = true) (hq : s.lines.qual = .qualified) :
    exec .ringEdge s = .next (s.setLines { s.lines with burstEndTimer := true }) := by
  simp only [exec, execRingEdge, hw, hq, if_true]

/-- R112: a counted edge adds one where the count is below its range's end. -/
theorem ringEdge_counting (hw : s.lines.watching = true) (hq : s.lines.qual = .counting) (he : s.lines.edges < 15) :
    exec .ringEdge s = .next
      (if s.cfg.ringQ ≤ s.lines.edges + 1 then (s.setLines { s.lines with edges := s.lines.edges + 1 }).burstQualifies
      else s.setLines { s.lines with edges := s.lines.edges + 1, edgeGapTimer := true }) := by
  have hcount : satAdd 15 s.lines.edges 1 = s.lines.edges + 1 := satAdd_of_le he
  rw [apply_ite Host.Outcome.next]
  simp only [exec, execRingEdge, hw, hq, if_true, hcount]

theorem inputLevelChange_watched {input : InputLine} {high : Bool} (hw : s.lines.watching = true)
    (hl : (s.lines.debouncer input).level ≠ high) :
    exec (.inputLevelChange input high) s = .next (s.setLines (s.lines.setDebouncer input
      { level := high, stable := (s.lines.debouncer input).stable, timer := decide (high ≠ (s.lines.debouncer input).stable) })) := by
  simp only [exec, execInputLevelChange, if_neg hl, hw, if_true]
  cases high <;> cases (s.lines.debouncer input).stable <;> rfl

theorem debouncedChange_key (high : Bool) :
    s.debouncedChange .key high = if high then (s.lineCell .input [1, 1]).wake .key else s := by
  cases high <;> rfl

theorem debouncedChange_hook (high : Bool) :
    s.debouncedChange .hook high =
      ((s.setLines { s.lines with ringCount := 0, silenceTimer := false }).lineCell .input [0, if high then 1 else 0]).wake
        (.hook high) := by
  cases high <;> rfl

theorem debounceExpiry_running {input : InputLine} (ht : (s.lines.debouncer input).timer = true) :
    exec (.debounceExpiry input) s = .next
      ((s.setLines (s.lines.setDebouncer input { s.lines.debouncer input with
          stable := (s.lines.debouncer input).level, timer := false })).debouncedChange input (s.lines.debouncer input).level) := by
  simp only [exec, execDebounceExpiry, ht, if_true]

end Sys2Proof.Machine

namespace Sys2Proof.Proofs

open Sys2Proof Sys2Proof.Machine

/-- Settles O50: each row by the qualifier's state or the timer that runs. -/
theorem lineInputRows : Obligations.LineInputRows := by
  intro s high x handed
  refine ⟨fun hw hq => ringEdge_idle s hw hq, fun hw hq he => ringEdge_counting s hw hq he,
    fun hw hq => ringEdge_qualified s hw hq, fun hq ht => ?_, fun hq ht => ?_, fun ht => ?_,
    fun hw hl => inputLevelChange_watched s hw hl, fun hw hl => inputLevelChange_watched s hw hl,
    fun ht => ?_, fun ht => ?_⟩
  · exact if_pos ⟨hq, ht⟩
  · exact if_pos ⟨hq, ht⟩
  · exact if_pos ht
  · exact (debounceExpiry_running s (input := .key) ht).trans (congrArg _ (debouncedChange_key ..))
  · exact (debounceExpiry_running s (input := .hook) ht).trans (congrArg _ (debouncedChange_hook ..))

end Sys2Proof.Proofs
end

