-- ==== Sys2Proof/Proofs/CellFrames.lean ====
section
/-! What handing cells, writing words and taking deliveries leave alone: the rings, the link, both streams and both motors. -/

namespace Sys2Proof.Machine

open Sys2Proof

/-- The rings, the link, both streams and both motors. -/
structure Streams where
  rings : Rings
  link : Link
  scan : Scan
  print : Print
  doc : Channel
  paper : Channel

/-- The streams of a state. -/
def State.streams (s : State) : Streams := ⟨s.rings, s.link, s.scan, s.print, s.doc, s.paper⟩

theorem streams_of_sameButCells {s t : State} (h : s.sameButCells t) : t.streams = s.streams := by
  rw [h]; rfl

section
variable (s : State)

@[simp] theorem State.setCells_streams (x : Cells) : (s.setCells x).streams = s.streams := rfl
@[simp] theorem State.setPmc_streams (x : Pmc) : (s.setPmc x).streams = s.streams := rfl
@[simp] theorem State.setClk_streams (x : ClockPower) : (s.setClk x).streams = s.streams := rfl
@[simp] theorem State.setSense_streams (x : Sense) : (s.setSense x).streams = s.streams := rfl
@[simp] theorem State.setLines_streams (x : LineInputs) : (s.setLines x).streams = s.streams := rfl
@[simp] theorem State.offer_streams (bs : List Burst) : (s.offer bs).streams = s.streams := rfl
@[simp] theorem State.issueRead_streams (c : MemClass) (q : Req) (a n : Nat) : (s.issueRead c q a n).streams = s.streams := rfl
@[simp] theorem State.issueWrite_streams (c : MemClass) (q : Req) (a : Nat) (d : List Half) :
    (s.issueWrite c q a d).streams = s.streams := rfl
@[simp] theorem State.writeWord_streams (c : MemClass) (a v : Nat) : (s.writeWord c a v).streams = s.streams := rfl
@[simp] theorem State.takeOne_streams (q : Req) : (s.takeOne q).streams = s.streams := rfl
@[simp] theorem State.takeAll_streams (q : Req) : (s.takeAll q).streams = s.streams := rfl

variable (k : Kind) (tag : Byte) (code : Nat) (r : Result) (fields : List Byte) (mark : CellMark)

@[simp] theorem State.handEvent_streams : (s.handEvent k tag r fields mark).streams = s.streams :=
  streams_of_sameButCells (handEvent_sameButCells ..)

@[simp] theorem State.handDone_streams : (s.handDone tag code r fields mark).streams = s.streams :=
  streams_of_sameButCells (handDone_sameButCells ..)

@[simp] theorem State.snapshotDue_streams : s.snapshotDue.streams = s.streams := by
  unfold State.snapshotDue
  split
  · rfl
  · split
    · rfl
    · rfl
    · rfl
    · split <;> rfl
    · split <;> rfl

@[simp] theorem State.handEvent_rings : (s.handEvent k tag r fields mark).rings = s.rings :=
  congrArg Streams.rings (State.handEvent_streams ..)
@[simp] theorem State.handEvent_link : (s.handEvent k tag r fields mark).link = s.link :=
  congrArg Streams.link (State.handEvent_streams ..)
@[simp] theorem State.handEvent_scan : (s.handEvent k tag r fields mark).scan = s.scan :=
  congrArg Streams.scan (State.handEvent_streams ..)
@[simp] theorem State.handEvent_print : (s.handEvent k tag r fields mark).print = s.print :=
  congrArg Streams.print (State.handEvent_streams ..)
@[simp] theorem State.handEvent_doc : (s.handEvent k tag r fields mark).doc = s.doc :=
  congrArg Streams.doc (State.handEvent_streams ..)
@[simp] theorem State.handEvent_paper : (s.handEvent k tag r fields mark).paper = s.paper :=
  congrArg Streams.paper (State.handEvent_streams ..)
@[simp] theorem State.handEvent_ring (i : RingId) : (s.handEvent k tag r fields mark).ring i = s.ring i :=
  congrArg (Rings.get · i) (State.handEvent_rings ..)

@[simp] theorem State.handDone_rings : (s.handDone tag code r fields mark).rings = s.rings :=
  congrArg Streams.rings (State.handDone_streams ..)
@[simp] theorem State.handDone_link : (s.handDone tag code r fields mark).link = s.link :=
  congrArg Streams.link (State.handDone_streams ..)
@[simp] theorem State.handDone_scan : (s.handDone tag code r fields mark).scan = s.scan :=
  congrArg Streams.scan (State.handDone_streams ..)
@[simp] theorem State.handDone_print : (s.handDone tag code r fields mark).print = s.print :=
  congrArg Streams.print (State.handDone_streams ..)
@[simp] theorem State.handDone_doc : (s.handDone tag code r fields mark).doc = s.doc :=
  congrArg Streams.doc (State.handDone_streams ..)
@[simp] theorem State.handDone_paper : (s.handDone tag code r fields mark).paper = s.paper :=
  congrArg Streams.paper (State.handDone_streams ..)
@[simp] theorem State.handDone_ring (i : RingId) : (s.handDone tag code r fields mark).ring i = s.ring i :=
  congrArg (Rings.get · i) (State.handDone_rings ..)

@[simp] theorem State.snapshotDue_rings : s.snapshotDue.rings = s.rings := congrArg Streams.rings (State.snapshotDue_streams s)
@[simp] theorem State.snapshotDue_link : s.snapshotDue.link = s.link := congrArg Streams.link (State.snapshotDue_streams s)
@[simp] theorem State.snapshotDue_scan : s.snapshotDue.scan = s.scan := congrArg Streams.scan (State.snapshotDue_streams s)
@[simp] theorem State.snapshotDue_print : s.snapshotDue.print = s.print := congrArg Streams.print (State.snapshotDue_streams s)
@[simp] theorem State.snapshotDue_doc : s.snapshotDue.doc = s.doc := congrArg Streams.doc (State.snapshotDue_streams s)
@[simp] theorem State.snapshotDue_paper : s.snapshotDue.paper = s.paper := congrArg Streams.paper (State.snapshotDue_streams s)

end

end Sys2Proof.Machine
end

