-- ==== Sys2Proof/Proofs/ClockRows.lean ====
section
/-! SWITCH CLOCK and SET POWER (R144, R152): the answers of their checks, the stage a switch begins in, and the entry to STANDBY. -/

namespace Sys2Proof.Machine

open Sys2Proof

/-! ### SWITCH CLOCK (R144) -/

section
variable {s : State} {tag target : Byte} {g : Source}

theorem sourceOf_eq_some_iff_code {n : Nat} {x : Source} : sourceOf n = some x ↔ n = sourceCode x := by
  match n with
  | 0 | 1 | 2 | 3 => cases x <;> simp [sourceOf, sourceCode]
  | n + 4 => cases x <;> simp [sourceOf, sourceCode]

theorem switchClock_given_refused {r : Result} (h : s.checkSwitch target = .error r) :
    exec (.switchClock tag target) (s.given (.switchClock tag target)) = .next (s.handDone tag 15 r) := by
  simp only [exec, execSwitchClock, claimCommand_given, h]

theorem switchClock_given_accepted (h : s.checkSwitch target = .ok g) :
    exec (.switchClock tag target) (s.given (.switchClock tag target)) = .next
      (if g = s.clk.core then s.handDone tag 15 .done [byte (clockCodeCode .none), byte (sourceCode s.clk.core)]
      else s.beginSwitch g .command tag) := by
  simp only [exec, execSwitchClock, claimCommand_given, h]
  split <;> rfl

theorem checkSwitch_badArg (hp : s.clk.power = .run ∨ s.clk.power = .slow)
    (h : ∀ t, sourceOf target.toNat = some t → s.cfg.fitted t = false) : s.checkSwitch target = .error .badArg := by
  have hpower : ¬(s.clk.power ≠ .run ∧ s.clk.power ≠ .slow) := by tauto
  rw [State.checkSwitch, if_neg hpower]
  split
  · rfl
  · rw [h _ ‹_›]
    rfl

theorem checkSwitch_fitted (hp : s.clk.power = .run ∨ s.clk.power = .slow) (hg : sourceOf target.toNat = some g)
    (hf : s.cfg.fitted g = true) :
    s.checkSwitch target = if s.clk.sw.st ≠ .none then .error .busy else .ok g := by
  have hpower : ¬(s.clk.power ≠ .run ∧ s.clk.power ≠ .slow) := by tauto
  simp only [State.checkSwitch, if_neg hpower, hg, hf, not_true_eq_false, if_false]

theorem settleCountReached_starting (hc : s.clk.crystal = .starting) (ht : s.clk.sw.target = some g) :
    exec .settleCountReached s = .next ((s.setClk { s.clk with crystal := .running, settle := 4096 }).crystalReady g) := by
  simp only [exec, execSettleCountReached, hc, ht]
  rfl

/-- R144: the stage a switch begins in. -/
theorem beginSwitch_eq (s : State) (hg : g ≠ .slowRc) (o : Origin) (tag : Byte) :
    s.beginSwitch g o tag =
      if g = .fastRc ∨ (g = .crystal ∧ s.clk.crystal = .running) then
        (s.setClk { s.clk with sw := { st := .waitQuiet, target := some g, origin := some o, tag := tag } }).setSense
          { s.sense with hold := true }
      else if s.clk.crystal = .running then
        s.setClk { s.clk with pll := .locking, sw := { st := .locking, target := some g, origin := some o, tag := tag } }
      else
        s.setClk { s.clk with
          crystal := .starting, settle := 0, sw := { st := .starting, target := some g, origin := some o, tag := tag } } := by
  unfold State.beginSwitch
  cases g with
  | slowRc => exact absurd rfl hg
  | fastRc => rfl
  | crystal | crystalX2 =>
    by_cases hrun : s.clk.crystal = .running
    · simp only [Source.isCrystal, State.setClk_clk, hrun, if_true, and_self, or_true, reduceCtorEq, false_and, or_self, if_false]
      rfl
    · simp only [Source.isCrystal, State.setClk_clk, hrun, if_true, and_false, or_self, reduceCtorEq, if_false]
      rfl

end

/-! ### SET POWER (R152) -/

section
variable {s : State} {tag target : Byte} {snapBack : Bool} {ratio wakeTimer : Half}

/-- R152: the power of two at or below a ratio, limited to 1 to 128. -/
theorem powerOfTwo_eq {n k : Nat} (hlow : 2 ^ k ≤ min 128 (max 1 n)) (hhigh : min 128 (max 1 n) < 2 ^ (k + 1)) :
    powerOfTwo n = 2 ^ k := by
  have hk : k < 8 := (Nat.pow_lt_pow_iff_right (by omega)).mp (show 2 ^ k < 2 ^ 8 by omega)
  unfold powerOfTwo
  interval_cases k <;> split_ifs <;> omega

theorem setPower_given_standby (hopen : ¬(s.clk.power = .entering ∨ s.clk.power = .leaving)) (h2 : target.toNat = 2) :
    exec (.setPower tag target snapBack ratio wakeTimer) (s.given (.setPower tag target snapBack ratio wakeTimer)) =
      .next (if s.standbyBusy then s.donePower tag .busy else s.beginEntry tag wakeTimer.toNat) := by
  simp only [exec, execSetPower, claimCommand_given, if_neg hopen, h2]
  split <;> rfl

/-- R154: what the entry's beginning makes of the units, its DONE handed with the wake timer's setting kept. -/
theorem beginEntry_eq (s : State) (tag : Byte) (w : Nat) :
    s.beginEntry tag w =
      (((((s.setClk { s.clk with wakeSetting := w }).donePower tag .done .standby).setClk
        { s.clk with
          wakeSetting := w, power := .entering, doneWritten := false, entrySent := false, needSense := false }).setDoc
        s.doc.releaseForStandby).setPaper s.paper.releaseForStandby).setSense
        { s.sense with periodTimer := false, owed := false, sweep := .none } := by
  simp only [State.beginEntry, State.releaseMotors, State.abandonSweep, State.donePower, State.handDone_clk, State.handDone_doc,
    State.handDone_paper, State.handDone_sense, State.setClk_clk, State.setClk_doc, State.setClk_paper, State.setClk_sense,
    State.setDoc_clk, State.setDoc_sense, State.setPaper_clk, State.setPaper_sense]
  rfl

theorem standbyBusy_iff (s : State) :
    s.standbyBusy = true ↔ s.scan.st ≠ .off ∨ s.print.st ≠ .off ∨ s.link.st ≠ .off ∨ s.doc.moving = true
      ∨ s.paper.moving = true ∨ s.cells.loader ≠ .idle ∨ s.clk.sw.st ≠ .none := by
  simp only [State.standbyBusy, Scan.active, Print.active, Bool.or_eq_true, bne_iff_ne, or_assoc]

/-- R98: the release of a channel at rest. -/
theorem releaseForStandby_of_atRest {c : Channel} (h : c.moving = false) :
    c.releaseForStandby = if c.st = .hold then { c with st := .idle, released := true } else { c with released := false } := by
  unfold Channel.releaseForStandby
  cases hst : c.st with
  | idle | hold => rfl
  | run | move | stopping => simp [Channel.moving, hst] at h

end

end Sys2Proof.Machine

namespace Sys2Proof.Proofs

open Sys2Proof Sys2Proof.Machine

/-- Settles O51: the checks in order, the stage a switch begins in, and the two rows that move it on. -/
theorem switchClockRow : Obligations.SwitchClockRow := by
  intro s tag target g x i held
  refine ⟨fun hrun hslow => ?_, fun hp => ⟨fun hbad => ?_, fun htarget hx hx2 hslow => ?_⟩, fun hc ht => ?_, fun hc ht => ?_,
    fun hp => ?_⟩
  · exact switchClock_given_refused (if_pos ⟨hrun, hslow⟩)
  · refine switchClock_given_refused (checkSwitch_badArg hp fun t ht => ?_)
    rw [sourceOf_eq_some_iff_code] at ht
    cases t <;> simp_all [sourceCode, BoardConfig.fitted]
  · have hsource : sourceOf target.toNat = some g := sourceOf_eq_some_iff_code.mpr htarget
    have hfit : s.cfg.fitted g = true := by
      cases g with
      | crystal => exact bne_iff_ne.mpr (hx rfl)
      | crystalX2 => exact bne_iff_ne.mpr (hx2 rfl)
      | fastRc => rfl
      | slowRc => exact absurd rfl hslow
    have hcheck := checkSwitch_fitted hp hsource hfit
    intro w
    by_cases hpending : s.clk.sw.st ≠ .none
    · rw [if_pos hpending] at hcheck
      exact (switchClock_given_refused hcheck).trans (congrArg _ (if_pos hpending).symm)
    · rw [if_neg hpending] at hcheck
      refine (switchClock_given_accepted hcheck).trans (congrArg _ ?_)
      rw [beginSwitch_eq s hslow]
      exact (if_neg hpending).symm
  · exact settleCountReached_starting hc ht
  · exact settleCountReached_starting hc ht
  · exact if_pos hp

/-- Settles O54: the rows of SET POWER in the order of R152. -/
theorem setPowerRow : Obligations.SetPowerRow := by
  intro s tag target snapBack ratio wakeTimer k x i inForce release
  have hforce : ∀ r, s.donePower tag r = s.handDone tag 14 r inForce := fun r => by
    simp only [State.donePower, inForce, x]
    cases s.clk.power <;> rfl
  refine ⟨fun hbusy => ?_, fun hne hnl => ?_⟩
  · rw [← hforce]
    simp only [i, exec, execSetPower, claimCommand_given]
    exact if_pos hbusy
  have hopen : ¬(s.clk.power = .entering ∨ s.clk.power = .leaving) := fun h => h.elim hne hnl
  refine ⟨fun h3 => ?_, fun h0 => ?_, fun h1 hlow hhigh => ?_, fun h2 => ?_⟩
  · rw [← hforce]
    simp only [i, exec, execSetPower, claimCommand_given, if_neg hopen]
    match target.toNat, h3 with
    | _ + 3, _ => rfl
  · simp only [i, exec, execSetPower, claimCommand_given, if_neg hopen, h0]
    rfl
  · simp only [i, exec, execSetPower, claimCommand_given, if_neg hopen, h1, powerOfTwo_eq hlow hhigh]
    rfl
  · refine (setPower_given_standby hopen h2).trans (congrArg _ ?_)
    rw [← hforce]
    by_cases hbusy : s.standbyBusy = true
    · exact (if_pos hbusy).trans (if_pos ((standbyBusy_iff s).mp hbusy)).symm
    · refine (if_neg hbusy).trans (Eq.trans ?_ (if_neg (mt (standbyBusy_iff s).mpr hbusy)).symm)
      rw [standbyBusy_iff] at hbusy
      have hdoc : s.doc.moving = false := Bool.eq_false_iff.mpr fun h => hbusy (by tauto)
      have hpaper : s.paper.moving = false := Bool.eq_false_iff.mpr fun h => hbusy (by tauto)
      simp only [release, ← releaseForStandby_of_atRest hdoc, ← releaseForStandby_of_atRest hpaper]
      rw [beginEntry_eq]
      simp only [inForce, x, State.donePower, State.setClk_clk]
      cases s.clk.power <;> rfl

end Sys2Proof.Proofs
end

