-- ==== Sys2Proof/Proofs/Standby.lean ====
section
/-! Entry to STANDBY, its undoing, leaving, and what a wake cause does in each power state (R153 to R156). -/

namespace Sys2Proof.Machine

open Sys2Proof

variable {s : State} {w : WakeLatch} {cause : WakeCause}

/-- 10.6: the WAKE cell of a state and mark that are given as bytes. -/
theorem wakeCell_eq (s : State) (cause : WakeCause) (fromState : PowerState) (abandoned : Bool) {a b : Byte}
    (ha : byte (powerCode fromState) = a) (hb : byte (flag abandoned 0) = b) :
    s.wakeCell cause fromState abandoned = s.handEvent .wake 0 .done
      (match cause with
        | .sense p z => [0, a, b, byte p, byte (zoneCode z)]
        | .ring n => [1, a, b, byte n, 0xFF]
        | .hook h => [2, a, b, if h then 1 else 0, 0xFF]
        | .key => [3, a, b, 0xFF, 0xFF]
        | .timer => [4, a, b, 0xFF, 0xFF]) := by
  subst ha hb
  cases cause with
  | hook h => cases h <;> rfl
  | sense | ring | key | timer => rfl

theorem memoryExit_of_selfRefresh (h : s.pmc.st = .selfRefresh) :
    s.memoryExit = s.setPmc (Pmc.grantPoint s.cfg { s.pmc with st := .srExit, refreshTimer := true, burstRem := 8 }) := if_pos h

theorem memoryExit_of_not (h : s.pmc.st ≠ .selfRefresh) : s.memoryExit = s := if_neg h

/-- R155: an abandoned entry comes to its end. -/
theorem finishAbandon_of (h : s.clk.wakeLatch = some w) :
    s.finishAbandon = (((((s.setClk { s.clk with
        hostClk := true, power := .run, ratio := 1, wakeLatch := none, entrySent := false, doneWritten := false }).setDoc
        s.doc.undoRelease).setPaper s.paper.undoRelease).setSense { s.sense with periodTimer := true }).wakeCell
          w.cause .entering true).snapshotDue := by
  simp only [State.finishAbandon, h]
  rfl

/-- R156: leaving comes to its end. -/
theorem finishLeaving_of {g : Source} (h : s.clk.wakeLatch = some w) (hg : s.clk.sourceBefore = some g) :
    s.finishLeaving =
      (let t := ((s.setClk { s.clk with
          hostClk := true, power := .run, ratio := 1, wakeLatch := none, sourceBefore := none, entrySent := false
          doneWritten := false }).wakeCell w.cause .standby false).setSense { s.sense with periodTimer := true }
        if g.isCrystal then t.beginSwitch g .wake else t).snapshotDue := by
  simp only [State.finishLeaving, h, hg, State.startPeriod, State.wakeCell, State.handEvent_sense, State.setClk_sense]

theorem beginSwitch_crystal {g : Source} (hg : g.isCrystal = true) (hc : s.clk.crystal = .stopped) (o : Origin) :
    s.beginSwitch g o = s.setClk { s.clk with
      crystal := .starting, settle := 0, sw := { st := .starting, target := some g, origin := some o, tag := 0 } } := by
  have hne : g ≠ .slowRc := fun h => by rw [h] at hg; cases hg
  have hnf : ¬(g = .fastRc ∨ (g = .crystal ∧ s.clk.crystal = .running)) := by
    rintro (rfl | ⟨-, h⟩)
    · cases hg
    · rw [hc] at h; cases h
  have hnr : ¬s.clk.crystal = .running := by rw [hc]; exact OscState.noConfusion
  rw [beginSwitch_eq s hne, if_neg hnf, if_neg hnr]

/-- R156: a crystal source before standby begins a switch, another one nothing. -/
theorem leavingSwitch_eq {t : State} {x : ClockPower} (hclk : t.clk = x) (hc : x.crystal = .stopped) (g : Source) :
    (if g.isCrystal then t.beginSwitch g .wake else t) = t.setClk (match g with
      | .crystal | .crystalX2 => { x with crystal := .starting, settle := 0, sw := ⟨.starting, some g, some .wake, 0⟩ }
      | .fastRc | .slowRc => x) := by
  subst hclk
  cases g with
  | crystal => exact beginSwitch_crystal (g := .crystal) rfl hc .wake
  | crystalX2 => exact beginSwitch_crystal (g := .crystalX2) rfl hc .wake
  | fastRc | slowRc => rfl

theorem refreshBurstDone_srExit (hst : s.pmc.st = .srExit) (hb : s.pmc.burstRem = 0) :
    exec .refreshBurstDone s = .next (s.setPmc { s.pmc with st := .running }).memoryBack := by
  simp only [exec, execRefreshBurstDone, hst, hb, if_true]

theorem memoryBack_leaving (h : s.clk.power = .leaving) : s.memoryBack = s.finishLeaving := by
  simp only [State.memoryBack, h]

theorem memoryBack_entering (h : s.clk.power = .entering) : s.memoryBack = s.finishAbandon := by
  simp only [State.memoryBack, h]

/-! ### Wake causes (R153) -/

theorem wake_of_nothing (h : s.clk.power = .run ∨ s.clk.power = .leaving ∨ (s.clk.power = .slow ∧ s.clk.snapBack = false)
    ∨ (s.clk.power = .entering ∧ s.clk.wakeLatch.isSome = true)) : s.wake cause = s := by
  obtain h | h | ⟨h, hsnap⟩ | ⟨h, hlatch⟩ := h
  · simp only [State.wake, h]
  · simp only [State.wake, h]
  · simp only [State.wake, h, hsnap, Bool.false_eq_true, if_false]
  · obtain ⟨w, hw⟩ := Option.isSome_iff_exists.mp hlatch
    simp only [State.wake, h, hw]

theorem wake_slow (hp : s.clk.power = .slow) (hsnap : s.clk.snapBack = true) :
    s.wake cause = (s.setClk { s.clk with power := .run, ratio := 1 }).wakeCell cause .slow false := by
  simp only [State.wake, hp, hsnap, if_true]

theorem wake_entering (hp : s.clk.power = .entering) (hw : s.clk.wakeLatch = none) :
    s.wake cause = (s.setClk { s.clk with wakeLatch := some ⟨cause, true⟩ }).abandonEntry := by
  simp only [State.wake, hp, hw]

/-- R156: with FAST_RC running, leaving moves the core at once. -/
theorem wake_standby_running (hp : s.clk.power = .standby) (hf : s.clk.fastRc = .running) :
    s.wake cause = ((s.setSense { s.sense with standbyTimer := false }).setClk { s.clk with
      wakeLatch := some ⟨cause, false⟩, power := .leaving, wakeTimer := false, needLeave := false, core := .fastRc }).memoryExit := by
  simp only [State.wake, hp, State.beginLeaving, State.setClk_sense, State.setSense_clk, State.setClk_clk, hf]
  rfl

/-- R156: otherwise leaving asks for FAST_RC. -/
theorem wake_standby_waiting (hp : s.clk.power = .standby) (hf : s.clk.fastRc ≠ .running) :
    s.wake cause = (s.setSense { s.sense with standbyTimer := false }).setClk { s.clk with
      wakeLatch := some ⟨cause, false⟩, power := .leaving, wakeTimer := false, needLeave := true, fastRc := .starting } := by
  simp only [State.wake, hp, State.beginLeaving, State.setClk_sense, State.setSense_clk, State.setClk_clk]
  cases hfc : s.clk.fastRc with
  | running => exact absurd hfc hf
  | starting | stopped => rfl

theorem abandonEntry_unsent (h : s.clk.entrySent = false) : s.abandonEntry = s.finishAbandon := by
  simp only [State.abandonEntry, h, Bool.false_eq_true, if_false]

theorem abandonEntry_srEntry (h : s.clk.entrySent = true) (hm : s.pmc.st = .srEntry) :
    s.abandonEntry = (s.setPmc { s.pmc with st := .running }).finishAbandon := by
  simp only [State.abandonEntry, h, if_true, hm, State.memoryWithdraw]

theorem abandonEntry_selfRefresh (h : s.clk.entrySent = true) (hm : s.pmc.st = .selfRefresh) :
    s.abandonEntry = s.memoryExit := by
  simp only [State.abandonEntry, h, if_true, hm]

theorem bne_zero_eq (n : Nat) : (n != 0) = decide (n ≠ 0) := by cases n <;> rfl

end Sys2Proof.Machine

namespace Sys2Proof.Proofs

open Sys2Proof Sys2Proof.Machine

/-- Settles O55: each stage by its condition, each wake cause by the power state it comes in. -/
theorem standbyRows : Obligations.StandbyRows := by
  intro s w g cause x cell running back undo undone exiting
  let latched := s.setClk { x with wakeLatch := some ⟨cause, true⟩ }
  refine ⟨fun hp hd hs hw hh hm => ?_, fun hp hs hw hm hc => ?_, fun hp ht hf => ?_, fun hm hb hp hw hg hc => ?_,
    fun hm hb hp hw => ?_, fun h => ?_, fun hp hsnap => ?_, fun hp hw => ⟨fun hs => ?_, fun hs hm => ?_, fun hs hm => ?_⟩,
    fun hp => ?_⟩
  · exact (if_pos ⟨hp, hd, Bool.eq_false_iff.mp hs, hw, Bool.eq_false_iff.mp hh⟩).trans (congrArg _ (if_pos hm))
  · refine (if_pos ⟨hp, hs, hw, hm, Bool.eq_false_iff.mp hc⟩).trans (congrArg _ ?_)
    rw [← bne_zero_eq, ← bne_zero_eq]
    rfl
  · refine (if_pos ⟨hp, ht⟩).trans (congrArg _ ?_)
    exact wake_standby_waiting (s := s.setClk { s.clk with wakeTimer := false }) hp fun h => OscState.noConfusion (hf.symm.trans h)
  · intro base
    have hback : running.memoryBack = running.finishLeaving := memoryBack_leaving (s := running) hp
    have hend := finishLeaving_of (s := running) hw hg
    refine (refreshBurstDone_srExit hm hb).trans (congrArg _ (hback.trans (hend.trans ?_)))
    rw [wakeCell_eq _ _ _ _ rfl rfl]
    refine congrArg State.snapshotDue (leavingSwitch_eq (x := base) ?_ hc g)
    rw [State.setSense_clk, State.handEvent_clk]
    rfl
  · have hback : running.memoryBack = running.finishAbandon := memoryBack_entering (s := running) hp
    have hend := finishAbandon_of (s := running) hw
    refine (refreshBurstDone_srExit hm hb).trans (congrArg _ (hback.trans (hend.trans ?_)))
    rw [wakeCell_eq _ _ _ _ rfl rfl]
    rfl
  · exact wake_of_nothing h
  · rw [wake_slow hp hsnap, wakeCell_eq _ _ _ _ rfl rfl]
    rfl
  · rw [wake_entering hp hw, abandonEntry_unsent (s := latched) hs, finishAbandon_of (s := latched) rfl, wakeCell_eq _ _ _ _ rfl rfl]
    rfl
  · rw [wake_entering hp hw, abandonEntry_srEntry (s := latched) hs hm, finishAbandon_of (s := latched.setPmc _) rfl,
      wakeCell_eq _ _ _ _ rfl rfl]
    rfl
  · rw [wake_entering hp hw, abandonEntry_selfRefresh (s := latched) hs hm, memoryExit_of_selfRefresh (s := latched) hm]
    rfl
  · by_cases hf : s.clk.fastRc = .running
    · refine Eq.trans ?_ (if_pos hf).symm
      rw [wake_standby_running hp hf]
      by_cases hm : s.pmc.st = .selfRefresh
      · refine Eq.trans ?_ (if_pos hm).symm
        exact memoryExit_of_selfRefresh (s := (s.setSense _).setClk _) hm
      · refine Eq.trans ?_ (if_neg hm).symm
        exact memoryExit_of_not (s := (s.setSense _).setClk _) hm
    · exact (wake_standby_waiting hp hf).trans (if_neg hf).symm

end Sys2Proof.Proofs
end

