-- ==== Sys2Proof/Proofs/StandbyHeld.lean ====
section
/-! What the stages of STANDBY allow (R133, R140, R154 to R156): the host clock stopped, memory on its way to or in self-refresh. -/

namespace Sys2Proof.Machine

open Sys2Proof

/-! ### The part of the state it speaks of -/

/-- R140, R151, R154: the host clock, the power state and the entry request. -/
def ClockPower.stage (x : ClockPower) : Bool × PowerState × Bool := (x.hostClk, x.power, x.entrySent)

theorem standbyHeld_of_stage {s t : State} (hclk : t.clk.stage = s.clk.stage) (hpmc : t.pmc.st = s.pmc.st) :
    t.standbyHeld = s.standbyHeld := by
  obtain ⟨hhost, hpower, hsent⟩ : t.clk.hostClk = s.clk.hostClk ∧ t.clk.power = s.clk.power ∧ t.clk.entrySent = s.clk.entrySent := by
    simpa [ClockPower.stage] using hclk
  simp only [State.standbyHeld, ClockPower.entrySentOrLater, hhost, hpower, hsent, hpmc]

theorem st_of_core {s t : State} (h : t.pmc.core = s.pmc.core) : t.pmc.st = s.pmc.st := by
  rw [show t.pmc.st = t.pmc.core.st from rfl, h]
  rfl

theorem standbyHeld_of_units {s t : State} (h : t.units = s.units) : t.standbyHeld = s.standbyHeld :=
  standbyHeld_of_stage (congrArg ClockPower.stage (clk_of_units h)) (st_of_core (core_of_units h))

/-- R154: the stages from the entry request on. -/
theorem entrySentOrLater_iff (x : ClockPower) : x.entrySentOrLater = true ↔
    (x.power = .entering ∧ x.entrySent = true) ∨ x.power = .standby ∨ x.power = .leaving := by
  simp [ClockPower.entrySentOrLater, or_assoc]

theorem standbyHeld_iff (s : State) : s.standbyHeld = true ↔
    (s.clk.hostClk = true ∨ s.clk.entrySentOrLater = true) ∧ (s.pmc.st = .selfRefresh → s.clk.entrySentOrLater = true)
      ∧ (s.pmc.st = .srEntry → s.clk.power = .entering ∧ s.clk.entrySent = true) := by
  simp [State.standbyHeld, or_iff_not_imp_left, and_assoc]

/-- With memory in neither self-refresh nor on its way there, and the host clock running, everything is allowed. -/
theorem standbyHeld_of_running {s : State} (hhost : s.clk.hostClk = true) (hself : s.pmc.st ≠ .selfRefresh)
    (hentry : s.pmc.st ≠ .srEntry) : s.standbyHeld = true :=
  (standbyHeld_iff s).mpr ⟨.inl hhost, fun h => absurd h hself, fun h => absurd h hentry⟩

/-- Outside the stages of STANDBY. -/
theorem awake_of_held {s : State} (h : s.standbyHeld = true) (hs : s.clk.entrySentOrLater = false) :
    s.clk.hostClk = true ∧ s.pmc.st ≠ .selfRefresh ∧ s.pmc.st ≠ .srEntry := by
  obtain ⟨hhost, hself, hentry⟩ := (standbyHeld_iff s).mp h
  have hlate := mt (entrySentOrLater_iff s.clk).mpr (Bool.eq_false_iff.mp hs)
  refine ⟨hhost.resolve_right (Bool.eq_false_iff.mp hs), fun h => ?_, fun h => hlate (.inl (hentry h))⟩
  exact Bool.eq_false_iff.mp hs (hself h)

/-! ### The controller's state under its own rows -/

@[simp] theorem grantPoint_st (c : BoardConfig) (x : Pmc) : (x.grantPoint c).st = x.st := by
  by_cases hm : x.mayGrant = true
  · obtain ⟨burst, h⟩ | ⟨b, h, -⟩ | ⟨h, -⟩ := grantPoint_cases (c := c) hm
    · rw [h]; rfl
    · rw [h]; exact (setBank_fields ..).1
    · rw [h]
  · rw [Pmc.grantPoint, if_neg hm]

@[simp] theorem State.grantPoint_st (s : State) : s.grantPoint.pmc.st = s.pmc.st := Machine.grantPoint_st ..

@[simp] theorem enter_st (x : Pmc) (b : Burst) : (x.enter b).st = x.st := by
  unfold Pmc.enter
  cases b.dir <;> rfl

theorem afterBurst_st (c : BoardConfig) (x : Pmc) (b : Burst) (data : List Half) : (x.afterBurst c b data).st = x.st := rfl

@[simp] theorem performed_st (s : State) (b : Burst) : (s.performed b).pmc.st = s.pmc.st := by
  cases h : b.dir with
  | read => rw [performed_read h]; exact afterBurst_st ..
  | write => rw [performed_write h]; exact afterBurst_st ..

theorem perform_st (s : State) (b : Burst) : (s.perform b).pmc.st = s.pmc.st := by
  rw [perform_eq_snoop, st_of_core (snoop_core ..), performed_st]

/-- A row of the memory controller but the entry into self-refresh leaves its state alone. -/
theorem exec_st {i : Instr} (hi : keepsClk i) (hne : i ≠ .selfRefreshEntry) (s : State) :
    Meets (fun t => t.pmc.st = s.pmc.st) (exec i s) := by
  cases i
  all_goals try (cases hi; done)
  case selfRefreshEntry => exact absurd rfl hne
  case burstEnter dir =>
    refine meets_ite (fun _ => ?_) (fun _ => meets_next.mpr rfl)
    split
    · refine meets_next.mpr ?_
      cases dir <;> simp [Pmc.raiseDrain]
    · exact meets_next.mpr rfl
  case accessEnd =>
    simp only [exec, execAccessEnd]
    split
    · refine meets_ite (fun _ => meets_next.mpr ?_) (fun _ => meets_fault)
      rw [State.grantPoint_st, st_of_core (State.linkReadsAbandoned_core _), st_of_core (congrArg Base.core (State.commandRead_base _)),
        perform_st]
    all_goals exact meets_next.mpr rfl
  all_goals
    simp only [exec, execRefreshEnd, execRefreshTimerExpiry, execCloseTimerExpiry]
    repeat' split
  all_goals simp

/-! ### The stages under the operations of the clock and power unit -/

theorem crystalReady_stage (s : State) (target : Source) : (s.crystalReady target).clk.stage = s.clk.stage := by
  cases target <;> rfl

theorem beginSwitch_stage (s : State) (target : Source) (origin : Origin) (tag : Byte) :
    (s.beginSwitch target origin tag).clk.stage = s.clk.stage := by
  unfold State.beginSwitch
  dsimp only
  split
  · split
    · exact crystalReady_stage _ target
    · rfl
  · rfl

@[simp] theorem stopUnneeded_stage (x : ClockPower) : x.stopUnneeded.stage = x.stage := by
  cases h : x.core <;> simp [ClockPower.stopUnneeded, h, ClockPower.stage]

@[simp] theorem moveCore_stage (x : ClockPower) (target : Source) : (x.moveCore target).stage = x.stage := by
  cases target <;> rfl

theorem liftHold_clk (s : State) : s.liftHold.clk = s.clk := rfl

theorem switchFail_stage (s : State) (code : ClockCode) : (s.switchFail code).clk.stage = s.clk.stage := by
  simp only [State.switchFail, State.reportSwitch_clk, liftHold_clk, State.setClk_clk]
  exact stopUnneeded_stage s.clk

theorem clockFailure_stage (s : State) : s.clockFailure.clk.stage = s.clk.stage := by
  unfold State.clockFailure
  dsimp only
  split <;> simp [switchFail_stage] <;> rfl

theorem standbySweepStart_stage (s : State) : s.standbySweepStart.clk.stage = s.clk.stage := by
  obtain h | h := standbySweepStart_units s
  · rw [clk_of_units h]
  · rw [clk_of_units h]; rfl

theorem standbySweepStart_held (s : State) : s.standbySweepStart.standbyHeld = s.standbyHeld :=
  standbyHeld_of_stage (standbySweepStart_stage s) (st_of_core (standbySweepStart_pmcCore s))

theorem finishAbandon_stage {s : State} {w : WakeLatch} (h : s.clk.wakeLatch = some w) :
    s.finishAbandon.clk.stage = (true, .run, false) := by
  rw [finishAbandon_of h]
  simp
  rfl

theorem finishAbandon_held {s : State} (h : s.standbyHeld = true) (hself : s.pmc.st ≠ .selfRefresh) (hentry : s.pmc.st ≠ .srEntry) :
    s.finishAbandon.standbyHeld = true := by
  cases hw : s.clk.wakeLatch with
  | none => simpa only [State.finishAbandon, hw] using h
  | some w =>
    have hst := st_of_core (finishAbandon_pmcCore s)
    refine standbyHeld_of_running (congrArg Prod.fst (finishAbandon_stage hw)) ?_ ?_
    · rwa [hst]
    · rwa [hst]

theorem finishLeaving_stage {s : State} {w : WakeLatch} (h : s.clk.wakeLatch = some w) :
    s.finishLeaving.clk.stage = (true, .run, false) := by
  simp only [State.finishLeaving, h, State.snapshotDue_clk]
  split
  · split
    · rw [beginSwitch_stage]; simp [State.startPeriod]; rfl
    · simp [State.startPeriod]; rfl
  · simp [State.startPeriod]; rfl

theorem finishLeaving_held {s : State} (h : s.standbyHeld = true) (hself : s.pmc.st ≠ .selfRefresh) (hentry : s.pmc.st ≠ .srEntry) :
    s.finishLeaving.standbyHeld = true := by
  cases hw : s.clk.wakeLatch with
  | none => simpa only [State.finishLeaving, hw] using h
  | some w =>
    have hst := st_of_core (finishLeaving_pmcCore s)
    refine standbyHeld_of_running (congrArg Prod.fst (finishLeaving_stage hw)) ?_ ?_
    · rwa [hst]
    · rwa [hst]

/-! ### The stages under a wake cause (R153) -/

theorem memoryExit_held {s : State} (h : s.standbyHeld = true) : s.memoryExit.standbyHeld = true := by
  by_cases hm : s.pmc.st = .selfRefresh
  · obtain ⟨hhost, -, -⟩ := (standbyHeld_iff s).mp h
    rw [memoryExit_of_selfRefresh hm, standbyHeld_iff, State.setPmc_pmc, grantPoint_st]
    exact ⟨hhost, fun h => PmcState.noConfusion h, fun h => PmcState.noConfusion h⟩
  · rwa [memoryExit_of_not hm]

theorem abandonEntry_held {s : State} (h : s.standbyHeld = true) (hp : s.clk.power = .entering) :
    s.abandonEntry.standbyHeld = true := by
  unfold State.abandonEntry
  split
  next hsent =>
    split
    next hm =>
      refine finishAbandon_held ?_ ?_ ?_
      all_goals simp only [State.memoryWithdraw, hm, if_true]
      · obtain ⟨hhost, -, -⟩ := (standbyHeld_iff s).mp h
        exact (standbyHeld_iff _).mpr ⟨hhost, fun h => PmcState.noConfusion h, fun h => PmcState.noConfusion h⟩
      · exact PmcState.noConfusion
      · exact PmcState.noConfusion
    · exact memoryExit_held h
    all_goals exact h
  next hsent =>
    have hearly : s.clk.entrySentOrLater = false := by
      rw [← Bool.not_eq_true, entrySentOrLater_iff, hp]
      simpa using hsent
    obtain ⟨-, hself, hentry⟩ := awake_of_held h hearly
    exact finishAbandon_held h hself hentry

theorem beginLeaving_held {s : State} (h : s.standbyHeld = true) (hp : s.clk.power = .standby) :
    s.beginLeaving.standbyHeld = true := by
  obtain ⟨-, -, hentry⟩ := (standbyHeld_iff s).mp h
  have hentry : s.pmc.st ≠ .srEntry := fun hm => by
    rw [hp] at hentry
    exact PowerState.noConfusion (hentry hm).1
  have hleaving : ∀ u : State, u.clk.power = .leaving → u.pmc.st = s.pmc.st → u.standbyHeld = true := fun u hu hm => by
    have hlate : u.clk.entrySentOrLater = true := (entrySentOrLater_iff _).mpr (.inr (.inr hu))
    exact (standbyHeld_iff u).mpr ⟨.inr hlate, fun _ => hlate, fun h => absurd (hm ▸ h) hentry⟩
  unfold State.beginLeaving
  dsimp only
  split
  · exact memoryExit_held (hleaving _ rfl rfl)
  · exact hleaving _ rfl rfl
  · exact hleaving _ rfl rfl

theorem wake_held {s : State} (h : s.standbyHeld = true) (cause : WakeCause) : (s.wake cause).standbyHeld = true := by
  cases hp : s.clk.power with
  | run => rwa [wake_of_nothing (.inl hp)]
  | leaving => rwa [wake_of_nothing (.inr (.inl hp))]
  | slow =>
    by_cases hsnap : s.clk.snapBack = true
    · rw [wake_slow hp hsnap, standbyHeld_of_stage (s := s.setClk { s.clk with power := .run, ratio := 1 }) (by simp) (st_of_core (by simp [State.wakeCell]))]
      have hearly : s.clk.entrySentOrLater = false := by simp [ClockPower.entrySentOrLater, hp]
      obtain ⟨hhost, hself, hentry⟩ := awake_of_held h hearly
      exact standbyHeld_of_running hhost hself hentry
    · rwa [wake_of_nothing (.inr (.inr (.inl ⟨hp, Bool.eq_false_iff.mpr hsnap⟩)))]
  | entering =>
    cases hw : s.clk.wakeLatch with
    | none =>
      rw [wake_entering hp hw]
      exact abandonEntry_held (s := s.setClk { s.clk with wakeLatch := some ⟨cause, true⟩ }) h hp
    | some w => rwa [wake_of_nothing (.inr (.inr (.inr ⟨hp, by rw [hw]; rfl⟩)))]
  | standby =>
    have hwake : s.wake cause = (s.setClk { s.clk with wakeLatch := some ⟨cause, false⟩ }).beginLeaving := by
      simp only [State.wake, hp]
    rw [hwake]
    exact beginLeaving_held (s := s.setClk { s.clk with wakeLatch := some ⟨cause, false⟩ }) h hp

theorem woken_held {s t : State} (hs : s.standbyHeld = true) (h : Woken s t) : t.standbyHeld = true := by
  obtain h | ⟨u, cause, hu, ht⟩ := h
  · rwa [standbyHeld_of_units h]
  · rw [standbyHeld_of_units ht]
    exact wake_held ((standbyHeld_of_units hu).trans hs) cause

/-! ### Row by row -/

theorem memoryBack_held {s : State} (h : s.standbyHeld = true) (hself : s.pmc.st ≠ .selfRefresh) (hentry : s.pmc.st ≠ .srEntry) :
    s.memoryBack.standbyHeld = true := by
  unfold State.memoryBack
  split
  · exact finishAbandon_held h hself hentry
  · exact finishLeaving_held h hself hentry
  all_goals exact h

theorem running_held {s : State} (h : s.standbyHeld = true) : (s.setPmc { s.pmc with st := .running }).standbyHeld = true :=
  (standbyHeld_iff _).mpr ⟨((standbyHeld_iff s).mp h).1, fun h => PmcState.noConfusion h, fun h => PmcState.noConfusion h⟩

theorem coldStart_held (s : State) (cause : ColdCause) : (s.coldStart cause).standbyHeld = true := by
  unfold State.coldStart State.leaveReset
  split <;> rfl

theorem memoryStart_held {s : State} (h : s.standbyHeld = true) : s.memoryStart.standbyHeld = true := by
  unfold State.memoryStart
  split
  · rw [standbyHeld_iff, State.grantPoint_st]
    exact ⟨((standbyHeld_iff s).mp h).1, fun h => PmcState.noConfusion h, fun h => PmcState.noConfusion h⟩
  · exact h

/-- R154: the entry request is sent with the host clock stopped. -/
theorem memoryEntry_held {s : State} (h : s.standbyHeld = true) (hp : s.clk.power = .entering) (hs : s.clk.entrySent = true) :
    s.memoryEntry.standbyHeld = true := by
  have hlate : s.clk.entrySentOrLater = true := (entrySentOrLater_iff _).mpr (.inl ⟨hp, hs⟩)
  unfold State.memoryEntry
  split
  · exact (standbyHeld_iff _).mpr ⟨.inr hlate, fun _ => hlate, fun _ => ⟨hp, hs⟩⟩
  · exact h

/-- SET POWER judged outside STANDBY. -/
theorem setPower_held {s : State} (h : s.standbyHeld = true) (hp : s.clk.power ≠ .standby) (tag target : Byte) (snapBack : Bool)
    (ratio wakeTimer : Half) :
    Meets (fun t => t.standbyHeld = true)
      (exec (.setPower tag target snapBack ratio wakeTimer) (s.given (.setPower tag target snapBack ratio wakeTimer))) := by
  have done : ∀ (u : State) r mark, (u.donePower tag r mark).standbyHeld = u.standbyHeld := fun u r mark =>
    standbyHeld_of_units (by simp [State.donePower])
  simp only [exec, execSetPower, claimCommand_given]
  split
  · exact meets_next.mpr ((done ..).trans h)
  next hopen =>
    have hearly : s.clk.entrySentOrLater = false := by
      rw [← Bool.not_eq_true, entrySentOrLater_iff]
      tauto
    obtain ⟨hhost, hself, hentry⟩ := awake_of_held h hearly
    split
    · exact meets_next.mpr ((done ..).trans (standbyHeld_of_running hhost hself hentry))
    · exact meets_next.mpr ((done ..).trans (standbyHeld_of_running hhost hself hentry))
    · split
      · exact meets_next.mpr ((done ..).trans h)
      · refine meets_next.mpr ?_
        rw [beginEntry_eq]
        have hcore : ∀ u : State, (u.donePower tag .done .standby).pmc.st = u.pmc.st := fun u =>
          st_of_core (by simp [State.donePower])
        exact standbyHeld_of_running hhost (by simpa [hcore] using hself) (by simpa [hcore] using hentry)
    · exact meets_next.mpr ((done ..).trans h)

/-- A row of a cold start that begins none leaves the stages and memory's state alone. -/
theorem coldRow_stage {i : Instr} (hi : coldRow i) (s : State) :
    Meets (fun t => (∃ (u : State) (cause : ColdCause), t = u.coldStart cause)
      ∨ (t.clk.stage = s.clk.stage ∧ t.pmc.core = s.pmc.core)) (exec i s) := by
  cases i
  all_goals try (cases hi; done)
  case powerOnDetect => exact meets_next.mpr (.inl ⟨_, _, rfl⟩)
  case resetPinLow => exact meets_ite (fun _ => meets_next.mpr (.inl ⟨_, _, rfl⟩)) (fun _ => meets_next.mpr (.inr ⟨rfl, rfl⟩))
  case responsePutAcknowledged =>
    simp only [exec, execResponsePutAcknowledged]
    split
    · refine meets_ite (fun _ => ?_) (fun _ => meets_next.mpr (.inr ⟨rfl, rfl⟩))
      split
      · exact meets_next.mpr (.inr ⟨rfl, rfl⟩)
      · exact meets_next.mpr (.inl ⟨_, _, rfl⟩)
      · refine meets_next.mpr (.inr ⟨?_, State.standbyWritten_core _⟩)
        unfold State.standbyWritten
        dsimp only
        split <;> rfl
      · have hbase := State.pageScannedWritten_base
        exact meets_next.mpr (.inr ⟨congrArg (fun b : Base => b.clk.stage) (hbase _), congrArg Base.core (hbase _)⟩)
    · exact meets_ite (fun _ => meets_next.mpr (.inl ⟨_, _, rfl⟩)) (fun _ => meets_next.mpr (.inr ⟨rfl, rfl⟩))

theorem exec_held {i : Instr} {s : State} (h : s.standbyHeld = true)
    (hpower : s.clk.power = .standby → ∀ tag target snapBack ratio wakeTimer, i ≠ .setPower tag target snapBack ratio wakeTimer) :
    Meets (fun t => t.standbyHeld = true) (exec i s) := by
  by_cases hm : movesUnits i = false
  · exact fun t ht => (standbyHeld_of_units (exec_units hm s t ht)).trans h
  have same : ∀ {t : State}, t.clk.stage = s.clk.stage → t.pmc.core = s.pmc.core → t.standbyHeld = true := fun hc hp =>
    (standbyHeld_of_stage hc (st_of_core hp)).trans h
  have view := (standbyHeld_iff s).mp h
  cases i
  all_goals try (exact absurd rfl hm)
  case burstEnter | accessEnd | refreshEnd | refreshTimerExpiry | closeTimerExpiry =>
    exact fun t ht => (standbyHeld_of_stage (congrArg _ (exec_clk rfl s t ht)) (exec_st rfl Instr.noConfusion s t ht)).trans h
  case selfRefreshEntry =>
    refine meets_ite (fun hmay => meets_next.mpr ?_) (fun _ => meets_next.mpr h)
    have hst : s.pmc.st = .srEntry := by
      simp only [Pmc.maySelfRefresh, Bool.and_eq_true, beq_iff_eq] at hmay
      exact hmay.1.1.1.1
    have hlate : s.clk.entrySentOrLater = true := (entrySentOrLater_iff _).mpr (.inl (view.2.2 hst))
    exact (standbyHeld_iff _).mpr ⟨.inr hlate, fun _ => hlate, fun h => PmcState.noConfusion h⟩
  case ringEdge => exact fun t ht => woken_held h (execRingEdge_woken s t ht)
  case debounceExpiry input => exact fun t ht => woken_held h (execDebounceExpiry_woken s input t ht)
  case conversionComplete raw =>
    intro t ht
    obtain ⟨u, hu, ht | ht⟩ := execConversionComplete_woken s raw t ht
    · exact (standbyHeld_of_units ht).trans (woken_held h hu)
    · exact ((standbyHeld_of_units (s := u.dropFastRc) ht).trans (standbyHeld_of_stage (s := u) rfl rfl)).trans (woken_held h hu)
  case setPower tag target snapBack ratio wakeTimer =>
    refine meets_command rfl h ?_
    rintro u rfl
    exact setPower_held (s := u) h (fun hp => hpower hp _ _ _ _ _ rfl) _ _ _ _ _
  case switchClock tag target =>
    refine meets_command rfl h ?_
    rintro u rfl
    simp only [exec, execSwitchClock, claimCommand_given]
    repeat' split
    all_goals exact meets_next.mpr (same (by simp [beginSwitch_stage]) (by simp))
  case standbyTimerExpiry =>
    refine meets_ite (fun _ => ?_) (fun _ => meets_next.mpr h)
    dsimp only
    split
    · exact meets_next.mpr ((standbySweepStart_held _).trans h)
    · exact meets_next.mpr h
    · exact meets_next.mpr h
  case fastRcRunning =>
    refine meets_ite (fun _ => meets_next.mpr ?_) (fun _ => meets_next.mpr h)
    dsimp only
    have hsweep : ∀ u : State, u.standbyHeld = true → (if u.clk.needSense then u.standbySweepStart else u).standbyHeld = true := by
      intro u hu
      split
      · exact (standbySweepStart_held u).trans hu
      · exact hu
    refine hsweep _ ?_
    split
    · exact memoryExit_held (s := s.setClk { s.clk with fastRc := .running, core := .fastRc, needLeave := false }) h
    · exact h
  case wakeTimerExpiry =>
    refine meets_ite (fun _ => meets_next.mpr ?_) (fun _ => meets_next.mpr h)
    exact wake_held (s := s.setClk { s.clk with wakeTimer := false }) h _
  case configRecordRead data =>
    simp only [exec, execConfigRecordRead]
    repeat' split
    · refine meets_next.mpr (memoryStart_held ?_)
      split
      · exact (standbyHeld_of_stage (beginSwitch_stage ..) (st_of_core (State.beginSwitch_core ..))).trans h
      · exact h
    · exact meets_next.mpr h
    · exact meets_next.mpr h
  case refreshBurstDone =>
    refine meets_ite (fun _ => ?_) (fun _ => meets_next.mpr h)
    split
    · refine meets_next.mpr ?_
      split
      · exact (standbyHeld_of_units (State.enterTables_units _)).trans (running_held h)
      · exact running_held h
    · exact meets_next.mpr (memoryBack_held (running_held h) PmcState.noConfusion PmcState.noConfusion)
    all_goals exact meets_next.mpr h
  case hostClockStop =>
    refine meets_ite (fun hc => meets_next.mpr ?_) (fun _ => meets_next.mpr h)
    refine memoryEntry_held (s := s.setClk { s.clk with hostClk := false, entrySent := true }) ?_ hc.1 rfl
    have hlate : ({ s.clk with hostClk := false, entrySent := true } : ClockPower).entrySentOrLater = true :=
      (entrySentOrLater_iff _).mpr (.inl ⟨hc.1, rfl⟩)
    exact (standbyHeld_iff _).mpr ⟨.inr hlate, fun _ => hlate, fun _ => ⟨hc.1, rfl⟩⟩
  case standbyEntry =>
    refine meets_ite (fun hc => meets_next.mpr ?_) (fun _ => meets_next.mpr h)
    have hst : s.pmc.st = .selfRefresh := hc.2.2.2.1
    refine (standbyHeld_iff _).mpr ⟨.inr rfl, fun _ => rfl, fun h => ?_⟩
    exact PmcState.noConfusion (hst.symm.trans h)
  case powerOnDetect | resetPinLow | responsePutAcknowledged =>
    intro t ht
    obtain ⟨u, cause, rfl⟩ | ⟨hc, hp⟩ := coldRow_stage rfl s t ht
    · exact coldStart_held u cause
    · exact same hc hp
  case settleCountReached =>
    simp only [exec, execSettleCountReached]
    split
    · exact meets_next.mpr (same (crystalReady_stage _ _) (by simp))
    all_goals exact meets_next.mpr h
  case pllLock => exact meets_ite (fun _ => meets_next.mpr (same rfl (by simp))) (fun _ => meets_next.mpr h)
  case startWindowExpiry | lockWindowExpiry =>
    exact meets_ite (fun _ => meets_next.mpr (same (switchFail_stage _ _) (by simp))) (fun _ => meets_next.mpr h)
  case switchComplete =>
    simp only [exec, execSwitchComplete]
    split
    · refine meets_ite (fun _ => meets_next.mpr (same ?_ (by simp))) (fun _ => meets_next.mpr h)
      rw [State.reportSwitch_clk, liftHold_clk]
      exact moveCore_stage ..
    all_goals exact meets_next.mpr h
  case lossWindowExpiry =>
    refine meets_ite (fun _ => meets_ite (fun _ => ?_) (fun _ => ?_)) (fun _ => meets_next.mpr h)
    · exact meets_next.mpr (same (clockFailure_stage s) (by simp))
    · exact meets_next.mpr (same (switchFail_stage s _) (by simp))

end Sys2Proof.Machine

namespace Sys2Proof.Proofs

open Sys2Proof Sys2Proof.Machine

/-- Settles O56: outside STANDBY's stages memory and the host clock run; each row that moves a stage or memory is read on its own. -/
theorem standbyHeldKept : Obligations.StandbyHeldKept := fun _ _ t hpower hs h => exec_held hs hpower t h

end Sys2Proof.Proofs
end

