-- ==== Sys2Proof/Proofs/ResponseRing.lean ====
section
/-! Room in the response ring (R176, R183): what an operation may do to it is to hand cells, and handing cells keeps it. -/

namespace Sys2Proof.Machine

open Sys2Proof

/-- What the room in the response ring is read from. -/
structure Room where
  respPut : Nat
  respTake : Nat
  writing : List RespWriting
  reserved : Nat
  taking : Taking
  reading : Option Nat
  handed : List Instr
  nr : Nat
  boot : BootState

/-- The response ring's room in a state. -/
def State.room (s : State) : Room :=
  ⟨s.cells.respPut, s.cells.respTake, s.cells.writing, s.cells.reserved, s.cells.taking, s.cells.reading, s.cells.handed, s.cfg.nr,
    s.boot.st⟩

/-- R178: the occupancy. -/
def Room.occupancy (x : Room) : Nat := (x.respPut + 2 * x.nr - x.respTake) % (2 * x.nr)

/-- R176, R183: indices in range; occupancy, writing list and reservations fit; nothing taken or held before READY. -/
structure Room.Fits (x : Room) : Prop where
  put : x.respPut < 2 * x.nr
  take : x.respTake < 2 * x.nr
  sum : x.occupancy + x.writing.length + x.reserved ≤ x.nr
  empty : x.taking = .notStarted → x.respPut = 0 ∧ x.respTake = 0 ∧ x.writing = [] ∧ x.reserved = 0 ∧ x.reading = none
    ∧ x.handed = []
  early : x.boot ≠ .ready → x.taking = .notStarted

theorem responseRoom_iff (s : State) : s.responseRoom ↔ s.room.Fits :=
  ⟨fun ⟨hp, ht, hs, he, hb⟩ => ⟨hp, ht, hs, he, hb⟩, fun ⟨hp, ht, hs, he, hb⟩ => ⟨hp, ht, hs, he, hb⟩⟩

/-! ### Handing cells -/

@[simp] theorem State.writeSummary_room (s : State) : s.writeSummary.room = s.room := by unfold State.room; rfl

@[simp] theorem State.recordLost_room (s : State) (k : Kind) : (s.recordLost k).room = s.room := by
  unfold State.recordLost
  dsimp only
  split <;> rfl

@[simp] theorem State.writeSnapshot_room (s : State) : s.writeSnapshot.room = s.room := by unfold State.room; rfl

@[simp] theorem State.snapshotDue_room (s : State) : s.snapshotDue.room = s.room := by
  rw [snapshotDue_eq]
  split_ifs <;> rfl

/-- An event takes a slot only where one is free and not reserved. -/
@[simp] theorem State.handEvent_room {s : State} (h : s.room.Fits) (k : Kind) (tag : Byte) (r : Result) (fields : List Byte)
    (mark : CellMark) : (s.handEvent k tag r fields mark).room.Fits := by
  unfold State.handEvent
  split
  · exact h
  next hstarted =>
    split
    next hfree =>
      have hfree : 0 < s.cfg.nr - s.room.occupancy - s.cells.writing.length - s.cells.reserved := hfree
      have hsum : s.room.occupancy + s.cells.writing.length + s.cells.reserved ≤ s.cfg.nr := h.sum
      refine ⟨h.put, h.take, ?_, fun hn => absurd hn hstarted, h.early⟩
      show s.room.occupancy + (s.cells.writing ++ [_]).length + s.cells.reserved ≤ s.cfg.nr
      rw [List.length_append, List.length_singleton]
      omega
    · rwa [State.recordLost_room]

/-- A DONE takes the slot reserved for it. -/
@[simp] theorem State.handDone_room {s : State} (h : s.room.Fits) (tag : Byte) (code : Nat) (r : Result) (detail : List Byte)
    (mark : CellMark) : (s.handDone tag code r detail mark).room.Fits := by
  unfold State.handDone
  split
  · exact h
  next hopen =>
    have hsum : s.room.occupancy + s.cells.writing.length + s.cells.reserved ≤ s.cfg.nr := h.sum
    refine ⟨h.put, h.take, ?_, fun hn => absurd (.inl hn) hopen, h.early⟩
    show s.room.occupancy + (s.cells.writing ++ [_]).length + (s.cells.reserved - 1) ≤ s.cfg.nr
    rw [List.length_append, List.length_singleton]
    omega

/-! ### Operations that hand no cell, and those that hand some -/

@[simp] theorem State.setLink_room (s : State) (x : Link) : (s.setLink x).room = s.room := by
  unfold State.room; rfl

@[simp] theorem State.setScan_room (s : State) (x : Scan) : (s.setScan x).room = s.room := by
  unfold State.room; rfl

@[simp] theorem State.setPrint_room (s : State) (x : Print) : (s.setPrint x).room = s.room := by
  unfold State.room; rfl

@[simp] theorem State.setDoc_room (s : State) (x : Channel) : (s.setDoc x).room = s.room := by
  unfold State.room; rfl

@[simp] theorem State.setPaper_room (s : State) (x : Channel) : (s.setPaper x).room = s.room := by
  unfold State.room; rfl

@[simp] theorem State.setRings_room (s : State) (x : Rings) : (s.setRings x).room = s.room := by
  unfold State.room; rfl

@[simp] theorem State.setSense_room (s : State) (x : Sense) : (s.setSense x).room = s.room := by
  unfold State.room; rfl

@[simp] theorem State.setLines_room (s : State) (x : LineInputs) : (s.setLines x).room = s.room := by
  unfold State.room; rfl

@[simp] theorem State.setClk_room (s : State) (x : ClockPower) : (s.setClk x).room = s.room := by
  unfold State.room; rfl

@[simp] theorem State.setChan_room (s : State) (c : Chan) (x : Channel) : (s.setChan c x).room = s.room := by
  unfold State.setChan; split <;> rfl

@[simp] theorem State.setRing_room (s : State) (r : RingId) (x : Ring) : (s.setRing r x).room = s.room := by
  unfold State.room; rfl

@[simp] theorem State.offer_room (s : State) (bs : List Burst) : (s.offer bs).room = s.room := by
  unfold State.room; rfl

@[simp] theorem State.issueRead_room (s : State) (cls : MemClass) (req : Req) (address len : Nat) : (s.issueRead cls req address len).room = s.room := by
  unfold State.room; rfl

@[simp] theorem State.issueWrite_room (s : State) (cls : MemClass) (req : Req) (address : Nat) (data : List Half) : (s.issueWrite cls req address data).room = s.room := by
  unfold State.room; rfl

@[simp] theorem State.writeWord_room (s : State) (cls : MemClass) (offset value : Nat) : (s.writeWord cls offset value).room = s.room := by
  unfold State.room; rfl

@[simp] theorem State.takeOne_room (s : State) (q : Req) : (s.takeOne q).room = s.room := by
  unfold State.room; rfl

@[simp] theorem State.takeAll_room (s : State) (q : Req) : (s.takeAll q).room = s.room := by
  unfold State.room; rfl

@[simp] theorem State.claimSlot_room (s : State) (r : RingId) (d : RingDesc) (tag : Tag) (words : List Word) (buf : Option BufId) : (s.claimSlot r d tag words buf).room = s.room := by
  unfold State.room; rfl

@[simp] theorem State.publish_room (s : State) (r : RingId) (d : RingDesc) : (s.publish r d).room = s.room := by
  unfold State.room; rfl

@[simp] theorem State.acknowledgeSlot_room (s : State) (r : RingId) (d : RingDesc) (c : Claim) (rest : List Claim) : (s.acknowledgeSlot r d c rest).room = s.room := by
  unfold State.acknowledgeSlot; dsimp only
  repeat' split
  all_goals rfl

@[simp] theorem State.askPageEnd_room (s : State) (r : RingId) (lostTail : Bool) : (s.askPageEnd r lostTail).room = s.room := by
  unfold State.askPageEnd; split <;> rfl

@[simp] theorem State.beginPageEnd_room (s : State) (r : RingId) (d : RingDesc) : (s.beginPageEnd r d).room = s.room := by
  unfold State.beginPageEnd; dsimp only
  repeat' split
  all_goals rfl

@[simp] theorem State.finishPageEnd_room (s : State) (r : RingId) (d : RingDesc) : (s.finishPageEnd r d).room = s.room := by
  unfold State.room; rfl

@[simp] theorem State.releaseTake_room (s : State) (r : RingId) (n : Nat) : (s.releaseTake r n).room = s.room := by
  unfold State.releaseTake; dsimp only
  repeat' split
  all_goals rfl

@[simp] theorem State.attachProducer_room (s : State) (r : RingId) (on : Bool) : (s.attachProducer r on).room = s.room := by
  unfold State.room; rfl

@[simp] theorem State.attachConsumer_room (s : State) (r : RingId) (on : Bool) : (s.attachConsumer r on).room = s.room := by
  unfold State.room; rfl

@[simp] theorem State.installRing_room (s : State) (r : RingId) (d : RingDesc) : (s.installRing r d).room = s.room := by
  unfold State.room; rfl

@[simp] theorem State.ringFault_room {s : State} (h : s.room.Fits) (r : RingId) (index : Nat) (written held : Nat) : (s.ringFault r index written held).room.Fits := by
  simp [State.ringFault, h]

@[simp] theorem State.stopBoth_room (s : State) (cause : StopCause) : (s.stopBoth cause).room = s.room := by
  unfold State.room; rfl

@[simp] theorem State.reportHostEnd_room {s : State} (h : s.room.Fits) (ch : Chan) (c : Channel) (cause : EndCause) : (s.reportHostEnd ch c cause).room.Fits := by
  simp [State.reportHostEnd, h]

@[simp] theorem State.handPageScanned_room {s : State} (h : s.room.Fits) (mark : CellMark) : (s.handPageScanned mark).room.Fits := by
  simp [State.handPageScanned, h]

@[simp] theorem State.scanOff_room (s : State) : (s.scanOff).room = s.room := by
  unfold State.room; rfl

@[simp] theorem State.scanTryOff_room (s : State) : (s.scanTryOff).room = s.room := by
  unfold State.scanTryOff; split <;> rfl

@[simp] theorem State.scanCheckMargin_room (s : State) : (s.scanCheckMargin).room = s.room := by
  unfold State.scanCheckMargin; dsimp only
  repeat' split
  all_goals rfl

@[simp] theorem State.scanRestart_room (s : State) : (s.scanRestart).room = s.room := by
  unfold State.scanRestart; dsimp only
  repeat' split
  all_goals rfl

@[simp] theorem State.linkStream_room {s : State} (h : s.room.Fits) : (s.linkStream).room.Fits := by
  simp [State.linkStream, h]

@[simp] theorem State.linkDropReads_room (s : State) : (s.linkDropReads).room = s.room := by
  unfold State.room; rfl

@[simp] theorem State.linkDetachSource_room (s : State) : (s.linkDetachSource).room = s.room := by
  unfold State.room; rfl

@[simp] theorem State.abandonClaims_room (s : State) (r : RingId) : (s.abandonClaims r).room = s.room := by
  unfold State.room; rfl

@[simp] theorem State.linkEmit_room (s : State) : (s.linkEmit).room = s.room := by
  unfold State.linkEmit; dsimp only
  repeat' split
  all_goals rfl

@[simp] theorem State.printStream_room {s : State} (h : s.room.Fits) : (s.printStream).room.Fits := by
  simp [State.printStream, h]

@[simp] theorem State.finalStream_room {s : State} (h : s.room.Fits) (r : PrintReason) : (s.finalStream r).room.Fits := by
  simp [State.finalStream, h]

@[simp] theorem State.setUrgent_room (s : State) (on : Bool) : (s.setUrgent on).room = s.room := by
  unfold State.room; rfl

@[simp] theorem State.enterPrint_room (s : State) (st : PrintState) : (s.enterPrint st).room = s.room := by
  unfold State.enterPrint; split <;> rfl

@[simp] theorem State.printWake_room (s : State) : (s.printWake).room = s.room := by
  unfold State.printWake; split <;> rfl

@[simp] theorem State.printGoOn_room (s : State) (resumed : Bool) : (s.printGoOn resumed).room = s.room := by
  unfold State.printGoOn; dsimp only
  repeat' split
  all_goals rfl

@[simp] theorem State.paperMove_room (s : State) (steps : Nat) : (s.paperMove steps).room = s.room := by
  unfold State.room; rfl

@[simp] theorem State.beginPrint_room (s : State) (p : PrintParams) : (s.beginPrint p).room = s.room := by
  unfold State.room; rfl

@[simp] theorem State.stopPrint_room (s : State) : (s.stopPrint).room = s.room := by
  unfold State.stopPrint; dsimp only
  repeat' split
  all_goals rfl

@[simp] theorem State.printCut_room (s : State) (reason : PrintReason) : (s.printCut reason).room = s.room := by
  unfold State.printCut; dsimp only
  repeat' split
  all_goals rfl

@[simp] theorem State.fetchWordsOf_room (s : State) (d : RingDesc) (slot : Nat) (tag : Tag) : (s.fetchWordsOf d slot tag).room = s.room := by
  unfold State.room; rfl

@[simp] theorem State.requestAdvance_room (s : State) (h : HeadLine) : (s.requestAdvance h).room = s.room := by
  unfold State.room; rfl

@[simp] theorem State.latch_room (s : State) : (s.latch).room = s.room := by
  unfold State.latch; dsimp only
  repeat' split
  all_goals rfl

@[simp] theorem State.placeHold_room (s : State) : (s.placeHold).room = s.room := by
  unfold State.room; rfl

@[simp] theorem State.liftHold_room (s : State) : (s.liftHold).room = s.room := by
  unfold State.room; rfl

@[simp] theorem State.abandonSweep_room (s : State) : (s.abandonSweep).room = s.room := by
  unfold State.room; rfl

@[simp] theorem State.startPeriod_room (s : State) : (s.startPeriod).room = s.room := by
  unfold State.room; rfl

@[simp] theorem State.grantPoint_room (s : State) : (s.grantPoint).room = s.room := by
  unfold State.room; rfl

@[simp] theorem State.memoryStart_room (s : State) : (s.memoryStart).room = s.room := by
  unfold State.memoryStart; split <;> rfl

@[simp] theorem State.memoryEntry_room (s : State) : (s.memoryEntry).room = s.room := by
  unfold State.memoryEntry; split <;> rfl

@[simp] theorem State.memoryWithdraw_room (s : State) : (s.memoryWithdraw).room = s.room := by
  unfold State.memoryWithdraw; split <;> rfl

@[simp] theorem State.memoryExit_room (s : State) : (s.memoryExit).room = s.room := by
  unfold State.memoryExit; split <;> rfl

@[simp] theorem State.snoop_room (s : State) (b : Burst) : (s.snoop b).room = s.room := by
  unfold State.snoop; dsimp only
  repeat' split
  all_goals rfl

@[simp] theorem State.clockCell_room {s : State} (h : s.room.Fits) (tag : Byte) (r : Result) (origin : Origin) (code : ClockCode) (target : Option Source) : (s.clockCell tag r origin code target).room.Fits := by
  simp [State.clockCell, h]

@[simp] theorem State.enterWaitQuiet_room (s : State) : (s.enterWaitQuiet).room = s.room := by
  unfold State.room; rfl

@[simp] theorem State.crystalStart_room (s : State) : (s.crystalStart).room = s.room := by
  unfold State.room; rfl

@[simp] theorem State.pllStart_room (s : State) : (s.pllStart).room = s.room := by
  unfold State.room; rfl

@[simp] theorem State.crystalReady_room (s : State) (target : Source) : (s.crystalReady target).room = s.room := by
  unfold State.crystalReady; split <;> rfl

@[simp] theorem State.wakeCell_room {s : State} (h : s.room.Fits) (cause : WakeCause) (fromState : PowerState) (abandoned : Bool) : (s.wakeCell cause fromState abandoned).room.Fits := by
  simp [State.wakeCell, h]

@[simp] theorem State.releaseMotors_room (s : State) : (s.releaseMotors).room = s.room := by
  unfold State.room; rfl

@[simp] theorem State.undoRelease_room (s : State) : (s.undoRelease).room = s.room := by
  unfold State.room; rfl

@[simp] theorem State.donePower_room {s : State} (h : s.room.Fits) (tag : Byte) (r : Result) (mark : CellMark) : (s.donePower tag r mark).room.Fits := by
  simp [State.donePower, h]

@[simp] theorem State.senseCell_room {s : State} (h : s.room.Fits) (position : Nat) (e : SenseEntry) (before after : Zone) (reading : Nat) : (s.senseCell position e before after reading).room.Fits := by
  simp [State.senseCell, h]

@[simp] theorem State.dropFastRc_room (s : State) : (s.dropFastRc).room = s.room := by
  unfold State.room; rfl

@[simp] theorem State.lineCell_room {s : State} (h : s.room.Fits) (k : Kind) (fields : List Byte) : (s.lineCell k fields).room.Fits := by
  unfold State.lineCell; split <;> simp [h]

@[simp] theorem State.cellFault_room {s : State} (h : s.room.Fits) (ring index written held : Nat) : (s.cellFault ring index written held).room.Fits := by
  simp [State.cellFault, h]

@[simp] theorem State.standbyWritten_room (s : State) : (s.standbyWritten).room = s.room := by
  unfold State.standbyWritten; dsimp only
  repeat' split
  all_goals rfl

@[simp] theorem State.startMove_room (s : State) (c : Chan) (requester : Owner) (dir : Direction) (profile : Fin 8) (steps : Option Nat) (tag : Byte) : (s.startMove c requester dir profile steps tag).room = s.room := by
  simp [State.startMove]

@[simp] theorem State.stopMove_room (s : State) (c : Chan) (cause : StopCause) : (s.stopMove c cause).room = s.room := by
  simp [State.stopMove]

@[simp] theorem State.scanPageEndComplete_room {s : State} (h : s.room.Fits) : (s.scanPageEndComplete).room.Fits := by
  simp [State.scanPageEndComplete, h]

@[simp] theorem State.calFinish_room {s : State} (h : s.room.Fits) : (s.calFinish).room.Fits := by
  simp [State.calFinish, h]

@[simp] theorem State.scanFreed_room (s : State) (r : RingId) : (s.scanFreed r).room = s.room := by
  unfold State.scanFreed; split <;> simp

@[simp] theorem State.startCapture_room (s : State) : (s.startCapture).room = s.room := by
  simp [State.startCapture]

@[simp] theorem State.scanClaim_room (s : State) (i : BufId) (words : List Word) (black : Nat) : (s.scanClaim i words black).room = s.room := by
  unfold State.scanClaim; dsimp only
  repeat' split
  all_goals simp

@[simp] theorem State.linkTryOff_room {s : State} (h : s.room.Fits) : (s.linkTryOff).room.Fits := by
  unfold State.linkTryOff; dsimp only
  repeat' split
  all_goals simp [h]

@[simp] theorem State.linkEmitOrWait_room (s : State) : (s.linkEmitOrWait).room = s.room := by
  unfold State.linkEmitOrWait; split <;> simp

@[simp] theorem State.linkSlotAcknowledged_room (s : State) : (s.linkSlotAcknowledged).room = s.room := by
  unfold State.linkSlotAcknowledged; dsimp only
  repeat' split
  all_goals simp

@[simp] theorem State.linkUnendedPage_room (s : State) (t : Tag) : (s.linkUnendedPage t).room = s.room := by
  unfold State.linkUnendedPage; dsimp only
  repeat' split
  all_goals simp

@[simp] theorem State.pagePrinted_room {s : State} (h : s.room.Fits) (endMark : Bool) : (s.pagePrinted endMark).room.Fits := by
  simp [State.pagePrinted, h]

@[simp] theorem State.enterPause_room {s : State} (h : s.room.Fits) (r : PrintReason) : (s.enterPause r).room.Fits := by
  simp [State.enterPause, h]

@[simp] theorem State.enterHot_room {s : State} (h : s.room.Fits) : (s.enterHot).room.Fits := by
  simp [State.enterHot, h]

@[simp] theorem State.decideWindow_room (s : State) (d : RingDesc) (slot : Nat) (tags : List Tag) : (s.decideWindow d slot tags).room = s.room := by
  unfold State.decideWindow; dsimp only
  repeat' split
  all_goals simp

@[simp] theorem State.printHeadCool_room {s : State} (h : s.room.Fits) : (s.printHeadCool).room.Fits := by
  unfold State.printHeadCool; dsimp only
  repeat' split
  all_goals simp [h]

@[simp] theorem State.scanMoveEnd_room (s : State) : (s.scanMoveEnd).room = s.room := by
  simp [State.scanMoveEnd]

@[simp] theorem State.sweepStart_room (s : State) : (s.sweepStart).room = s.room := by
  unfold State.sweepStart; dsimp only
  repeat' split
  all_goals simp

@[simp] theorem State.reportSwitch_room {s : State} (h : s.room.Fits) (w : Switch) (r : Result) (code : ClockCode) : (s.reportSwitch w r code).room.Fits := by
  unfold State.reportSwitch; dsimp only
  repeat' split
  all_goals simp [h]

@[simp] theorem State.beginSwitch_room (s : State) (target : Source) (origin : Origin) (tag : Byte) : (s.beginSwitch target origin tag).room = s.room := by
  unfold State.beginSwitch; dsimp only
  repeat' split
  all_goals simp

@[simp] theorem State.finishAbandon_room {s : State} (h : s.room.Fits) : (s.finishAbandon).room.Fits := by
  unfold State.finishAbandon; split <;> simp [h]

@[simp] theorem State.leaveOnFastRc_room (s : State) : (s.leaveOnFastRc).room = s.room := by
  simp [State.leaveOnFastRc]

@[simp] theorem State.beginEntry_room {s : State} (h : s.room.Fits) (tag : Byte) (wakeTimer : Nat) : (s.beginEntry tag wakeTimer).room.Fits := by
  simp [State.beginEntry, h]

@[simp] theorem State.pageScannedWritten_room (s : State) : (s.pageScannedWritten).room = s.room := by
  unfold State.pageScannedWritten; split <;> simp

@[simp] theorem State.scanPageEnd_room {s : State} (h : s.room.Fits) (reason : ScanReason) : (s.scanPageEnd reason).room.Fits := by
  unfold State.scanPageEnd; dsimp only
  repeat' split
  all_goals simp [h]

@[simp] theorem State.calCut_room {s : State} (h : s.room.Fits) (reason : ScanReason) : (s.calCut reason).room.Fits := by
  unfold State.calCut; dsimp only
  repeat' split
  all_goals simp [h]

@[simp] theorem State.releaseSlots_room (s : State) (r : RingId) (n : Nat) : (s.releaseSlots r n).room = s.room := by
  simp [State.releaseSlots]

@[simp] theorem State.docEdgeHigh_room (s : State) : (s.docEdgeHigh).room = s.room := by
  unfold State.docEdgeHigh; split <;> simp

@[simp] theorem State.beginScan_room (s : State) (p : ScanParams) (edge : Bool) : (s.beginScan p edge).room = s.room := by
  unfold State.beginScan; dsimp only
  repeat' split
  all_goals simp

@[simp] theorem State.linkReadsAbandoned_room {s : State} (h : s.room.Fits) : (s.linkReadsAbandoned).room.Fits := by
  unfold State.linkReadsAbandoned; split <;> simp [h]

@[simp] theorem State.linkEnd_room {s : State} (h : s.room.Fits) (abort : Bool) : (s.linkEnd abort).room.Fits := by
  unfold State.linkEnd; dsimp only
  repeat' split
  all_goals simp [h]

@[simp] theorem State.linkPageEndComplete_room {s : State} (h : s.room.Fits) : (s.linkPageEndComplete).room.Fits := by
  unfold State.linkPageEndComplete; dsimp only
  repeat' split
  all_goals simp [h]

@[simp] theorem State.closeUnterminated_room {s : State} (h : s.room.Fits) (pageStart : Bool) : (s.closeUnterminated pageStart).room.Fits := by
  unfold State.closeUnterminated; split <;> simp [h]

@[simp] theorem State.printPaperLow_room {s : State} (h : s.room.Fits) : (s.printPaperLow).room.Fits := by
  unfold State.printPaperLow; dsimp only
  repeat' split
  all_goals simp [h]

@[simp] theorem State.printHeadHot_room {s : State} (h : s.room.Fits) : (s.printHeadHot).room.Fits := by
  unfold State.printHeadHot; dsimp only
  repeat' split
  all_goals simp [h]

@[simp] theorem State.printCoverHigh_room {s : State} (h : s.room.Fits) : (s.printCoverHigh).room.Fits := by
  unfold State.printCoverHigh; dsimp only
  repeat' split
  all_goals simp [h]

@[simp] theorem State.pausePrint_room {s : State} (h : s.room.Fits) : (s.pausePrint).room.Fits := by
  unfold State.pausePrint; dsimp only
  repeat' split
  all_goals simp [h]

@[simp] theorem State.sweepEnded_room (s : State) : (s.sweepEnded).room = s.room := by
  unfold State.sweepEnded; dsimp only
  repeat' split
  all_goals simp

@[simp] theorem State.switchFail_room {s : State} (h : s.room.Fits) (code : ClockCode) : (s.switchFail code).room.Fits := by
  simp [State.switchFail, h]

@[simp] theorem State.beginLeaving_room (s : State) : (s.beginLeaving).room = s.room := by
  unfold State.beginLeaving; dsimp only
  repeat' split
  all_goals simp

@[simp] theorem State.finishLeaving_room {s : State} (h : s.room.Fits) : (s.finishLeaving).room.Fits := by
  unfold State.finishLeaving; dsimp only
  repeat' split
  all_goals simp [h]

@[simp] theorem State.scanCut_room {s : State} (h : s.room.Fits) (reason : ScanReason) : (s.scanCut reason).room.Fits := by
  unfold State.scanCut; split <;> simp [h]

@[simp] theorem State.scanCloseIfIdle_room {s : State} (h : s.room.Fits) : (s.scanCloseIfIdle).room.Fits := by
  unfold State.scanCloseIfIdle; split <;> simp [h]

@[simp] theorem State.linkStopAll_room {s : State} (h : s.room.Fits) : (s.linkStopAll).room.Fits := by
  unfold State.linkStopAll; split <;> simp [h]

@[simp] theorem State.pageEndComplete_room {s : State} (h : s.room.Fits) (d : RingDesc) : (s.pageEndComplete d).room.Fits := by
  unfold State.pageEndComplete; split <;> simp [h]

@[simp] theorem State.normalSweepEnd_room (s : State) : (s.normalSweepEnd).room = s.room := by
  simp [State.normalSweepEnd]

@[simp] theorem State.standbySweepEnd_room (s : State) : (s.standbySweepEnd).room = s.room := by
  simp [State.standbySweepEnd]

@[simp] theorem State.scanTriggerPosition_room {s : State} (h : s.room.Fits) : (s.scanTriggerPosition).room.Fits := by
  unfold State.scanTriggerPosition; dsimp only
  repeat' split
  all_goals simp [h]

@[simp] theorem State.closeAtEdge_room {s : State} (h : s.room.Fits) : (s.closeAtEdge).room.Fits := by
  unfold State.closeAtEdge; dsimp only
  repeat' split
  all_goals simp [h]

@[simp] theorem State.waitingPageEnd_room {s : State} (h : s.room.Fits) (r : RingId) (d : RingDesc) : (s.waitingPageEnd r d).room.Fits := by
  unfold State.waitingPageEnd; dsimp only
  repeat' split
  all_goals simp [h]

@[simp] theorem State.standbySweepStart_room (s : State) : (s.standbySweepStart).room = s.room := by
  unfold State.standbySweepStart; dsimp only
  repeat' split
  all_goals simp

@[simp] theorem State.scanDocStep_room {s : State} (h : s.room.Fits) : (s.scanDocStep).room.Fits := by
  unfold State.scanDocStep; dsimp only
  repeat' split
  all_goals simp [h]

@[simp] theorem State.docEdgeLow_room {s : State} (h : s.room.Fits) : (s.docEdgeLow).room.Fits := by
  unfold State.docEdgeLow; dsimp only
  repeat' split
  all_goals simp [h]

@[simp] theorem State.reportStep_room {s : State} (h : s.room.Fits) (ch : Chan) : (s.reportStep ch).room.Fits := by
  unfold State.reportStep; split <;> simp [h]

/-! ### What decides by more than one cell -/

theorem takePending_room {s : State} (h : s.room.Fits) {goOn : State → State}
    (hgo : ∀ u : State, u.room.Fits → (goOn u).room.Fits) : (s.takePending goOn).room.Fits := by
  unfold State.takePending; dsimp only
  split
  · simp [h]
  · split
    · simp [h]
    · split
      · simp [h]
      · exact hgo _ (by simp [h])

@[simp] theorem State.feedEnd_room {s : State} (h : s.room.Fits) : s.feedEnd.room.Fits := by
  unfold State.feedEnd; dsimp only
  split
  · simp [h]
  · exact takePending_room (by simp [h]) fun u hu => by simp [hu]

@[simp] theorem State.pageEnds_room {s : State} (h : s.room.Fits) : s.pageEnds.room.Fits := by
  unfold State.pageEnds; dsimp only
  repeat' split
  all_goals simp [h]

@[simp] theorem State.itemFollow_room {s : State} (h : s.room.Fits) (resumed : Bool) : (s.itemFollow resumed).room.Fits := by
  unfold State.itemFollow
  split
  · exact h
  · exact takePending_room h fun u hu => by simp [hu]

@[simp] theorem State.lineDone_room {s : State} (hs : s.room.Fits) (h : HeadLine) (resumed : Bool) :
    (s.lineDone h resumed).room.Fits := by
  unfold State.lineDone; dsimp only
  split <;> simp [hs]

@[simp] theorem State.slewEnd_room {s : State} (h : s.room.Fits) (w : Slew) (n : Nat) (resumed : Bool) :
    (s.slewEnd w n resumed).room.Fits := by
  unfold State.slewEnd; dsimp only
  split <;> simp [h]

@[simp] theorem State.completeItem_room {s : State} (h : s.room.Fits) (item : Item) (resumed : Bool) :
    (s.completeItem item resumed).room.Fits := by
  unfold State.completeItem; dsimp only
  split <;> simp [h]

@[simp] theorem State.beginOwed_room {s : State} (h : s.room.Fits) (item : Item) : (s.beginOwed item).room.Fits := by
  unfold State.beginOwed; dsimp only
  split <;> simp [h]

@[simp] theorem State.endItem_room {s : State} (h : s.room.Fits) (item : Item) (notTaken : Nat) :
    (s.endItem item notTaken).room.Fits := by
  unfold State.endItem; dsimp only
  split <;> simp [h]

@[simp] theorem State.endingMoveEnd_room {s : State} (h : s.room.Fits) (item : Item) (notTaken : Nat) :
    (s.endingMoveEnd item notTaken).room.Fits := by
  unfold State.endingMoveEnd; dsimp only
  repeat' split
  all_goals simp [h]

@[simp] theorem State.printMoveEnd_room {s : State} (h : s.room.Fits) : s.printMoveEnd.room.Fits := by
  unfold State.printMoveEnd; dsimp only
  repeat' split
  all_goals simp [h]

@[simp] theorem State.issueWindow_room (s : State) (d : RingDesc) (slot n : Nat) : (s.issueWindow d slot n).room = s.room := by
  induction n generalizing s slot with
  | zero => rfl
  | succ n ih => rw [State.issueWindow, ih, State.issueRead_room]

@[simp] theorem State.afterPhase_room {s : State} (hs : s.room.Fits) (h : HeadLine) : (s.afterPhase h).room.Fits := by
  unfold State.afterPhase; dsimp only
  repeat' split
  all_goals simp [hs]

@[simp] theorem State.resumePrint_room {s : State} (h : s.room.Fits) : s.resumePrint.room.Fits := by
  unfold State.resumePrint; dsimp only
  repeat' split
  all_goals simp [h]

@[simp] theorem State.reportEnd_room {s : State} (h : s.room.Fits) (ch : Chan) (cause : EndCause) :
    (s.reportEnd ch cause).room.Fits := by
  unfold State.reportEnd
  split <;> simp [h]

theorem State.emergencyReport_room {s : State} (h : s.room.Fits) (doc paper : Bool) (cause : EndCause) :
    (s.emergencyReport doc paper cause).room.Fits := by
  unfold State.emergencyReport
  cases doc <;> cases paper <;> simp [h]

@[simp] theorem State.emergencyStop_room {s : State} (h : s.room.Fits) (a : ScanReason) (b : PrintReason) (cause : EndCause) :
    (s.emergencyStop a b cause).room.Fits :=
  State.emergencyReport_room (by simp [State.emergencyHold, h]) ..

@[simp] theorem State.slotAcknowledged_room (s : State) (d : RingDesc) (c : Claim) : (s.slotAcknowledged d c).room = s.room := by
  unfold State.slotAcknowledged
  repeat' split
  all_goals simp

@[simp] theorem State.clockFailure_room {s : State} (h : s.room.Fits) : s.clockFailure.room.Fits := by
  refine State.emergencyStop_room (State.clockCell_room ?_ ..) ..
  split
  · exact State.switchFail_room (by simp [h]) _
  · simp [h]

@[simp] theorem State.abandonEntry_room {s : State} (h : s.room.Fits) : s.abandonEntry.room.Fits := by
  unfold State.abandonEntry
  repeat' split
  all_goals simp [h]

@[simp] theorem State.wake_room {s : State} (h : s.room.Fits) (cause : WakeCause) : (s.wake cause).room.Fits := by
  unfold State.wake
  repeat' split
  all_goals simp [h]

@[simp] theorem State.zoneToBlocks_room {s : State} (h : s.room.Fits) (role : Role) (zone : Zone) :
    (s.zoneToBlocks role zone).room.Fits := by
  unfold State.zoneToBlocks
  split <;> simp [h]

@[simp] theorem State.zoneChange_room {s : State} (h : s.room.Fits) (standbySweep : Bool) (position : Nat) (e : SenseEntry)
    (before after : Zone) (reading : Nat) : (s.zoneChange standbySweep position e before after reading).room.Fits := by
  have hblocks : ∀ u : State, u.room.Fits → ∀ c, ((if e.wake then (u.zoneToBlocks e.role after).wake c
      else u.zoneToBlocks e.role after)).room.Fits := fun u hu c => by
    split <;> simp [hu]
  unfold State.zoneChange; dsimp only
  split
  · split <;> simp [h]
  · refine hblocks _ ?_ _
    split
    · exact State.senseCell_room h ..
    · exact h

@[simp] theorem State.convertEntry_room {s : State} (h : s.room.Fits) (standbySweep : Bool) (position raw : Nat) :
    (s.convertEntry standbySweep position raw).room.Fits := by
  unfold State.convertEntry; dsimp only
  repeat' split
  all_goals simp [h]

@[simp] theorem State.sweepFrom_room (s : State) (standbySweep : Bool) (p : Nat) : (s.sweepFrom standbySweep p).room = s.room := by
  unfold State.sweepFrom
  repeat' split
  all_goals simp

@[simp] theorem State.burstQualifies_room {s : State} (h : s.room.Fits) : s.burstQualifies.room.Fits := by
  simp [State.burstQualifies, h]

@[simp] theorem State.debouncedChange_room {s : State} (h : s.room.Fits) (input : InputLine) (high : Bool) :
    (s.debouncedChange input high).room.Fits := by
  unfold State.debouncedChange; dsimp only
  repeat' split
  all_goals simp [h]

@[simp] theorem State.readSource_room (s : State) (source length n : Nat) : (s.readSource source length n).room = s.room := by
  induction n generalizing s source length with
  | zero => rfl
  | succ n ih => rw [State.readSource, ih, State.issueRead_room]

@[simp] theorem State.finishStopAll_room {s : State} (h : s.room.Fits) (x : StopAll) : (s.finishStopAll x).room.Fits := by
  refine State.handDone_room ?_ ..
  rw [State.snapshotDue_room]
  exact h

/-- R179: a command read is handed while the cell unit takes commands. -/
@[simp] theorem State.commandRead_room {s : State} (h : s.room.Fits) : s.commandRead.room.Fits := by
  unfold State.commandRead
  split
  · exact h
  next slot hreading =>
    split
    · have hopen : s.cells.taking ≠ .notStarted := fun hn => by
        have hnone : s.cells.reading = none := (h.empty hn).2.2.2.2.1
        rw [hreading] at hnone
        cases hnone
      exact ⟨h.put, h.take, h.sum, fun hn => absurd hn hopen, h.early⟩
    · exact h

end Sys2Proof.Machine
end

