-- ==== Sys2Proof/Proofs/ResponseRoom.lean ====
section
namespace Sys2Proof.Machine
open Sys2Proof

/-! ### Before READY (R176) -/

/-- The room but for the boot controller's state. -/
def Room.still (x : Room) : Room := { x with boot := .reset }

/-- Before the cell unit takes commands the boot controller's state is free to change. -/
theorem fits_of_still {s t : State} (h : s.room.Fits) (hn : s.cells.taking = .notStarted) (ht : t.room.still = s.room.still) :
    t.room.Fits := by
  obtain ⟨hput, htake, hwriting, hreserved, htaking, hreading, hhanded, hnr⟩ : t.cells.respPut = s.cells.respPut
      ∧ t.cells.respTake = s.cells.respTake ∧ t.cells.writing = s.cells.writing ∧ t.cells.reserved = s.cells.reserved
      ∧ t.cells.taking = s.cells.taking ∧ t.cells.reading = s.cells.reading ∧ t.cells.handed = s.cells.handed
      ∧ t.cfg.nr = s.cfg.nr := by
    simpa [Room.still, State.room] using ht
  have hroom : t.room = { s.room with boot := t.boot.st } := by
    simp only [State.room, hput, htake, hwriting, hreserved, htaking, hreading, hhanded, hnr]
  rw [hroom]
  exact ⟨h.put, h.take, h.sum, h.empty, fun _ => hn⟩

@[simp] theorem State.setBoot_still (s : State) (x : Boot) : (s.setBoot x).room.still = s.room.still := rfl
@[simp] theorem State.setTables_still (s : State) (x : TableStore) : (s.setTables x).room.still = s.room.still := rfl
@[simp] theorem State.setLines_still (s : State) (x : LineInputs) : (s.setLines x).room.still = s.room.still := rfl
@[simp] theorem State.setPmc_still (s : State) (x : Pmc) : (s.setPmc x).room.still = s.room.still := rfl
@[simp] theorem State.takeOne_still (s : State) (q : Req) : (s.takeOne q).room.still = s.room.still := rfl
@[simp] theorem State.spiRead_still (s : State) (a n : Nat) : (s.spiRead a n).room.still = s.room.still := rfl
@[simp] theorem State.bootFail_still (s : State) (code : Nat) : (s.bootFail code).room.still = s.room.still := rfl
@[simp] theorem State.fillLoadArea_still (s : State) (d : List Half) : (s.fillLoadArea d).room.still = s.room.still := rfl
@[simp] theorem State.enterRelease_still (s : State) : s.enterRelease.room.still = s.room.still := by
  unfold State.enterRelease State.beginWatching
  dsimp only
  simp only [State.issueWrite_room]
  rfl

@[simp] theorem State.installTable_still (s : State) (t : TableData) : (s.installTable t).room.still = s.room.still := by
  cases t <;> rfl

@[simp] theorem State.endImageWalk_still (s : State) : s.endImageWalk.room.still = s.room.still := by
  unfold State.endImageWalk
  split <;> simp

@[simp] theorem State.endWalk_still (s : State) : s.endWalk.room.still = s.room.still := by
  unfold State.endWalk; dsimp only
  repeat' split
  all_goals simp

@[simp] theorem State.nextRecord_still (s : State) (len : Nat) : (s.nextRecord len).room.still = s.room.still := by
  unfold State.nextRecord; dsimp only
  split <;> simp

@[simp] theorem State.enterTables_still (s : State) : s.enterTables.room.still = s.room.still := by
  unfold State.enterTables; dsimp only
  split <;> simp

@[simp] theorem State.badTable_still (s : State) (table : Nat) : (s.badTable table).room.still = s.room.still := by
  unfold State.badTable
  split <;> simp

@[simp] theorem State.writeImage_still (s : State) (destination : Nat) (data : List Half) (n : Nat) :
    (s.writeImage destination data n).room.still = s.room.still := by
  induction n generalizing s destination data with
  | zero => rfl
  | succ n ih => rw [State.writeImage, ih]; rfl

@[simp] theorem State.configHeader_still (s : State) (h : RecordHeader) : (s.configHeader h).room.still = s.room.still := by
  unfold State.configHeader
  split <;> simp

@[simp] theorem State.tablesHeader_still (s : State) (h : RecordHeader) : (s.tablesHeader h).room.still = s.room.still := by
  unfold State.tablesHeader
  repeat' split
  all_goals simp

@[simp] theorem State.imageHeader_still (s : State) (h : RecordHeader) (image : List (Option Byte)) :
    (s.imageHeader h image).room.still = s.room.still := by
  unfold State.imageHeader; dsimp only
  repeat' split
  all_goals simp

theorem notStarted_of {s : State} (h : s.room.Fits) {b : BootState} (hb : s.boot.st = b) (hne : b ≠ .ready) :
    s.cells.taking = .notStarted := h.early (show s.boot.st ≠ .ready by rw [hb]; exact hne)

/-- R164: a configuration in range has response slots. -/
theorem nr_pos_of_parseConfig {d : List Half} {c : BoardConfig} (h : parseConfig d = some c) : 0 < c.nr := by
  unfold parseConfig at h
  split at h
  · split at h
    · split at h
      next hr =>
        obtain rfl := Option.some.inj h
        simp only [BoardConfig.inRange, Bool.and_eq_true, decide_eq_true_eq] at hr
        omega
      · cases h
    · cases h
  · cases h

/-- Before the cell unit takes commands a configuration with response slots may come into force. -/
theorem applyConfig_room {s : State} (h : s.room.Fits) (hn : s.cells.taking = .notStarted) {c : BoardConfig} (hc : 0 < c.nr) :
    (s.applyConfig c).room.Fits := by
  have hroom : (s.applyConfig c).room = { s.room with nr := c.nr, boot := .memoryUp } := by
    unfold State.applyConfig; dsimp only
    rw [State.memoryStart_room]
    split
    · rw [State.beginSwitch_room]; rfl
    · rfl
  obtain ⟨hput, htake, hwriting, hreserved, hreading, hhanded⟩ := h.empty hn
  rw [hroom]
  refine ⟨?_, ?_, ?_, h.empty, fun _ => hn⟩
  · show s.room.respPut < 2 * c.nr
    omega
  · show s.room.respTake < 2 * c.nr
    omega
  · show (s.room.respPut + 2 * c.nr - s.room.respTake) % (2 * c.nr) + s.room.writing.length + s.room.reserved ≤ c.nr
    simp [hput, htake, hwriting, hreserved]

theorem coldStart_room (s : State) (cause : ColdCause) : (s.coldStart cause).room.Fits := by
  have hreset : State.reset.room.Fits := ⟨by decide, by decide, by decide, fun _ => ⟨rfl, rfl, rfl, rfl, rfl, rfl⟩, fun _ => rfl⟩
  refine fits_of_still hreset rfl ?_
  unfold State.coldStart State.leaveReset
  split <;> rfl

/-! ### Row by row -/

@[simp] theorem State.setPmc_room (s : State) (x : Pmc) : (s.setPmc x).room = s.room := by unfold State.room; rfl

@[simp] theorem State.setCells_loader_room (s : State) (x : Loader) :
    (s.setCells { s.cells with loader := x }).room = s.room := by unfold State.room; rfl

@[simp] theorem State.setCells_stopAll_room (s : State) (x : Option StopAll) :
    (s.setCells { s.cells with stopAll := x }).room = s.room := by unfold State.room; rfl

@[simp] theorem State.setCells_snapBusy_room (s : State) (x : Bool) :
    (s.setCells { s.cells with snapBusy := x }).room = s.room := by unfold State.room; rfl

@[simp] theorem State.setCells_putWrites_room (s : State) (x : List CellMark) :
    (s.setCells { s.cells with putWrites := x }).room = s.room := by unfold State.room; rfl

/-- Where a host command was given, the cell unit takes commands, and the command's leaving the list changes no room. -/
theorem room_of_given {s : State} {i : Instr} (h : (s.given i).room.Fits) : s.room.Fits ∧ s.cells.taking ≠ .notStarted := by
  have hopen : s.cells.taking ≠ .notStarted := fun hn => by
    have hnil : i :: s.cells.handed = [] := (h.empty hn).2.2.2.2.2
    cases hnil
  exact ⟨⟨h.put, h.take, h.sum, fun hn => absurd hn hopen, h.early⟩, hopen⟩

theorem exec_command_room {i : Instr} {s : State} (hi : (commandCode i).isSome) (h : s.room.Fits) :
    Meets (fun t => t.room.Fits) (exec i s) := by
  refine meets_command hi h ?_
  rintro u rfl
  obtain ⟨hroom, hopen⟩ := room_of_given h
  clear h
  cases i <;> simp only [commandCode, Option.isSome_none, Option.isSome_some, Bool.false_eq_true] at hi
  case loadTable tag table length source =>
    simp only [exec, execLoadTable, claimCommand_given]
    split
    · simp [hroom]
    · refine meets_next.mpr ?_
      rwa [State.readSource_room, State.setCells_loader_room]
  case stopAll tag =>
    simp only [exec, execStopAll, claimCommand_given]
    have hstop : ∀ x, (((((u.setCells { u.cells with stopAll := some x }).stopBoth .stopped).scanCut .aborted).printCut
        .aborted).linkStopAll).room.Fits := fun x => by
      simp only [State.linkStopAll_room, State.printCut_room, State.scanCut_room, State.stopBoth_room,
        State.setCells_stopAll_room, hroom]
    repeat' split
    · simp [hroom]
    · exact meets_next.mpr (State.finishStopAll_room (hstop _) _)
    · exact meets_next.mpr (hstop _)
  case reboot tag =>
    simp only [exec, execReboot, claimCommand_given]
    split
    · simp [hroom]
    · have hstopped : (u.setCells { u.cells with taking := .stopped }).room.Fits :=
        ⟨hroom.put, hroom.take, hroom.sum, (by intro hn; cases hn), fun hb => absurd (hroom.early hb) hopen⟩
      exact meets_next.mpr (State.handDone_room hstopped ..)
  all_goals
    simp only [exec, execSetRing, execStartScan, execStartScanCal, execStopScan, execStartPrint,
      execStopPrint, execPausePrint, execResumePrint, execLinkRings, execUnlink, execMoveMotor, execHoldMotor,
      execReleaseMotor, execSetPower, execSwitchClock, execUnknownCommand, claimCommand_given, -List.reduceReplicate]
    repeat' split
  all_goals simp [hroom, -List.reduceReplicate]

theorem arrived_room (s : State) (offset : Nat) (value : Half) : (s.arrived offset value).room = s.room := by unfold State.room; rfl

@[simp] theorem State.setCells_cmdPut_room (s : State) (x : Nat) :
    (s.setCells { s.cells with cmdPut := x }).room = s.room := by unfold State.room; rfl

@[simp] theorem State.setCells_summary_room (s : State) (x : BitVec 16) (n : Nat) :
    (s.setCells { s.cells with summary := x, dropped := n }).room = s.room := by unfold State.room; rfl

theorem execCommandTakeStart_room {s : State} (h : s.room.Fits) :
    Meets (fun t => t.room.Fits) (execCommandTakeStart s) := by
  refine meets_ite (fun hmay => meets_next.mpr ?_) (fun _ => meets_next.mpr h)
  simp only [State.mayTake, Bool.and_eq_true, beq_iff_eq, decide_eq_true_iff] at hmay
  obtain ⟨⟨⟨⟨⟨htaking, -⟩, -⟩, hfree⟩, -⟩, -⟩ := hmay
  rw [State.issueRead_room]
  refine ⟨h.put, h.take, ?_, fun hn => ?_, h.early⟩
  · have hfree : 1 ≤ s.cfg.nr - s.room.occupancy - s.cells.writing.length - s.cells.reserved := hfree
    have hsum : s.room.occupancy + s.cells.writing.length + s.cells.reserved ≤ s.cfg.nr := h.sum
    show s.room.occupancy + s.cells.writing.length + (s.cells.reserved + 1) ≤ s.cfg.nr
    omega
  · have hn : s.cells.taking = .notStarted := hn
    rw [htaking] at hn
    cases hn

/-- R6: how far one index of a ring stands ahead of another. -/
theorem ahead_eq {size a b : Nat} (ha : a < size) (hb : b < size) :
    (a + size - b) % size = if b ≤ a then a - b else a + size - b := by
  split_ifs with hle
  · rw [Nat.sub_add_comm hle, Nat.add_mod_right, Nat.mod_eq_of_lt (by omega)]
  · exact Nat.mod_eq_of_lt (by omega)

/-- R6: how an index of a ring goes on. -/
theorem next_eq {size a : Nat} (ha : a < size) : (a + 1) % size = if a + 1 = size then 0 else a + 1 := by
  split_ifs with hend
  · rw [hend, Nat.mod_self]
  · exact Nat.mod_eq_of_lt (by omega)

/-- R6: a take that advances by at most the occupancy lowers it. -/
theorem occupancy_advance {size put take new : Nat} (hput : put < size) (htake : take < size) (hnew : new < size)
    (hadv : (new + size - take) % size ≤ (put + size - take) % size) :
    (put + size - new) % size ≤ (put + size - take) % size := by
  rw [ahead_eq hnew htake, ahead_eq hput htake] at hadv
  rw [ahead_eq hput hnew, ahead_eq hput htake]
  split_ifs at * <;> omega

theorem execResponseTakeWrite_room {s : State} (h : s.room.Fits) (value : Half) :
    Meets (fun t => t.room.Fits) (execResponseTakeWrite value s) := by
  unfold execResponseTakeWrite
  split
  · exact meets_next.mpr h
  next u hu =>
    obtain rfl := arrived_of_claimArrival hu
    have hroom : u.room.Fits := h
    dsimp only
    split
    · exact meets_next.mpr (by simp [hroom])
    next hgood =>
      rw [cellIndexRefused_iff, not_not, Nat.zero_add] at hgood
      obtain ⟨hlt, hadv⟩ := hgood
      have hput : u.cells.respPut < 2 * u.cfg.nr := hroom.put
      have htake : u.cells.respTake < 2 * u.cfg.nr := hroom.take
      have hsum : (u.cells.respPut + 2 * u.cfg.nr - u.cells.respTake) % (2 * u.cfg.nr) + u.cells.writing.length
        + u.cells.reserved ≤ u.cfg.nr := hroom.sum
      have hocc := occupancy_advance hput htake hlt hadv
      refine meets_next.mpr ⟨hput, hlt, ?_, fun hn => ?_, hroom.early⟩
      · show (u.cells.respPut + 2 * u.cfg.nr - value.toNat) % (2 * u.cfg.nr) + u.cells.writing.length + u.cells.reserved
          ≤ u.cfg.nr
        omega
      · obtain ⟨hput0, htake0, hrest⟩ := hroom.empty hn
        have hput0 : u.cells.respPut = 0 := hput0
        have htake0 : u.cells.respTake = 0 := htake0
        refine ⟨hput0, ?_, hrest⟩
        show value.toNat = 0
        rw [State.respOccupancy, hput0, htake0, Nat.sub_zero, Nat.zero_add, Nat.sub_zero, Nat.mod_self, Nat.add_mod_right,
          Nat.mod_eq_of_lt hlt] at hadv
        omega

/-- R182: a published cell leaves the writing list and is occupied. -/
theorem occupancy_publish {size put take : Nat} (hput : put < size) (htake : take < size) :
    ((put + 1) % size + size - take) % size ≤ (put + size - take) % size + 1 := by
  rw [ahead_eq (Nat.mod_lt _ (by omega)) htake, ahead_eq hput htake, next_eq hput]
  split_ifs <;> omega

theorem execResponseCellAcknowledged_room {s : State} (h : s.room.Fits) :
    Meets (fun t => t.room.Fits) (execResponseCellAcknowledged s) := by
  unfold execResponseCellAcknowledged
  split
  next w rest hwriting =>
    refine meets_ite (fun _ => meets_next.mpr ?_) (fun _ => meets_next.mpr h)
    dsimp only
    rw [State.issueWrite_room]
    have hput : s.cells.respPut < 2 * s.cfg.nr := h.put
    have htake : s.cells.respTake < 2 * s.cfg.nr := h.take
    have hsum : (s.cells.respPut + 2 * s.cfg.nr - s.cells.respTake) % (2 * s.cfg.nr) + s.cells.writing.length
      + s.cells.reserved ≤ s.cfg.nr := h.sum
    have hocc := occupancy_publish hput htake
    refine ⟨Nat.mod_lt _ (Nat.zero_lt_of_lt hput), htake, ?_, fun hn => ?_, h.early⟩
    · show ((s.cells.respPut + 1) % (2 * s.cfg.nr) + 2 * s.cfg.nr - s.cells.respTake) % (2 * s.cfg.nr) + rest.length
        + s.cells.reserved ≤ s.cfg.nr
      rw [hwriting, List.length_cons] at hsum
      omega
    · have hnil : s.cells.writing = [] := (h.empty hn).2.2.1
      rw [hwriting] at hnil
      cases hnil
  · exact meets_next.mpr h

theorem execResponsePutAcknowledged_room {s : State} (h : s.room.Fits) :
    Meets (fun t => t.room.Fits) (execResponsePutAcknowledged s) := by
  unfold execResponsePutAcknowledged
  split
  next mark rest _ =>
    refine meets_ite (fun _ => ?_) (fun _ => meets_next.mpr h)
    have htaken : ((s.takeOne .respPut).setCells { s.cells with putWrites := rest }).room = s.room := by unfold State.room; rfl
    have hroom := htaken.symm ▸ h
    split
    · exact meets_next.mpr hroom
    · exact meets_next.mpr (coldStart_room ..)
    · exact meets_next.mpr ((State.standbyWritten_room _).symm ▸ hroom)
    · exact meets_next.mpr ((State.pageScannedWritten_room _).symm ▸ hroom)
  · exact meets_ite (fun _ => meets_next.mpr (coldStart_room ..)) (fun _ => meets_next.mpr h)

@[simp] theorem State.fillLoadArea_room (s : State) (d : List Half) : (s.fillLoadArea d).room = s.room := by
  unfold State.room; rfl

theorem State.installTable_room (s : State) (t : TableData) : (s.installTable t).room = s.room := by
  cases t <;> rfl

theorem finishLoad_room {s t : State} {id : TableId} {data : List Half} (h : s.finishLoad id data = .ok t) : t.room = s.room := by
  unfold State.finishLoad at h
  split at h
  · cases h
  · split at h
    · cases h
    · exact Except.ok.inj h ▸ State.installTable_room ..

theorem execTableLoadReadsComplete_room {s : State} (h : s.room.Fits) :
    Meets (fun t => t.room.Fits) (execTableLoadReadsComplete s) := by
  unfold execTableLoadReadsComplete
  split
  · exact meets_next.mpr h
  next id source length _ =>
    refine meets_ite (fun _ => ?_) (fun _ => meets_next.mpr h)
    have hidle : (((s.takeAll .tableLoad).setCells { s.cells with loader := .idle }).fillLoadArea
        (s.pmc.dataOf .tableLoad)).room.Fits := by
      rw [State.fillLoadArea_room]
      exact h
    dsimp only
    split
    · exact meets_next.mpr (State.handDone_room hidle ..)
    next u hu => exact meets_next.mpr (State.handDone_room ((finishLoad_room hu).symm ▸ hidle) ..)

theorem execAccessEnd_room {s : State} (h : s.room.Fits) : Meets (fun t => t.room.Fits) (execAccessEnd s) := by
  unfold execAccessEnd
  split
  next b _ _ =>
    refine meets_ite (fun _ => meets_next.mpr ?_) (fun _ => meets_fault)
    have hperform : (s.perform b).room = s.room := by
      unfold State.perform
      cases b.dir
      all_goals simp only [State.snoop_room, State.setPmc_room]
      rfl
    rw [State.grantPoint_room]
    exact State.linkReadsAbandoned_room (State.commandRead_room (hperform ▸ h))
  all_goals exact meets_next.mpr h

/-- The boot controller's rows before RELEASE (R160 to R169). -/
def bootRow : Instr → Bool
  | .romHeaderRead .. | .recordHeaderRead .. | .configRecordRead .. | .tableRecordRead .. | .imageWritesAcknowledged
  | .faultPulseTimerExpiry | .refreshBurstDone | .resetPinHigh => true
  | _ => false

theorem exec_bootRow_room {i : Instr} (hi : bootRow i) {s : State} (h : s.room.Fits) :
    Meets (fun t => t.room.Fits) (exec i s) := by
  have early : ∀ {b : BootState}, s.boot.st = b → b ≠ .ready → ∀ {t : State}, t.room.still = s.room.still → t.room.Fits :=
    fun hb hne _ ht => fits_of_still h (notStarted_of h hb hne) ht
  cases i
  all_goals try (cases hi; done)
  case romHeaderRead marker count =>
    refine meets_ite (fun hst => ?_) (fun _ => meets_next.mpr h)
    dsimp only
    split
    all_goals exact meets_next.mpr (early hst (by decide) (by simp))
  case recordHeaderRead typeAndTable length destination check image =>
    refine meets_ite (fun hst => ?_) (fun _ => meets_next.mpr h)
    have hne : s.boot.st ≠ .ready := by
      obtain ⟨hst | hst | hst, -⟩ := hst <;> rw [hst] <;> decide
    repeat' split
    all_goals exact meets_next.mpr (early rfl hne (by simp))
  case configRecordRead data =>
    simp only [exec, execConfigRecordRead]
    split
    next header hst _ =>
      split
      next c hc =>
        have hpos : 0 < c.nr := by
          split at hc
          · exact nr_pos_of_parseConfig hc
          · cases hc
        exact meets_next.mpr (applyConfig_room (s := s.spiRead _ _) h (notStarted_of h hst (by decide)) hpos)
      · exact meets_next.mpr (early hst (by decide) (by simp))
    · exact meets_next.mpr h
  case tableRecordRead data =>
    simp only [exec, execTableRecordRead]
    split
    next header hst _ =>
      split
      all_goals exact meets_next.mpr (early hst (by decide) (by simp))
    · exact meets_next.mpr h
  case imageWritesAcknowledged =>
    simp only [exec, execImageWritesAcknowledged]
    split
    next header hst _ =>
      repeat' split
      all_goals exact meets_next.mpr (early hst (by decide) (by simp))
    · exact meets_next.mpr h
  case faultPulseTimerExpiry =>
    refine meets_ite (fun hst => ?_) (fun _ => meets_next.mpr h)
    split
    all_goals exact meets_next.mpr (early hst (by decide) (by simp))
  case refreshBurstDone =>
    refine meets_ite (fun _ => ?_) (fun _ => meets_next.mpr h)
    split
    · refine meets_next.mpr ?_
      split
      next hst => exact early hst (by decide) (by simp)
      · rwa [State.setPmc_room]
    · refine meets_next.mpr ?_
      unfold State.memoryBack
      split
      all_goals simp [h]
    all_goals exact meets_next.mpr h
  case resetPinHigh =>
    refine meets_next.mpr ?_
    unfold State.leaveReset
    split
    next hst => exact early hst.1 (by decide) rfl
    · exact h

theorem execReleaseWritesAcknowledged_room {s : State} (h : s.room.Fits) :
    Meets (fun t => t.room.Fits) (execReleaseWritesAcknowledged s) := by
  refine meets_ite (fun _ => meets_next.mpr ?_) (fun _ => meets_next.mpr h)
  exact ⟨h.put, h.take, h.sum, (by intro hn; cases hn), fun hb => absurd rfl hb⟩

theorem exec_room {i : Instr} {s : State} (h : s.room.Fits) : Meets (fun t => t.room.Fits) (exec i s) := by
  by_cases hcommand : (commandCode i).isSome
  · exact exec_command_room hcommand h
  by_cases hboot : bootRow i
  · exact exec_bootRow_room hboot h
  cases i
  all_goals try (exact absurd rfl hcommand)
  all_goals try (exact absurd rfl hboot)
  case commandTakeStart => exact execCommandTakeStart_room h
  case responseTakeWrite value => exact execResponseTakeWrite_room h value
  case responseCellAcknowledged => exact execResponseCellAcknowledged_room h
  case responsePutAcknowledged => exact execResponsePutAcknowledged_room h
  case tableLoadReadsComplete => exact execTableLoadReadsComplete_room h
  case accessEnd => exact execAccessEnd_room h
  case releaseWritesAcknowledged => exact execReleaseWritesAcknowledged_room h
  case powerOnDetect => exact meets_next.mpr (coldStart_room ..)
  case resetPinLow => exact meets_ite (fun _ => meets_next.mpr (coldStart_room ..)) (fun _ => meets_next.mpr h)
  case controlBlockWrite | commandPutWrite | summaryWordWrite | lineRingPutWrite | lineRingTakeWrite =>
    simp only [exec, execControlBlockWrite, execCommandPutWrite, execSummaryWordWrite, execLineRingPutWrite,
      execLineRingTakeWrite]
    repeat' split
    all_goals try (exact meets_next.mpr h)
    all_goals
      have hroom := arrived_of_claimArrival ‹_› ▸ h
      rw [arrived_room] at hroom
      simp [hroom]
  all_goals
    simp only [exec,
      execHostRead, execHostWrite, execBurstEnter, execRefreshEnd, execRefreshTimerExpiry, execCloseTimerExpiry,
      execSelfRefreshEntry, execSlotWritesAcknowledged, execPageEndTagAcknowledged, execStepIntervalExpiry,
      execReadoutComplete, execCalTriggerExpiry, execCalReadoutComplete, execCalSumsAcknowledged,
      execLinkTakeSourceLine, execLinkReadComplete, execFetchStart, execTagReadComplete, execWindowReadComplete,
      execFetchComplete, execShiftInStart, execShiftInComplete, execLineLatch, execPhaseEnd, execNextPhaseStart,
      execSlewBegin, execPrintStreamOff, execSweepPeriodExpiry, execConversionComplete, execStandbyTimerExpiry,
      execRingEdge, execEdgeGapExpiry, execBurstEndExpiry, execSilenceTimerExpiry, execInputLevelChange,
      execDebounceExpiry, execSettleCountReached, execStartWindowExpiry, execPllLock, execLockWindowExpiry,
      execFastRcRunning, execSwitchComplete, execLossWindowExpiry, execWakeTimerExpiry, execHostClockStop,
      execStandbyEntry, execSnapshotAcknowledged, execStopAllComplete]
    repeat' split
  all_goals simp [h]

end Sys2Proof.Machine

namespace Sys2Proof.Proofs

open Sys2Proof Sys2Proof.Machine

/-- Settles O17: a cell takes a slot that is free or reserved, and every row keeps the room. -/
theorem responseRoomKept : Obligations.ResponseRoomKept := by
  intro s t hs h
  rw [responseRoom_iff] at hs ⊢
  refine step_keeps (P := fun s => s.room.Fits) (fun _ _ h => exec_room h) (fun _ _ h => h) (fun s h => ?_) hs h
  obtain ⟨x, hx⟩ := s.tick_eq
  rw [hx]
  exact h

end Sys2Proof.Proofs
end

