-- ==== Sys2Proof/Proofs/StreamFrames.lean ====
section
/-! The rows that leave the rings, the link, both streams and both motors alone. -/

namespace Sys2Proof.Machine

open Sys2Proof

/-! ### Operations -/

section
variable (s : State)

@[simp] theorem State.setMem_streams (x : List Host.Cell) : (s.setMem x).streams = s.streams := rfl
@[simp] theorem State.setPins_streams (x : Pins) : (s.setPins x).streams = s.streams := rfl
@[simp] theorem State.setCfg_streams (x : BoardConfig) : (s.setCfg x).streams = s.streams := rfl
@[simp] theorem State.setBoot_streams (x : Boot) : (s.setBoot x).streams = s.streams := rfl
@[simp] theorem State.setTables_streams (x : TableStore) : (s.setTables x).streams = s.streams := rfl
@[simp] theorem State.writeSummary_streams : s.writeSummary.streams = s.streams := rfl
@[simp] theorem State.writeSnapshot_streams : s.writeSnapshot.streams = s.streams := rfl
@[simp] theorem State.ringFault_streams (r : RingId) (index : Nat) (written held : Nat) :
    (s.ringFault r index written held).streams = s.streams := by simp [State.ringFault]
@[simp] theorem State.setUrgent_streams (on : Bool) : (s.setUrgent on).streams = s.streams := rfl
@[simp] theorem State.sweepStart_streams : s.sweepStart.streams = s.streams := by
  unfold State.sweepStart; dsimp only
  repeat' split
  all_goals simp

@[simp] theorem State.placeHold_streams : s.placeHold.streams = s.streams := rfl
@[simp] theorem State.liftHold_streams : s.liftHold.streams = s.streams := rfl
@[simp] theorem State.abandonSweep_streams : s.abandonSweep.streams = s.streams := rfl
@[simp] theorem State.startPeriod_streams : s.startPeriod.streams = s.streams := rfl
@[simp] theorem State.grantPoint_streams : s.grantPoint.streams = s.streams := rfl
@[simp] theorem State.memoryStart_streams : s.memoryStart.streams = s.streams := by
  unfold State.memoryStart
  split <;> rfl

@[simp] theorem State.memoryEntry_streams : s.memoryEntry.streams = s.streams := by
  unfold State.memoryEntry
  split <;> rfl

@[simp] theorem State.memoryWithdraw_streams : s.memoryWithdraw.streams = s.streams := by
  unfold State.memoryWithdraw
  split <;> rfl

@[simp] theorem State.memoryExit_streams : s.memoryExit.streams = s.streams := by
  unfold State.memoryExit
  split <;> rfl

@[simp] theorem State.snoop_streams (b : Burst) : (s.snoop b).streams = s.streams := by
  unfold State.snoop; dsimp only
  repeat' split
  all_goals rfl

@[simp] theorem State.commandRead_streams : s.commandRead.streams = s.streams := by
  unfold State.commandRead; dsimp only
  repeat' split
  all_goals rfl

@[simp] theorem State.clockCell_streams (tag : Byte) (r : Result) (origin : Origin) (code : ClockCode) (target : Option Source) : (s.clockCell tag r origin code target).streams = s.streams := by simp [State.clockCell]
@[simp] theorem State.enterWaitQuiet_streams : s.enterWaitQuiet.streams = s.streams := rfl
@[simp] theorem State.crystalStart_streams : s.crystalStart.streams = s.streams := rfl
@[simp] theorem State.pllStart_streams : s.pllStart.streams = s.streams := rfl
@[simp] theorem State.crystalReady_streams (target : Source) : (s.crystalReady target).streams = s.streams := by
  unfold State.crystalReady
  split <;> rfl

@[simp] theorem State.dropFastRc_streams : s.dropFastRc.streams = s.streams := rfl
@[simp] theorem State.lineCell_streams (k : Kind) (fields : List Byte) :
    (s.lineCell k fields).streams = s.streams := by
  unfold State.lineCell
  split <;> simp

@[simp] theorem State.cellFault_streams (ring index written held : Nat) :
    (s.cellFault ring index written held).streams = s.streams := by simp [State.cellFault]
@[simp] theorem State.standbyWritten_streams : s.standbyWritten.streams = s.streams := by
  unfold State.standbyWritten; dsimp only
  repeat' split
  all_goals rfl

@[simp] theorem State.finishStopAll_streams (x : StopAll) :
    (s.finishStopAll x).streams = s.streams := by simp [State.finishStopAll]
@[simp] theorem State.sweepEnded_streams : s.sweepEnded.streams = s.streams := by
  unfold State.sweepEnded; dsimp only
  repeat' split
  all_goals simp

@[simp] theorem State.reportSwitch_streams (w : Switch) (r : Result) (code : ClockCode) :
    (s.reportSwitch w r code).streams = s.streams := by
  unfold State.reportSwitch; dsimp only
  repeat' split
  all_goals simp

@[simp] theorem State.beginSwitch_streams (target : Source) (origin : Origin) (tag : Byte) :
    (s.beginSwitch target origin tag).streams = s.streams := by
  unfold State.beginSwitch; dsimp only
  repeat' split
  all_goals simp

@[simp] theorem State.leaveOnFastRc_streams : s.leaveOnFastRc.streams = s.streams := by simp [State.leaveOnFastRc]
@[simp] theorem State.normalSweepEnd_streams : s.normalSweepEnd.streams = s.streams := by simp [State.normalSweepEnd]
@[simp] theorem State.switchFail_streams (code : ClockCode) :
    (s.switchFail code).streams = s.streams := by simp [State.switchFail]
@[simp] theorem State.beginLeaving_streams : s.beginLeaving.streams = s.streams := by
  unfold State.beginLeaving; dsimp only
  repeat' split
  all_goals simp

@[simp] theorem State.standbySweepEnd_streams :
    s.standbySweepEnd.streams = s.streams := by simp [State.standbySweepEnd]
@[simp] theorem State.standbySweepStart_streams : s.standbySweepStart.streams = s.streams := by
  unfold State.standbySweepStart; dsimp only
  repeat' split
  all_goals simp


@[simp] theorem State.spiRead_streams (a n : Nat) : (s.spiRead a n).streams = s.streams := rfl
@[simp] theorem State.bootFail_streams (code : Nat) : (s.bootFail code).streams = s.streams := rfl
@[simp] theorem State.fillLoadArea_streams (d : List Half) : (s.fillLoadArea d).streams = s.streams := rfl

@[simp] theorem State.enterRelease_streams : s.enterRelease.streams = s.streams := by
  simp [State.enterRelease, State.beginWatching]

@[simp] theorem State.installTable_streams (t : TableData) : (s.installTable t).streams = s.streams := by
  cases t <;> rfl

@[simp] theorem State.endImageWalk_streams : s.endImageWalk.streams = s.streams := by
  unfold State.endImageWalk
  split <;> simp

@[simp] theorem State.endWalk_streams : s.endWalk.streams = s.streams := by
  unfold State.endWalk; dsimp only
  repeat' split
  all_goals simp

@[simp] theorem State.nextRecord_streams (len : Nat) : (s.nextRecord len).streams = s.streams := by
  unfold State.nextRecord; dsimp only
  split <;> simp

@[simp] theorem State.enterTables_streams : s.enterTables.streams = s.streams := by
  unfold State.enterTables; dsimp only
  split <;> simp

@[simp] theorem State.badTable_streams (table : Nat) : (s.badTable table).streams = s.streams := by
  unfold State.badTable
  split <;> simp

@[simp] theorem State.writeImage_streams (destination : Nat) (data : List Half) (n : Nat) :
    (s.writeImage destination data n).streams = s.streams := by
  induction n generalizing s destination data with
  | zero => rfl
  | succ n ih => rw [State.writeImage, ih]; rfl

@[simp] theorem State.configHeader_streams (h : RecordHeader) : (s.configHeader h).streams = s.streams := by
  unfold State.configHeader
  split <;> simp

@[simp] theorem State.tablesHeader_streams (h : RecordHeader) : (s.tablesHeader h).streams = s.streams := by
  unfold State.tablesHeader
  repeat' split
  all_goals simp

@[simp] theorem State.imageHeader_streams (h : RecordHeader) (image : List (Option Byte)) :
    (s.imageHeader h image).streams = s.streams := by
  unfold State.imageHeader; dsimp only
  repeat' split
  all_goals simp

@[simp] theorem State.applyConfig_streams (c : BoardConfig) : (s.applyConfig c).streams = s.streams := by
  unfold State.applyConfig; dsimp only
  split <;> simp

@[simp] theorem State.readSource_streams (source length n : Nat) : (s.readSource source length n).streams = s.streams := by
  induction n generalizing s source length with
  | zero => rfl
  | succ n ih => rw [State.readSource, ih, State.issueRead_streams]

theorem finishLoad_streams {s t : State} {id : TableId} {data : List Half} (h : s.finishLoad id data = .ok t) :
    t.streams = s.streams := by
  unfold State.finishLoad at h
  split at h
  · cases h
  · split at h
    · cases h
    · exact Except.ok.inj h ▸ State.installTable_streams ..

theorem given_streams (i : Instr) : (s.given i).streams = s.streams := rfl

theorem claimArrival_streams {s u : State} {offset : Nat} {value : Half} (h : s.claimArrival offset value = some u) :
    u.streams = s.streams := by
  rw [arrived_of_claimArrival h]
  rfl

end

/-! ### Each stream by itself -/

theorem rings_of_streams {s t : State} (h : t.streams = s.streams) : t.rings = s.rings := congrArg Streams.rings h
@[simp] theorem State.enterTables_rings (s : State) : s.enterTables.rings = s.rings := rings_of_streams (State.enterTables_streams s)
theorem link_of_streams {s t : State} (h : t.streams = s.streams) : t.link = s.link := congrArg Streams.link h
@[simp] theorem State.enterTables_link (s : State) : s.enterTables.link = s.link := link_of_streams (State.enterTables_streams s)
theorem scan_of_streams {s t : State} (h : t.streams = s.streams) : t.scan = s.scan := congrArg Streams.scan h
@[simp] theorem State.enterTables_scan (s : State) : s.enterTables.scan = s.scan := scan_of_streams (State.enterTables_streams s)
theorem print_of_streams {s t : State} (h : t.streams = s.streams) : t.print = s.print := congrArg Streams.print h
@[simp] theorem State.enterTables_print (s : State) : s.enterTables.print = s.print := print_of_streams (State.enterTables_streams s)
theorem doc_of_streams {s t : State} (h : t.streams = s.streams) : t.doc = s.doc := congrArg Streams.doc h
@[simp] theorem State.enterTables_doc (s : State) : s.enterTables.doc = s.doc := doc_of_streams (State.enterTables_streams s)
theorem paper_of_streams {s t : State} (h : t.streams = s.streams) : t.paper = s.paper := congrArg Streams.paper h
@[simp] theorem State.enterTables_paper (s : State) : s.enterTables.paper = s.paper := paper_of_streams (State.enterTables_streams s)

/-! ### Rows -/

/-- The rows of the cell unit, the table loader, the memory controller's timers, the sense unit's timers, the line inputs' timers,
the oscillators and the boot controller. -/
def keepsStreams : Instr → Bool
  | .loadTable .. | .switchClock .. | .reboot .. | .unknownCommand .. | .commandTakeStart | .commandPutWrite _
  | .responseTakeWrite _ | .summaryWordWrite _ | .controlBlockWrite .. | .hostRead _ | .hostWrite .. | .burstEnter _
  | .refreshEnd | .refreshTimerExpiry | .closeTimerExpiry _ | .selfRefreshEntry | .sweepPeriodExpiry | .standbyTimerExpiry
  | .edgeGapExpiry | .burstEndExpiry | .silenceTimerExpiry | .inputLevelChange .. | .settleCountReached | .startWindowExpiry
  | .pllLock | .lockWindowExpiry | .fastRcRunning | .switchComplete | .hostClockStop | .resetPinHigh
  | .romHeaderRead .. | .recordHeaderRead .. | .configRecordRead .. | .tableRecordRead .. | .imageWritesAcknowledged
  | .releaseWritesAcknowledged | .faultPulseTimerExpiry | .responseCellAcknowledged | .snapshotAcknowledged
  | .tableLoadReadsComplete | .stopAllComplete => true
  | _ => false

theorem exec_streams {i : Instr} (hi : keepsStreams i) (s : State) : Meets (fun t => t.streams = s.streams) (exec i s) := by
  cases i
  all_goals try (cases hi; done)
  case loadTable | switchClock | reboot | unknownCommand =>
    refine meets_command rfl rfl ?_
    rintro u rfl
    rw [given_streams]
    simp only [exec, execLoadTable, execSwitchClock, execReboot, execUnknownCommand, claimCommand_given]
    repeat' split
    all_goals simp
  case controlBlockWrite | commandPutWrite | responseTakeWrite | summaryWordWrite =>
    simp only [exec, execControlBlockWrite, execCommandPutWrite, execResponseTakeWrite, execSummaryWordWrite]
    repeat' split
    all_goals try (exact meets_next.mpr rfl)
    all_goals
      rw [← claimArrival_streams ‹_›]
      simp
  case tableLoadReadsComplete =>
    simp only [exec, execTableLoadReadsComplete]
    split
    · exact meets_next.mpr rfl
    · refine meets_ite (fun _ => ?_) (fun _ => meets_next.mpr rfl)
      split
      · simp
      next hu =>
        refine meets_next.mpr ?_
        rw [State.handDone_streams, finishLoad_streams hu]
        rfl
  all_goals
    simp only [exec, execCommandTakeStart, execHostRead, execHostWrite, execBurstEnter, execRefreshEnd, execRefreshTimerExpiry,
      execCloseTimerExpiry, execSelfRefreshEntry, execSweepPeriodExpiry, execStandbyTimerExpiry, execEdgeGapExpiry,
      execBurstEndExpiry, execSilenceTimerExpiry, execInputLevelChange, execSettleCountReached, execStartWindowExpiry, execPllLock,
      execLockWindowExpiry, execFastRcRunning, execSwitchComplete, execHostClockStop, execResetPinHigh,
      State.leaveReset, execRomHeaderRead, execRecordHeaderRead, execConfigRecordRead, execTableRecordRead,
      execImageWritesAcknowledged, execReleaseWritesAcknowledged, execFaultPulseTimerExpiry, execResponseCellAcknowledged,
      execSnapshotAcknowledged, execStopAllComplete]
    repeat' split
  all_goals simp

end Sys2Proof.Machine
end

