-- ==== Sys2Proof/Proofs/LinkFrames.lean ====
section
/-! The operations that leave the copy link alone: all but the link's own. -/

namespace Sys2Proof.Machine

open Sys2Proof

section
variable (s : State)

@[simp] theorem State.offer_link (bs : List Burst) : (s.offer bs).link = s.link := rfl
@[simp] theorem State.issueRead_link (cls : MemClass) (req : Req) (address len : Nat) :
    (s.issueRead cls req address len).link = s.link := rfl
@[simp] theorem State.issueWrite_link (cls : MemClass) (req : Req) (address : Nat) (data : List Half) :
    (s.issueWrite cls req address data).link = s.link := rfl
@[simp] theorem State.writeWord_link (cls : MemClass) (offset value : Nat) :
    (s.writeWord cls offset value).link = s.link := rfl
@[simp] theorem State.takeOne_link (q : Req) : (s.takeOne q).link = s.link := rfl
@[simp] theorem State.takeAll_link (q : Req) : (s.takeAll q).link = s.link := rfl
@[simp] theorem State.writeCell_link (mark : CellMark) (bytes : List Byte) :
    (s.writeCell mark bytes).link = s.link := rfl
@[simp] theorem State.writeSummary_link : s.writeSummary.link = s.link := rfl
@[simp] theorem State.recordLost_link (k : Kind) : (s.recordLost k).link = s.link := by
  unfold State.recordLost; dsimp only
  repeat' split
  all_goals rfl

@[simp] theorem State.writeSnapshot_link : s.writeSnapshot.link = s.link := rfl
@[simp] theorem State.claimSlot_link (r : RingId) (d : RingDesc) (tag : Tag) (words : List Word) (buf : Option BufId) : (s.claimSlot r d tag words buf).link = s.link := rfl
@[simp] theorem State.publish_link (r : RingId) (d : RingDesc) : (s.publish r d).link = s.link := rfl
@[simp] theorem State.acknowledgeSlot_link (r : RingId) (d : RingDesc) (c : Claim) (rest : List Claim) :
    (s.acknowledgeSlot r d c rest).link = s.link := by
  unfold State.acknowledgeSlot; dsimp only
  repeat' split
  all_goals rfl

@[simp] theorem State.askPageEnd_link (r : RingId) (lostTail : Bool) : (s.askPageEnd r lostTail).link = s.link := by
  unfold State.askPageEnd
  split <;> rfl

@[simp] theorem State.beginPageEnd_link (r : RingId) (d : RingDesc) : (s.beginPageEnd r d).link = s.link := by
  unfold State.beginPageEnd; dsimp only
  repeat' split
  all_goals rfl

@[simp] theorem State.finishPageEnd_link (r : RingId) (d : RingDesc) : (s.finishPageEnd r d).link = s.link := rfl
@[simp] theorem State.releaseTake_link (r : RingId) (n : Nat) : (s.releaseTake r n).link = s.link := by
  unfold State.releaseTake; dsimp only
  repeat' split
  all_goals rfl

@[simp] theorem State.attachProducer_link (r : RingId) (on : Bool) : (s.attachProducer r on).link = s.link := rfl
@[simp] theorem State.attachConsumer_link (r : RingId) (on : Bool) : (s.attachConsumer r on).link = s.link := rfl
@[simp] theorem State.installRing_link (r : RingId) (d : RingDesc) : (s.installRing r d).link = s.link := rfl
@[simp] theorem State.ringFault_link (r : RingId) (index : Nat) (written held : Nat) :
    (s.ringFault r index written held).link = s.link := by simp [State.ringFault]
@[simp] theorem State.startMove_link (c : Chan) (requester : Owner) (dir : Direction) (profile : Fin 8) (steps : Option Nat) (tag : Byte) : (s.startMove c requester dir profile steps tag).link = s.link := by simp [State.startMove]
@[simp] theorem State.stopMove_link (c : Chan) (cause : StopCause) :
    (s.stopMove c cause).link = s.link := by simp [State.stopMove]
@[simp] theorem State.stopBoth_link (cause : StopCause) : (s.stopBoth cause).link = s.link := rfl
@[simp] theorem State.reportHostEnd_link (ch : Chan) (c : Channel) (cause : EndCause) :
    (s.reportHostEnd ch c cause).link = s.link := by simp [State.reportHostEnd]
@[simp] theorem State.handPageScanned_link (mark : CellMark) :
    (s.handPageScanned mark).link = s.link := by simp [State.handPageScanned]
@[simp] theorem State.scanOff_link : s.scanOff.link = s.link := rfl
@[simp] theorem State.scanTryOff_link : s.scanTryOff.link = s.link := by
  unfold State.scanTryOff
  split <;> rfl

@[simp] theorem State.scanCheckMargin_link : s.scanCheckMargin.link = s.link := by
  unfold State.scanCheckMargin; dsimp only
  repeat' split
  all_goals rfl

@[simp] theorem State.scanRestart_link : s.scanRestart.link = s.link := by
  unfold State.scanRestart; dsimp only
  repeat' split
  all_goals rfl

@[simp] theorem State.linkStream_link : s.linkStream.link = s.link := by simp [State.linkStream]
@[simp] theorem State.linkDropReads_link : s.linkDropReads.link = s.link := rfl
@[simp] theorem State.abandonClaims_link (r : RingId) : (s.abandonClaims r).link = s.link := rfl
@[simp] theorem State.pagePrinted_link (endMark : Bool) :
    (s.pagePrinted endMark).link = s.link := by simp [State.pagePrinted]
@[simp] theorem State.printStream_link : s.printStream.link = s.link := by simp [State.printStream]
@[simp] theorem State.finalStream_link (r : PrintReason) :
    (s.finalStream r).link = s.link := by simp [State.finalStream]
@[simp] theorem State.setUrgent_link (on : Bool) : (s.setUrgent on).link = s.link := rfl
@[simp] theorem State.enterPrint_link (st : PrintState) : (s.enterPrint st).link = s.link := by
  unfold State.enterPrint
  split <;> rfl

@[simp] theorem State.printWake_link : s.printWake.link = s.link := by
  unfold State.printWake
  split <;> rfl

@[simp] theorem State.printGoOn_link (resumed : Bool) : (s.printGoOn resumed).link = s.link := by
  unfold State.printGoOn; dsimp only
  repeat' split
  all_goals rfl

@[simp] theorem State.paperMove_link (steps : Nat) : (s.paperMove steps).link = s.link := rfl
@[simp] theorem State.beginPrint_link (p : PrintParams) : (s.beginPrint p).link = s.link := rfl
@[simp] theorem State.stopPrint_link : s.stopPrint.link = s.link := by
  unfold State.stopPrint; dsimp only
  repeat' split
  all_goals rfl

@[simp] theorem State.printCut_link (reason : PrintReason) : (s.printCut reason).link = s.link := by
  unfold State.printCut; dsimp only
  repeat' split
  all_goals rfl

@[simp] theorem State.fetchWordsOf_link (d : RingDesc) (slot : Nat) (tag : Tag) :
    (s.fetchWordsOf d slot tag).link = s.link := rfl
@[simp] theorem State.requestAdvance_link (h : HeadLine) : (s.requestAdvance h).link = s.link := rfl
@[simp] theorem State.latch_link : s.latch.link = s.link := by
  unfold State.latch; dsimp only
  repeat' split
  all_goals rfl

@[simp] theorem State.sweepStart_link : s.sweepStart.link = s.link := by
  unfold State.sweepStart; dsimp only
  repeat' split
  all_goals simp

@[simp] theorem State.placeHold_link : s.placeHold.link = s.link := rfl
@[simp] theorem State.liftHold_link : s.liftHold.link = s.link := rfl
@[simp] theorem State.abandonSweep_link : s.abandonSweep.link = s.link := rfl
@[simp] theorem State.startPeriod_link : s.startPeriod.link = s.link := rfl
@[simp] theorem State.grantPoint_link : s.grantPoint.link = s.link := rfl
@[simp] theorem State.memoryStart_link : s.memoryStart.link = s.link := by
  unfold State.memoryStart
  split <;> rfl

@[simp] theorem State.memoryEntry_link : s.memoryEntry.link = s.link := by
  unfold State.memoryEntry
  split <;> rfl

@[simp] theorem State.memoryWithdraw_link : s.memoryWithdraw.link = s.link := by
  unfold State.memoryWithdraw
  split <;> rfl

@[simp] theorem State.memoryExit_link : s.memoryExit.link = s.link := by
  unfold State.memoryExit
  split <;> rfl

@[simp] theorem State.snoop_link (b : Burst) : (s.snoop b).link = s.link := by
  unfold State.snoop; dsimp only
  repeat' split
  all_goals rfl

@[simp] theorem State.commandRead_link : s.commandRead.link = s.link := by
  unfold State.commandRead; dsimp only
  repeat' split
  all_goals rfl

@[simp] theorem State.clockCell_link (tag : Byte) (r : Result) (origin : Origin) (code : ClockCode) (target : Option Source) : (s.clockCell tag r origin code target).link = s.link := by simp [State.clockCell]
@[simp] theorem State.enterWaitQuiet_link : s.enterWaitQuiet.link = s.link := rfl
@[simp] theorem State.crystalStart_link : s.crystalStart.link = s.link := rfl
@[simp] theorem State.pllStart_link : s.pllStart.link = s.link := rfl
@[simp] theorem State.crystalReady_link (target : Source) : (s.crystalReady target).link = s.link := by
  unfold State.crystalReady
  split <;> rfl

@[simp] theorem State.wakeCell_link (cause : WakeCause) (fromState : PowerState) (abandoned : Bool) :
    (s.wakeCell cause fromState abandoned).link = s.link := by simp [State.wakeCell]
@[simp] theorem State.releaseMotors_link : s.releaseMotors.link = s.link := rfl
@[simp] theorem State.undoRelease_link : s.undoRelease.link = s.link := rfl
@[simp] theorem State.donePower_link (tag : Byte) (r : Result) (mark : CellMark) :
    (s.donePower tag r mark).link = s.link := by simp [State.donePower]
@[simp] theorem State.senseCell_link (position : Nat) (e : SenseEntry) (before after : Zone) (reading : Nat) :
    (s.senseCell position e before after reading).link = s.link := by simp [State.senseCell]
@[simp] theorem State.dropFastRc_link : s.dropFastRc.link = s.link := rfl
@[simp] theorem State.lineCell_link (k : Kind) (fields : List Byte) : (s.lineCell k fields).link = s.link := by
  unfold State.lineCell
  split <;> simp

@[simp] theorem State.cellFault_link (ring index written held : Nat) :
    (s.cellFault ring index written held).link = s.link := by simp [State.cellFault]
@[simp] theorem State.standbyWritten_link : s.standbyWritten.link = s.link := by
  unfold State.standbyWritten; dsimp only
  repeat' split
  all_goals rfl

@[simp] theorem State.finishStopAll_link (x : StopAll) :
    (s.finishStopAll x).link = s.link := by simp [State.finishStopAll]
@[simp] theorem State.scanPageEndComplete_link :
    s.scanPageEndComplete.link = s.link := by simp [State.scanPageEndComplete]
@[simp] theorem State.calFinish_link : s.calFinish.link = s.link := by simp [State.calFinish]
@[simp] theorem State.scanFreed_link (r : RingId) : (s.scanFreed r).link = s.link := by
  unfold State.scanFreed
  split <;> simp

@[simp] theorem State.startCapture_link : s.startCapture.link = s.link := by simp [State.startCapture]
@[simp] theorem State.scanClaim_link (i : BufId) (words : List Word) (black : Nat) :
    (s.scanClaim i words black).link = s.link := by
  unfold State.scanClaim; dsimp only
  repeat' split
  all_goals simp

@[simp] theorem State.enterPause_link (r : PrintReason) : (s.enterPause r).link = s.link := by simp [State.enterPause]
@[simp] theorem State.enterHot_link : s.enterHot.link = s.link := by simp [State.enterHot]
@[simp] theorem State.decideWindow_link (d : RingDesc) (slot : Nat) (tags : List Tag) :
    (s.decideWindow d slot tags).link = s.link := by
  unfold State.decideWindow; dsimp only
  repeat' split
  all_goals simp

@[simp] theorem State.closeUnterminated_link (pageStart : Bool) : (s.closeUnterminated pageStart).link = s.link := by
  unfold State.closeUnterminated
  split <;> simp

@[simp] theorem State.printHeadCool_link : s.printHeadCool.link = s.link := by
  unfold State.printHeadCool; dsimp only
  repeat' split
  all_goals simp

@[simp] theorem State.scanMoveEnd_link : s.scanMoveEnd.link = s.link := by simp [State.scanMoveEnd]
@[simp] theorem State.sweepEnded_link : s.sweepEnded.link = s.link := by
  unfold State.sweepEnded; dsimp only
  repeat' split
  all_goals simp

@[simp] theorem State.reportSwitch_link (w : Switch) (r : Result) (code : ClockCode) :
    (s.reportSwitch w r code).link = s.link := by
  unfold State.reportSwitch; dsimp only
  repeat' split
  all_goals simp

@[simp] theorem State.beginSwitch_link (target : Source) (origin : Origin) (tag : Byte) :
    (s.beginSwitch target origin tag).link = s.link := by
  unfold State.beginSwitch; dsimp only
  repeat' split
  all_goals simp

@[simp] theorem State.finishAbandon_link : s.finishAbandon.link = s.link := by
  unfold State.finishAbandon
  split <;> simp

@[simp] theorem State.leaveOnFastRc_link : s.leaveOnFastRc.link = s.link := by simp [State.leaveOnFastRc]
@[simp] theorem State.beginEntry_link (tag : Byte) (wakeTimer : Nat) :
    (s.beginEntry tag wakeTimer).link = s.link := by simp [State.beginEntry]
@[simp] theorem State.pageScannedWritten_link : s.pageScannedWritten.link = s.link := by
  unfold State.pageScannedWritten
  split <;> simp

@[simp] theorem State.scanPageEnd_link (reason : ScanReason) : (s.scanPageEnd reason).link = s.link := by
  unfold State.scanPageEnd; dsimp only
  repeat' split
  all_goals simp

@[simp] theorem State.calCut_link (reason : ScanReason) : (s.calCut reason).link = s.link := by
  unfold State.calCut; dsimp only
  repeat' split
  all_goals simp

@[simp] theorem State.releaseSlots_link (r : RingId) (n : Nat) :
    (s.releaseSlots r n).link = s.link := by simp [State.releaseSlots]
@[simp] theorem State.docEdgeHigh_link : s.docEdgeHigh.link = s.link := by
  unfold State.docEdgeHigh
  split <;> simp

@[simp] theorem State.beginScan_link (p : ScanParams) (edge : Bool) : (s.beginScan p edge).link = s.link := by
  unfold State.beginScan; dsimp only
  repeat' split
  all_goals simp

@[simp] theorem State.printPaperLow_link : s.printPaperLow.link = s.link := by
  unfold State.printPaperLow; dsimp only
  repeat' split
  all_goals simp

@[simp] theorem State.printHeadHot_link : s.printHeadHot.link = s.link := by
  unfold State.printHeadHot; dsimp only
  repeat' split
  all_goals simp

@[simp] theorem State.printCoverHigh_link : s.printCoverHigh.link = s.link := by
  unfold State.printCoverHigh; dsimp only
  repeat' split
  all_goals simp

@[simp] theorem State.pausePrint_link : s.pausePrint.link = s.link := by
  unfold State.pausePrint; dsimp only
  repeat' split
  all_goals simp

@[simp] theorem State.normalSweepEnd_link : s.normalSweepEnd.link = s.link := by simp [State.normalSweepEnd]
@[simp] theorem State.switchFail_link (code : ClockCode) :
    (s.switchFail code).link = s.link := by simp [State.switchFail]
@[simp] theorem State.beginLeaving_link : s.beginLeaving.link = s.link := by
  unfold State.beginLeaving; dsimp only
  repeat' split
  all_goals simp

@[simp] theorem State.finishLeaving_link : s.finishLeaving.link = s.link := by
  unfold State.finishLeaving; dsimp only
  repeat' split
  all_goals simp

@[simp] theorem State.standbySweepEnd_link : s.standbySweepEnd.link = s.link := by simp [State.standbySweepEnd]
@[simp] theorem State.scanCut_link (reason : ScanReason) : (s.scanCut reason).link = s.link := by
  unfold State.scanCut
  split <;> simp

@[simp] theorem State.scanCloseIfIdle_link : s.scanCloseIfIdle.link = s.link := by
  unfold State.scanCloseIfIdle
  split <;> simp

@[simp] theorem State.standbySweepStart_link : s.standbySweepStart.link = s.link := by
  unfold State.standbySweepStart; dsimp only
  repeat' split
  all_goals simp

@[simp] theorem State.scanTriggerPosition_link : s.scanTriggerPosition.link = s.link := by
  unfold State.scanTriggerPosition; dsimp only
  repeat' split
  all_goals simp

@[simp] theorem State.closeAtEdge_link : s.closeAtEdge.link = s.link := by
  unfold State.closeAtEdge; dsimp only
  repeat' split
  all_goals simp

@[simp] theorem State.scanDocStep_link : s.scanDocStep.link = s.link := by
  unfold State.scanDocStep; dsimp only
  repeat' split
  all_goals simp

@[simp] theorem State.docEdgeLow_link : s.docEdgeLow.link = s.link := by
  unfold State.docEdgeLow; dsimp only
  repeat' split
  all_goals simp

@[simp] theorem State.reportStep_link (ch : Chan) : (s.reportStep ch).link = s.link := by
  unfold State.reportStep
  split <;> simp


theorem takePending_link {goOn : State → State} (hgo : ∀ u : State, (goOn u).link = u.link) :
    (s.takePending goOn).link = s.link := by
  unfold State.takePending; dsimp only
  repeat' split
  all_goals simp [hgo]

@[simp] theorem State.feedEnd_link : s.feedEnd.link = s.link := by
  unfold State.feedEnd; dsimp only
  split
  · simp
  · rw [takePending_link]
    · simp
    · simp

@[simp] theorem State.pageEnds_link : s.pageEnds.link = s.link := by
  unfold State.pageEnds; dsimp only
  repeat' split
  all_goals simp

@[simp] theorem State.itemFollow_link (resumed : Bool) : (s.itemFollow resumed).link = s.link := by
  unfold State.itemFollow
  split
  · rfl
  · exact takePending_link s fun u => by simp

@[simp] theorem State.lineDone_link (h : HeadLine) (resumed : Bool) : (s.lineDone h resumed).link = s.link := by
  unfold State.lineDone; dsimp only
  split <;> simp

@[simp] theorem State.slewEnd_link (w : Slew) (n : Nat) (resumed : Bool) : (s.slewEnd w n resumed).link = s.link := by
  unfold State.slewEnd; dsimp only
  split <;> simp

@[simp] theorem State.completeItem_link (item : Item) (resumed : Bool) : (s.completeItem item resumed).link = s.link := by
  unfold State.completeItem; dsimp only
  split <;> simp

@[simp] theorem State.beginOwed_link (item : Item) : (s.beginOwed item).link = s.link := by
  unfold State.beginOwed; dsimp only
  split <;> simp

@[simp] theorem State.endItem_link (item : Item) (notTaken : Nat) : (s.endItem item notTaken).link = s.link := by
  unfold State.endItem; dsimp only
  split <;> simp

@[simp] theorem State.endingMoveEnd_link (item : Item) (notTaken : Nat) : (s.endingMoveEnd item notTaken).link = s.link := by
  unfold State.endingMoveEnd; dsimp only
  repeat' split
  all_goals simp

@[simp] theorem State.printMoveEnd_link : s.printMoveEnd.link = s.link := by
  unfold State.printMoveEnd; dsimp only
  repeat' split
  all_goals simp

@[simp] theorem State.issueWindow_link (d : RingDesc) (slot n : Nat) : (s.issueWindow d slot n).link = s.link := by
  induction n generalizing s slot with
  | zero => rfl
  | succ n ih => rw [State.issueWindow, ih, State.issueRead_link]

@[simp] theorem State.afterPhase_link (h : HeadLine) : (s.afterPhase h).link = s.link := by
  unfold State.afterPhase; dsimp only
  repeat' split
  all_goals simp

@[simp] theorem State.resumePrint_link : s.resumePrint.link = s.link := by
  unfold State.resumePrint; dsimp only
  repeat' split
  all_goals simp

@[simp] theorem State.reportEnd_link (ch : Chan) (cause : EndCause) : (s.reportEnd ch cause).link = s.link := by
  unfold State.reportEnd
  split <;> simp

@[simp] theorem State.emergencyReport_link (doc paper : Bool) (cause : EndCause) :
    (s.emergencyReport doc paper cause).link = s.link := by
  unfold State.emergencyReport
  cases doc <;> cases paper <;> simp

@[simp] theorem State.emergencyStop_link (a : ScanReason) (b : PrintReason) (cause : EndCause) :
    (s.emergencyStop a b cause).link = s.link := by
  simp [State.emergencyStop, State.emergencyHold]

@[simp] theorem State.clockFailure_link : s.clockFailure.link = s.link := by
  unfold State.clockFailure; dsimp only
  split <;> simp

@[simp] theorem State.abandonEntry_link : s.abandonEntry.link = s.link := by
  unfold State.abandonEntry
  repeat' split
  all_goals simp

@[simp] theorem State.wake_link (cause : WakeCause) : (s.wake cause).link = s.link := by
  unfold State.wake
  repeat' split
  all_goals simp

@[simp] theorem State.zoneToBlocks_link (role : Role) (zone : Zone) : (s.zoneToBlocks role zone).link = s.link := by
  unfold State.zoneToBlocks
  split <;> simp

@[simp] theorem State.zoneChange_link (standbySweep : Bool) (position : Nat) (e : SenseEntry) (before after : Zone)
    (reading : Nat) : (s.zoneChange standbySweep position e before after reading).link = s.link := by
  unfold State.zoneChange; dsimp only
  repeat' split
  all_goals simp

@[simp] theorem State.convertEntry_link (standbySweep : Bool) (position raw : Nat) :
    (s.convertEntry standbySweep position raw).link = s.link := by
  unfold State.convertEntry; dsimp only
  repeat' split
  all_goals simp

@[simp] theorem State.sweepFrom_link (standbySweep : Bool) (p : Nat) : (s.sweepFrom standbySweep p).link = s.link := by
  unfold State.sweepFrom
  repeat' split
  all_goals simp

@[simp] theorem State.burstQualifies_link : s.burstQualifies.link = s.link := by
  simp [State.burstQualifies]

@[simp] theorem State.debouncedChange_link (input : InputLine) (high : Bool) : (s.debouncedChange input high).link = s.link := by
  unfold State.debouncedChange; dsimp only
  repeat' split
  all_goals simp

@[simp] theorem State.readSource_link (source length n : Nat) : (s.readSource source length n).link = s.link := by
  induction n generalizing s source length with
  | zero => rfl
  | succ n ih => rw [State.readSource, ih, State.issueRead_link]

end

end Sys2Proof.Machine
end

