-- ==== Sys2Proof/Proofs/LinkBounds.lean ====
section
/-! The copy link's bounds (R17, R20, R21): what each of the link's operations does to them, and every row. -/

namespace Sys2Proof.Machine

open Sys2Proof

/-- R20: the accumulator and the held lines where a line may be added. -/
def Link.mayAdd (x : Link) : Prop := x.acc < 256 ∧ x.heldCount ≤ 1 ∧ (x.heldCount = 1 → 128 ≤ x.acc)

/-- R18: the two rings of a link that is on. -/
def Link.joined (x : Link) : Prop := x.source.isSome ∧ x.destination.isSome ∧ x.source ≠ x.destination

theorem bounded_iff (x : Link) : x.bounded = true ↔ (128 ≤ x.keep ∧ x.keep ≤ 256) ∧ (x.st ≠ .off → x.joined)
    ∧ (match x.st with
      | .wait => x.mayAdd
      | .reading => (x.readsOut = true → x.mayAdd) ∧ (x.emitPending = true → x.acc < 512 ∧ x.heldCount ≤ 2)
      | .writing => x.acc < 256 ∧ x.heldCount = 0
      | .off | .ending => True) := by
  unfold Link.bounded Link.joined Link.mayAdd
  cases x.st <;> simp [imp_iff_not_or, and_assoc]

/-- The bounds that every state but OFF shares with ENDING. -/
theorem Link.bounded_ending {x y : Link} (h : x.bounded = true) (hon : x.st ≠ .off) (hst : y.st = .ending)
    (hkeep : y.keep = x.keep) (hsource : y.source = x.source) (hdest : y.destination = x.destination) : y.bounded = true := by
  obtain ⟨hk, hj, -⟩ := (bounded_iff x).mp h
  refine (bounded_iff y).mpr ⟨hkeep ▸ hk, fun _ => ?_, by rw [hst]; trivial⟩
  unfold Link.joined
  rw [hsource, hdest]
  exact hj hon

theorem Link.bounded_off {x y : Link} (h : x.bounded = true) (hst : y.st = .off) (hkeep : y.keep = x.keep) : y.bounded = true := by
  obtain ⟨hk, -⟩ := (bounded_iff x).mp h
  exact (bounded_iff y).mpr ⟨hkeep ▸ hk, fun hon => absurd hst hon, by rw [hst]; trivial⟩

/-! ### The link's operations -/

@[simp] theorem State.linkTryOff_bounded {s : State} (h : s.link.bounded = true) : s.linkTryOff.link.bounded = true := by
  unfold State.linkTryOff; dsimp only
  split
  · refine Link.bounded_off h rfl ?_
    split <;> simp
  · exact h

theorem State.linkDetachSource_bounded {s : State} (h : s.link.bounded = true) (hst : s.link.st = .ending) :
    s.linkDetachSource.link.bounded = true := by
  refine Link.bounded_ending h (by rw [hst]; decide) ?_ ?_ ?_ ?_
  all_goals simp [State.linkDetachSource, hst]

@[simp] theorem State.linkReadsAbandoned_bounded {s : State} (h : s.link.bounded = true) :
    s.linkReadsAbandoned.link.bounded = true := by
  unfold State.linkReadsAbandoned
  split
  next hending => exact State.linkTryOff_bounded (State.linkDetachSource_bounded h hending.1)
  · exact h

theorem State.linkEnd_bounded {s : State} (h : s.link.bounded = true) (hon : s.link.st ≠ .off) (abort : Bool) :
    (s.linkEnd abort).link.bounded = true := by
  have hdetached : ∀ u : State, u.link.bounded = true → u.link.st = .ending →
      (if s.link.readsOut ∧ ¬u.linkReadsDone then u else u.linkDetachSource).link.bounded = true := fun u hu hst => by
    split
    · exact hu
    · exact State.linkDetachSource_bounded hu hst
  unfold State.linkEnd; dsimp only
  split
  · exact hdetached _ (Link.bounded_ending h hon (by simp) (by simp) (by simp) (by simp)) (by simp)
  · refine State.linkTryOff_bounded ?_
    simp only [State.beginPageEnd_link, State.askPageEnd_link]
    exact hdetached _ (Link.bounded_ending h hon (by simp) (by simp) (by simp) (by simp)) (by simp)

@[simp] theorem State.linkStopAll_bounded {s : State} (h : s.link.bounded = true) : s.linkStopAll.link.bounded = true := by
  unfold State.linkStopAll
  split
  · exact h
  next hst => exact Link.bounded_ending h (by rw [hst]; decide) hst rfl rfl rfl
  all_goals
    next hst => exact State.linkEnd_bounded h (by rw [hst]; decide) true

/-- R21: an emission takes 256 from the accumulator where it holds as much. -/
theorem State.linkEmit_bounded {s : State} (h : s.link.bounded = true) (hon : s.link.st ≠ .off) (hacc : s.link.acc < 512) :
    s.linkEmit.link.bounded = true := by
  obtain ⟨hk, hj, -⟩ := (bounded_iff _).mp h
  unfold State.linkEmit; dsimp only
  split
  · exact h
  · refine (bounded_iff _).mpr ⟨hk, fun _ => hj hon, ?_, rfl⟩
    show (if 256 ≤ s.link.acc then s.link.acc - 256 else s.link.acc) < 256
    split <;> omega

theorem State.linkEmitOrWait_bounded {s : State} (h : s.link.bounded = true) (hst : s.link.st = .reading)
    (hread : s.link.readsOut = false) (hacc : s.link.acc < 512) (hheld : s.link.heldCount ≤ 2) :
    s.linkEmitOrWait.link.bounded = true := by
  obtain ⟨hk, hj, -⟩ := (bounded_iff _).mp h
  have hon : s.link.st ≠ .off := by rw [hst]; decide
  unfold State.linkEmitOrWait
  split
  · refine (bounded_iff _).mpr ⟨hk, fun _ => hj hon, ?_⟩
    simp [hst, hread, hacc, hheld]
  · exact State.linkEmit_bounded h hon hacc

@[simp] theorem State.linkSlotAcknowledged_bounded {s : State} (h : s.link.bounded = true) :
    s.linkSlotAcknowledged.link.bounded = true := by
  obtain ⟨hk, hj, hst⟩ := (bounded_iff _).mp h
  unfold State.linkSlotAcknowledged; dsimp only
  split
  next hwriting =>
    have hon : s.link.st ≠ .off := by rw [hwriting]; decide
    rw [hwriting] at hst
    obtain ⟨hacc, hheld⟩ := hst
    split
    · have hcleared : ({ s.link with hold := [], mergedWriting := 0, emitEnd := false, acc := 0, outLine := 0,
                                     startPending := false, sourceLostTail := false } : Link).bounded = true :=
        (bounded_iff _).mpr ⟨hk, fun _ => hj hon, by simp [hwriting, hheld]⟩
      split <;> simp [hcleared]
    · refine (bounded_iff _).mpr ⟨hk, fun _ => hj hon, ?_⟩
      exact ⟨hacc, by simp [hheld], by simp [hheld]⟩
  · exact h

@[simp] theorem State.linkPageEndComplete_bounded {s : State} (h : s.link.bounded = true) :
    s.linkPageEndComplete.link.bounded = true := by
  obtain ⟨hk, hj, hbounds⟩ := (bounded_iff _).mp h
  unfold State.linkPageEndComplete
  split
  · exact State.linkTryOff_bounded h
  next hst =>
    rw [hst] at hbounds
    obtain ⟨hacc, hheld⟩ := hbounds
    refine (bounded_iff _).mpr ⟨hk, fun _ => hj (by rw [hst]; decide), ?_⟩
    exact ⟨hacc, by simp [hheld], by simp [hheld]⟩
  next hst =>
    split
    next hpending =>
      rw [hst] at hbounds
      exact State.linkEmit_bounded h (by rw [hst]; decide) (hbounds.2 hpending).1
    · exact h
  all_goals exact h

@[simp] theorem State.pageEndComplete_bounded {s : State} (h : s.link.bounded = true) (d : RingDesc) :
    (s.pageEndComplete d).link.bounded = true := by
  unfold State.pageEndComplete
  split <;> simp [h]

@[simp] theorem State.slotAcknowledged_bounded {s : State} (h : s.link.bounded = true) (d : RingDesc) (c : Claim) :
    (s.slotAcknowledged d c).link.bounded = true := by
  unfold State.slotAcknowledged
  repeat' split
  all_goals simp [h]

@[simp] theorem State.waitingPageEnd_bounded {s : State} (h : s.link.bounded = true) (r : RingId) (d : RingDesc) :
    (s.waitingPageEnd r d).link.bounded = true := by
  unfold State.waitingPageEnd; dsimp only
  repeat' split
  all_goals simp [h]

/-! ### A source line (R20) -/

/-- R20: a line that starts a page finds none held; what the page before held is gone. -/
theorem linkUnendedPage_link (s : State) (t : Tag) : (s.linkUnendedPage t).link =
    if t.pageStart ∧ 0 < s.link.heldCount then
      { s.link with dropped := satAdd 65535 s.link.dropped s.link.heldCount, heldCount := 0, hold := [], heldLost := 0 }
    else s.link := by
  unfold State.linkUnendedPage; dsimp only
  repeat' split
  all_goals simp

/-- R20: a line merged into a link that may add one: the accumulator stays below 512, at most two lines are held, and below 256 in
the accumulator one alone. -/
theorem merge_bounds {x : Link} (hk : 128 ≤ x.keep ∧ x.keep ≤ 256) (h : x.mayAdd) {t : Tag} (hstart : t.pageStart = true → x.heldCount = 0)
    (words : List Word) : (x.merge t words).acc < 512 ∧ (x.merge t words).heldCount ≤ 2
      ∧ ((x.merge t words).acc < 256 → (x.merge t words).mayAdd) := by
  obtain ⟨hacc, hheld, hone⟩ := h
  have hmerge : (x.merge t words).acc = (if t.pageStart then 0 else x.acc) + x.keep
      ∧ (x.merge t words).heldCount = x.heldCount + 1 := by
    unfold Link.merge
    cases t.pageStart <;> exact ⟨rfl, rfl⟩
  unfold Link.mayAdd
  rw [hmerge.1, hmerge.2]
  cases hpage : t.pageStart
  · simp only [Bool.false_eq_true, if_false]
    omega
  · have := hstart hpage
    simp only [if_true]
    omega

/-- R20: the link a source line is merged into. -/
theorem unended_bounds {x y : Link} (t : Tag) (hadd : x.mayAdd) (hy : y = if t.pageStart ∧ 0 < x.heldCount then
      { x with dropped := satAdd 65535 x.dropped x.heldCount, heldCount := 0, hold := [], heldLost := 0 } else x) :
    y.mayAdd ∧ (t.pageStart = true → y.heldCount = 0) ∧ y.st = x.st ∧ y.keep = x.keep ∧ y.source = x.source
      ∧ y.destination = x.destination := by
  split_ifs at hy with hpage
  · rw [hy]
    exact ⟨⟨hadd.1, by simp, by simp⟩, fun _ => rfl, rfl, rfl, rfl, rfl⟩
  · rw [hy]
    refine ⟨hadd, fun ht => ?_, rfl, rfl, rfl, rfl⟩
    by_contra hne
    exact hpage ⟨ht, Nat.pos_of_ne_zero hne⟩

theorem merge_kept (x : Link) (t : Tag) (words : List Word) : (x.merge t words).st = x.st ∧ (x.merge t words).keep = x.keep
    ∧ (x.merge t words).source = x.source ∧ (x.merge t words).destination = x.destination
    ∧ (x.merge t words).readsOut = false := by
  unfold Link.merge
  cases t.pageStart <;> exact ⟨rfl, rfl, rfl, rfl, rfl⟩

theorem execLinkReadComplete_bounded {s : State} (h : s.link.bounded = true) :
    Meets (fun t => t.link.bounded = true) (execLinkReadComplete s) := by
  refine meets_ite (fun hready => ?_) (fun _ => meets_next.mpr h)
  obtain ⟨hst, hread, -, -⟩ := hready
  obtain ⟨hk, hj, hbounds⟩ := (bounded_iff _).mp h
  rw [hst] at hbounds
  have hadd := hbounds.1 hread
  obtain ⟨hsource, hdest, hdiffer⟩ := hj (by rw [hst]; decide)
  dsimp only
  generalize tagOfHalves (s.pmc.dataOf .linkTag) = t
  generalize halvesToWords (s.pmc.dataOf .linkWords) = words
  have hlink := linkUnendedPage_link s.linkDropReads t
  rw [State.linkDropReads_link] at hlink
  obtain ⟨hadd', hstart, hst', hk', hsource', hdest'⟩ := unended_bounds t hadd hlink
  generalize s.linkDropReads.linkUnendedPage t = u at *
  obtain ⟨hacc, hheld, hlow⟩ := merge_bounds (hk'.symm ▸ hk) hadd' hstart words
  obtain ⟨hst'', hk'', hsource'', hdest'', hread''⟩ := merge_kept u.link t words
  have hmerged : ∀ v : State, v.link = u.link.merge t words → v.link.bounded = true ∧ v.link.st = .reading
      ∧ v.link.readsOut = false ∧ v.link.acc < 512 ∧ v.link.heldCount ≤ 2 := fun v hv => by
    rw [hv]
    refine ⟨(bounded_iff _).mpr ⟨by rwa [hk'', hk'], fun _ => ?_, ?_⟩, hst''.trans (hst'.trans hst), hread'', hacc, hheld⟩
    · exact ⟨by rwa [hsource'', hsource'], by rwa [hdest'', hdest'], by rwa [hsource'', hsource', hdest'', hdest']⟩
    · rw [hst'', hst', hst]
      exact ⟨fun hr => absurd (hread''.symm.trans hr) (by decide), fun _ => ⟨hacc, hheld⟩⟩
  split
  · obtain ⟨hb, hr, ho, ha, hl⟩ := hmerged (((u.setLink (u.link.merge t words)).releaseSlots (u.link.merge t words).sourceRing 1))
      (by simp)
    exact meets_next.mpr (State.linkEmitOrWait_bounded hb hr ho ha hl)
  next hwait =>
    refine meets_next.mpr ((bounded_iff _).mpr ?_)
    simp only [State.setLink_link, State.releaseSlots_link] at hwait ⊢
    refine ⟨by rwa [hk'', hk'], fun _ => ?_, hlow (Nat.lt_of_not_le fun hle => hwait (.inl hle))⟩
    exact ⟨by rwa [hsource'', hsource'], by rwa [hdest'', hdest'], by rwa [hsource'', hsource', hdest'', hdest']⟩

/-! ### Rows -/

theorem checkLinkRings_differ {s : State} {source destination : Byte} {a b : RingId}
    (h : s.checkLinkRings source destination = .ok (a, b)) : a ≠ b := by
  unfold State.checkLinkRings at h
  repeat' split at h
  all_goals try (cases h; done)
  obtain ⟨rfl, rfl⟩ := Prod.mk.inj (Except.ok.inj h)
  assumption

theorem linkStarted_bounded {a b : RingId} (h : a ≠ b) (keep : Nat) : (linkStarted a b keep).bounded = true := by
  have hadd : (linkStarted a b keep).mayAdd := ⟨Nat.zero_lt_succ _, Nat.zero_le _, fun hone => Nat.noConfusion hone⟩
  refine (bounded_iff _).mpr ⟨?_, fun _ => ⟨rfl, rfl, fun hab => h (Option.some.inj hab)⟩, hadd⟩
  show 128 ≤ clampKeep keep ∧ clampKeep keep ≤ 256
  unfold clampKeep
  omega

theorem coldStart_link (s : State) (cause : ColdCause) : (s.coldStart cause).link = {} := by
  unfold State.coldStart State.leaveReset
  split <;> rfl

theorem exec_bounded {i : Instr} {s : State} (h : s.link.bounded = true) : Meets (fun t => t.link.bounded = true) (exec i s) := by
  by_cases hk : keepsStreams i
  · exact fun t ht => (congrArg Link.bounded (link_of_streams (exec_streams hk s t ht))).trans h
  have hcold : ∀ (u : State) (cause : ColdCause), (u.coldStart cause).link.bounded = true := fun u cause => by
    rw [coldStart_link]
    decide
  cases i
  all_goals try (exact absurd rfl hk)
  case linkReadComplete => exact execLinkReadComplete_bounded h
  case linkRings tag source destination keep =>
    refine meets_command rfl h ?_
    rintro u rfl
    simp only [exec, execLinkRings, claimCommand_given]
    split
    · exact meets_next.mpr ((State.handDone_link ..).symm ▸ h)
    next hok =>
      refine meets_next.mpr ?_
      rw [State.handDone_link]
      exact linkStarted_bounded (checkLinkRings_differ hok) _
  case unlink tag =>
    refine meets_command rfl h ?_
    rintro u rfl
    simp only [exec, execUnlink, claimCommand_given]
    split
    · exact meets_next.mpr ((State.handDone_link ..).symm ▸ h)
    next hon =>
      refine meets_next.mpr ?_
      rw [State.handDone_link]
      exact State.linkEnd_bounded (s := u) h (fun hoff => hon (.inl hoff)) false
  case linkTakeSourceLine =>
    simp only [exec, execLinkTakeSourceLine]
    split
    · exact meets_next.mpr h
    · refine meets_ite (fun hmay => meets_next.mpr ?_) (fun _ => meets_next.mpr h)
      simp only [State.linkMayTake, Bool.and_eq_true, beq_iff_eq] at hmay
      obtain ⟨⟨⟨hst, -⟩, -⟩, -⟩ := hmay
      obtain ⟨hkeep, hj, hadd⟩ := (bounded_iff _).mp h
      rw [hst] at hadd
      exact (bounded_iff _).mpr ⟨hkeep, fun _ => hj (by rw [hst]; decide), fun _ => hadd, fun _ => ⟨hadd.1.trans (by decide), hadd.2.1.trans (by decide)⟩⟩
  case powerOnDetect => exact meets_next.mpr (hcold ..)
  case resetPinLow => exact meets_ite (fun _ => meets_next.mpr (hcold ..)) (fun _ => meets_next.mpr h)
  case responsePutAcknowledged =>
    simp only [exec, execResponsePutAcknowledged]
    repeat' split
    all_goals simp [h, hcold]
  case setRing | startScan | startScanCal | stopScan | startPrint | stopPrint | pausePrint | resumePrint | moveMotor | holdMotor
      | releaseMotor | setPower | stopAll =>
    refine meets_command rfl h ?_
    rintro u rfl
    have hu : u.link.bounded = true := h
    simp only [exec, execSetRing, execStartScan, execStartScanCal, execStopScan, execStartPrint, execStopPrint, execPausePrint,
      execResumePrint, execMoveMotor, execHoldMotor, execReleaseMotor, execSetPower, execStopAll, claimCommand_given,
      -List.reduceReplicate]
    repeat' split
    all_goals simp [hu, -List.reduceReplicate]
  case accessEnd =>
    simp only [exec, execAccessEnd]
    split
    · split
      · refine meets_next.mpr ?_
        have : ∀ b : Burst, (s.perform b).link = s.link := fun b => by
          unfold State.perform
          cases b.dir <;> simp
        simp [h, this]
      · exact meets_fault
    all_goals exact meets_next.mpr h
  case lineRingPutWrite | lineRingTakeWrite =>
    simp only [exec, execLineRingPutWrite, execLineRingTakeWrite]
    split
    · exact meets_next.mpr h
    next hu =>
      rw [← link_of_streams (claimArrival_streams hu)] at h
      repeat' split
      all_goals simp [h]
  all_goals
    simp only [exec, execSlotWritesAcknowledged, execPageEndTagAcknowledged, execStepIntervalExpiry, execReadoutComplete,
      execCalTriggerExpiry, execCalReadoutComplete, execCalSumsAcknowledged, execFetchStart, execTagReadComplete,
      execWindowReadComplete, execFetchComplete, execShiftInStart, execShiftInComplete, execLineLatch, execPhaseEnd,
      execNextPhaseStart, execSlewBegin, execPrintStreamOff, execConversionComplete, execRingEdge, execDebounceExpiry,
      execLossWindowExpiry, execWakeTimerExpiry, execStandbyEntry, execRefreshBurstDone, State.memoryBack]
    repeat' split
  all_goals simp [h]

end Sys2Proof.Machine

namespace Sys2Proof.Proofs

open Sys2Proof Sys2Proof.Machine

/-- Settles O31: the operations of the link keep its bounds, and no other operation touches the link. -/
theorem linkBoundsKept : Obligations.LinkBoundsKept := by
  intro s t hs h
  refine step_keeps (P := fun s => s.link.bounded = true) (fun _ _ h => exec_bounded h) (fun _ _ h => h) (fun s h => ?_) hs h
  obtain ⟨x, hx⟩ := s.tick_eq
  rw [hx]
  exact h

end Sys2Proof.Proofs
end

