-- ==== Sys2Proof/Proofs/ScanFrames.lean ====
section
/-! The operations that leave the scan path alone. -/

namespace Sys2Proof.Machine

open Sys2Proof

section
variable (s : State)

@[simp] theorem State.offer_scan (bs : List Burst) : (s.offer bs).scan = s.scan := rfl
@[simp] theorem State.issueRead_scan (cls : MemClass) (req : Req) (address len : Nat) :
    (s.issueRead cls req address len).scan = s.scan := rfl
@[simp] theorem State.issueWrite_scan (cls : MemClass) (req : Req) (address : Nat) (data : List Half) :
    (s.issueWrite cls req address data).scan = s.scan := rfl
@[simp] theorem State.writeWord_scan (cls : MemClass) (offset value : Nat) :
    (s.writeWord cls offset value).scan = s.scan := rfl
@[simp] theorem State.takeOne_scan (q : Req) : (s.takeOne q).scan = s.scan := rfl
@[simp] theorem State.takeAll_scan (q : Req) : (s.takeAll q).scan = s.scan := rfl
@[simp] theorem State.writeCell_scan (mark : CellMark) (bytes : List Byte) :
    (s.writeCell mark bytes).scan = s.scan := rfl
@[simp] theorem State.writeSummary_scan : s.writeSummary.scan = s.scan := rfl
@[simp] theorem State.recordLost_scan (k : Kind) : (s.recordLost k).scan = s.scan := by
  unfold State.recordLost; dsimp only
  repeat' split
  all_goals rfl

@[simp] theorem State.writeSnapshot_scan : s.writeSnapshot.scan = s.scan := rfl
@[simp] theorem State.claimSlot_scan (r : RingId) (d : RingDesc) (tag : Tag) (words : List Word) (buf : Option BufId) : (s.claimSlot r d tag words buf).scan = s.scan := rfl
@[simp] theorem State.publish_scan (r : RingId) (d : RingDesc) : (s.publish r d).scan = s.scan := rfl
@[simp] theorem State.acknowledgeSlot_scan (r : RingId) (d : RingDesc) (c : Claim) (rest : List Claim) :
    (s.acknowledgeSlot r d c rest).scan = s.scan := by
  unfold State.acknowledgeSlot; dsimp only
  repeat' split
  all_goals rfl

@[simp] theorem State.askPageEnd_scan (r : RingId) (lostTail : Bool) : (s.askPageEnd r lostTail).scan = s.scan := by
  unfold State.askPageEnd
  split <;> rfl

@[simp] theorem State.beginPageEnd_scan (r : RingId) (d : RingDesc) : (s.beginPageEnd r d).scan = s.scan := by
  unfold State.beginPageEnd; dsimp only
  repeat' split
  all_goals rfl

@[simp] theorem State.finishPageEnd_scan (r : RingId) (d : RingDesc) : (s.finishPageEnd r d).scan = s.scan := rfl
@[simp] theorem State.releaseTake_scan (r : RingId) (n : Nat) : (s.releaseTake r n).scan = s.scan := by
  unfold State.releaseTake; dsimp only
  repeat' split
  all_goals rfl

@[simp] theorem State.attachProducer_scan (r : RingId) (on : Bool) : (s.attachProducer r on).scan = s.scan := rfl
@[simp] theorem State.attachConsumer_scan (r : RingId) (on : Bool) : (s.attachConsumer r on).scan = s.scan := rfl
@[simp] theorem State.installRing_scan (r : RingId) (d : RingDesc) : (s.installRing r d).scan = s.scan := rfl
@[simp] theorem State.ringFault_scan (r : RingId) (index : Nat) (written held : Nat) :
    (s.ringFault r index written held).scan = s.scan := by simp [State.ringFault]
@[simp] theorem State.startMove_scan (c : Chan) (requester : Owner) (dir : Direction) (profile : Fin 8) (steps : Option Nat) (tag : Byte) : (s.startMove c requester dir profile steps tag).scan = s.scan := by simp [State.startMove]
@[simp] theorem State.stopMove_scan (c : Chan) (cause : StopCause) :
    (s.stopMove c cause).scan = s.scan := by simp [State.stopMove]
@[simp] theorem State.stopBoth_scan (cause : StopCause) : (s.stopBoth cause).scan = s.scan := rfl
@[simp] theorem State.reportHostEnd_scan (ch : Chan) (c : Channel) (cause : EndCause) :
    (s.reportHostEnd ch c cause).scan = s.scan := by simp [State.reportHostEnd]
@[simp] theorem State.handPageScanned_scan (mark : CellMark) :
    (s.handPageScanned mark).scan = s.scan := by simp [State.handPageScanned]
@[simp] theorem State.linkStream_scan : s.linkStream.scan = s.scan := by simp [State.linkStream]
@[simp] theorem State.linkDropReads_scan : s.linkDropReads.scan = s.scan := rfl
@[simp] theorem State.linkDetachSource_scan : s.linkDetachSource.scan = s.scan := rfl
@[simp] theorem State.abandonClaims_scan (r : RingId) : (s.abandonClaims r).scan = s.scan := rfl
@[simp] theorem State.linkEmit_scan : s.linkEmit.scan = s.scan := by
  unfold State.linkEmit; dsimp only
  repeat' split
  all_goals rfl

@[simp] theorem State.pagePrinted_scan (endMark : Bool) :
    (s.pagePrinted endMark).scan = s.scan := by simp [State.pagePrinted]
@[simp] theorem State.printStream_scan : s.printStream.scan = s.scan := by simp [State.printStream]
@[simp] theorem State.finalStream_scan (r : PrintReason) :
    (s.finalStream r).scan = s.scan := by simp [State.finalStream]
@[simp] theorem State.setUrgent_scan (on : Bool) : (s.setUrgent on).scan = s.scan := rfl
@[simp] theorem State.enterPrint_scan (st : PrintState) : (s.enterPrint st).scan = s.scan := by
  unfold State.enterPrint
  split <;> rfl

@[simp] theorem State.printWake_scan : s.printWake.scan = s.scan := by
  unfold State.printWake
  split <;> rfl

@[simp] theorem State.printGoOn_scan (resumed : Bool) : (s.printGoOn resumed).scan = s.scan := by
  unfold State.printGoOn; dsimp only
  repeat' split
  all_goals rfl

@[simp] theorem State.paperMove_scan (steps : Nat) : (s.paperMove steps).scan = s.scan := rfl
@[simp] theorem State.beginPrint_scan (p : PrintParams) : (s.beginPrint p).scan = s.scan := rfl
@[simp] theorem State.stopPrint_scan : s.stopPrint.scan = s.scan := by
  unfold State.stopPrint; dsimp only
  repeat' split
  all_goals rfl

@[simp] theorem State.printCut_scan (reason : PrintReason) : (s.printCut reason).scan = s.scan := by
  unfold State.printCut; dsimp only
  repeat' split
  all_goals rfl

@[simp] theorem State.fetchWordsOf_scan (d : RingDesc) (slot : Nat) (tag : Tag) :
    (s.fetchWordsOf d slot tag).scan = s.scan := rfl
@[simp] theorem State.requestAdvance_scan (h : HeadLine) : (s.requestAdvance h).scan = s.scan := rfl
@[simp] theorem State.latch_scan : s.latch.scan = s.scan := by
  unfold State.latch; dsimp only
  repeat' split
  all_goals rfl

@[simp] theorem State.sweepStart_scan : s.sweepStart.scan = s.scan := by
  unfold State.sweepStart; dsimp only
  repeat' split
  all_goals simp

@[simp] theorem State.placeHold_scan : s.placeHold.scan = s.scan := rfl
@[simp] theorem State.liftHold_scan : s.liftHold.scan = s.scan := rfl
@[simp] theorem State.abandonSweep_scan : s.abandonSweep.scan = s.scan := rfl
@[simp] theorem State.startPeriod_scan : s.startPeriod.scan = s.scan := rfl
@[simp] theorem State.grantPoint_scan : s.grantPoint.scan = s.scan := rfl
@[simp] theorem State.memoryStart_scan : s.memoryStart.scan = s.scan := by
  unfold State.memoryStart
  split <;> rfl

@[simp] theorem State.memoryEntry_scan : s.memoryEntry.scan = s.scan := by
  unfold State.memoryEntry
  split <;> rfl

@[simp] theorem State.memoryWithdraw_scan : s.memoryWithdraw.scan = s.scan := by
  unfold State.memoryWithdraw
  split <;> rfl

@[simp] theorem State.memoryExit_scan : s.memoryExit.scan = s.scan := by
  unfold State.memoryExit
  split <;> rfl

@[simp] theorem State.snoop_scan (b : Burst) : (s.snoop b).scan = s.scan := by
  unfold State.snoop; dsimp only
  repeat' split
  all_goals rfl

@[simp] theorem State.commandRead_scan : s.commandRead.scan = s.scan := by
  unfold State.commandRead; dsimp only
  repeat' split
  all_goals rfl

@[simp] theorem State.clockCell_scan (tag : Byte) (r : Result) (origin : Origin) (code : ClockCode) (target : Option Source) : (s.clockCell tag r origin code target).scan = s.scan := by simp [State.clockCell]
@[simp] theorem State.enterWaitQuiet_scan : s.enterWaitQuiet.scan = s.scan := rfl
@[simp] theorem State.crystalStart_scan : s.crystalStart.scan = s.scan := rfl
@[simp] theorem State.pllStart_scan : s.pllStart.scan = s.scan := rfl
@[simp] theorem State.crystalReady_scan (target : Source) : (s.crystalReady target).scan = s.scan := by
  unfold State.crystalReady
  split <;> rfl

@[simp] theorem State.wakeCell_scan (cause : WakeCause) (fromState : PowerState) (abandoned : Bool) :
    (s.wakeCell cause fromState abandoned).scan = s.scan := by simp [State.wakeCell]
@[simp] theorem State.releaseMotors_scan : s.releaseMotors.scan = s.scan := rfl
@[simp] theorem State.undoRelease_scan : s.undoRelease.scan = s.scan := rfl
@[simp] theorem State.donePower_scan (tag : Byte) (r : Result) (mark : CellMark) :
    (s.donePower tag r mark).scan = s.scan := by simp [State.donePower]
@[simp] theorem State.senseCell_scan (position : Nat) (e : SenseEntry) (before after : Zone) (reading : Nat) :
    (s.senseCell position e before after reading).scan = s.scan := by simp [State.senseCell]
@[simp] theorem State.dropFastRc_scan : s.dropFastRc.scan = s.scan := rfl
@[simp] theorem State.lineCell_scan (k : Kind) (fields : List Byte) : (s.lineCell k fields).scan = s.scan := by
  unfold State.lineCell
  split <;> simp

@[simp] theorem State.cellFault_scan (ring index written held : Nat) :
    (s.cellFault ring index written held).scan = s.scan := by simp [State.cellFault]
@[simp] theorem State.standbyWritten_scan : s.standbyWritten.scan = s.scan := by
  unfold State.standbyWritten; dsimp only
  repeat' split
  all_goals rfl

@[simp] theorem State.finishStopAll_scan (x : StopAll) :
    (s.finishStopAll x).scan = s.scan := by simp [State.finishStopAll]
@[simp] theorem State.linkTryOff_scan : s.linkTryOff.scan = s.scan := by
  unfold State.linkTryOff; dsimp only
  repeat' split
  all_goals simp

@[simp] theorem State.linkEmitOrWait_scan : s.linkEmitOrWait.scan = s.scan := by
  unfold State.linkEmitOrWait
  split <;> simp

@[simp] theorem State.linkSlotAcknowledged_scan : s.linkSlotAcknowledged.scan = s.scan := by
  unfold State.linkSlotAcknowledged; dsimp only
  repeat' split
  all_goals simp

@[simp] theorem State.linkUnendedPage_scan (t : Tag) : (s.linkUnendedPage t).scan = s.scan := by
  unfold State.linkUnendedPage; dsimp only
  repeat' split
  all_goals simp

@[simp] theorem State.enterPause_scan (r : PrintReason) : (s.enterPause r).scan = s.scan := by simp [State.enterPause]
@[simp] theorem State.enterHot_scan : s.enterHot.scan = s.scan := by simp [State.enterHot]
@[simp] theorem State.decideWindow_scan (d : RingDesc) (slot : Nat) (tags : List Tag) :
    (s.decideWindow d slot tags).scan = s.scan := by
  unfold State.decideWindow; dsimp only
  repeat' split
  all_goals simp

@[simp] theorem State.closeUnterminated_scan (pageStart : Bool) : (s.closeUnterminated pageStart).scan = s.scan := by
  unfold State.closeUnterminated
  split <;> simp

@[simp] theorem State.printHeadCool_scan : s.printHeadCool.scan = s.scan := by
  unfold State.printHeadCool; dsimp only
  repeat' split
  all_goals simp

@[simp] theorem State.sweepEnded_scan : s.sweepEnded.scan = s.scan := by
  unfold State.sweepEnded; dsimp only
  repeat' split
  all_goals simp

@[simp] theorem State.reportSwitch_scan (w : Switch) (r : Result) (code : ClockCode) :
    (s.reportSwitch w r code).scan = s.scan := by
  unfold State.reportSwitch; dsimp only
  repeat' split
  all_goals simp

@[simp] theorem State.beginSwitch_scan (target : Source) (origin : Origin) (tag : Byte) :
    (s.beginSwitch target origin tag).scan = s.scan := by
  unfold State.beginSwitch; dsimp only
  repeat' split
  all_goals simp

@[simp] theorem State.finishAbandon_scan : s.finishAbandon.scan = s.scan := by
  unfold State.finishAbandon
  split <;> simp

@[simp] theorem State.leaveOnFastRc_scan : s.leaveOnFastRc.scan = s.scan := by simp [State.leaveOnFastRc]
@[simp] theorem State.beginEntry_scan (tag : Byte) (wakeTimer : Nat) :
    (s.beginEntry tag wakeTimer).scan = s.scan := by simp [State.beginEntry]
@[simp] theorem State.linkReadsAbandoned_scan : s.linkReadsAbandoned.scan = s.scan := by
  unfold State.linkReadsAbandoned
  split <;> simp

@[simp] theorem State.linkEnd_scan (abort : Bool) : (s.linkEnd abort).scan = s.scan := by
  unfold State.linkEnd; dsimp only
  repeat' split
  all_goals simp

@[simp] theorem State.linkPageEndComplete_scan : s.linkPageEndComplete.scan = s.scan := by
  unfold State.linkPageEndComplete; dsimp only
  repeat' split
  all_goals simp

@[simp] theorem State.printPaperLow_scan : s.printPaperLow.scan = s.scan := by
  unfold State.printPaperLow; dsimp only
  repeat' split
  all_goals simp

@[simp] theorem State.printHeadHot_scan : s.printHeadHot.scan = s.scan := by
  unfold State.printHeadHot; dsimp only
  repeat' split
  all_goals simp

@[simp] theorem State.printCoverHigh_scan : s.printCoverHigh.scan = s.scan := by
  unfold State.printCoverHigh; dsimp only
  repeat' split
  all_goals simp

@[simp] theorem State.pausePrint_scan : s.pausePrint.scan = s.scan := by
  unfold State.pausePrint; dsimp only
  repeat' split
  all_goals simp

@[simp] theorem State.normalSweepEnd_scan : s.normalSweepEnd.scan = s.scan := by simp [State.normalSweepEnd]
@[simp] theorem State.switchFail_scan (code : ClockCode) :
    (s.switchFail code).scan = s.scan := by simp [State.switchFail]
@[simp] theorem State.beginLeaving_scan : s.beginLeaving.scan = s.scan := by
  unfold State.beginLeaving; dsimp only
  repeat' split
  all_goals simp

@[simp] theorem State.finishLeaving_scan : s.finishLeaving.scan = s.scan := by
  unfold State.finishLeaving; dsimp only
  repeat' split
  all_goals simp

@[simp] theorem State.standbySweepEnd_scan : s.standbySweepEnd.scan = s.scan := by simp [State.standbySweepEnd]
@[simp] theorem State.linkStopAll_scan : s.linkStopAll.scan = s.scan := by
  unfold State.linkStopAll
  split <;> simp

@[simp] theorem State.standbySweepStart_scan : s.standbySweepStart.scan = s.scan := by
  unfold State.standbySweepStart; dsimp only
  repeat' split
  all_goals simp

@[simp] theorem State.issueWindow_scan (d : RingDesc) (slot n : Nat) : (s.issueWindow d slot n).scan = s.scan := by
  induction n generalizing s slot with
  | zero => rfl
  | succ n ih => rw [State.issueWindow, ih, State.issueRead_scan]

end

end Sys2Proof.Machine
end

