-- ==== Sys2Proof/Proofs/ScanFollows.lean ====
section
/-! What the scan path's operations do to its state: the line accounting (R29, R30, R32, R42), the row stores (R37) and the stages of a
page. -/

namespace Sys2Proof.Machine

open Sys2Proof

/-! ### The line accounting -/

/-- A page is under way. -/
def Scan.inPage (x : Scan) : Prop := x.st ≠ .off ∧ x.st ≠ .cal

/-- R32: the lines of a page that are written, lost or being read. -/
def Scan.told (x : Scan) : Nat :=
  x.linesWritten + x.lostNoBuffer + x.lostOverrun + x.lostNoSlot + (if x.readoutBuf.isSome then 1 else 0)

/-- R29: one readout at most is in progress. -/
def Scan.oneReadout (x : Scan) : Prop := ¬(x.bufA.st = .readout ∧ x.bufB.st = .readout)

/-- R32, R42: each trigger of a page is told once; triggers stay below the page limit until closing. -/
structure Scan.Tallied (x : Scan) : Prop where
  told : x.triggerCount = x.told
  limit : x.params.pageLimit ≤ 16383
  within : x.triggerCount ≤ x.params.pageLimit
  below : x.closing = true ∨ x.triggerCount < x.params.pageLimit
  one : x.oneReadout

theorem accounted_iff (x : Scan) : x.accounted = true ↔ (x.inPage → x.Tallied) := by
  have hfields : x.Tallied ↔ x.triggerCount = x.told ∧ x.params.pageLimit ≤ 16383 ∧ x.triggerCount ≤ x.params.pageLimit
      ∧ (x.closing = true ∨ x.triggerCount < x.params.pageLimit) ∧ x.oneReadout :=
    ⟨fun ⟨a, b, c, d, e⟩ => ⟨a, b, c, d, e⟩, fun ⟨a, b, c, d, e⟩ => ⟨a, b, c, d, e⟩⟩
  rw [hfields]
  unfold Scan.accounted Scan.inPage Scan.told Scan.oneReadout
  cases x.st <;> simp [and_assoc, imp_iff_not_or]

theorem readoutBuf_eq_some {x : Scan} {i : BufId} (h : x.readoutBuf = some i) : (x.buf i).st = .readout := by
  unfold Scan.readoutBuf at h
  split at h
  next ha => obtain rfl := Option.some.inj h; exact ha
  · split at h
    next hb => obtain rfl := Option.some.inj h; exact hb
    · cases h

theorem readoutBuf_eq_none (x : Scan) : x.readoutBuf = none ↔ x.bufA.st ≠ .readout ∧ x.bufB.st ≠ .readout := by
  unfold Scan.readoutBuf
  by_cases ha : x.bufA.st = .readout <;> by_cases hb : x.bufB.st = .readout <;> simp [ha, hb]

theorem readoutBuf_isSome (x : Scan) : x.readoutBuf.isSome = true ↔ x.bufA.st = .readout ∨ x.bufB.st = .readout := by
  unfold Scan.readoutBuf
  by_cases ha : x.bufA.st = .readout <;> by_cases hb : x.bufB.st = .readout <;> simp [ha, hb]

/-- Where one buffer alone is read into, a readout that leaves it leaves none. -/
theorem readoutBuf_setBuf {x : Scan} {i : BufId} (hone : x.oneReadout) (hi : x.readoutBuf = some i) {y : ScanBuf}
    (hy : y.st ≠ .readout) : (x.setBuf i y).readoutBuf = none := by
  have hbuf := readoutBuf_eq_some hi
  rw [readoutBuf_eq_none]
  cases i
  · exact ⟨hy, fun hb => hone ⟨hbuf, hb⟩⟩
  · exact ⟨fun ha => hone ⟨ha, hbuf⟩, hy⟩

theorem oneReadout_of_none {x : Scan} (h : x.readoutBuf = none) : x.oneReadout :=
  fun hboth => ((readoutBuf_eq_none x).mp h).1 hboth.1

/-- What a readout's end and a lost line leave alone. -/
structure Page where
  st : ScanState
  stalledFrom : ScanState
  params : ScanParams
  currentRow : List Int
  triggerCount : Nat
  closing : Bool

def Scan.page (x : Scan) : Page := ⟨x.st, x.stalledFrom, x.params, x.currentRow, x.triggerCount, x.closing⟩

theorem lose_page (x : Scan) (why : LostReason) : (x.lose why).page = x.page := by cases why <;> rfl
theorem setBuf_page (x : Scan) (i : BufId) (y : ScanBuf) : (x.setBuf i y).page = x.page := by cases i <;> rfl

theorem lose_readoutBuf (x : Scan) (why : LostReason) : (x.lose why).readoutBuf = x.readoutBuf := by cases why <;> rfl

/-- R32: a lost line is told; the counts are far from the ends of their words. -/
theorem told_lose {x : Scan} (h : x.told ≤ 16384) (why : LostReason) : (x.lose why).told = x.told + 1 := by
  have count : ∀ {a : Nat}, a ≤ 16384 → satAdd 65535 a 1 = a + 1 := fun ha => satAdd_of_le (by omega)
  unfold Scan.told at *
  rw [lose_readoutBuf]
  cases why
  · show x.linesWritten + satAdd 65535 x.lostNoBuffer 1 + x.lostOverrun + x.lostNoSlot + _ = _
    rw [count (by omega)]; omega
  · show x.linesWritten + x.lostNoBuffer + satAdd 65535 x.lostOverrun 1 + x.lostNoSlot + _ = _
    rw [count (by omega)]; omega
  · show x.linesWritten + x.lostNoBuffer + x.lostOverrun + satAdd 65535 x.lostNoSlot 1 + _ = _
    rw [count (by omega)]; omega

/-- A readout whose buffer is taken from it is no longer told. -/
theorem told_setBuf {x : Scan} {i : BufId} (hone : x.oneReadout) (hi : x.readoutBuf = some i) {y : ScanBuf} (hy : y.st ≠ .readout) :
    (x.setBuf i y).told + 1 = x.told := by
  have hcounts : (x.setBuf i y).linesWritten = x.linesWritten ∧ (x.setBuf i y).lostNoBuffer = x.lostNoBuffer
      ∧ (x.setBuf i y).lostOverrun = x.lostOverrun ∧ (x.setBuf i y).lostNoSlot = x.lostNoSlot := by
    cases i <;> exact ⟨rfl, rfl, rfl, rfl⟩
  obtain ⟨hw, hb, ho, hs⟩ := hcounts
  unfold Scan.told
  rw [readoutBuf_setBuf hone hi hy, hi, hw, hb, ho, hs]
  rfl

/-- R29, R43: an abandoned readout becomes a lost line. -/
theorem told_abandonReadout {x : Scan} (hone : x.oneReadout) (h : x.told ≤ 16384) :
    x.abandonReadout.told = x.told ∧ x.abandonReadout.readoutBuf = none := by
  unfold Scan.abandonReadout
  split
  next i hi =>
    have hfree : ({} : ScanBuf).st ≠ .readout := by decide
    have htold := told_setBuf hone hi hfree
    refine ⟨?_, (lose_readoutBuf ..).trans (readoutBuf_setBuf hone hi hfree)⟩
    show ((x.setBuf i {}).lose .overrun).told = x.told
    rw [told_lose (by omega), htold]
  next hi => exact ⟨rfl, hi⟩

theorem abandonReadout_page (x : Scan) : x.abandonReadout.page = x.page := by
  unfold Scan.abandonReadout
  split
  · exact (lose_page ..).trans (setBuf_page ..)
  · rfl

/-- R29: a readout that begins is told. -/
theorem told_beginReadout {x : Scan} (h : x.readoutBuf = none) (i : BufId) :
    (x.beginReadout i).told = x.told + 1 ∧ (x.beginReadout i).oneReadout := by
  obtain ⟨ha, hb⟩ := (readoutBuf_eq_none x).mp h
  have hsome : (x.beginReadout i).readoutBuf.isSome = true := by
    rw [readoutBuf_isSome]
    cases i
    · exact .inl rfl
    · exact .inr rfl
  refine ⟨?_, ?_⟩
  · unfold Scan.told
    rw [hsome, h]
    cases i <;> rfl
  · cases i
    · exact fun hboth => hb hboth.2
    · exact fun hboth => ha hboth.1

/-- R29: a trigger is told, whichever of its three cases it meets. -/
theorem told_trigger {x : Scan} (hone : x.oneReadout) (h : x.told ≤ 16383) :
    x.trigger.told = x.told + 1 ∧ x.trigger.oneReadout := by
  unfold Scan.trigger
  dsimp only
  split
  next i hi =>
    obtain ⟨htold, hnone⟩ := told_abandonReadout (x := { x with triggerCount := x.triggerCount + 1 }) hone
      (show x.told ≤ 16384 by omega)
    obtain ⟨hbegin, hone'⟩ := told_beginReadout hnone i
    exact ⟨hbegin.trans (congrArg (· + 1) htold), hone'⟩
  next hi =>
    split
    · exact told_beginReadout hi _
    · exact ⟨told_lose (show x.told ≤ 16384 by omega) .noBuffer, hone⟩

theorem trigger_page (x : Scan) : x.trigger.page = { x.page with triggerCount := x.triggerCount + 1 } := by
  unfold Scan.trigger
  dsimp only
  repeat' split
  · exact (setBuf_page ..).trans (abandonReadout_page _)
  · exact setBuf_page ..
  · exact lose_page ..

/-- R42: a trigger that reaches the page limit closes the page. -/
theorem applyClosing_eq (x : Scan) : ∃ trailing closing reason,
    x.applyClosing = { x with trailingRemaining := trailing, closing := closing, endReason := reason }
      ∧ (x.params.pageLimit ≤ x.triggerCount → closing = true) := by
  unfold Scan.applyClosing
  dsimp only
  generalize (if x.inTrailing then x.trailingRemaining - 1 else x.trailingRemaining) = trailing
  split
  · exact ⟨_, _, _, rfl, fun _ => rfl⟩
  next hopen => exact ⟨_, _, _, rfl, fun hle => absurd (by simp [hle]) hopen⟩

theorem tallied_trigger {x : Scan} (h : x.Tallied) (hopen : x.closing ≠ true) : x.trigger.applyClosing.Tallied := by
  have hbelow := h.below.resolve_left hopen
  have htold := h.told
  have hlimit := h.limit
  obtain ⟨ht, hone⟩ := told_trigger h.one (by omega)
  have hparams : x.trigger.params = x.params := congrArg Page.params (trigger_page x)
  have hcount : x.trigger.triggerCount = x.triggerCount + 1 := congrArg Page.triggerCount (trigger_page x)
  obtain ⟨trailing, closing, reason, heq, hclosing⟩ := applyClosing_eq x.trigger
  rw [heq]
  refine ⟨?_, ?_, ?_, ?_, hone⟩
  · show x.trigger.triggerCount = x.trigger.told
    omega
  · show x.trigger.params.pageLimit ≤ 16383
    rwa [hparams]
  · show x.trigger.triggerCount ≤ x.trigger.params.pageLimit
    rw [hparams]
    omega
  · by_cases hreached : x.trigger.params.pageLimit ≤ x.trigger.triggerCount
    · exact .inl (hclosing hreached)
    · exact .inr (Nat.lt_of_not_le hreached)

/-! ### How a stream goes on -/

/-- The stream goes on in its page, leaves it or restarts: the current row stays, the next row and the carry stay or are cleared, and
each trigger stays told. -/
structure Scan.Follows (x y : Scan) : Prop where
  params : y.params = x.params
  current : y.currentRow = x.currentRow
  next : y.nextRow = x.nextRow ∨ y.nextRow = zeroRow
  carry : y.carry = x.carry ∨ y.carry = 0
  stage : y.st = x.st ∨ y.st = .off ∨ x.inPage ∧ (y.inPage ∨ y.st = x.stalledFrom)
  stalled : y.stalledFrom = x.stalledFrom ∨ y.stalledFrom = .capture ∨ y.stalledFrom = .trailing
  counts : x.accounted = true → y.accounted = true

theorem Scan.inPage_of_st {x y : Scan} (h : y.st = x.st) (hx : x.inPage) : y.inPage := ⟨h ▸ hx.1, h ▸ hx.2⟩

theorem Scan.inPage_at {x : Scan} {p : ScanState} (h : x.st = p) (hp : p ≠ .off ∧ p ≠ .cal) : x.inPage := by
  unfold Scan.inPage
  rwa [h]

theorem Scan.Follows.inPage {x y : Scan} (h : x.Follows y) (hy : y.inPage) : x.inPage := by
  obtain hst | hst | ⟨hx, -⟩ := h.stage
  · exact Scan.inPage_of_st hst.symm hy
  · exact absurd hst hy.1
  · exact hx

theorem Scan.Follows.refl (x : Scan) : x.Follows x := ⟨rfl, rfl, .inl rfl, .inl rfl, .inl rfl, .inl rfl, id⟩

theorem Scan.Follows.trans {x y z : Scan} (h : x.Follows y) (h' : y.Follows z) : x.Follows z := by
  refine ⟨h'.params.trans h.params, h'.current.trans h.current, ?_, ?_, ?_, ?_, h'.counts ∘ h.counts⟩
  · exact h'.next.elim (fun hz => hz ▸ h.next) .inr
  · exact h'.carry.elim (fun hz => hz ▸ h.carry) .inr
  · obtain hz | hz | ⟨hy, hz⟩ := h'.stage
    · obtain hy | hy | ⟨hx, hy⟩ := h.stage
      · exact .inl (hz.trans hy)
      · exact .inr (.inl (hz.trans hy))
      · exact .inr (.inr ⟨hx, hy.imp (Scan.inPage_of_st hz) hz.trans⟩)
    · exact .inr (.inl hz)
    · refine .inr (.inr ⟨h.inPage hy, ?_⟩)
      obtain hz | hz := hz
      · exact .inl hz
      · obtain hfrom | hfrom | hfrom := h.stalled
        · exact .inr (hz.trans hfrom)
        all_goals exact .inl (by unfold Scan.inPage; rw [hz, hfrom]; decide)
  · exact h'.stalled.elim (fun hz => hz ▸ h.stalled) .inr

/-- A move in a page: what the stream keeps, and its triggers stay told. -/
theorem Scan.Follows.move {x y : Scan} (hx : x.inPage) (hparams : y.params = x.params) (hcurrent : y.currentRow = x.currentRow)
    (hnext : y.nextRow = x.nextRow ∧ y.carry = x.carry ∨ y.nextRow = zeroRow ∧ y.carry = 0)
    (hst : y.inPage ∨ y.st = x.stalledFrom)
    (hstalled : y.stalledFrom = x.stalledFrom ∨ y.stalledFrom = .capture ∨ y.stalledFrom = .trailing)
    (htally : x.Tallied → y.Tallied) : x.Follows y :=
  ⟨hparams, hcurrent, hnext.imp And.left And.left, hnext.imp And.right And.right, .inr (.inr ⟨hx, hst⟩), hstalled,
    fun h => (accounted_iff y).mpr fun _ => htally ((accounted_iff x).mp h hx)⟩

/-- A move in a page that tells no line: the tally is read from what stays. -/
theorem Scan.Follows.step {x y : Scan} (hx : x.inPage) (hst : y.inPage ∨ y.st = x.stalledFrom)
    (hstalled : y.stalledFrom = x.stalledFrom ∨ y.stalledFrom = .capture ∨ y.stalledFrom = .trailing)
    (hrest : y = { x with
      st := y.st, stalledFrom := y.stalledFrom, stepCounter := y.stepCounter, skipRemaining := y.skipRemaining
      feedCount := y.feedCount, stallCount := y.stallCount, endReason := y.endReason, endCell := y.endCell
      closing := x.closing || y.closing }) : x.Follows y := by
  rw [hrest]
  rw [hrest] at hst hstalled
  refine Scan.Follows.move hx rfl rfl (.inl ⟨rfl, rfl⟩) hst hstalled fun h => ⟨h.told, h.limit, h.within, ?_, h.one⟩
  exact h.below.imp_left fun hclosing => by rw [hclosing]; rfl

/-- A stream that leaves its page, or its calibration, for OFF. -/
theorem Scan.Follows.off {x y : Scan} (hst : y.st = .off) (hparams : y.params = x.params) (hcurrent : y.currentRow = x.currentRow)
    (hnext : y.nextRow = x.nextRow) (hcarry : y.carry = x.carry) (hstalled : y.stalledFrom = x.stalledFrom) : x.Follows y :=
  ⟨hparams, hcurrent, .inl hnext, .inl hcarry, .inr (.inl hst), .inl hstalled,
    fun _ => (accounted_iff y).mpr fun hy => absurd hst hy.1⟩

/-- Outside a page, and with the stage as it was, no trigger is told. -/
theorem Scan.Follows.aside {x y : Scan} (hx : ¬x.inPage) (hst : y.st = x.st) (hparams : y.params = x.params)
    (hcurrent : y.currentRow = x.currentRow) (hnext : y.nextRow = x.nextRow) (hcarry : y.carry = x.carry)
    (hstalled : y.stalledFrom = x.stalledFrom) : x.Follows y :=
  ⟨hparams, hcurrent, .inl hnext, .inl hcarry, .inl hst, .inl hstalled,
    fun _ => (accounted_iff y).mpr fun hy => absurd (Scan.inPage_of_st hst.symm hy) hx⟩

/-! ### Ends of a page and of a calibration -/

section
variable {x : Scan} {s : State}

@[simp] theorem State.scanOff_follows (h : x.Follows s.scan) : x.Follows s.scanOff.scan :=
  h.trans (Scan.Follows.off rfl rfl rfl rfl rfl rfl)

@[simp] theorem State.scanTryOff_follows (h : x.Follows s.scan) : x.Follows s.scanTryOff.scan := by
  unfold State.scanTryOff
  split
  · exact State.scanOff_follows (by simpa using h)
  · exact h

/-- R44: the end cell alone changes. -/
theorem endCell_follows (y : Scan) (e : EndCell) : y.Follows { y with endCell := e } :=
  ⟨rfl, rfl, .inl rfl, .inl rfl, .inl rfl, .inl rfl, fun h => (accounted_iff _).mpr fun hp =>
    let ⟨a, b, c, d, e⟩ := (accounted_iff y).mp h hp
    ⟨a, b, c, d, e⟩⟩

@[simp] theorem State.scanPageEndComplete_follows (h : x.Follows s.scan) : x.Follows s.scanPageEndComplete.scan := by
  unfold State.scanPageEndComplete
  refine State.scanTryOff_follows (Scan.Follows.trans (y := s.scan) h ?_)
  simpa using endCell_follows s.scan _

theorem State.scanPageEnd_follows (h : x.Follows s.scan) (hp : s.scan.inPage) (reason : ScanReason) :
    x.Follows (s.scanPageEnd reason).scan := by
  have hend : x.Follows ({ s.scan with st := .ending, endReason := some reason, endCell := .notYet }) :=
    h.trans (Scan.Follows.step hp (.inl (Scan.inPage_at (p := .ending) rfl (by decide))) (.inl rfl) (by simp))
  unfold State.scanPageEnd; dsimp only
  split
  · simpa using hend
  · split
    · refine State.scanPageEndComplete_follows ?_
      simpa using hend
    · simpa using hend

@[simp] theorem State.calFinish_follows (h : x.Follows s.scan) : x.Follows s.calFinish.scan :=
  State.scanOff_follows (by simpa using h)

@[simp] theorem State.calCut_follows (h : x.Follows s.scan) (hcal : s.scan.st = .cal) (reason : ScanReason) :
    x.Follows (s.calCut reason).scan := by
  have hout : ¬s.scan.inPage := fun hp => hp.2 hcal
  unfold State.calCut; dsimp only
  split
  · split
    · exact h.trans (Scan.Follows.aside hout rfl rfl rfl rfl rfl rfl)
    · exact h
  · exact State.calFinish_follows (h.trans (Scan.Follows.aside hout rfl rfl rfl rfl rfl rfl))

theorem abandonReadout_follows {y : Scan} (hp : y.inPage) : y.Follows y.abandonReadout := by
  have hpage := abandonReadout_page y
  have hst : y.abandonReadout.st = y.st := congrArg Page.st hpage
  refine Scan.Follows.move hp (congrArg Page.params hpage) (congrArg Page.currentRow hpage) ?_
    (.inl (Scan.inPage_of_st hst hp)) (.inl (congrArg Page.stalledFrom hpage)) fun h => ?_
  · unfold Scan.abandonReadout
    split
    · exact .inr ⟨rfl, rfl⟩
    · exact .inl ⟨rfl, rfl⟩
  · have hcount : y.abandonReadout.triggerCount = y.triggerCount := congrArg Page.triggerCount hpage
    have hparams : y.abandonReadout.params = y.params := congrArg Page.params hpage
    have hclosing : y.abandonReadout.closing = y.closing := congrArg Page.closing hpage
    have htold := h.told
    have hlimit := h.limit
    have hwithin := h.within
    obtain ⟨hsame, hnone⟩ := told_abandonReadout h.one (by omega)
    exact ⟨by rw [hcount, hsame, htold], by rwa [hparams], by rwa [hcount, hparams], by rw [hcount, hparams, hclosing]; exact h.below,
      oneReadout_of_none hnone⟩

@[simp] theorem State.scanCut_follows (h : x.Follows s.scan) (reason : ScanReason) : x.Follows (s.scanCut reason).scan := by
  unfold State.scanCut
  split
  case h_5 hst => exact State.calCut_follows h hst reason
  case h_6 | h_7 => exact h
  all_goals
    next hst =>
      have hp : s.scan.inPage := Scan.inPage_at hst (by decide)
      have habandon := abandonReadout_follows hp
      refine State.scanPageEnd_follows (h.trans habandon) ?_ reason
      exact Scan.inPage_of_st (congrArg Page.st (abandonReadout_page s.scan)) hp

/-! ### Margins -/

@[simp] theorem State.scanCheckMargin_follows (h : x.Follows s.scan) : x.Follows s.scanCheckMargin.scan := by
  unfold State.scanCheckMargin; dsimp only
  split
  case h_1 hst =>
    split
    · refine h.trans (Scan.Follows.step (Scan.inPage_at hst (by decide)) (.inl (Scan.inPage_at (p := .stalled) rfl (by decide))) (.inr ?_) (by simp))
      exact .inl hst
    · exact h
  case h_2 hst =>
    split
    · refine h.trans (Scan.Follows.step (Scan.inPage_at hst (by decide)) (.inl (Scan.inPage_at (p := .stalled) rfl (by decide))) (.inr ?_) (by simp))
      exact .inr hst
    · exact h
  all_goals exact h

@[simp] theorem State.scanRestart_follows (h : x.Follows s.scan) : x.Follows s.scanRestart.scan := by
  unfold State.scanRestart; dsimp only
  split
  next hstalled =>
    exact h.trans (Scan.Follows.step (Scan.inPage_at hstalled.1 (by decide)) (.inr rfl) (.inl rfl) (by simp))
  · exact h

@[simp] theorem State.scanFreed_follows (h : x.Follows s.scan) (r : RingId) : x.Follows (s.scanFreed r).scan := by
  unfold State.scanFreed
  split <;> simp [h]

@[simp] theorem State.releaseSlots_follows (h : x.Follows s.scan) (r : RingId) (n : Nat) : x.Follows (s.releaseSlots r n).scan :=
  State.scanFreed_follows (by simpa using h) r

/-! ### Triggers and the document's edges -/

theorem State.scanCloseIfIdle_follows (h : x.Follows s.scan) (hp : s.scan.inPage) : x.Follows s.scanCloseIfIdle.scan := by
  unfold State.scanCloseIfIdle
  split
  · exact State.scanPageEnd_follows h hp _
  · exact h

theorem trigger_follows {y : Scan} (hp : y.inPage) (hopen : y.closing ≠ true) : y.Follows y.trigger.applyClosing := by
  have hpage := trigger_page y
  obtain ⟨trailing, closing, reason, heq, -⟩ := applyClosing_eq y.trigger
  have hst : y.trigger.applyClosing.st = y.st := by rw [heq]; exact congrArg Page.st hpage
  refine Scan.Follows.move hp ?_ ?_ ?_ (.inl (Scan.inPage_of_st hst hp)) (.inl ?_) fun h => tallied_trigger h hopen
  · rw [heq]; exact congrArg Page.params hpage
  · rw [heq]; exact congrArg Page.currentRow hpage
  · rw [heq]
    show y.trigger.nextRow = y.nextRow ∧ y.trigger.carry = y.carry ∨ y.trigger.nextRow = zeroRow ∧ y.trigger.carry = 0
    unfold Scan.trigger; dsimp only
    split
    next i hi =>
      refine .inr ?_
      unfold Scan.abandonReadout
      rw [hi]
      cases i <;> exact ⟨rfl, rfl⟩
    · split
      next i _ => cases i <;> exact .inl ⟨rfl, rfl⟩
      · exact .inl ⟨rfl, rfl⟩
  · rw [heq]; exact congrArg Page.stalledFrom hpage

theorem State.scanTriggerPosition_follows (h : x.Follows s.scan) (hp : s.scan.inPage) : x.Follows s.scanTriggerPosition.scan := by
  unfold State.scanTriggerPosition; dsimp only
  split
  · exact h.trans (Scan.Follows.step hp (.inl hp) (.inl rfl) (by simp))
  · split
    · exact h
    next hopen =>
      have htrigger := trigger_follows hp hopen
      refine State.scanCloseIfIdle_follows (h.trans htrigger) ?_
      obtain ⟨trailing, closing, reason, heq, -⟩ := applyClosing_eq s.scan.trigger
      refine Scan.inPage_of_st ?_ hp
      show s.scan.trigger.applyClosing.st = s.scan.st
      rw [heq]
      exact congrArg Page.st (trigger_page s.scan)

@[simp] theorem State.scanDocStep_follows (h : x.Follows s.scan) : x.Follows s.scanDocStep.scan := by
  unfold State.scanDocStep; dsimp only
  split
  case h_1 | h_2 | h_3 => exact h
  case h_4 hst =>
    have hp : s.scan.inPage := Scan.inPage_at hst (by decide)
    have hfed : x.Follows { s.scan with feedCount := satAdd 65535 s.scan.feedCount 1 } :=
      h.trans (Scan.Follows.step hp (.inl hp) (.inl rfl) (by simp))
    split
    · exact State.scanPageEnd_follows (s := s.setScan _) hfed hp _
    · exact hfed
  all_goals
    next hst =>
      have hp : s.scan.inPage := Scan.inPage_at hst (by decide)
      have hcounted : ∀ n, x.Follows { s.scan with stepCounter := n } := fun n =>
        h.trans (Scan.Follows.step hp (.inl hp) (.inl rfl) (by simp))
      split
      · exact State.scanTriggerPosition_follows (s := s.setScan _) (hcounted 0) hp
      · exact hcounted _

@[simp] theorem State.docEdgeHigh_follows (h : x.Follows s.scan) : x.Follows s.docEdgeHigh.scan := by
  unfold State.docEdgeHigh
  split
  next hst =>
    exact State.scanCheckMargin_follows (h.trans
      (Scan.Follows.step (Scan.inPage_at hst (by decide)) (.inl (Scan.inPage_at (p := .capture) rfl (by decide))) (.inl rfl) (by simp)))
  · exact h

theorem State.closeAtEdge_follows (h : x.Follows s.scan) (hp : s.scan.inPage) : x.Follows s.closeAtEdge.scan := by
  unfold State.closeAtEdge; dsimp only
  split
  · exact State.scanCloseIfIdle_follows (h.trans (Scan.Follows.step hp (.inl hp) (.inl rfl) (by simp))) hp
  · exact h

@[simp] theorem State.docEdgeLow_follows (h : x.Follows s.scan) : x.Follows s.docEdgeLow.scan := by
  unfold State.docEdgeLow; dsimp only
  split
  case h_1 hst =>
    have hp : s.scan.inPage := Scan.inPage_at hst (by decide)
    split
    · exact State.scanPageEnd_follows h hp _
    · have hq : ({ s.scan with st := .trailing } : Scan).inPage := Scan.inPage_at (p := .trailing) rfl (by decide)
      exact State.closeAtEdge_follows (h.trans (Scan.Follows.step hp (.inl hq) (.inl rfl) (by simp))) hq
  case h_2 hst =>
    have hp : s.scan.inPage := Scan.inPage_at hst (by decide)
    split
    · exact State.closeAtEdge_follows (h.trans (Scan.Follows.step hp (.inl hp) (.inr (.inr rfl)) (by simp))) hp
    · exact h
  all_goals exact h

/-! ### Readouts -/

theorem State.scanCheckMargin_inPage (h : s.scan.inPage) : s.scanCheckMargin.scan.inPage := by
  unfold State.scanCheckMargin; dsimp only
  split
  case h_1 | h_2 =>
    split
    · exact Scan.inPage_at (p := .stalled) rfl (by decide)
    · exact h
  all_goals exact h

/-- A readout that ends is told as a line that is written or lost. -/
theorem readoutEnd_follows {y z : Scan} (hp : y.inPage) (hpage : z.page = y.page)
    (hnext : z.nextRow = y.nextRow) (hcarry : z.carry = y.carry)
    (htold : y.oneReadout → y.told ≤ 16383 → z.told = y.told ∧ z.readoutBuf = none) : y.Follows z := by
  have hst : z.st = y.st := congrArg Page.st hpage
  have hcount : z.triggerCount = y.triggerCount := congrArg Page.triggerCount hpage
  have hparams : z.params = y.params := congrArg Page.params hpage
  have hclosing : z.closing = y.closing := congrArg Page.closing hpage
  refine Scan.Follows.move hp hparams (congrArg Page.currentRow hpage) (.inl ⟨hnext, hcarry⟩) (.inl (Scan.inPage_of_st hst hp))
    (.inl (congrArg Page.stalledFrom hpage)) fun h => ?_
  have hlimit := h.limit
  have hwithin := h.within
  obtain ⟨hsame, hnone⟩ := htold h.one (by rw [← h.told]; omega)
  exact ⟨by rw [hcount, hsame, h.told], by rwa [hparams], by rwa [hcount, hparams], by rw [hcount, hparams, hclosing]; exact h.below,
    oneReadout_of_none hnone⟩

/-- R30: the line is lost NO_SLOT. -/
theorem noSlot_follows {y : Scan} (hp : y.inPage) {i : BufId} (hi : y.readoutBuf = some i) :
    y.Follows ((y.setBuf i {}).lose .noSlot) := by
  have hfree : ({} : ScanBuf).st ≠ .readout := by decide
  refine readoutEnd_follows hp ((lose_page ..).trans (setBuf_page ..)) (by cases i <;> rfl) (by cases i <;> rfl)
    fun hone hle => ?_
  have htold := told_setBuf hone hi hfree
  exact ⟨by rw [told_lose (by omega), htold], (lose_readoutBuf ..).trans (readoutBuf_setBuf hone hi hfree)⟩

/-- R30: the line is written. -/
theorem written_follows {y : Scan} (hp : y.inPage) {i : BufId} (hi : y.readoutBuf = some i) (words : List Word) (black : Nat) :
    y.Follows { y.setBuf i { st := .writing, words := words, black := black } with
      linesWritten := y.linesWritten + 1, lostSinceWritten := 0 } := by
  have hbusy : ({ st := .writing, words := words, black := black } : ScanBuf).st ≠ .readout := ScanBufState.noConfusion
  refine readoutEnd_follows hp (setBuf_page ..) (by cases i <;> rfl) (by cases i <;> rfl) fun hone hle => ?_
  have htold := told_setBuf hone hi hbusy
  have hnone := readoutBuf_setBuf hone hi hbusy
  refine ⟨?_, hnone⟩
  rw [← htold]
  unfold Scan.told
  cases i
  all_goals
    show (y.linesWritten + 1) + y.lostNoBuffer + y.lostOverrun + y.lostNoSlot + _ = (y.linesWritten + _ + _ + _ + _) + 1
    rw [Nat.add_right_comm y.linesWritten 1, Nat.add_right_comm _ 1, Nat.add_right_comm _ 1, Nat.add_right_comm _ 1]
    rfl

theorem State.scanClaim_follows (h : x.Follows s.scan) (hp : s.scan.inPage) {i : BufId} (hi : s.scan.readoutBuf = some i)
    (words : List Word) (black : Nat) : x.Follows (s.scanClaim i words black).scan ∧ (s.scanClaim i words black).scan.inPage := by
  have hlost := noSlot_follows hp hi
  have hlostPage : ((s.scan.setBuf i {}).lose .noSlot).inPage :=
    Scan.inPage_of_st (x := s.scan) (congrArg Page.st ((lose_page _ .noSlot).trans (setBuf_page s.scan i {}))) hp
  have hwritten := written_follows hp hi words black
  unfold State.scanClaim; dsimp only
  split
  · exact ⟨h.trans hlost, hlostPage⟩
  · split
    · have hpage : ({ s.scan.setBuf i { st := .writing, words := words, black := black } with
          linesWritten := s.scan.linesWritten + 1, lostSinceWritten := 0 } : Scan).inPage :=
        Scan.inPage_of_st (x := s.scan) (congrArg Page.st (setBuf_page s.scan i _)) hp
      exact ⟨State.scanCheckMargin_follows (h.trans hwritten), State.scanCheckMargin_inPage hpage⟩
    · exact ⟨h.trans hlost, hlostPage⟩

/-- R31: a staging buffer in WRITING that becomes FREE is no readout. -/
theorem freed_follows {y : Scan} {i : BufId} (hi : (y.buf i).st = .writing) : y.Follows (y.setBuf i {}) := by
  have hpage := setBuf_page y i {}
  have hst : (y.setBuf i {}).st = y.st := congrArg Page.st hpage
  by_cases hp : y.inPage
  · refine Scan.Follows.move hp (congrArg Page.params hpage) (congrArg Page.currentRow hpage) (.inl ?_)
      (.inl (Scan.inPage_of_st hst hp)) (.inl (congrArg Page.stalledFrom hpage)) fun h => ?_
    · cases i <;> exact ⟨rfl, rfl⟩
    · obtain ⟨htold, hlimit, hwithin, hbelow, hone⟩ := h
      have hbuf : (y.setBuf i {}).readoutBuf = y.readoutBuf := by
        unfold Scan.readoutBuf
        cases i
        · have hi : y.bufA.st = .writing := hi
          by_cases hb : y.bufB.st = .readout <;> simp [Scan.setBuf, hi, hb]
        · have hi : y.bufB.st = .writing := hi
          simp [Scan.setBuf, hi]
      have hsame : (y.setBuf i {}).told = y.told := by
        unfold Scan.told
        rw [hbuf]
        cases i <;> rfl
      cases i
      · exact ⟨htold.trans hsame.symm, hlimit, hwithin, hbelow, fun hboth => by cases hboth.1⟩
      · exact ⟨htold.trans hsame.symm, hlimit, hwithin, hbelow, fun hboth => by cases hboth.2⟩
  · exact Scan.Follows.aside hp hst (congrArg Page.params hpage) (congrArg Page.currentRow hpage) (by cases i <;> rfl)
      (by cases i <;> rfl) (congrArg Page.stalledFrom hpage)

end

end Sys2Proof.Machine
end

