-- ==== Sys2Proof/Proofs/ScanRows.lean ====
section
/-! The line accounting of a scan stream over every row (R29, R30, R32, R42). -/

namespace Sys2Proof.Machine

open Sys2Proof

section
variable (s : State)

@[simp] theorem State.abandonEntry_scan : s.abandonEntry.scan = s.scan := by
  unfold State.abandonEntry
  repeat' split
  all_goals simp

@[simp] theorem State.wake_scan (cause : WakeCause) : (s.wake cause).scan = s.scan := by
  unfold State.wake
  repeat' split
  all_goals simp

@[simp] theorem State.sweepFrom_scan (standbySweep : Bool) (p : Nat) : (s.sweepFrom standbySweep p).scan = s.scan := by
  unfold State.sweepFrom
  repeat' split
  all_goals simp

@[simp] theorem State.burstQualifies_scan : s.burstQualifies.scan = s.scan := by
  simp [State.burstQualifies]

@[simp] theorem State.debouncedChange_scan (input : InputLine) (high : Bool) : (s.debouncedChange input high).scan = s.scan := by
  unfold State.debouncedChange; dsimp only
  repeat' split
  all_goals simp

@[simp] theorem State.readSource_scan (source length n : Nat) : (s.readSource source length n).scan = s.scan := by
  induction n generalizing s source length with
  | zero => rfl
  | succ n ih => rw [State.readSource, ih, State.issueRead_scan]

end

section
variable {x : Scan} {s : State}

@[simp] theorem State.pageScannedWritten_follows (h : x.Follows s.scan) : x.Follows s.pageScannedWritten.scan := by
  unfold State.pageScannedWritten
  split
  · exact State.scanTryOff_follows (h.trans (endCell_follows ..))
  · exact h

@[simp] theorem State.slotAcknowledged_follows (h : x.Follows s.scan) (d : RingDesc) (c : Claim) :
    x.Follows (s.slotAcknowledged d c).scan := by
  unfold State.slotAcknowledged
  split
  · split
    next hwriting => exact h.trans (freed_follows hwriting)
    · exact h
  all_goals simp [h]

theorem takePending_follows (h : x.Follows s.scan) {goOn : State → State}
    (hgo : ∀ u : State, x.Follows u.scan → x.Follows (goOn u).scan) : x.Follows (s.takePending goOn).scan := by
  unfold State.takePending; dsimp only
  split
  · simp -implicitDefEqProofs [h]
  · split
    · simp -implicitDefEqProofs [h]
    · split
      · simp -implicitDefEqProofs [h]
      · exact hgo _ (by simp -implicitDefEqProofs [h])

@[simp] theorem State.feedEnd_follows (h : x.Follows s.scan) : x.Follows s.feedEnd.scan := by
  unfold State.feedEnd; dsimp only
  split
  · simp -implicitDefEqProofs [h]
  · exact takePending_follows (by simp -implicitDefEqProofs [h]) fun u hu => by simp -implicitDefEqProofs [hu]

@[simp] theorem State.pageEnds_follows (h : x.Follows s.scan) : x.Follows s.pageEnds.scan := by
  unfold State.pageEnds; dsimp only
  repeat' split
  all_goals simp -implicitDefEqProofs [h]

@[simp] theorem State.itemFollow_follows (h : x.Follows s.scan) (resumed : Bool) : x.Follows (s.itemFollow resumed).scan := by
  unfold State.itemFollow
  split
  · exact h
  · exact takePending_follows h fun u hu => by simp -implicitDefEqProofs [hu]

@[simp] theorem State.lineDone_follows (hs : x.Follows s.scan) (h : HeadLine) (resumed : Bool) :
    x.Follows (s.lineDone h resumed).scan := by
  unfold State.lineDone; dsimp only
  split <;> simp -implicitDefEqProofs [hs]

@[simp] theorem State.slewEnd_follows (h : x.Follows s.scan) (w : Slew) (n : Nat) (resumed : Bool) :
    x.Follows (s.slewEnd w n resumed).scan := by
  unfold State.slewEnd; dsimp only
  split <;> simp -implicitDefEqProofs [h]

@[simp] theorem State.completeItem_follows (h : x.Follows s.scan) (item : Item) (resumed : Bool) :
    x.Follows (s.completeItem item resumed).scan := by
  unfold State.completeItem; dsimp only
  split <;> simp -implicitDefEqProofs [h]

@[simp] theorem State.beginOwed_follows (h : x.Follows s.scan) (item : Item) : x.Follows (s.beginOwed item).scan := by
  unfold State.beginOwed; dsimp only
  split <;> simp -implicitDefEqProofs [h]

@[simp] theorem State.endItem_follows (h : x.Follows s.scan) (item : Item) (notTaken : Nat) :
    x.Follows (s.endItem item notTaken).scan := by
  unfold State.endItem; dsimp only
  split <;> simp -implicitDefEqProofs [h]

@[simp] theorem State.endingMoveEnd_follows (h : x.Follows s.scan) (item : Item) (notTaken : Nat) :
    x.Follows (s.endingMoveEnd item notTaken).scan := by
  unfold State.endingMoveEnd; dsimp only
  repeat' split
  all_goals simp -implicitDefEqProofs [h]

@[simp] theorem State.printMoveEnd_follows (h : x.Follows s.scan) : x.Follows s.printMoveEnd.scan := by
  unfold State.printMoveEnd; dsimp only
  repeat' split
  all_goals simp -implicitDefEqProofs [h]

@[simp] theorem State.afterPhase_follows (hs : x.Follows s.scan) (h : HeadLine) : x.Follows (s.afterPhase h).scan := by
  unfold State.afterPhase; dsimp only
  repeat' split
  all_goals simp -implicitDefEqProofs [hs]

@[simp] theorem State.resumePrint_follows (h : x.Follows s.scan) : x.Follows s.resumePrint.scan := by
  unfold State.resumePrint; dsimp only
  repeat' split
  all_goals simp -implicitDefEqProofs [h]

@[simp] theorem State.scanMoveEnd_follows (h : x.Follows s.scan) : x.Follows s.scanMoveEnd.scan := by
  simp -implicitDefEqProofs [State.scanMoveEnd, h]

@[simp] theorem State.reportEnd_follows (h : x.Follows s.scan) (ch : Chan) (cause : EndCause) :
    x.Follows (s.reportEnd ch cause).scan := by
  unfold State.reportEnd
  split <;> simp -implicitDefEqProofs [h]

@[simp] theorem State.reportStep_follows (h : x.Follows s.scan) (ch : Chan) : x.Follows (s.reportStep ch).scan := by
  unfold State.reportStep; split <;> simp -implicitDefEqProofs [h]

theorem State.emergencyReport_follows (h : x.Follows s.scan) (doc paper : Bool) (cause : EndCause) :
    x.Follows (s.emergencyReport doc paper cause).scan := by
  unfold State.emergencyReport
  cases doc <;> cases paper <;> simp -implicitDefEqProofs [h]

@[simp] theorem State.emergencyStop_follows (h : x.Follows s.scan) (a : ScanReason) (b : PrintReason) (cause : EndCause) :
    x.Follows (s.emergencyStop a b cause).scan :=
  State.emergencyReport_follows (by simp -implicitDefEqProofs [State.emergencyHold, h]) ..

@[simp] theorem State.pageEndComplete_follows (h : x.Follows s.scan) (d : RingDesc) : x.Follows (s.pageEndComplete d).scan := by
  unfold State.pageEndComplete; split <;> simp -implicitDefEqProofs [h]

@[simp] theorem State.waitingPageEnd_follows (h : x.Follows s.scan) (r : RingId) (d : RingDesc) : x.Follows (s.waitingPageEnd r d).scan := by
  unfold State.waitingPageEnd; dsimp only
  repeat' split
  all_goals simp -implicitDefEqProofs [h]

@[simp] theorem State.clockFailure_follows (h : x.Follows s.scan) : x.Follows s.clockFailure.scan := by
  unfold State.clockFailure; dsimp only
  split <;> simp -implicitDefEqProofs [h]

@[simp] theorem State.zoneToBlocks_follows (h : x.Follows s.scan) (role : Role) (zone : Zone) :
    x.Follows (s.zoneToBlocks role zone).scan := by
  unfold State.zoneToBlocks
  split <;> simp -implicitDefEqProofs [h]

@[simp] theorem State.zoneChange_follows (h : x.Follows s.scan) (standbySweep : Bool) (position : Nat) (e : SenseEntry)
    (before after : Zone) (reading : Nat) : x.Follows (s.zoneChange standbySweep position e before after reading).scan := by
  have hblocks : ∀ u : State, x.Follows u.scan → ∀ c, x.Follows ((if e.wake then (u.zoneToBlocks e.role after).wake c
      else u.zoneToBlocks e.role after)).scan := fun u hu c => by
    split <;> simp -implicitDefEqProofs [hu]
  unfold State.zoneChange; dsimp only
  split
  · split <;> simp -implicitDefEqProofs [h]
  · refine hblocks _ ?_ _
    split
    · simpa using h
    · exact h

@[simp] theorem State.convertEntry_follows (h : x.Follows s.scan) (standbySweep : Bool) (position raw : Nat) :
    x.Follows (s.convertEntry standbySweep position raw).scan := by
  unfold State.convertEntry; dsimp only
  repeat' split
  all_goals simp -implicitDefEqProofs [h]

end

/-! ### Rows -/

/-- The rows that begin a page or a calibration, end a readout, or begin a cold start. -/
def beginsScan : Instr → Bool
  | .startScan .. | .startScanCal .. | .readoutComplete _ | .powerOnDetect | .resetPinLow | .responsePutAcknowledged => true
  | _ => false

theorem exec_follows {i : Instr} (hi : beginsScan i = false) (s : State) : Meets (fun t => s.scan.Follows t.scan) (exec i s) := by
  by_cases hk : keepsStreams i
  · exact fun t ht => (scan_of_streams (exec_streams hk s t ht)).symm ▸ Scan.Follows.refl _
  have h := Scan.Follows.refl s.scan
  cases i
  all_goals try (exact absurd rfl hk)
  all_goals try (cases hi; done)
  case setRing | stopScan | startPrint | stopPrint | pausePrint | resumePrint | linkRings | unlink | moveMotor | holdMotor
      | releaseMotor | setPower | stopAll =>
    generalize hx : s.scan = x at *
    refine meets_command rfl (hx ▸ h) ?_
    rintro u rfl
    have hu : x.Follows u.scan := hx ▸ h
    simp only [exec, execSetRing, execStopScan, execStartPrint, execStopPrint, execPausePrint, execLinkRings, execUnlink,
      execResumePrint, execMoveMotor, execHoldMotor, execReleaseMotor, execSetPower, execStopAll, claimCommand_given]
    repeat' split
    all_goals simp -implicitDefEqProofs [hu]
  case accessEnd =>
    simp only [exec, execAccessEnd]
    split
    · split
      · refine meets_next.mpr ?_
        have : ∀ b : Burst, (s.perform b).scan = s.scan := fun b => by
          unfold State.perform
          cases b.dir <;> simp
        simp [h, this]
      · exact meets_fault
    all_goals exact meets_next.mpr h
  case lineRingPutWrite | lineRingTakeWrite =>
    simp only [exec, execLineRingPutWrite, execLineRingTakeWrite]
    split
    · exact meets_next.mpr h
    next hu =>
      rw [← scan_of_streams (claimArrival_streams hu)] at h ⊢
      repeat' split
      all_goals simp -implicitDefEqProofs [h]
  case calTriggerExpiry =>
    simp only [exec, execCalTriggerExpiry]
    refine meets_ite (fun hcal => ?_) (fun _ => meets_next.mpr h)
    have hout : ¬s.scan.inPage := fun hp => hp.2 hcal.1
    split
    all_goals exact meets_next.mpr (Scan.Follows.aside hout rfl rfl rfl rfl rfl rfl)
  case calReadoutComplete samples =>
    simp only [exec, execCalReadoutComplete]
    refine meets_ite (fun hcal => ?_) (fun _ => meets_next.mpr h)
    have hout : ¬s.scan.inPage := fun hp => hp.2 hcal.1
    split
    all_goals exact meets_next.mpr (Scan.Follows.aside hout rfl rfl rfl rfl rfl rfl)
  case calSumsAcknowledged =>
    simp only [exec, execCalSumsAcknowledged]
    refine meets_ite (fun hcal => meets_next.mpr ?_) (fun _ => meets_next.mpr h)
    have hout : ¬s.scan.inPage := fun hp => hp.2 hcal.1
    exact State.calFinish_follows (s := (s.takeOne .calSums).setScan _) (Scan.Follows.aside hout rfl rfl rfl rfl rfl rfl)
  all_goals
    simp only [exec, execSlotWritesAcknowledged, execPageEndTagAcknowledged, execStepIntervalExpiry, execLinkTakeSourceLine,
      execLinkReadComplete, execFetchStart, execTagReadComplete,
      execWindowReadComplete, execFetchComplete, execShiftInStart, execShiftInComplete, execLineLatch, execPhaseEnd,
      execNextPhaseStart, execSlewBegin, execPrintStreamOff, execConversionComplete, execRingEdge, execDebounceExpiry,
      execLossWindowExpiry, execWakeTimerExpiry, execStandbyEntry, execRefreshBurstDone, State.memoryBack]
    repeat' split
  all_goals simp -implicitDefEqProofs [h]

/-- What the stream of a state goes on from in a row: itself, a page or a calibration that begins, the stores after a line, or the
state after a cold start. -/
inductive Scan.From (s : State) : Scan → Prop
  | same : Scan.From s s.scan
  | page (p : ScanParams) (edge : Bool) (hmode : p.mode ≠ .cal) (hlimit : 1 ≤ p.pageLimit ∧ p.pageLimit ≤ 16383) :
      Scan.From s (scanStarted p edge)
  | calibration (y : Scan) (hst : y.st = .cal) (hmode : y.params.mode = .cal) (hcurrent : y.currentRow = s.scan.currentRow)
      (hnext : y.nextRow = s.scan.nextRow) (hcarry : y.carry = s.scan.carry) (hstalled : y.stalledFrom = s.scan.stalledFrom) :
      Scan.From s y
  | line (samples : List Byte) (hp : s.scan.inPage) : Scan.From s { s.scan with
      currentRow := (s.scanLine samples).2.1, nextRow := (s.scanLine samples).2.2, carry := 0 }
  | cold : Scan.From s {}

theorem lineModeOf_ne_cal {n : Nat} {m : ScanMode} (h : lineModeOf n = some m) : m ≠ .cal := by
  unfold lineModeOf at h
  split at h
  all_goals cases h
  all_goals decide

theorem checkStartScan_good {s : State} {ring : Byte} {mode start k profile : BitVec 4} {theta skip trailing : Byte}
    {width pageLimit feedLimit : Half} {stopMargin restartMargin : Byte} {p : ScanParams} {edge : Bool}
    (h : s.checkStartScan ring mode start k profile theta skip trailing width pageLimit feedLimit stopMargin restartMargin
      = .ok (p, edge)) : p.mode ≠ .cal ∧ 1 ≤ p.pageLimit ∧ p.pageLimit ≤ 16383 := by
  unfold State.checkStartScan at h
  dsimp only at h
  repeat' split at h
  all_goals try (cases h; done)
  obtain ⟨rfl, rfl⟩ := Prod.mk.inj (Except.ok.inj h)
  have hgood := not_not.mp ‹¬¬(stepsPerLineOk k.toNat = true ∧ _)›
  obtain ⟨-, -, hlow, hhigh, -⟩ := hgood
  exact ⟨lineModeOf_ne_cal ‹lineModeOf mode.toNat = some _›, hlow, hhigh⟩

theorem State.startCapture_follows {x : Scan} {s : State} (h : x.Follows s.scan) (hp : s.scan.inPage) :
    x.Follows s.startCapture.scan :=
  State.scanCheckMargin_follows (h.trans
    (Scan.Follows.step hp (.inl (Scan.inPage_at (p := .capture) rfl (by decide))) (.inl rfl) (by simp)))

theorem State.beginScan_follows (s : State) (p : ScanParams) (edge : Bool) :
    (scanStarted p edge).Follows (s.beginScan p edge).scan := by
  have hp : (scanStarted p edge).inPage := by
    cases edge
    · exact Scan.inPage_at (p := .capture) rfl (by decide)
    · exact Scan.inPage_at (p := .waitEdge) rfl (by decide)
  have hcapture : ∀ u : State, u.scan = scanStarted p edge → (scanStarted p edge).Follows u.startCapture.scan := fun u hu =>
    State.startCapture_follows (hu ▸ Scan.Follows.refl _) (hu ▸ hp)
  unfold State.beginScan; dsimp only
  repeat' split
  · exact hcapture _ (by simp)
  · simpa using Scan.Follows.refl _
  · exact hcapture _ (by simp)

theorem execReadoutComplete_from (s : State) (samples : List Byte) :
    Meets (fun t => ∃ y, Scan.From s y ∧ y.Follows t.scan) (execReadoutComplete samples s) := by
  have stay : ∃ y, Scan.From s y ∧ y.Follows s.scan := ⟨_, .same, .refl _⟩
  have act : ∀ {i : BufId}, s.scan.inPage → s.scan.readoutBuf = some i → ∀ words black,
      ∃ y, Scan.From s y ∧ y.Follows (((s.setScan { s.scan with
        currentRow := (s.scanLine samples).2.1, nextRow := (s.scanLine samples).2.2, carry := 0 }).scanClaim i words
          black).scanCloseIfIdle).scan := fun hp hi words black => by
    refine ⟨_, .line samples hp, ?_⟩
    obtain ⟨hclaim, hpage⟩ := State.scanClaim_follows (s := s.setScan { s.scan with
      currentRow := (s.scanLine samples).2.1, nextRow := (s.scanLine samples).2.2, carry := 0 }) (.refl _) hp hi words black
    exact State.scanCloseIfIdle_follows hclaim hpage
  unfold execReadoutComplete
  split
  case h_4 => exact meets_next.mpr stay
  all_goals
    next hst hi =>
      refine meets_ite (fun _ => meets_next.mpr ?_) (fun _ => meets_next.mpr stay)
      exact act (Scan.inPage_at hst (by decide)) hi _ _

theorem coldStart_scan (s : State) (cause : ColdCause) : (s.coldStart cause).scan = {} := by
  unfold State.coldStart State.leaveReset
  split <;> rfl

theorem exec_from (i : Instr) (s : State) : Meets (fun t => ∃ y, Scan.From s y ∧ y.Follows t.scan) (exec i s) := by
  by_cases hi : beginsScan i = false
  · exact fun t ht => ⟨_, .same, exec_follows hi s t ht⟩
  have stay : ∃ y, Scan.From s y ∧ y.Follows s.scan := ⟨_, .same, .refl _⟩
  have cold : ∀ (u : State) (cause : ColdCause), ∃ y, Scan.From s y ∧ y.Follows (u.coldStart cause).scan := fun u cause =>
    ⟨_, .cold, by rw [coldStart_scan]; exact .refl _⟩
  cases i
  all_goals try (exact absurd rfl hi)
  case startScan tag ring mode start k profile theta skip trailing width pageLimit feedLimit stopMargin restartMargin =>
    refine meets_command rfl stay ?_
    rintro u rfl
    simp only [exec, execStartScan, claimCommand_given]
    split
    · exact meets_next.mpr ⟨_, .same, by rw [State.handDone_scan]; exact .refl _⟩
    next p edge hok =>
      obtain ⟨hmode, hlimit⟩ := checkStartScan_good hok
      exact meets_next.mpr ⟨_, .page p edge hmode hlimit, State.beginScan_follows ..⟩
  case startScanCal tag lamp lines width interval destination =>
    refine meets_command rfl stay ?_
    rintro u rfl
    simp only [exec, execStartScanCal, claimCommand_given, -List.reduceReplicate]
    split
    · exact meets_next.mpr ⟨_, .same, by rw [State.handDone_scan]; exact .refl _⟩
    next p hok =>
      have hmode : p.mode = .cal := by
        unfold State.checkStartCal at hok
        dsimp only at hok
        repeat' split at hok
        all_goals try (cases hok; done)
        obtain rfl := Except.ok.inj hok
        rfl
      refine meets_next.mpr ⟨_, .calibration _ ?_ ?_ ?_ ?_ ?_ ?_, .refl _⟩
      · rfl
      · exact hmode
      all_goals simp [-List.reduceReplicate, State.given]
  case readoutComplete samples => exact execReadoutComplete_from s samples
  case powerOnDetect => exact meets_next.mpr (cold ..)
  case resetPinLow => exact meets_ite (fun _ => meets_next.mpr (cold ..)) (fun _ => meets_next.mpr stay)
  case responsePutAcknowledged =>
    have h := Scan.Follows.refl s.scan
    simp only [exec, execResponsePutAcknowledged]
    split
    · refine meets_ite (fun _ => ?_) (fun _ => meets_next.mpr stay)
      split
      · exact meets_next.mpr stay
      · exact meets_next.mpr (cold ..)
      all_goals exact meets_next.mpr ⟨_, .same, by simp -implicitDefEqProofs [h]⟩
    · exact meets_ite (fun _ => meets_next.mpr (cold ..)) (fun _ => meets_next.mpr stay)

/-! ### The accounting -/

theorem accounted_from {s : State} {y : Scan} (h : s.scan.accounted = true) (hy : Scan.From s y) : y.accounted = true := by
  rw [accounted_iff] at h ⊢
  intro hp
  cases hy with
  | same => exact h hp
  | page p edge hmode hlimit => exact ⟨rfl, hlimit.2, Nat.zero_le _, .inr hlimit.1, oneReadout_of_none rfl⟩
  | calibration y hst => exact absurd hst hp.2
  | line samples hp' =>
    obtain ⟨a, b, c, d, e⟩ := h hp'
    exact ⟨a, b, c, d, e⟩
  | cold => exact absurd rfl hp.1

end Sys2Proof.Machine

namespace Sys2Proof.Proofs

open Sys2Proof Sys2Proof.Machine

/-- Settles O36: every row's stream follows the one it goes on from, and both keep each trigger told once. -/
theorem scanAccountingKept : Obligations.ScanAccountingKept := by
  intro s t hs h
  refine step_keeps (P := fun s => s.scan.accounted = true) (fun i s h t ht => ?_) (fun _ _ h => h) (fun s h => ?_) hs h
  · obtain ⟨y, hy, hfollows⟩ := exec_from i s t ht
    exact hfollows.counts (accounted_from h hy)
  · obtain ⟨x, hx⟩ := s.tick_eq
    rw [hx]
    exact h

end Sys2Proof.Proofs
end

