-- ==== Sys2Proof/Proofs/Diffusion.lean ====
section
/-! Error diffusion (R35 to R38): the shares of one line, the stores of a stream, and the tables they are read from. -/

namespace Sys2Proof.Machine

open Sys2Proof

/-! ### Shares -/

/-- R36: a share is the truncated part of the error's magnitude, with its sign. -/
theorem errorShare_eq (k : Nat) (e : Int) : errorShare k e = if 0 ≤ e then (k : Int) * e / 16 else -((k : Int) * -e / 16) := by
  unfold errorShare
  split
  next he => exact Int.tdiv_eq_ediv_of_nonneg (Int.mul_nonneg (Int.natCast_nonneg k) he)
  next he =>
    have hneg : (k : Int) * e = -((k : Int) * -e) := by rw [Int.mul_neg, Int.neg_neg]
    rw [hneg, Int.neg_tdiv, Int.tdiv_eq_ediv_of_nonneg (Int.mul_nonneg (Int.natCast_nonneg k) (by omega))]

/-- R36: the shares of an error within -127 to 127. -/
theorem errorShare_bounds {e : Int} (h : -127 ≤ e ∧ e ≤ 127) :
    (-55 ≤ errorShare 7 e ∧ errorShare 7 e ≤ 55) ∧ (-23 ≤ errorShare 3 e ∧ errorShare 3 e ≤ 23)
      ∧ (-7 ≤ errorShare 1 e ∧ errorShare 1 e ≤ 7) ∧ (-42 ≤ belowShare e ∧ belowShare e ≤ 42) := by
  have h7 := errorShare_eq 7 e
  have h3 := errorShare_eq 3 e
  have h1 := errorShare_eq 1 e
  simp only [Nat.cast_ofNat, Nat.cast_one] at h7 h3 h1
  unfold belowShare
  rw [h7, h3, h1]
  split <;> omega

/-- R35: a pel's value and its error. -/
theorem diffuseError_bounds {t : Nat} {row carry : Int} (ht : t ≤ 255) (hrow : -72 ≤ row ∧ row ≤ 72)
    (hcarry : -55 ≤ carry ∧ carry ≤ 55) : (t : Int) + (row + carry) ≤ 382 ∧ -127 ≤ (t : Int) + (row + carry)
      ∧ -127 ≤ diffuseError (t + (row + carry)) ∧ diffuseError (t + (row + carry)) ≤ 127 := by
  unfold diffuseError diffuseBlack
  simp only [decide_eq_true_eq]
  split <;> omega

/-! ### A line -/

theorem diffuse_length (prev : Option Int) (cur carry : Int) (line : List (Nat × Int)) :
    (diffuse prev cur carry line).1.length = line.length
      ∧ (diffuse prev cur carry line).2.length = prev.toList.length + line.length := by
  induction line generalizing prev cur carry with
  | nil => exact ⟨rfl, rfl⟩
  | cons p rest ih =>
    obtain ⟨t, row⟩ := p
    simp only [diffuse, List.length_cons, List.length_append]
    obtain ⟨hpels, hshares⟩ := ih (some (cur + belowShare (diffuseError (t + (row + carry)))))
      (errorShare 1 (diffuseError (t + (row + carry)))) (errorShare 7 (diffuseError (t + (row + carry))))
    rw [hpels, hshares]
    refine ⟨rfl, ?_⟩
    cases prev
    all_goals
      simp only [Option.map_some, Option.map_none, Option.toList_some, Option.toList_none, List.length_singleton, List.length_nil]
      omega

/-- R38: the shares a line leaves for the next one. -/
theorem diffuse_bounds {line : List (Nat × Int)} (hline : ∀ p ∈ line, p.1 ≤ 255 ∧ -72 ≤ p.2 ∧ p.2 ≤ 72) {prev : Option Int}
    {cur carry : Int} (hprev : ∀ q ∈ prev, -49 ≤ q ∧ q ≤ 49) (hcur : -7 ≤ cur ∧ cur ≤ 7) (hcarry : -55 ≤ carry ∧ carry ≤ 55) :
    ∀ e ∈ (diffuse prev cur carry line).2, -72 ≤ e ∧ e ≤ 72 := by
  induction line generalizing prev cur carry with
  | nil =>
    intro e he
    have := hprev e (Option.mem_toList.mp he)
    omega
  | cons p rest ih =>
    obtain ⟨t, row⟩ := p
    obtain ⟨ht, hrow⟩ : t ≤ 255 ∧ -72 ≤ row ∧ row ≤ 72 := hline (t, row) List.mem_cons_self
    obtain ⟨-, -, herror⟩ := diffuseError_bounds ht hrow hcarry
    obtain ⟨h7, h3, h1, hbelow⟩ := errorShare_bounds herror
    intro e he
    simp only [diffuse, List.mem_append] at he
    obtain he | he := he
    · obtain ⟨q, hq, rfl⟩ := Option.map_eq_some_iff.mp (Option.mem_toList.mp he)
      have := hprev q hq
      omega
    · refine ih (fun p hp => hline p (List.mem_cons_of_mem _ hp)) ?_ h1 h7 e he
      intro q hq
      obtain rfl := Option.some.inj hq
      omega

/-! ### The stores -/

theorem addRow_length (a b : List Int) : (addRow a b).length = max a.length b.length := by
  induction a generalizing b with
  | nil => cases b <;> simp [addRow]
  | cons x xs ih =>
    cases b with
    | nil => simp [addRow]
    | cons y ys => simp [addRow, ih, Nat.add_max_add_right]

/-- A line added to a clear row. -/
theorem addRow_bounds {a b : List Int} (ha : ∀ e ∈ a, -72 ≤ e ∧ e ≤ 72) (hb : ∀ e ∈ b, e = 0) :
    ∀ e ∈ addRow a b, -72 ≤ e ∧ e ≤ 72 := by
  induction a generalizing b with
  | nil =>
    intro e he
    have hmem : e ∈ b := by
      cases b
      · cases he
      · exact he
    rw [hb e hmem]
    decide
  | cons x xs ih =>
    cases b with
    | nil => exact ha
    | cons y ys =>
      intro e he
      simp only [addRow, List.mem_cons] at he
      obtain rfl | he := he
      · rw [hb y List.mem_cons_self, Int.add_zero]
        exact ha x List.mem_cons_self
      · exact ih (fun e he => ha e (List.mem_cons_of_mem _ he)) (fun e he => hb e (List.mem_cons_of_mem _ he)) e he

theorem toneOf_le {tone : List Nat} (h : ∀ t ∈ tone, t ≤ 255) (c : Nat) : toneOf tone c ≤ 255 := by
  unfold toneOf
  rw [List.getD_eq_getElem?_getD]
  cases hc : tone[c]? with
  | none => exact Nat.zero_le _
  | some t => exact h t (List.mem_of_getElem? hc)

/-- R38: what the stores of a scan hold between readouts. -/
structure Scan.Small (x : Scan) : Prop where
  current : ∀ e ∈ x.currentRow, -72 ≤ e ∧ e ≤ 72
  next : ∀ e ∈ x.nextRow, e = 0
  carry : x.carry = 0

theorem errorsBounded_iff (s : State) : s.errorsBounded = true ↔ s.scan.Small ∧ ∀ t ∈ s.tables.tone, t ≤ 255 := by
  have hfields : s.scan.Small ↔ (∀ e ∈ s.scan.currentRow, -72 ≤ e ∧ e ≤ 72) ∧ (∀ e ∈ s.scan.nextRow, e = 0) ∧ s.scan.carry = 0 :=
    ⟨fun ⟨a, b, c⟩ => ⟨a, b, c⟩, fun ⟨a, b, c⟩ => ⟨a, b, c⟩⟩
  rw [hfields]
  unfold State.errorsBounded
  simp [and_assoc]

theorem zeroRow_zero : ∀ e ∈ zeroRow, e = 0 := fun _ he => List.eq_of_mem_replicate he

theorem zero_small {x : Scan} (hcurrent : x.currentRow = zeroRow) (hnext : x.nextRow = zeroRow) (hcarry : x.carry = 0) :
    x.Small := by
  refine ⟨?_, hnext ▸ zeroRow_zero, hcarry⟩
  rw [hcurrent]
  intro e he
  rw [zeroRow_zero e he]
  decide

theorem small_follows {x y : Scan} (h : x.Small) (hxy : x.Follows y) : y.Small := by
  refine ⟨hxy.current ▸ h.current, ?_, hxy.carry.elim (fun hc => hc.trans h.carry) id⟩
  obtain hnext | hnext := hxy.next
  · exact hnext ▸ h.next
  · exact hnext ▸ zeroRow_zero

/-- R35 to R38: a line leaves the stores small. -/
theorem scanLine_small {s : State} (h : s.scan.Small) (htone : ∀ t ∈ s.tables.tone, t ≤ 255) (samples : List Byte) :
    ({ s.scan with currentRow := (s.scanLine samples).2.1, nextRow := (s.scanLine samples).2.2, carry := 0 } : Scan).Small := by
  obtain ⟨hcurrent, hnext, hcarry⟩ := h
  unfold State.scanLine
  dsimp only
  split
  · refine ⟨?_, zeroRow_zero, rfl⟩
    refine addRow_bounds (diffuse_bounds (fun p hp => ?_) (fun q hq => by cases hq) (by decide) ?_) hnext
    · obtain ⟨htones, hrow⟩ := List.of_mem_zip hp
      obtain ⟨k, hk⟩ := List.mem_iff_getElem?.mp htones
      refine ⟨?_, hcurrent _ hrow⟩
      unfold toneLine at hk
      rw [List.getElem?_zipWith] at hk
      split at hk
      · exact Option.some.inj hk ▸ toneOf_le htone _
      · cases hk
    · rw [hcarry]
      decide
  all_goals exact ⟨hcurrent, hnext, rfl⟩

theorem small_from {s : State} {y : Scan} (h : s.scan.Small) (htone : ∀ t ∈ s.tables.tone, t ≤ 255) (hy : Scan.From s y) :
    y.Small := by
  cases hy with
  | same => exact h
  | page p edge => exact zero_small rfl rfl rfl
  | calibration y _ _ hcurrent hnext hcarry => exact ⟨hcurrent ▸ h.current, hnext ▸ h.next, hcarry.trans h.carry⟩
  | line samples => exact scanLine_small h htone samples
  | cold => exact zero_small rfl rfl rfl

/-! ### The tables -/

theorem tables_of_ground {s t : State} (h : t.ground = s.ground) : t.tables = s.tables := congrArg Ground.tables h

section
variable (s : State)

@[simp] theorem State.bootFail_tables (code : Nat) : (s.bootFail code).tables = s.tables := rfl
@[simp] theorem State.takeOne_tables (q : Req) : (s.takeOne q).tables = s.tables := rfl
@[simp] theorem State.spiRead_tables (a n : Nat) : (s.spiRead a n).tables = s.tables := rfl

@[simp] theorem State.enterRelease_tables : s.enterRelease.tables = s.tables := by
  simp [State.enterRelease, State.beginWatching, State.startPeriod, State.issueWrite, State.offer]

@[simp] theorem State.endImageWalk_tables : s.endImageWalk.tables = s.tables := by
  unfold State.endImageWalk
  split <;> simp

@[simp] theorem State.endWalk_tables : s.endWalk.tables = s.tables := by
  unfold State.endWalk; dsimp only
  repeat' split
  all_goals simp

@[simp] theorem State.nextRecord_tables (len : Nat) : (s.nextRecord len).tables = s.tables := by
  unfold State.nextRecord; dsimp only
  split <;> simp

@[simp] theorem State.enterTables_tables : s.enterTables.tables = s.tables := by
  unfold State.enterTables; dsimp only
  split <;> simp

@[simp] theorem State.badTable_tables (table : Nat) : (s.badTable table).tables = s.tables := by
  unfold State.badTable
  split <;> simp

@[simp] theorem State.writeImage_tables (destination : Nat) (data : List Half) (n : Nat) :
    (s.writeImage destination data n).tables = s.tables := congrArg Ground.tables (State.writeImage_ground ..)

@[simp] theorem State.configHeader_tables (h : RecordHeader) : (s.configHeader h).tables = s.tables := by
  unfold State.configHeader
  split <;> simp

@[simp] theorem State.tablesHeader_tables (h : RecordHeader) : (s.tablesHeader h).tables = s.tables := by
  unfold State.tablesHeader
  repeat' split
  all_goals simp

@[simp] theorem State.imageHeader_tables (h : RecordHeader) (image : List (Option Byte)) :
    (s.imageHeader h image).tables = s.tables := by
  unfold State.imageHeader; dsimp only
  repeat' split
  all_goals simp

@[simp] theorem State.applyConfig_tables (c : BoardConfig) : (s.applyConfig c).tables = s.tables := by
  have hswitch : ∀ (u : State) a b c, (u.beginSwitch a b c).tables = u.tables := fun u a b c => tables_of_ground (by simp)
  have hstart : ∀ u : State, u.memoryStart.tables = u.tables := fun u => tables_of_ground (by simp)
  unfold State.applyConfig; dsimp only
  split <;> simp [hswitch, hstart]

end

section
variable {P : TableStore → Prop} (area : ∀ x a, P x → P { x with loadArea := a })
  (install : ∀ (s : State) (id : TableId) (d : List Half) (t : TableData), parseTable id d = some t → P s.tables →
    P (s.installTable t).tables)
  (cold : P {})
include area install cold

/-- What the tables keep: a new load area, tables installed from good sources, and the defaults of a cold start keep it. -/
theorem exec_tables {i : Instr} {s : State} (h : P s.tables) : Meets (fun t => P t.tables) (exec i s) := by
  by_cases hk : keepsGround i
  · exact fun t ht => (congrArg P (tables_of_ground (exec_ground hk s t ht))).mpr h
  by_cases hcold : coldRow i
  · intro t ht
    obtain ⟨u, cause, rfl, -⟩ | hground := exec_coldRow hcold s t ht
    · unfold State.coldStart State.leaveReset
      split <;> exact cold
    · exact (congrArg P (tables_of_ground hground)).mpr h
  cases i
  all_goals try (exact absurd rfl hk)
  all_goals try (exact absurd rfl hcold)
  case accessEnd =>
    intro t ht
    obtain hground | ⟨b, cycles, -, -, hground⟩ := execAccessEnd_ground s t ht
    · exact (congrArg P (tables_of_ground hground)).mpr h
    · exact (congrArg P (show t.tables = s.tables from congrArg Ground.tables hground)).mpr h
  case tableLoadReadsComplete =>
    simp only [exec, execTableLoadReadsComplete]
    split
    · exact meets_next.mpr h
    next id source length _ =>
      refine meets_ite (fun _ => ?_) (fun _ => meets_next.mpr h)
      have hloaded : P (((s.takeAll .tableLoad).setCells { s.cells with loader := .idle }).fillLoadArea
          (s.pmc.dataOf .tableLoad)).tables := area _ _ h
      have hdone : ∀ (u : State) tag r detail, (u.handDone tag 1 r detail).tables = u.tables := fun u tag r detail =>
        tables_of_ground (by simp)
      split
      · exact meets_next.mpr (by rw [hdone]; exact hloaded)
      next u hu =>
        refine meets_next.mpr ?_
        rw [hdone]
        unfold State.finishLoad at hu
        split at hu
        · cases hu
        next table htable =>
          split at hu
          · cases hu
          · obtain rfl := Except.ok.inj hu
            split at htable
            · exact install _ id _ _ htable hloaded
            · cases htable
  case tableRecordRead data =>
    simp only [exec, execTableRecordRead]
    split
    next header _ _ =>
      have hloaded : ∀ d, P ((s.spiRead (s.boot.romAddr + 12) (2 * header.length)).fillLoadArea d).tables := fun d => area _ _ h
      split
      next id table hgood =>
        refine meets_next.mpr ?_
        rw [State.nextRecord_tables]
        unfold goodTable at hgood
        split at hgood
        · cases hgood
        · split at hgood
          · obtain ⟨table', htable, hpair⟩ := Option.map_eq_some_iff.mp hgood
            obtain ⟨rfl, rfl⟩ := Prod.mk.inj hpair
            exact install _ _ _ _ htable (hloaded _)
          · cases hgood
      · refine meets_next.mpr ?_
        rw [State.nextRecord_tables, State.badTable_tables]
        exact hloaded _
    · exact meets_next.mpr h
  case refreshBurstDone =>
    have hleaving : ∀ u : State, u.finishLeaving.tables = u.tables := fun u => tables_of_ground (by simp)
    have habandon : ∀ u : State, u.finishAbandon.tables = u.tables := fun u => tables_of_ground (by simp)
    simp only [exec, execRefreshBurstDone, State.memoryBack]
    repeat' split
    all_goals simp [h, hleaving, habandon]
  all_goals
    simp only [exec, execResetPinHigh, State.leaveReset, execRomHeaderRead,
      execRecordHeaderRead, execConfigRecordRead, execImageWritesAcknowledged, execReleaseWritesAcknowledged,
      execFaultPulseTimerExpiry]
    repeat' split
  all_goals simp [h]

end

/-! ### The stores of a line -/

/-- R25, R51: the row stores have their entries; the mode and the state a stream stalled from fit its state. -/
structure Scan.Whole (x : Scan) : Prop where
  current : x.currentRow.length = 2048
  next : x.nextRow.length = 2048
  cal : x.st = .cal → x.params.mode = .cal
  page : x.inPage → x.params.mode ≠ .cal
  stalled : x.stalledFrom = .capture ∨ x.stalledFrom = .trailing

theorem scanWhole_iff (s : State) : s.scanWhole = true ↔ s.tables.shading.length = 2048 ∧ s.scan.Whole := by
  have hfields : s.scan.Whole ↔ s.scan.currentRow.length = 2048 ∧ s.scan.nextRow.length = 2048
      ∧ (s.scan.st = .cal → s.scan.params.mode = .cal) ∧ (s.scan.inPage → s.scan.params.mode ≠ .cal)
      ∧ (s.scan.stalledFrom = .capture ∨ s.scan.stalledFrom = .trailing) :=
    ⟨fun ⟨a, b, c, d, e⟩ => ⟨a, b, c, d, e⟩, fun ⟨a, b, c, d, e⟩ => ⟨a, b, c, d, e⟩⟩
  rw [hfields]
  unfold State.scanWhole Scan.inPage
  cases s.scan.st <;> simp [and_assoc]

theorem whole_follows {x y : Scan} (h : x.Whole) (hxy : x.Follows y) : y.Whole := by
  refine ⟨hxy.current ▸ h.current, ?_, fun hcal => ?_, fun hp => hxy.params ▸ h.page (hxy.inPage hp), ?_⟩
  · obtain hnext | hnext := hxy.next
    · exact hnext ▸ h.next
    · rw [hnext]
      exact List.length_replicate
  · rw [hxy.params]
    obtain hst | hst | ⟨-, hp | hst⟩ := hxy.stage
    · exact h.cal (hst.symm.trans hcal)
    · cases hst.symm.trans hcal
    · exact absurd hcal hp.2
    · obtain hfrom | hfrom := h.stalled
      all_goals cases (hst.symm.trans hcal).symm.trans hfrom
  · obtain hfrom | hfrom := hxy.stalled
    · exact hfrom ▸ h.stalled
    · exact hfrom

theorem scanLine_whole {s : State} (h : s.scan.Whole) (samples : List Byte) :
    ({ s.scan with currentRow := (s.scanLine samples).2.1, nextRow := (s.scanLine samples).2.2, carry := 0 } : Scan).Whole := by
  obtain ⟨hcurrent, hnext, hcal, hpage, hstalled⟩ := h
  unfold State.scanLine
  dsimp only
  split
  · refine ⟨?_, List.length_replicate, hcal, hpage, hstalled⟩
    rw [addRow_length, (diffuse_length ..).2, List.length_zip, hnext, hcurrent]
    show max (0 + min _ 2048) 2048 = 2048
    omega
  all_goals exact ⟨hcurrent, hnext, hcal, hpage, hstalled⟩

theorem whole_from {s : State} {y : Scan} (h : s.scan.Whole) (hy : Scan.From s y) : y.Whole := by
  cases hy with
  | same => exact h
  | page p edge hmode =>
    refine ⟨List.length_replicate, List.length_replicate, fun hcal => ?_, fun _ => hmode, .inl rfl⟩
    cases edge <;> cases hcal
  | calibration y hst hmode hcurrent hnext hcarry hstalled =>
    exact ⟨hcurrent ▸ h.current, hnext ▸ h.next, fun _ => hmode, fun hp => absurd hst hp.2, hstalled ▸ h.stalled⟩
  | line samples => exact scanLine_whole h samples
  | cold => exact ⟨List.length_replicate, List.length_replicate, (by intro hcal; cases hcal), fun hp => absurd rfl hp.1, .inl rfl⟩

/-! ### Rows -/

/-- R195: a tone table's entries are bytes. -/
theorem parseTone_le {d : List Half} {t : List Nat} (h : parseTone d = some t) : ∀ x ∈ t, x ≤ 255 := by
  obtain ⟨-, rfl⟩ := ite_some_eq h
  intro x hx
  obtain ⟨b, -, rfl⟩ := List.mem_map.mp hx
  exact byte_le b

theorem installTable_tone {s : State} {id : TableId} {d : List Half} {t : TableData} (h : parseTable id d = some t)
    (htone : ∀ x ∈ s.tables.tone, x ≤ 255) : ∀ x ∈ (s.installTable t).tables.tone, x ≤ 255 := by
  cases id
  all_goals
    obtain ⟨v, hv, rfl⟩ := Option.map_eq_some_iff.mp h
  case tone => exact parseTone_le hv
  all_goals exact htone

theorem installTable_shading {s : State} {id : TableId} {d : List Half} {t : TableData} (h : parseTable id d = some t)
    (hlength : s.tables.shading.length = 2048) : (s.installTable t).tables.shading.length = 2048 := by
  cases id
  all_goals
    obtain ⟨v, hv, rfl⟩ := Option.map_eq_some_iff.mp h
  case shading =>
    obtain ⟨hd, rfl⟩ := ite_some_eq hv
    exact (List.length_map _).trans hd
  all_goals exact hlength

/-- R160: the tone table after a cold start. -/
theorem defaultTone_le : ∀ e ∈ ({} : TableStore).tone, e ≤ 255 := by
  dsimp only
  intro e he
  exact Nat.le_of_lt_succ (List.mem_range.mp he)

theorem exec_errorsBounded {i : Instr} {s : State} (h : s.errorsBounded = true) :
    Meets (fun t => t.errorsBounded = true) (exec i s) := by
  obtain ⟨hsmall, htone⟩ := (errorsBounded_iff s).mp h
  intro t ht
  obtain ⟨y, hy, hfollows⟩ := exec_from i s t ht
  refine (errorsBounded_iff t).mpr ⟨small_follows (small_from hsmall htone hy) hfollows, ?_⟩
  exact exec_tables (P := fun x => ∀ e ∈ x.tone, e ≤ 255) (fun _ _ h => h) (fun _ _ _ _ h htone => installTable_tone h htone)
    defaultTone_le htone t ht

theorem exec_scanWhole {i : Instr} {s : State} (h : s.scanWhole = true) : Meets (fun t => t.scanWhole = true) (exec i s) := by
  obtain ⟨hshading, hwhole⟩ := (scanWhole_iff s).mp h
  intro t ht
  obtain ⟨y, hy, hfollows⟩ := exec_from i s t ht
  refine (scanWhole_iff t).mpr ⟨?_, whole_follows (whole_from hwhole hy) hfollows⟩
  exact exec_tables (P := fun x => x.shading.length = 2048) (fun _ _ h => h)
    (fun _ _ _ _ h hlength => installTable_shading h hlength) List.length_replicate hshading t ht

end Sys2Proof.Machine

namespace Sys2Proof.Proofs

open Sys2Proof Sys2Proof.Machine

/-- Settles O37: a pel's error and so its shares are bounded, and every row's stores come from a line, a clear row or stay. -/
theorem diffusionBoundedKept : Obligations.DiffusionBoundedKept := by
  refine ⟨fun s t hs h => ?_, fun s t hs h => ?_, fun line hline => ?_⟩
  · refine step_keeps (P := fun s => s.errorsBounded = true) (fun _ _ h => exec_errorsBounded h) (fun _ _ h => h) (fun s h => ?_)
      hs h
    obtain ⟨x, hx⟩ := s.tick_eq
    rw [hx]
    exact h
  · refine step_keeps (P := fun s => s.scanWhole = true) (fun _ _ h => exec_scanWhole h) (fun _ _ h => h) (fun s h => ?_) hs h
    obtain ⟨x, hx⟩ := s.tick_eq
    rw [hx]
    exact h
  · obtain ⟨hpels, hshares⟩ := diffuse_length none 0 0 line
    refine ⟨hpels, by simpa using hshares, diffuse_bounds hline (fun q hq => by cases hq) (by decide) (by decide), ?_⟩
    intro t row carry ht hrow hrow' hcarry hcarry'
    obtain ⟨hhigh, hlow, herror⟩ := diffuseError_bounds ht ⟨hrow, hrow'⟩ ⟨hcarry, hcarry'⟩
    obtain ⟨h7, -⟩ := errorShare_bounds herror
    exact ⟨hhigh, hlow, herror.1, herror.2, h7.1, h7.2⟩

end Sys2Proof.Proofs
end

