-- ==== Sys2Proof/Proofs/PrintFrames.lean ====
section
/-! The operations that leave the print path alone, and those that leave the PAPER channel alone. -/

namespace Sys2Proof.Machine

open Sys2Proof

@[simp] theorem State.stopMove_doc_paper (s : State) (cause : StopCause) : (s.stopMove .doc cause).paper = s.paper := rfl
@[simp] theorem State.startMove_doc_paper (s : State) (requester : Owner) (dir : Direction) (profile : Fin 8) (steps : Option Nat)
    (tag : Byte) : (s.startMove .doc requester dir profile steps tag).paper = s.paper := rfl

section
variable (s : State)

@[simp] theorem State.offer_print (bs : List Burst) : (s.offer bs).print = s.print := rfl
@[simp] theorem State.issueRead_print (cls : MemClass) (req : Req) (address len : Nat) :
    (s.issueRead cls req address len).print = s.print := rfl
@[simp] theorem State.issueWrite_print (cls : MemClass) (req : Req) (address : Nat) (data : List Half) :
    (s.issueWrite cls req address data).print = s.print := rfl
@[simp] theorem State.writeWord_print (cls : MemClass) (offset value : Nat) :
    (s.writeWord cls offset value).print = s.print := rfl
@[simp] theorem State.takeOne_print (q : Req) : (s.takeOne q).print = s.print := rfl
@[simp] theorem State.takeAll_print (q : Req) : (s.takeAll q).print = s.print := rfl
@[simp] theorem State.writeCell_print (mark : CellMark) (bytes : List Byte) :
    (s.writeCell mark bytes).print = s.print := rfl
@[simp] theorem State.writeSummary_print : s.writeSummary.print = s.print := rfl
@[simp] theorem State.recordLost_print (k : Kind) : (s.recordLost k).print = s.print := by
  unfold State.recordLost; dsimp only
  repeat' split
  all_goals rfl

@[simp] theorem State.writeSnapshot_print : s.writeSnapshot.print = s.print := rfl
@[simp] theorem State.claimSlot_print (r : RingId) (d : RingDesc) (tag : Tag) (words : List Word) (buf : Option BufId) : (s.claimSlot r d tag words buf).print = s.print := rfl
@[simp] theorem State.publish_print (r : RingId) (d : RingDesc) : (s.publish r d).print = s.print := rfl
@[simp] theorem State.acknowledgeSlot_print (r : RingId) (d : RingDesc) (c : Claim) (rest : List Claim) :
    (s.acknowledgeSlot r d c rest).print = s.print := by
  unfold State.acknowledgeSlot; dsimp only
  repeat' split
  all_goals rfl

@[simp] theorem State.askPageEnd_print (r : RingId) (lostTail : Bool) :
    (s.askPageEnd r lostTail).print = s.print := by
  unfold State.askPageEnd
  split <;> rfl

@[simp] theorem State.beginPageEnd_print (r : RingId) (d : RingDesc) : (s.beginPageEnd r d).print = s.print := by
  unfold State.beginPageEnd; dsimp only
  repeat' split
  all_goals rfl

@[simp] theorem State.finishPageEnd_print (r : RingId) (d : RingDesc) : (s.finishPageEnd r d).print = s.print := rfl
@[simp] theorem State.releaseTake_print (r : RingId) (n : Nat) : (s.releaseTake r n).print = s.print := by
  unfold State.releaseTake; dsimp only
  repeat' split
  all_goals rfl

@[simp] theorem State.attachProducer_print (r : RingId) (on : Bool) : (s.attachProducer r on).print = s.print := rfl
@[simp] theorem State.attachConsumer_print (r : RingId) (on : Bool) : (s.attachConsumer r on).print = s.print := rfl
@[simp] theorem State.installRing_print (r : RingId) (d : RingDesc) : (s.installRing r d).print = s.print := rfl
@[simp] theorem State.ringFault_print (r : RingId) (index : Nat) (written held : Nat) :
    (s.ringFault r index written held).print = s.print := by simp [State.ringFault]
@[simp] theorem State.startMove_print (c : Chan) (requester : Owner) (dir : Direction) (profile : Fin 8) (steps : Option Nat) (tag : Byte) : (s.startMove c requester dir profile steps tag).print = s.print := by simp [State.startMove]
@[simp] theorem State.stopMove_print (c : Chan) (cause : StopCause) :
    (s.stopMove c cause).print = s.print := by simp [State.stopMove]
@[simp] theorem State.stopBoth_print (cause : StopCause) : (s.stopBoth cause).print = s.print := rfl
@[simp] theorem State.reportHostEnd_print (ch : Chan) (c : Channel) (cause : EndCause) :
    (s.reportHostEnd ch c cause).print = s.print := by simp [State.reportHostEnd]
@[simp] theorem State.handPageScanned_print (mark : CellMark) :
    (s.handPageScanned mark).print = s.print := by simp [State.handPageScanned]
@[simp] theorem State.scanOff_print : s.scanOff.print = s.print := rfl
@[simp] theorem State.scanTryOff_print : s.scanTryOff.print = s.print := by
  unfold State.scanTryOff
  split <;> rfl

@[simp] theorem State.scanCheckMargin_print : s.scanCheckMargin.print = s.print := by
  unfold State.scanCheckMargin; dsimp only
  repeat' split
  all_goals rfl

@[simp] theorem State.scanRestart_print : s.scanRestart.print = s.print := by
  unfold State.scanRestart; dsimp only
  repeat' split
  all_goals rfl

@[simp] theorem State.linkStream_print : s.linkStream.print = s.print := by simp [State.linkStream]
@[simp] theorem State.linkDropReads_print : s.linkDropReads.print = s.print := rfl
@[simp] theorem State.linkDetachSource_print : s.linkDetachSource.print = s.print := rfl
@[simp] theorem State.abandonClaims_print (r : RingId) : (s.abandonClaims r).print = s.print := rfl
@[simp] theorem State.linkEmit_print : s.linkEmit.print = s.print := by
  unfold State.linkEmit; dsimp only
  repeat' split
  all_goals rfl

@[simp] theorem State.printStream_print : s.printStream.print = s.print := by simp [State.printStream]
@[simp] theorem State.finalStream_print (r : PrintReason) :
    (s.finalStream r).print = s.print := by simp [State.finalStream]
@[simp] theorem State.setUrgent_print (on : Bool) : (s.setUrgent on).print = s.print := rfl
@[simp] theorem State.paperMove_print (steps : Nat) : (s.paperMove steps).print = s.print := rfl
@[simp] theorem State.sweepStart_print : s.sweepStart.print = s.print := by
  unfold State.sweepStart; dsimp only
  repeat' split
  all_goals simp

@[simp] theorem State.placeHold_print : s.placeHold.print = s.print := rfl
@[simp] theorem State.liftHold_print : s.liftHold.print = s.print := rfl
@[simp] theorem State.abandonSweep_print : s.abandonSweep.print = s.print := rfl
@[simp] theorem State.startPeriod_print : s.startPeriod.print = s.print := rfl
@[simp] theorem State.grantPoint_print : s.grantPoint.print = s.print := rfl
@[simp] theorem State.memoryStart_print : s.memoryStart.print = s.print := by
  unfold State.memoryStart
  split <;> rfl

@[simp] theorem State.memoryEntry_print : s.memoryEntry.print = s.print := by
  unfold State.memoryEntry
  split <;> rfl

@[simp] theorem State.memoryWithdraw_print : s.memoryWithdraw.print = s.print := by
  unfold State.memoryWithdraw
  split <;> rfl

@[simp] theorem State.memoryExit_print : s.memoryExit.print = s.print := by
  unfold State.memoryExit
  split <;> rfl

@[simp] theorem State.snoop_print (b : Burst) : (s.snoop b).print = s.print := by
  unfold State.snoop; dsimp only
  repeat' split
  all_goals rfl

@[simp] theorem State.commandRead_print : s.commandRead.print = s.print := by
  unfold State.commandRead; dsimp only
  repeat' split
  all_goals rfl

@[simp] theorem State.clockCell_print (tag : Byte) (r : Result) (origin : Origin) (code : ClockCode) (target : Option Source) : (s.clockCell tag r origin code target).print = s.print := by simp [State.clockCell]
@[simp] theorem State.enterWaitQuiet_print : s.enterWaitQuiet.print = s.print := rfl
@[simp] theorem State.crystalStart_print : s.crystalStart.print = s.print := rfl
@[simp] theorem State.pllStart_print : s.pllStart.print = s.print := rfl
@[simp] theorem State.crystalReady_print (target : Source) : (s.crystalReady target).print = s.print := by
  unfold State.crystalReady
  split <;> rfl

@[simp] theorem State.wakeCell_print (cause : WakeCause) (fromState : PowerState) (abandoned : Bool) :
    (s.wakeCell cause fromState abandoned).print = s.print := by simp [State.wakeCell]
@[simp] theorem State.releaseMotors_print : s.releaseMotors.print = s.print := rfl
@[simp] theorem State.undoRelease_print : s.undoRelease.print = s.print := rfl
@[simp] theorem State.donePower_print (tag : Byte) (r : Result) (mark : CellMark) :
    (s.donePower tag r mark).print = s.print := by simp [State.donePower]
@[simp] theorem State.senseCell_print (position : Nat) (e : SenseEntry) (before after : Zone) (reading : Nat) :
    (s.senseCell position e before after reading).print = s.print := by simp [State.senseCell]
@[simp] theorem State.dropFastRc_print : s.dropFastRc.print = s.print := rfl
@[simp] theorem State.lineCell_print (k : Kind) (fields : List Byte) : (s.lineCell k fields).print = s.print := by
  unfold State.lineCell
  split <;> simp

@[simp] theorem State.cellFault_print (ring index written held : Nat) :
    (s.cellFault ring index written held).print = s.print := by simp [State.cellFault]
@[simp] theorem State.standbyWritten_print : s.standbyWritten.print = s.print := by
  unfold State.standbyWritten; dsimp only
  repeat' split
  all_goals rfl

@[simp] theorem State.finishStopAll_print (x : StopAll) :
    (s.finishStopAll x).print = s.print := by simp [State.finishStopAll]
@[simp] theorem State.scanPageEndComplete_print :
    s.scanPageEndComplete.print = s.print := by simp [State.scanPageEndComplete]
@[simp] theorem State.calFinish_print : s.calFinish.print = s.print := by simp [State.calFinish]
@[simp] theorem State.scanFreed_print (r : RingId) : (s.scanFreed r).print = s.print := by
  unfold State.scanFreed
  split <;> simp

@[simp] theorem State.startCapture_print : s.startCapture.print = s.print := by simp [State.startCapture]
@[simp] theorem State.scanClaim_print (i : BufId) (words : List Word) (black : Nat) :
    (s.scanClaim i words black).print = s.print := by
  unfold State.scanClaim; dsimp only
  repeat' split
  all_goals simp

@[simp] theorem State.linkTryOff_print : s.linkTryOff.print = s.print := by
  unfold State.linkTryOff; dsimp only
  repeat' split
  all_goals simp

@[simp] theorem State.linkEmitOrWait_print : s.linkEmitOrWait.print = s.print := by
  unfold State.linkEmitOrWait
  split <;> simp

@[simp] theorem State.linkSlotAcknowledged_print : s.linkSlotAcknowledged.print = s.print := by
  unfold State.linkSlotAcknowledged; dsimp only
  repeat' split
  all_goals simp

@[simp] theorem State.linkUnendedPage_print (t : Tag) : (s.linkUnendedPage t).print = s.print := by
  unfold State.linkUnendedPage; dsimp only
  repeat' split
  all_goals simp

@[simp] theorem State.scanMoveEnd_print : s.scanMoveEnd.print = s.print := by simp [State.scanMoveEnd]
@[simp] theorem State.sweepEnded_print : s.sweepEnded.print = s.print := by
  unfold State.sweepEnded; dsimp only
  repeat' split
  all_goals simp

@[simp] theorem State.reportSwitch_print (w : Switch) (r : Result) (code : ClockCode) :
    (s.reportSwitch w r code).print = s.print := by
  unfold State.reportSwitch; dsimp only
  repeat' split
  all_goals simp

@[simp] theorem State.beginSwitch_print (target : Source) (origin : Origin) (tag : Byte) :
    (s.beginSwitch target origin tag).print = s.print := by
  unfold State.beginSwitch; dsimp only
  repeat' split
  all_goals simp

@[simp] theorem State.finishAbandon_print : s.finishAbandon.print = s.print := by
  unfold State.finishAbandon
  split <;> simp

@[simp] theorem State.leaveOnFastRc_print : s.leaveOnFastRc.print = s.print := by simp [State.leaveOnFastRc]
@[simp] theorem State.beginEntry_print (tag : Byte) (wakeTimer : Nat) :
    (s.beginEntry tag wakeTimer).print = s.print := by simp [State.beginEntry]
@[simp] theorem State.pageScannedWritten_print : s.pageScannedWritten.print = s.print := by
  unfold State.pageScannedWritten
  split <;> simp

@[simp] theorem State.scanPageEnd_print (reason : ScanReason) : (s.scanPageEnd reason).print = s.print := by
  unfold State.scanPageEnd; dsimp only
  repeat' split
  all_goals simp

@[simp] theorem State.calCut_print (reason : ScanReason) : (s.calCut reason).print = s.print := by
  unfold State.calCut; dsimp only
  repeat' split
  all_goals simp

@[simp] theorem State.releaseSlots_print (r : RingId) (n : Nat) :
    (s.releaseSlots r n).print = s.print := by simp [State.releaseSlots]
@[simp] theorem State.docEdgeHigh_print : s.docEdgeHigh.print = s.print := by
  unfold State.docEdgeHigh
  split <;> simp

@[simp] theorem State.beginScan_print (p : ScanParams) (edge : Bool) : (s.beginScan p edge).print = s.print := by
  unfold State.beginScan; dsimp only
  repeat' split
  all_goals simp

@[simp] theorem State.linkReadsAbandoned_print : s.linkReadsAbandoned.print = s.print := by
  unfold State.linkReadsAbandoned
  split <;> simp

@[simp] theorem State.linkEnd_print (abort : Bool) : (s.linkEnd abort).print = s.print := by
  unfold State.linkEnd; dsimp only
  repeat' split
  all_goals simp

@[simp] theorem State.linkPageEndComplete_print : s.linkPageEndComplete.print = s.print := by
  unfold State.linkPageEndComplete; dsimp only
  repeat' split
  all_goals simp

@[simp] theorem State.normalSweepEnd_print : s.normalSweepEnd.print = s.print := by simp [State.normalSweepEnd]
@[simp] theorem State.switchFail_print (code : ClockCode) :
    (s.switchFail code).print = s.print := by simp [State.switchFail]
@[simp] theorem State.beginLeaving_print : s.beginLeaving.print = s.print := by
  unfold State.beginLeaving; dsimp only
  repeat' split
  all_goals simp

@[simp] theorem State.finishLeaving_print : s.finishLeaving.print = s.print := by
  unfold State.finishLeaving; dsimp only
  repeat' split
  all_goals simp

@[simp] theorem State.standbySweepEnd_print : s.standbySweepEnd.print = s.print := by simp [State.standbySweepEnd]
@[simp] theorem State.scanCut_print (reason : ScanReason) : (s.scanCut reason).print = s.print := by
  unfold State.scanCut
  split <;> simp

@[simp] theorem State.scanCloseIfIdle_print : s.scanCloseIfIdle.print = s.print := by
  unfold State.scanCloseIfIdle
  split <;> simp

@[simp] theorem State.linkStopAll_print : s.linkStopAll.print = s.print := by
  unfold State.linkStopAll
  split <;> simp

@[simp] theorem State.pageEndComplete_print (d : RingDesc) : (s.pageEndComplete d).print = s.print := by
  unfold State.pageEndComplete
  split <;> simp

@[simp] theorem State.standbySweepStart_print : s.standbySweepStart.print = s.print := by
  unfold State.standbySweepStart; dsimp only
  repeat' split
  all_goals simp

@[simp] theorem State.scanTriggerPosition_print : s.scanTriggerPosition.print = s.print := by
  unfold State.scanTriggerPosition; dsimp only
  repeat' split
  all_goals simp

@[simp] theorem State.closeAtEdge_print : s.closeAtEdge.print = s.print := by
  unfold State.closeAtEdge; dsimp only
  repeat' split
  all_goals simp

@[simp] theorem State.waitingPageEnd_print (r : RingId) (d : RingDesc) : (s.waitingPageEnd r d).print = s.print := by
  unfold State.waitingPageEnd; dsimp only
  repeat' split
  all_goals simp

@[simp] theorem State.scanDocStep_print : s.scanDocStep.print = s.print := by
  unfold State.scanDocStep; dsimp only
  repeat' split
  all_goals simp

@[simp] theorem State.docEdgeLow_print : s.docEdgeLow.print = s.print := by
  unfold State.docEdgeLow; dsimp only
  repeat' split
  all_goals simp

@[simp] theorem State.reportStep_print (ch : Chan) : (s.reportStep ch).print = s.print := by
  unfold State.reportStep
  split <;> simp


@[simp] theorem State.issueWindow_print (d : RingDesc) (slot n : Nat) : (s.issueWindow d slot n).print = s.print := by
  induction n generalizing s slot with
  | zero => rfl
  | succ n ih => rw [State.issueWindow, ih, State.issueRead_print]

@[simp] theorem State.abandonEntry_print : s.abandonEntry.print = s.print := by
  unfold State.abandonEntry
  repeat' split
  all_goals simp

@[simp] theorem State.wake_print (cause : WakeCause) : (s.wake cause).print = s.print := by
  unfold State.wake
  repeat' split
  all_goals simp

@[simp] theorem State.sweepFrom_print (standbySweep : Bool) (p : Nat) : (s.sweepFrom standbySweep p).print = s.print := by
  unfold State.sweepFrom
  repeat' split
  all_goals simp

@[simp] theorem State.burstQualifies_print : s.burstQualifies.print = s.print := by
  simp [State.burstQualifies]

@[simp] theorem State.debouncedChange_print (input : InputLine) (high : Bool) : (s.debouncedChange input high).print = s.print := by
  unfold State.debouncedChange; dsimp only
  repeat' split
  all_goals simp

@[simp] theorem State.readSource_print (source length n : Nat) : (s.readSource source length n).print = s.print := by
  induction n generalizing s source length with
  | zero => rfl
  | succ n ih => rw [State.readSource, ih, State.issueRead_print]

@[simp] theorem State.slotAcknowledged_print (d : RingDesc) (c : Claim) : (s.slotAcknowledged d c).print = s.print := by
  unfold State.slotAcknowledged
  repeat' split
  all_goals simp

@[simp] theorem State.offer_paper (bs : List Burst) : (s.offer bs).paper = s.paper := rfl
@[simp] theorem State.issueRead_paper (cls : MemClass) (req : Req) (address len : Nat) :
    (s.issueRead cls req address len).paper = s.paper := rfl
@[simp] theorem State.issueWrite_paper (cls : MemClass) (req : Req) (address : Nat) (data : List Half) :
    (s.issueWrite cls req address data).paper = s.paper := rfl
@[simp] theorem State.writeWord_paper (cls : MemClass) (offset value : Nat) :
    (s.writeWord cls offset value).paper = s.paper := rfl
@[simp] theorem State.takeOne_paper (q : Req) : (s.takeOne q).paper = s.paper := rfl
@[simp] theorem State.takeAll_paper (q : Req) : (s.takeAll q).paper = s.paper := rfl
@[simp] theorem State.writeCell_paper (mark : CellMark) (bytes : List Byte) :
    (s.writeCell mark bytes).paper = s.paper := rfl
@[simp] theorem State.writeSummary_paper : s.writeSummary.paper = s.paper := rfl
@[simp] theorem State.recordLost_paper (k : Kind) : (s.recordLost k).paper = s.paper := by
  unfold State.recordLost; dsimp only
  repeat' split
  all_goals rfl

@[simp] theorem State.writeSnapshot_paper : s.writeSnapshot.paper = s.paper := rfl
@[simp] theorem State.claimSlot_paper (r : RingId) (d : RingDesc) (tag : Tag) (words : List Word) (buf : Option BufId) : (s.claimSlot r d tag words buf).paper = s.paper := rfl
@[simp] theorem State.publish_paper (r : RingId) (d : RingDesc) : (s.publish r d).paper = s.paper := rfl
@[simp] theorem State.acknowledgeSlot_paper (r : RingId) (d : RingDesc) (c : Claim) (rest : List Claim) :
    (s.acknowledgeSlot r d c rest).paper = s.paper := by
  unfold State.acknowledgeSlot; dsimp only
  repeat' split
  all_goals rfl

@[simp] theorem State.askPageEnd_paper (r : RingId) (lostTail : Bool) :
    (s.askPageEnd r lostTail).paper = s.paper := by
  unfold State.askPageEnd
  split <;> rfl

@[simp] theorem State.beginPageEnd_paper (r : RingId) (d : RingDesc) : (s.beginPageEnd r d).paper = s.paper := by
  unfold State.beginPageEnd; dsimp only
  repeat' split
  all_goals rfl

@[simp] theorem State.finishPageEnd_paper (r : RingId) (d : RingDesc) : (s.finishPageEnd r d).paper = s.paper := rfl
@[simp] theorem State.releaseTake_paper (r : RingId) (n : Nat) : (s.releaseTake r n).paper = s.paper := by
  unfold State.releaseTake; dsimp only
  repeat' split
  all_goals rfl

@[simp] theorem State.attachProducer_paper (r : RingId) (on : Bool) : (s.attachProducer r on).paper = s.paper := rfl
@[simp] theorem State.attachConsumer_paper (r : RingId) (on : Bool) : (s.attachConsumer r on).paper = s.paper := rfl
@[simp] theorem State.installRing_paper (r : RingId) (d : RingDesc) : (s.installRing r d).paper = s.paper := rfl
@[simp] theorem State.ringFault_paper (r : RingId) (index : Nat) (written held : Nat) :
    (s.ringFault r index written held).paper = s.paper := by simp [State.ringFault]
@[simp] theorem State.reportHostEnd_paper (ch : Chan) (c : Channel) (cause : EndCause) :
    (s.reportHostEnd ch c cause).paper = s.paper := by simp [State.reportHostEnd]
@[simp] theorem State.handPageScanned_paper (mark : CellMark) :
    (s.handPageScanned mark).paper = s.paper := by simp [State.handPageScanned]
@[simp] theorem State.scanOff_paper : s.scanOff.paper = s.paper := rfl
@[simp] theorem State.scanTryOff_paper : s.scanTryOff.paper = s.paper := by
  unfold State.scanTryOff
  split <;> rfl

@[simp] theorem State.scanCheckMargin_paper : s.scanCheckMargin.paper = s.paper := by
  unfold State.scanCheckMargin; dsimp only
  repeat' split
  all_goals rfl

@[simp] theorem State.scanRestart_paper : s.scanRestart.paper = s.paper := by
  unfold State.scanRestart; dsimp only
  repeat' split
  all_goals rfl

@[simp] theorem State.linkStream_paper : s.linkStream.paper = s.paper := by simp [State.linkStream]
@[simp] theorem State.linkDropReads_paper : s.linkDropReads.paper = s.paper := rfl
@[simp] theorem State.linkDetachSource_paper : s.linkDetachSource.paper = s.paper := rfl
@[simp] theorem State.abandonClaims_paper (r : RingId) : (s.abandonClaims r).paper = s.paper := rfl
@[simp] theorem State.linkEmit_paper : s.linkEmit.paper = s.paper := by
  unfold State.linkEmit; dsimp only
  repeat' split
  all_goals rfl

@[simp] theorem State.pagePrinted_paper (endMark : Bool) :
    (s.pagePrinted endMark).paper = s.paper := by simp [State.pagePrinted]
@[simp] theorem State.printStream_paper : s.printStream.paper = s.paper := by simp [State.printStream]
@[simp] theorem State.finalStream_paper (r : PrintReason) :
    (s.finalStream r).paper = s.paper := by simp [State.finalStream]
@[simp] theorem State.setUrgent_paper (on : Bool) : (s.setUrgent on).paper = s.paper := rfl
@[simp] theorem State.enterPrint_paper (st : PrintState) : (s.enterPrint st).paper = s.paper := by
  unfold State.enterPrint
  split <;> rfl

@[simp] theorem State.printWake_paper : s.printWake.paper = s.paper := by
  unfold State.printWake
  split <;> rfl

@[simp] theorem State.printGoOn_paper (resumed : Bool) : (s.printGoOn resumed).paper = s.paper := by
  unfold State.printGoOn; dsimp only
  repeat' split
  all_goals rfl

@[simp] theorem State.printCut_paper (reason : PrintReason) : (s.printCut reason).paper = s.paper := by
  unfold State.printCut; dsimp only
  repeat' split
  all_goals rfl

@[simp] theorem State.fetchWordsOf_paper (d : RingDesc) (slot : Nat) (tag : Tag) :
    (s.fetchWordsOf d slot tag).paper = s.paper := rfl
@[simp] theorem State.sweepStart_paper : s.sweepStart.paper = s.paper := by
  unfold State.sweepStart; dsimp only
  repeat' split
  all_goals simp

@[simp] theorem State.placeHold_paper : s.placeHold.paper = s.paper := rfl
@[simp] theorem State.liftHold_paper : s.liftHold.paper = s.paper := rfl
@[simp] theorem State.abandonSweep_paper : s.abandonSweep.paper = s.paper := rfl
@[simp] theorem State.startPeriod_paper : s.startPeriod.paper = s.paper := rfl
@[simp] theorem State.grantPoint_paper : s.grantPoint.paper = s.paper := rfl
@[simp] theorem State.memoryStart_paper : s.memoryStart.paper = s.paper := by
  unfold State.memoryStart
  split <;> rfl

@[simp] theorem State.memoryEntry_paper : s.memoryEntry.paper = s.paper := by
  unfold State.memoryEntry
  split <;> rfl

@[simp] theorem State.memoryWithdraw_paper : s.memoryWithdraw.paper = s.paper := by
  unfold State.memoryWithdraw
  split <;> rfl

@[simp] theorem State.memoryExit_paper : s.memoryExit.paper = s.paper := by
  unfold State.memoryExit
  split <;> rfl

@[simp] theorem State.snoop_paper (b : Burst) : (s.snoop b).paper = s.paper := by
  unfold State.snoop; dsimp only
  repeat' split
  all_goals rfl

@[simp] theorem State.commandRead_paper : s.commandRead.paper = s.paper := by
  unfold State.commandRead; dsimp only
  repeat' split
  all_goals rfl

@[simp] theorem State.clockCell_paper (tag : Byte) (r : Result) (origin : Origin) (code : ClockCode) (target : Option Source) : (s.clockCell tag r origin code target).paper = s.paper := by simp [State.clockCell]
@[simp] theorem State.enterWaitQuiet_paper : s.enterWaitQuiet.paper = s.paper := rfl
@[simp] theorem State.crystalStart_paper : s.crystalStart.paper = s.paper := rfl
@[simp] theorem State.pllStart_paper : s.pllStart.paper = s.paper := rfl
@[simp] theorem State.crystalReady_paper (target : Source) : (s.crystalReady target).paper = s.paper := by
  unfold State.crystalReady
  split <;> rfl

@[simp] theorem State.wakeCell_paper (cause : WakeCause) (fromState : PowerState) (abandoned : Bool) :
    (s.wakeCell cause fromState abandoned).paper = s.paper := by simp [State.wakeCell]
@[simp] theorem State.donePower_paper (tag : Byte) (r : Result) (mark : CellMark) :
    (s.donePower tag r mark).paper = s.paper := by simp [State.donePower]
@[simp] theorem State.senseCell_paper (position : Nat) (e : SenseEntry) (before after : Zone) (reading : Nat) :
    (s.senseCell position e before after reading).paper = s.paper := by simp [State.senseCell]
@[simp] theorem State.dropFastRc_paper : s.dropFastRc.paper = s.paper := rfl
@[simp] theorem State.lineCell_paper (k : Kind) (fields : List Byte) : (s.lineCell k fields).paper = s.paper := by
  unfold State.lineCell
  split <;> simp

@[simp] theorem State.cellFault_paper (ring index written held : Nat) :
    (s.cellFault ring index written held).paper = s.paper := by simp [State.cellFault]
@[simp] theorem State.standbyWritten_paper : s.standbyWritten.paper = s.paper := by
  unfold State.standbyWritten; dsimp only
  repeat' split
  all_goals rfl

@[simp] theorem State.finishStopAll_paper (x : StopAll) :
    (s.finishStopAll x).paper = s.paper := by simp [State.finishStopAll]
@[simp] theorem State.scanPageEndComplete_paper :
    s.scanPageEndComplete.paper = s.paper := by simp [State.scanPageEndComplete]
@[simp] theorem State.calFinish_paper : s.calFinish.paper = s.paper := by simp [State.calFinish]
@[simp] theorem State.scanFreed_paper (r : RingId) : (s.scanFreed r).paper = s.paper := by
  unfold State.scanFreed
  split <;> simp

@[simp] theorem State.startCapture_paper : s.startCapture.paper = s.paper := by simp [State.startCapture]
@[simp] theorem State.scanClaim_paper (i : BufId) (words : List Word) (black : Nat) :
    (s.scanClaim i words black).paper = s.paper := by
  unfold State.scanClaim; dsimp only
  repeat' split
  all_goals simp

@[simp] theorem State.linkTryOff_paper : s.linkTryOff.paper = s.paper := by
  unfold State.linkTryOff; dsimp only
  repeat' split
  all_goals simp

@[simp] theorem State.linkEmitOrWait_paper : s.linkEmitOrWait.paper = s.paper := by
  unfold State.linkEmitOrWait
  split <;> simp

@[simp] theorem State.linkSlotAcknowledged_paper : s.linkSlotAcknowledged.paper = s.paper := by
  unfold State.linkSlotAcknowledged; dsimp only
  repeat' split
  all_goals simp

@[simp] theorem State.linkUnendedPage_paper (t : Tag) : (s.linkUnendedPage t).paper = s.paper := by
  unfold State.linkUnendedPage; dsimp only
  repeat' split
  all_goals simp

@[simp] theorem State.enterPause_paper (r : PrintReason) :
    (s.enterPause r).paper = s.paper := by simp [State.enterPause]
@[simp] theorem State.enterHot_paper : s.enterHot.paper = s.paper := by simp [State.enterHot]
@[simp] theorem State.decideWindow_paper (d : RingDesc) (slot : Nat) (tags : List Tag) :
    (s.decideWindow d slot tags).paper = s.paper := by
  unfold State.decideWindow; dsimp only
  repeat' split
  all_goals simp

@[simp] theorem State.closeUnterminated_paper (pageStart : Bool) :
    (s.closeUnterminated pageStart).paper = s.paper := by
  unfold State.closeUnterminated
  split <;> simp

@[simp] theorem State.printHeadCool_paper : s.printHeadCool.paper = s.paper := by
  unfold State.printHeadCool; dsimp only
  repeat' split
  all_goals simp

@[simp] theorem State.scanMoveEnd_paper : s.scanMoveEnd.paper = s.paper := by simp [State.scanMoveEnd]
@[simp] theorem State.sweepEnded_paper : s.sweepEnded.paper = s.paper := by
  unfold State.sweepEnded; dsimp only
  repeat' split
  all_goals simp

@[simp] theorem State.reportSwitch_paper (w : Switch) (r : Result) (code : ClockCode) :
    (s.reportSwitch w r code).paper = s.paper := by
  unfold State.reportSwitch; dsimp only
  repeat' split
  all_goals simp

@[simp] theorem State.beginSwitch_paper (target : Source) (origin : Origin) (tag : Byte) :
    (s.beginSwitch target origin tag).paper = s.paper := by
  unfold State.beginSwitch; dsimp only
  repeat' split
  all_goals simp

@[simp] theorem State.leaveOnFastRc_paper : s.leaveOnFastRc.paper = s.paper := by simp [State.leaveOnFastRc]
@[simp] theorem State.pageScannedWritten_paper : s.pageScannedWritten.paper = s.paper := by
  unfold State.pageScannedWritten
  split <;> simp

@[simp] theorem State.scanPageEnd_paper (reason : ScanReason) : (s.scanPageEnd reason).paper = s.paper := by
  unfold State.scanPageEnd; dsimp only
  repeat' split
  all_goals simp

@[simp] theorem State.calCut_paper (reason : ScanReason) : (s.calCut reason).paper = s.paper := by
  unfold State.calCut; dsimp only
  repeat' split
  all_goals simp

@[simp] theorem State.releaseSlots_paper (r : RingId) (n : Nat) :
    (s.releaseSlots r n).paper = s.paper := by simp [State.releaseSlots]
@[simp] theorem State.docEdgeHigh_paper : s.docEdgeHigh.paper = s.paper := by
  unfold State.docEdgeHigh
  split <;> simp

@[simp] theorem State.beginScan_paper (p : ScanParams) (edge : Bool) : (s.beginScan p edge).paper = s.paper := by
  unfold State.beginScan; dsimp only
  repeat' split
  all_goals simp

@[simp] theorem State.linkReadsAbandoned_paper : s.linkReadsAbandoned.paper = s.paper := by
  unfold State.linkReadsAbandoned
  split <;> simp

@[simp] theorem State.linkEnd_paper (abort : Bool) : (s.linkEnd abort).paper = s.paper := by
  unfold State.linkEnd; dsimp only
  repeat' split
  all_goals simp

@[simp] theorem State.linkPageEndComplete_paper : s.linkPageEndComplete.paper = s.paper := by
  unfold State.linkPageEndComplete; dsimp only
  repeat' split
  all_goals simp

@[simp] theorem State.printPaperLow_paper : s.printPaperLow.paper = s.paper := by
  unfold State.printPaperLow; dsimp only
  repeat' split
  all_goals simp

@[simp] theorem State.printHeadHot_paper : s.printHeadHot.paper = s.paper := by
  unfold State.printHeadHot; dsimp only
  repeat' split
  all_goals simp

@[simp] theorem State.printCoverHigh_paper : s.printCoverHigh.paper = s.paper := by
  unfold State.printCoverHigh; dsimp only
  repeat' split
  all_goals simp

@[simp] theorem State.pausePrint_paper : s.pausePrint.paper = s.paper := by
  unfold State.pausePrint; dsimp only
  repeat' split
  all_goals simp

@[simp] theorem State.normalSweepEnd_paper : s.normalSweepEnd.paper = s.paper := by simp [State.normalSweepEnd]
@[simp] theorem State.switchFail_paper (code : ClockCode) :
    (s.switchFail code).paper = s.paper := by simp [State.switchFail]
@[simp] theorem State.beginLeaving_paper : s.beginLeaving.paper = s.paper := by
  unfold State.beginLeaving; dsimp only
  repeat' split
  all_goals simp

@[simp] theorem State.finishLeaving_paper : s.finishLeaving.paper = s.paper := by
  unfold State.finishLeaving; dsimp only
  repeat' split
  all_goals simp

@[simp] theorem State.standbySweepEnd_paper : s.standbySweepEnd.paper = s.paper := by simp [State.standbySweepEnd]
@[simp] theorem State.scanCut_paper (reason : ScanReason) : (s.scanCut reason).paper = s.paper := by
  unfold State.scanCut
  split <;> simp

@[simp] theorem State.scanCloseIfIdle_paper : s.scanCloseIfIdle.paper = s.paper := by
  unfold State.scanCloseIfIdle
  split <;> simp

@[simp] theorem State.linkStopAll_paper : s.linkStopAll.paper = s.paper := by
  unfold State.linkStopAll
  split <;> simp

@[simp] theorem State.pageEndComplete_paper (d : RingDesc) : (s.pageEndComplete d).paper = s.paper := by
  unfold State.pageEndComplete
  split <;> simp

@[simp] theorem State.standbySweepStart_paper : s.standbySweepStart.paper = s.paper := by
  unfold State.standbySweepStart; dsimp only
  repeat' split
  all_goals simp

@[simp] theorem State.scanTriggerPosition_paper : s.scanTriggerPosition.paper = s.paper := by
  unfold State.scanTriggerPosition; dsimp only
  repeat' split
  all_goals simp

@[simp] theorem State.closeAtEdge_paper : s.closeAtEdge.paper = s.paper := by
  unfold State.closeAtEdge; dsimp only
  repeat' split
  all_goals simp

@[simp] theorem State.waitingPageEnd_paper (r : RingId) (d : RingDesc) : (s.waitingPageEnd r d).paper = s.paper := by
  unfold State.waitingPageEnd; dsimp only
  repeat' split
  all_goals simp

@[simp] theorem State.scanDocStep_paper : s.scanDocStep.paper = s.paper := by
  unfold State.scanDocStep; dsimp only
  repeat' split
  all_goals simp

@[simp] theorem State.docEdgeLow_paper : s.docEdgeLow.paper = s.paper := by
  unfold State.docEdgeLow; dsimp only
  repeat' split
  all_goals simp

@[simp] theorem State.reportStep_paper (ch : Chan) : (s.reportStep ch).paper = s.paper := by
  unfold State.reportStep
  split <;> simp


@[simp] theorem State.issueWindow_paper (d : RingDesc) (slot n : Nat) : (s.issueWindow d slot n).paper = s.paper := by
  induction n generalizing s slot with
  | zero => rfl
  | succ n ih => rw [State.issueWindow, ih, State.issueRead_paper]

@[simp] theorem State.sweepFrom_paper (standbySweep : Bool) (p : Nat) : (s.sweepFrom standbySweep p).paper = s.paper := by
  unfold State.sweepFrom
  repeat' split
  all_goals simp

@[simp] theorem State.readSource_paper (source length n : Nat) : (s.readSource source length n).paper = s.paper := by
  induction n generalizing s source length with
  | zero => rfl
  | succ n ih => rw [State.readSource, ih, State.issueRead_paper]

@[simp] theorem State.slotAcknowledged_paper (d : RingDesc) (c : Claim) : (s.slotAcknowledged d c).paper = s.paper := by
  unfold State.slotAcknowledged
  repeat' split
  all_goals simp

end

end Sys2Proof.Machine
end

