-- ==== Sys2Proof/Proofs/Pulse.lean ====
section
/-! The head line through the print path's operations, and what a heat pulse in progress keeps from moving (R65 to R67). -/

namespace Sys2Proof.Machine

open Sys2Proof

/-! ### Operations that keep the head line -/

section
variable (s : State)

@[simp] theorem Print.setBuf_headLine (x : Print) (i : BufId) (y : PrintBuf) : (x.setBuf i y).headLine = x.headLine := by
  cases i <;> rfl

@[simp] theorem Print.gatherNext_headLine (x : Print) : x.gatherNext.headLine = x.headLine := rfl

@[simp] theorem Print.gatherLoss_headLine (x : Print) : x.gatherLoss.headLine = x.headLine := by
  unfold Print.gatherLoss
  split <;> rfl

@[simp] theorem Print.noPending_headLine (x : Print) : x.noPending.headLine = x.headLine := rfl

@[simp] theorem State.pagePrinted_headLine (endMark : Bool) : (s.pagePrinted endMark).print.headLine = s.print.headLine := by
  simp [State.pagePrinted]

@[simp] theorem State.enterPrint_headLine (st : PrintState) : (s.enterPrint st).print.headLine = s.print.headLine := by
  unfold State.enterPrint; dsimp only
  split <;> simp

@[simp] theorem State.enterPause_headLine (r : PrintReason) : (s.enterPause r).print.headLine = s.print.headLine := by
  simp [State.enterPause]

@[simp] theorem State.enterHot_headLine : s.enterHot.print.headLine = s.print.headLine := by simp [State.enterHot]

@[simp] theorem State.printWake_headLine : s.printWake.print.headLine = s.print.headLine := by
  unfold State.printWake
  split <;> simp

@[simp] theorem State.printGoOn_headLine (resumed : Bool) : (s.printGoOn resumed).print.headLine = s.print.headLine := by
  unfold State.printGoOn; dsimp only
  repeat' split
  all_goals simp

theorem takePending_headLine {goOn : State → State} (hgo : ∀ u : State, (goOn u).print.headLine = u.print.headLine) :
    (s.takePending goOn).print.headLine = s.print.headLine := by
  unfold State.takePending; dsimp only
  repeat' split
  all_goals simp [hgo]

@[simp] theorem State.feedEnd_headLine : s.feedEnd.print.headLine = s.print.headLine := by
  unfold State.feedEnd; dsimp only
  split
  · simp
  · rw [takePending_headLine]
    · simp
    · simp

@[simp] theorem State.itemFollow_headLine (resumed : Bool) : (s.itemFollow resumed).print.headLine = s.print.headLine := by
  unfold State.itemFollow
  split
  · rfl
  · exact takePending_headLine s fun u => by simp

@[simp] theorem State.pageEnds_headLine : s.pageEnds.print.headLine = s.print.headLine := by
  unfold State.pageEnds; dsimp only
  repeat' split
  all_goals simp

@[simp] theorem State.fetchWordsOf_headLine (d : RingDesc) (slot : Nat) (tag : Tag) :
    (s.fetchWordsOf d slot tag).print.headLine = s.print.headLine := by
  simp [State.fetchWordsOf]

@[simp] theorem State.decideWindow_headLine (d : RingDesc) (slot : Nat) (tags : List Tag) :
    (s.decideWindow d slot tags).print.headLine = s.print.headLine := by
  unfold State.decideWindow; dsimp only
  split <;> simp

@[simp] theorem State.closeUnterminated_headLine (pageStart : Bool) :
    (s.closeUnterminated pageStart).print.headLine = s.print.headLine := by
  unfold State.closeUnterminated
  split <;> simp

@[simp] theorem State.slewEnd_headLine (w : Slew) (n : Nat) (resumed : Bool) :
    (s.slewEnd w n resumed).print.headLine = s.print.headLine := by
  unfold State.slewEnd; dsimp only
  split <;> simp

@[simp] theorem State.printPaperLow_headLine : s.printPaperLow.print.headLine = s.print.headLine := by
  unfold State.printPaperLow; dsimp only
  repeat' split
  all_goals simp

@[simp] theorem State.printHeadHot_headLine : s.printHeadHot.print.headLine = s.print.headLine := by
  unfold State.printHeadHot; dsimp only
  repeat' split
  all_goals simp

@[simp] theorem State.printHeadCool_headLine : s.printHeadCool.print.headLine = s.print.headLine := by
  unfold State.printHeadCool; dsimp only
  split <;> simp

@[simp] theorem State.pausePrint_headLine : s.pausePrint.print.headLine = s.print.headLine := by
  unfold State.pausePrint; dsimp only
  repeat' split
  all_goals simp

/-- R67: a line that is done leaves the head. -/
@[simp] theorem State.lineDone_headLine (h : HeadLine) (resumed : Bool) : (s.lineDone h resumed).print.headLine = none := by
  unfold State.lineDone; dsimp only
  split <;> simp

end

/-! ### Where the PAPER channel stays as it is -/

section
variable (s : State)

theorem takePending_paper {goOn : State → State} (hgo : ∀ u : State, (goOn u).paper = u.paper) :
    (s.takePending goOn).paper = s.paper := by
  unfold State.takePending; dsimp only
  repeat' split
  all_goals simp [hgo]

@[simp] theorem State.feedEnd_paper : s.feedEnd.paper = s.paper := by
  unfold State.feedEnd; dsimp only
  split
  · simp
  · rw [takePending_paper]
    · simp
    · simp

@[simp] theorem State.itemFollow_paper (resumed : Bool) : (s.itemFollow resumed).paper = s.paper := by
  unfold State.itemFollow
  split
  · rfl
  · exact takePending_paper s fun u => by simp

@[simp] theorem State.stopMove_moving (ch : Chan) (cause : StopCause) : (s.stopMove ch cause).paper.moving = s.paper.moving := by
  cases ch
  · rfl
  · exact Channel.stop_moving ..

@[simp] theorem State.stopBoth_moving (cause : StopCause) : (s.stopBoth cause).paper.moving = s.paper.moving := by
  simp [State.stopBoth]

@[simp] theorem Channel.releaseForStandby_moving (c : Channel) : c.releaseForStandby.moving = c.moving := by
  unfold Channel.releaseForStandby
  split
  next hst => simp [Channel.moving, hst]
  all_goals rfl

end

/-! ### A pulse in progress -/

/-- Whether the head line fires a phase. -/
def fires (h : Option HeadLine) : Bool := match h with | some h => h.cycle == .firing | none => false

theorem firing_eq (x : Print) : x.firing = fires x.headLine := rfl

/-- From a pulse and a channel to those after it: no pulse begins, and under one the channel does not begin to move. -/
def Calm (pulse moving pulse' moving' : Bool) : Prop := pulse' = true → pulse = true ∧ (moving = false → moving' = false)

theorem Calm.refl (pulse moving : Bool) : Calm pulse moving pulse moving := fun h => ⟨h, id⟩

/-- Without a pulse the channel may move. -/
@[simp] theorem calm_false (pulse moving moving' : Bool) : Calm pulse moving false moving' := fun h => by cases h

@[simp] theorem fires_none : fires none = false := rfl

@[simp] theorem fires_advancing (h : Option HeadLine) :
    fires (h.map fun h => { h with cycle := .advancing }) = false := by
  cases h <;> rfl

section
variable {p m : Bool} {s : State}

theorem calm_rest {a b : Bool} (h : Calm p m a b) : Calm p m a false := fun ha => ⟨(h ha).1, fun _ => rfl⟩

/-- The phase that fires may end. -/
theorem calm_drop {a b c : Bool} (h : Calm p m a b) (hc : c = true → a = true) : Calm p m c b := fun hc' => h (hc hc')

theorem Channel.undoRelease_moving {c : Channel} {a : Bool} (h : Calm p m a c.moving) : Calm p m a c.undoRelease.moving := by
  unfold Channel.undoRelease
  split
  · exact calm_rest h
  · exact h

@[simp] theorem State.undoRelease_calm {a : Bool} (h : Calm p m a s.paper.moving) :
    Calm p m a s.undoRelease.paper.moving := Channel.undoRelease_moving h

@[simp] theorem State.releaseMotors_moving (s : State) : s.releaseMotors.paper.moving = s.paper.moving :=
  Channel.releaseForStandby_moving _

/-- R67: while the paper advances, the head line fires no phase. -/
@[simp] theorem State.requestAdvance_fires (s : State) (h : HeadLine) : fires (s.requestAdvance h).print.headLine = false := by
  simp [State.requestAdvance, fires]

/-- R76: the line that completes is gone. -/
theorem State.completeItem_line (s : State) (resumed : Bool) : fires (s.completeItem .line resumed).print.headLine = false := by
  unfold State.completeItem; dsimp only
  split
  · simp
  next hslew _ => cases hslew
  next hfeed => cases hfeed
  next hnone => simpa using congrArg fires hnone
  next hslew _ => cases hslew

theorem State.completeItem_fires {s : State} (h : fires s.print.headLine = false) (item : Item) (resumed : Bool) :
    fires (s.completeItem item resumed).print.headLine = false := by
  unfold State.completeItem; dsimp only
  split <;> simp -implicitDefEqProofs [h]

theorem State.beginOwed_line (s : State) : fires (s.beginOwed .line).print.headLine = false := by
  unfold State.beginOwed; dsimp only
  split
  · exact State.completeItem_line s true
  · simp [State.paperMove]

theorem State.beginOwed_fires {s : State} (h : fires s.print.headLine = false) (item : Item) :
    fires (s.beginOwed item).print.headLine = false := by
  unfold State.beginOwed; dsimp only
  split
  · exact State.completeItem_fires h item true
  · simp [State.paperMove]

theorem State.endItem_line (s : State) (notTaken : Nat) : fires (s.endItem .line notTaken).print.headLine = false := by
  simp [State.endItem]

theorem State.endItem_fires {s : State} (h : fires s.print.headLine = false) (item : Item) (notTaken : Nat) :
    fires (s.endItem item notTaken).print.headLine = false := by
  unfold State.endItem; dsimp only
  split <;> simp -implicitDefEqProofs [h]

theorem State.endingMoveEnd_line (s : State) (notTaken : Nat) : fires (s.endingMoveEnd .line notTaken).print.headLine = false := by
  unfold State.endingMoveEnd; dsimp only
  repeat' split
  · exact State.completeItem_line s false
  · exact State.beginOwed_line _
  · exact State.endItem_line s notTaken

theorem State.endingMoveEnd_fires {s : State} (h : fires s.print.headLine = false) (item : Item) (notTaken : Nat) :
    fires (s.endingMoveEnd item notTaken).print.headLine = false := by
  unfold State.endingMoveEnd; dsimp only
  repeat' split
  · exact State.completeItem_fires h item false
  · exact State.beginOwed_line _
  · exact State.endItem_fires h item notTaken

/-- R67: a latched line is the item whose move is under way. -/
theorem movingItem_line {x : Print} {item : Item} (h : x.movingItem = some item) : item = .line ∨ fires x.headLine = false := by
  unfold Print.movingItem at h
  split at h
  · exact .inl (Option.some.inj h).symm
  next hnone =>
    refine .inr ?_
    rw [Option.not_isSome_iff_eq_none.mp hnone]
    rfl

/-- R67, R70, R71: the end of a PAPER move begins another only where no phase fires. -/
@[simp] theorem State.printMoveEnd_calm (h : Calm p m (fires s.print.headLine) s.paper.moving) :
    Calm p m (fires s.printMoveEnd.print.headLine) s.printMoveEnd.paper.moving := by
  have still : ∀ {t : State}, fires t.print.headLine = false → Calm p m (fires t.print.headLine) t.paper.moving := fun ht => by
    rw [ht]
    exact calm_false _ _ _
  unfold State.printMoveEnd; dsimp only
  split
  · exact h
  next item hitem =>
    obtain rfl | hfires := movingItem_line hitem
    · repeat' split
      · exact still (State.endingMoveEnd_line s _)
      · exact h
      · exact still (State.beginOwed_line _)
      · exact still (State.completeItem_line s _)
      · exact h
    · repeat' split
      · exact still (State.endingMoveEnd_fires hfires item _)
      · exact h
      · refine still (State.beginOwed_fires ?_ item)
        exact hfires
      · exact still (State.completeItem_fires hfires item _)
      · exact h

theorem State.afterPhase_fires (s : State) (h : HeadLine) :
    fires (s.afterPhase h).print.headLine = false := by
  unfold State.afterPhase; dsimp only
  repeat' split
  · simp
  · simp [fires]
  · exact State.beginOwed_line _
  · simp [fires]
  · simp

@[simp] theorem State.resumePrint_calm (h : Calm p m (fires s.print.headLine) s.paper.moving) :
    Calm p m (fires s.resumePrint.print.headLine) s.resumePrint.paper.moving := by
  unfold State.resumePrint; dsimp only
  repeat' split
  · exact h
  · simp -implicitDefEqProofs [h]
  next hrest =>
    have hfires : fires s.print.headLine = false := Bool.eq_false_iff.mpr fun hf => hrest (.inl hf)
    rw [State.beginOwed_fires (by simp [hfires])]
    exact calm_false _ _ _
  · simp -implicitDefEqProofs [h]
  · simp -implicitDefEqProofs [h]

@[simp] theorem Print.dropPaused_fires (x : Print) : fires x.dropPaused.headLine = fires x.headLine := by
  unfold Print.dropPaused
  split
  · show fires (if x.firing then x.headLine else none) = _
    rw [firing_eq]
    split
    · rfl
    next hrest => exact (Bool.eq_false_iff.mpr hrest).symm
  · rfl

@[simp] theorem State.stopPrint_calm (h : Calm p m (fires s.print.headLine) s.paper.moving) :
    Calm p m (fires s.stopPrint.print.headLine) s.stopPrint.paper.moving := by
  unfold State.stopPrint; dsimp only
  repeat' split
  all_goals simp -implicitDefEqProofs [h]

@[simp] theorem State.printCut_calm {b : Bool} (h : Calm p m (fires s.print.headLine) b) (reason : PrintReason) :
    Calm p m (fires (s.printCut reason).print.headLine) b := by
  unfold State.printCut; dsimp only
  split
  · exact h
  · refine calm_drop h fun hfires => ?_
    simp only [State.setPrint_print] at hfires
    split at hfires
    · exact hfires
    · cases hfires

/-- R73: what a COVER opening leaves of the head line. -/
theorem Print.interrupt_fires (x : Print) (h : fires x.interrupt.headLine = true) : fires x.headLine = true := by
  unfold Print.interrupt at h
  repeat' split at h
  all_goals first
    | exact h
    | cases h

@[simp] theorem State.printCoverHigh_calm {b : Bool} (h : Calm p m (fires s.print.headLine) b) :
    Calm p m (fires s.printCoverHigh.print.headLine) b := by
  unfold State.printCoverHigh; dsimp only
  repeat' split
  all_goals simp -implicitDefEqProofs [h]
  all_goals exact calm_drop h (Print.interrupt_fires _)

@[simp] theorem State.reportEnd_calm (h : Calm p m (fires s.print.headLine) s.paper.moving) (ch : Chan) (cause : EndCause) :
    Calm p m (fires (s.reportEnd ch cause).print.headLine) (s.reportEnd ch cause).paper.moving := by
  unfold State.reportEnd
  split <;> simp -implicitDefEqProofs [h]

theorem State.emergencyReport_calm (h : Calm p m (fires s.print.headLine) s.paper.moving) (doc paper : Bool) (cause : EndCause) :
    Calm p m (fires (s.emergencyReport doc paper cause).print.headLine) (s.emergencyReport doc paper cause).paper.moving := by
  unfold State.emergencyReport
  cases doc <;> cases paper <;> simp -implicitDefEqProofs [h]

@[simp] theorem State.emergencyStop_calm (h : Calm p m (fires s.print.headLine) s.paper.moving) (a : ScanReason)
    (b : PrintReason) (cause : EndCause) :
    Calm p m (fires (s.emergencyStop a b cause).print.headLine) (s.emergencyStop a b cause).paper.moving := by
  refine State.emergencyReport_calm ?_ _ _ _
  simp only [State.printCut_paper]
  refine State.printCut_calm ?_ b
  simp only [State.scanCut_print, State.scanCut_paper, State.emergencyHold, State.setPaper_print, State.setDoc_print,
    State.setPaper_paper, Channel.emergency_moving]
  exact calm_rest h

@[simp] theorem State.clockFailure_calm (h : Calm p m (fires s.print.headLine) s.paper.moving) :
    Calm p m (fires s.clockFailure.print.headLine) s.clockFailure.paper.moving := by
  unfold State.clockFailure; dsimp only
  split <;> simp -implicitDefEqProofs [h]

@[simp] theorem State.finishAbandon_calm {a : Bool} (h : Calm p m a s.paper.moving) : Calm p m a s.finishAbandon.paper.moving := by
  unfold State.finishAbandon; dsimp only
  split <;> simp -implicitDefEqProofs [h]

@[simp] theorem State.abandonEntry_calm {a : Bool} (h : Calm p m a s.paper.moving) : Calm p m a s.abandonEntry.paper.moving := by
  unfold State.abandonEntry
  repeat' split
  all_goals simp -implicitDefEqProofs [h]

@[simp] theorem State.wake_calm {a : Bool} (h : Calm p m a s.paper.moving) (cause : WakeCause) :
    Calm p m a (s.wake cause).paper.moving := by
  unfold State.wake
  repeat' split
  all_goals simp -implicitDefEqProofs [h]

@[simp] theorem State.zoneToBlocks_calm (h : Calm p m (fires s.print.headLine) s.paper.moving) (role : Role) (zone : Zone) :
    Calm p m (fires (s.zoneToBlocks role zone).print.headLine) (s.zoneToBlocks role zone).paper.moving := by
  unfold State.zoneToBlocks
  split <;> simp -implicitDefEqProofs [h]

@[simp] theorem State.zoneChange_calm (h : Calm p m (fires s.print.headLine) s.paper.moving) (standbySweep : Bool) (position : Nat)
    (e : SenseEntry) (before after : Zone) (reading : Nat) :
    Calm p m (fires (s.zoneChange standbySweep position e before after reading).print.headLine)
      (s.zoneChange standbySweep position e before after reading).paper.moving := by
  unfold State.zoneChange; dsimp only
  repeat' split
  all_goals simp -implicitDefEqProofs [h]

@[simp] theorem State.convertEntry_calm (h : Calm p m (fires s.print.headLine) s.paper.moving) (standbySweep : Bool)
    (position raw : Nat) : Calm p m (fires (s.convertEntry standbySweep position raw).print.headLine)
      (s.convertEntry standbySweep position raw).paper.moving := by
  unfold State.convertEntry; dsimp only
  repeat' split
  all_goals simp -implicitDefEqProofs [h]

@[simp] theorem State.burstQualifies_calm {a : Bool} (h : Calm p m a s.paper.moving) :
    Calm p m a s.burstQualifies.paper.moving := by
  simp -implicitDefEqProofs [State.burstQualifies, h]

@[simp] theorem State.debouncedChange_calm {a : Bool} (h : Calm p m a s.paper.moving) (input : InputLine) (high : Bool) :
    Calm p m a (s.debouncedChange input high).paper.moving := by
  unfold State.debouncedChange; dsimp only
  repeat' split
  all_goals simp -implicitDefEqProofs [h]

@[simp] theorem State.beginPrint_headLine (s : State) (x : PrintParams) : (s.beginPrint x).print.headLine = none := by
  simp [State.beginPrint]

@[simp] theorem Channel.clearMark_moving (c : Channel) : c.clearMark.moving = c.moving := rfl

@[simp] theorem State.beginEntry_moving (s : State) (tag : Byte) (wake : Nat) :
    (s.beginEntry tag wake).paper.moving = s.paper.moving := by
  simp [State.beginEntry]

/-- The channel that steps was moving. -/
theorem setChan_calm {a : Bool} {ch : Chan} (hmoving : (s.chan ch).moving = true) (x : Channel) :
    Calm a s.paper.moving a (s.setChan ch x).paper.moving := by
  cases ch
  · exact Calm.refl _ _
  · have hm : s.paper.moving = true := hmoving
    rw [hm]
    exact fun ha => ⟨ha, fun h => by cases h⟩

end

/-! ### Rows -/

/-- The rows that may begin a pulse, or move the PAPER channel for the host. -/
def beginsPulse : Instr → Bool
  | .lineLatch _ | .nextPhaseStart | .moveMotor .. => true
  | _ => false

theorem exec_calm {i : Instr} (hi : beginsPulse i = false) (s : State) :
    Meets (fun t => Calm s.print.firing s.paper.moving t.print.firing t.paper.moving) (exec i s) := by
  simp only [firing_eq]
  have h := Calm.refl (fires s.print.headLine) s.paper.moving
  by_cases hk : keepsStreams i
  · intro t ht
    have hstreams := exec_streams hk s t ht
    rwa [print_of_streams hstreams, paper_of_streams hstreams]
  have cold : ∀ (u : State) (cause : ColdCause), fires (u.coldStart cause).print.headLine = false := fun u cause => by
    unfold State.coldStart State.leaveReset
    split <;> rfl
  cases i
  all_goals try (exact absurd rfl hk)
  all_goals try (cases hi; done)
  case powerOnDetect => exact meets_next.mpr (by rw [cold]; exact calm_false _ _ _)
  case resetPinLow => exact meets_ite (fun _ => meets_next.mpr (by rw [cold]; exact calm_false _ _ _)) (fun _ => meets_next.mpr h)
  case responsePutAcknowledged =>
    simp only [exec, execResponsePutAcknowledged]
    repeat' split
    all_goals simp -implicitDefEqProofs [h, cold]
  case setRing | startScan | startScanCal | stopScan | startPrint | stopPrint | pausePrint | resumePrint | linkRings | unlink
      | holdMotor | releaseMotor | setPower | stopAll =>
    refine meets_command rfl h ?_
    rintro u rfl
    change Meets (fun t => Calm (fires u.print.headLine) u.paper.moving (fires t.print.headLine) t.paper.moving) _
    have hu := Calm.refl (fires u.print.headLine) u.paper.moving
    have hrest : ∀ (c : Chan) (x : Channel), x.st = .idle ∨ x.st = .hold →
        Calm (fires u.print.headLine) u.paper.moving (fires u.print.headLine) (u.setChan c x).paper.moving := fun c x hx => by
      cases c
      · exact hu
      · have hmoving : x.moving = false := by obtain hx | hx := hx <;> simp [Channel.moving, hx]
        exact (congrArg _ hmoving).mpr (calm_rest hu)
    simp only [exec, execSetRing, execStartScan, execStartScanCal, execStopScan, execStartPrint, execStopPrint, execPausePrint,
      execLinkRings, execUnlink, execResumePrint, execHoldMotor, execReleaseMotor, execSetPower, execStopAll, claimCommand_given, -List.reduceReplicate]
    repeat' split
    all_goals simp -implicitDefEqProofs [hu, hrest, -List.reduceReplicate]
  case stepIntervalExpiry ch =>
    simp only [exec, execStepIntervalExpiry]
    refine meets_ite (fun hmoving => ?_) (fun _ => meets_next.mpr h)
    have hstep := setChan_calm (a := fires s.print.headLine) hmoving.1
    split
    all_goals simp -implicitDefEqProofs [hstep]
  case phaseEnd =>
    simp only [exec, execPhaseEnd]
    split
    · refine meets_ite (fun _ => meets_next.mpr ?_) (fun _ => meets_next.mpr h)
      rw [State.afterPhase_fires]
      exact calm_false _ _ _
    · exact meets_next.mpr h
  case slewBegin =>
    simp only [exec, execSlewBegin]
    split
    · refine meets_ite (fun hbegin => meets_next.mpr ?_) (fun _ => meets_next.mpr h)
      obtain ⟨-, -, hnext, -⟩ := hbegin
      simp only [Print.slewNext, Bool.and_eq_true, Option.isNone_iff_eq_none] at hnext
      obtain ⟨⟨⟨⟨⟨-, -⟩, hnone⟩, -⟩, -⟩, -⟩ := hnext
      simp [hnone]
    · exact meets_next.mpr h
  case accessEnd =>
    simp only [exec, execAccessEnd]
    split
    · split
      · refine meets_next.mpr ?_
        have hprint : ∀ b : Burst, (s.perform b).print = s.print := fun b => by
          unfold State.perform
          cases b.dir <;> simp
        have hpaper : ∀ b : Burst, (s.perform b).paper = s.paper := fun b => by
          unfold State.perform
          cases b.dir <;> simp
        simp [h, hprint, hpaper]
      · exact meets_fault
    all_goals exact meets_next.mpr h
  case lineRingPutWrite | lineRingTakeWrite =>
    simp only [exec, execLineRingPutWrite, execLineRingTakeWrite]
    split
    · exact meets_next.mpr h
    next hu =>
      rw [← print_of_streams (claimArrival_streams hu), ← paper_of_streams (claimArrival_streams hu)] at h ⊢
      repeat' split
      all_goals simp -implicitDefEqProofs [h]
  all_goals
    simp only [exec, execSlotWritesAcknowledged, execPageEndTagAcknowledged, execReadoutComplete,
      execCalTriggerExpiry, execCalReadoutComplete, execCalSumsAcknowledged, execLinkTakeSourceLine,
      execLinkReadComplete, execFetchStart, execTagReadComplete,
      execWindowReadComplete, execFetchComplete, execShiftInStart, execShiftInComplete,
      execPrintStreamOff, execConversionComplete, execRingEdge, execDebounceExpiry,
      execLossWindowExpiry, execWakeTimerExpiry, execStandbyEntry, execRefreshBurstDone, State.memoryBack]
    repeat' split
  all_goals simp -implicitDefEqProofs [h]

/-- R92: a MOVE MOTOR moves no channel that a stream owns. -/
theorem execMoveMotor_moving {s : State} (howner : s.paper.owner ≠ .host) (tag channel direction profile : Byte) (steps : Half) :
    Meets (fun t => t.paper.moving = s.paper.moving) (exec (.moveMotor tag channel direction profile steps) s) := by
  refine meets_command rfl rfl ?_
  rintro u rfl
  simp only [exec, execMoveMotor, claimCommand_given]
  repeat' split
  all_goals try (simp [State.given]; done)
  next a _ _ hcheck =>
    refine meets_next.mpr ?_
    cases hchannel : a.channel
    · rfl
    · refine absurd ?_ (show ¬u.checkMove a = none from ?_)
      · exact hcheck
      · unfold State.checkMove
        rw [hchannel, if_pos (show (u.chan .paper).owner ≠ .host from howner)]
        exact Option.some_ne_none _

theorem execMoveMotor_firing (s : State) (tag channel direction profile : Byte) (steps : Half) :
    Meets (fun t => t.print = s.print) (exec (.moveMotor tag channel direction profile steps) s) := by
  refine meets_command rfl rfl ?_
  rintro u rfl
  simp only [exec, execMoveMotor, claimCommand_given]
  repeat' split
  all_goals simp [State.given]

/-- R65: a line is latched with no line at the head and the channel at rest; where its plan has a phase, the channel stays so. -/
theorem execLineLatch_pulse {s t : State} {elapsed : Half} (h : exec (.lineLatch elapsed) s = .next t) :
    t = s ∨ s.print.firing = false ∧ s.paper.moving = false ∧ (t.print.firing = true → t.paper.moving = false) := by
  simp only [exec, execLineLatch] at h
  split at h
  next hmay =>
    simp only [State.mayLatch, Channel.atRest, Bool.and_eq_true, Bool.not_eq_true', Option.isNone_iff_eq_none] at hmay
    obtain ⟨⟨⟨⟨⟨⟨⟨⟨-, -⟩, -⟩, hnone⟩, hrest⟩, -⟩, -⟩, -⟩, -⟩ := hmay
    have hfires : s.print.firing = false := by
      rw [firing_eq, hnone]
      rfl
    refine .inr ⟨hfires, hrest, fun hfiring => ?_⟩
    obtain rfl := Host.Outcome.next.inj h
    unfold State.latch at hfiring ⊢
    dsimp only at hfiring ⊢
    split at hfiring
    · rw [firing_eq, State.requestAdvance_fires] at hfiring
      cases hfiring
    next hplan =>
      rw [if_neg hplan]
      simpa using hrest
  · exact .inl (Host.Outcome.next.inj h).symm

end Sys2Proof.Machine

namespace Sys2Proof.Proofs

open Sys2Proof Sys2Proof.Machine

/-- Settles O44: under a pulse no operation moves the PAPER channel, and LINE_LATCH and NEXT_PHASE_START alone begin one. -/
theorem noMoveUnderAPulse : Obligations.NoMoveUnderAPulse := by
  intro i s t h hpulse
  by_cases hi : beginsPulse i = false
  · obtain ⟨hfiring, hmoving⟩ := exec_calm hi s t h hpulse
    exact ⟨fun _ _ => hmoving, fun hno => absurd (hno.symm.trans hfiring) (by decide)⟩
  cases i
  all_goals try (exact absurd rfl hi)
  case moveMotor tag channel direction profile steps =>
    have hprint := execMoveMotor_firing s tag channel direction profile steps t h
    refine ⟨fun _ howner hrest => (execMoveMotor_moving howner tag channel direction profile steps t h).trans hrest, fun hno => ?_⟩
    rw [hprint, hno] at hpulse
    cases hpulse
  case lineLatch elapsed =>
    obtain rfl | ⟨hno, hrest, hmoving⟩ := execLineLatch_pulse h
    · exact ⟨fun _ _ hrest => hrest, fun hno => absurd (hno.symm.trans hpulse) (by decide)⟩
    · exact ⟨fun hfiring => absurd (hno.symm.trans hfiring) (by decide), fun _ => .inl ⟨⟨elapsed, rfl⟩, hrest, hmoving hpulse⟩⟩
  case nextPhaseStart =>
    simp only [exec, execNextPhaseStart] at h
    split at h
    next line hline =>
      split at h
      next hgap =>
        obtain rfl := Host.Outcome.next.inj h
        exact ⟨fun _ _ hrest => hrest, fun _ => .inr ⟨rfl, line, hline, hgap⟩⟩
      · obtain rfl := Host.Outcome.next.inj h
        exact ⟨fun _ _ hrest => hrest, fun hno => absurd (hno.symm.trans hpulse) (by decide)⟩
    · obtain rfl := Host.Outcome.next.inj h
      exact ⟨fun _ _ hrest => hrest, fun hno => absurd (hno.symm.trans hpulse) (by decide)⟩

end Sys2Proof.Proofs
end

