-- ==== Sys2Proof/Proofs/RingOps.lean ====
section
/-! The ring manager's operations as functions of one ring (R4, R9 to R13), and how they count its slots. -/

namespace Sys2Proof.Machine

open Sys2Proof

/-! ### Counting modulo 2S (R4) -/

/-- R4: the published, held and writing slots. -/
def Ring.filled (x : Ring) (d : RingDesc) : Nat := x.occupancy d + x.claimed

theorem filled_eq (x : Ring) (d : RingDesc) :
    x.filled d = x.occupancy d + (if x.held.isSome then 1 else 0) + x.writing.length := (Nat.add_assoc ..).symm

/-- R10: a slot that is published is occupied. -/
theorem occupancy_put {size put take : Nat} (hput : put < size) (htake : take < size) (hroom : (put + size - take) % size + 1 < size) :
    ((put + 1) % size + size - take) % size = (put + size - take) % size + 1 := by
  rw [ahead_eq hput htake] at hroom ⊢
  rw [ahead_eq (Nat.mod_lt _ (by omega)) htake, next_eq hput]
  split_ifs at * <;> omega

/-- R13: a release of at most the occupancy lowers it. -/
theorem occupancy_release {size put take n : Nat} (hput : put < size) (htake : take < size) (hn : n ≤ (put + size - take) % size) :
    (put + size - (take + n) % size) % size + n = (put + size - take) % size := by
  have hadv : (take + n) % size = if take + n < size then take + n else take + n - size := by
    split_ifs with hlt
    · exact Nat.mod_eq_of_lt hlt
    · have hle := Nat.mod_lt (put + size - take) (Nat.zero_lt_of_lt hput)
      rw [Nat.mod_eq_sub_mod (by omega), Nat.mod_eq_of_lt (by omega)]
  rw [ahead_eq hput htake] at hn ⊢
  rw [ahead_eq hput (Nat.mod_lt _ (Nat.zero_lt_of_lt hput)), hadv]
  split_ifs at * <;> omega

/-- R6: a put that the host may write adds its advance to the occupancy. -/
theorem occupancy_write {size put take new : Nat} (hput : put < size) (htake : take < size) (hnew : new < size)
    (hfits : (put + size - take) % size + (new + size - put) % size < size) :
    (new + size - take) % size = (put + size - take) % size + (new + size - put) % size := by
  rw [ahead_eq hput htake, ahead_eq hnew hput] at hfits ⊢
  rw [ahead_eq hnew htake]
  split_ifs at * <;> omega

/-! ### Rings replaced -/

@[simp] theorem Rings.set_set (q : Rings) (r : RingId) (x y : Ring) : (q.set r x).set r y = q.set r y := by
  unfold Rings.set
  split <;> rfl

theorem Rings.get_set_eq (q : Rings) (r t : RingId) (x : Ring) : (q.set r x).get t = if t = r then x else q.get t := by
  split_ifs with h
  · rw [h, Rings.get_set]
  · exact Rings.get_set_other q x h

/-! ### One ring's operations -/

/-- R9: the ring with its next slot claimed. -/
def Ring.claim (x : Ring) (d : RingDesc) (tag : Tag) (buf : Option BufId) : Ring :=
  { x with writing := x.writing ++ [{ slot := (x.put + x.claimed) % d.slots, tag := tag, buf := buf }] }

/-- R10: the ring with its oldest writing slot acknowledged. -/
def Ring.acknowledged (x : Ring) (d : RingDesc) (c : Claim) (rest : List Claim) : Ring :=
  if c.abandoned then { x with writing := rest }
  else { x with writing := rest, held := some ⟨c.slot, c.tag⟩, put := if x.held.isSome then (x.put + 1) % (2 * d.slots) else x.put }

/-- R11: the ring with its page end complete. -/
def Ring.completed (x : Ring) (d : RingDesc) : Ring := { x with put := (x.put + 1) % (2 * d.slots), held := none, pageEnd := none }

/-- R11: the ring with a page end asked for. -/
def Ring.asked (x : Ring) (lost : Bool) : Ring :=
  if x.pageEnd.isSome then x else { x with pageEnd := some { lostTail := lost } }

/-- R11: the tag of the held slot as a page end rewrites it. -/
def Held.rewritten (h : Held) (lost : Bool) : Held :=
  { h with tag := { h.tag with endOfPage := true, lostTail := h.tag.lostTail || lost } }

/-- R11: the ring once a page end that waits may act. -/
def Ring.beginEnd (x : Ring) : Ring :=
  match x.pageEnd, x.writing with
  | some { lostTail := lost, rewriting := false }, [] =>
    match x.held with
    | some h => { x with held := some (h.rewritten lost), pageEnd := some ⟨lost, true⟩ }
    | none => { x with pageEnd := none }
  | _, _ => x

/-- R13: the ring with n slots released. -/
def Ring.released (x : Ring) (n : Nat) : Ring :=
  match x.desc with
  | none => x
  | some d => if n = 0 ∨ x.occupancy d < n then x else { x with take := (x.take + n) % (2 * d.slots) }

section
variable (s : State)

theorem State.setRing_self (r : RingId) : s.rings.set r (s.ring r) = s.rings := by
  unfold State.ring Rings.set Rings.get
  match r with
  | 0 | 1 | 2 | 3 => rfl

theorem claimSlot_rings (r : RingId) (d : RingDesc) (tag : Tag) (words : List Word) (buf : Option BufId) :
    (s.claimSlot r d tag words buf).rings = s.rings.set r ((s.ring r).claim d tag buf) := rfl

theorem acknowledgeSlot_rings (r : RingId) (d : RingDesc) (c : Claim) (rest : List Claim) :
    (s.acknowledgeSlot r d c rest).rings = s.rings.set r ((s.ring r).acknowledged d c rest) := by
  unfold State.acknowledgeSlot Ring.acknowledged; dsimp only
  split_ifs with habandoned hheld
  · rfl
  · have hring : ∀ u : State, u.rings = (s.rings.set r { s.ring r with writing := rest }) →
        ((u.publish r d).setRing r { (u.publish r d).ring r with held := some ⟨c.slot, c.tag⟩ }).rings
          = s.rings.set r { s.ring r with writing := rest, held := some ⟨c.slot, c.tag⟩, put := ((s.ring r).put + 1) % (2 * d.slots) } :=
      fun u hu => by
        show (u.rings.set r _).set r { (u.rings.set r _).get r with held := _ } = _
        rw [Rings.set_set, Rings.get_set, State.ring, hu, Rings.get_set, Rings.set_set]
    exact hring _ rfl
  · show (s.rings.set r _).set r { (s.rings.set r _).get r with held := _ } = _
    rw [Rings.set_set, Rings.get_set]

theorem finishPageEnd_rings (r : RingId) (d : RingDesc) : (s.finishPageEnd r d).rings = s.rings.set r ((s.ring r).completed d) := by
  show (s.rings.set r _).set r { (s.rings.set r _).get r with held := _, pageEnd := _ } = _
  rw [Rings.set_set, Rings.get_set]
  rfl

theorem askPageEnd_rings (r : RingId) (lost : Bool) : (s.askPageEnd r lost).rings = s.rings.set r ((s.ring r).asked lost) := by
  unfold State.askPageEnd Ring.asked
  cases hpage : (s.ring r).pageEnd with
  | none => rfl
  | some p => exact (State.setRing_self s r).symm

theorem beginPageEnd_rings (r : RingId) (d : RingDesc) : (s.beginPageEnd r d).rings = s.rings.set r (s.ring r).beginEnd := by
  unfold State.beginPageEnd Ring.beginEnd; dsimp only
  cases hpage : (s.ring r).pageEnd with
  | none => exact (State.setRing_self s r).symm
  | some p =>
    obtain ⟨lost, rewriting⟩ := p
    cases rewriting with
    | true => exact (State.setRing_self s r).symm
    | false =>
      cases hwriting : (s.ring r).writing with
      | cons c rest => exact (State.setRing_self s r).symm
      | nil =>
        cases hheld : (s.ring r).held with
        | none => rfl
        | some h => rfl

theorem releaseTake_rings (r : RingId) (n : Nat) : (s.releaseTake r n).rings = s.rings.set r ((s.ring r).released n) := by
  unfold State.releaseTake Ring.released
  cases hd : (s.ring r).desc with
  | none => exact (State.setRing_self s r).symm
  | some d =>
    dsimp only
    split
    · exact (State.setRing_self s r).symm
    · rw [← hd]
      rfl

end

/-! ### Counted rings -/

/-- R4, R6, R7, R11: what a ring with a descriptor meets. -/
structure Ring.CountedIn (x : Ring) (d : RingDesc) : Prop where
  put : x.put < 2 * d.slots
  take : x.take < 2 * d.slots
  sum : x.filled d ≤ d.slots
  host : d.producer = .host → x.claimed = 0
  rewriting : ∀ p, x.pageEnd = some p → p.rewriting = true → x.held.isSome = true

theorem counted_iff (x : Ring) : x.counted = true ↔ ∀ d, x.desc = some d → x.CountedIn d := by
  have hfields : ∀ d, x.CountedIn d ↔ ((x.put < 2 * d.slots ∧ x.take < 2 * d.slots) ∧ x.filled d ≤ d.slots)
      ∧ (d.producer = .host → x.claimed = 0) ∧ ∀ p, x.pageEnd = some p → p.rewriting = true → x.held.isSome = true :=
    fun d => ⟨fun ⟨a, b, c, e, f⟩ => ⟨⟨⟨a, b⟩, c⟩, e, f⟩, fun ⟨⟨⟨a, b⟩, c⟩, e, f⟩ => ⟨a, b, c, e, f⟩⟩
  have hpage : (match x.pageEnd with | some p => !p.rewriting || x.held.isSome | none => true) = true ↔
      ∀ p, x.pageEnd = some p → p.rewriting = true → x.held.isSome = true := by
    cases x.pageEnd with
    | none => simp
    | some p => cases hp : p.rewriting <;> simp [hp]
  have hhost : ∀ d : RingDesc, (d.producer != .host || x.claimed == 0) = true ↔ (d.producer = .host → x.claimed = 0) :=
    fun d => by simp [imp_iff_not_or]
  unfold Ring.counted
  cases x.desc with
  | none => simp
  | some d =>
    simp only [Option.some.injEq, forall_eq']
    rw [hfields, Bool.and_eq_true, Bool.and_eq_true, Bool.and_eq_true, Bool.and_eq_true, and_assoc]
    simp only [decide_eq_true_eq]
    exact and_congr Iff.rfl (and_congr (hhost d) hpage)

theorem filledBy_iff (x : Ring) (side : Side) :
    x.filledBy side = true ↔ x.prodAttached = true ∧ ∃ d, x.desc = some d ∧ d.producer = side := by
  unfold Ring.filledBy
  cases x.desc <;> simp

/-- R4: a part producer of the ring finds a free slot. -/
def Ring.hasRoom (x : Ring) : Prop := ∃ d, x.desc = some d ∧ x.filled d < d.slots

theorem hasRoom_of_free {x : Ring} {d : RingDesc} (hd : x.desc = some d) (hproducer : d.producer ≠ .host) (h : 1 ≤ x.free d) :
    x.hasRoom := by
  rw [Ring.free, if_neg hproducer] at h
  exact ⟨d, hd, by unfold Ring.filled; omega⟩

theorem free_of_hasRoom {x : Ring} {d : RingDesc} (hd : x.desc = some d) (h : x.hasRoom) : 1 ≤ x.free d := by
  obtain ⟨e, he, hlt⟩ := h
  obtain rfl := Option.some.inj (hd.symm.trans he)
  unfold Ring.filled at hlt
  unfold Ring.free
  split <;> omega

/-- One ring's operation keeps what counts its slots, who fills it, and its free slots. -/
structure Ring.Serves (x y : Ring) : Prop where
  desc : y.desc = x.desc
  producer : y.prodAttached = x.prodAttached
  counted : ∀ d, x.desc = some d → x.CountedIn d → y.CountedIn d ∧ y.filled d ≤ x.filled d

theorem Ring.Serves.refl (x : Ring) : x.Serves x := ⟨rfl, rfl, fun _ _ h => ⟨h, Nat.le_refl _⟩⟩

theorem Ring.Serves.trans {x y z : Ring} (h : x.Serves y) (h' : y.Serves z) : x.Serves z := by
  refine ⟨h'.desc.trans h.desc, h'.producer.trans h.producer, fun d hd hx => ?_⟩
  obtain ⟨hy, hle⟩ := h.counted d hd hx
  obtain ⟨hz, hle'⟩ := h'.counted d (h.desc.trans hd) hy
  exact ⟨hz, hle'.trans hle⟩

theorem filledBy_of_serves {x y : Ring} (h : x.Serves y) {side : Side} (hx : x.filledBy side = true) : y.filledBy side = true := by
  rw [filledBy_iff, h.desc, h.producer]
  exact (filledBy_iff x side).mp hx

theorem counted_of_serves {x y : Ring} (h : x.Serves y) (hx : x.counted = true) : y.counted = true := by
  rw [counted_iff] at hx ⊢
  intro d hd
  rw [h.desc] at hd
  exact (h.counted d hd (hx d hd)).1

theorem hasRoom_of_serves {x y : Ring} (h : x.Serves y) (hcounted : x.counted = true) (hx : x.hasRoom) : y.hasRoom := by
  obtain ⟨d, hd, hlt⟩ := hx
  refine ⟨d, h.desc.trans hd, ?_⟩
  obtain ⟨-, hle⟩ := h.counted d hd ((counted_iff x).mp hcounted d hd)
  exact hle.trans_lt hlt

/-! ### What each operation counts -/

theorem filled_claim (x : Ring) (d : RingDesc) (tag : Tag) (buf : Option BufId) : (x.claim d tag buf).filled d = x.filled d + 1 := by
  unfold Ring.filled Ring.claimed Ring.claim
  simp only [List.length_append, List.length_cons, List.length_nil]
  show x.occupancy d + _ = x.occupancy d + _ + 1
  omega

/-- R10: a slot published from the held one is one more published. -/
theorem occupancy_publish_eq {x y : Ring} {d : RingDesc} (hput : x.put < 2 * d.slots) (htake : x.take < 2 * d.slots)
    (hsum : x.occupancy d + 1 ≤ d.slots) (hy : y.put = (x.put + 1) % (2 * d.slots)) (ht : y.take = x.take) :
    y.occupancy d = x.occupancy d + 1 := by
  unfold Ring.occupancy at *
  rw [hy, ht]
  exact occupancy_put hput htake (by omega)

theorem acknowledged_of {x : Ring} {d : RingDesc} {c : Claim} {rest : List Claim} (hc : c.abandoned = false) :
    x.acknowledged d c rest = { x with
      writing := rest, held := some ⟨c.slot, c.tag⟩, put := if x.held.isSome then (x.put + 1) % (2 * d.slots) else x.put } :=
  if_neg (by rw [hc]; decide)

theorem filled_acknowledged {x : Ring} {d : RingDesc} {c : Claim} {rest : List Claim} (hw : x.writing = c :: rest)
    (hput : x.put < 2 * d.slots) (htake : x.take < 2 * d.slots) (hsum : x.filled d ≤ d.slots) (hc : c.abandoned = false) :
    (x.acknowledged d c rest).filled d = x.filled d := by
  rw [filled_eq, hw, List.length_cons] at hsum
  rw [filled_eq, filled_eq, hw, List.length_cons, acknowledged_of hc]
  by_cases hheld : x.held.isSome = true
  · rw [if_pos hheld] at hsum
    have hocc := occupancy_publish_eq (d := d) (y := { x with
      writing := rest, held := some ⟨c.slot, c.tag⟩, put := (x.put + 1) % (2 * d.slots) }) hput htake (by omega) rfl rfl
    simp only [if_pos hheld, hocc, Option.isSome_some, if_true]
    omega
  · simp only [if_neg hheld, Option.isSome_some, if_true]
    show x.occupancy d + 1 + rest.length = x.occupancy d + 0 + (rest.length + 1)
    omega

theorem filled_completed {x : Ring} {d : RingDesc} (hheld : x.held.isSome = true)
    (hput : x.put < 2 * d.slots) (htake : x.take < 2 * d.slots) (hsum : x.filled d ≤ d.slots) :
    (x.completed d).filled d = x.filled d := by
  rw [filled_eq, if_pos hheld] at hsum
  rw [filled_eq, filled_eq, if_pos hheld, occupancy_publish_eq (y := x.completed d) hput htake (by omega) rfl rfl]
  rfl

theorem released_of {x : Ring} {d : RingDesc} {n : Nat} (hd : x.desc = some d) (hn : 1 ≤ n) (hle : n ≤ x.occupancy d) :
    x.released n = { x with take := (x.take + n) % (2 * d.slots) } := by
  simp only [Ring.released, hd]
  exact if_neg (by omega)

/-! ### What each operation keeps -/

theorem acknowledged_serves {x : Ring} {d : RingDesc} {c : Claim} {rest : List Claim} (hd : x.desc = some d)
    (hw : x.writing = c :: rest) : x.Serves (x.acknowledged d c rest) := by
  refine ⟨by unfold Ring.acknowledged; split <;> rfl, by unfold Ring.acknowledged; split <;> rfl, fun e he hx => ?_⟩
  obtain rfl := Option.some.inj (hd.symm.trans he)
  have hproducer : d.producer ≠ .host := fun hhost => by
    have := hx.host hhost
    simp [Ring.claimed, hw] at this
  cases hc : c.abandoned
  · have hfilled := filled_acknowledged hw hx.put hx.take hx.sum hc
    refine ⟨⟨?_, ?_, hfilled ▸ hx.sum, fun hhost => absurd hhost hproducer, fun _ _ _ => ?_⟩, hfilled.le⟩
    · rw [acknowledged_of hc]
      show (if x.held.isSome then (x.put + 1) % (2 * d.slots) else x.put) < 2 * d.slots
      split
      · exact Nat.mod_lt _ (Nat.zero_lt_of_lt hx.put)
      · exact hx.put
    · rw [acknowledged_of hc]
      exact hx.take
    · rw [acknowledged_of hc]
      rfl
  · have hle : ({ x with writing := rest } : Ring).filled d ≤ x.filled d := by
      rw [filled_eq, filled_eq, hw, List.length_cons]
      exact Nat.le_succ _
    have heq : x.acknowledged d c rest = { x with writing := rest } := if_pos hc
    rw [heq]
    exact ⟨⟨hx.put, hx.take, hle.trans hx.sum, fun hhost => absurd hhost hproducer, hx.rewriting⟩, hle⟩

theorem completed_serves {x : Ring} {d : RingDesc} (hd : x.desc = some d) (hheld : x.held.isSome = true) : x.Serves (x.completed d) := by
  refine ⟨rfl, rfl, fun e he hx => ?_⟩
  obtain rfl := Option.some.inj (hd.symm.trans he)
  have hfilled := filled_completed hheld hx.put hx.take hx.sum
  refine ⟨⟨Nat.mod_lt _ (Nat.zero_lt_of_lt hx.put), hx.take, hfilled ▸ hx.sum, fun hhost => ?_, fun _ hp => by cases hp⟩, hfilled.le⟩
  have := hx.host hhost
  simp [Ring.claimed, hheld] at this

theorem asked_serves (x : Ring) (lost : Bool) : x.Serves (x.asked lost) := by
  unfold Ring.asked
  split
  · exact .refl x
  · refine ⟨rfl, rfl, fun d _ hx => ⟨⟨hx.put, hx.take, hx.sum, hx.host, fun p hp hr => ?_⟩, Nat.le_refl _⟩⟩
    obtain rfl := Option.some.inj hp
    cases hr

theorem beginEnd_serves (x : Ring) : x.Serves x.beginEnd := by
  unfold Ring.beginEnd
  split
  · split
    next h hheld =>
      have hfilled : ∀ d (p : PageEnd) (k : Held), ({ x with held := some k, pageEnd := some p } : Ring).filled d = x.filled d := fun d p k => by
        rw [filled_eq, filled_eq, hheld]
        rfl
      refine ⟨rfl, rfl, fun d _ hx => ⟨⟨hx.put, hx.take, (hfilled d _ _).symm ▸ hx.sum, fun hhost => ?_, fun _ _ _ => rfl⟩,
        (hfilled d _ _).le⟩⟩
      have := hx.host hhost
      simp [Ring.claimed, hheld] at this
    · exact ⟨rfl, rfl, fun d _ hx => ⟨⟨hx.put, hx.take, hx.sum, hx.host, fun _ hp => by cases hp⟩, Nat.le_refl _⟩⟩
  · exact .refl x

/-- R7, R13: a take that goes on by at most the occupancy frees slots. -/
theorem take_serves {x : Ring} {take : Nat} (h : ∀ d, x.desc = some d → x.CountedIn d →
      take < 2 * d.slots ∧ (take + 2 * d.slots - x.take) % (2 * d.slots) ≤ x.occupancy d) :
    x.Serves { x with take := take } := by
  refine ⟨rfl, rfl, fun d hd hx => ?_⟩
  obtain ⟨hlt, hle⟩ := h d hd hx
  have hocc : ({ x with take := take } : Ring).occupancy d ≤ x.occupancy d := occupancy_advance hx.put hx.take hlt hle
  have hfilled : ({ x with take := take } : Ring).filled d ≤ x.filled d := Nat.add_le_add_right hocc _
  exact ⟨⟨hx.put, hlt, hfilled.trans hx.sum, hx.host, hx.rewriting⟩, hfilled⟩

theorem released_serves (x : Ring) (n : Nat) : x.Serves (x.released n) := by
  unfold Ring.released
  split
  · exact .refl x
  next d hd =>
    split
    · exact .refl x
    next hn =>
      refine take_serves fun e he hx => ?_
      obtain rfl := Option.some.inj (hd.symm.trans he)
      have hlt : (x.take + n) % (2 * d.slots) < 2 * d.slots := Nat.mod_lt _ (Nat.zero_lt_of_lt hx.take)
      refine ⟨hlt, ?_⟩
      have hsum := hx.sum
      have htake := hx.take
      have hocc : n ≤ x.occupancy d ∧ x.occupancy d ≤ d.slots := by
        unfold Ring.filled at hsum
        omega
      rw [ahead_eq hlt hx.take]
      have hadv : (x.take + n) % (2 * d.slots) = if x.take + n < 2 * d.slots then x.take + n else x.take + n - 2 * d.slots := by
        split_ifs with hend
        · exact Nat.mod_eq_of_lt hend
        · rw [Nat.mod_eq_sub_mod (by omega), Nat.mod_eq_of_lt (by omega)]
      rw [hadv]
      split_ifs <;> omega

theorem consumer_serves (x : Ring) (on : Bool) : x.Serves { x with consAttached := on } :=
  ⟨rfl, rfl, fun _ _ hx => ⟨⟨hx.put, hx.take, hx.sum, hx.host, hx.rewriting⟩, Nat.le_refl _⟩⟩

/-- R23: abandoned claims are claims still. -/
theorem abandoned_serves (x : Ring) : x.Serves { x with writing := x.writing.map fun c => { c with abandoned := true } } := by
  have hclaimed : ({ x with writing := x.writing.map fun c => { c with abandoned := true } } : Ring).claimed = x.claimed := by
    simp [Ring.claimed]
  refine ⟨rfl, rfl, fun d _ hx => ⟨⟨hx.put, hx.take, ?_, fun hhost => hclaimed.trans (hx.host hhost), hx.rewriting⟩, ?_⟩⟩
  · show x.occupancy d + _ ≤ _
    rw [hclaimed]
    exact hx.sum
  · show x.occupancy d + _ ≤ _
    rw [hclaimed]
    exact Nat.le_refl _

theorem claim_counted {x : Ring} {d : RingDesc} (hd : x.desc = some d) (hproducer : d.producer ≠ .host) (hx : x.counted = true)
    (hroom : x.hasRoom) (tag : Tag) (buf : Option BufId) : (x.claim d tag buf).counted = true := by
  obtain ⟨e, he, hlt⟩ := hroom
  obtain rfl := Option.some.inj (hd.symm.trans he)
  rw [counted_iff] at hx ⊢
  intro e he
  obtain rfl := Option.some.inj (hd.symm.trans he)
  obtain ⟨hput, htake, hsum, hhost, hrewriting⟩ := hx d hd
  exact ⟨hput, htake, (filled_claim x d tag buf).symm ▸ hlt, fun h => absurd h hproducer, hrewriting⟩

end Sys2Proof.Machine
end

