-- ==== Sys2Proof/Proofs/RingFrames.lean ====
section
/-! Operations that leave the rings alone. -/

namespace Sys2Proof.Machine

open Sys2Proof

section
variable (s : State)

@[simp] theorem State.offer_rings (bs : List Burst) : (s.offer bs).rings = s.rings := rfl
@[simp] theorem State.issueRead_rings (cls : MemClass) (req : Req) (address len : Nat) :
    (s.issueRead cls req address len).rings = s.rings := rfl
@[simp] theorem State.issueWrite_rings (cls : MemClass) (req : Req) (address : Nat) (data : List Half) :
    (s.issueWrite cls req address data).rings = s.rings := rfl
@[simp] theorem State.writeWord_rings (cls : MemClass) (offset value : Nat) :
    (s.writeWord cls offset value).rings = s.rings := rfl
@[simp] theorem State.takeOne_rings (q : Req) : (s.takeOne q).rings = s.rings := rfl
@[simp] theorem State.takeAll_rings (q : Req) : (s.takeAll q).rings = s.rings := rfl
@[simp] theorem State.writeCell_rings (mark : CellMark) (bytes : List Byte) :
    (s.writeCell mark bytes).rings = s.rings := rfl
@[simp] theorem State.writeSummary_rings : s.writeSummary.rings = s.rings := rfl
@[simp] theorem State.recordLost_rings (k : Kind) : (s.recordLost k).rings = s.rings := by
  unfold State.recordLost; dsimp only
  repeat' split
  all_goals rfl

@[simp] theorem State.writeSnapshot_rings : s.writeSnapshot.rings = s.rings := rfl
@[simp] theorem State.ringFault_rings (r : RingId) (index : Nat) (written held : Nat) :
    (s.ringFault r index written held).rings = s.rings := by simp [State.ringFault]
@[simp] theorem State.startMove_rings (c : Chan) (requester : Owner) (dir : Direction) (profile : Fin 8) (steps : Option Nat) (tag : Byte) : (s.startMove c requester dir profile steps tag).rings = s.rings := by simp [State.startMove]
@[simp] theorem State.stopMove_rings (c : Chan) (cause : StopCause) :
    (s.stopMove c cause).rings = s.rings := by simp [State.stopMove]
@[simp] theorem State.stopBoth_rings (cause : StopCause) : (s.stopBoth cause).rings = s.rings := rfl
@[simp] theorem State.reportHostEnd_rings (ch : Chan) (c : Channel) (cause : EndCause) :
    (s.reportHostEnd ch c cause).rings = s.rings := by simp [State.reportHostEnd]
@[simp] theorem State.handPageScanned_rings (mark : CellMark) :
    (s.handPageScanned mark).rings = s.rings := by simp [State.handPageScanned]
@[simp] theorem State.scanOff_rings : s.scanOff.rings = s.rings := rfl
@[simp] theorem State.scanCheckMargin_rings : s.scanCheckMargin.rings = s.rings := by
  unfold State.scanCheckMargin; dsimp only
  repeat' split
  all_goals rfl

@[simp] theorem State.scanRestart_rings : s.scanRestart.rings = s.rings := by
  unfold State.scanRestart; dsimp only
  repeat' split
  all_goals rfl

@[simp] theorem State.linkStream_rings : s.linkStream.rings = s.rings := by simp [State.linkStream]
@[simp] theorem State.linkDropReads_rings : s.linkDropReads.rings = s.rings := rfl
@[simp] theorem State.pagePrinted_rings (endMark : Bool) :
    (s.pagePrinted endMark).rings = s.rings := by simp [State.pagePrinted]
@[simp] theorem State.printStream_rings : s.printStream.rings = s.rings := by simp [State.printStream]
@[simp] theorem State.finalStream_rings (r : PrintReason) :
    (s.finalStream r).rings = s.rings := by simp [State.finalStream]
@[simp] theorem State.setUrgent_rings (on : Bool) : (s.setUrgent on).rings = s.rings := rfl
@[simp] theorem State.enterPrint_rings (st : PrintState) : (s.enterPrint st).rings = s.rings := by
  unfold State.enterPrint
  split <;> rfl

@[simp] theorem State.printWake_rings : s.printWake.rings = s.rings := by
  unfold State.printWake
  split <;> rfl

@[simp] theorem State.printGoOn_rings (resumed : Bool) : (s.printGoOn resumed).rings = s.rings := by
  unfold State.printGoOn; dsimp only
  repeat' split
  all_goals rfl

@[simp] theorem State.paperMove_rings (steps : Nat) : (s.paperMove steps).rings = s.rings := rfl
@[simp] theorem State.stopPrint_rings : s.stopPrint.rings = s.rings := by
  unfold State.stopPrint; dsimp only
  repeat' split
  all_goals rfl

@[simp] theorem State.printCut_rings (reason : PrintReason) : (s.printCut reason).rings = s.rings := by
  unfold State.printCut; dsimp only
  repeat' split
  all_goals rfl

@[simp] theorem State.fetchWordsOf_rings (d : RingDesc) (slot : Nat) (tag : Tag) :
    (s.fetchWordsOf d slot tag).rings = s.rings := rfl
@[simp] theorem State.requestAdvance_rings (h : HeadLine) : (s.requestAdvance h).rings = s.rings := rfl
@[simp] theorem State.latch_rings : s.latch.rings = s.rings := by
  unfold State.latch; dsimp only
  repeat' split
  all_goals rfl

@[simp] theorem State.sweepStart_rings : s.sweepStart.rings = s.rings := by
  unfold State.sweepStart; dsimp only
  repeat' split
  all_goals simp

@[simp] theorem State.placeHold_rings : s.placeHold.rings = s.rings := rfl
@[simp] theorem State.liftHold_rings : s.liftHold.rings = s.rings := rfl
@[simp] theorem State.abandonSweep_rings : s.abandonSweep.rings = s.rings := rfl
@[simp] theorem State.startPeriod_rings : s.startPeriod.rings = s.rings := rfl
@[simp] theorem State.grantPoint_rings : s.grantPoint.rings = s.rings := rfl
@[simp] theorem State.memoryStart_rings : s.memoryStart.rings = s.rings := by
  unfold State.memoryStart
  split <;> rfl

@[simp] theorem State.memoryEntry_rings : s.memoryEntry.rings = s.rings := by
  unfold State.memoryEntry
  split <;> rfl

@[simp] theorem State.memoryWithdraw_rings : s.memoryWithdraw.rings = s.rings := by
  unfold State.memoryWithdraw
  split <;> rfl

@[simp] theorem State.memoryExit_rings : s.memoryExit.rings = s.rings := by
  unfold State.memoryExit
  split <;> rfl

@[simp] theorem State.snoop_rings (b : Burst) : (s.snoop b).rings = s.rings := by
  unfold State.snoop; dsimp only
  repeat' split
  all_goals rfl

@[simp] theorem State.commandRead_rings : s.commandRead.rings = s.rings := by
  unfold State.commandRead; dsimp only
  repeat' split
  all_goals rfl

@[simp] theorem State.clockCell_rings (tag : Byte) (r : Result) (origin : Origin) (code : ClockCode) (target : Option Source) : (s.clockCell tag r origin code target).rings = s.rings := by simp [State.clockCell]
@[simp] theorem State.enterWaitQuiet_rings : s.enterWaitQuiet.rings = s.rings := rfl
@[simp] theorem State.crystalStart_rings : s.crystalStart.rings = s.rings := rfl
@[simp] theorem State.pllStart_rings : s.pllStart.rings = s.rings := rfl
@[simp] theorem State.crystalReady_rings (target : Source) : (s.crystalReady target).rings = s.rings := by
  unfold State.crystalReady
  split <;> rfl

@[simp] theorem State.wakeCell_rings (cause : WakeCause) (fromState : PowerState) (abandoned : Bool) :
    (s.wakeCell cause fromState abandoned).rings = s.rings := by simp [State.wakeCell]
@[simp] theorem State.releaseMotors_rings : s.releaseMotors.rings = s.rings := rfl
@[simp] theorem State.undoRelease_rings : s.undoRelease.rings = s.rings := rfl
@[simp] theorem State.donePower_rings (tag : Byte) (r : Result) (mark : CellMark) :
    (s.donePower tag r mark).rings = s.rings := by simp [State.donePower]
@[simp] theorem State.senseCell_rings (position : Nat) (e : SenseEntry) (before after : Zone) (reading : Nat) :
    (s.senseCell position e before after reading).rings = s.rings := by simp [State.senseCell]
@[simp] theorem State.dropFastRc_rings : s.dropFastRc.rings = s.rings := rfl
@[simp] theorem State.lineCell_rings (k : Kind) (fields : List Byte) : (s.lineCell k fields).rings = s.rings := by
  unfold State.lineCell
  split <;> simp

@[simp] theorem State.cellFault_rings (ring index written held : Nat) :
    (s.cellFault ring index written held).rings = s.rings := by simp [State.cellFault]
@[simp] theorem State.standbyWritten_rings : s.standbyWritten.rings = s.rings := by
  unfold State.standbyWritten; dsimp only
  repeat' split
  all_goals rfl

@[simp] theorem State.finishStopAll_rings (x : StopAll) :
    (s.finishStopAll x).rings = s.rings := by simp [State.finishStopAll]
@[simp] theorem State.calFinish_rings : s.calFinish.rings = s.rings := by simp [State.calFinish]
@[simp] theorem State.scanFreed_rings (r : RingId) : (s.scanFreed r).rings = s.rings := by
  unfold State.scanFreed
  split <;> simp

@[simp] theorem State.startCapture_rings : s.startCapture.rings = s.rings := by simp [State.startCapture]
@[simp] theorem State.enterPause_rings (r : PrintReason) :
    (s.enterPause r).rings = s.rings := by simp [State.enterPause]
@[simp] theorem State.enterHot_rings : s.enterHot.rings = s.rings := by simp [State.enterHot]
@[simp] theorem State.decideWindow_rings (d : RingDesc) (slot : Nat) (tags : List Tag) :
    (s.decideWindow d slot tags).rings = s.rings := by
  unfold State.decideWindow; dsimp only
  repeat' split
  all_goals simp

@[simp] theorem State.closeUnterminated_rings (pageStart : Bool) :
    (s.closeUnterminated pageStart).rings = s.rings := by
  unfold State.closeUnterminated
  split <;> simp

@[simp] theorem State.printHeadCool_rings : s.printHeadCool.rings = s.rings := by
  unfold State.printHeadCool; dsimp only
  repeat' split
  all_goals simp

@[simp] theorem State.sweepEnded_rings : s.sweepEnded.rings = s.rings := by
  unfold State.sweepEnded; dsimp only
  repeat' split
  all_goals simp

@[simp] theorem State.reportSwitch_rings (w : Switch) (r : Result) (code : ClockCode) :
    (s.reportSwitch w r code).rings = s.rings := by
  unfold State.reportSwitch; dsimp only
  repeat' split
  all_goals simp

@[simp] theorem State.beginSwitch_rings (target : Source) (origin : Origin) (tag : Byte) :
    (s.beginSwitch target origin tag).rings = s.rings := by
  unfold State.beginSwitch; dsimp only
  repeat' split
  all_goals simp

@[simp] theorem State.finishAbandon_rings : s.finishAbandon.rings = s.rings := by
  unfold State.finishAbandon
  split <;> simp

@[simp] theorem State.leaveOnFastRc_rings : s.leaveOnFastRc.rings = s.rings := by simp [State.leaveOnFastRc]
@[simp] theorem State.beginEntry_rings (tag : Byte) (wakeTimer : Nat) :
    (s.beginEntry tag wakeTimer).rings = s.rings := by simp [State.beginEntry]
@[simp] theorem State.calCut_rings (reason : ScanReason) : (s.calCut reason).rings = s.rings := by
  unfold State.calCut; dsimp only
  repeat' split
  all_goals simp

@[simp] theorem State.docEdgeHigh_rings : s.docEdgeHigh.rings = s.rings := by
  unfold State.docEdgeHigh
  split <;> simp

@[simp] theorem State.printPaperLow_rings : s.printPaperLow.rings = s.rings := by
  unfold State.printPaperLow; dsimp only
  repeat' split
  all_goals simp

@[simp] theorem State.printHeadHot_rings : s.printHeadHot.rings = s.rings := by
  unfold State.printHeadHot; dsimp only
  repeat' split
  all_goals simp

@[simp] theorem State.printCoverHigh_rings : s.printCoverHigh.rings = s.rings := by
  unfold State.printCoverHigh; dsimp only
  repeat' split
  all_goals simp

@[simp] theorem State.pausePrint_rings : s.pausePrint.rings = s.rings := by
  unfold State.pausePrint; dsimp only
  repeat' split
  all_goals simp

@[simp] theorem State.normalSweepEnd_rings : s.normalSweepEnd.rings = s.rings := by simp [State.normalSweepEnd]
@[simp] theorem State.switchFail_rings (code : ClockCode) :
    (s.switchFail code).rings = s.rings := by simp [State.switchFail]
@[simp] theorem State.beginLeaving_rings : s.beginLeaving.rings = s.rings := by
  unfold State.beginLeaving; dsimp only
  repeat' split
  all_goals simp

@[simp] theorem State.finishLeaving_rings : s.finishLeaving.rings = s.rings := by
  unfold State.finishLeaving; dsimp only
  repeat' split
  all_goals simp

@[simp] theorem State.standbySweepEnd_rings : s.standbySweepEnd.rings = s.rings := by simp [State.standbySweepEnd]
@[simp] theorem State.standbySweepStart_rings : s.standbySweepStart.rings = s.rings := by
  unfold State.standbySweepStart; dsimp only
  repeat' split
  all_goals simp


@[simp] theorem State.readSource_rings (source length n : Nat) : (s.readSource source length n).rings = s.rings :=
  congrArg Streams.rings (State.readSource_streams s source length n)

end

end Sys2Proof.Machine
end

