-- ==== Sys2Proof/Proofs/RingSides.lean ====
section
/-! What every operation keeps of the rings: counted slots, and each stream's own side of the ring it fills (R4, R14, R19, R27). -/

namespace Sys2Proof.Machine

open Sys2Proof

/-! ### The rings and those who fill them -/

/-- The rings, and the streams that fill them. -/
structure Sides where
  rings : Rings
  scan : Scan
  link : Link

def Streams.sides (x : Streams) : Sides := ⟨x.rings, x.scan, x.link⟩

/-- R4, R14, R19, R27: every ring is counted, whoever fills one is attached to it, and a READING link finds a free slot. -/
structure Sides.Bounded (x : Sides) : Prop where
  counted : ∀ r, (x.rings.get r).counted = true
  page : x.scan.inPage → (x.rings.get x.scan.params.ring).filledBy .scan = true
  fill : x.link.st ≠ .off → (x.rings.get x.link.destRing).filledBy .link = true
  room : x.link.st = .reading → (x.rings.get x.link.destRing).hasRoom

theorem ringFree_pos_iff {s : State} {r : RingId} (h : (s.ring r).filledBy .link = true) : 1 ≤ s.ringFree r ↔ (s.ring r).hasRoom := by
  obtain ⟨-, d, hd, hproducer⟩ := (filledBy_iff _ _).mp h
  rw [State.ringFree_eq hd]
  exact ⟨hasRoom_of_free hd (by rw [hproducer]; decide), free_of_hasRoom hd⟩

theorem rings_counted_iff (q : Rings) : (∀ r, (q.get r).counted = true) ↔
    q.r0.counted = true ∧ q.r1.counted = true ∧ q.r2.counted = true ∧ q.r3.counted = true := by
  refine ⟨fun h => ⟨h 0, h 1, h 2, h 3⟩, fun ⟨h0, h1, h2, h3⟩ r => ?_⟩
  match r with
  | 0 => exact h0
  | 1 => exact h1
  | 2 => exact h2
  | 3 => exact h3

/-- R14: an active page stream is attached to the ring it fills. -/
def State.pageFilled (s : State) : Bool :=
  match s.scan.st with
  | .off | .cal => true
  | .waitEdge | .capture | .stalled | .trailing | .ending => (s.ring s.scan.params.ring).filledBy .scan

theorem pageFilled_iff (s : State) : s.pageFilled = true ↔ (s.scan.inPage → (s.ring s.scan.params.ring).filledBy .scan = true) := by
  unfold State.pageFilled Scan.inPage
  cases s.scan.st <;> simp

theorem ringsBounded_eq (s : State) : s.ringsBounded = (s.rings.r0.counted && s.rings.r1.counted && s.rings.r2.counted
    && s.rings.r3.counted && s.pageFilled && (s.link.st == .off || (s.ring s.link.destRing).filledBy .link)
    && (s.link.st != .reading || decide (1 ≤ s.ringFree s.link.destRing))) := rfl

theorem ringsBounded_iff (s : State) : s.ringsBounded = true ↔ s.streams.sides.Bounded := by
  have hlink : ((s.link.st == .off || (s.ring s.link.destRing).filledBy .link) = true
      ∧ (s.link.st != .reading || decide (1 ≤ s.ringFree s.link.destRing)) = true) ↔
      (s.link.st ≠ .off → (s.ring s.link.destRing).filledBy .link = true)
      ∧ (s.link.st = .reading → (s.ring s.link.destRing).hasRoom) := by
    by_cases hoff : s.link.st = .off
    · simp [hoff]
    · have hbeq : (s.link.st == .off) = false := beq_eq_false_iff_ne.mpr hoff
      simp only [hbeq, Bool.false_or, ne_eq, hoff, not_false_eq_true, true_implies]
      refine and_congr_right fun hfilled => ?_
      rw [Bool.or_eq_true, bne_iff_ne, decide_eq_true_iff, ringFree_pos_iff hfilled, ne_eq, ← imp_iff_not_or]
  have hfields : s.streams.sides.Bounded ↔ (∀ r, (s.rings.get r).counted = true)
      ∧ (s.scan.inPage → (s.ring s.scan.params.ring).filledBy .scan = true)
      ∧ (s.link.st ≠ .off → (s.ring s.link.destRing).filledBy .link = true)
      ∧ (s.link.st = .reading → (s.ring s.link.destRing).hasRoom) :=
    ⟨fun ⟨a, b, c, d⟩ => ⟨a, b, c, d⟩, fun ⟨a, b, c, d⟩ => ⟨a, b, c, d⟩⟩
  rw [hfields, rings_counted_iff, ← hlink, ← pageFilled_iff, ringsBounded_eq]
  simp only [Bool.and_eq_true, and_assoc]

section
variable {s t : State}

/-- One ring's operation. -/
theorem Sides.Bounded.serve (h : s.streams.sides.Bounded) {r : RingId} {y : Ring} (hy : (s.ring r).Serves y)
    (hrings : t.rings = s.rings.set r y) (hscan : t.scan = s.scan) (hlink : t.link = s.link) : t.streams.sides.Bounded := by
  obtain ⟨hcounted, hpage, hfill, hroom⟩ := h
  have hget : ∀ q, (s.rings.get q).Serves (t.rings.get q) := fun q => by
    rw [hrings, Rings.get_set_eq]
    split_ifs with hq
    · rw [hq]
      exact hy
    · exact .refl _
  refine ⟨fun q => counted_of_serves (hget q) (hcounted q), fun hp => ?_, fun hon => ?_, fun hread => ?_⟩
  · show (t.rings.get t.scan.params.ring).filledBy .scan = true
    rw [hscan]
    exact filledBy_of_serves (hget _) (hpage ((congrArg Scan.inPage hscan).mp hp))
  · show (t.rings.get t.link.destRing).filledBy .link = true
    rw [hlink]
    exact filledBy_of_serves (hget _) (hfill fun hoff => hon ((congrArg Link.st hlink).trans hoff))
  · show (t.rings.get t.link.destRing).hasRoom
    rw [hlink]
    exact hasRoom_of_serves (hget _) (hcounted _) (hroom ((congrArg Link.st hlink).symm.trans hread))

/-- The scan stream goes on. -/
theorem Sides.Bounded.follow (h : s.streams.sides.Bounded) (hscan : s.scan.Follows t.scan) (hrings : t.rings = s.rings)
    (hlink : t.link = s.link) : t.streams.sides.Bounded := by
  obtain ⟨hcounted, hpage, hfill, hroom⟩ := h
  refine ⟨fun q => ?_, fun hp => ?_, fun hon => ?_, fun hread => ?_⟩
  · show (t.rings.get q).counted = true
    rw [hrings]
    exact hcounted q
  · show (t.rings.get t.scan.params.ring).filledBy .scan = true
    rw [hrings, hscan.params]
    exact hpage (hscan.inPage hp)
  · show (t.rings.get t.link.destRing).filledBy .link = true
    rw [hrings, hlink]
    exact hfill (fun hoff => hon ((congrArg Link.st hlink).trans hoff))
  · show (t.rings.get t.link.destRing).hasRoom
    rw [hrings, hlink]
    exact hroom ((congrArg Link.st hlink).symm.trans hread)

/-- The link goes on, with the same destination. -/
theorem Sides.Bounded.link (h : s.streams.sides.Bounded) (hrings : t.rings = s.rings) (hscan : t.scan = s.scan)
    (hdest : t.link.destination = s.link.destination) (hon : t.link.st ≠ .off → s.link.st ≠ .off)
    (hread : t.link.st = .reading → (s.ring s.link.destRing).hasRoom) : t.streams.sides.Bounded := by
  obtain ⟨hcounted, hpage, hfill, -⟩ := h
  have hring : t.link.destRing = s.link.destRing := congrArg (Option.getD · 0) hdest
  refine ⟨fun q => ?_, fun hp => ?_, fun ht => ?_, fun ht => ?_⟩
  · show (t.rings.get q).counted = true
    rw [hrings]
    exact hcounted q
  · show (t.rings.get t.scan.params.ring).filledBy .scan = true
    rw [hrings, hscan]
    exact hpage ((congrArg Scan.inPage hscan).mp hp)
  · show (t.rings.get t.link.destRing).filledBy .link = true
    rw [hrings, hring]
    exact hfill (hon ht)
  · show (t.rings.get t.link.destRing).hasRoom
    rw [hrings, hring]
    exact hread ht

/-- Two sides that fill one ring are one side. -/
theorem side_of_filledBy {x : Ring} {a b : Side} (ha : x.filledBy a = true) (hb : x.filledBy b = true) : a = b := by
  obtain ⟨-, d, hd, rfl⟩ := (filledBy_iff _ _).mp ha
  obtain ⟨-, e, he, rfl⟩ := (filledBy_iff _ _).mp hb
  exact congrArg RingDesc.producer (Option.some.inj (hd.symm.trans he))

/-- The ring a page fills is not the link's. -/
theorem Sides.Bounded.apart (h : s.streams.sides.Bounded) (hp : s.scan.inPage) (hon : s.link.st ≠ .off) :
    s.link.destRing ≠ s.scan.params.ring := fun heq => by
  have hlink := h.fill hon
  have hscan := h.page hp
  rw [show s.streams.sides.link.destRing = s.streams.sides.scan.params.ring from heq] at hlink
  exact absurd (side_of_filledBy hlink hscan) (by decide)

theorem Sides.Bounded.producer_scan (h : s.streams.sides.Bounded) (hp : s.scan.inPage) {d : RingDesc}
    (hd : (s.ring s.scan.params.ring).desc = some d) : d.producer = .scan := by
  obtain ⟨-, e, he, hproducer⟩ := (filledBy_iff _ _).mp (h.page hp)
  exact Option.some.inj (hd.symm.trans he) ▸ hproducer

theorem Sides.Bounded.producer_link (h : s.streams.sides.Bounded) (hon : s.link.st ≠ .off) {d : RingDesc}
    (hd : (s.ring s.link.destRing).desc = some d) : d.producer = .link := by
  obtain ⟨-, e, he, hproducer⟩ := (filledBy_iff _ _).mp (h.fill hon)
  exact Option.some.inj (hd.symm.trans he) ▸ hproducer

end

/-! ### Operations that leave the rings, the scan path and the link alone -/

section
variable (s : State)

@[simp] theorem State.setPrint_sides (x : Print) : (s.setPrint x).streams.sides = s.streams.sides := rfl
@[simp] theorem State.setDoc_sides (x : Channel) : (s.setDoc x).streams.sides = s.streams.sides := rfl
@[simp] theorem State.setPaper_sides (x : Channel) : (s.setPaper x).streams.sides = s.streams.sides := rfl
@[simp] theorem State.setChan_sides (c : Chan) (x : Channel) : (s.setChan c x).streams.sides = s.streams.sides := by
  unfold State.setChan
  split <;> rfl

@[simp] theorem State.writeCell_sides (mark : CellMark) (bytes : List Byte) :
    (s.writeCell mark bytes).streams.sides = s.streams.sides := rfl
@[simp] theorem State.recordLost_sides (k : Kind) : (s.recordLost k).streams.sides = s.streams.sides := by
  unfold State.recordLost; dsimp only
  repeat' split
  all_goals rfl

@[simp] theorem State.stopBoth_sides (cause : StopCause) : (s.stopBoth cause).streams.sides = s.streams.sides := rfl
@[simp] theorem State.reportHostEnd_sides (ch : Chan) (c : Channel) (cause : EndCause) :
    (s.reportHostEnd ch c cause).streams.sides = s.streams.sides := by simp [State.reportHostEnd]
@[simp] theorem State.handPageScanned_sides (mark : CellMark) :
    (s.handPageScanned mark).streams.sides = s.streams.sides := by simp [State.handPageScanned]
@[simp] theorem State.linkStream_sides : s.linkStream.streams.sides = s.streams.sides := by simp [State.linkStream]
@[simp] theorem State.linkDropReads_sides : s.linkDropReads.streams.sides = s.streams.sides := rfl
@[simp] theorem State.printStream_sides : s.printStream.streams.sides = s.streams.sides := by simp [State.printStream]
@[simp] theorem State.finalStream_sides (r : PrintReason) :
    (s.finalStream r).streams.sides = s.streams.sides := by simp [State.finalStream]
@[simp] theorem State.enterPrint_sides (st : PrintState) : (s.enterPrint st).streams.sides = s.streams.sides := by
  unfold State.enterPrint
  split <;> rfl

@[simp] theorem State.printWake_sides : s.printWake.streams.sides = s.streams.sides := by
  unfold State.printWake
  split <;> rfl

@[simp] theorem State.printGoOn_sides (resumed : Bool) : (s.printGoOn resumed).streams.sides = s.streams.sides := by
  unfold State.printGoOn; dsimp only
  repeat' split
  all_goals rfl

@[simp] theorem State.paperMove_sides (steps : Nat) : (s.paperMove steps).streams.sides = s.streams.sides := rfl
@[simp] theorem State.stopPrint_sides : s.stopPrint.streams.sides = s.streams.sides := by
  unfold State.stopPrint; dsimp only
  repeat' split
  all_goals rfl

@[simp] theorem State.printCut_sides (reason : PrintReason) :
    (s.printCut reason).streams.sides = s.streams.sides := by
  unfold State.printCut; dsimp only
  repeat' split
  all_goals rfl

@[simp] theorem State.fetchWordsOf_sides (d : RingDesc) (slot : Nat) (tag : Tag) :
    (s.fetchWordsOf d slot tag).streams.sides = s.streams.sides := rfl
@[simp] theorem State.requestAdvance_sides (h : HeadLine) :
    (s.requestAdvance h).streams.sides = s.streams.sides := rfl
@[simp] theorem State.latch_sides : s.latch.streams.sides = s.streams.sides := by
  unfold State.latch; dsimp only
  repeat' split
  all_goals rfl

@[simp] theorem State.wakeCell_sides (cause : WakeCause) (fromState : PowerState) (abandoned : Bool) :
    (s.wakeCell cause fromState abandoned).streams.sides = s.streams.sides := by simp [State.wakeCell]
@[simp] theorem State.releaseMotors_sides : s.releaseMotors.streams.sides = s.streams.sides := rfl
@[simp] theorem State.undoRelease_sides : s.undoRelease.streams.sides = s.streams.sides := rfl
@[simp] theorem State.donePower_sides (tag : Byte) (r : Result) (mark : CellMark) :
    (s.donePower tag r mark).streams.sides = s.streams.sides := by simp [State.donePower]
@[simp] theorem State.senseCell_sides (position : Nat) (e : SenseEntry) (before after : Zone) (reading : Nat) :
    (s.senseCell position e before after reading).streams.sides = s.streams.sides := by simp [State.senseCell]
@[simp] theorem State.startMove_sides (c : Chan) (requester : Owner) (dir : Direction) (profile : Fin 8) (steps : Option Nat) (tag : Byte) : (s.startMove c requester dir profile steps tag).streams.sides = s.streams.sides := by simp [State.startMove]
@[simp] theorem State.stopMove_sides (c : Chan) (cause : StopCause) :
    (s.stopMove c cause).streams.sides = s.streams.sides := by simp [State.stopMove]
@[simp] theorem State.pagePrinted_sides (endMark : Bool) :
    (s.pagePrinted endMark).streams.sides = s.streams.sides := by simp [State.pagePrinted]
@[simp] theorem State.enterPause_sides (r : PrintReason) :
    (s.enterPause r).streams.sides = s.streams.sides := by simp [State.enterPause]
@[simp] theorem State.enterHot_sides : s.enterHot.streams.sides = s.streams.sides := by simp [State.enterHot]
@[simp] theorem State.decideWindow_sides (d : RingDesc) (slot : Nat) (tags : List Tag) :
    (s.decideWindow d slot tags).streams.sides = s.streams.sides := by
  unfold State.decideWindow; dsimp only
  repeat' split
  all_goals simp

@[simp] theorem State.printHeadCool_sides : s.printHeadCool.streams.sides = s.streams.sides := by
  unfold State.printHeadCool; dsimp only
  repeat' split
  all_goals simp

@[simp] theorem State.finishAbandon_sides : s.finishAbandon.streams.sides = s.streams.sides := by
  unfold State.finishAbandon
  split <;> simp

@[simp] theorem State.finishLeaving_sides : s.finishLeaving.streams.sides = s.streams.sides := by
  unfold State.finishLeaving; dsimp only
  repeat' split
  all_goals simp

@[simp] theorem State.beginEntry_sides (tag : Byte) (wakeTimer : Nat) :
    (s.beginEntry tag wakeTimer).streams.sides = s.streams.sides := by simp [State.beginEntry]
@[simp] theorem State.closeUnterminated_sides (pageStart : Bool) :
    (s.closeUnterminated pageStart).streams.sides = s.streams.sides := by
  unfold State.closeUnterminated
  split <;> simp

@[simp] theorem State.printPaperLow_sides : s.printPaperLow.streams.sides = s.streams.sides := by
  unfold State.printPaperLow; dsimp only
  repeat' split
  all_goals simp

@[simp] theorem State.printHeadHot_sides : s.printHeadHot.streams.sides = s.streams.sides := by
  unfold State.printHeadHot; dsimp only
  repeat' split
  all_goals simp

@[simp] theorem State.printCoverHigh_sides : s.printCoverHigh.streams.sides = s.streams.sides := by
  unfold State.printCoverHigh; dsimp only
  repeat' split
  all_goals simp

@[simp] theorem State.pausePrint_sides : s.pausePrint.streams.sides = s.streams.sides := by
  unfold State.pausePrint; dsimp only
  repeat' split
  all_goals simp


@[simp] theorem State.abandonEntry_sides : s.abandonEntry.streams.sides = s.streams.sides := by
  unfold State.abandonEntry
  repeat' split
  all_goals simp

@[simp] theorem State.wake_sides (cause : WakeCause) : (s.wake cause).streams.sides = s.streams.sides := by
  unfold State.wake
  repeat' split
  all_goals simp

@[simp] theorem State.sweepFrom_sides (standbySweep : Bool) (p : Nat) : (s.sweepFrom standbySweep p).streams.sides = s.streams.sides := by
  unfold State.sweepFrom
  repeat' split
  all_goals simp

@[simp] theorem State.burstQualifies_sides : s.burstQualifies.streams.sides = s.streams.sides := by
  simp [State.burstQualifies]

@[simp] theorem State.debouncedChange_sides (input : InputLine) (high : Bool) : (s.debouncedChange input high).streams.sides = s.streams.sides := by
  unfold State.debouncedChange; dsimp only
  repeat' split
  all_goals simp

end

/-! ### Ring operations -/

section
variable {s : State}

@[simp] theorem State.askPageEnd_served (h : s.streams.sides.Bounded) (r : RingId) (lost : Bool) :
    (s.askPageEnd r lost).streams.sides.Bounded :=
  h.serve (asked_serves (s.ring r) lost) (askPageEnd_rings s r lost) (State.askPageEnd_scan s r lost) (State.askPageEnd_link s r lost)

@[simp] theorem State.beginPageEnd_served (h : s.streams.sides.Bounded) (r : RingId) (d : RingDesc) :
    (s.beginPageEnd r d).streams.sides.Bounded :=
  h.serve (beginEnd_serves (s.ring r)) (beginPageEnd_rings s r d) (State.beginPageEnd_scan s r d) (State.beginPageEnd_link s r d)

@[simp] theorem State.releaseTake_served (h : s.streams.sides.Bounded) (r : RingId) (n : Nat) :
    (s.releaseTake r n).streams.sides.Bounded :=
  h.serve (released_serves (s.ring r) n) (releaseTake_rings s r n) (State.releaseTake_scan s r n) (State.releaseTake_link s r n)

@[simp] theorem State.attachConsumer_served (h : s.streams.sides.Bounded) (r : RingId) (on : Bool) :
    (s.attachConsumer r on).streams.sides.Bounded :=
  h.serve (consumer_serves (s.ring r) on) rfl rfl rfl

@[simp] theorem State.abandonClaims_served (h : s.streams.sides.Bounded) (r : RingId) : (s.abandonClaims r).streams.sides.Bounded :=
  h.serve (abandoned_serves (s.ring r)) rfl rfl rfl

theorem State.acknowledgeSlot_served (h : s.streams.sides.Bounded) {r : RingId} {d : RingDesc} {c : Claim} {rest : List Claim}
    (hd : (s.ring r).desc = some d) (hw : (s.ring r).writing = c :: rest) : (s.acknowledgeSlot r d c rest).streams.sides.Bounded :=
  h.serve (acknowledged_serves hd hw) (acknowledgeSlot_rings s r d c rest) (State.acknowledgeSlot_scan ..) (State.acknowledgeSlot_link ..)

theorem State.finishPageEnd_served (h : s.streams.sides.Bounded) {r : RingId} {d : RingDesc} {p : PageEnd}
    (hd : (s.ring r).desc = some d) (hp : (s.ring r).pageEnd = some p) (hr : p.rewriting = true) :
    (s.finishPageEnd r d).streams.sides.Bounded := by
  have hcounted := (counted_iff _).mp (h.counted r) d hd
  exact h.serve (completed_serves hd (hcounted.rewriting p hp hr)) (finishPageEnd_rings s r d) rfl rfl

/-- R9: a claim by the producer of a ring with room, where no reading link counts on that room. -/
theorem State.claimSlot_served (h : s.streams.sides.Bounded) {r : RingId} {d : RingDesc} (hd : (s.ring r).desc = some d)
    (hproducer : d.producer ≠ .host) (hroom : (s.ring r).hasRoom) (hread : s.link.st = .reading → s.link.destRing ≠ r)
    (tag : Tag) (words : List Word) (buf : Option BufId) : (s.claimSlot r d tag words buf).streams.sides.Bounded := by
  have hget : ∀ q, (s.claimSlot r d tag words buf).rings.get q = if q = r then (s.ring r).claim d tag buf else s.rings.get q :=
    fun q => by rw [claimSlot_rings, Rings.get_set_eq]
  have hfilled : ∀ q side, (s.rings.get q).filledBy side = true →
      ((s.claimSlot r d tag words buf).rings.get q).filledBy side = true := fun q side hq => by
    rw [hget]
    split_ifs with hqr
    · rw [hqr] at hq
      exact hq
    · exact hq
  refine ⟨fun q => ?_, fun hp => hfilled _ _ (h.page hp), fun hon => hfilled _ _ (h.fill hon), fun hreading => ?_⟩
  · show ((s.claimSlot r d tag words buf).rings.get q).counted = true
    rw [hget]
    split_ifs
    · exact claim_counted hd hproducer (h.counted r) hroom tag buf
    · exact h.counted q
  · show ((s.claimSlot r d tag words buf).rings.get s.link.destRing).hasRoom
    rw [hget, if_neg (hread hreading)]
    exact h.room hreading

/-! ### The scan path -/

theorem State.setScan_served (h : s.streams.sides.Bounded) {y : Scan} (hy : s.scan.Follows y) : (s.setScan y).streams.sides.Bounded :=
  h.follow hy rfl rfl

@[simp] theorem State.scanOff_served (h : s.streams.sides.Bounded) : s.scanOff.streams.sides.Bounded :=
  h.follow (State.scanOff_follows (.refl _)) rfl rfl

/-- R44: a stream that detaches leaves the ring of the link alone. -/
theorem detach_served (h : s.streams.sides.Bounded) (hp : s.scan.inPage) :
    (s.attachProducer s.scan.params.ring false).scanOff.streams.sides.Bounded := by
  have hget : ∀ q, q ≠ s.scan.params.ring → (s.attachProducer s.scan.params.ring false).scanOff.rings.get q = s.rings.get q :=
    fun q hq => Rings.get_set_other _ _ hq
  refine ⟨fun q => ?_, fun hq => absurd rfl hq.1, fun hon => ?_, fun hread => ?_⟩
  · by_cases hq : q = s.scan.params.ring
    · rw [hq]
      show (((s.rings.set s.scan.params.ring { s.ring s.scan.params.ring with prodAttached := false }).get _)).counted = true
      rw [Rings.get_set]
      exact (counted_iff _).mpr fun d hd =>
        let ⟨a, b, c, e, f⟩ := (counted_iff _).mp (h.counted s.scan.params.ring) d hd
        ⟨a, b, c, e, f⟩
    · exact (congrArg Ring.counted (hget q hq)).trans (h.counted q)
  · exact (congrArg (Ring.filledBy · .link) (hget _ (h.apart hp hon))).trans (h.fill hon)
  · have hon : s.link.st ≠ .off := fun hoff => LinkState.noConfusion (hoff.symm.trans hread)
    exact (congrArg Ring.hasRoom (hget _ (h.apart hp hon))).mpr (h.room hread)

@[simp] theorem State.scanTryOff_served (h : s.streams.sides.Bounded) : s.scanTryOff.streams.sides.Bounded := by
  unfold State.scanTryOff
  split
  next hending => exact detach_served h (Scan.inPage_at hending.1 (by decide))
  · exact h

@[simp] theorem State.scanPageEndComplete_served (h : s.streams.sides.Bounded) : s.scanPageEndComplete.streams.sides.Bounded := by
  unfold State.scanPageEndComplete; dsimp only
  refine State.scanTryOff_served (State.setScan_served (s := s.handPageScanned .pageScanned) (by simpa using h) ?_)
  exact endCell_follows _ _

theorem State.scanPageEnd_served (h : s.streams.sides.Bounded) (hp : s.scan.inPage) (reason : ScanReason) :
    (s.scanPageEnd reason).streams.sides.Bounded := by
  have hending : s.scan.Follows { s.scan with st := .ending, endReason := some reason, endCell := .notYet } :=
    Scan.Follows.step hp (.inl (Scan.inPage_at (p := .ending) rfl (by decide))) (.inl rfl) (by simp)
  have hset := (congrArg Sides.Bounded (State.stopMove_sides _ .doc .request)).mpr (State.setScan_served h hending)
  unfold State.scanPageEnd; dsimp only
  split
  · exact hset
  · have hasked := fun r lost d => State.beginPageEnd_served (State.askPageEnd_served hset r lost) r d
    split
    · exact State.scanPageEndComplete_served (hasked _ _ _)
    · exact hasked _ _ _

@[simp] theorem State.calFinish_served (h : s.streams.sides.Bounded) : s.calFinish.streams.sides.Bounded :=
  State.scanOff_served (by simpa using h)

@[simp] theorem State.scanCut_served (h : s.streams.sides.Bounded) (reason : ScanReason) :
    (s.scanCut reason).streams.sides.Bounded := by
  unfold State.scanCut
  split
  case h_5 hst => exact h.follow (State.calCut_follows (.refl _) hst reason) (by simp) (by simp)
  case h_6 | h_7 => exact h
  all_goals
    next hst =>
      have hp : s.scan.inPage := Scan.inPage_at hst (by decide)
      refine State.scanPageEnd_served (State.setScan_served h (abandonReadout_follows hp)) ?_ reason
      exact Scan.inPage_of_st (congrArg Page.st (abandonReadout_page s.scan)) hp

@[simp] theorem State.scanCheckMargin_served (h : s.streams.sides.Bounded) : s.scanCheckMargin.streams.sides.Bounded :=
  h.follow (State.scanCheckMargin_follows (.refl _)) (by simp) (by simp)

@[simp] theorem State.scanRestart_served (h : s.streams.sides.Bounded) : s.scanRestart.streams.sides.Bounded :=
  h.follow (State.scanRestart_follows (.refl _)) (by simp) (by simp)

@[simp] theorem State.scanFreed_served (h : s.streams.sides.Bounded) (r : RingId) : (s.scanFreed r).streams.sides.Bounded :=
  h.follow (State.scanFreed_follows (.refl _) r) (by simp) (by simp)

@[simp] theorem State.releaseSlots_served (h : s.streams.sides.Bounded) (r : RingId) (n : Nat) :
    (s.releaseSlots r n).streams.sides.Bounded :=
  State.scanFreed_served (State.releaseTake_served h r n) r

theorem State.scanCloseIfIdle_served (h : s.streams.sides.Bounded) (hp : s.scan.inPage) :
    s.scanCloseIfIdle.streams.sides.Bounded := by
  unfold State.scanCloseIfIdle
  split
  · exact State.scanPageEnd_served h hp _
  · exact h

theorem State.scanTriggerPosition_served (h : s.streams.sides.Bounded) (hp : s.scan.inPage) :
    s.scanTriggerPosition.streams.sides.Bounded := by
  unfold State.scanTriggerPosition; dsimp only
  split
  · exact State.setScan_served h (Scan.Follows.step hp (.inl hp) (.inl rfl) (by simp))
  · split
    · exact h
    next hopen =>
      refine State.scanCloseIfIdle_served (State.setScan_served h (trigger_follows hp hopen)) ?_
      obtain ⟨trailing, closing, reason, heq, -⟩ := applyClosing_eq s.scan.trigger
      refine Scan.inPage_of_st ?_ hp
      show s.scan.trigger.applyClosing.st = s.scan.st
      rw [heq]
      exact congrArg Page.st (trigger_page s.scan)

@[simp] theorem State.scanDocStep_served (h : s.streams.sides.Bounded) : s.scanDocStep.streams.sides.Bounded := by
  unfold State.scanDocStep; dsimp only
  split
  case h_1 | h_2 | h_3 => exact h
  case h_4 hst =>
    have hp : s.scan.inPage := Scan.inPage_at hst (by decide)
    have hfed := State.setScan_served h (y := { s.scan with feedCount := satAdd 65535 s.scan.feedCount 1 })
      (Scan.Follows.step hp (.inl hp) (.inl rfl) (by simp))
    split
    · exact State.scanPageEnd_served hfed hp _
    · exact hfed
  all_goals
    next hst =>
      have hp : s.scan.inPage := Scan.inPage_at hst (by decide)
      have hcounted : ∀ n, (s.setScan { s.scan with stepCounter := n }).streams.sides.Bounded := fun n =>
        State.setScan_served h (Scan.Follows.step hp (.inl hp) (.inl rfl) (by simp))
      split
      · exact State.scanTriggerPosition_served (hcounted 0) hp
      · exact hcounted _

@[simp] theorem State.docEdgeHigh_served (h : s.streams.sides.Bounded) : s.docEdgeHigh.streams.sides.Bounded :=
  h.follow (State.docEdgeHigh_follows (.refl _)) (by simp) (by simp)

theorem State.closeAtEdge_served (h : s.streams.sides.Bounded) (hp : s.scan.inPage) : s.closeAtEdge.streams.sides.Bounded := by
  unfold State.closeAtEdge; dsimp only
  split
  · exact State.scanCloseIfIdle_served (State.setScan_served h (Scan.Follows.step hp (.inl hp) (.inl rfl) (by simp))) hp
  · exact h

@[simp] theorem State.docEdgeLow_served (h : s.streams.sides.Bounded) : s.docEdgeLow.streams.sides.Bounded := by
  unfold State.docEdgeLow; dsimp only
  split
  case h_1 hst =>
    have hp : s.scan.inPage := Scan.inPage_at hst (by decide)
    split
    · exact State.scanPageEnd_served h hp _
    · have hq : ({ s.scan with st := .trailing } : Scan).inPage := Scan.inPage_at (p := .trailing) rfl (by decide)
      exact State.closeAtEdge_served (State.setScan_served h (Scan.Follows.step hp (.inl hq) (.inl rfl) (by simp))) hq
  case h_2 hst =>
    have hp : s.scan.inPage := Scan.inPage_at hst (by decide)
    split
    · exact State.closeAtEdge_served (State.setScan_served h (Scan.Follows.step hp (.inl hp) (.inr (.inr rfl)) (by simp))) hp
    · exact h
  all_goals exact h

/-- R31: a line's slot is claimed where one is free. -/
theorem State.scanClaim_served (h : s.streams.sides.Bounded) (hp : s.scan.inPage) {i : BufId} (hi : s.scan.readoutBuf = some i)
    (words : List Word) (black : Nat) : (s.scanClaim i words black).streams.sides.Bounded := by
  have hlost := State.setScan_served h (noSlot_follows hp hi)
  have hwritten := State.setScan_served h (written_follows hp hi words black)
  unfold State.scanClaim; dsimp only
  split
  · exact hlost
  next d hd =>
    split
    next hfree =>
      have hproducer : d.producer ≠ .host := by
        rw [h.producer_scan hp hd]
        decide
      refine State.scanCheckMargin_served (State.claimSlot_served hwritten hd hproducer (hasRoom_of_free hd hproducer hfree) ?_ _ _ _)
      exact fun hread => h.apart hp fun hoff => LinkState.noConfusion (hoff.symm.trans hread)
    · exact hlost

@[simp] theorem State.pageScannedWritten_served (h : s.streams.sides.Bounded) : s.pageScannedWritten.streams.sides.Bounded := by
  unfold State.pageScannedWritten
  split
  · exact State.scanTryOff_served (State.setScan_served h (endCell_follows _ _))
  · exact h

/-! ### The link -/

/-- R23: a link that detaches leaves the ring of the page alone. -/
theorem linkDetach_served (h : s.streams.sides.Bounded) (hon : s.link.st ≠ .off) {t : State}
    (hrings : t.rings = (s.attachProducer s.link.destRing false).rings) (hscan : t.scan = s.scan) (hoff : t.link.st = .off) :
    t.streams.sides.Bounded := by
  have hget : ∀ q, q ≠ s.link.destRing → t.rings.get q = s.rings.get q := fun q hq => by
    rw [hrings]
    exact Rings.get_set_other _ _ hq
  refine ⟨fun q => ?_, fun hp => ?_, fun ht => absurd hoff ht, fun ht => LinkState.noConfusion (hoff.symm.trans ht)⟩
  · by_cases hq : q = s.link.destRing
    · rw [hq]
      show (t.rings.get s.link.destRing).counted = true
      rw [hrings]
      show ((s.rings.set s.link.destRing { s.ring s.link.destRing with prodAttached := false }).get _).counted = true
      rw [Rings.get_set]
      exact (counted_iff _).mpr fun d hd =>
        let ⟨a, b, c, e, f⟩ := (counted_iff _).mp (h.counted s.link.destRing) d hd
        ⟨a, b, c, e, f⟩
    · exact (congrArg Ring.counted (hget q hq)).trans (h.counted q)
  · have hp : s.scan.inPage := hscan ▸ hp
    show (t.rings.get t.scan.params.ring).filledBy .scan = true
    rw [hscan, hget _ (h.apart hp hon).symm]
    exact h.page hp

@[simp] theorem State.linkTryOff_served (h : s.streams.sides.Bounded) : s.linkTryOff.streams.sides.Bounded := by
  unfold State.linkTryOff; dsimp only
  split
  next hending =>
    refine linkDetach_served h (by rw [hending.1]; decide) ?_ ?_ rfl
    · split <;> simp
    · split <;> simp
  · exact h

theorem State.linkDetachSource_served (h : s.streams.sides.Bounded) : s.linkDetachSource.streams.sides.Bounded := by
  unfold State.linkDetachSource; dsimp only
  have hdetached : (s.linkDropReads.attachConsumer s.linkDropReads.link.sourceRing false).streams.sides.Bounded :=
    State.attachConsumer_served (by simpa using h) _ _
  exact hdetached.link rfl rfl rfl id hdetached.room

@[simp] theorem State.linkReadsAbandoned_served (h : s.streams.sides.Bounded) : s.linkReadsAbandoned.streams.sides.Bounded := by
  unfold State.linkReadsAbandoned
  split
  · exact State.linkTryOff_served (State.linkDetachSource_served h)
  · exact h

theorem State.linkEnd_served (h : s.streams.sides.Bounded) (hon : s.link.st ≠ .off) (abort : Bool) :
    (s.linkEnd abort).streams.sides.Bounded := by
  have hdetached : ∀ u : State, u.streams.sides.Bounded →
      (if s.link.readsOut ∧ ¬u.linkReadsDone then u else u.linkDetachSource).streams.sides.Bounded := fun u hu => by
    split
    · exact hu
    · exact State.linkDetachSource_served hu
  have hending : ∀ y : Link, y.st = .ending → y.destination = s.link.destination → (s.setLink y).streams.sides.Bounded :=
    fun y hst hdest => h.link rfl rfl hdest (fun _ => hon) fun hr => LinkState.noConfusion (hst.symm.trans hr)
  have hend := hdetached _ (State.abandonClaims_served (hending { s.link with
    st := .ending, hold := [], heldCount := 0, heldLost := 0, mergedWriting := 0, emitPending := false
    dropped := satAdd 65535 s.link.dropped s.link.dropping, abortCell := abort } rfl rfl) s.link.destRing)
  unfold State.linkEnd; dsimp only
  split
  · exact hend
  · exact State.linkTryOff_served (State.beginPageEnd_served (State.askPageEnd_served hend _ _) _ _)

@[simp] theorem State.linkStopAll_served (h : s.streams.sides.Bounded) : s.linkStopAll.streams.sides.Bounded := by
  unfold State.linkStopAll
  split
  · exact h
  next hst => exact h.link rfl rfl rfl id fun hr => LinkState.noConfusion (hst.symm.trans hr)
  all_goals
    next hst => exact State.linkEnd_served h (by rw [hst]; decide) true

/-- R21: a reading link finds the slot it took the line for. -/
theorem State.linkEmit_served (h : s.streams.sides.Bounded) (hst : s.link.st = .reading) : s.linkEmit.streams.sides.Bounded := by
  have hon : s.link.st ≠ .off := by rw [hst]; decide
  unfold State.linkEmit; dsimp only
  split
  · exact h
  next d hd =>
    have hproducer : d.producer ≠ .host := by
      rw [h.producer_link hon hd]
      decide
    have hclaim : ∀ (y : Link) (tag : Tag) (words : List Word), y.st = .writing → y.destination = s.link.destination →
        ((s.setLink y).claimSlot s.link.destRing d tag words none).streams.sides.Bounded := fun y tag words hy hdest => by
      have hread : (s.setLink y).link.st ≠ .reading := fun hr => LinkState.noConfusion (hy.symm.trans hr)
      have hset : (s.setLink y).streams.sides.Bounded := h.link rfl rfl hdest (fun _ => hon) fun hr => absurd hr hread
      exact State.claimSlot_served (s := s.setLink y) hset hd hproducer (h.room hst) (fun hr => absurd hr hread) tag words none
    exact hclaim _ _ _ rfl rfl

theorem State.linkEmitOrWait_served (h : s.streams.sides.Bounded) (hst : s.link.st = .reading) :
    s.linkEmitOrWait.streams.sides.Bounded := by
  unfold State.linkEmitOrWait
  split
  · exact h.link rfl rfl rfl id h.room
  · exact State.linkEmit_served h hst

@[simp] theorem State.linkSlotAcknowledged_served (h : s.streams.sides.Bounded) : s.linkSlotAcknowledged.streams.sides.Bounded := by
  unfold State.linkSlotAcknowledged; dsimp only
  split
  next hst =>
    have hon : s.link.st ≠ .off := by rw [hst]; decide
    split
    · have hcleared := Sides.Bounded.link (t := s.setLink { s.link with
          hold := [], mergedWriting := 0, emitEnd := false, acc := 0, outLine := 0, startPending := false, sourceLostTail := false })
        h rfl rfl rfl id h.room
      split <;> simp -implicitDefEqProofs [hcleared]
    · exact h.link rfl rfl rfl (fun _ => hon) fun hr => LinkState.noConfusion hr
  · exact h

@[simp] theorem State.linkPageEndComplete_served (h : s.streams.sides.Bounded) : s.linkPageEndComplete.streams.sides.Bounded := by
  unfold State.linkPageEndComplete
  split
  · exact State.linkTryOff_served h
  next hst => exact h.link rfl rfl rfl (fun _ => by rw [hst]; decide) fun hr => LinkState.noConfusion hr
  next hst =>
    split
    · exact State.linkEmit_served h hst
    · exact h
  all_goals exact h

theorem State.linkUnendedPage_served (h : s.streams.sides.Bounded) (t : Tag) : (s.linkUnendedPage t).streams.sides.Bounded := by
  unfold State.linkUnendedPage; dsimp only
  split
  · have hdropped := Sides.Bounded.link (t := s.setLink { s.link with
        dropped := satAdd 65535 s.link.dropped s.link.heldCount, heldCount := 0, hold := [], heldLost := 0 })
      h rfl rfl rfl id h.room
    split <;> simp -implicitDefEqProofs [hdropped]
  · exact h

/-! ### Those who are told -/

@[simp] theorem State.pageEndComplete_served (h : s.streams.sides.Bounded) (d : RingDesc) :
    (s.pageEndComplete d).streams.sides.Bounded := by
  unfold State.pageEndComplete
  split <;> simp -implicitDefEqProofs [h]

@[simp] theorem State.slotAcknowledged_served (h : s.streams.sides.Bounded) (d : RingDesc) (c : Claim) :
    (s.slotAcknowledged d c).streams.sides.Bounded := by
  unfold State.slotAcknowledged
  split
  · split
    next hwriting => exact State.setScan_served h (freed_follows hwriting)
    · exact h
  all_goals simp -implicitDefEqProofs [h]

@[simp] theorem State.waitingPageEnd_served (h : s.streams.sides.Bounded) (r : RingId) (d : RingDesc) :
    (s.waitingPageEnd r d).streams.sides.Bounded := by
  unfold State.waitingPageEnd; dsimp only
  repeat' split
  all_goals simp -implicitDefEqProofs [h]

theorem takePending_served (h : s.streams.sides.Bounded) {goOn : State → State}
    (hgo : ∀ u : State, u.streams.sides.Bounded → (goOn u).streams.sides.Bounded) : (s.takePending goOn).streams.sides.Bounded := by
  unfold State.takePending; dsimp only
  split
  · simp -implicitDefEqProofs [h]
  · split
    · simp -implicitDefEqProofs [h]
    · split
      · simp -implicitDefEqProofs [h]
      · exact hgo _ (by simp -implicitDefEqProofs [h])

@[simp] theorem State.feedEnd_served (h : s.streams.sides.Bounded) : s.feedEnd.streams.sides.Bounded := by
  unfold State.feedEnd; dsimp only
  split
  · simp -implicitDefEqProofs [h]
  · exact takePending_served (by simp -implicitDefEqProofs [h]) fun u hu => by simp -implicitDefEqProofs [hu]

@[simp] theorem State.pageEnds_served (h : s.streams.sides.Bounded) : s.pageEnds.streams.sides.Bounded := by
  unfold State.pageEnds; dsimp only
  repeat' split
  all_goals simp -implicitDefEqProofs [h]

@[simp] theorem State.itemFollow_served (h : s.streams.sides.Bounded) (resumed : Bool) : (s.itemFollow resumed).streams.sides.Bounded := by
  unfold State.itemFollow
  split
  · exact h
  · exact takePending_served h fun u hu => by simp -implicitDefEqProofs [hu]

@[simp] theorem State.lineDone_served (hs : s.streams.sides.Bounded) (h : HeadLine) (resumed : Bool) :
    (s.lineDone h resumed).streams.sides.Bounded := by
  unfold State.lineDone; dsimp only
  split <;> simp -implicitDefEqProofs [hs]

@[simp] theorem State.slewEnd_served (h : s.streams.sides.Bounded) (w : Slew) (n : Nat) (resumed : Bool) :
    (s.slewEnd w n resumed).streams.sides.Bounded := by
  unfold State.slewEnd; dsimp only
  split <;> simp -implicitDefEqProofs [h]

@[simp] theorem State.completeItem_served (h : s.streams.sides.Bounded) (item : Item) (resumed : Bool) :
    (s.completeItem item resumed).streams.sides.Bounded := by
  unfold State.completeItem; dsimp only
  split <;> simp -implicitDefEqProofs [h]

@[simp] theorem State.beginOwed_served (h : s.streams.sides.Bounded) (item : Item) : (s.beginOwed item).streams.sides.Bounded := by
  unfold State.beginOwed; dsimp only
  split <;> simp -implicitDefEqProofs [h]

@[simp] theorem State.endItem_served (h : s.streams.sides.Bounded) (item : Item) (notTaken : Nat) :
    (s.endItem item notTaken).streams.sides.Bounded := by
  unfold State.endItem; dsimp only
  split <;> simp -implicitDefEqProofs [h]

@[simp] theorem State.endingMoveEnd_served (h : s.streams.sides.Bounded) (item : Item) (notTaken : Nat) :
    (s.endingMoveEnd item notTaken).streams.sides.Bounded := by
  unfold State.endingMoveEnd; dsimp only
  repeat' split
  all_goals simp -implicitDefEqProofs [h]

@[simp] theorem State.printMoveEnd_served (h : s.streams.sides.Bounded) : s.printMoveEnd.streams.sides.Bounded := by
  unfold State.printMoveEnd; dsimp only
  repeat' split
  all_goals simp -implicitDefEqProofs [h]

@[simp] theorem State.afterPhase_served (hs : s.streams.sides.Bounded) (h : HeadLine) : (s.afterPhase h).streams.sides.Bounded := by
  unfold State.afterPhase; dsimp only
  repeat' split
  all_goals simp -implicitDefEqProofs [hs]

@[simp] theorem State.resumePrint_served (h : s.streams.sides.Bounded) : s.resumePrint.streams.sides.Bounded := by
  unfold State.resumePrint; dsimp only
  repeat' split
  all_goals simp -implicitDefEqProofs [h]

@[simp] theorem State.scanMoveEnd_served (h : s.streams.sides.Bounded) : s.scanMoveEnd.streams.sides.Bounded := by
  simp -implicitDefEqProofs [State.scanMoveEnd, h]

@[simp] theorem State.reportEnd_served (h : s.streams.sides.Bounded) (ch : Chan) (cause : EndCause) :
    (s.reportEnd ch cause).streams.sides.Bounded := by
  unfold State.reportEnd
  split <;> simp -implicitDefEqProofs [h]

@[simp] theorem State.reportStep_served (h : s.streams.sides.Bounded) (ch : Chan) : (s.reportStep ch).streams.sides.Bounded := by
  unfold State.reportStep; split <;> simp -implicitDefEqProofs [h]

theorem State.emergencyReport_served (h : s.streams.sides.Bounded) (doc paper : Bool) (cause : EndCause) :
    (s.emergencyReport doc paper cause).streams.sides.Bounded := by
  unfold State.emergencyReport
  cases doc <;> cases paper <;> simp -implicitDefEqProofs [h]

@[simp] theorem State.emergencyStop_served (h : s.streams.sides.Bounded) (a : ScanReason) (b : PrintReason) (cause : EndCause) :
    (s.emergencyStop a b cause).streams.sides.Bounded :=
  State.emergencyReport_served (by simp -implicitDefEqProofs [State.emergencyHold, h]) ..

@[simp] theorem State.clockFailure_served (h : s.streams.sides.Bounded) : s.clockFailure.streams.sides.Bounded := by
  unfold State.clockFailure; dsimp only
  split <;> simp -implicitDefEqProofs [h]

@[simp] theorem State.zoneToBlocks_served (h : s.streams.sides.Bounded) (role : Role) (zone : Zone) :
    (s.zoneToBlocks role zone).streams.sides.Bounded := by
  unfold State.zoneToBlocks
  split <;> simp -implicitDefEqProofs [h]

@[simp] theorem State.zoneChange_served (h : s.streams.sides.Bounded) (standbySweep : Bool) (position : Nat) (e : SenseEntry)
    (before after : Zone) (reading : Nat) : (s.zoneChange standbySweep position e before after reading).streams.sides.Bounded := by
  have hblocks : ∀ u : State, u.streams.sides.Bounded → ∀ c, (if e.wake then (u.zoneToBlocks e.role after).wake c
      else u.zoneToBlocks e.role after).streams.sides.Bounded := fun u hu c => by
    split <;> simp -implicitDefEqProofs [hu]
  unfold State.zoneChange; dsimp only
  split
  · split <;> simp -implicitDefEqProofs [h]
  · refine hblocks _ ?_ _
    split
    · simpa using h
    · exact h

@[simp] theorem State.convertEntry_served (h : s.streams.sides.Bounded) (standbySweep : Bool) (position raw : Nat) :
    (s.convertEntry standbySweep position raw).streams.sides.Bounded := by
  unfold State.convertEntry; dsimp only
  repeat' split
  all_goals simp -implicitDefEqProofs [h]


end

end Sys2Proof.Machine
end

