-- ==== Sys2Proof/Proofs/RingCounts.lean ====
section
/-! The line rings over every row (R4). -/

namespace Sys2Proof.Machine

open Sys2Proof

/-! ### Commands that attach a side or define a ring -/

section
variable {s : State}

theorem attachProducerCheck_none {r : RingId} {side : Side} (h : s.attachProducerCheck r side = none) :
    ∃ d, (s.ring r).desc = some d ∧ d.producer = side := by
  unfold State.attachProducerCheck at h
  split at h
  · cases h
  next d hd =>
    split_ifs at h with hside
    exact ⟨d, hd, not_not.mp hside⟩

/-- R14: a side that attaches to the ring it fills changes no other side. -/
theorem State.attachProducer_served (h : s.streams.sides.Bounded) (r : RingId) : (s.attachProducer r true).streams.sides.Bounded ∧
    ∀ q side, (s.ring q).filledBy side = true → ((s.attachProducer r true).ring q).filledBy side = true := by
  have hcounted : ∀ q, ((s.attachProducer r true).ring q).counted = (s.ring q).counted := fun q => by
    rw [attachProducer_ring]
    split_ifs with hq
    · rw [hq]
      rfl
    · rfl
  have hfilled : ∀ q side, (s.ring q).filledBy side = true → ((s.attachProducer r true).ring q).filledBy side = true :=
    fun q side hq => by
      rw [attachProducer_ring]
      split_ifs with hqr
      · rw [hqr] at hq
        exact (filledBy_iff _ _).mpr ⟨rfl, ((filledBy_iff _ _).mp hq).2⟩
      · exact hq
  have hroom : ∀ q, (s.ring q).hasRoom → ((s.attachProducer r true).ring q).hasRoom := fun q hq => by
    rw [attachProducer_ring]
    split_ifs with hqr
    · rw [hqr] at hq
      exact hq
    · exact hq
  exact ⟨⟨fun q => (hcounted q).trans (h.counted q), fun hp => hfilled _ _ (h.page hp), fun hon => hfilled _ _ (h.fill hon),
    fun hread => hroom _ (h.room hread)⟩, hfilled⟩

theorem attachProducer_filledBy {r : RingId} {side : Side} (h : ∃ d, (s.ring r).desc = some d ∧ d.producer = side) :
    ((s.attachProducer r true).ring r).filledBy side = true := by
  rw [attachProducer_ring, if_pos rfl]
  exact (filledBy_iff _ _).mpr ⟨rfl, h⟩

/-- R16: SET RING defines a ring that no one fills. -/
theorem State.installRing_served (h : s.streams.sides.Bounded) {r : RingId} (hfree : (s.ring r).attached = false) (d : RingDesc)
    (hslots : 2 ≤ d.slots) : (s.installRing r d).streams.sides.Bounded := by
  have hget : ∀ q, (s.installRing r d).rings.get q = if q = r then { desc := some d } else s.rings.get q := fun q =>
    Rings.get_set_eq ..
  have hother : ∀ q side, (s.ring q).filledBy side = true → q ≠ r := fun q side hq heq => by
    rw [heq, filledBy_iff] at hq
    unfold Ring.attached at hfree
    rw [hq.1] at hfree
    cases hfree
  have hkeep : ∀ q side, (s.ring q).filledBy side = true → (s.installRing r d).rings.get q = s.rings.get q := fun q side hq => by
    rw [hget, if_neg (hother q side hq)]
  refine ⟨fun q => ?_, fun hp => ?_, fun hon => ?_, fun hread => ?_⟩
  · show ((s.installRing r d).rings.get q).counted = true
    rw [hget]
    split_ifs
    · refine (counted_iff _).mpr fun e he => ?_
      obtain rfl := Option.some.inj he
      have hocc : ({ desc := some d } : Ring).filled d = 0 := by
        show (0 + 2 * d.slots - 0) % (2 * d.slots) + 0 = 0
        simp
      exact ⟨by show 0 < 2 * d.slots; omega, by show 0 < 2 * d.slots; omega, by omega, fun _ => rfl, fun _ hp => by cases hp⟩
    · exact h.counted q
  · exact (congrArg (Ring.filledBy · .scan) (hkeep _ _ (h.page hp))).trans (h.page hp)
  · exact (congrArg (Ring.filledBy · .link) (hkeep _ _ (h.fill hon))).trans (h.fill hon)
  · have hon : s.link.st ≠ .off := fun hoff => LinkState.noConfusion (hoff.symm.trans hread)
    exact (congrArg Ring.hasRoom (hkeep _ _ (h.fill hon))).mpr (h.room hread)

theorem checkSetRing_good {ring producer consumer : Byte} {slots words : Half} {base : Word} {r : RingId} {d : RingDesc}
    (h : s.checkSetRing ring producer consumer slots words base = .ok (r, d)) : (s.ring r).attached = false ∧ 2 ≤ d.slots := by
  unfold State.checkSetRing at h
  dsimp only at h
  repeat' split at h
  all_goals try (cases h; done)
  obtain ⟨rfl, rfl⟩ := Prod.mk.inj (Except.ok.inj h)
  exact ⟨Bool.eq_false_iff.mpr ‹¬_ = true›, (not_not.mp ‹¬¬(2 ≤ slots.toNat ∧ _)›).1⟩

/-- A link that starts, or none: the scan path and the rings as they are. -/
theorem checkLinkRings_producer {source destination : Byte} {a b : RingId} (h : s.checkLinkRings source destination = .ok (a, b)) :
    s.link.st = .off ∧ ∃ d, (s.ring b).desc = some d ∧ d.producer = .link := by
  unfold State.checkLinkRings at h
  repeat' split at h
  all_goals try (cases h; done)
  obtain ⟨rfl, rfl⟩ := Prod.mk.inj (Except.ok.inj h)
  exact ⟨not_not.mp ‹¬s.link.st ≠ .off›, attachProducerCheck_none ‹_›⟩

theorem checkStartScan_ring {ring : Byte} {mode start k profile : BitVec 4} {theta skip trailing : Byte}
    {width pageLimit feedLimit : Half} {stopMargin restartMargin : Byte} {p : ScanParams} {edge : Bool}
    (h : s.checkStartScan ring mode start k profile theta skip trailing width pageLimit feedLimit stopMargin restartMargin
      = .ok (p, edge)) : ∃ d, (s.ring p.ring).desc = some d ∧ d.producer = .scan := by
  unfold State.checkStartScan at h
  dsimp only at h
  repeat' split at h
  all_goals try (cases h; done)
  obtain ⟨rfl, rfl⟩ := Prod.mk.inj (Except.ok.inj h)
  exact attachProducerCheck_none ‹_›

theorem State.startCapture_served (h : s.streams.sides.Bounded) (hp : s.scan.inPage) : s.startCapture.streams.sides.Bounded :=
  h.follow (State.startCapture_follows (.refl _) hp) (by simp) (by simp)

theorem State.beginScan_served (h : s.streams.sides.Bounded) {p : ScanParams}
    (hring : ∃ d, (s.ring p.ring).desc = some d ∧ d.producer = .scan) (edge : Bool) : (s.beginScan p edge).streams.sides.Bounded := by
  obtain ⟨hattached, -⟩ := State.attachProducer_served h p.ring
  have hset : ((s.setScan (scanStarted p edge)).attachProducer p.ring true).streams.sides.Bounded :=
    ⟨hattached.counted, fun _ => attachProducer_filledBy (s := s) hring, hattached.fill, hattached.room⟩
  have hp : (scanStarted p edge).inPage := by
    cases edge
    · exact Scan.inPage_at (p := .capture) rfl (by decide)
    · exact Scan.inPage_at (p := .waitEdge) rfl (by decide)
  have hcapture : ∀ u : State, u.streams.sides = ((s.setScan (scanStarted p edge)).attachProducer p.ring true).streams.sides →
      u.startCapture.streams.sides.Bounded := fun u hu => by
    refine State.startCapture_served ((congrArg Sides.Bounded hu).mpr hset) ?_
    exact (congrArg Scan.inPage (congrArg Sides.scan hu)).mpr hp
  unfold State.beginScan; dsimp only
  repeat' split
  · exact hcapture _ (by simp)
  · simpa using hset
  · exact hcapture _ (by simp)

/-- R49: a calibration fills no ring. -/
theorem Sides.Bounded.calibration {t : State} (h : s.streams.sides.Bounded) (hrings : t.rings = s.rings) (hlink : t.link = s.link)
    (hst : t.scan.st = .cal) : t.streams.sides.Bounded := by
  obtain ⟨hcounted, -, hfill, hroom⟩ := h
  have hq : ∀ q, t.rings.get q = s.rings.get q := fun q => congrArg (Rings.get · q) hrings
  refine ⟨fun q => (congrArg Ring.counted (hq q)).trans (hcounted q), fun hp => absurd hst hp.2, fun hon => ?_, fun hread => ?_⟩
  · show (t.rings.get t.link.destRing).filledBy .link = true
    rw [hlink, hq]
    exact hfill fun hoff => hon ((congrArg Link.st hlink).trans hoff)
  · show (t.rings.get t.link.destRing).hasRoom
    rw [hlink, hq]
    exact hroom ((congrArg Link.st hlink).symm.trans hread)

/-- R6: a put that the host may write, on a ring it fills. -/
theorem putWrite_served (h : s.streams.sides.Bounded) {r : RingId} {d : RingDesc} (hd : (s.ring r).desc = some d)
    (hhost : d.producer = .host) {value : Nat} (hvalue : ¬putRefused (s.ring r) d value = true) :
    (s.setRing r { s.ring r with put := value }).streams.sides.Bounded := by
  rw [putRefused_iff, not_not] at hvalue
  obtain ⟨hlt, hfits⟩ := hvalue
  have hget : ∀ q, (s.setRing r { s.ring r with put := value }).rings.get q
      = if q = r then { s.ring r with put := value } else s.rings.get q := fun q => Rings.get_set_eq ..
  have hother : ∀ q side, side ≠ .host → (s.ring q).filledBy side = true → q ≠ r := fun q side hside hq heq => by
    obtain ⟨-, e, he, hproducer⟩ := (filledBy_iff _ _).mp hq
    rw [heq] at he
    obtain rfl := Option.some.inj (hd.symm.trans he)
    exact hside (hproducer.symm.trans hhost)
  refine ⟨fun q => ?_, fun hp => ?_, fun hon => ?_, fun hread => ?_⟩
  · show ((s.setRing r { s.ring r with put := value }).rings.get q).counted = true
    rw [hget]
    split_ifs
    · refine (counted_iff _).mpr fun e he => ?_
      obtain rfl := Option.some.inj (hd.symm.trans he)
      obtain ⟨hput, htake, hsum, hclaimed, hrewriting⟩ := (counted_iff _).mp (h.counted r) d hd
      refine ⟨hlt, htake, ?_, hclaimed, hrewriting⟩
      have hnone := hclaimed hhost
      have hocc : ({ s.ring r with put := value } : Ring).occupancy d
          = (s.ring r).occupancy d + (value + 2 * d.slots - (s.ring r).put) % (2 * d.slots) :=
        occupancy_write hput htake hlt (by
          have : (s.ring r).occupancy d + (value + 2 * d.slots - (s.ring r).put) % (2 * d.slots) < 2 * d.slots := by
            have hput : (s.ring r).put < 2 * d.slots := hput
            omega
          exact this)
      show ({ s.ring r with put := value } : Ring).occupancy d + (s.ring r).claimed ≤ d.slots
      have hnone : (s.ring r).claimed = 0 := hnone
      omega
    · exact h.counted q
  · exact (congrArg (Ring.filledBy · .scan) ((hget _).trans (if_neg (hother _ .scan (by decide) (h.page hp))))).trans (h.page hp)
  · exact (congrArg (Ring.filledBy · .link) ((hget _).trans (if_neg (hother _ .link (by decide) (h.fill hon))))).trans (h.fill hon)
  · have hon : s.link.st ≠ .off := fun hoff => LinkState.noConfusion (hoff.symm.trans hread)
    exact (congrArg Ring.hasRoom ((hget _).trans (if_neg (hother _ .link (by decide) (h.fill hon))))).mpr (h.room hread)

/-- R7: a take that the host may write. -/
theorem takeWrite_served (h : s.streams.sides.Bounded) {r : RingId} {d : RingDesc} (hd : (s.ring r).desc = some d)
    {value : Nat} (hvalue : ¬takeRefused (s.ring r) d value = true) :
    (s.setRing r { s.ring r with take := value }).streams.sides.Bounded := by
  rw [takeRefused_iff, not_not] at hvalue
  refine h.serve (y := { s.ring r with take := value }) (take_serves fun e he _ => ?_) rfl rfl rfl
  obtain rfl := Option.some.inj (hd.symm.trans he)
  exact hvalue

/-- R8.1: after a cold start no ring is defined and no one fills one. -/
theorem cold_bounded (s : State) (cause : ColdCause) : (s.coldStart cause).streams.sides.Bounded := by
  have hsides : (s.coldStart cause).streams.sides = ⟨{}, {}, {}⟩ := by
    unfold State.coldStart State.leaveReset
    split <;> rfl
  rw [hsides]
  refine ⟨fun r => ?_, fun hp => absurd rfl hp.1, fun hon => absurd rfl hon, fun hread => LinkState.noConfusion hread⟩
  match r with
  | 0 | 1 | 2 | 3 => rfl

theorem linkReadComplete_served (h : s.streams.sides.Bounded) :
    Meets (fun t => t.streams.sides.Bounded) (execLinkReadComplete s) := by
  refine meets_ite (fun hready => ?_) (fun _ => meets_next.mpr h)
  obtain ⟨hst, -⟩ := hready
  dsimp only
  generalize tagOfHalves (s.pmc.dataOf .linkTag) = t
  generalize halvesToWords (s.pmc.dataOf .linkWords) = words
  have hunended : (s.linkDropReads.linkUnendedPage t).streams.sides.Bounded := State.linkUnendedPage_served (by simpa using h) t
  have hst' : (s.linkDropReads.linkUnendedPage t).link.st = .reading := by
    rw [linkUnendedPage_link, State.linkDropReads_link]
    split <;> exact hst
  generalize s.linkDropReads.linkUnendedPage t = u at *
  obtain ⟨hmst, -, -, hmdest, -⟩ := merge_kept u.link t words
  have hread := hmst.trans hst'
  have hmerged : (u.setLink (u.link.merge t words)).streams.sides.Bounded :=
    hunended.link rfl rfl hmdest (fun _ => by rw [hst']; decide) fun _ => hunended.room hst'
  have hreleased := State.releaseSlots_served hmerged (u.link.merge t words).sourceRing 1
  have hlink : ((u.setLink (u.link.merge t words)).releaseSlots (u.link.merge t words).sourceRing 1).link.st = .reading := by
    simpa using hread
  split
  · exact meets_next.mpr (State.linkEmitOrWait_served hreleased hlink)
  · exact meets_next.mpr (hreleased.link rfl rfl rfl (fun _ => by rw [hlink]; decide) fun hr => LinkState.noConfusion hr)

theorem linkTakeSourceLine_served (h : s.streams.sides.Bounded) :
    Meets (fun t => t.streams.sides.Bounded) (execLinkTakeSourceLine s) := by
  unfold execLinkTakeSourceLine
  split
  · exact meets_next.mpr h
  · refine meets_ite (fun hmay => meets_next.mpr ?_) (fun _ => meets_next.mpr h)
    simp only [State.linkMayTake, Bool.and_eq_true, beq_iff_eq, decide_eq_true_eq] at hmay
    obtain ⟨⟨⟨hst, -⟩, hfree⟩, -⟩ := hmay
    have hon : s.link.st ≠ .off := by rw [hst]; decide
    exact h.link rfl rfl rfl (fun _ => hon) fun _ => (ringFree_pos_iff (h.fill hon)).mp hfree

theorem readoutComplete_served (h : s.streams.sides.Bounded) (samples : List Byte) :
    Meets (fun t => t.streams.sides.Bounded) (execReadoutComplete samples s) := by
  unfold execReadoutComplete
  split
  case h_4 => exact meets_next.mpr h
  all_goals
    next hst hi =>
      refine meets_ite (fun _ => meets_next.mpr ?_) (fun _ => meets_next.mpr h)
      have hp : s.scan.inPage := Scan.inPage_at hst (by decide)
      have hrows : (s.setScan { s.scan with
          currentRow := (s.scanLine samples).2.1, nextRow := (s.scanLine samples).2.2, carry := 0 }).streams.sides.Bounded :=
        ⟨h.counted, fun _ => h.page hp, h.fill, h.room⟩
      have hclaim := State.scanClaim_served hrows hp hi (packWords (s.scan.params.width / 32) (s.scanLine samples).1)
        ((s.scanLine samples).1.count true)
      obtain ⟨-, hpage⟩ := State.scanClaim_follows (s := s.setScan { s.scan with
          currentRow := (s.scanLine samples).2.1, nextRow := (s.scanLine samples).2.2, carry := 0 }) (.refl _) hp hi
        (packWords (s.scan.params.width / 32) (s.scanLine samples).1) ((s.scanLine samples).1.count true)
      exact State.scanCloseIfIdle_served hclaim hpage

theorem State.beginPrint_served (h : s.streams.sides.Bounded) (p : PrintParams) : (s.beginPrint p).streams.sides.Bounded := by
  simp -implicitDefEqProofs [State.beginPrint, h]

theorem State.issueWindow_served (h : s.streams.sides.Bounded) (d : RingDesc) (slot m : Nat) :
    (s.issueWindow d slot m).streams.sides.Bounded := by
  induction m generalizing s slot with
  | zero => exact h
  | succ m ih => exact ih (by simpa using h) _

end

/-! ### Rows -/

theorem exec_served {i : Instr} {s : State} (h : s.streams.sides.Bounded) : Meets (fun t => t.streams.sides.Bounded) (exec i s) := by
  by_cases hk : keepsStreams i
  · exact fun t ht => (congrArg (fun x => x.sides.Bounded) (exec_streams hk s t ht)).mpr h
  cases i
  all_goals try (exact absurd rfl hk)
  case powerOnDetect => exact meets_next.mpr (cold_bounded ..)
  case resetPinLow => exact meets_ite (fun _ => meets_next.mpr (cold_bounded ..)) (fun _ => meets_next.mpr h)
  case responsePutAcknowledged =>
    simp only [exec, execResponsePutAcknowledged]
    repeat' split
    all_goals simp -implicitDefEqProofs [h, cold_bounded]
  case linkReadComplete => exact linkReadComplete_served h
  case linkTakeSourceLine => exact linkTakeSourceLine_served h
  case readoutComplete samples => exact readoutComplete_served h samples
  case calTriggerExpiry =>
    simp only [exec, execCalTriggerExpiry]
    refine meets_ite (fun hcal => ?_) (fun _ => meets_next.mpr h)
    have hout : ¬s.scan.inPage := fun hp => hp.2 hcal.1
    split
    all_goals exact meets_next.mpr (h.follow (Scan.Follows.aside hout rfl rfl rfl rfl rfl rfl) rfl rfl)
  case calReadoutComplete samples =>
    simp only [exec, execCalReadoutComplete]
    refine meets_ite (fun hcal => ?_) (fun _ => meets_next.mpr h)
    have hout : ¬s.scan.inPage := fun hp => hp.2 hcal.1
    split
    all_goals exact meets_next.mpr (h.follow (Scan.Follows.aside hout rfl rfl rfl rfl rfl rfl) rfl rfl)
  case calSumsAcknowledged =>
    simp only [exec, execCalSumsAcknowledged]
    refine meets_ite (fun hcal => meets_next.mpr ?_) (fun _ => meets_next.mpr h)
    have hout : ¬s.scan.inPage := fun hp => hp.2 hcal.1
    exact State.calFinish_served (s := (s.takeOne .calSums).setScan _)
      (h.follow (Scan.Follows.aside hout rfl rfl rfl rfl rfl rfl) rfl rfl)
  case setRing tag ring producer consumer slots words base =>
    refine meets_command rfl h ?_
    rintro u rfl
    have hu : u.streams.sides.Bounded := h
    simp only [exec, execSetRing, claimCommand_given]
    split
    · exact meets_next.mpr (by simpa using hu)
    next r d hok =>
      obtain ⟨hfree, hslots⟩ := checkSetRing_good hok
      simpa using State.installRing_served hu hfree d hslots
  case startScan tag ring mode start k profile theta skip trailing width pageLimit feedLimit stopMargin restartMargin =>
    refine meets_command rfl h ?_
    rintro u rfl
    have hu : u.streams.sides.Bounded := h
    simp only [exec, execStartScan, claimCommand_given]
    split
    · exact meets_next.mpr (by simpa using hu)
    next p edge hok =>
      refine meets_next.mpr (State.beginScan_served (by simpa using hu) ?_ edge)
      simpa using checkStartScan_ring hok
  case startScanCal tag lamp lines width interval destination =>
    refine meets_command rfl h ?_
    rintro u rfl
    have hu : u.streams.sides.Bounded := h
    simp only [exec, execStartScanCal, claimCommand_given]
    split
    · exact meets_next.mpr (by simpa using hu)
    · exact meets_next.mpr (hu.calibration (by simp [-List.reduceReplicate]) (by simp [-List.reduceReplicate]) rfl)
  case linkRings tag source destination keep =>
    refine meets_command rfl h ?_
    rintro u rfl
    have hu : u.streams.sides.Bounded := h
    simp only [exec, execLinkRings, claimCommand_given]
    split
    · exact meets_next.mpr (by simpa using hu)
    next a b hok =>
      obtain ⟨-, hring⟩ := checkLinkRings_producer hok
      obtain ⟨hattached, -⟩ := State.attachProducer_served (State.attachConsumer_served hu a true) b
      refine meets_next.mpr ?_
      rw [State.handDone_streams]
      refine ⟨hattached.counted, hattached.page, fun _ => ?_, fun hr => LinkState.noConfusion hr⟩
      refine attachProducer_filledBy (s := u.attachConsumer a true) ?_
      rw [attachConsumer_ring]
      split_ifs with hab
      · rw [hab] at hring
        exact hring
      · exact hring
  case unlink tag =>
    refine meets_command rfl h ?_
    rintro u rfl
    have hu : u.streams.sides.Bounded := h
    simp only [exec, execUnlink, claimCommand_given]
    split
    · exact meets_next.mpr (by simpa using hu)
    next hon =>
      simpa using State.linkEnd_served hu (fun hoff => hon (.inl hoff)) false
  case slotWritesAcknowledged r =>
    simp only [exec, execSlotWritesAcknowledged]
    split
    next d c rest hd hw =>
      refine meets_ite (fun _ => meets_next.mpr ?_) (fun _ => meets_next.mpr h)
      have hacknowledged := State.acknowledgeSlot_served (s := s.takeOne (.slotTag r)) (by simpa using h) hd hw
      simp -implicitDefEqProofs [hacknowledged]
    · exact meets_next.mpr h
  case pageEndTagAcknowledged r =>
    simp only [exec, execPageEndTagAcknowledged]
    split
    next d p hd hp =>
      refine meets_ite (fun hready => meets_next.mpr ?_) (fun _ => meets_next.mpr h)
      have hfinished := State.finishPageEnd_served (s := s.takeOne (.pageEndTag r)) (by simpa using h) hd hp hready.1
      simp -implicitDefEqProofs [hfinished]
    · exact meets_next.mpr h
  case lineRingPutWrite r value =>
    simp only [exec, execLineRingPutWrite]
    split
    · exact meets_next.mpr h
    next u hu =>
      have hserved : u.streams.sides.Bounded := (congrArg (fun x => x.sides.Bounded) (claimArrival_streams hu)).mpr h
      split
      · exact meets_next.mpr hserved
      next d hd =>
        refine meets_ite (fun _ => meets_next.mpr hserved) (fun hhost => meets_ite (fun _ => ?_) (fun hvalue => ?_))
        · exact meets_next.mpr (by simpa using hserved)
        · exact meets_next.mpr (putWrite_served hserved hd (not_not.mp hhost) hvalue)
  case lineRingTakeWrite r value =>
    simp only [exec, execLineRingTakeWrite]
    split
    · exact meets_next.mpr h
    next u hu =>
      have hserved : u.streams.sides.Bounded := (congrArg (fun x => x.sides.Bounded) (claimArrival_streams hu)).mpr h
      split
      · exact meets_next.mpr hserved
      next d hd =>
        refine meets_ite (fun _ => meets_next.mpr hserved) (fun _ => meets_ite (fun _ => ?_) (fun hvalue => ?_))
        · exact meets_next.mpr (by simpa using hserved)
        · have htaken := takeWrite_served hserved hd hvalue
          split
          · exact meets_next.mpr (State.scanFreed_served htaken r)
          · exact meets_next.mpr htaken
  case accessEnd =>
    simp only [exec, execAccessEnd]
    split
    · split
      · refine meets_next.mpr ?_
        have hperform : ∀ b : Burst, (s.perform b).streams = s.streams := fun b => by
          unfold State.perform
          cases b.dir <;> simp
        simp -implicitDefEqProofs [h, hperform]
      · exact meets_fault
    all_goals exact meets_next.mpr h
  case stopScan | startPrint | stopPrint | pausePrint | resumePrint | moveMotor | holdMotor | releaseMotor | setPower | stopAll =>
    refine meets_command rfl h ?_
    rintro u rfl
    have hu : u.streams.sides.Bounded := h
    simp only [exec, execStopScan, execStartPrint, execStopPrint, execPausePrint, execResumePrint, execMoveMotor, execHoldMotor,
      execReleaseMotor, execSetPower, execStopAll, claimCommand_given]
    repeat' split
    all_goals simp -implicitDefEqProofs [hu, State.beginPrint_served]
  all_goals
    simp only [exec, execStepIntervalExpiry, execFetchStart, execTagReadComplete,
      execWindowReadComplete, execFetchComplete, execShiftInStart, execShiftInComplete, execLineLatch, execPhaseEnd,
      execNextPhaseStart, execSlewBegin, execPrintStreamOff, execConversionComplete, execRingEdge, execDebounceExpiry,
      execLossWindowExpiry, execWakeTimerExpiry, execStandbyEntry, execRefreshBurstDone, State.memoryBack]
    repeat' split
  all_goals simp -implicitDefEqProofs [h, State.issueWindow_served]

end Sys2Proof.Machine

namespace Sys2Proof.Proofs

open Sys2Proof Sys2Proof.Machine

/-- Settles O27: each ring operation, as a function of its ring, counts the slots as R4 gives; every operation of the part keeps the
rings counted and their producers attached. -/
theorem ringCounts : Obligations.RingCounts := by
  refine ⟨fun s t hs h => ?_, ?_⟩
  · rw [ringsBounded_iff] at hs ⊢
    refine step_keeps (P := fun s => s.streams.sides.Bounded) (fun _ _ h => exec_served h) (fun _ _ h => h) (fun s h => ?_) hs h
    obtain ⟨x, hx⟩ := s.tick_eq
    rw [hx]
    exact h
  · intro s r d tag words c rest n x sum hd hput htake hsum
    have hfilled : ∀ y : Ring, sum y = y.filled d := fun y => (filled_eq y d).symm
    have hring : ∀ {t : State} {y : Ring}, t.rings = s.rings.set r y → t.ring r = y := fun {t y} ht => by
      rw [State.ring, ht, Rings.get_set]
    simp only [hfilled] at hsum ⊢
    refine ⟨fun _ => ?_, fun hw hc => ?_, fun hheld => ?_, fun hn hle => ?_⟩
    · rw [hring (claimSlot_rings s r d tag words none)]
      exact ⟨filled_claim .., rfl, rfl, rfl, by rw [Nat.add_assoc]; rfl⟩
    · rw [hring (acknowledgeSlot_rings s r d c rest)]
      have hcount := filled_acknowledged hw hput htake hsum hc
      refine ⟨hcount, ?_⟩
      rw [acknowledged_of hc]
      exact ⟨rfl, rfl, rfl, rfl⟩
    · rw [hring (finishPageEnd_rings s r d)]
      exact ⟨filled_completed hheld hput htake hsum, rfl, rfl, rfl⟩
    · rw [hring (releaseTake_rings s r n), released_of hd hn hle]
      exact ⟨occupancy_release hput htake hle, rfl, rfl, rfl, rfl⟩

end Sys2Proof.Proofs
end

