-- ==== Sys2Proof/Proofs/SweepRows.lean ====
section
/-! Where sweeps begin (R102 to R104, R108 to R111). -/

namespace Sys2Proof.Machine

open Sys2Proof

/-! ### The next position (R104, R111) -/

/-- R111: the first entry with the wake flag. -/
theorem nextPosition_of_first {l : List Installed} {p : Nat} {i : Installed} (hi : l[p]? = some i) (hwake : i.entry.wake = true)
    (hfirst : ∀ k < p, ∀ j : Installed, l[k]? = some j → j.entry.wake = false) (q : Nat) :
    nextPosition true q l = some (q + p) := by
  induction l generalizing p q with
  | nil => cases hi
  | cons e es ih =>
    cases p with
    | zero =>
      obtain rfl := Option.some.inj hi
      exact if_pos (by simp [hwake])
    | succ p =>
      have he : e.entry.wake = false := hfirst 0 (Nat.zero_lt_succ p) e rfl
      have hrest := ih (p := p) hi (fun k hk j hj => hfirst (k + 1) (Nat.succ_lt_succ hk) j hj) (q + 1)
      rw [show q + (p + 1) = q + 1 + p by omega, ← hrest]
      exact if_neg (by simp [he])

theorem nextPosition_of_none {l : List Installed} (h : ∀ j ∈ l, j.entry.wake = false) (q : Nat) : nextPosition true q l = none := by
  induction l generalizing q with
  | nil => rfl
  | cons e es ih =>
    rw [← ih (fun j hj => h j (List.mem_cons_of_mem e hj)) (q + 1)]
    exact if_neg (by simp [h e List.mem_cons_self])

/-! ### Beginnings -/

section
variable {s : State}

theorem sweepStart_cons {e : Installed} {rest : List Installed} (h : s.sense.install.list = e :: rest) :
    s.sweepStart = s.setSense { s.sense.install with sweep := .normal 0, converting := !s.sense.install.hold } := by
  have hnext : nextPosition false 0 s.sense.install.list = some 0 := by
    rw [h]
    rfl
  simp only [State.sweepStart, hnext]
  rfl

theorem sweepStart_nil (h : s.sense.install.list = []) :
    s.sweepStart = (s.setSense { s.sense.install with sweep := .none }).snapshotDue := by
  have hnext : nextPosition false 0 s.sense.install.list = none := by
    rw [h]
    rfl
  simp only [State.sweepStart, hnext]

theorem sweepPeriodExpiry_starts (htimer : s.sense.periodTimer = true) (hp : s.clk.power = .run ∨ s.clk.power = .slow)
    (hsweep : s.sense.sweep = .none) (hc : s.sense.converting = false) : exec .sweepPeriodExpiry s = .next s.sweepStart := by
  refine (if_pos ⟨htimer, hp⟩).trans ((if_pos hsweep).trans (if_neg ?_))
  rw [hc]
  decide

/-- R111: the standby timer goes on where the standby interval in force is not 0. -/
def Sense.standbyBegun (x : Sense) : Sense := { x.install with standbyTimer := x.install.standbyTimer && x.install.standby != 0 }

/-- R111: a standby sweep converts the first entry with the wake flag. -/
theorem standbySweepStart_first {p : Nat} {i : Installed} (hi : s.sense.install.list[p]? = some i) (hwake : i.entry.wake = true)
    (hfirst : ∀ k < p, ∀ j : Installed, s.sense.install.list[k]? = some j → j.entry.wake = false) :
    s.standbySweepStart = s.setSense { s.sense.standbyBegun with sweep := .standby p, converting := !s.sense.install.hold } := by
  have hnext := nextPosition_of_first hi hwake hfirst 0
  rw [Nat.zero_add] at hnext
  simp only [State.standbySweepStart, hnext]
  rfl

/-- R111, R143: a standby sweep with nothing to convert ends at once (log entry 34). -/
theorem standbySweepStart_none (hnone : ∀ j ∈ s.sense.install.list, j.entry.wake = false) (howed : s.sense.install.owed = false) :
    s.standbySweepStart = ((s.setClk { s.clk with
      needSense := false, fastRc := if s.clk.power = .standby then .stopped else s.clk.fastRc }).setSense
      { s.sense.standbyBegun with sweep := .none }) := by
  simp only [State.standbySweepStart, nextPosition_of_none hnone 0]
  exact if_neg (Bool.eq_false_iff.mp howed)

theorem install_eq (x : Sense) : x.install = (match x.pendingList with
    | none => x
    | some n => { x with
        list := n.entries.map (fun e => { entry := e, reading := 0, zone := .unknown }), period := n.period
        standby := n.standby, pendingList := none }) := rfl

theorem install_keeps (x : Sense) : x.install.owed = x.owed ∧ x.install.hold = x.hold ∧ x.install.standbyTimer = x.standbyTimer := by
  unfold Sense.install
  split <;> exact ⟨rfl, rfl, rfl⟩

theorem standbyTimerExpiry_eq (hp : s.clk.power = .standby) (htimer : s.sense.standbyTimer = true) (hsweep : s.sense.sweep = .none) :
    exec .standbyTimerExpiry s = (match s.clk.fastRc with
      | .running => .next (s.setClk { s.clk with needSense := true }).standbySweepStart
      | .starting => .next (s.setClk { s.clk with needSense := true })
      | .stopped => .next (s.setClk { s.clk with needSense := true, fastRc := .starting })) :=
  if_pos ⟨hp, htimer, hsweep⟩

/-- The state in which FAST_RC_RUNNING finds whether the sense unit waits. -/
def State.fastRcTold (s : State) : State :=
  if s.clk.needLeave then (s.setClk { s.clk with fastRc := .running }).leaveOnFastRc else s.setClk { s.clk with fastRc := .running }

theorem fastRcTold_needSense (s : State) : s.fastRcTold.clk.needSense = s.clk.needSense := by
  unfold State.fastRcTold State.leaveOnFastRc
  split <;> simp

theorem fastRcRunning_eq (h : s.clk.fastRc = .starting) : exec .fastRcRunning s = .next
    (if s.clk.needSense then s.fastRcTold.standbySweepStart else s.fastRcTold) := by
  rw [← fastRcTold_needSense s]
  exact if_pos h

theorem leaveOnFastRc_selfRefresh (h : s.pmc.st = .selfRefresh) :
    (s.setClk { s.clk with fastRc := .running }).leaveOnFastRc
      = (s.setClk { s.clk with fastRc := .running, core := .fastRc, needLeave := false }).setPmc
          ({ s.pmc with st := .srExit, refreshTimer := true, burstRem := 8 }.grantPoint s.cfg) :=
  memoryExit_of_selfRefresh h

end

end Sys2Proof.Machine

namespace Sys2Proof.Proofs

open Sys2Proof Sys2Proof.Machine

/-- Settles O49: the two timers and the two oscillator events, by the state of the sweep and of FAST_RC. -/
theorem sweepRows : Obligations.SweepRows := by
  intro s e rest
  refine ⟨fun htimer hp hsweep => ?_, fun htimer hp hsweep hc => ?_, fun h => ?_, fun hp htimer => ⟨fun hsweep => ?_, fun hsweep hrc => ?_,
    fun hsweep hrc => ?_⟩, ?_⟩
  · exact (if_pos ⟨htimer, hp⟩).trans (if_neg hsweep)
  · rw [sweepPeriodExpiry_starts htimer hp hsweep hc]
    refine ⟨fun hlist hnil => ?_, fun t hlist hnil => ?_, fun hlist hcons => ?_, fun t hlist hne => ?_⟩
    · have hinstall : s.sense.install = s.sense := by simp only [Sense.install, hlist]
      rw [sweepStart_nil ((congrArg Sense.list hinstall).trans hnil), hinstall, ← hsweep]
      rfl
    · have hinstall : s.sense.install = { s.sense with list := [], period := t.period, standby := t.standby, pendingList := none } := by
        simp only [Sense.install, hlist, hnil, List.map_nil]
      rw [sweepStart_nil (by rw [hinstall]), hinstall, ← hsweep]
    · have hinstall : s.sense.install = s.sense := by simp only [Sense.install, hlist]
      rw [sweepStart_cons ((congrArg Sense.list hinstall).trans hcons), hinstall]
    · have hinstall : s.sense.install = { s.sense with
          list := t.entries.map (fun x => { entry := x, reading := 0, zone := .unknown }), period := t.period
          standby := t.standby, pendingList := none } := by
        simp only [Sense.install, hlist]
        rfl
      obtain ⟨x, xs, hx⟩ := List.exists_cons_of_ne_nil hne
      have hcons : s.sense.install.list = SenseEntry.fresh x :: xs.map SenseEntry.fresh := by rw [hinstall, hx]; rfl
      rw [sweepStart_cons hcons, hinstall]
  · obtain htimer | ⟨hrun, hslow⟩ | ⟨hsweep, hc⟩ := h
    · exact if_neg fun hboth => by rw [htimer] at hboth; cases hboth.1
    · exact if_neg fun hboth => hboth.2.elim hrun hslow
    · by_cases hboth : s.sense.periodTimer = true ∧ (s.clk.power = .run ∨ s.clk.power = .slow)
      · exact (if_pos hboth).trans ((if_pos hsweep).trans (if_pos hc))
      · exact if_neg hboth
  · exact if_neg fun hboth => hsweep hboth.2.2
  · rw [standbyTimerExpiry_eq hp htimer hsweep, hrc]
  · rw [standbyTimerExpiry_eq hp htimer hsweep, hrc]
  · intro y z begun left
    have hy : s.sense.install = y := install_eq s.sense
    obtain ⟨howes, hholds, htimes⟩ := install_keeps s.sense
    have hz : s.sense.standbyBegun = z := by
      show { s.sense.install with standbyTimer := s.sense.install.standbyTimer && s.sense.install.standby != 0 } = z
      rw [htimes, hy]
    have hbegun : ∀ t : State, t.sense = s.sense → s.sense.owed = false → begun t (.next t.standbySweepStart) := fun t ht howed => by
      refine ⟨fun p i hi hwake hfirst => ?_, fun hnone => ?_⟩
      · rw [← hy] at hi hfirst
        rw [← ht] at hi hfirst
        rw [standbySweepStart_first hi hwake hfirst, ht, hz, hholds]
      · rw [← hy] at hnone
        rw [standbySweepStart_none (by rwa [ht]) (by rw [ht, howes, howed]), ht, hz]
    refine ⟨fun hp htimer hsweep hrc howed => ?_, fun hrc => ?_⟩
    · rw [standbyTimerExpiry_eq hp htimer hsweep, hrc]
      exact hbegun _ rfl howed
    · rw [fastRcRunning_eq hrc]
      refine ⟨fun hneed hleave howed => ?_, fun hleave hself => ⟨fun hneed => ?_, fun hneed howed => ?_⟩⟩
      · rw [hneed, State.fastRcTold, hleave]
        exact hbegun _ rfl howed
      · rw [hneed, State.fastRcTold, hleave]
        exact congrArg _ (leaveOnFastRc_selfRefresh hself)
      · rw [hneed, State.fastRcTold, hleave, if_pos rfl, if_pos rfl, leaveOnFastRc_selfRefresh hself]
        exact hbegun left rfl howed

end Sys2Proof.Proofs
end

