-- ==== Sys2Proof/Proofs/DocFrames.lean ====
section
/-! Operations that leave the DOC channel alone. -/

namespace Sys2Proof.Machine

open Sys2Proof

@[simp] theorem State.stopMove_paper_doc (s : State) (cause : StopCause) : (s.stopMove .paper cause).doc = s.doc := rfl
@[simp] theorem State.startMove_paper_doc (s : State) (requester : Owner) (dir : Direction) (profile : Fin 8) (steps : Option Nat)
    (tag : Byte) : (s.startMove .paper requester dir profile steps tag).doc = s.doc := rfl

section
variable (s : State)

@[simp] theorem State.offer_doc (bs : List Burst) : (s.offer bs).doc = s.doc := rfl
@[simp] theorem State.issueRead_doc (cls : MemClass) (req : Req) (address len : Nat) :
    (s.issueRead cls req address len).doc = s.doc := rfl
@[simp] theorem State.issueWrite_doc (cls : MemClass) (req : Req) (address : Nat) (data : List Half) :
    (s.issueWrite cls req address data).doc = s.doc := rfl
@[simp] theorem State.writeWord_doc (cls : MemClass) (offset value : Nat) :
    (s.writeWord cls offset value).doc = s.doc := rfl
@[simp] theorem State.takeOne_doc (q : Req) : (s.takeOne q).doc = s.doc := rfl
@[simp] theorem State.takeAll_doc (q : Req) : (s.takeAll q).doc = s.doc := rfl
@[simp] theorem State.writeCell_doc (mark : CellMark) (bytes : List Byte) :
    (s.writeCell mark bytes).doc = s.doc := rfl
@[simp] theorem State.writeSummary_doc : s.writeSummary.doc = s.doc := rfl
@[simp] theorem State.recordLost_doc (k : Kind) : (s.recordLost k).doc = s.doc := by
  unfold State.recordLost; dsimp only
  repeat' split
  all_goals rfl

@[simp] theorem State.writeSnapshot_doc : s.writeSnapshot.doc = s.doc := rfl
@[simp] theorem State.claimSlot_doc (r : RingId) (d : RingDesc) (tag : Tag) (words : List Word) (buf : Option BufId) : (s.claimSlot r d tag words buf).doc = s.doc := rfl
@[simp] theorem State.publish_doc (r : RingId) (d : RingDesc) : (s.publish r d).doc = s.doc := rfl
@[simp] theorem State.acknowledgeSlot_doc (r : RingId) (d : RingDesc) (c : Claim) (rest : List Claim) :
    (s.acknowledgeSlot r d c rest).doc = s.doc := by
  unfold State.acknowledgeSlot; dsimp only
  repeat' split
  all_goals rfl

@[simp] theorem State.askPageEnd_doc (r : RingId) (lostTail : Bool) : (s.askPageEnd r lostTail).doc = s.doc := by
  unfold State.askPageEnd
  split <;> rfl

@[simp] theorem State.beginPageEnd_doc (r : RingId) (d : RingDesc) : (s.beginPageEnd r d).doc = s.doc := by
  unfold State.beginPageEnd; dsimp only
  repeat' split
  all_goals rfl

@[simp] theorem State.finishPageEnd_doc (r : RingId) (d : RingDesc) : (s.finishPageEnd r d).doc = s.doc := rfl
@[simp] theorem State.releaseTake_doc (r : RingId) (n : Nat) : (s.releaseTake r n).doc = s.doc := by
  unfold State.releaseTake; dsimp only
  repeat' split
  all_goals rfl

@[simp] theorem State.attachProducer_doc (r : RingId) (on : Bool) : (s.attachProducer r on).doc = s.doc := rfl
@[simp] theorem State.attachConsumer_doc (r : RingId) (on : Bool) : (s.attachConsumer r on).doc = s.doc := rfl
@[simp] theorem State.installRing_doc (r : RingId) (d : RingDesc) : (s.installRing r d).doc = s.doc := rfl
@[simp] theorem State.ringFault_doc (r : RingId) (index : Nat) (written held : Nat) :
    (s.ringFault r index written held).doc = s.doc := by simp [State.ringFault]
@[simp] theorem State.reportHostEnd_doc (ch : Chan) (c : Channel) (cause : EndCause) :
    (s.reportHostEnd ch c cause).doc = s.doc := by simp [State.reportHostEnd]
@[simp] theorem State.handPageScanned_doc (mark : CellMark) :
    (s.handPageScanned mark).doc = s.doc := by simp [State.handPageScanned]
@[simp] theorem State.linkStream_doc : s.linkStream.doc = s.doc := by simp [State.linkStream]
@[simp] theorem State.linkDropReads_doc : s.linkDropReads.doc = s.doc := rfl
@[simp] theorem State.linkDetachSource_doc : s.linkDetachSource.doc = s.doc := rfl
@[simp] theorem State.abandonClaims_doc (r : RingId) : (s.abandonClaims r).doc = s.doc := rfl
@[simp] theorem State.linkEmit_doc : s.linkEmit.doc = s.doc := by
  unfold State.linkEmit; dsimp only
  repeat' split
  all_goals rfl

@[simp] theorem State.pagePrinted_doc (endMark : Bool) :
    (s.pagePrinted endMark).doc = s.doc := by simp [State.pagePrinted]
@[simp] theorem State.printStream_doc : s.printStream.doc = s.doc := by simp [State.printStream]
@[simp] theorem State.finalStream_doc (r : PrintReason) : (s.finalStream r).doc = s.doc := by simp [State.finalStream]
@[simp] theorem State.setUrgent_doc (on : Bool) : (s.setUrgent on).doc = s.doc := rfl
@[simp] theorem State.enterPrint_doc (st : PrintState) : (s.enterPrint st).doc = s.doc := by
  unfold State.enterPrint
  split <;> rfl

@[simp] theorem State.printWake_doc : s.printWake.doc = s.doc := by
  unfold State.printWake
  split <;> rfl

@[simp] theorem State.printGoOn_doc (resumed : Bool) : (s.printGoOn resumed).doc = s.doc := by
  unfold State.printGoOn; dsimp only
  repeat' split
  all_goals rfl

@[simp] theorem State.paperMove_doc (steps : Nat) : (s.paperMove steps).doc = s.doc := rfl
@[simp] theorem State.beginPrint_doc (p : PrintParams) : (s.beginPrint p).doc = s.doc := rfl
@[simp] theorem State.stopPrint_doc : s.stopPrint.doc = s.doc := by
  unfold State.stopPrint; dsimp only
  repeat' split
  all_goals rfl

@[simp] theorem State.printCut_doc (reason : PrintReason) : (s.printCut reason).doc = s.doc := by
  unfold State.printCut; dsimp only
  repeat' split
  all_goals rfl

@[simp] theorem State.fetchWordsOf_doc (d : RingDesc) (slot : Nat) (tag : Tag) :
    (s.fetchWordsOf d slot tag).doc = s.doc := rfl
@[simp] theorem State.requestAdvance_doc (h : HeadLine) : (s.requestAdvance h).doc = s.doc := rfl
@[simp] theorem State.latch_doc : s.latch.doc = s.doc := by
  unfold State.latch; dsimp only
  repeat' split
  all_goals rfl

@[simp] theorem State.sweepStart_doc : s.sweepStart.doc = s.doc := by
  unfold State.sweepStart; dsimp only
  repeat' split
  all_goals simp

@[simp] theorem State.placeHold_doc : s.placeHold.doc = s.doc := rfl
@[simp] theorem State.liftHold_doc : s.liftHold.doc = s.doc := rfl
@[simp] theorem State.abandonSweep_doc : s.abandonSweep.doc = s.doc := rfl
@[simp] theorem State.startPeriod_doc : s.startPeriod.doc = s.doc := rfl
@[simp] theorem State.grantPoint_doc : s.grantPoint.doc = s.doc := rfl
@[simp] theorem State.memoryStart_doc : s.memoryStart.doc = s.doc := by
  unfold State.memoryStart
  split <;> rfl

@[simp] theorem State.memoryEntry_doc : s.memoryEntry.doc = s.doc := by
  unfold State.memoryEntry
  split <;> rfl

@[simp] theorem State.memoryWithdraw_doc : s.memoryWithdraw.doc = s.doc := by
  unfold State.memoryWithdraw
  split <;> rfl

@[simp] theorem State.memoryExit_doc : s.memoryExit.doc = s.doc := by
  unfold State.memoryExit
  split <;> rfl

@[simp] theorem State.snoop_doc (b : Burst) : (s.snoop b).doc = s.doc := by
  unfold State.snoop; dsimp only
  repeat' split
  all_goals rfl

@[simp] theorem State.commandRead_doc : s.commandRead.doc = s.doc := by
  unfold State.commandRead; dsimp only
  repeat' split
  all_goals rfl

@[simp] theorem State.clockCell_doc (tag : Byte) (r : Result) (origin : Origin) (code : ClockCode) (target : Option Source) : (s.clockCell tag r origin code target).doc = s.doc := by simp [State.clockCell]
@[simp] theorem State.enterWaitQuiet_doc : s.enterWaitQuiet.doc = s.doc := rfl
@[simp] theorem State.crystalStart_doc : s.crystalStart.doc = s.doc := rfl
@[simp] theorem State.pllStart_doc : s.pllStart.doc = s.doc := rfl
@[simp] theorem State.crystalReady_doc (target : Source) : (s.crystalReady target).doc = s.doc := by
  unfold State.crystalReady
  split <;> rfl

@[simp] theorem State.wakeCell_doc (cause : WakeCause) (fromState : PowerState) (abandoned : Bool) :
    (s.wakeCell cause fromState abandoned).doc = s.doc := by simp [State.wakeCell]
@[simp] theorem State.donePower_doc (tag : Byte) (r : Result) (mark : CellMark) :
    (s.donePower tag r mark).doc = s.doc := by simp [State.donePower]
@[simp] theorem State.senseCell_doc (position : Nat) (e : SenseEntry) (before after : Zone) (reading : Nat) :
    (s.senseCell position e before after reading).doc = s.doc := by simp [State.senseCell]
@[simp] theorem State.dropFastRc_doc : s.dropFastRc.doc = s.doc := rfl
@[simp] theorem State.lineCell_doc (k : Kind) (fields : List Byte) : (s.lineCell k fields).doc = s.doc := by
  unfold State.lineCell
  split <;> simp

@[simp] theorem State.cellFault_doc (ring index written held : Nat) :
    (s.cellFault ring index written held).doc = s.doc := by simp [State.cellFault]
@[simp] theorem State.standbyWritten_doc : s.standbyWritten.doc = s.doc := by
  unfold State.standbyWritten; dsimp only
  repeat' split
  all_goals rfl

@[simp] theorem State.finishStopAll_doc (x : StopAll) :
    (s.finishStopAll x).doc = s.doc := by simp [State.finishStopAll]
@[simp] theorem State.linkTryOff_doc : s.linkTryOff.doc = s.doc := by
  unfold State.linkTryOff; dsimp only
  repeat' split
  all_goals simp

@[simp] theorem State.linkEmitOrWait_doc : s.linkEmitOrWait.doc = s.doc := by
  unfold State.linkEmitOrWait
  split <;> simp

@[simp] theorem State.linkSlotAcknowledged_doc : s.linkSlotAcknowledged.doc = s.doc := by
  unfold State.linkSlotAcknowledged; dsimp only
  repeat' split
  all_goals simp

@[simp] theorem State.linkUnendedPage_doc (t : Tag) : (s.linkUnendedPage t).doc = s.doc := by
  unfold State.linkUnendedPage; dsimp only
  repeat' split
  all_goals simp

@[simp] theorem State.enterPause_doc (r : PrintReason) : (s.enterPause r).doc = s.doc := by simp [State.enterPause]
@[simp] theorem State.enterHot_doc : s.enterHot.doc = s.doc := by simp [State.enterHot]
@[simp] theorem State.decideWindow_doc (d : RingDesc) (slot : Nat) (tags : List Tag) :
    (s.decideWindow d slot tags).doc = s.doc := by
  unfold State.decideWindow; dsimp only
  repeat' split
  all_goals simp

@[simp] theorem State.closeUnterminated_doc (pageStart : Bool) : (s.closeUnterminated pageStart).doc = s.doc := by
  unfold State.closeUnterminated
  split <;> simp

@[simp] theorem State.printHeadCool_doc : s.printHeadCool.doc = s.doc := by
  unfold State.printHeadCool; dsimp only
  repeat' split
  all_goals simp

@[simp] theorem State.sweepEnded_doc : s.sweepEnded.doc = s.doc := by
  unfold State.sweepEnded; dsimp only
  repeat' split
  all_goals simp

@[simp] theorem State.reportSwitch_doc (w : Switch) (r : Result) (code : ClockCode) :
    (s.reportSwitch w r code).doc = s.doc := by
  unfold State.reportSwitch; dsimp only
  repeat' split
  all_goals simp

@[simp] theorem State.beginSwitch_doc (target : Source) (origin : Origin) (tag : Byte) :
    (s.beginSwitch target origin tag).doc = s.doc := by
  unfold State.beginSwitch; dsimp only
  repeat' split
  all_goals simp

@[simp] theorem State.leaveOnFastRc_doc : s.leaveOnFastRc.doc = s.doc := by simp [State.leaveOnFastRc]
@[simp] theorem State.linkReadsAbandoned_doc : s.linkReadsAbandoned.doc = s.doc := by
  unfold State.linkReadsAbandoned
  split <;> simp

@[simp] theorem State.linkEnd_doc (abort : Bool) : (s.linkEnd abort).doc = s.doc := by
  unfold State.linkEnd; dsimp only
  repeat' split
  all_goals simp

@[simp] theorem State.linkPageEndComplete_doc : s.linkPageEndComplete.doc = s.doc := by
  unfold State.linkPageEndComplete; dsimp only
  repeat' split
  all_goals simp

@[simp] theorem State.printPaperLow_doc : s.printPaperLow.doc = s.doc := by
  unfold State.printPaperLow; dsimp only
  repeat' split
  all_goals simp

@[simp] theorem State.printHeadHot_doc : s.printHeadHot.doc = s.doc := by
  unfold State.printHeadHot; dsimp only
  repeat' split
  all_goals simp

@[simp] theorem State.printCoverHigh_doc : s.printCoverHigh.doc = s.doc := by
  unfold State.printCoverHigh; dsimp only
  repeat' split
  all_goals simp

@[simp] theorem State.pausePrint_doc : s.pausePrint.doc = s.doc := by
  unfold State.pausePrint; dsimp only
  repeat' split
  all_goals simp

@[simp] theorem State.normalSweepEnd_doc : s.normalSweepEnd.doc = s.doc := by simp [State.normalSweepEnd]
@[simp] theorem State.switchFail_doc (code : ClockCode) :
    (s.switchFail code).doc = s.doc := by simp [State.switchFail]
@[simp] theorem State.beginLeaving_doc : s.beginLeaving.doc = s.doc := by
  unfold State.beginLeaving; dsimp only
  repeat' split
  all_goals simp

@[simp] theorem State.finishLeaving_doc : s.finishLeaving.doc = s.doc := by
  unfold State.finishLeaving; dsimp only
  repeat' split
  all_goals simp

@[simp] theorem State.standbySweepEnd_doc : s.standbySweepEnd.doc = s.doc := by simp [State.standbySweepEnd]
@[simp] theorem State.linkStopAll_doc : s.linkStopAll.doc = s.doc := by
  unfold State.linkStopAll
  split <;> simp

@[simp] theorem State.standbySweepStart_doc : s.standbySweepStart.doc = s.doc := by
  unfold State.standbySweepStart; dsimp only
  repeat' split
  all_goals simp


@[simp] theorem State.readSource_doc (source length n : Nat) : (s.readSource source length n).doc = s.doc :=
  congrArg Streams.doc (State.readSource_streams s source length n)

@[simp] theorem State.issueWindow_doc (d : RingDesc) (slot n : Nat) : (s.issueWindow d slot n).doc = s.doc := by
  induction n generalizing s slot with
  | zero => rfl
  | succ n ih => rw [State.issueWindow, ih, State.issueRead_doc]

end

end Sys2Proof.Machine
end

