-- ==== Sys2Proof/Proofs/ClockEnds.lean ====
section
/-! How a clock switch ends, and what a clock failure and the other emergencies leave of the channels and streams (R145 to R149, R78,
R88). -/

namespace Sys2Proof.Machine

open Sys2Proof

/-! ### Ends of a switch (R145, R146) -/

section
variable {s : State} {g : Source} {o : Origin} {w : Switch}

/-- R146, R158: the CLOCK cell of a switch's end, and the DONE of a commanded one. -/
theorem reportSwitch_eq (ht : w.target = some g) (ho : w.origin = some o) (r : Result) (code : ClockCode) :
    s.reportSwitch w r code = (if o = .command
      then (s.handEvent .clock w.tag r [byte (originCode o), byte (clockCodeCode code), byte (sourceCode g),
        byte (sourceCode s.clk.core), if s.clk.failed then 1 else 0]).handDone w.tag 15 r
          [byte (clockCodeCode code), byte (sourceCode s.clk.core)]
      else s.handEvent .clock 0 r [byte (originCode o), byte (clockCodeCode code), byte (sourceCode g),
        byte (sourceCode s.clk.core), if s.clk.failed then 1 else 0]) := by
  have hcell : ∀ tag, s.clockCell tag r o code (some g) = s.handEvent .clock tag r [byte (originCode o), byte (clockCodeCode code),
      byte (sourceCode g), byte (sourceCode s.clk.core), if s.clk.failed then 1 else 0] := fun tag => by
    unfold State.clockCell
    cases s.clk.failed <;> rfl
  simp only [State.reportSwitch, ht, ho, Option.getD_some, hcell]
  by_cases hc : o = .command
  · simp only [if_pos hc, State.handEvent_clk]
  · simp only [if_neg hc]

/-- R103: the hold is lifted. -/
theorem liftHold_eq (s : State) : s.liftHold = s.setSense { s.sense with
    hold := false, converting := s.sense.converting || (s.sense.hold && s.sense.sweep != .none) } := by
  unfold State.liftHold
  dsimp only
  cases s.sense.converting <;> simp

/-- R146, R147: a switch that fails. -/
theorem switchFail_eq (ho : s.clk.sw.origin = some o) (code : ClockCode) :
    s.switchFail code = ((s.setClk { s.clk.stopUnneeded with
        sw := {}, failed := s.clk.failed || decide (o = .boot) }).liftHold).reportSwitch s.clk.sw .failed code := by
  have hfailed : s.clk.stopUnneeded.failed = s.clk.failed := by
    unfold ClockPower.stopUnneeded
    split <;> rfl
  have hboot : (some o == some Origin.boot) = decide (o = .boot) := by cases o <;> rfl
  unfold State.switchFail
  dsimp only
  rw [hfailed, ho, hboot]

theorem stopUnneeded_fastRc {x : ClockPower} (h : x.core = .fastRc) :
    x.stopUnneeded = { x with pll := .stopped, crystal := .stopped, settle := 0 } := by
  simp only [ClockPower.stopUnneeded, h]

theorem stopUnneeded_crystal {x : ClockPower} (h : x.core = .crystal) : x.stopUnneeded = { x with pll := .stopped } := by
  simp only [ClockPower.stopUnneeded, h]

theorem monitorWatches_core (hm : s.cfg.monitor = true) (hc : s.clk.core = .crystal ∨ s.clk.core = .crystalX2) :
    s.monitorWatches = true := by
  obtain hc | hc := hc <;> simp [State.monitorWatches, hm, hc, Source.isCrystal]

theorem lossWindowExpiry_core (hm : s.cfg.monitor = true) (hc : s.clk.core = .crystal ∨ s.clk.core = .crystalX2) :
    exec .lossWindowExpiry s = .next s.clockFailure := by
  refine (if_pos (monitorWatches_core hm hc)).trans (if_pos ?_)
  obtain hc | hc := hc <;> rw [hc] <;> rfl

end

/-! ### A cut print stream (R77, R78) -/

/-- R78: a print stream that was cut: it ends, and its head line is gone. -/
structure Print.Cut (x : Print) : Prop where
  active : x.st ≠ .off
  ending : x.ending.isSome = true
  cut : x.cut = true
  noLine : x.headLine = none

/-- The channels and the scan path as they were, the print stream cut. -/
structure CutShort (u v : State) : Prop where
  doc : v.doc = u.doc
  paper : v.paper = u.paper
  scan : v.scan = u.scan
  print : v.print.Cut

section
variable {u v : State}

theorem CutShort.setPrint (h : CutShort u v) {y : Print} (hy : y.Cut) : CutShort u (v.setPrint y) := ⟨h.doc, h.paper, h.scan, hy⟩

/-- R72: what a page's end leaves of the print stream. -/
theorem pagePrinted_print (s : State) (endMark : Bool) : ∃ loss, (s.pagePrinted endMark).print = { s.print with
    linesPrinted := 0, linesSlewed := 0, underruns := 0, marginLoss := loss } := by
  have hgather : ∀ y : Print, ∃ loss, y.gatherNext = { y with marginLoss := loss } := fun y => ⟨_, rfl⟩
  simp only [State.pagePrinted, State.setPrint_print, State.handEvent_print]
  exact hgather _

theorem CutShort.pagePrinted (h : CutShort u v) (endMark : Bool) : CutShort u (v.pagePrinted endMark) := by
  obtain ⟨loss, hprint⟩ := pagePrinted_print v endMark
  obtain ⟨ha, he, hc, hl⟩ := h.print
  exact ⟨by simp [h.doc], by simp [h.paper], by simp [h.scan], by rw [hprint]; exact ⟨ha, he, hc, hl⟩⟩

theorem scanRestart_of_running {s : State} (h : s.scan.st ≠ .stalled) : s.scanRestart = s := if_neg fun hs => h hs.1

theorem scanFreed_of_running {s : State} (h : s.scan.st ≠ .stalled) (r : RingId) : s.scanFreed r = s := by
  unfold State.scanFreed
  split
  · exact scanRestart_of_running h
  · rfl

theorem CutShort.releaseSlots (h : CutShort u v) (hst : u.scan.st ≠ .stalled) (r : RingId) (n : Nat) :
    CutShort u (v.releaseSlots r n) := by
  have hrunning : (v.releaseTake r n).scan.st ≠ .stalled := by rwa [State.releaseTake_scan, h.scan]
  rw [State.releaseSlots, scanFreed_of_running hrunning]
  exact ⟨by simp [h.doc], by simp [h.paper], by simp [h.scan], by simpa using h.print⟩

theorem CutShort.pageEnds (h : CutShort u v) : CutShort u v.pageEnds := by
  unfold State.pageEnds
  dsimp only
  rw [if_pos h.print.ending]
  exact h.pagePrinted true

theorem CutShort.feedEnd (h : CutShort u v) : CutShort u v.feedEnd := by
  have hprinted := h.pagePrinted true
  unfold State.feedEnd
  dsimp only
  rw [if_pos hprinted.print.ending]
  exact hprinted

theorem CutShort.slewEnd (h : CutShort u v) (hst : u.scan.st ≠ .stalled) (w : Slew) (n : Nat) (resumed : Bool) :
    CutShort u (v.slewEnd w n resumed) := by
  have hreleased := h.releaseSlots hst v.print.params.ring n
  have hslewed : CutShort u ((v.releaseSlots v.print.params.ring n).setPrint { (v.releaseSlots v.print.params.ring n).print with
      linesSlewed := satAdd 16383 (v.releaseSlots v.print.params.ring n).print.linesSlewed n, prevDark := true, slewing := none }) := by
    obtain ⟨ha, he, hc, hl⟩ := hreleased.print
    exact hreleased.setPrint ⟨ha, he, hc, hl⟩
  unfold State.slewEnd
  dsimp only
  split
  · exact hslewed.pageEnds
  · unfold State.itemFollow
    rw [if_pos hslewed.print.ending]
    exact hslewed

/-- R77, R78: the end of a PAPER move of a cut stream begins no other. -/
theorem CutShort.printMoveEnd (h : CutShort u v) (hst : u.scan.st ≠ .stalled) : CutShort u v.printMoveEnd := by
  obtain ⟨ha, he, hc, hl⟩ := h.print
  have hset : ∀ b : Bool, CutShort u (v.setPrint { v.print with owed := 0, interrupted := none, pendHot := b }) := fun b =>
    h.setPrint ⟨ha, he, hc, hl⟩
  have hset' : CutShort u (v.setPrint { v.print with owed := 0, interrupted := none }) := h.setPrint ⟨ha, he, hc, hl⟩
  have hcomplete : ∀ item, item ≠ .line → CutShort u (v.completeItem item false) := fun item hitem => by
    unfold State.completeItem
    dsimp only
    split
    · exact absurd rfl hitem
    · exact (hset _).slewEnd hst _ _ _
    · exact (hset _).feedEnd
    · exact absurd rfl hitem
    · exact hset _
  have hend : ∀ item n, item ≠ .line → CutShort u (v.endItem item n) := fun item n hitem => by
    unfold State.endItem
    dsimp only
    split
    · exact absurd rfl hitem
    · exact hset'.slewEnd hst _ _ _
    · exact hset'
    · exact hset'.feedEnd
  unfold State.printMoveEnd
  dsimp only
  split
  · exact h
  next item hitem =>
    have hline : item ≠ .line := by
      rintro rfl
      simp only [Print.movingItem, hl, Option.isSome_none, Bool.false_eq_true, if_false] at hitem
      split_ifs at hitem
      all_goals cases hitem
    rw [if_pos he]
    unfold State.endingMoveEnd
    dsimp only
    split
    · exact hcomplete item hline
    · rw [if_neg fun hboth => hline hboth.1]
      exact hend item _ hline

end

/-! ### Emergencies (R78, R88) -/

/-- What an emergency leaves: both channels at rest, no stalled scan stream, and the print stream off or cut. -/
structure State.Halted (s : State) : Prop where
  doc : s.doc.moving = false
  paper : s.paper.moving = false
  scan : s.scan.st ≠ .stalled
  print : s.print = {} ∨ s.print.Cut

/-- The scan stream as it was, or off. -/
def Scan.Left (x y : Scan) : Prop := y = x ∨ y = { x with st := .off }

theorem Scan.Left.trans {x y z : Scan} (h : x.Left y) (h' : y.Left z) : x.Left z := by
  obtain rfl | rfl := h
  · exact h'
  · exact .inr (h'.elim id id)

section
variable {s : State}

theorem scanTryOff_halted (h : s.Halted) : s.scanTryOff.Halted ∧ s.scan.Left s.scanTryOff.scan ∧ s.scanTryOff.print = s.print := by
  unfold State.scanTryOff
  split
  · exact ⟨⟨h.doc, h.paper, ScanState.noConfusion, h.print⟩, .inr rfl, rfl⟩
  · exact ⟨h, .inl rfl, rfl⟩

theorem reportEnd_halted (h : s.Halted) (ch : Chan) (cause : EndCause) :
    (s.reportEnd ch cause).Halted ∧ s.scan.Left (s.reportEnd ch cause).scan ∧ (s.print = {} ∨ (s.reportEnd ch cause).print.Cut) := by
  unfold State.reportEnd
  split
  · refine ⟨⟨?_, ?_, ?_, ?_⟩, .inl (by simp), ?_⟩
    · simpa using h.doc
    · simpa using h.paper
    · simpa using h.scan
    · simpa using h.print
    · simpa using h.print
  · rw [State.scanMoveEnd, scanRestart_of_running h.scan]
    obtain ⟨hhalted, hleft, hprint⟩ := scanTryOff_halted h
    exact ⟨hhalted, hleft, hprint ▸ h.print⟩
  · obtain hoff | hcut := h.print
    · have hsame : s.printMoveEnd = s := by
        simp only [State.printMoveEnd, hoff, Print.movingItem]
        rfl
      rw [hsame]
      exact ⟨h, .inl rfl, .inl hoff⟩
    · obtain ⟨hdoc, hpaper, hscan, hprint⟩ := CutShort.printMoveEnd (u := s) ⟨rfl, rfl, rfl, hcut⟩ h.scan
      exact ⟨⟨hdoc ▸ h.doc, hpaper ▸ h.paper, hscan ▸ h.scan, .inr hprint⟩, .inl hscan, .inr hprint⟩

end

/-! ### The cut of the scan stream -/

section
variable (s : State)

@[simp] theorem State.scanOff_docMoving : s.scanOff.doc.moving = s.doc.moving := rfl

@[simp] theorem State.stopMove_docMoving (ch : Chan) (cause : StopCause) : (s.stopMove ch cause).doc.moving = s.doc.moving := by
  cases ch
  · exact Channel.stop_moving ..
  · rfl

@[simp] theorem State.scanTryOff_docMoving : s.scanTryOff.doc.moving = s.doc.moving := by
  unfold State.scanTryOff
  split <;> rfl

@[simp] theorem State.scanPageEndComplete_docMoving : s.scanPageEndComplete.doc.moving = s.doc.moving := by
  simp [State.scanPageEndComplete]

@[simp] theorem State.scanPageEnd_docMoving (reason : ScanReason) : (s.scanPageEnd reason).doc.moving = s.doc.moving := by
  unfold State.scanPageEnd; dsimp only
  repeat' split
  all_goals simp

@[simp] theorem State.calCut_docMoving (reason : ScanReason) : (s.calCut reason).doc.moving = s.doc.moving := by
  unfold State.calCut State.calFinish; dsimp only
  repeat' split
  all_goals simp

@[simp] theorem State.scanCut_docMoving (reason : ScanReason) : (s.scanCut reason).doc.moving = s.doc.moving := by
  unfold State.scanCut
  split <;> simp

theorem scanTryOff_left : s.scan.Left s.scanTryOff.scan := by
  unfold State.scanTryOff
  split
  · exact .inr rfl
  · exact .inl rfl

/-- R44: a page that ends has its reason, and is ending until its cell is written. -/
theorem scanPageEnd_ended (reason : ScanReason) : (s.scanPageEnd reason).scan.endReason = some reason
    ∧ ((s.scanPageEnd reason).scan.st = .ending ∨ (s.scanPageEnd reason).scan.st = .off) := by
  have hleft : ∀ x y : Scan, x.endReason = some reason → x.st = .ending → x.Left y → y.endReason = some reason
      ∧ (y.st = .ending ∨ y.st = .off) := fun x y hr hst hxy => by
    obtain rfl | rfl := hxy
    · exact ⟨hr, .inl hst⟩
    · exact ⟨hr, .inr rfl⟩
  unfold State.scanPageEnd; dsimp only
  split
  · exact ⟨by simp, by simp⟩
  · split
    · unfold State.scanPageEndComplete; dsimp only
      refine hleft _ _ ?_ ?_ (scanTryOff_left _) <;> simp
    · exact ⟨by simp, by simp⟩

/-- R43, R78: a stream cut in its page ends with the cut's reason. -/
theorem scanCut_ended (reason : ScanReason)
    (h : s.scan.st = .waitEdge ∨ s.scan.st = .capture ∨ s.scan.st = .stalled ∨ s.scan.st = .trailing) :
    (s.scanCut reason).scan.endReason = some reason
      ∧ ((s.scanCut reason).scan.st = .ending ∨ (s.scanCut reason).scan.st = .off) := by
  unfold State.scanCut
  obtain h | h | h | h := h
  all_goals
    rw [h]
    exact scanPageEnd_ended _ reason

theorem scanCut_running (reason : ScanReason) : (s.scanCut reason).scan.st ≠ .stalled := by
  have hended : ∀ y : Scan, y.st = .ending ∨ y.st = .off → y.st ≠ .stalled := fun y hy hs => by
    rw [hs] at hy
    obtain hy | hy := hy <;> cases hy
  unfold State.scanCut
  split
  case h_5 hcal =>
    unfold State.calCut State.calFinish; dsimp only
    repeat' split
    all_goals simp [hcal, State.scanOff]
  case h_6 hst => rw [hst]; decide
  case h_7 hst => rw [hst]; decide
  all_goals exact hended _ (scanPageEnd_ended _ reason).2

end

/-- R78: what a cut that lets no phase run on leaves of the print stream. -/
theorem printCut_cut {s : State} {reason : PrintReason} (hreason : reason ≠ .aborted) (hoff : s.print.st = .off → s.print = {}) :
    (s.print.st = .off ∧ (s.printCut reason).print = {}) ∨ (s.printCut reason).print.Cut := by
  unfold State.printCut; dsimp only
  split
  next hnot =>
    have hst : s.print.st = .off := by simpa [Print.active] using hnot
    exact .inl ⟨hst, hoff hst⟩
  next hactive =>
    refine .inr ⟨?_, rfl, rfl, ?_⟩
    · have hst : s.print.noPending.dropPaused.st = s.print.st := by
        unfold Print.dropPaused
        split <;> rfl
      show s.print.noPending.dropPaused.st ≠ .off
      rw [hst]
      simpa [Print.active] using hactive
    · have hkeep : (s.print.firing && reason == .aborted) = false := by
        rw [Bool.and_eq_false_iff]
        exact .inr (beq_eq_false_iff_ne.mpr hreason)
      exact if_neg (by rw [hkeep]; decide)

/-- R78, R88: an emergency that lets no phase run on. -/
theorem emergencyStop_halted {s : State} (a : ScanReason) {b : PrintReason} (cause : EndCause) (hreason : b ≠ .aborted)
    (hoff : s.print.st = .off → s.print = {}) :
    (s.emergencyStop a b cause).Halted ∧ (s.emergencyHold.scanCut a).scan.Left (s.emergencyStop a b cause).scan
      ∧ (s.print.st ≠ .off → (s.emergencyStop a b cause).print.Cut) := by
  have hcut := printCut_cut (s := s.emergencyHold.scanCut a) hreason (by simpa [State.emergencyHold] using hoff)
  have hst : (s.emergencyHold.scanCut a).print = s.print := by simp [State.emergencyHold]
  rw [hst] at hcut
  have hhalted : ((s.emergencyHold.scanCut a).printCut b).Halted := by
    refine ⟨?_, ?_, ?_, hcut.imp And.right id⟩
    · simp [State.emergencyHold]
    · simp [State.emergencyHold]
    · simpa using scanCut_running s.emergencyHold a
  have hscan : ((s.emergencyHold.scanCut a).printCut b).scan = (s.emergencyHold.scanCut a).scan := by simp
  have hstep : ∀ (u : State) (report : Bool) (ch : Chan), u.Halted → (if report then u.reportEnd ch cause else u).Halted
      ∧ u.scan.Left (if report then u.reportEnd ch cause else u).scan
      ∧ (u.print.Cut → (if report then u.reportEnd ch cause else u).print.Cut) := fun u report ch hu => by
    cases report
    · exact ⟨hu, .inl rfl, id⟩
    · obtain ⟨h1, h2, h3⟩ := reportEnd_halted hu ch cause
      refine ⟨h1, h2, fun hc => h3.resolve_left fun hnone => ?_⟩
      have hending := hc.ending
      rw [hnone] at hending
      cases hending
  obtain ⟨hd, hdscan, hdprint⟩ := hstep _ s.doc.moving .doc hhalted
  obtain ⟨hp, hpscan, hpprint⟩ := hstep _ s.paper.moving .paper hd
  rw [hscan] at hdscan
  exact ⟨hp, hdscan.trans hpscan, fun hon => hpprint (hdprint (hcut.resolve_left fun hleft => hon hleft.1))⟩

/-! ### A clock failure (R149) -/

section
variable {s : State}

/-- R149: the state in which the emergency of a clock failure finds the part. -/
def State.failedClock (s : State) : State :=
  let u := s.setClk { s.clk with core := .fastRc, crystal := .stopped, pll := .stopped, settle := 0, failed := true }
  (if s.clk.sw.st != .none then u.switchFail .crystalLost else u).clockCell 0 .failed .monitor .crystalLost none

theorem clockFailure_eq (s : State) : s.clockFailure = s.failedClock.emergencyStop .clock .clock .clock := rfl

/-- R149: the failed clock, whichever switch was pending. -/
theorem failedClock_clk (s : State) : s.failedClock.clk = { s.clk with
    core := .fastRc, crystal := .stopped, pll := .stopped, settle := 0, failed := true
    sw := if s.clk.sw.st = .none then s.clk.sw else {} } := by
  have hcell : ∀ u : State, (u.clockCell 0 .failed .monitor .crystalLost none).clk = u.clk := fun u => by simp [State.clockCell]
  have hreport : ∀ (u : State) w r code, (u.reportSwitch w r code).clk = u.clk := fun u w r code => by simp
  unfold State.failedClock
  dsimp only
  rw [hcell]
  by_cases hst : s.clk.sw.st = .none
  · rw [if_pos hst, if_neg (by simp [hst])]
    rfl
  · rw [if_neg hst, if_pos (by simpa using hst), State.switchFail, hreport]
    rfl

theorem failedClock_streams (s : State) : s.failedClock.streams = s.streams := by
  unfold State.failedClock
  dsimp only
  split <;> simp

theorem switchComplete_eq (hst : s.clk.sw.st = .waitQuiet) {g : Source} (ht : s.clk.sw.target = some g) (hq : s.quiet = true) :
    exec .switchComplete s
      = .next (((s.setClk { s.clk.moveCore g with sw := {} }).liftHold).reportSwitch s.clk.sw .done .none) := by
  simp only [exec, execSwitchComplete, hst, ht]
  exact if_pos hq

theorem quiet_of (hdoc : s.doc.moving = false) (hpaper : s.paper.moving = false) (hfire : s.print.firing = false)
    (hconv : s.sense.converting = false) : s.quiet = true := by
  simp [State.quiet, Channel.atRest, hdoc, hpaper, hfire, hconv]

end

end Sys2Proof.Machine

namespace Sys2Proof.Proofs

open Sys2Proof Sys2Proof.Machine

/-- Settles O52: the ends of a switch by their rows, and a clock failure as the failed clock followed by the emergency of both
channels. -/
theorem switchEndRows : Obligations.SwitchEndRows := by
  intro s g o x lifted report failed
  have hreport : ∀ (u : State) (r : Result) (code : ClockCode), x.sw.target = some g → x.sw.origin = some o →
      u.reportSwitch x.sw r code = report u r (byte (clockCodeCode code)) := fun u r code ht ho => reportSwitch_eq ht ho r code
  have hlift : ∀ y : ClockPower, (s.setClk y).liftHold = (s.setClk y).setSense lifted := fun y => liftHold_eq _
  have hfail : ∀ (y z : ClockPower) (code : ClockCode), y.sw = x.sw → x.sw.target = some g → x.sw.origin = some o →
      y.stopUnneeded = z → (s.setClk y).switchFail code =
        report ((s.setClk { z with sw := {}, failed := y.failed || decide (o = .boot) }).setSense lifted) .failed
          (byte (clockCodeCode code)) := fun y z code hsw ht ho hz => by
    rw [switchFail_eq (s := s.setClk y) (o := o) ((congrArg Switch.origin hsw).trans ho), State.setClk_clk, hsw, hz,
      ← hreport _ _ _ ht ho, ← hlift]
    rfl
  refine ⟨fun ht ho => ⟨fun hst hg hdoc hpaper hfire hconv => ?_, fun hc hcore => ?_, fun hpll hcore => ?_, fun hm hcore hst hg => ?_⟩,
    fun hm hcore => ?_, fun hm hcore hoff => ?_⟩
  · intro y
    rw [switchComplete_eq hst ht (quiet_of hdoc hpaper hfire hconv), hlift, hreport _ _ _ ht ho]
    cases g with
    | slowRc => exact absurd rfl hg
    | crystal | crystalX2 | fastRc => rfl
  · refine (if_pos hc).trans (congrArg _ ?_)
    have hend := hfail { x with crystal := .stopped, settle := 0 } _ .crystalNoStart rfl ht ho (stopUnneeded_fastRc hcore)
    exact hend
  · refine (if_pos hpll).trans (congrArg _ ?_)
    obtain hcore | hcore := hcore
    · rw [if_pos hcore]
      have hend := hfail { x with pll := .stopped } _ .pllNoLock rfl ht ho (stopUnneeded_crystal hcore)
      exact hend
    · rw [if_neg (by rw [hcore]; decide)]
      have hend := hfail { x with pll := .stopped } _ .pllNoLock rfl ht ho (stopUnneeded_fastRc hcore)
      exact hend
  · have hwatch : s.monitorWatches = true := by
      obtain rfl | rfl := hg
      · simp [State.monitorWatches, hm, show s.clk.sw.st = .waitQuiet from hst, show s.clk.sw.target = some .crystal from ht]
      · simp [State.monitorWatches, hm, show s.clk.sw.st = .waitQuiet from hst, show s.clk.sw.target = some .crystalX2 from ht]
    refine (if_pos hwatch).trans ((if_neg ?_).trans (congrArg _ ?_))
    · rw [show s.clk.core = .fastRc from hcore]
      decide
    · have hend := hfail x _ .crystalLost rfl ht ho (stopUnneeded_fastRc hcore)
      exact hend
  · intro lost told
    rw [lossWindowExpiry_core hm hcore, clockFailure_eq]
    have htold : ∀ u : State, u.clk.core = .fastRc → u.clk.failed = true →
        u.clockCell 0 .failed .monitor .crystalLost none = u.handEvent .clock 0 .failed [3, 3, 0xFF, 2, 1] := fun u hu hf => by
      unfold State.clockCell
      rw [hu, hf]
      rfl
    refine ⟨fun hst => ?_, fun hst ht ho => ?_⟩
    · have hnone : (s.clk.sw.st != SwitchState.none) = false := bne_eq_false_iff_eq.mpr hst
      refine congrArg (fun u => Host.Outcome.next (State.emergencyStop u .clock .clock .clock)) ?_
      unfold State.failedClock
      dsimp only
      rw [if_neg (by rw [hnone]; decide)]
      exact htold _ rfl rfl
    · refine congrArg (fun u => Host.Outcome.next (State.emergencyStop u .clock .clock .clock)) ?_
      have hfailed : (s.setClk lost).switchFail .crystalLost
          = report ((s.setClk { lost with sw := {} }).setSense lifted) .failed 3 :=
        hfail lost _ _ rfl ht ho (stopUnneeded_fastRc rfl)
      have hclk : (report ((s.setClk { lost with sw := {} }).setSense lifted) .failed 3).clk = { lost with sw := {} } := by
        show (if o = .command then _ else _ : State).clk = _
        split <;> simp
      unfold State.failedClock
      dsimp only
      rw [if_pos (bne_iff_ne.mpr hst)]
      refine (congrArg (State.clockCell · 0 .failed .monitor .crystalLost none) hfailed).trans (htold _ ?_ ?_)
      · rw [hclk]
      · rw [hclk]
  · have hstreams := failedClock_streams s
    have hprint := print_of_streams hstreams
    have hscan := scan_of_streams hstreams
    obtain ⟨hhalted, hleft, hcut⟩ := emergencyStop_halted (s := s.failedClock) .clock (b := .clock) .clock (by decide)
      (by rwa [hprint])
    refine ⟨_, lossWindowExpiry_core hm hcore, ?_⟩
    rw [clockFailure_eq, State.emergencyStop_clk, failedClock_clk]
    refine ⟨rfl, rfl, rfl, rfl, rfl, ?_, rfl, hhalted.doc, hhalted.paper, ?_, fun hon => ?_, fun hpage => ?_, ?_⟩
    · dsimp only
      split
      · assumption
      · rfl
    · obtain hoff | hcut := hhalted.print
      · rw [hoff]
        rfl
      · simp [Print.firing, hcut.noLine]
    · exact (hcut (by rwa [hprint])).ending
    · have hended := scanCut_ended s.failedClock.emergencyHold .clock (by simpa [State.emergencyHold, hscan] using hpage)
      obtain hsame | hoff := hleft
      · rwa [hsame]
      · rw [hoff]
        exact ⟨hended.1, .inr rfl⟩
    · have hground : (s.failedClock.emergencyStop .clock .clock .clock).ground = s.ground := by
        rw [← clockFailure_eq, State.clockFailure_ground]
      exact congrArg Ground.mem hground

end Sys2Proof.Proofs
end

