-- ==== Sys2Proof/Proofs/ConversionRow.lean ====
section
/-! A conversion's reading, zone and zone change, and what the sweep does next (R103 to R111). -/

namespace Sys2Proof.Machine

open Sys2Proof

/-! ### The next position of a running sweep (R104, R111) -/

theorem nextPosition_all (q : Nat) (l : List Installed) : nextPosition false q l = if l = [] then none else some q := by
  cases l <;> rfl

/-- R104: a normal sweep goes on with the next entry of the list. -/
theorem nextPosition_drop (l : List Installed) (q : Nat) :
    nextPosition false q (l.drop q) = if q < l.length then some q else none := by
  rw [nextPosition_all]
  simp only [List.drop_eq_nil_iff]
  by_cases hq : q < l.length
  · rw [if_neg (Nat.not_le.mpr hq), if_pos hq]
  · rw [if_pos (Nat.not_lt.mp hq), if_neg hq]

section
variable {s : State}

theorem sweepFrom_normal (q : Nat) : s.sweepFrom false q =
    if q < s.sense.list.length then s.setSense { s.sense with sweep := .normal q, converting := !s.sense.hold }
    else s.normalSweepEnd := by
  unfold State.sweepFrom
  rw [nextPosition_drop]
  by_cases hq : q < s.sense.list.length
  · rw [if_pos hq, if_pos hq]
    rfl
  · rw [if_neg hq, if_neg hq]
    rfl

/-- R111: a standby sweep goes on with the next entry that has the wake flag. -/
theorem sweepFrom_standby {p q : Nat} {j : Installed} (hpq : p < q) (hj : s.sense.list[q]? = some j) (hwake : j.entry.wake = true)
    (hnone : ∀ k, p < k → k < q → ∀ j, s.sense.list[k]? = some j → j.entry.wake = false) :
    s.sweepFrom true (p + 1) = s.setSense { s.sense with sweep := .standby q, converting := !s.sense.hold } := by
  have hnext : nextPosition true (p + 1) (s.sense.list.drop (p + 1)) = some q := by
    have hfirst := nextPosition_of_first (l := s.sense.list.drop (p + 1)) (p := q - (p + 1)) (i := j)
      (by rw [List.getElem?_drop, show p + 1 + (q - (p + 1)) = q by omega]; exact hj) hwake
      (fun k hk i hi => by
        rw [List.getElem?_drop] at hi
        exact hnone (p + 1 + k) (by omega) (by omega) i hi) (p + 1)
    rw [hfirst]
    congr 1
    omega
  unfold State.sweepFrom
  rw [hnext]
  rfl

theorem sweepFrom_standby_end {p : Nat} (hnone : ∀ k, p < k → ∀ j, s.sense.list[k]? = some j → j.entry.wake = false) :
    s.sweepFrom true (p + 1) = s.standbySweepEnd := by
  have hnext : nextPosition true (p + 1) (s.sense.list.drop (p + 1)) = none := by
    refine nextPosition_of_none (fun j hj => ?_) (p + 1)
    obtain ⟨k, hk⟩ := List.mem_iff_getElem?.mp hj
    rw [List.getElem?_drop] at hk
    exact hnone (p + 1 + k) (by omega) j hk
  unfold State.sweepFrom
  rw [hnext]
  rfl

end

/-! ### A zone change leaves the list (R106) -/

section
variable {s : State}

theorem zoneToBlocks_sense (role : Role) (zone : Zone) : (s.zoneToBlocks role zone).sense = s.sense := by
  unfold State.zoneToBlocks
  split <;> simp

theorem beginLeaving_list : s.beginLeaving.sense.list = s.sense.list := by
  unfold State.beginLeaving State.leaveOnFastRc; dsimp only
  split <;> simp

theorem finishAbandon_list : s.finishAbandon.sense.list = s.sense.list := by
  unfold State.finishAbandon; dsimp only
  split
  · rfl
  · simp [State.startPeriod, State.undoRelease, State.wakeCell]

theorem abandonEntry_list : s.abandonEntry.sense.list = s.sense.list := by
  unfold State.abandonEntry
  repeat' split
  all_goals simp [finishAbandon_list]

theorem wake_list (cause : WakeCause) : (s.wake cause).sense.list = s.sense.list := by
  unfold State.wake
  repeat' split
  all_goals simp [beginLeaving_list, abandonEntry_list, State.wakeCell]

/-- R106, R107: what a zone change hands, by what a first setting does. -/
theorem zoneChange_eq (standbySweep : Bool) (position : Nat) (e : SenseEntry) (before after : Zone) (reading : Nat) :
    s.zoneChange standbySweep position e before after reading =
      if before = .unknown then (if standbySweep then s else s.zoneToBlocks e.role after)
      else
        let u := (if e.report = true ∧ s.clk.power ≠ .standby then s.handEvent .sense 0 .done
            [byte position, byte (roleCode e.role), byte e.channel, byte (zoneCode before), byte (zoneCode after), byte reading]
          else s).zoneToBlocks e.role after
        if e.wake = true then u.wake (.sense position after) else u := rfl

theorem zoneChange_list (standbySweep : Bool) (position : Nat) (e : SenseEntry) (before after : Zone) (reading : Nat) :
    (s.zoneChange standbySweep position e before after reading).sense.list = s.sense.list := by
  rw [zoneChange_eq]
  dsimp only
  repeat' split
  all_goals simp [zoneToBlocks_sense, wake_list]

/-! ### The row -/

/-- R102, R103, R105: the state with a converted entry stored. -/
def State.stored (s : State) (p : Nat) (j : Installed) : State :=
  s.setSense { s.sense with list := s.sense.list.set p j, converting := false }

/-- R105, R106: what a conversion stores and hands. -/
def State.converted (s : State) (standbySweep : Bool) (p : Nat) (i j : Installed) : State :=
  if i.zone = j.zone then s.stored p j else (s.stored p j).zoneChange standbySweep p i.entry i.zone j.zone j.reading

theorem converted_list (standbySweep : Bool) (p : Nat) (i j : Installed) :
    (s.converted standbySweep p i j).sense.list = s.sense.list.set p j := by
  unfold State.converted
  split
  · rfl
  · exact zoneChange_list ..

theorem convertEntry_eq {p : Nat} {i : Installed} (hi : s.sense.list[p]? = some i) (standbySweep : Bool) (raw : Nat) :
    (s.setSense { s.sense with converting := false }).convertEntry standbySweep p raw = s.converted standbySweep p i (i.convert raw) := by
  simp only [State.convertEntry, State.setSense_sense, hi, State.converted, eq_comm (a := (i.convert raw).zone)]
  rfl

theorem conversionComplete_normal {raw : Byte} {p : Nat} {i : Installed} (hc : s.sense.converting = true)
    (hsweep : s.sense.sweep = .normal p) (hi : s.sense.list[p]? = some i) :
    exec (.conversionComplete raw) s = .next ((s.converted false p i (i.convert raw.toNat)).sweepFrom false (p + 1)) := by
  rw [← convertEntry_eq hi]
  refine (if_pos hc).trans ?_
  simp only [hsweep]

theorem conversionComplete_standby {raw : Byte} {p : Nat} {i : Installed} (hc : s.sense.converting = true)
    (hsweep : s.sense.sweep = .standby p) (hi : s.sense.list[p]? = some i) :
    exec (.conversionComplete raw) s = .next ((s.converted true p i (i.convert raw.toNat)).sweepFrom true (p + 1)) := by
  rw [← convertEntry_eq hi]
  refine (if_pos hc).trans ?_
  simp only [hsweep]

theorem conversionComplete_abandoned {raw : Byte} (hc : s.sense.converting = true) (hsweep : s.sense.sweep = .none) :
    exec (.conversionComplete raw) s = .next (s.setSense { s.sense with converting := false }) := by
  refine (if_pos hc).trans ?_
  simp only [hsweep]

/-! ### Ends of sweeps (R104, R109, R111) -/

theorem sweepStart_eq (s : State) : s.sweepStart =
    if s.sense.install.list = [] then (s.setSense { s.sense.install with sweep := .none }).snapshotDue
    else s.setSense { s.sense.install with sweep := .normal 0, converting := !s.sense.install.hold } := by
  by_cases hnil : s.sense.install.list = []
  · rw [if_pos hnil, sweepStart_nil hnil]
  · obtain ⟨e, rest, hcons⟩ := List.exists_cons_of_ne_nil hnil
    rw [if_neg hnil, sweepStart_cons hcons]

theorem sweepEnded_eq (s : State) : s.sweepEnded =
    if s.sense.owed then (s.setSense { s.sense with sweep := .none, owed := false }).sweepStart
    else s.setSense { s.sense with sweep := .none } := rfl

/-! ### Cuts and emergencies (R78, R88) -/

theorem printCut_eq (s : State) (reason : PrintReason) : s.printCut reason = if s.print.st = .off then s else s.setPrint { s.print with
    pendPaper := false, pendCommand := false, pendHot := false, ending := some (s.print.ending.getD reason), cut := true
    owed := 0, interrupted := none
    headLine := if s.print.firing = true ∧ reason = .aborted then s.print.headLine else none
    cool := if s.print.firing = true ∧ reason ≠ .aborted then 0 else s.print.cool
    slew := none, slewing := if s.print.st = .paused then none else s.print.slewing } := by
  unfold State.printCut
  dsimp only
  by_cases hoff : s.print.st = .off
  · rw [if_pos hoff, if_pos (by simp [Print.active, hoff])]
  · rw [if_neg hoff, if_neg (by simp [Print.active, hoff])]
    refine congrArg s.setPrint ?_
    have hkeep : (s.print.firing && reason == .aborted) = decide (s.print.firing = true ∧ reason = .aborted) := by
      cases s.print.firing <;> cases reason <;> rfl
    have hcool : (s.print.firing && !(s.print.firing && reason == .aborted)) = decide (s.print.firing = true ∧ reason ≠ .aborted) := by
      cases s.print.firing <;> cases reason <;> rfl
    rw [hcool, hkeep]
    simp only [decide_eq_true_eq]
    by_cases hpaused : s.print.st = .paused
    · have hdrop : s.print.noPending.dropPaused = { s.print.noPending with
          owed := 0, interrupted := none, slew := none, slewing := none, cut := true
          headLine := if s.print.firing then s.print.headLine else none } := if_pos hpaused
      rw [hdrop, if_pos hpaused]
      rfl
    · have hdrop : s.print.noPending.dropPaused = s.print.noPending := if_neg hpaused
      rw [hdrop, if_neg hpaused]
      rfl

theorem reportEnd_eq (s : State) (ch : Chan) {cause : EndCause} (hcause : cause ≠ .complete) : s.reportEnd ch cause =
    match (s.chan ch).requester with
    | .host => (s.handEvent .moveEnd (s.chan ch).tag .done
        ([byte (chanCode ch), byte (endCauseCode cause), byte (s.chan ch).pattern.val] ++ twoBytes ((s.chan ch).requested.getD 0)
          ++ twoBytes (s.chan ch).taken)).handDone (s.chan ch).tag 11 .aborted
            (twoBytes (s.chan ch).taken ++ [byte (endCauseCode cause)])
    | .scan => s.scanRestart.scanTryOff
    | .print => s.printMoveEnd := by
  have hresult : moveResult cause = .aborted := by cases cause <;> first | rfl | exact absurd rfl hcause
  unfold State.reportEnd State.reportHostEnd
  rw [hresult]
  cases (s.chan ch).requester <;> rfl

end

end Sys2Proof.Machine

namespace Sys2Proof.Proofs

open Sys2Proof Sys2Proof.Machine

/-- Settles O48: the entry's conversion, then the sweep's next position or its end. -/
theorem conversionRow : Obligations.ConversionRow := by
  intro s raw p i x lo hi h r plain zone t handed begins ended
  have hconvert : i.convert raw.toNat = { i with reading := r, zone := zone } := by
    have hzone : i.entry.nextZone i.zone r = zone := by
      unfold SenseEntry.nextZone
      show _ = (match i.zone with | .unknown => plain | .mid => plain | .low => _ | .high => _)
      cases i.zone <;> rfl
    show { i with reading := r, zone := i.entry.nextZone i.zone r } = _
    rw [hzone]
  have hconverted : ∀ standbySweep, s.converted standbySweep p i (i.convert raw.toNat)
      = handed (if standbySweep then t else t.zoneToBlocks i.entry.role zone) := fun standbySweep => by
    rw [hconvert, State.converted, zoneChange_eq]
    cases standbySweep <;> rfl
  have hbegins : ∀ u : State, u.sweepStart = begins u := sweepStart_eq
  have hended : ∀ u : State, u.sweepEnded = ended u := fun u => by
    rw [sweepEnded_eq, hbegins]
  refine ⟨fun hc hsweep hi => ?_, fun hc hsweep hi => ⟨fun q j hpq hnone hj hwake => ?_, fun hnone => ?_⟩,
    fun hc hsweep => conversionComplete_abandoned hc hsweep, rfl, fun reason => printCut_eq s reason, fun a b cause hcause => ?_⟩
  · rw [conversionComplete_normal hc hsweep hi, sweepFrom_normal, converted_list, List.length_set, hconverted]
    exact congrArg _ (if_congr Iff.rfl rfl (hended _))
  · refine (conversionComplete_standby hc hsweep hi).trans (congrArg _ ?_)
    have hlist := converted_list (s := s) true p i (i.convert raw.toNat)
    have hother : ∀ k, p < k → (s.sense.list.set p (i.convert raw.toNat))[k]? = s.sense.list[k]? := fun k hk =>
      List.getElem?_set_ne (Nat.ne_of_lt hk)
    rw [sweepFrom_standby hpq (by rw [hlist, hother q hpq]; exact hj) hwake fun k hk hkq j hj =>
      hnone k hk hkq j (by rwa [hlist, hother k hk] at hj), hconverted]
    rfl
  · refine (conversionComplete_standby hc hsweep hi).trans (congrArg _ ?_)
    have hlist := converted_list (s := s) true p i (i.convert raw.toNat)
    have hother : ∀ k, p < k → (s.sense.list.set p (i.convert raw.toNat))[k]? = s.sense.list[k]? := fun k hk =>
      List.getElem?_set_ne (Nat.ne_of_lt hk)
    rw [sweepFrom_standby_end fun k hk j hj => hnone k hk j (by rwa [hlist, hother k hk] at hj), hconverted]
    exact hended _
  · intro stop told u v
    have htold : ∀ ch (w : State), w.reportEnd ch cause = told ch w := fun ch w => reportEnd_eq w ch hcause
    show (if s.paper.moving = true then State.reportEnd (if s.doc.moving = true then u.reportEnd .doc cause else u) .paper cause
      else (if s.doc.moving = true then u.reportEnd .doc cause else u)) = _
    rw [htold, htold]

end Sys2Proof.Proofs
end

