-- ==== Sys2Proof/Proofs/StartPrint.lean ====
section
/-! START PRINT: its checks in order, and the stream an accepted one begins (R53, R54). -/

namespace Sys2Proof.Machine

open Sys2Proof

theorem stepsPerLineOk_iff (k : Nat) : stepsPerLineOk k = true ↔ k = 1 ∨ k = 2 ∨ k = 4 := by
  simp [stepsPerLineOk, or_assoc]

theorem startRefused_iff (s : State) : s.startRefused = true ↔ s.clk.power = .entering ∨ s.cells.stopAll.isSome = true := by
  simp [State.startRefused]

theorem printArgsOk_iff (headWidth k threshold trailing : Nat) : printArgsOk headWidth k threshold trailing = true ↔
    32 ≤ headWidth ∧ headWidth ≤ 2048 ∧ headWidth % 32 = 0 ∧ (k = 1 ∨ k = 2 ∨ k = 4) ∧ 2 ≤ threshold ∧ threshold ≤ 32
      ∧ trailing ≤ 1023 := by
  simp [printArgsOk, stepsPerLineOk_iff, and_assoc]

theorem printZonesGood_eq_false (s : State) : (¬s.printZonesGood = true) ↔ s.zone .headTemp = some .unknown
    ∨ s.zone .paper = some .unknown ∨ s.zone .paper = some .low ∨ s.zone .cover = some .high ∨ s.zone .supply = some .low := by
  simp only [State.printZonesGood, Bool.and_eq_true, bne_iff_ne, ne_eq, not_and_or, not_not, coverAndSupplyGood_eq_false, or_assoc]

section
variable {s : State} {tag ring k profile threshold : Byte} {headWidth shift budget trailing : Half}

theorem startPrint_given_refused {r : Result}
    (h : s.checkStartPrint ring k profile threshold headWidth shift budget trailing = .error r) :
    exec (.startPrint tag ring k profile threshold headWidth shift budget trailing)
      (s.given (.startPrint tag ring k profile threshold headWidth shift budget trailing)) = .next (s.handDone tag 5 r) := by
  simp only [exec, execStartPrint, claimCommand_given, h]

theorem startPrint_given_accepted {p : PrintParams}
    (h : s.checkStartPrint ring k profile threshold headWidth shift budget trailing = .ok p) :
    exec (.startPrint tag ring k profile threshold headWidth shift budget trailing)
      (s.given (.startPrint tag ring k profile threshold headWidth shift budget trailing))
        = .next ((s.handDone tag 5 .done).beginPrint p) := by
  simp only [exec, execStartPrint, claimCommand_given, h]

theorem checkStartPrint_busy (h : s.clk.power = .entering ∨ s.cells.stopAll.isSome = true ∨ s.print.st ≠ .off) :
    s.checkStartPrint ring k profile threshold headWidth shift budget trailing = .error .busy := by
  unfold State.checkStartPrint
  by_cases hrefused : s.startRefused = true
  · rw [if_pos hrefused]
  · rw [startRefused_iff, not_or] at hrefused
    obtain h | h | h := h
    · exact absurd h hrefused.1
    · exact absurd h hrefused.2
    · rw [if_neg (by rwa [startRefused_iff, not_or]), if_pos (by simpa [Print.active] using h)]

section
variable (hp : s.clk.power ≠ .entering) (hstop : s.cells.stopAll = none) (hoff : s.print.st = .off)
include hp hstop hoff

/-- R53: the checks after BUSY. -/
theorem checkStartPrint_open : s.checkStartPrint ring k profile threshold headWidth shift budget trailing =
    (match profileOf profile.toNat with
      | none => .error .badArg
      | some p =>
        if ¬printArgsOk headWidth.toNat k.toNat threshold.toNat trailing.toNat then .error .badArg
        else
          match ringOf ring with
          | none => .error .badArg
          | some r =>
            if (s.ring r).desc = none then .error .notReady
            else if s.profile p = [] then .error .notReady
            else if s.tables.heat = none then .error .notReady
            else if ¬s.printZonesGood then .error .notReady
            else if s.paper.moving then .error .busy
            else
              match s.attachConsumerCheck r .print with
              | some e => .error e
              | none => .ok { ring := r, headWidth := headWidth.toNat, k := k.toNat, shift := clampShift shift.toInt,
                              budget := clampBudget budget.toNat, profile := p, threshold := threshold.toNat,
                              trailing := trailing.toNat }) := by
  unfold State.checkStartPrint
  exact (if_neg (by rw [startRefused_iff, not_or]; exact ⟨hp, by simp [hstop]⟩)).trans (if_neg (by simp [Print.active, hoff]))

theorem checkStartPrint_badArg (hbad : ¬(32 ≤ headWidth.toNat ∧ headWidth.toNat ≤ 2048 ∧ headWidth.toNat % 32 = 0
      ∧ (k.toNat = 1 ∨ k.toNat = 2 ∨ k.toNat = 4) ∧ profile.toNat ≤ 7 ∧ 2 ≤ threshold.toNat ∧ threshold.toNat ≤ 32
      ∧ trailing.toNat ≤ 1023 ∧ ring.toNat ≤ 3)) :
    s.checkStartPrint ring k profile threshold headWidth shift budget trailing = .error .badArg := by
  rw [checkStartPrint_open hp hstop hoff]
  by_cases hprofile : 8 ≤ profile.toNat
  · rw [profileOf_of_eight_le hprofile]
  · obtain ⟨p, hpr⟩ : ∃ p, profileOf profile.toNat = some p := ⟨_, profileOf_eq_some (p := ⟨profile.toNat, by omega⟩) rfl⟩
    simp only [hpr]
    by_cases hargs : printArgsOk headWidth.toNat k.toNat threshold.toNat trailing.toNat = true
    · obtain ⟨hw, hw', hm, hk, ht, ht', htr⟩ := (printArgsOk_iff ..).mp hargs
      have hring : 4 ≤ ring.toNat := by
        by_contra hring
        exact hbad ⟨hw, hw', hm, hk, by omega, ht, ht', htr, by omega⟩
      rw [if_neg (not_not.mpr hargs), ringOf_of_four_le hring]
    · rw [if_pos hargs]

variable {r : RingId} {p : Fin 8} (hargs : printArgsOk headWidth.toNat k.toNat threshold.toNat trailing.toNat = true)
  (hr : r.val = ring.toNat) (hpr : p.val = profile.toNat)
include hargs hr hpr

theorem checkStartPrint_undefined (hd : (s.ring r).desc = none) :
    s.checkStartPrint ring k profile threshold headWidth shift budget trailing = .error .notReady := by
  rw [checkStartPrint_open hp hstop hoff, profileOf_eq_some hpr, ringOf_eq_some hr]
  exact (if_neg (not_not.mpr hargs)).trans (if_pos hd)

theorem checkStartPrint_defined {d : RingDesc} (hd : (s.ring r).desc = some d) :
    s.checkStartPrint ring k profile threshold headWidth shift budget trailing =
      if s.profile p = [] ∨ s.tables.heat = none ∨ s.zone .headTemp = some .unknown ∨ s.zone .paper = some .unknown
          ∨ s.zone .paper = some .low ∨ s.zone .cover = some .high ∨ s.zone .supply = some .low then .error .notReady
      else if s.paper.moving then .error .busy
      else if d.consumer ≠ .print then .error .badArg
      else if (s.ring r).consAttached then .error .inUse
      else .ok { ring := r, headWidth := headWidth.toNat, k := k.toNat, shift := clampShift shift.toInt
                 budget := clampBudget budget.toNat, profile := p, threshold := threshold.toNat, trailing := trailing.toNat } := by
  rw [checkStartPrint_open hp hstop hoff, profileOf_eq_some hpr, ringOf_eq_some hr]
  refine (if_neg (not_not.mpr hargs)).trans ((if_neg (by rw [hd]; exact Option.some_ne_none d)).trans ?_)
  simp only [printZonesGood_eq_false, State.attachConsumerCheck, hd]
  by_cases hprofile : s.profile p = []
  · rw [if_pos hprofile, if_pos (.inl hprofile)]
  · rw [if_neg hprofile]
    by_cases hheat : s.tables.heat = none
    · rw [if_pos hheat, if_pos (.inr (.inl hheat))]
    · rw [if_neg hheat]
      simp only [hprofile, hheat, false_or]
      split_ifs <;> rfl

end

end

end Sys2Proof.Machine

namespace Sys2Proof.Proofs

open Sys2Proof Sys2Proof.Machine

/-- Settles O38: the results are the answers of `checkStartPrint`, branch by branch. -/
theorem startPrintRow : Obligations.StartPrintRow := by
  intro s tag ring k profile threshold headWidth shift budget trailing i argsGood
  refine ⟨fun h => startPrint_given_refused (checkStartPrint_busy h), fun hp hstop hoff => ⟨fun hbad => ?_, fun r p hgood hr hpr => ?_⟩⟩
  · exact startPrint_given_refused (checkStartPrint_badArg hp hstop hoff hbad)
  · obtain ⟨hw, hw', hm, hk, -, ht, ht', htr, -⟩ := hgood
    have hargs := (printArgsOk_iff ..).mpr ⟨hw, hw', hm, hk, ht, ht', htr⟩
    refine ⟨fun hd => startPrint_given_refused (checkStartPrint_undefined hp hstop hoff hargs hr hpr hd), fun d hd => ?_⟩
    have hcheck := checkStartPrint_defined (shift := shift) (budget := budget) hp hstop hoff hargs hr hpr hd
    split_ifs at hcheck ⊢
    · exact startPrint_given_refused hcheck
    · exact startPrint_given_refused hcheck
    · exact startPrint_given_refused hcheck
    · exact startPrint_given_refused hcheck
    · refine (startPrint_given_accepted hcheck).trans (congrArg _ ?_)
      have hring : (s.handDone tag 5 .done).ring r = s.ring r := by simp
      have hpaper : (s.handDone tag 5 .done).paper = s.paper := by simp
      show (((s.handDone tag 5 .done).setPrint _).setRing r { (s.handDone tag 5 .done).ring r with consAttached := true }).setPaper
        { (s.handDone tag 5 .done).paper with owner := .print } = _
      rw [hring, hpaper]
      rfl

end Sys2Proof.Proofs
end

