-- ==== Sys2Proof/Proofs/StartScan.lean ====
section
/-! START SCAN: its checks in order, and the stream an accepted one begins (R26 to R28). -/

namespace Sys2Proof.Machine

open Sys2Proof

theorem lineModeOf_of_two_le {n : Nat} (h : 2 ≤ n) : lineModeOf n = none := by
  match n with
  | _ + 2 => rfl

theorem zone_eq_none_iff (s : State) (role : Role) : s.zone role = none ↔ (s.sense.roleEntry role).isNone = true := by
  simp [State.zone]

/-- R26: the fields of a START SCAN that are checked before its ring. -/
structure ScanFields where
  ring : Byte
  mode : BitVec 4
  start : BitVec 4
  k : BitVec 4
  profile : BitVec 4
  theta : Byte
  skip : Byte
  trailing : Byte
  width : Half
  pageLimit : Half
  feedLimit : Half
  stopMargin : Byte
  restartMargin : Byte

/-- R26: the command of the fields. -/
def ScanFields.command (f : ScanFields) (tag : Byte) : Instr :=
  .startScan tag f.ring f.mode f.start f.k f.profile f.theta f.skip f.trailing f.width f.pageLimit f.feedLimit f.stopMargin
    f.restartMargin

/-- R26: the ranges of the fields. -/
abbrev ScanFields.inRange (f : ScanFields) : Prop :=
  stepsPerLineOk f.k.toNat = true ∧ f.start.toNat ≤ 1 ∧ 1 ≤ f.pageLimit.toNat ∧ f.pageLimit.toNat ≤ 16383 ∧ 1 ≤ f.feedLimit.toNat

/-- R27, R47: the parameters an accepted START SCAN takes. -/
def ScanFields.params (f : ScanFields) (r : RingId) (d : RingDesc) (m : ScanMode) (p : Fin 8) : ScanParams :=
  let stop := clampStop d.slots f.stopMargin.toNat
  { ring := r, mode := m, k := f.k.toNat, profile := p, theta := f.theta.toNat, skip := f.skip.toNat
    trailing := f.trailing.toNat, width := roundWidth f.width.toNat, pageLimit := f.pageLimit.toNat
    feedLimit := f.feedLimit.toNat, stopMargin := stop, restartMargin := clampRestart d.slots stop f.restartMargin.toNat }

section
variable {s : State} {f : ScanFields}

/-- The answer of the checks to the fields. -/
def State.checkFields (s : State) (f : ScanFields) : Except Result (ScanParams × Bool) :=
  s.checkStartScan f.ring f.mode f.start f.k f.profile f.theta f.skip f.trailing f.width f.pageLimit f.feedLimit f.stopMargin
    f.restartMargin

theorem startScan_given_refused {r : Result} (h : s.checkFields f = .error r) (tag : Byte) :
    exec (f.command tag) (s.given (f.command tag)) = .next (s.handDone tag 3 r) := by
  unfold State.checkFields at h
  simp only [ScanFields.command, exec, execStartScan, claimCommand_given, h]

theorem startScan_given_accepted {p : ScanParams} {edge : Bool} (h : s.checkFields f = .ok (p, edge)) (tag : Byte) :
    exec (f.command tag) (s.given (f.command tag)) = .next ((s.handDone tag 3 .done).beginScan p edge) := by
  unfold State.checkFields at h
  simp only [ScanFields.command, exec, execStartScan, claimCommand_given, h]

theorem checkFields_busy (h : s.clk.power = .entering ∨ s.cells.stopAll.isSome = true ∨ s.scan.st ≠ .off) :
    s.checkFields f = .error .busy := by
  unfold State.checkFields State.checkStartScan
  by_cases hrefused : s.startRefused = true
  · rw [if_pos hrefused]
  · rw [startRefused_iff, not_or] at hrefused
    obtain h | h | h := h
    · exact absurd h hrefused.1
    · exact absurd h hrefused.2
    · rw [if_neg (by rwa [startRefused_iff, not_or]), if_pos (by simpa [Scan.active] using h)]

section
variable (hp : s.clk.power ≠ .entering) (hstop : s.cells.stopAll = none) (hoff : s.scan.st = .off)
include hp hstop hoff

theorem checkFields_open : s.checkFields f = (match lineModeOf f.mode.toNat, profileOf f.profile.toNat with
      | some m, some p =>
        if ¬f.inRange then .error .badArg
        else if 2048 < roundWidth f.width.toNat then .error .badArg
        else
          match ringOf f.ring with
          | none => .error .badArg
          | some r =>
            match (s.ring r).desc with
            | none => .error .notReady
            | some d =>
              if roundWidth f.width.toNat ≠ d.words * 32 then .error .badArg
              else if s.profile p = [] then .error .notReady
              else if ¬s.coverAndSupplyGood then .error .notReady
              else if f.start.toNat = 0 ∧ ((s.sense.roleEntry .docEdge).isNone ∨ s.zone .docPresent ≠ some .high) then
                .error .notReady
              else if s.doc.moving then .error .busy
              else
                match s.attachProducerCheck r .scan with
                | some e => .error e
                | none => .ok (f.params r d m p, decide (f.start.toNat = 0))
      | _, _ => .error .badArg) := by
  unfold State.checkFields State.checkStartScan
  exact (if_neg (by rw [startRefused_iff, not_or]; exact ⟨hp, by simp [hstop]⟩)).trans (if_neg (by simp [Scan.active, hoff]))

theorem checkFields_badArg (hbad : 2 ≤ f.mode.toNat ∨ 8 ≤ f.profile.toNat ∨ ¬f.inRange ∨ 2048 < roundWidth f.width.toNat
    ∨ 4 ≤ f.ring.toNat) : s.checkFields f = .error .badArg := by
  rw [checkFields_open hp hstop hoff]
  by_cases hmode : 2 ≤ f.mode.toNat
  · rw [lineModeOf_of_two_le hmode]
  by_cases hprofile : 8 ≤ f.profile.toNat
  · rw [profileOf_of_eight_le hprofile]
    cases lineModeOf f.mode.toNat <;> rfl
  cases lineModeOf f.mode.toNat with
  | none => rfl
  | some m =>
    rw [profileOf_eq_some (p := ⟨f.profile.toNat, by omega⟩) rfl]
    by_cases hrange : f.inRange
    · by_cases hwidth : 2048 < roundWidth f.width.toNat
      · exact (if_neg (not_not.mpr hrange)).trans (if_pos hwidth)
      · have hring : 4 ≤ f.ring.toNat := by
          obtain h | h | h | h | h := hbad
          · exact absurd h hmode
          · exact absurd h hprofile
          · exact absurd hrange h
          · exact absurd h hwidth
          · exact h
        rw [ringOf_of_four_le hring]
        exact (if_neg (not_not.mpr hrange)).trans (if_neg hwidth)
    · exact if_pos hrange

variable {m : ScanMode} {p : Fin 8} {r : RingId} (hm : lineModeOf f.mode.toNat = some m) (hpr : p.val = f.profile.toNat)
  (hrange : f.inRange) (hwidth : roundWidth f.width.toNat ≤ 2048) (hr : r.val = f.ring.toNat)
include hm hpr hrange hwidth hr

theorem checkFields_undefined (hd : (s.ring r).desc = none) : s.checkFields f = .error .notReady := by
  rw [checkFields_open hp hstop hoff, hm, profileOf_eq_some hpr, ringOf_eq_some hr]
  refine (if_neg (not_not.mpr hrange)).trans ((if_neg (Nat.not_lt.mpr hwidth)).trans ?_)
  simp only [hd]

theorem checkFields_defined {d : RingDesc} (hd : (s.ring r).desc = some d) : s.checkFields f =
    if roundWidth f.width.toNat ≠ d.words * 32 then .error .badArg
    else if s.profile p = [] then .error .notReady
    else if s.zone .cover = some .high ∨ s.zone .supply = some .low then .error .notReady
    else if f.start.toNat = 0 ∧ (s.zone .docEdge = none ∨ s.zone .docPresent ≠ some .high) then .error .notReady
    else if s.doc.moving then .error .busy
    else if d.producer ≠ .scan then .error .badArg
    else if (s.ring r).prodAttached then .error .inUse
    else .ok (f.params r d m p, decide (f.start.toNat = 0)) := by
  have hattach : s.attachProducerCheck r .scan = if d.producer ≠ .scan then some .badArg
      else if (s.ring r).prodAttached then some .inUse else none := by
    simp only [State.attachProducerCheck, hd]
  rw [checkFields_open hp hstop hoff, hm, profileOf_eq_some hpr, ringOf_eq_some hr]
  refine (if_neg (not_not.mpr hrange)).trans ((if_neg (Nat.not_lt.mpr hwidth)).trans ?_)
  simp only [hd, hattach, coverAndSupplyGood_eq_false, zone_eq_none_iff]
  split_ifs <;> rfl

end

/-! ### The beginning (R27, R28) -/

/-- R27: the state of an accepted START SCAN before capture starts. -/
def State.scanBegun (s : State) (p : ScanParams) : State :=
  ((s.setScan { st := .waitEdge, params := p, skipRemaining := p.skip, trailingRemaining := p.trailing }).setRing p.ring
    { s.ring p.ring with prodAttached := true }).setDoc
    { s.doc with
      owner := .scan, st := .run, requester := .scan, direction := .forward, profile := p.profile, requested := none
      remaining := none, ramp := 0, taken := 0, stopCause := none, tag := 0
      timer := some ((s.profile p.profile).getD 0 0) }

theorem beginScan_eq (hdoc : s.doc.moving = false) (p : ScanParams) (edge : Bool) : s.beginScan p edge =
    if edge = true ∧ s.zone .docEdge ≠ some .high then s.scanBegun p
    else ((s.scanBegun p).setScan { (s.scanBegun p).scan with st := .capture }).scanCheckMargin := by
  have hmove : ∀ u : State, u.doc = s.doc → u.tables = s.tables →
      (u.setDoc { u.doc with owner := .scan }).startMove .doc .scan .forward p.profile none = u.setDoc { s.doc with
        owner := .scan, st := .run, requester := .scan, direction := .forward, profile := p.profile, requested := none
        remaining := none, ramp := 0, taken := 0, stopCause := none, tag := 0
        timer := some ((s.profile p.profile).getD 0 0) } := fun u hu ht => by
    have hrest : ((u.setDoc { u.doc with owner := .scan }).chan .doc).moving = false := by
      show ({ u.doc with owner := .scan } : Channel).moving = false
      rw [hu]
      exact hdoc
    have htables : (u.setDoc { u.doc with owner := .scan }).profile p.profile = s.profile p.profile := by
      show u.tables.profiles.getD _ _ = s.tables.profiles.getD _ _
      rw [ht]
    unfold State.startMove
    rw [Channel.start_of_atRest hrest, htables, ← hu]
    rfl
  refine (congrArg (fun v : State => if edge then (if v.zone .docEdge = some .high then v.startCapture else v) else v.startCapture)
    (hmove ((s.setScan (scanStarted p edge)).attachProducer p.ring true) rfl rfl)).trans ?_
  cases edge
  · refine (if_neg (by decide)).trans ?_
    rw [if_neg (by simp)]
    rfl
  · refine (if_pos rfl).trans ?_
    by_cases hz : s.zone .docEdge = some .high
    · refine (if_pos hz).trans ?_
      rw [if_neg fun h => h.2 hz]
      rfl
    · refine (if_neg hz).trans ?_
      rw [if_pos ⟨rfl, hz⟩]
      rfl

end

end Sys2Proof.Machine

namespace Sys2Proof.Proofs

open Sys2Proof Sys2Proof.Machine

/-- Settles O32: the results are the answers of `checkStartScan`, branch by branch; the DOC channel was at rest. -/
theorem startScanRow : Obligations.StartScanRow := by
  intro s tag ring mode start k profile theta skip trailing width pageLimit feedLimit stopMargin restartMargin m p i l
  let f : ScanFields := ⟨ring, mode, start, k, profile, theta, skip, trailing, width, pageLimit, feedLimit, stopMargin, restartMargin⟩
  have hl : roundWidth f.width.toNat = l := rfl
  refine ⟨fun h => startScan_given_refused (f := f) (checkFields_busy h) tag, fun hp hstop hoff => ⟨fun hbad => ?_, ?_⟩⟩
  · refine startScan_given_refused (f := f) (checkFields_badArg hp hstop hoff ?_) tag
    obtain h | h | hk | h | h | h | h | h | h := hbad
    · exact .inl h
    · exact .inr (.inl h)
    · exact .inr (.inr (.inl fun hrange => by
        obtain hone | htwo | hfour := (stepsPerLineOk_iff _).mp hrange.1
        · exact hk.1 hone
        · exact hk.2.1 htwo
        · exact hk.2.2 hfour))
    · exact .inr (.inr (.inl fun hrange => absurd hrange.2.1 (Nat.not_le.mpr h)))
    · exact .inr (.inr (.inl fun hrange => absurd hrange.2.2.1 (by rw [show f.pageLimit.toNat = 0 from h]; decide)))
    · exact .inr (.inr (.inl fun hrange => absurd hrange.2.2.2.1 (Nat.not_le.mpr h)))
    · exact .inr (.inr (.inl fun hrange => absurd hrange.2.2.2.2 (by rw [show f.feedLimit.toNat = 0 from h]; decide)))
    · exact .inr (.inr (.inr (.inl h)))
    · exact .inr (.inr (.inr (.inr h)))
  · intro r hmode hpr hk hstart hlow hhigh hfeed hwidth hr
    have hm : lineModeOf f.mode.toNat = some m := by
      obtain ⟨hmode, rfl⟩ | ⟨hmode, rfl⟩ := hmode
      · show lineModeOf mode.toNat = _
        rw [hmode]
        rfl
      · show lineModeOf mode.toNat = _
        rw [hmode]
        rfl
    have hrange : f.inRange := ⟨(stepsPerLineOk_iff _).mpr hk, hstart, hlow, hhigh, hfeed⟩
    refine ⟨fun hd => startScan_given_refused (f := f) (checkFields_undefined hp hstop hoff hm hpr hrange hwidth hr hd) tag, fun d hd => ?_⟩
    intro stop params t
    have hcheck := checkFields_defined (f := f) hp hstop hoff hm hpr hrange hwidth hr hd
    have hbegun : s.doc.moving = false → ((s.handDone tag 3 .done).beginScan (f.params r d m p) (decide (start.toNat = 0)))
        = if start.toNat = 0 ∧ s.zone .docEdge ≠ some .high then t
          else (t.setScan { t.scan with st := .capture }).scanCheckMargin := fun hdoc => by
      have hhanded : (s.handDone tag 3 .done).scanBegun (f.params r d m p) = t := by
        have hring : (s.handDone tag 3 .done).ring r = s.ring r := by simp
        have hdoc' : (s.handDone tag 3 .done).doc = s.doc := by simp
        have hprofile : (s.handDone tag 3 .done).profile p = s.profile p :=
          congrArg (fun g : Ground => g.tables.profiles.getD p.val []) (by simp : (s.handDone tag 3 .done).ground = s.ground)
        show (((s.handDone tag 3 .done).setScan _).setRing r { (s.handDone tag 3 .done).ring r with prodAttached := true }).setDoc
          { (s.handDone tag 3 .done).doc with
            owner := .scan, st := .run, requester := .scan, direction := .forward, profile := p, requested := none
            remaining := none, ramp := 0, taken := 0, stopCause := none, tag := 0
            timer := some (((s.handDone tag 3 .done).profile p).getD 0 0) } = _
        rw [hring, hdoc', hprofile]
        rfl
      rw [beginScan_eq (by simpa using hdoc), hhanded]
      have hzone : (s.handDone tag 3 .done).zone .docEdge = s.zone .docEdge := by simp [State.zone]
      simp only [hzone, decide_eq_true_eq]
    rw [hl] at hcheck
    split_ifs at hcheck with h1 h2 h3 h4 h5 h6 h7
    · rw [if_pos h1]; exact startScan_given_refused hcheck tag
    · rw [if_neg h1, if_pos h2]; exact startScan_given_refused hcheck tag
    · rw [if_neg h1, if_neg h2, if_pos h3]; exact startScan_given_refused hcheck tag
    · rw [if_neg h1, if_neg h2, if_neg h3, if_pos h4]; exact startScan_given_refused hcheck tag
    · rw [if_neg h1, if_neg h2, if_neg h3, if_neg h4, if_pos h5]; exact startScan_given_refused hcheck tag
    · rw [if_neg h1, if_neg h2, if_neg h3, if_neg h4, if_neg h5, if_pos h6]; exact startScan_given_refused hcheck tag
    · rw [if_neg h1, if_neg h2, if_neg h3, if_neg h4, if_neg h5, if_neg h6, if_pos h7]; exact startScan_given_refused hcheck tag
    · rw [if_neg h1, if_neg h2, if_neg h3, if_neg h4, if_neg h5, if_neg h6, if_neg h7]
      exact (startScan_given_accepted hcheck tag).trans (congrArg _ (hbegun (Bool.eq_false_iff.mpr h5)))

end Sys2Proof.Proofs
end

