-- ==== Sys2Proof/Proofs/Calibration.lean ====
section
/-! The calibration (R49, R50): START SCAN in mode CAL, its readouts and sums, and its end. -/

namespace Sys2Proof.Machine

open Sys2Proof

theorem calLinesOk_iff (n : Nat) : calLinesOk n = true ↔ n ∈ [1, 2, 4, 8, 16] := by
  simp [calLinesOk, or_assoc]

/-- R49: the sums with a readout's samples, entries beyond the line kept. -/
theorem addSums_eq (sums : List Nat) (samples : List Byte) :
    addSums sums samples = List.zipWith (fun a (b : Byte) => a + b.toNat) sums samples ++ sums.drop samples.length := by
  induction sums generalizing samples with
  | nil => cases samples <;> rfl
  | cons a as ih =>
    cases samples with
    | nil => rfl
    | cons b bs => exact congrArg (List.cons (a + b.toNat)) (ih bs)

section
variable {s : State} {tag : Byte} {lamp : Bool} {lines : Byte} {width interval : Half} {destination : Word}

theorem checkStartCal_eq (s : State) (lamp : Bool) (lines : Byte) (width interval : Half) (destination : Word) :
    s.checkStartCal lamp lines width interval destination =
      if s.clk.power = .entering ∨ s.cells.stopAll.isSome = true ∨ s.scan.st ≠ .off then .error .busy
      else if 2048 < roundWidth width.toNat ∨ lines.toNat ∉ [1, 2, 4, 8, 16] ∨ interval.toNat < 16 ∨ destination.toNat % 2 ≠ 0
          ∨ s.cfg.memSize < destination.toNat + 2 * roundWidth width.toNat
          ∨ (destination.toNat < s.cfg.cbAddr + (256 + 16 * (s.cfg.nc + s.cfg.nr))
              ∧ s.cfg.cbAddr < destination.toNat + 2 * roundWidth width.toNat) then .error .badArg
      else if s.zone .cover = some .high ∨ s.zone .supply = some .low then .error .notReady
      else if s.doc.moving then .error .busy
      else .ok { mode := .cal, width := roundWidth width.toNat, lamp := lamp, calLines := lines.toNat,
                 calInterval := interval.toNat, calDest := destination.toNat } := by
  have hactive : s.scan.active = true ↔ s.scan.st ≠ .off := by simp [Scan.active]
  have hrange : (¬(roundWidth width.toNat ≤ 2048 ∧ calLinesOk lines.toNat = true ∧ 16 ≤ interval.toNat)) ↔
      2048 < roundWidth width.toNat ∨ lines.toNat ∉ [1, 2, 4, 8, 16] ∨ interval.toNat < 16 := by
    rw [calLinesOk_iff, not_and_or, not_and_or, not_le, not_le]
  unfold State.checkStartCal
  dsimp only
  simp only [startRefused_iff, hactive, hrange, overlapsControl_iff, coverAndSupplyGood_eq_false, ite_or]

theorem startScanCal_given_refused {r : Result} (h : s.checkStartCal lamp lines width interval destination = .error r) :
    exec (.startScanCal tag lamp lines width interval destination) (s.given (.startScanCal tag lamp lines width interval destination))
      = .next (s.handDone tag 3 r) := by
  simp only [exec, execStartScanCal, claimCommand_given, h]

theorem startScanCal_given_accepted {p : ScanParams} (h : s.checkStartCal lamp lines width interval destination = .ok p) :
    exec (.startScanCal tag lamp lines width interval destination) (s.given (.startScanCal tag lamp lines width interval destination))
      = .next (((s.handDone tag 3 .done).setDoc { s.doc with owner := .scan }).setScan { s.scan with
          st := .cal, params := p, lostNoBuffer := 0, lostOverrun := 0, lostNoSlot := 0, lostSinceWritten := 0
          stallCount := 0, endReason := none, calSums := List.replicate 2048 0, calDone := 0, calReadout := false
          calTimer := true, calWriting := false }) := by
  simp only [exec, execStartScanCal, claimCommand_given, h, State.setDoc_scan, State.handDone_scan, State.handDone_doc]

/-! ### Ends of a calibration -/

/-- R45: the PAGE_SCANNED cell of a calibration. -/
def State.calCell (s : State) (reason : ScanReason) : State :=
  s.handEvent .pageScanned 0
    (match reason with
      | .edge | .limit | .cal => .done
      | .aborted => .aborted
      | .stopped | .cover | .supply | .clock | .noDocument => .failed)
    ([0xFF, byte (scanReasonCode reason), 0] ++ twoBytes s.scan.calDone ++ twoBytes s.scan.lostNoBuffer
      ++ twoBytes s.scan.lostOverrun ++ twoBytes s.scan.lostNoSlot ++ [byte s.scan.stallCount])

theorem calFinish_eq (hmode : s.scan.params.mode = .cal) : s.calFinish
    = ((s.calCell (s.scan.endReason.getD .cal)).setDoc { s.doc with owner := .host }).setScan { s.scan with st := .off } := by
  have hcell : s.handPageScanned .plain = s.calCell (s.scan.endReason.getD .cal) := by
    unfold State.handPageScanned State.calCell Scan.pageFields
    simp only [hmode, decide_true, if_true, Bool.not_true, Bool.false_and]
    rfl
  have hscan : (s.handPageScanned .plain).scan = s.scan := by simp
  have hdoc : (s.handPageScanned .plain).doc = s.doc := by simp
  show ((s.handPageScanned .plain).setDoc { (s.handPageScanned .plain).doc with owner := .host }).setScan
    { (s.handPageScanned .plain).scan with st := .off } = _
  rw [hscan, hdoc, hcell]

theorem scanCut_cal (hst : s.scan.st = .cal) (reason : ScanReason) : s.scanCut reason = s.calCut reason := by
  simp only [State.scanCut, hst]

/-- R49: a cut while the sums are written gives the page its reason, unless one stands. -/
theorem calCut_writing (hw : s.scan.calWriting = true) (reason : ScanReason) :
    s.calCut reason = s.setScan { s.scan with endReason := some (s.scan.endReason.getD reason) } := by
  have hset : ∀ r, s.scan.endReason = some r → s.scan = { s.scan with endReason := some r } := fun r hr => by rw [← hr]
  refine (if_pos hw).trans ?_
  cases hreason : s.scan.endReason with
  | none => rfl
  | some r => exact congrArg s.setScan (hset r hreason)

/-- R49: a cut before the sums are written ends the calibration. -/
theorem calCut_reading (hw : s.scan.calWriting = false) (reason : ScanReason) :
    s.calCut reason = (s.setScan { s.scan with
      endReason := some reason, calReadout := false, calTimer := false
      lostOverrun := if s.scan.calReadout then min 65535 (s.scan.lostOverrun + 1) else s.scan.lostOverrun }).calFinish :=
  if_neg (by rw [hw]; decide)

theorem stopScan_given_cal (hst : s.scan.st = .cal) :
    exec (.stopScan tag) (s.given (.stopScan tag)) = .next ((s.handDone tag 4 .done).calCut .stopped) := by
  simp only [exec, execStopScan, claimCommand_given]
  rw [if_neg (by rw [hst]; decide), scanCut_cal (by simpa using hst)]

theorem calSumsAcknowledged_delivered (hst : s.scan.st = .cal) (hw : s.scan.calWriting = true) :
    exec .calSumsAcknowledged (s.delivered .calSums []) = .next (s.setScan { s.scan with calWriting := false }).calFinish := by
  refine (if_pos ⟨hst, hw, by simp⟩).trans ?_
  simp

end

end Sys2Proof.Machine

namespace Sys2Proof.Proofs

open Sys2Proof Sys2Proof.Machine

/-- Settles O35: START SCAN in CAL by the answers of its checks, the readouts, and the ends and cuts of a calibration. -/
theorem calibrationRows : Obligations.CalibrationRows := by
  intro s tag lamp lines width interval destination samples i l
  refine ⟨?_, fun hst htimer => ?_, fun hst hread hlen => ?_, fun hst hmode => ?_⟩
  · have hcheck := checkStartCal_eq s lamp lines width interval destination
    rw [show roundWidth width.toNat = l from rfl] at hcheck
    split_ifs at hcheck ⊢
    · exact startScanCal_given_refused hcheck
    · exact startScanCal_given_refused hcheck
    · exact startScanCal_given_refused hcheck
    · exact startScanCal_given_refused hcheck
    · exact startScanCal_given_accepted hcheck
  · refine (if_pos ⟨hst, htimer⟩).trans ?_
    by_cases hread : s.scan.calReadout = true
    · exact (if_pos hread).trans (congrArg (fun x => Host.Outcome.next (s.setScan x)) (if_pos hread).symm)
    · exact (if_neg hread).trans (congrArg (fun x => Host.Outcome.next (s.setScan x)) (if_neg hread).symm)
  · intro sums x
    refine (if_pos ⟨hst, hread, hlen⟩).trans ?_
    rw [addSums_eq]
    by_cases hlast : s.scan.params.calLines ≤ s.scan.calDone + 1
    · exact (if_pos hlast).trans (congrArg Host.Outcome.next (if_pos hlast).symm)
    · exact (if_neg hlast).trans (congrArg Host.Outcome.next (if_neg hlast).symm)
  · intro cell
    refine ⟨fun hw => ⟨?_, fun reason => ?_, ?_⟩, fun hw => ?_, ?_⟩
    · rw [calSumsAcknowledged_delivered hst hw,
        calFinish_eq (s := s.setScan { s.scan with calWriting := false }) hmode]
      rfl
    · rw [scanCut_cal hst, calCut_writing hw]
    · rw [stopScan_given_cal hst, calCut_writing (by simpa using hw)]
      simp only [State.handDone_scan]
    · intro x cut
      refine ⟨fun reason => ?_, ?_⟩
      · rw [scanCut_cal hst, calCut_reading hw, calFinish_eq (s := s.setScan (x reason)) hmode]
        rfl
      · rw [stopScan_given_cal hst, calCut_reading (by simpa using hw), calFinish_eq (by simpa using hmode)]
        simp only [cut, cell, x, State.handDone_scan, State.handDone_doc, State.setScan_scan, State.setScan_doc]
        rfl
    · simp only [State.lamp, hst]

end Sys2Proof.Proofs
end

