-- ==== Sys2Proof/Proofs/Shift.lean ====
section
/-! The shift unit (R57 to R60): the word formed at each output index, its pels, and the counts of a line record. -/

namespace Sys2Proof.Machine

open Sys2Proof

/-! ### Pels of words -/

/-- 10.7: pel i of a line's words, white beyond them. -/
def pelOf (ws : List Word) (i : Nat) : Bool := (ws.getD (i / 32) 0).getLsbD (31 - i % 32)

theorem pelOf_of_le {ws : List Word} {i : Nat} (h : 32 * ws.length ≤ i) : pelOf ws i = false := by
  have hdiv : ws.length ≤ i / 32 := by omega
  simp [pelOf, hdiv]

theorem pelOf_cons_add (w : Word) (ws : List Word) (i : Nat) : pelOf (w :: ws) (32 + i) = pelOf ws i := by
  have hdiv : (32 + i) / 32 = i / 32 + 1 := by omega
  have hmod : (32 + i) % 32 = i % 32 := by omega
  simp only [pelOf, hdiv, hmod, List.getD_cons_succ]

theorem pelOf_cons_of_lt (w : Word) (ws : List Word) {i : Nat} (h : i < 32) : pelOf (w :: ws) i = w.getLsbD (31 - i) := by
  simp only [pelOf, Nat.div_eq_of_lt h, Nat.mod_eq_of_lt h, List.getD_cons_zero]

theorem popWord_eq (w : Word) : popWord w = (List.range 32).countP (fun i => w.getLsbD (31 - i)) := by
  have hrev : List.range 32 = ((List.range 32).map (fun i => 31 - i)).reverse := rfl
  rw [popWord, hrev, List.countP_reverse, List.countP_map]
  exact List.countP_congr fun i hi => by simp

theorem popWords_eq (ws : List Word) : popWords ws = (List.range (32 * ws.length)).countP (pelOf ws) := by
  induction ws with
  | nil => rfl
  | cons w ws ih =>
    have hlen : 32 * (w :: ws).length = 32 + 32 * ws.length := by rw [List.length_cons]; omega
    rw [hlen, List.range_add, List.countP_append, List.countP_map, popWords, List.map_cons, List.sum_cons, ← popWords, ih, popWord_eq]
    have hfirst : (List.range 32).countP (pelOf (w :: ws)) = (List.range 32).countP (fun i => w.getLsbD (31 - i)) :=
      List.countP_congr fun i hi => by rw [pelOf_cons_of_lt w ws (List.mem_range.mp hi)]
    have hrest : pelOf (w :: ws) ∘ (32 + ·) = pelOf ws := funext (pelOf_cons_add w ws)
    rw [hfirst, hrest]

/-- Pels beyond a line's words add nothing to its count. -/
theorem countP_pelOf {ws : List Word} {n : Nat} (h : 32 * ws.length ≤ n) : (List.range n).countP (pelOf ws) = popWords ws := by
  obtain ⟨k, rfl⟩ := Nat.exists_eq_add_of_le h
  rw [List.range_add, List.countP_append, List.countP_map, ← popWords_eq, Nat.add_eq_left, List.countP_eq_zero]
  intro i hi
  simp [pelOf_of_le]

/-- R60: the pels of the eight words of strobe block b. -/
theorem pelOf_block (ws : List Word) (b : Nat) {j : Nat} (h : j < 256) :
    pelOf ((ws.drop (8 * b)).take 8) j = pelOf ws (256 * b + j) := by
  have hdiv : (256 * b + j) / 32 = 8 * b + j / 32 := by omega
  have hmod : (256 * b + j) % 32 = j % 32 := by omega
  have hlt : j / 32 < 8 := by omega
  simp only [pelOf, hdiv, hmod, List.getD_eq_getElem?_getD, List.getElem?_take_of_lt hlt, List.getElem?_drop]

theorem blockCounts_length (n : Nat) (ws : List Word) : (blockCounts n ws).length = n := by
  induction n generalizing ws with
  | zero => rfl
  | succ n ih => simp [blockCounts, ih]

theorem blockCounts_getD (n : Nat) (ws : List Word) {b : Nat} (h : b < n) :
    (blockCounts n ws).getD b 0 = popWords ((ws.drop (8 * b)).take 8) := by
  induction n generalizing ws b with
  | zero => exact absurd h b.not_lt_zero
  | succ n ih =>
    cases b with
    | zero => rfl
    | succ b =>
      rw [blockCounts, List.getD_cons_succ, ih _ (Nat.lt_of_succ_lt_succ h), List.drop_drop, Nat.mul_succ, Nat.add_comm]

theorem blockCounts_eq (n : Nat) (ws : List Word) {b : Nat} (h : b < n) :
    (blockCounts n ws).getD b 0 = (List.range 256).countP (fun j => pelOf ws (256 * b + j)) := by
  have hlen : 32 * ((ws.drop (8 * b)).take 8).length ≤ 256 := by
    have := List.length_take_le 8 (ws.drop (8 * b))
    omega
  rw [blockCounts_getD n ws h, ← countP_pelOf hlen]
  exact List.countP_congr fun j hj => by rw [pelOf_block ws b (List.mem_range.mp hj)]

/-! ### Source words and pels at any index -/

/-- Word k of a source line, white where the line has none. -/
def srcWord (ws : List Word) (k : Int) : Word := if 0 ≤ k then ws.getD k.toNat 0 else 0

/-- Pel i of a source line, white where the line has none. -/
def srcPel (ws : List Word) (i : Int) : Bool := decide (0 ≤ i) && pelOf ws i.toNat

theorem srcWord_of_neg {ws : List Word} {k : Int} (h : k < 0) : srcWord ws k = 0 := if_neg (by omega)

theorem srcWord_of_le {ws : List Word} {k : Int} (h : (ws.length : Int) ≤ k) : srcWord ws k = 0 := by
  have hlen : ws.length ≤ k.toNat := by omega
  simp [srcWord, hlen]

theorem srcWord_natCast (ws : List Word) (k : Nat) : srcWord ws k = ws.getD k 0 := if_pos (Int.natCast_nonneg k)

theorem srcWord_pel (ws : List Word) (k : Int) {b : Nat} (h : b < 32) :
    (srcWord ws k).getLsbD (31 - b) = srcPel ws (32 * k + b) := by
  by_cases hk : 0 ≤ k
  · have hnonneg : 0 ≤ 32 * k + b := by omega
    have hdiv : (32 * k + b).toNat / 32 = k.toNat := by omega
    have hmod : (32 * k + b).toNat % 32 = b := by omega
    simp [srcWord, srcPel, pelOf, hk, hnonneg, hdiv, hmod]
  · have hneg : ¬ 0 ≤ 32 * k + b := by omega
    simp [srcWord, srcPel, hk, hneg]

theorem srcPel_iff (ws : List Word) (i : Int) : srcPel ws i = true ↔ ∃ k < 32 * ws.length, i = (k : Int) ∧ pelOf ws k = true := by
  constructor
  · intro h
    obtain ⟨hi, hp⟩ := (Bool.and_eq_true _ _).mp h
    refine ⟨i.toNat, ?_, by have := of_decide_eq_true hi; omega, hp⟩
    by_contra hge
    rw [pelOf_of_le (Nat.le_of_not_lt hge)] at hp
    exact Bool.noConfusion hp
  · rintro ⟨k, -, rfl, hp⟩
    simp [srcPel, hp]

theorem word_ne_zero_iff (w : Word) : w ≠ 0 ↔ ∃ b < 32, w.getLsbD (31 - b) = true := by
  rw [ne_eq, BitVec.eq_of_getLsbD_eq_iff, not_forall]
  constructor
  · rintro ⟨i, h⟩
    obtain ⟨hi, hw⟩ := Classical.not_imp.mp h
    exact ⟨31 - i, by omega, by simpa [show 31 - (31 - i) = i by omega] using hw⟩
  · rintro ⟨b, hb, hw⟩
    exact ⟨31 - b, by simp [hw]; omega⟩

/-! ### The words formed -/

theorem shiftRightWord_pel {r b : Nat} (hr : r < 32) (hb : b < 32) (carry w : Word) :
    (shiftRightWord r carry w).getLsbD (31 - b) =
      if r ≤ b then w.getLsbD (31 - (b - r)) else carry.getLsbD (31 - (b + 32 - r)) := by
  have hlt : 31 - b < 32 := by omega
  simp only [shiftRightWord, lowMask, BitVec.getLsbD_or, BitVec.getLsbD_and, BitVec.getLsbD_not, BitVec.getLsbD_shiftLeft,
    BitVec.getLsbD_ushiftRight, BitVec.getLsbD_allOnes, hlt, decide_true, Bool.true_and]
  by_cases h : r ≤ b
  · have hin : r + (31 - b) < 32 := by omega
    simp [h, hin, ← show r + (31 - b) = 31 - (b - r) by omega]
  · have hout : ¬ r + (31 - b) < 32 := by omega
    have hin : ¬ 31 - b < 32 - r := by omega
    simp [h, hout, hin, show 31 - b - (32 - r) = 31 - (b + 32 - r) by omega]

theorem shiftLeftWord_pel {r b : Nat} (hr : r < 32) (hb : b < 32) (carry w : Word) :
    (shiftLeftWord r carry w).getLsbD (31 - b) =
      if b + r < 32 then carry.getLsbD (31 - (b + r)) else w.getLsbD (31 - (b + r - 32)) := by
  have hlt : 31 - b < 32 := by omega
  simp only [shiftLeftWord, highMask, BitVec.getLsbD_or, BitVec.getLsbD_and, BitVec.getLsbD_not, BitVec.getLsbD_shiftLeft,
    BitVec.getLsbD_ushiftRight, BitVec.getLsbD_allOnes, hlt, decide_true, Bool.true_and]
  by_cases h : b + r < 32
  · have hin : ¬ 31 - b < r := by omega
    have hin' : 31 - b - r < 32 := by omega
    simp [h, hin, hin', ← show 31 - b - r = 31 - (b + r) by omega]
  · have hout : 31 - b < r := by omega
    simp [h, hout, show 32 - r + (31 - b) = 31 - (b + r - 32) by omega]

/-- R57, R58: the index of the first word formed under a margin shift. -/
def firstFormed (m : Int) : Int := if 0 ≤ m then (m.natAbs / 32 : Nat) else -((m.natAbs / 32 : Nat) : Int) - 1

/-- R57, R58: the word formed at output index i. -/
def formedWord (m : Int) (ws : List Word) (i : Int) : Word :=
  if 0 ≤ m then shiftRightWord (m.natAbs % 32) (srcWord ws (i - firstFormed m - 1)) (srcWord ws (i - firstFormed m))
  else shiftLeftWord (m.natAbs % 32) (srcWord ws (i - firstFormed m - 1)) (srcWord ws (i - firstFormed m))

/-- Pel b of the word formed at i is the source pel m to its left. -/
theorem formedWord_pel (m : Int) (ws : List Word) (i : Int) {b : Nat} (hb : b < 32) :
    (formedWord m ws i).getLsbD (31 - b) = srcPel ws (32 * i + b - m) := by
  have hr : m.natAbs % 32 < 32 := Nat.mod_lt _ (by decide)
  unfold formedWord firstFormed
  split_ifs with hm
  · rw [shiftRightWord_pel hr hb]
    split_ifs with hle
    · rw [srcWord_pel ws _ (by omega)]
      congr 1
      omega
    · rw [srcWord_pel ws _ (by omega)]
      congr 1
      omega
  · rw [shiftLeftWord_pel hr hb]
    split_ifs with hlt
    · rw [srcWord_pel ws _ hlt]
      congr 1
      omega
    · rw [srcWord_pel ws _ (by omega)]
      congr 1
      omega

theorem formedWord_ne_zero_iff (m : Int) (ws : List Word) (i : Int) :
    formedWord m ws i ≠ 0 ↔ ∃ b : Nat, b < 32 ∧ srcPel ws (32 * i + b - m) = true := by
  rw [word_ne_zero_iff]
  exact exists_congr fun b => and_congr_right fun hb => by rw [formedWord_pel m ws i hb]

/-- Where no word is formed, the word formed would be white. -/
theorem formedWord_of_outside {m : Int} {ws : List Word} {i : Int} (h : i < firstFormed m ∨ firstFormed m + ws.length < i) :
    formedWord m ws i = 0 := by
  have hcarry : srcWord ws (i - firstFormed m - 1) = 0 :=
    h.elim (fun h => srcWord_of_neg (by omega)) (fun h => srcWord_of_le (by omega))
  have hword : srcWord ws (i - firstFormed m) = 0 :=
    h.elim (fun h => srcWord_of_neg (by omega)) (fun h => srcWord_of_le (by omega))
  simp [formedWord, hcarry, hword, shiftRightWord, shiftLeftWord]

theorem formRight_eq (r : Nat) (index : Int) (carry : Word) (ws : List Word) :
    formRight r index carry ws = (List.range (ws.length + 1)).map fun k : Nat =>
      (index + k, shiftRightWord r ((carry :: ws).getD k 0) (ws.getD k 0)) := by
  induction ws generalizing index carry with
  | nil => simp [formRight]
  | cons w ws ih =>
    rw [formRight, ih, List.length_cons, List.range_succ_eq_map (n := ws.length + 1), List.map_cons, List.map_map]
    simp [Function.comp_def, Int.add_assoc, Int.add_comm 1]

theorem formLeft_eq (r : Nat) (index : Int) (carry : Word) (ws : List Word) :
    formLeft r index carry ws = (List.range (ws.length + 1)).map fun k : Nat =>
      (index + k, shiftLeftWord r ((carry :: ws).getD k 0) (ws.getD k 0)) := by
  induction ws generalizing index carry with
  | nil => simp [formLeft]
  | cons w ws ih =>
    rw [formLeft, ih, List.length_cons, List.range_succ_eq_map (n := ws.length + 1), List.map_cons, List.map_map]
    simp [Function.comp_def, Int.add_assoc, Int.add_comm 1]

theorem srcWord_before (ws : List Word) (k : Nat) : srcWord ws ((k : Int) - 1) = ((0 : Word) :: ws).getD k 0 := by
  cases k with
  | zero => exact srcWord_of_neg (by decide)
  | succ k => rw [show ((k + 1 : Nat) : Int) - 1 = (k : Int) by omega, srcWord_natCast, List.getD_cons_succ]

theorem formWords_eq (m : Int) (ws : List Word) :
    formWords m ws = (List.range (ws.length + 1)).map fun k : Nat => (firstFormed m + k, formedWord m ws (firstFormed m + k)) := by
  have hsub : ∀ k : Nat, firstFormed m + k - firstFormed m = (k : Int) := fun k => by omega
  simp only [formedWord, hsub, srcWord_before, srcWord_natCast]
  by_cases hm : 0 ≤ m
  · simp only [formWords, hm, if_true, formRight_eq, firstFormed]
  · simp only [formWords, hm, if_false, formLeft_eq, firstFormed]

/-- R57, R58: each output word is the word formed at its index. -/
theorem outputWord_formWords (m : Int) (ws : List Word) (i : Nat) : outputWord (formWords m ws) i = formedWord m ws i := by
  unfold outputWord
  cases hfind : (formWords m ws).find? (fun p => p.1 = (i : Int)) with
  | some p =>
    have hindex : p.1 = (i : Int) := by simpa using List.find?_some hfind
    have hmem := List.mem_of_find?_eq_some hfind
    rw [formWords_eq] at hmem
    obtain ⟨k, -, rfl⟩ := List.mem_map.mp hmem
    exact congrArg (formedWord m ws) hindex
  | none =>
    refine (formedWord_of_outside ?_).symm
    by_contra hin
    have hk : (i : Int) = firstFormed m + ((i : Int) - firstFormed m).toNat := by omega
    refine absurd (List.find?_eq_none.mp hfind (i, formedWord m ws i) ?_) (by simp)
    rw [formWords_eq, List.mem_map]
    exact ⟨((i : Int) - firstFormed m).toNat, List.mem_range.mpr (by omega), by rw [← hk]⟩

/-- R59: a black pel is lost exactly when some black source pel has its destination outside the head. -/
theorem marginLost_iff (m : Int) (n : Nat) (ws : List Word) : marginLost n (formWords m ws) = true ↔
    ∃ i < 32 * ws.length, pelOf ws i = true ∧ ((i : Int) + m < 0 ∨ 32 * (n : Int) ≤ (i : Int) + m) := by
  have hword : marginLost n (formWords m ws) = true ↔ ∃ i : Int, (i < 0 ∨ (n : Int) ≤ i) ∧ formedWord m ws i ≠ 0 := by
    simp only [marginLost, formWords_eq, List.any_map, List.any_eq_true, List.mem_range, Function.comp_apply, Bool.and_eq_true,
      Bool.or_eq_true, decide_eq_true_eq, bne_iff_ne]
    refine ⟨fun ⟨k, _, hout, hne⟩ => ⟨_, hout, hne⟩, fun ⟨i, hout, hne⟩ => ?_⟩
    have hin : ¬(i < firstFormed m ∨ firstFormed m + ws.length < i) := fun h => hne (formedWord_of_outside h)
    have hk : firstFormed m + ((i - firstFormed m).toNat : Int) = i := by omega
    exact ⟨(i - firstFormed m).toNat, by omega, by rw [hk]; exact ⟨hout, hne⟩⟩
  rw [hword]
  constructor
  · rintro ⟨i, hout, hne⟩
    obtain ⟨b, hb, hp⟩ := (formedWord_ne_zero_iff m ws i).mp hne
    obtain ⟨k, hk, heq, hp⟩ := (srcPel_iff ws _).mp hp
    exact ⟨k, hk, hp, by omega⟩
  · rintro ⟨k, hk, hp, hout⟩
    refine ⟨((k : Int) + m) / 32, by omega, (formedWord_ne_zero_iff m ws _).mpr ⟨(((k : Int) + m) % 32).toNat, by omega, ?_⟩⟩
    exact (srcPel_iff ws _).mpr ⟨k, hk, by omega, hp⟩

theorem any_words_iff (ws : List Word) : ws.any (· != 0) = true ↔ ∃ i < 32 * ws.length, pelOf ws i = true := by
  simp only [List.any_eq_true, bne_iff_ne, word_ne_zero_iff]
  constructor
  · rintro ⟨w, hmem, b, hb, hp⟩
    obtain ⟨k, hk, rfl⟩ := List.mem_iff_getElem.mp hmem
    refine ⟨32 * k + b, by omega, ?_⟩
    simpa [pelOf, show (32 * k + b) / 32 = k by omega, show (32 * k + b) % 32 = b by omega, hk] using hp
  · rintro ⟨i, hi, hp⟩
    have hk : i / 32 < ws.length := by omega
    exact ⟨ws[i / 32], List.getElem_mem hk, i % 32, Nat.mod_lt _ (by decide), by simpa [pelOf, hk] using hp⟩

theorem shiftLine_length (m : Int) (n : Nat) (ws : List Word) : (shiftLine m n ws).1.length = n := by
  unfold shiftLine
  split_ifs <;> simp

/-- R57, R58: output pel j of the head is source pel j less the shift. -/
theorem shiftLine_pel {m : Int} {n : Nat} (hm : m.natAbs < 32 * n) (ws : List Word) {j : Nat} (hj : j < 32 * n) :
    pelOf (shiftLine m n ws).1 j = srcPel ws ((j : Int) - m) := by
  have hword : (shiftLine m n ws).1 = (List.range n).map (outputWord (formWords m ws)) := by
    rw [shiftLine, if_neg (by omega)]
  have hdiv : j / 32 < n := by omega
  have hpel := formedWord_pel m ws ((j / 32 : Nat) : Int) (Nat.mod_lt j (by decide : 32 > 0))
  rw [show 32 * ((j / 32 : Nat) : Int) + ((j % 32 : Nat) : Int) = (j : Int) by omega] at hpel
  simpa [pelOf, hword, hdiv, outputWord_formWords] using hpel

end Sys2Proof.Machine

namespace Sys2Proof.Proofs

open Sys2Proof Sys2Proof.Machine

/-- Settles O41: each output word is the word formed at its index, whose pels are the source's moved by the shift. -/
theorem shiftUnitIsTheShift : Obligations.ShiftUnitIsTheShift := by
  intro m n ws pel
  refine ⟨shiftLine_length m n ws, fun hm => ⟨fun j hj => ?_, ?_⟩, fun hm => ⟨fun j hj => ?_, ?_⟩, fun p tag => ?_⟩
  · refine (shiftLine_pel hm ws hj).trans ?_
    show (decide (0 ≤ (j : Int) - m) && pelOf ws ((j : Int) - m).toNat) = (_ && pelOf ws ((j : Int) - m).toNat)
    by_cases hend : (j : Int) - m < 32 * ws.length
    · simp [hend]
    · rw [pelOf_of_le (by omega), Bool.and_false, Bool.and_false]
  · rw [shiftLine, if_neg (by omega)]
    exact marginLost_iff m n ws
  · rw [shiftLine, if_pos hm]
    have hdiv : j / 32 < n := by omega
    simp [pel, hdiv]
  · rw [shiftLine, if_pos hm]
    exact any_words_iff ws
  · have hlen := shiftLine_length p.shift (p.headWidth / 32) ws
    refine ⟨rfl, rfl, rfl, ?_, blockCounts_length _ _, fun b hb => ?_⟩
    · exact (popWords_eq _).trans (by rw [hlen]; rfl)
    · exact blockCounts_eq _ _ (Nat.lt_of_lt_of_eq hb (blockCounts_length _ _))

end Sys2Proof.Proofs
end

