-- ==== Sys2Proof/Proofs/BootHeaders.lean ====
section
/-! The serial ROM (R161 to R163), the record walks (R162, R167, R169), and the rows that begin a boot. -/

namespace Sys2Proof.Machine

open Sys2Proof

/-! ### Bytes and halfwords of the ROM -/

/-- R161: byte k as the ROM drives it, all ones where no device does. -/
def driven (data : List (Option Byte)) (k : Nat) : Byte := (data.getD k none).getD 0xFF

/-- R161, R193: the halfword of bytes k and k + 1, the low one first. -/
def drivenHalf (data : List (Option Byte)) (k : Nat) : Half := driven data (k + 1) ++ driven data k

theorem romBytes_eq (n : Nat) (data : List (Option Byte)) : romBytes n data = (List.range n).map (driven data) := by
  induction n generalizing data with
  | zero => rfl
  | succ n ih =>
    rw [List.range_succ_eq_map, List.map_cons, List.map_map]
    cases data with
    | nil => exact congrArg (List.cons 0xFF) (ih [])
    | cons b bs => exact congrArg (List.cons (b.getD 0xFF)) (ih bs)

theorem bytesToHalves_map (f : Nat → Byte) (n : Nat) :
    bytesToHalves ((List.range (2 * n)).map f) = (List.range n).map (fun j => f (2 * j + 1) ++ f (2 * j)) := by
  induction n generalizing f with
  | zero => rfl
  | succ n ih =>
    rw [Nat.mul_succ, List.range_succ_eq_map, List.map_cons, List.map_map, List.range_succ_eq_map, List.map_cons, List.map_map,
      List.range_succ_eq_map, List.map_cons, List.map_map]
    exact congrArg (List.cons (f 1 ++ f 0)) (ih (fun j => f (j + 2)))

theorem romHalves_eq (n : Nat) (data : List (Option Byte)) :
    romHalves n data = (List.range n).map (fun j => drivenHalf data (2 * j)) := by
  rw [romHalves, romBytes_eq, bytesToHalves_map]
  rfl

theorem romHalf_eq (data : List (Option Byte)) : romHalf data = drivenHalf data 0 := by
  rw [romHalf, romBytes_eq]
  rfl

theorem romWord_eq (data : List (Option Byte)) : romWord data = drivenHalf data 2 ++ drivenHalf data 0 := by
  rw [romWord, romBytes_eq]
  rfl

theorem lowByte_toNat (h : Half) : (lowByte h).toNat = h.toNat % 256 := by simp [lowByte]

theorem highByte_toNat (h : Half) : (highByte h).toNat = h.toNat / 256 := by
  have := h.isLt
  simp only [highByte, BitVec.extractLsb'_toNat, Nat.shiftRight_eq_div_pow]
  omega

/-! ### The boot record as the ROM reader leaves it -/

/-- R161: n bytes are read from an address. -/
def Boot.reads (x : Boot) (a n : Nat) : Boot :=
  { x with
    spiNext := some (a + n)
    spiSent := if x.spiNext = some a then x.spiSent else [0x03, byte (a / 65536), byte (a / 256), byte a] }

theorem reads_again {x : Boot} {a : Nat} (h : x.spiNext = some a) (n : Nat) : x.reads a n = { x with spiNext := some (a + n) } := by
  rw [Boot.reads, if_pos h]

/-- R172: the boot fails with a code. -/
def Boot.failed (x : Boot) (code : Nat) : Boot :=
  { x with st := .failed, code := code, fault := true, pulse := 1, faultMs := 200, header := none, spiNext := none }

/-- R162: the walk goes on after a record of n halfwords. -/
def Boot.passed (x : Boot) (n : Nat) : Boot :=
  { x with position := x.position + 1, romAddr := x.romAddr + 12 + 2 * n, header := none }

/-- R169: the second walk begins at record 2. -/
def Boot.secondWalk (x : Boot) : Boot := { x with st := .hostImage, position := 2, romAddr := 50, header := none }

section
variable {s : State}

theorem spiRead_eq (s : State) (a n : Nat) : s.spiRead a n = s.setBoot (s.boot.reads a n) := rfl

theorem endWalk_of_tables (hst : s.boot.st = .tables) (hcount : 2 ≤ s.boot.recordCount) :
    s.endWalk = s.setBoot s.boot.secondWalk := by
  unfold State.endWalk
  rw [hst]
  exact if_neg (Nat.not_lt.mpr hcount)

theorem endWalk_of_hostImage (hst : s.boot.st = .hostImage) : s.endWalk = s.endImageWalk := by
  unfold State.endWalk
  rw [hst]

theorem nextRecord_of_lt (h : s.boot.position < s.boot.recordCount) (n : Nat) :
    s.nextRecord n = s.setBoot (s.boot.passed n) := if_neg (Nat.not_le.mpr h)

theorem nextRecord_of_le (h : s.boot.recordCount ≤ s.boot.position) (n : Nat) :
    s.nextRecord n = (s.setBoot { s.boot with header := none }).endWalk := if_pos h

/-- R167: in TABLES the walk goes on, or ends with the last record. -/
theorem nextRecord_of_tables (hst : s.boot.st = .tables) (hcount : 2 ≤ s.boot.recordCount) (n : Nat) :
    s.nextRecord n = s.setBoot (if s.boot.position < s.boot.recordCount then s.boot.passed n else s.boot.secondWalk) := by
  split_ifs with h
  · exact nextRecord_of_lt h n
  · rw [nextRecord_of_le (Nat.le_of_not_lt h), endWalk_of_tables (s := s.setBoot { s.boot with header := none }) hst hcount]
    rfl

theorem secondWalk_eq {x : Boot} (h : x.header = none) : x.secondWalk = { x with st := .hostImage, position := 2, romAddr := 50 } := by
  rw [Boot.secondWalk, h]

theorem passed_eq {x : Boot} (h : x.header = none) (n : Nat) :
    x.passed n = { x with position := x.position + 1, romAddr := x.romAddr + 12 + 2 * n } := by
  rw [Boot.passed, h]

theorem badTable_of_lt {id : Nat} (h : id < 12) (s : State) :
    s.badTable id = s.setBoot { s.boot with defaulted := s.boot.defaulted ||| (1 <<< id) } := by
  unfold State.badTable
  match id, h with
  | 0, _ => rfl
  | 1, _ => rfl
  | 2, _ => rfl
  | 3, _ => rfl
  | n + 4, h =>
    have hn : n < 8 := by omega
    simp only [tableIdOf, hn, dif_pos, setDefaulted, tableIdCode, if_true, Nat.add_comm 4]

theorem badTable_of_le {id : Nat} (h : 12 ≤ id) (s : State) : s.badTable id = s := by
  unfold State.badTable
  match id, h with
  | n + 4, h =>
    have hn : ¬ n < 8 := by omega
    simp only [tableIdOf, hn, dif_neg, not_false_eq_true]

/-! ### Record headers -/

/-- R162: a record's header, or its header and data, passes the end of the ROM. -/
def pastRom (a kind n : Nat) : Prop := 0x1000000 < a + 12 ∨ (kind ≠ 3 ∧ 0x1000000 < a + 12 + 2 * n)

theorem recordPastEnd_iff {kind : Nat} {k : RecordType} (hk : recordTypeOf kind = some k) (a n : Nat) :
    recordPastEnd a k n = true ↔ pastRom a kind n := by
  have hend : k ≠ .endRecord ↔ kind ≠ 3 := by
    match kind, hk with
    | 0, rfl => decide
    | 1, rfl => decide
    | 2, rfl => decide
    | 3, rfl => decide
  simp only [recordPastEnd, pastRom, Bool.or_eq_true, Bool.and_eq_true, decide_eq_true_eq, bne_iff_ne, hend]
  rfl

theorem recordTypeOf_of_le {kind : Nat} (h : 4 ≤ kind) : recordTypeOf kind = none := by
  match kind, h with
  | n + 4, _ => rfl

theorem recordTypeOf_of_lt {kind : Nat} (h : kind < 4) : ∃ k, recordTypeOf kind = some k := by
  match kind, h with
  | 0, _ => exact ⟨.config, rfl⟩
  | 1, _ => exact ⟨.table, rfl⟩
  | 2, _ => exact ⟨.hostImage, rfl⟩
  | 3, _ => exact ⟨.endRecord, rfl⟩

theorem recordTypeOf_config_iff {kind : Nat} {k : RecordType} (hk : recordTypeOf kind = some k) : k = .config ↔ kind = 0 := by
  match kind, hk with
  | 0, rfl => decide
  | 1, rfl => decide
  | 2, rfl => decide
  | 3, rfl => decide

theorem recordTypeOf_cases {kind : Nat} {k : RecordType} (hk : recordTypeOf kind = some k) :
    (kind = 0 ∧ k = .config) ∨ (kind = 1 ∧ k = .table) ∨ (kind = 2 ∧ k = .hostImage) ∨ (kind = 3 ∧ k = .endRecord) := by
  match kind, hk with
  | 0, rfl => decide
  | 1, rfl => decide
  | 2, rfl => decide
  | 3, rfl => decide

end

section
variable {s : State} {typeAndTable length destination check image : List (Option Byte)}

/-- 10.8: the header of the twelve bytes of a record of type k. -/
def headerAs (k : RecordType) (typeAndTable length destination check : List (Option Byte)) : RecordHeader :=
  { kind := k, table := (drivenHalf typeAndTable 0).toNat / 256
    length := (drivenHalf length 2 ++ drivenHalf length 0 : Word).toNat
    destination := (drivenHalf destination 2 ++ drivenHalf destination 0 : Word).toNat, check := drivenHalf check 0 }

theorem romRecordHeader_eq (typeAndTable length destination check : List (Option Byte)) :
    romRecordHeader typeAndTable length destination check =
      (recordTypeOf ((drivenHalf typeAndTable 0).toNat % 256)).map fun k => headerAs k typeAndTable length destination check := by
  simp only [romRecordHeader, romHalf_eq, romWord_eq, lowByte_toNat, highByte_toNat]
  rfl

theorem recordHeaderRead_past (hst : s.boot.st = .config ∨ s.boot.st = .tables ∨ s.boot.st = .hostImage) (hh : s.boot.header = none)
    (h : 4 ≤ (drivenHalf typeAndTable 0).toNat % 256 ∨
      pastRom s.boot.romAddr ((drivenHalf typeAndTable 0).toNat % 256) (drivenHalf length 2 ++ drivenHalf length 0 : Word).toNat) :
    exec (.recordHeaderRead typeAndTable length destination check image) s
      = .next (s.setBoot ((s.boot.reads s.boot.romAddr 12).failed 3)) := by
  refine (if_pos ⟨hst, hh⟩).trans ?_
  rw [romRecordHeader_eq]
  by_cases hkind : 4 ≤ (drivenHalf typeAndTable 0).toNat % 256
  · rw [recordTypeOf_of_le hkind]
    rfl
  · obtain ⟨k, hk⟩ := recordTypeOf_of_lt (Nat.lt_of_not_le hkind)
    rw [hk]
    exact if_pos ((recordPastEnd_iff hk _ _).mpr (h.resolve_left hkind))

/-- R164, R167, R169: a header that does not pass the end of the ROM goes to the walk the boot is in. -/
theorem recordHeaderRead_of {k : RecordType} (hst : s.boot.st = .config ∨ s.boot.st = .tables ∨ s.boot.st = .hostImage)
    (hh : s.boot.header = none) (hk : recordTypeOf ((drivenHalf typeAndTable 0).toNat % 256) = some k)
    (hpast : ¬pastRom s.boot.romAddr ((drivenHalf typeAndTable 0).toNat % 256)
      (drivenHalf length 2 ++ drivenHalf length 0 : Word).toNat) :
    exec (.recordHeaderRead typeAndTable length destination check image) s =
      .next (match s.boot.st with
        | .config => (s.spiRead s.boot.romAddr 12).configHeader (headerAs k typeAndTable length destination check)
        | .tables => (s.spiRead s.boot.romAddr 12).tablesHeader (headerAs k typeAndTable length destination check)
        | .reset | .romRead | .memoryUp | .hostImage | .release | .ready | .failed =>
          (s.spiRead s.boot.romAddr 12).imageHeader (headerAs k typeAndTable length destination check) image) := by
  refine (if_pos ⟨hst, hh⟩).trans ?_
  rw [romRecordHeader_eq, hk]
  refine (if_neg (fun h => hpast ((recordPastEnd_iff hk _ _).mp h))).trans ?_
  cases s.boot.st <;> rfl

/-- R168: a TABLE record of no data is flagged and passed over; another's data is read. -/
theorem tablesHeader_table {h : RecordHeader} (hst : s.boot.st = .tables) (hcount : 2 ≤ s.boot.recordCount) (hk : h.kind = .table) :
    s.tablesHeader h =
      if h.length = 0 then
        s.setBoot (let next := if s.boot.position < s.boot.recordCount then s.boot.passed h.length else s.boot.secondWalk
          if h.table < 12 then { next with defaulted := next.defaulted ||| (1 <<< h.table) } else next)
      else s.setBoot { s.boot with header := some h } := by
  unfold State.tablesHeader
  rw [hk]
  refine ite_congr rfl (fun _ => ?_) (fun _ => rfl)
  by_cases hid : h.table < 12
  · rw [badTable_of_lt hid, nextRecord_of_tables (s := s.setBoot { s.boot with defaulted := s.boot.defaulted ||| (1 <<< h.table) })
      hst hcount, if_pos hid]
    by_cases hlast : s.boot.position < s.boot.recordCount
    · rw [if_pos hlast]
      exact congrArg _ (if_pos hlast)
    · rw [if_neg hlast]
      exact congrArg _ (if_neg hlast)
  · rw [badTable_of_le (Nat.le_of_not_lt hid), nextRecord_of_tables hst hcount, if_neg hid]

/-- R169: a record of the second walk that is no image is passed over. -/
theorem nextRecord_of_hostImage (hst : s.boot.st = .hostImage) (hh : s.boot.header = none) (n : Nat) :
    s.nextRecord n = if s.boot.position < s.boot.recordCount then s.setBoot (s.boot.passed n) else s.endImageWalk := by
  split_ifs with h
  · exact nextRecord_of_lt h n
  · rw [nextRecord_of_le (Nat.le_of_not_lt h), endWalk_of_hostImage (s := s.setBoot { s.boot with header := none }) hst]
    exact congrArg State.endImageWalk (congrArg s.setBoot (by rw [← hh]))

theorem imageBad_iff (c : BoardConfig) (n a : Nat) : imageBad c n a = true ↔
    n = 0 ∨ 524288 < n ∨ a % 2 = 1 ∨ 0x100000 < a + 2 * n ∨ c.memSize < a + 2 * n
      ∨ (a < c.cbAddr + (256 + 16 * (c.nc + c.nr)) ∧ c.cbAddr < a + 2 * n) := by
  simp only [imageBad, Bool.or_eq_true, decide_eq_true_eq, beq_iff_eq, overlapsControl_iff, or_assoc]
  rfl

theorem writeImage_succ (t : State) (b : Nat) (data : List Half) (k : Nat) : t.writeImage b data (k + 1) =
    (t.issueWrite .table (if data.length ≤ 2048 then .bootImage else .word) b (data.take 2048)).writeImage (b + 4096)
      (data.drop 2048) k := by
  have hlast : (if data.length ≤ 2048 then Req.bootImage else .word)
      = if data.drop Config.transferLength = [] then Req.bootImage else .word := by
    simp only [List.drop_eq_nil_iff, Config.transferLength]
  rw [hlast]
  rfl

end

/-! ### Cold starts -/

theorem cutMemory_of_noWrite {s : State} (h : ∀ b cycles, s.pmc.act = .access b cycles → b.dir = .read) : s.cutMemory = s.mem := by
  unfold State.cutMemory
  cases hact : s.pmc.act with
  | free => rfl
  | refresh => rfl
  | access b cycles =>
    show (match b.dir with | .write => _ | .read => s.mem) = s.mem
    rw [h b cycles hact]

/-- R159, R160: what a cold start leaves. -/
theorem coldStart_eq {s : State} (hmem : s.cutMemory = s.mem) (cause : ColdCause)
    (hacked : s.pins.resetHigh = true → s.rebootOut cause = false) :
    s.coldStart cause = { State.reset with
      pending := s.pending, mem := s.mem, pins := s.pins, freeCount := s.freeCount + 1
      lines := { hook := { level := s.lines.hook.level }, key := { level := s.lines.key.level } }
      boot := { cause := cause, st := if s.pins.resetHigh ∧ s.pins.supplyGood then .romRead else .reset
                rebootAcked := s.rebootOut cause } } := by
  unfold State.coldStart State.leaveReset
  rw [hmem]
  by_cases hpins : s.pins.resetHigh = true ∧ s.pins.supplyGood = true
  · rw [if_pos ⟨rfl, hpins⟩, if_pos hpins, hacked hpins.1]
    rfl
  · rw [if_neg fun h => hpins h.2, if_neg hpins]
    rfl

end Sys2Proof.Machine

namespace Sys2Proof.Proofs

open Sys2Proof Sys2Proof.Machine

/-- Settles O57: each row by the walk the boot is in and the type of its record. -/
theorem bootHeaderRows : Obligations.BootHeaderRows := by
  intro s marker count typeAndTable length destination check image
    x half word records cold reads failed n passed flagged y kind id a halves walked release pastEnd i kept
  have hy : y = x.reads x.romAddr 12 := rfl
  refine ⟨fun hread => ⟨?_, fun hhigh => ?_⟩, fun hgood => ?_, fun hst => ?_, fun hst hh => ?_, fun hst hh hcount => ?_,
    fun hst hh => ⟨fun hbad => ?_,
      fun hkind hpast => ?_, fun hkind hpast => ?_, fun hkind hpast => ⟨fun hbad => ?_, fun hgood => ?_⟩⟩,
    fun t b data k => ⟨writeImage_succ t b data k, rfl⟩, fun hst => ?_⟩
  · exact congrArg Host.Outcome.next (coldStart_eq (s := s.setPins { s.pins with supplyGood := true })
      (cutMemory_of_noWrite hread) .powerOn (fun _ => rfl))
  · refine (if_pos hhigh).trans (congrArg Host.Outcome.next ?_)
    exact coldStart_eq (s := s.setPins { s.pins with resetHigh := false }) (cutMemory_of_noWrite hread) .resetPin
      (fun h => Bool.noConfusion h)
  · refine congrArg Host.Outcome.next ?_
    by_cases hreset : x.st = .reset
    · rw [if_pos hreset]
      exact if_pos ⟨hreset, rfl, hgood⟩
    · rw [if_neg hreset]
      exact if_neg fun h => hreset h.1
  · refine (if_pos hst).trans ?_
    rw [romHalf_eq, romHalf_eq]
    by_cases hheader : half marker 0 = 0xB62C ∧ 1 ≤ records ∧ records ≤ 16
    · rw [if_pos hheader]
      exact if_pos hheader
    · rw [if_neg hheader]
      exact if_neg hheader
  · by_cases hbad : 4 ≤ kind ∨ pastEnd
    · rw [if_pos hbad]
      exact recordHeaderRead_past (.inl hst) hh hbad
    · rw [not_or] at hbad
      obtain ⟨hkind, hpast⟩ := hbad
      obtain ⟨k, hk⟩ := recordTypeOf_of_lt (Nat.lt_of_not_le hkind)
      rw [if_neg (not_or.mpr ⟨hkind, hpast⟩)]
      refine (recordHeaderRead_of (.inl hst) hh hk hpast).trans ?_
      rw [hst]
      have hconfig : k = .config ↔ kind = 0 := recordTypeOf_config_iff hk
      by_cases hgood : kind = 0 ∧ n = 17
      · rw [if_pos hgood, hconfig.mpr hgood.1]
        exact congrArg Host.Outcome.next (if_pos ⟨rfl, hgood.2⟩)
      · rw [if_neg hgood]
        exact congrArg Host.Outcome.next (if_neg fun h => hgood ⟨hconfig.mp h.1, h.2⟩)
  · by_cases hbad : 4 ≤ kind ∨ pastEnd
    · rw [if_pos hbad]
      exact recordHeaderRead_past (.inr (.inl hst)) hh hbad
    · rw [if_neg hbad]
      rw [not_or] at hbad
      obtain ⟨hkind, hpast⟩ := hbad
      obtain ⟨k, hk⟩ := recordTypeOf_of_lt (Nat.lt_of_not_le hkind)
      refine (recordHeaderRead_of (.inr (.inl hst)) hh hk hpast).trans ?_
      rw [hst]
      refine congrArg Host.Outcome.next ?_
      have hwalk : (s.spiRead s.boot.romAddr 12).boot.secondWalk = walked := secondWalk_eq (x := y) hh
      have hpass : (s.spiRead s.boot.romAddr 12).boot.passed n = passed y := passed_eq (x := y) hh n
      rcases recordTypeOf_cases hk with ⟨h0, rfl⟩ | ⟨h0, rfl⟩ | ⟨h0, rfl⟩ | ⟨h0, rfl⟩
      · exact congrArg s.setBoot (if_pos h0).symm
      · refine (tablesHeader_table (s := s.spiRead s.boot.romAddr 12) hst hcount rfl).trans ?_
        rw [if_neg (show kind ≠ 0 from fun h => absurd (h0.symm.trans h) (by decide)), if_pos (show kind = 1 from h0)]
        by_cases hlen : n = 0
        · refine (if_pos hlen).trans (congrArg s.setBoot (Eq.trans ?_ (if_neg fun h => h.2 hlen).symm))
          show flagged (if x.position < x.recordCount then (s.spiRead s.boot.romAddr 12).boot.passed n
            else (s.spiRead s.boot.romAddr 12).boot.secondWalk) id = _
          rw [hwalk, hpass]
        · exact (if_neg hlen).trans (congrArg s.setBoot (if_pos ⟨h0, hlen⟩).symm)
      · have hne : kind ≠ 0 ∧ kind ≠ 1 := by rw [show kind = 2 from h0]; decide
        rw [if_neg hne.1, if_neg (fun h => hne.2 h.1), if_neg hne.2]
        refine (nextRecord_of_tables (s := s.spiRead s.boot.romAddr 12) hst hcount n).trans ?_
        rw [hwalk, hpass]
        by_cases hlast : x.position < x.recordCount
        · exact congrArg s.setBoot ((if_pos hlast).trans (if_pos ⟨h0, hlast⟩).symm)
        · exact congrArg s.setBoot ((if_neg hlast).trans (if_neg fun h => hlast h.2).symm)
      · have hne : kind ≠ 0 ∧ kind ≠ 1 ∧ kind ≠ 2 := by rw [show kind = 3 from h0]; decide
        rw [if_neg hne.1, if_neg (fun h => hne.2.1 h.1), if_neg hne.2.1, if_neg (fun h => hne.2.2 h.1)]
        refine (endWalk_of_tables (s := s.spiRead s.boot.romAddr 12) hst hcount).trans ?_
        exact congrArg s.setBoot hwalk
  · exact recordHeaderRead_past (.inr (.inr hst)) hh hbad
  · obtain ⟨k, hk⟩ := recordTypeOf_of_lt (show kind < 4 by omega)
    refine (recordHeaderRead_of (.inr (.inr hst)) hh hk hpast).trans ?_
    rw [hst]
    have hwalk : (s.spiRead s.boot.romAddr 12).imageHeader (headerAs k typeAndTable length destination check) image
        = (s.setBoot y).nextRecord n := by
      rcases recordTypeOf_cases hk with ⟨h0, rfl⟩ | ⟨h0, rfl⟩ | ⟨h0, rfl⟩ | ⟨h0, rfl⟩
      · rfl
      · rfl
      · exact absurd (h0 ▸ hkind) (by decide)
      · exact absurd (h0 ▸ hkind) (by decide)
    refine congrArg Host.Outcome.next (hwalk.trans ((nextRecord_of_hostImage (s := s.setBoot y) hst hh n).trans ?_))
    by_cases hlast : x.position < x.recordCount
    · rw [if_pos hlast]
      exact (if_pos hlast).trans (congrArg s.setBoot (passed_eq (x := y) hh n))
    · rw [if_neg hlast]
      exact if_neg hlast
  · refine (recordHeaderRead_of (k := .endRecord) (.inr (.inr hst)) hh (congrArg recordTypeOf hkind) hpast).trans ?_
    rw [hst]
    exact congrArg Host.Outcome.next (endWalk_of_hostImage (s := s.spiRead s.boot.romAddr 12) hst)
  · refine (recordHeaderRead_of (k := .hostImage) (.inr (.inr hst)) hh (congrArg recordTypeOf hkind) hpast).trans ?_
    rw [hst]
    exact congrArg Host.Outcome.next (if_pos ((imageBad_iff _ _ _).mpr hbad))
  · refine (recordHeaderRead_of (k := .hostImage) (.inr (.inr hst)) hh (congrArg recordTypeOf hkind) hpast).trans ?_
    rw [hst]
    refine congrArg Host.Outcome.next ((if_neg fun h => hgood ((imageBad_iff _ _ _).mp h)).trans ?_)
    show ((s.setBoot { y.reads (x.romAddr + 12) (2 * n) with
      header := some (headerAs .hostImage typeAndTable length destination check)
      imageSum := checkSum (romHalves n image) }).writeImage a (romHalves n image) (chunksOf n)) = _
    rw [romHalves_eq, reads_again (x := y) rfl]
    rfl
  · refine (if_pos hst).trans ?_
    by_cases hfault : s.boot.fault = true
    · exact (if_pos hfault).trans (congrArg (fun b => Host.Outcome.next (s.setBoot b)) (if_pos hfault).symm)
    · exact (if_neg hfault).trans (congrArg (fun b => Host.Outcome.next (s.setBoot b)) (if_neg hfault).symm)

end Sys2Proof.Proofs
end

