-- ==== Sys2Proof/Proofs/BootData.lean ====
section
/-! The records' data (R163, R165, R168, R169), the memory's bring-up (R166), and the release (R170). -/

namespace Sys2Proof.Machine

open Sys2Proof

variable {s : State}

/-- R166: the memory start request of a memory that is DOWN begins the burst. -/
theorem memoryStart_of_down (h : s.pmc = {}) :
    s.memoryStart = s.setPmc { st := .starting, refreshTimer := true, act := .refresh, burstRem := 7 } := by
  unfold State.memoryStart
  rw [h, if_pos rfl]
  rfl

/-- R165, R166: a good configuration record, with the crystal STOPPED and memory DOWN. -/
theorem applyConfig_eq (hpmc : s.pmc = {}) (hcrystal : s.clk.crystal = .stopped) (c : BoardConfig) :
    s.applyConfig c = (((s.setCfg c).setBoot { s.boot with st := .memoryUp, header := none }).setClk (match c.initial with
      | .crystal | .crystalX2 =>
        { s.clk with crystal := .starting, settle := 0, sw := ⟨.starting, some c.initial, some .boot, 0⟩ }
      | .fastRc | .slowRc => s.clk)).setPmc { st := .starting, refreshTimer := true, act := .refresh, burstRem := 7 } := by
  have hrunning : ¬s.clk.crystal = .running := by rw [hcrystal]; decide
  have hbegin : ∀ g, (g = .crystal ∨ g = .crystalX2) →
      ((s.setCfg c).setBoot { s.boot with st := .memoryUp, header := none }).beginSwitch g .boot =
        ((s.setCfg c).setBoot { s.boot with st := .memoryUp, header := none }).setClk
          { s.clk with crystal := .starting, settle := 0, sw := ⟨.starting, some g, some .boot, 0⟩ } := fun g hg => by
    rw [beginSwitch_eq _ (by rcases hg with rfl | rfl <;> decide)]
    refine (if_neg ?_).trans (if_neg hrunning)
    rintro (rfl | ⟨-, h⟩)
    · exact hg.elim Source.noConfusion Source.noConfusion
    · exact hrunning h
  unfold State.applyConfig
  dsimp only
  cases c.initial with
  | fastRc => exact memoryStart_of_down (s := (s.setCfg c).setBoot _) hpmc
  | slowRc => exact memoryStart_of_down (s := (s.setCfg c).setBoot _) hpmc
  | crystal =>
    refine (congrArg State.memoryStart (hbegin .crystal (.inl rfl))).trans ?_
    exact memoryStart_of_down (s := ((s.setCfg c).setBoot _).setClk _) hpmc
  | crystalX2 =>
    refine (congrArg State.memoryStart (hbegin .crystalX2 (.inr rfl))).trans ?_
    exact memoryStart_of_down (s := ((s.setCfg c).setBoot _).setClk _) hpmc

theorem enterTables_eq (himages : s.boot.images = 0) : s.enterTables = s.setBoot
    (if 2 ≤ s.boot.recordCount then { s.boot with st := .tables, position := 2, romAddr := 50 }
     else Boot.failed { s.boot with st := .hostImage, position := 2, romAddr := 50 } 4) := by
  unfold State.enterTables
  dsimp only
  by_cases hcount : 2 ≤ s.boot.recordCount
  · rw [if_pos hcount]
    exact if_neg (Nat.not_lt.mpr hcount)
  · have hlt := Nat.lt_of_not_le hcount
    rw [if_neg hcount]
    refine (if_pos hlt).trans ((if_pos hlt).trans ?_)
    exact if_pos himages

/-- R168: the table of a good TABLE record. -/
theorem goodTable_of {h : RecordHeader} {data : List Half} {id : TableId} (hid : h.table = tableIdCode id) :
    goodTable h data = if checkSum data = h.check ∧ data.length ≤ 2048 then (parseTable id data).map fun t => (id, t) else none := by
  unfold goodTable
  rw [(tableIdOf_eq_some h.table id).mpr hid]
  rfl

theorem tableIdOf_of_le {n : Nat} (h : 12 ≤ n) : tableIdOf n = none := by
  match n, h with
  | n + 4, h => exact dif_neg (by omega)

theorem badTable_of {n : Nat} {id : TableId} (h : n = tableIdCode id) (s : State) :
    s.badTable n = s.setBoot { s.boot with defaulted := s.boot.defaulted ||| (1 <<< tableIdCode id) } := by
  unfold State.badTable
  rw [(tableIdOf_eq_some n id).mpr h]
  rfl

/-- Installing a table leaves the boot record, and does not depend on it. -/
theorem installTable_setBoot (s : State) (t : TableData) (x y : Boot) :
    ((s.setBoot x).installTable t).setBoot y = (s.installTable t).setBoot y := by
  cases t <;> rfl

/-! ### The rows, by the header of their record -/

section
variable {h : RecordHeader} {bytes : List (Option Byte)}

theorem configRecordRead_bad (hst : s.boot.st = .config) (hh : s.boot.header = some h)
    (hbad : checkSum (romHalves h.length bytes) = h.check → parseConfig (romHalves h.length bytes) = none) :
    exec (.configRecordRead bytes) s = .next ((s.spiRead (s.boot.romAddr + 12) (2 * h.length)).bootFail 2) := by
  have hnone : (if checkSum (romHalves h.length bytes) = h.check then parseConfig (romHalves h.length bytes) else none) = none := by
    split_ifs with hsum
    · exact hbad hsum
    · rfl
  show execConfigRecordRead bytes s = _
  simp only [execConfigRecordRead, hst, hh, hnone]

theorem configRecordRead_good {c : BoardConfig} (hst : s.boot.st = .config) (hh : s.boot.header = some h)
    (hsum : checkSum (romHalves h.length bytes) = h.check) (hparse : parseConfig (romHalves h.length bytes) = some c) :
    exec (.configRecordRead bytes) s = .next ((s.spiRead (s.boot.romAddr + 12) (2 * h.length)).applyConfig c) := by
  show execConfigRecordRead bytes s = _
  simp only [execConfigRecordRead, hst, hh, hsum, if_true, hparse]

theorem tableRecordRead_bad (hst : s.boot.st = .tables) (hh : s.boot.header = some h)
    (hbad : goodTable h (romHalves h.length bytes) = none) :
    exec (.tableRecordRead bytes) s = .next ((((s.spiRead (s.boot.romAddr + 12) (2 * h.length)).fillLoadArea
      (romHalves h.length bytes)).badTable h.table).nextRecord h.length) := by
  show execTableRecordRead bytes s = _
  simp only [execTableRecordRead, hst, hh, hbad]

theorem tableRecordRead_good {id : TableId} {t : TableData} (hst : s.boot.st = .tables) (hh : s.boot.header = some h)
    (hgood : goodTable h (romHalves h.length bytes) = some (id, t)) :
    exec (.tableRecordRead bytes) s = .next (((((s.setBoot (s.boot.reads (s.boot.romAddr + 12) (2 * h.length))).fillLoadArea
      (romHalves h.length bytes)).installTable t).setBoot { s.boot.reads (s.boot.romAddr + 12) (2 * h.length) with
        defaulted := setDefaulted s.boot.defaulted id false }).nextRecord h.length) := by
  have hboot := installTable_boot ((s.setBoot (s.boot.reads (s.boot.romAddr + 12) (2 * h.length))).fillLoadArea
    (romHalves h.length bytes)) t
  show execTableRecordRead bytes s = _
  simp only [execTableRecordRead, hst, hh, hgood, spiRead_eq, hboot]
  rfl

theorem imageWritesAcknowledged_bad (hst : s.boot.st = .hostImage) (hh : s.boot.header = some h) (hsum : s.boot.imageSum ≠ h.check) :
    exec .imageWritesAcknowledged (s.delivered .bootImage []) = .next (s.bootFail 4) := by
  show execImageWritesAcknowledged _ = _
  simp only [execImageWritesAcknowledged, delivered_boot, hst, hh, delivered_hasDone, if_true, delivered_takeOne, hsum, if_false]

theorem imageWritesAcknowledged_good (hst : s.boot.st = .hostImage) (hh : s.boot.header = some h) (hsum : s.boot.imageSum = h.check) :
    exec .imageWritesAcknowledged (s.delivered .bootImage [])
      = .next ((s.setBoot { s.boot with images := s.boot.images + 1 }).nextRecord h.length) := by
  show execImageWritesAcknowledged _ = _
  simp only [execImageWritesAcknowledged, delivered_boot, hst, hh, delivered_hasDone, if_true, delivered_takeOne, hsum]

end

theorem enterRelease_eq (s : State) : s.enterRelease =
    (let u := ((s.setBoot { s.boot with st := .release }).setLines { s.lines with
        watching := true, hook := { s.lines.hook with stable := s.lines.hook.level }
        key := { s.lines.key with stable := s.lines.key.level } }).setSense { s.sense with periodTimer := true }
     ((u.issueWrite .table .word s.cfg.cbAddr [0, 0, 0, 0, 0, 0]).issueWrite .table .word
        (s.cfg.cbAddr + 16) [0, 0, 0, 0, 0, 0, 0, 0]).issueWrite .table .bootInit (s.cfg.cbAddr + 32)
        (u.snapshotHalves 0 .ready)) := rfl

end Sys2Proof.Machine

namespace Sys2Proof.Proofs

open Sys2Proof Sys2Proof.Machine

/-- Settles O58: each row by the state of the boot, its record good or bad. -/
theorem bootDataRows : Obligations.BootDataRows := by
  intro s h bytes tag code x half data a y failed passed walked good
  have hdata : romHalves h.length bytes = data := romHalves_eq h.length bytes
  have hlength : data.length = h.length := by simp [data]
  refine ⟨fun hst hh => ⟨fun hbad => ?_, fun c hgood hparse hpmc hcrystal => ?_⟩, fun hst hrem hboot himages => ?_,
    fun hst hh hcount => ⟨fun hid => ?_, fun id hid => ⟨fun hbad => ?_, fun t hgood hlen hparse => ?_⟩⟩,
    fun hst hh hnone => ⟨fun hsum => ?_, fun hsum hlt => ?_, fun hsum hle => ?_⟩, enterRelease_eq s, fun hst hnone => ?_, ?_, ?_⟩
  · exact configRecordRead_bad hst hh (hdata ▸ fun hsum => hbad.resolve_left (not_not_intro hsum))
  · refine (configRecordRead_good hst hh (hdata ▸ hgood) (hdata ▸ hparse)).trans (congrArg Host.Outcome.next ?_)
    exact applyConfig_eq (s := s.spiRead a (2 * h.length)) hpmc hcrystal c
  · refine (if_pos hrem).trans ?_
    rw [hst]
    refine congrArg Host.Outcome.next ((if_pos hboot).trans ?_)
    exact enterTables_eq (s := s.setPmc { s.pmc with st := .running }) himages
  · have hnone : goodTable h (romHalves h.length bytes) = none := by
      unfold goodTable
      rw [tableIdOf_of_le hid]
    refine (tableRecordRead_bad hst hh hnone).trans (congrArg Host.Outcome.next ?_)
    rw [badTable_of_le hid, hdata]
    exact nextRecord_of_tables (s := (s.spiRead a (2 * h.length)).fillLoadArea data) hst hcount h.length
  · have hnone : goodTable h (romHalves h.length bytes) = none := by
      rw [hdata, goodTable_of hid]
      split_ifs with hg
      · rw [(hbad.resolve_left (not_not_intro hg.1)).resolve_left
          (by rw [← hlength]; exact Nat.not_lt.mpr hg.2)]
        rfl
      · rfl
    refine (tableRecordRead_bad hst hh hnone).trans (congrArg Host.Outcome.next ?_)
    rw [badTable_of hid, hdata]
    exact nextRecord_of_tables (s := ((s.spiRead a (2 * h.length)).fillLoadArea data).setBoot
      { y with defaulted := x.defaulted ||| (1 <<< tableIdCode id) }) hst hcount h.length
  · have hsome : goodTable h (romHalves h.length bytes) = some (id, t) := by
      rw [hdata, goodTable_of hid, if_pos ⟨hgood, hlength.trans_le hlen⟩, hparse]
      rfl
    refine (tableRecordRead_good hst hh hsome).trans (congrArg Host.Outcome.next ?_)
    rw [hdata]
    refine (nextRecord_of_tables (s := (((s.setBoot y).fillLoadArea data).installTable t).setBoot
      { y with defaulted := setDefaulted x.defaulted id false }) hst hcount h.length).trans ?_
    exact installTable_setBoot (s.fillLoadArea data) t y _
  · exact imageWritesAcknowledged_bad hst hh hsum
  · refine (imageWritesAcknowledged_good hst hh hsum).trans (congrArg Host.Outcome.next ?_)
    exact nextRecord_of_lt (s := s.setBoot { s.boot with images := s.boot.images + 1 }) hlt h.length
  · refine (imageWritesAcknowledged_good hst hh hsum).trans (congrArg Host.Outcome.next ?_)
    refine (nextRecord_of_le (s := s.setBoot { s.boot with images := s.boot.images + 1 }) hle h.length).trans ?_
    refine (endWalk_of_hostImage (s := s.setBoot { s.boot with images := s.boot.images + 1, header := none }) hst).trans ?_
    exact if_neg (Nat.succ_ne_zero _)
  · refine (if_pos ⟨hst, delivered_hasDone s .bootInit []⟩).trans ?_
    rw [delivered_takeOne]
    rfl
  · simp only [exec, execReboot, claimCommand_given]
    split_ifs <;> rfl
  · simp only [exec, execUnknownCommand, claimCommand_given]

end Sys2Proof.Proofs
end

