-- ==== Sys2Proof/Proofs/ScanStops.lean ====
section
/-! The ends of a page (R44 to R46), the document's edges (R40, R41), and the margins (R47, R48). -/

namespace Sys2Proof.Machine

open Sys2Proof

/-! ### Stop requests -/

/-- R86: a stop request, by the state of the channel. -/
theorem Channel.stop_eq (c : Channel) (cause : StopCause) : c.stop cause =
    if c.st ≠ .run ∧ c.st ≠ .move then c
    else if c.remaining = some (c.ramp + 1) then { c with st := .stopping }
    else { c with st := .stopping, remaining := some (c.ramp + 1), stopCause := some cause } := by
  unfold Channel.stop
  cases c.st <;> simp

theorem Channel.stop_stopping {c : Channel} (h : c.st = .run ∨ c.st = .move) (cause : StopCause) : (c.stop cause).st = .stopping := by
  rw [Channel.stop_eq, if_neg (fun hn => h.elim hn.1 hn.2)]
  split_ifs <;> rfl

section
variable {s : State}

theorem scanCheckMargin_of (h : s.scan.st = .capture ∨ s.scan.st = .trailing) : s.scanCheckMargin =
    if s.ringFree s.scan.params.ring ≤ s.scan.params.stopMargin then
      (s.setDoc (s.doc.stop .request)).setScan
        { s.scan with st := .stalled, stalledFrom := s.scan.st, stallCount := min 255 (s.scan.stallCount + 1) }
    else s := by
  unfold State.scanCheckMargin
  dsimp only
  rcases h with h | h <;> rw [h] <;> rfl

theorem scanCheckMargin_of_not (hc : s.scan.st ≠ .capture) (ht : s.scan.st ≠ .trailing) : s.scanCheckMargin = s := by
  unfold State.scanCheckMargin
  dsimp only
  cases h : s.scan.st
  case capture => exact absurd h hc
  case trailing => exact absurd h ht
  all_goals rfl

/-! ### The end of a page -/

/-- R45: the PAGE_SCANNED cell of a page that ended with a reason. -/
theorem handPageScanned_eq (hmode : s.scan.params.mode ≠ .cal) {reason : ScanReason} (hreason : s.scan.endReason = some reason)
    (mark : CellMark) : s.handPageScanned mark = s.handEvent .pageScanned 0 (scanReasonResult reason)
      ([byte s.scan.params.ring.val, byte (scanReasonCode reason), if 0 < s.scan.lostSinceWritten then 1 else 0]
        ++ twoBytes s.scan.linesWritten ++ twoBytes s.scan.lostNoBuffer ++ twoBytes s.scan.lostOverrun
        ++ twoBytes s.scan.lostNoSlot ++ [byte s.scan.stallCount]) mark := by
  have htail : byte (flag (decide (0 < s.scan.lostSinceWritten)) 0) = if 0 < s.scan.lostSinceWritten then 1 else 0 := by
    by_cases h : 0 < s.scan.lostSinceWritten <;> simp [h, flag, byte]
  unfold State.handPageScanned Scan.pageFields
  simp only [hmode, hreason, Option.getD_some, if_false, decide_false, Bool.not_false, Bool.true_and, htail]

/-- R44: the cell of a page end is handed or finds no slot, and then the stream is off where DOC is at rest. -/
theorem scanPageEndComplete_eq (hst : s.scan.st = .ending) :
    s.scanPageEndComplete =
      if s.cells.taking ≠ .notStarted ∧ 0 < s.respFree then
        (s.handPageScanned .pageScanned).setScan { s.scan with endCell := .handed }
      else if s.doc.moving then (s.handPageScanned .pageScanned).setScan { s.scan with endCell := .written }
      else (((s.handPageScanned .pageScanned).setScan { s.scan with endCell := .written, st := .off }).setRing s.scan.params.ring
        { s.ring s.scan.params.ring with prodAttached := false }).setDoc { s.doc with owner := .host } := by
  have hscan : (s.handPageScanned .pageScanned).scan = s.scan := by simp
  have hdoc : (s.handPageScanned .pageScanned).doc = s.doc := by simp
  have hring : (s.handPageScanned .pageScanned).ring s.scan.params.ring = s.ring s.scan.params.ring := by simp [State.handPageScanned]
  have hfits : s.eventFits = true ↔ s.cells.taking ≠ .notStarted ∧ 0 < s.respFree := by simp [State.eventFits]
  show (((s.handPageScanned .pageScanned).setScan { (s.handPageScanned .pageScanned).scan with
    endCell := if s.eventFits then .handed else .written }).scanTryOff) = _
  rw [hscan]
  by_cases hf : s.cells.taking ≠ .notStarted ∧ 0 < s.respFree
  · rw [if_pos hf, hfits.mpr hf]
    exact if_neg fun h => absurd (show EndCell.handed = .written from h.2.1) (by decide)
  · rw [if_neg hf, Bool.eq_false_iff.mpr (mt hfits.mp hf)]
    by_cases hmoving : s.doc.moving = true
    · rw [if_pos hmoving]
      refine if_neg fun h => ?_
      have hrest : (s.handPageScanned .pageScanned).doc.atRest = true := h.2.2
      rw [hdoc, Channel.atRest, hmoving] at hrest
      exact Bool.noConfusion hrest
    · rw [if_neg hmoving]
      have hrest : (s.handPageScanned .pageScanned).doc.atRest = true := by
        rw [hdoc, Channel.atRest, Bool.eq_false_iff.mpr hmoving]
        rfl
      refine (if_pos ⟨hst, rfl, hrest⟩).trans ?_
      · show (((s.handPageScanned .pageScanned).setScan { s.scan with endCell := .written, st := .off }).setRing s.scan.params.ring
          { (s.handPageScanned .pageScanned).ring s.scan.params.ring with prodAttached := false }).setDoc
            { (s.handPageScanned .pageScanned).doc with owner := .host } = _
        rw [hring, hdoc]

/-- R44: an ending page, DOC asked to stop and the ring to end the page. -/
def State.pageEnding (s : State) (reason : ScanReason) (d : RingDesc) : State :=
  (((s.setScan { s.scan with st := .ending, endReason := some reason, endCell := .notYet }).setDoc (s.doc.stop .request)).askPageEnd
    s.scan.params.ring (decide (0 < s.scan.lostSinceWritten))).beginPageEnd s.scan.params.ring d

@[simp] theorem pageEnding_scan (reason : ScanReason) (d : RingDesc) : (s.pageEnding reason d).scan =
    { s.scan with st := .ending, endReason := some reason, endCell := .notYet } := by simp [State.pageEnding]

@[simp] theorem pageEnding_doc (reason : ScanReason) (d : RingDesc) : (s.pageEnding reason d).doc = s.doc.stop .request := by
  simp [State.pageEnding]

/-- R44: a page's end is complete at once where no slot is held or written. -/
theorem scanPageEnd_eq {d : RingDesc} (hd : (s.ring s.scan.params.ring).desc = some d) (reason : ScanReason) :
    s.scanPageEnd reason =
      if ((s.pageEnding reason d).ring s.scan.params.ring).pageEnd.isSome then s.pageEnding reason d
      else (s.pageEnding reason d).scanPageEndComplete := by
  have hflip : ∀ w : State, (if (w.ring s.scan.params.ring).pageEnd.isNone then w.scanPageEndComplete else w)
      = if (w.ring s.scan.params.ring).pageEnd.isSome then w else w.scanPageEndComplete := fun w => by
    cases (w.ring s.scan.params.ring).pageEnd <;> rfl
  unfold State.scanPageEnd
  dsimp only
  split
  case h_1 hnone => exact absurd (hd.symm.trans hnone) (Option.some_ne_none d)
  case h_2 d' hsome =>
    obtain rfl : d = d' := Option.some.inj (hd.symm.trans hsome)
    exact hflip _

/-! ### What an ending page leaves -/

@[simp] theorem State.scanTryOff_docSt : s.scanTryOff.doc.st = s.doc.st := by
  unfold State.scanTryOff
  split_ifs <;> rfl

@[simp] theorem State.scanPageEndComplete_docSt : s.scanPageEndComplete.doc.st = s.doc.st := by
  unfold State.scanPageEndComplete
  simp

theorem Scan.Left.readoutBuf {x y : Scan} (h : x.Left y) : y.readoutBuf = x.readoutBuf := by
  obtain rfl | rfl := h <;> rfl

@[simp] theorem State.scanPageEndComplete_readoutBuf : s.scanPageEndComplete.scan.readoutBuf = s.scan.readoutBuf := by
  unfold State.scanPageEndComplete
  exact (scanTryOff_left _).readoutBuf.trans (by simp [Scan.readoutBuf])

/-- R44: a page that ends stops DOC, and its end may be complete at once. -/
theorem scanPageEnd_cases (reason : ScanReason) : ∃ w : State,
    w.scan = { s.scan with st := .ending, endReason := some reason, endCell := .notYet } ∧ w.doc = s.doc.stop .request
      ∧ (s.scanPageEnd reason = w ∨ s.scanPageEnd reason = w.scanPageEndComplete) := by
  cases hd : (s.ring s.scan.params.ring).desc with
  | none =>
    refine ⟨(s.setScan { s.scan with st := .ending, endReason := some reason, endCell := .notYet }).setDoc (s.doc.stop .request),
      rfl, rfl, .inl ?_⟩
    unfold State.scanPageEnd
    dsimp only
    split
    case h_1 => rfl
    case h_2 d hsome => exact absurd (hd.symm.trans hsome).symm (Option.some_ne_none d)
  | some d =>
    refine ⟨s.pageEnding reason d, pageEnding_scan reason d, pageEnding_doc reason d, ?_⟩
    rw [scanPageEnd_eq hd]
    split_ifs
    · exact .inl rfl
    · exact .inr rfl

theorem scanPageEnd_docSt (reason : ScanReason) : (s.scanPageEnd reason).doc.st = (s.doc.stop .request).st := by
  obtain ⟨w, -, hdoc, h | h⟩ := scanPageEnd_cases (s := s) reason
  · rw [h, hdoc]
  · rw [h, State.scanPageEndComplete_docSt, hdoc]

theorem scanPageEnd_readoutBuf (reason : ScanReason) : (s.scanPageEnd reason).scan.readoutBuf = s.scan.readoutBuf := by
  obtain ⟨w, hscan, -, h | h⟩ := scanPageEnd_cases (s := s) reason
  · rw [h, hscan]
    rfl
  · rw [h, State.scanPageEndComplete_readoutBuf, hscan]
    rfl

/-- R43: a cut in the page abandons the readout and ends the page. -/
theorem scanCut_inPage (h : s.scan.st = .waitEdge ∨ s.scan.st = .capture ∨ s.scan.st = .stalled ∨ s.scan.st = .trailing)
    (reason : ScanReason) : s.scanCut reason = (s.setScan s.scan.abandonReadout).scanPageEnd reason := by
  unfold State.scanCut
  rcases h with h | h | h | h <;> rw [h]

theorem abandonReadout_of_none {x : Scan} (h : x.readoutBuf = none) : x.abandonReadout = x := by
  unfold Scan.abandonReadout
  rw [h]

theorem abandonReadout_of_some {x : Scan} {i : BufId} (h : x.readoutBuf = some i) : x.abandonReadout = { x.setBuf i {} with
    lostOverrun := min 65535 (x.lostOverrun + 1), lostSinceWritten := min 255 (x.lostSinceWritten + 1)
    nextRow := List.replicate 2048 0, carry := 0 } := by
  unfold Scan.abandonReadout
  rw [h]
  cases i <;> rfl

/-- R42: a closing page ends where no readout is in progress. -/
theorem scanCloseIfIdle_closing (hc : s.scan.closing = true) {reason : ScanReason} (hr : s.scan.endReason = some reason) :
    s.scanCloseIfIdle = if s.scan.readoutBuf = none then s.scanPageEnd reason else s := by
  unfold State.scanCloseIfIdle
  rw [hr]
  by_cases h : s.scan.readoutBuf = none
  · rw [if_pos ⟨hc, h⟩, if_pos h]
    rfl
  · rw [if_neg fun h' => h h'.2, if_neg h]

theorem closeAtEdge_eq : s.closeAtEdge =
    if s.scan.trailingRemaining ≠ 0 ∨ s.scan.closing then s
    else if s.scan.readoutBuf = none then
      (s.setScan { s.scan with closing := true, endReason := some .edge }).scanPageEnd .edge
    else s.setScan { s.scan with closing := true, endReason := some .edge } := by
  unfold State.closeAtEdge
  dsimp only
  by_cases h : s.scan.trailingRemaining ≠ 0 ∨ s.scan.closing = true
  · rw [if_pos h]
    exact if_neg fun h' => h.elim (fun hn => hn h'.1) h'.2
  · rw [if_neg h]
    rw [not_or, not_not] at h
    exact (if_pos h).trans (scanCloseIfIdle_closing (s := s.setScan { s.scan with closing := true, endReason := some .edge }) rfl rfl)

/-- R41: the document's end, by the state of the stream. -/
theorem docEdgeLow_eq : s.docEdgeLow =
    if s.scan.st = .capture ∧ 0 < s.scan.skipRemaining then s.scanPageEnd .edge
    else if s.scan.st = .capture then (s.setScan { s.scan with st := .trailing }).closeAtEdge
    else if s.scan.st = .stalled ∧ s.scan.stalledFrom = .capture then (s.setScan { s.scan with stalledFrom := .trailing }).closeAtEdge
    else s := by
  unfold State.docEdgeLow
  dsimp only
  cases s.scan.st <;> simp

end

end Sys2Proof.Machine

namespace Sys2Proof.Proofs

open Sys2Proof Sys2Proof.Machine

/-- Settles O33: each row by the state of the stream. -/
theorem scanStopsAndStalls : Obligations.ScanStopsAndStalls := by
  intro s tag free stop
  have hstop : ∀ c cause, stop c cause = Channel.stop c cause := fun c cause => (Channel.stop_eq c cause).symm
  refine ⟨fun hst => ?_, fun hoff hend => ?_, fun hst => ?_, fun hst => ?_, fun hst => ?_, scanCheckMargin_of_not,
    scanRestart_of_running, fun reason d hd hmode => ?_, fun hcal reason => ?_, rfl, ?_, ?_⟩
  · simp only [exec, execStopScan, claimCommand_given, hst, if_true]
  · simp only [exec, execStopScan, claimCommand_given, hoff, hend, or_self, if_false]
  · have hrow : exec (.stopScan tag) (s.given (.stopScan tag)) = .next ((s.handDone tag 4 .done).scanCut .stopped) := by
      rcases hst with h | h | h | h <;> simp [exec, execStopScan, claimCommand_given, h]
    have hst' : (s.handDone tag 4 .done).scan.st = .waitEdge ∨ (s.handDone tag 4 .done).scan.st = .capture
      ∨ (s.handDone tag 4 .done).scan.st = .stalled ∨ (s.handDone tag 4 .done).scan.st = .trailing := by simpa using hst
    obtain ⟨hreason, hended⟩ := scanCut_ended (s.handDone tag 4 .done) .stopped hst'
    have hground : ((s.handDone tag 4 .done).scanCut .stopped).ground = s.ground := by simp
    refine ⟨_, hrow, hended, hreason, fun hdoc => ?_, fun hacc => ?_, congrArg Ground.mem hground, by simp, by simp, by simp, by simp,
      by simp, by simp, congrArg Ground.tables hground, congrArg Ground.boot hground⟩
    · rw [scanCut_inPage hst', scanPageEnd_docSt]
      exact Channel.stop_stopping (by simpa using hdoc) .request
    · rw [scanCut_inPage hst', scanPageEnd_readoutBuf]
      have hpage : s.scan.inPage := by rcases hst with h | h | h | h <;> simp [Scan.inPage, h]
      obtain ⟨htold, hlimit, hwithin, -, hone⟩ := (accounted_iff s.scan).mp hacc hpage
      show ((s.handDone tag 4 .done).scan.abandonReadout).readoutBuf = none
      rw [State.handDone_scan]
      exact (told_abandonReadout hone (by omega)).2
  · rw [scanCheckMargin_of hst, hstop]
  · by_cases hdoc : s.doc.st = .hold ∧ s.scan.params.restartMargin ≤ free
    · rw [if_pos hdoc, scanRestart_of hst hdoc.1 hdoc.2]
    · rw [if_neg hdoc]
      exact scanRestart_of_not fun h => hdoc h.2
  · intro r x v w u
    have hv : v = (s.setScan x).setDoc (s.doc.stop .request) := congrArg (s.setScan x).setDoc (hstop s.doc .request)
    have hw : w = s.pageEnding reason d := by
      show (v.askPageEnd r _).beginPageEnd r d = _
      rw [hv]
      rfl
    have hscan : w.scan = x := hw ▸ pageEnding_scan reason d
    have hdoc : w.doc = v.doc := (hw ▸ pageEnding_doc reason d).trans (hv ▸ rfl)
    have hu : w.handPageScanned .pageScanned = u := by
      rw [handPageScanned_eq (by rw [hscan]; exact hmode) (by rw [hscan]), hscan]
      cases reason <;> rfl
    rw [scanPageEnd_eq hd, ← hw]
    refine ite_congr rfl (fun _ => rfl) (fun _ => ?_)
    rw [scanPageEndComplete_eq (by rw [hscan]), hu, hscan, hdoc]
  · by_cases hst : s.scan.st = .off ∨ s.scan.st = .ending
    · rw [if_pos hst]
      unfold State.scanCut
      rcases hst with h | h <;> rw [h]
    · rw [if_neg hst, scanCut_inPage (by cases h : s.scan.st <;> simp_all)]
      refine congrArg (fun y => (s.setScan y).scanPageEnd reason) ?_
      cases h : s.scan.readoutBuf with
      | none => exact abandonReadout_of_none h
      | some i => exact abandonReadout_of_some h
  · intro close
    have hclose : ∀ x : Scan, x.trailingRemaining = s.scan.trailingRemaining → x.closing = s.scan.closing
        → x.readoutBuf = s.scan.readoutBuf → (s.setScan x).closeAtEdge = close x := fun x ht hc hb => by
      show _ = if s.scan.trailingRemaining ≠ 0 ∨ s.scan.closing = true then _ else if s.scan.readoutBuf = none then _ else _
      rw [← ht, ← hc, ← hb]
      exact closeAtEdge_eq
    rw [show s.zoneToBlocks .docEdge .low = s.docEdgeLow from rfl, docEdgeLow_eq, ← hclose, ← hclose]
    all_goals rfl
  · unfold State.lamp
    cases h : s.scan.st <;> simp

end Sys2Proof.Proofs
end

