-- ==== Sys2Proof/Proofs/Readout.lean ====
section
/-! A finished readout (R30): its pels (R34 to R36), the words they form (R39, 10.7), and the line it becomes (R31, R32). -/

namespace Sys2Proof.Machine

open Sys2Proof

/-! ### Packed pels -/

theorem testBit_foldl_pels (pels : List Bool) (acc k : Nat) :
    (pels.foldl (fun acc b => 2 * acc + (if b then 1 else 0)) acc).testBit k =
      if k < pels.length then pels.getD (pels.length - 1 - k) false else acc.testBit (k - pels.length) := by
  induction pels generalizing acc with
  | nil => simp
  | cons b bs ih =>
    rw [List.foldl_cons, ih, List.length_cons]
    rcases Nat.lt_trichotomy k bs.length with hk | rfl | hk
    · rw [if_pos hk, if_pos (Nat.lt_succ_of_lt hk), show bs.length + 1 - 1 - k = bs.length - 1 - k + 1 by omega, List.getD_cons_succ]
    · rw [if_neg (lt_irrefl _), if_pos (Nat.lt_succ_self _), Nat.sub_self, Nat.testBit_zero,
        show bs.length + 1 - 1 - bs.length = 0 by omega, List.getD_cons_zero]
      cases b <;> simp
    · obtain ⟨j, rfl⟩ := Nat.exists_eq_add_of_lt hk
      rw [if_neg (show ¬bs.length + j + 1 < bs.length by omega), if_neg (show ¬bs.length + j + 1 < bs.length + 1 by omega),
        show bs.length + j + 1 - bs.length = j + 1 by omega,
        show bs.length + j + 1 - (bs.length + 1) = j by omega, Nat.testBit_succ]
      congr 1
      cases b
      · simp
      · simp; omega

theorem packWord_pel {pels : List Bool} (h : pels.length = 32) {i : Nat} (hi : i < 32) :
    (packWord pels).getLsbD (31 - i) = pels.getD i false := by
  rw [packWord, BitVec.getLsbD_ofNat, testBit_foldl_pels, h, if_pos (by omega), show 32 - 1 - (31 - i) = i by omega,
    decide_eq_true (show 31 - i < 32 by omega), Bool.true_and]

theorem packWords_length (n : Nat) (pels : List Bool) : (packWords n pels).length = n := by
  induction n generalizing pels with
  | zero => rfl
  | succ n ih => simp [packWords, ih]

theorem packWords_getD {n : Nat} (pels : List Bool) {k : Nat} (hk : k < n) :
    (packWords n pels).getD k 0 = packWord ((pels.drop (32 * k)).take 32) := by
  induction n generalizing pels k with
  | zero => exact absurd hk k.not_lt_zero
  | succ n ih =>
    cases k with
    | zero => rfl
    | succ k =>
      rw [packWords, List.getD_cons_succ, ih _ (Nat.lt_of_succ_lt_succ hk), List.drop_drop, Nat.mul_succ, Nat.add_comm]

/-- R39: pel i of a packed line. -/
theorem packWords_pel {n : Nat} {pels : List Bool} (h : pels.length = 32 * n) {i : Nat} (hi : i < 32 * n) :
    ((packWords n pels).getD (i / 32) 0).getLsbD (31 - i % 32) = pels.getD i false := by
  have hlen : ((pels.drop (32 * (i / 32))).take 32).length = 32 := by
    rw [List.length_take, List.length_drop]
    omega
  have hmod : i % 32 < 32 := Nat.mod_lt _ (by decide)
  rw [packWords_getD pels (by omega), packWord_pel hlen hmod, List.getD_eq_getElem?_getD, List.getElem?_take_of_lt hmod,
    List.getElem?_drop, Nat.div_add_mod, List.getD_eq_getElem?_getD]

/-! ### Error diffusion -/

/-- R35: the values of a line, each the tone, the row's entry and 7/16 of the error before it. -/
def diffuseValues (carry : Int) : List (Nat × Int) → List Int
  | [] => []
  | (t, row) :: rest =>
    let v := (t : Int) + (row + carry)
    v :: diffuseValues (errorShare 7 (diffuseError v)) rest

/-- R36: the entries the errors of a line leave for the row below. `cur` is what the first entry has gathered. -/
def rowBelow (cur : Int) : List Int → List Int
  | [] => []
  | e :: es => (cur + belowShare e + (es.head?.map (errorShare 3)).getD 0) :: rowBelow (errorShare 1 e) es

theorem diffuse_eq (prev : Option Int) (cur carry : Int) (line : List (Nat × Int)) :
    diffuse prev cur carry line =
      ((diffuseValues carry line).map diffuseBlack,
        (prev.map (· + ((((diffuseValues carry line).map diffuseError).head?.map (errorShare 3)).getD 0))).toList
          ++ rowBelow cur ((diffuseValues carry line).map diffuseError)) := by
  induction line generalizing prev cur carry with
  | nil => cases prev <;> simp [diffuse, diffuseValues, rowBelow]
  | cons p rest ih => simp [diffuse, diffuseValues, rowBelow, ih]

theorem diffuseValues_length (carry : Int) (line : List (Nat × Int)) : (diffuseValues carry line).length = line.length := by
  induction line generalizing carry with
  | nil => rfl
  | cons p rest ih => exact congrArg (· + 1) (ih _)

theorem diffuseValues_getD (line : List (Nat × Int)) {e : Nat → Int} {carry : Int}
    (he : ∀ j < line.length, e j = diffuseError ((line.getD j (0, 0)).1 + (line.getD j (0, 0)).2
      + (if j = 0 then carry else errorShare 7 (e (j - 1))))) {j : Nat} (hj : j < line.length) :
    (diffuseValues carry line).getD j 0 = (line.getD j (0, 0)).1 + (line.getD j (0, 0)).2
      + (if j = 0 then carry else errorShare 7 (e (j - 1))) := by
  induction line generalizing carry e j with
  | nil => exact absurd hj j.not_lt_zero
  | cons p rest ih =>
    cases j with
    | zero => simp [diffuseValues, Int.add_assoc]
    | succ j =>
      have hfirst : e 0 = diffuseError ((p.1 : Int) + (p.2 + carry)) := by simpa [Int.add_assoc] using he 0 (by simp)
      have htail := ih (e := fun j => e (j + 1)) (carry := errorShare 7 (e 0)) (fun j hj => by
        have hj' := he (j + 1) (by simpa using hj)
        cases j <;> simpa using hj') (by simpa using hj)
      rw [diffuseValues, List.getD_cons_succ, ← hfirst, htail, List.getD_cons_succ]
      cases j <;> simp

theorem rowBelow_length (cur : Int) (es : List Int) : (rowBelow cur es).length = es.length := by
  induction es generalizing cur with
  | nil => rfl
  | cons e es ih => exact congrArg (· + 1) (ih _)

/-- R36: an entry has 3/16 of the error after it, 1/16 of the error before it, and the rest of its own. -/
theorem rowBelow_getD (cur : Int) (es : List Int) {j : Nat} (hj : j < es.length) :
    (rowBelow cur es).getD j 0 = belowShare (es.getD j 0) + (if 0 < j then errorShare 1 (es.getD (j - 1) 0) else cur)
      + (if j + 1 < es.length then errorShare 3 (es.getD (j + 1) 0) else 0) := by
  induction es generalizing cur j with
  | nil => exact absurd hj j.not_lt_zero
  | cons e es ih =>
    cases j with
    | zero => cases es <;> simp [rowBelow, Int.add_comm]
    | succ j =>
      have hnext : j + 1 + 1 < (e :: es).length ↔ j + 1 < es.length := by simp
      rw [rowBelow, List.getD_cons_succ, ih _ (by simpa using hj)]
      simp only [hnext]
      cases j <;> simp

theorem addRow_getD (a b : List Int) (j : Nat) : (addRow a b).getD j 0 = a.getD j 0 + b.getD j 0 := by
  induction a generalizing b j with
  | nil => simp [addRow]
  | cons x xs ih =>
    cases b with
    | nil => simp [addRow]
    | cons y ys =>
      cases j with
      | zero => rfl
      | succ j => simpa [addRow] using ih ys j

theorem eq_map_range {α : Type} [Inhabited α] {l : List α} {n : Nat} {d : α} {f : Nat → α} (hlen : l.length = n)
    (h : ∀ j < n, l.getD j d = f j) : l = (List.range n).map f := by
  refine List.ext_getElem (by simp [hlen]) fun j hj hj' => ?_
  have hf := h j (by omega)
  rw [List.getD_eq_getElem?_getD, List.getElem?_eq_getElem hj, Option.getD_some] at hf
  simp [hf]

/-! ### Tags -/

/-- 10.7: the flags of a tag in the low byte of its third halfword. -/
def tagFlags (t : Tag) : Nat := flag t.pageStart 0 + flag t.endOfPage 1 + flag t.merged 2 + flag t.lostTail 3

theorem tagFlags_bits (t : Tag) : tagFlags t < 16 ∧ (byte (tagFlags t)).getLsbD 0 = t.pageStart
    ∧ (byte (tagFlags t)).getLsbD 1 = t.endOfPage ∧ (byte (tagFlags t)).getLsbD 2 = t.merged
    ∧ (byte (tagFlags t)).getLsbD 3 = t.lostTail := by
  unfold tagFlags
  cases t.pageStart <;> cases t.endOfPage <;> cases t.merged <;> cases t.lostTail <;> decide

theorem pair_toNat {low high : Nat} (hl : low < 256) (hh : high < 256) : (pair low high).toNat = 256 * high + low := by
  rw [pair, halfOf, BitVec.toNat_append, byte, byte, BitVec.toNat_ofNat, BitVec.toNat_ofNat, Nat.mod_eq_of_lt hl,
    Nat.mod_eq_of_lt hh, ← Nat.shiftLeft_add_eq_or_of_lt hl, Nat.shiftLeft_eq]
  omega

theorem pair_getLsbD (low high : Nat) {k : Nat} (hk : k < 8) : (pair low high).getLsbD k = (byte low).getLsbD k := by
  rw [pair, halfOf, BitVec.getLsbD_append, if_pos hk]

/-- 10.7: a tag's halfwords hold its fields. -/
theorem tagHalves_fields {t : Tag} (hline : t.line < 65536) (hblack : t.black < 65536) (hlost : t.lost < 256) :
    ∃ a b c : Half, tagHalves t = [a, b, c, 0] ∧ a.toNat = t.line ∧ b.toNat = t.black ∧ c.toNat / 256 = t.lost
      ∧ c.toNat % 256 < 16 ∧ c.getLsbD 0 = t.pageStart ∧ c.getLsbD 1 = t.endOfPage ∧ c.getLsbD 2 = t.merged
      ∧ c.getLsbD 3 = t.lostTail := by
  obtain ⟨hflags, h0, h1, h2, h3⟩ := tagFlags_bits t
  have hpair := pair_toNat (show tagFlags t < 256 by omega) hlost
  refine ⟨BitVec.ofNat 16 t.line, BitVec.ofNat 16 t.black, pair (tagFlags t) t.lost, rfl, ?_, ?_, by omega, by omega,
    (pair_getLsbD _ _ (by decide)).trans h0, (pair_getLsbD _ _ (by decide)).trans h1, (pair_getLsbD _ _ (by decide)).trans h2,
    (pair_getLsbD _ _ (by decide)).trans h3⟩
  · rw [BitVec.toNat_ofNat]
    exact Nat.mod_eq_of_lt hline
  · rw [BitVec.toNat_ofNat]
    exact Nat.mod_eq_of_lt hblack

/-! ### The pels of a readout -/

theorem zip_getD {a : List Nat} {b : List Int} {j : Nat} (ha : j < a.length) (hb : j < b.length) :
    (a.zip b).getD j (0, 0) = (a.getD j 0, b.getD j 0) := by
  simp [List.getD_eq_getElem?_getD, ha, hb]

/-- R35: the pel's error, by its colour. -/
theorem diffuseError_eq (v : Int) : diffuseError v = if v < 128 then v else v - 255 := by
  simp only [diffuseError, diffuseBlack, decide_eq_true_eq]

/-- R35, R36, R37: a line of error diffusion by its values and errors, pel by pel. -/
theorem diffuse_line {tones : List Nat} {current next : List Int} (hcurrent : current.length = 2048) (hnext : next.length = 2048)
    (hwidth : tones.length ≤ 2048) {carry : Int} {value e : Nat → Int}
    (hvalue : ∀ j, value j = tones.getD j 0 + current.getD j 0 + (if j = 0 then carry else errorShare 7 (e (j - 1))))
    (he : ∀ j < tones.length, e j = if value j < 128 then value j else value j - 255) :
    (diffuse none 0 carry (tones.zip current)).1 = (List.range tones.length).map (fun j => decide (value j < 128))
    ∧ addRow (diffuse none 0 carry (tones.zip current)).2 next =
        (List.range 2048).map (fun j => next.getD j 0 + (if j < tones.length then
          belowShare (e j) + (if 0 < j then errorShare 1 (e (j - 1)) else 0)
            + (if j + 1 < tones.length then errorShare 3 (e (j + 1)) else 0) else 0)) := by
  have hzip : (tones.zip current).length = tones.length := by simp; omega
  have hvlen : (diffuseValues carry (tones.zip current)).length = tones.length := (diffuseValues_length _ _).trans hzip
  have hvalues : ∀ j < tones.length, (diffuseValues carry (tones.zip current)).getD j 0 = value j := fun j hj => by
    rw [diffuseValues_getD (e := e) _ (fun k hk => ?_) (by omega), zip_getD hj (by omega), hvalue]
    rw [zip_getD (by omega) (by omega), diffuseError_eq, ← hvalue]
    exact he k (by omega)
  have helen : ((diffuseValues carry (tones.zip current)).map diffuseError).length = tones.length := by simpa using hvlen
  have herrors : ∀ j < tones.length, ((diffuseValues carry (tones.zip current)).map diffuseError).getD j 0 = e j := fun j hj => by
    rw [he j hj, ← diffuseError_eq, ← hvalues j hj]
    simp [List.getD_eq_getElem?_getD, hvlen, hj]
  rw [diffuse_eq]
  constructor
  · refine eq_map_range (d := false) (by simpa using hvlen) fun j hj => ?_
    rw [← hvalues j hj]
    simp [List.getD_eq_getElem?_getD, hvlen, hj, diffuseBlack]
  · refine eq_map_range (d := 0) ?_ fun j hj => ?_
    · rw [addRow_length]
      simp [rowBelow_length]
      omega
    · rw [addRow_getD, Int.add_comm]
      refine congrArg (next.getD j 0 + ·) ?_
      show (rowBelow 0 ((diffuseValues carry (tones.zip current)).map diffuseError)).getD j 0 = _
      by_cases hin : j < tones.length
      · have hbefore : (if 0 < j then errorShare 1 (((diffuseValues carry (tones.zip current)).map diffuseError).getD (j - 1) 0) else 0)
            = if 0 < j then errorShare 1 (e (j - 1)) else 0 := by rw [herrors (j - 1) (by omega)]
        have hafter : (if j + 1 < tones.length then
              errorShare 3 (((diffuseValues carry (tones.zip current)).map diffuseError).getD (j + 1) 0) else 0) = if j + 1 < tones.length then errorShare 3 (e (j + 1)) else 0 :=
          ite_congr rfl (fun h => by rw [herrors (j + 1) h]) (fun _ => rfl)
        rw [if_pos hin, rowBelow_getD _ _ (by omega), helen, hbefore, hafter, herrors j hin]
      · rw [if_neg hin, List.getD_eq_default _ _ (by rw [rowBelow_length]; omega)]

/-! ### The finished line -/

section
variable {s : State}

theorem scanLine_text (hmode : s.scan.params.mode = .text) (samples : List Byte) : s.scanLine samples =
    ((toneLine s.tables.shading s.tables.tone samples).map (fun t => decide (t < s.scan.params.theta)), s.scan.currentRow,
      s.scan.nextRow) := by
  unfold State.scanLine
  dsimp only
  rw [hmode]
  rfl

theorem scanLine_halftone (hmode : s.scan.params.mode = .halftone) (samples : List Byte) : s.scanLine samples =
    ((diffuse none 0 s.scan.carry ((toneLine s.tables.shading s.tables.tone samples).zip s.scan.currentRow)).1,
      addRow (diffuse none 0 s.scan.carry ((toneLine s.tables.shading s.tables.tone samples).zip s.scan.currentRow)).2 s.scan.nextRow,
      zeroRow) := by
  unfold State.scanLine
  dsimp only
  rw [hmode]

theorem readoutComplete_eq {samples : List Byte} {i : BufId} (hst : s.scan.st = .capture ∨ s.scan.st = .stalled ∨ s.scan.st = .trailing)
    (hi : s.scan.readoutBuf = some i) (hlen : samples.length = s.scan.params.width) {pels : List Bool} {current next : List Int}
    (hline : s.scanLine samples = (pels, current, next)) :
    exec (.readoutComplete samples) s = .next (((s.setScan { s.scan with currentRow := current, nextRow := next, carry := 0 }).scanClaim i
      (packWords (s.scan.params.width / 32) pels) (pels.count true)).scanCloseIfIdle) := by
  show execReadoutComplete samples s = _
  unfold execReadoutComplete
  rcases hst with h | h | h <;> simp only [h, hi, hlen, if_true, hline]

/-- R47: the stop margin leaves the page's closing, its reason and its buffers. -/
theorem scanCheckMargin_keeps (s : State) : s.scanCheckMargin.scan.closing = s.scan.closing
    ∧ s.scanCheckMargin.scan.endReason = s.scan.endReason ∧ s.scanCheckMargin.scan.readoutBuf = s.scan.readoutBuf := by
  by_cases hst : s.scan.st = .capture ∨ s.scan.st = .trailing
  · rw [scanCheckMargin_of hst]
    split_ifs
    · exact ⟨rfl, rfl, rfl⟩
    · exact ⟨rfl, rfl, rfl⟩
  · rw [not_or] at hst
    rw [scanCheckMargin_of_not hst.1 hst.2]
    exact ⟨rfl, rfl, rfl⟩

/-- R31, R32: the finished line is written with its trigger's number, or lost NO_SLOT. -/
theorem scanClaim_eq {d : RingDesc} (hd : (s.ring s.scan.params.ring).desc = some d) (i : BufId) (words : List Word) (black : Nat) :
    s.scanClaim i words black =
      if 1 ≤ (s.ring s.scan.params.ring).free d then
        ((s.setScan { s.scan.setBuf i { st := .writing, words := words, black := black } with
            linesWritten := s.scan.linesWritten + 1, lostSinceWritten := 0 }).claimSlot s.scan.params.ring d
          { line := s.scan.triggerCount - 1, black := black, lost := s.scan.lostSinceWritten
            pageStart := decide (s.scan.linesWritten = 0), endOfPage := false, merged := false, lostTail := false } words
          (some i)).scanCheckMargin
      else s.setScan { s.scan.setBuf i {} with
        lostNoSlot := min 65535 (s.scan.lostNoSlot + 1), lostSinceWritten := min 255 (s.scan.lostSinceWritten + 1) } := by
  unfold State.scanClaim
  dsimp only
  rw [hd]
  refine ite_congr rfl (fun _ => rfl) (fun _ => ?_)
  cases i <;> rfl

/-- R30, R42: a closing page ends with its last line. -/
theorem scanClaim_closeIfIdle {x : Scan} {d : RingDesc} (hd : (s.ring x.params.ring).desc = some d) {i : BufId}
    (hi : x.readoutBuf = some i) {reason : ScanReason} (hclosing : x.closing = true → x.endReason = some reason ∧ x.oneReadout)
    (words : List Word) (black : Nat) : ((s.setScan x).scanClaim i words black).scanCloseIfIdle =
      if x.closing then ((s.setScan x).scanClaim i words black).scanPageEnd reason else (s.setScan x).scanClaim i words black := by
  have hkeeps : ((s.setScan x).scanClaim i words black).scan.closing = x.closing
      ∧ ((s.setScan x).scanClaim i words black).scan.endReason = x.endReason
      ∧ (x.oneReadout → ((s.setScan x).scanClaim i words black).scan.readoutBuf = none) := by
    rw [scanClaim_eq (s := s.setScan x) hd]
    split_ifs
    · obtain ⟨hc, hr, hb⟩ := scanCheckMargin_keeps (((s.setScan x).setScan {
        x.setBuf i { st := .writing, words := words, black := black } with
        linesWritten := x.linesWritten + 1, lostSinceWritten := 0 }).claimSlot x.params.ring d
          { line := x.triggerCount - 1, black := black, lost := x.lostSinceWritten
            pageStart := decide (x.linesWritten = 0), endOfPage := false, merged := false, lostTail := false } words (some i))
      refine ⟨hc.trans ?_, hr.trans ?_, fun hone => hb.trans ?_⟩
      · cases i <;> rfl
      · cases i <;> rfl
      · exact readoutBuf_setBuf hone hi (y := { st := .writing, words := words, black := black }) ScanBufState.noConfusion
    · refine ⟨?_, ?_, fun hone => ?_⟩
      · cases i <;> rfl
      · cases i <;> rfl
      · exact readoutBuf_setBuf hone hi (y := {}) (by decide)
  obtain ⟨hc, hr, hb⟩ := hkeeps
  split_ifs with h
  · obtain ⟨hreason, hone⟩ := hclosing h
    rw [scanCloseIfIdle_closing (hc.trans h) (hr.trans hreason), if_pos (hb hone)]
  · exact if_neg fun hn => h (hc ▸ hn.1)

end

end Sys2Proof.Machine

namespace Sys2Proof.Proofs

open Sys2Proof Sys2Proof.Machine

/-- Settles O34: the pels of the line by mode, then its claim or its loss, and the end of a closing page. -/
theorem readoutCompleteRow : Obligations.ReadoutCompleteRow := by
  refine ⟨fun n pels hlen => ⟨packWords_length n pels, fun i hi => packWords_pel hlen hi⟩,
    fun t hline hblack hlost => tagHalves_fields hline hblack hlost, ?_⟩
  intro s samples i d reason hst hi hclosing hlen hd l tones r after
  have hrow : ∀ (pels : List Bool) (current next : List Int), s.scanLine samples = (pels, current, next) →
      exec (.readoutComplete samples) s = .next (after { s.scan with currentRow := current, nextRow := next, carry := 0 } pels) :=
    fun pels current next hline => by
      rw [readoutComplete_eq hst hi hlen hline]
      refine congrArg Host.Outcome.next ?_
      have hend := scanClaim_closeIfIdle (s := s) (x := { s.scan with currentRow := current, nextRow := next, carry := 0 }) hd hi
        hclosing (packWords (l / 32) pels) (pels.count true)
      rw [scanClaim_eq (s := s.setScan { s.scan with currentRow := current, nextRow := next, carry := 0 }) hd] at hend
      rw [scanClaim_eq (s := s.setScan { s.scan with currentRow := current, nextRow := next, carry := 0 }) hd]
      exact hend
  refine ⟨fun hmode => hrow _ _ _ (scanLine_text hmode samples), fun errors hmode hwidth hwhole => ?_⟩
  intro e share value he
  obtain ⟨hshading, hscan⟩ := (scanWhole_iff s).mp hwhole
  have htones : tones.length = l := by
    show (List.zipWith _ s.tables.shading samples).length = l
    rw [List.length_zipWith, hshading, hlen]
    exact Nat.min_eq_right hwidth
  have hline := diffuse_line (tones := tones) hscan.current hscan.next (by omega) (carry := s.scan.carry) (value := value) (e := e)
    (fun j => rfl) (by rw [htones]; exact he)
  rw [htones] at hline
  refine (hrow _ _ _ (scanLine_halftone hmode samples)).trans ?_
  rw [show toneLine s.tables.shading s.tables.tone samples = tones from rfl, hline.1, hline.2]
  rfl

end Sys2Proof.Proofs
end

