-- ==== Sys2Proof/Proofs/Fetch.lean ====
section
/-! The fetch unit and its look-ahead (R55, R56), the staging of a line (R60), and the shift into the head register (R61). -/

namespace Sys2Proof.Machine

open Sys2Proof

/-! ### Tags read -/

/-- 10.7: the tag four halfwords hold. -/
def tagOf (q : Half × Half × Half × Half) : Tag :=
  { line := q.1.toNat, black := q.2.1.toNat, lost := q.2.2.1.toNat / 256
    pageStart := q.2.2.1.getLsbD 0, endOfPage := q.2.2.1.getLsbD 1, merged := q.2.2.1.getLsbD 2
    lostTail := q.2.2.1.getLsbD 3 }

/-- The four halfwords of a tag, in order. -/
def tagQuad (q : Half × Half × Half × Half) : List Half := [q.1, q.2.1, q.2.2.1, q.2.2.2]

theorem lowByte_getLsbD (h : Half) {k : Nat} (hk : k < 8) : (lowByte h).getLsbD k = h.getLsbD k := by
  simp [lowByte, hk]

theorem tagOfHalves_quad (q : Half × Half × Half × Half) : tagOfHalves (tagQuad q) = tagOf q := by
  have hbit : ∀ k < 8, (lowByte q.2.2.1).getLsbD k = q.2.2.1.getLsbD k := fun k hk => lowByte_getLsbD _ hk
  simp only [tagOfHalves, tagQuad, tagOf, List.getD_cons_zero, List.getD_cons_succ, highByte_toNat, hbit 0 (by decide),
    hbit 1 (by decide), hbit 2 (by decide), hbit 3 (by decide)]

theorem windowTags_quads (more : List (Half × Half × Half × Half)) :
    windowTags more.length (more.map tagQuad).flatten = more.map tagOf := by
  induction more with
  | nil => rfl
  | cons q qs ih =>
    have htake : ((tagQuad q) ++ (qs.map tagQuad).flatten).take 4 = tagQuad q := rfl
    have hdrop : ((tagQuad q) ++ (qs.map tagQuad).flatten).drop 4 = (qs.map tagQuad).flatten := rfl
    rw [List.length_cons, windowTags, List.map_cons, List.flatten_cons, htake, hdrop, tagOfHalves_quad, ih, List.map_cons]

/-! ### The white run -/

theorem whiteRun_eq_zero {ts : List Tag} (h : ts = [] ∨ (ts.getD 0 {}).black ≠ 0 ∨ (ts.getD 0 {}).pageStart = true) :
    whiteRun false ts = 0 := by
  cases ts with
  | nil => rfl
  | cons t ts =>
    rcases h with h | h | h
    · exact absurd h (List.cons_ne_nil t ts)
    · exact if_pos h
    · have hstart : t.pageStart = true := h
      simp [whiteRun, hstart]

theorem whiteRun_singleton_le (t : Tag) : whiteRun true [t] ≤ 1 := by
  unfold whiteRun
  split_ifs <;> simp [whiteRun]

/-- R56: the white run ends before a black tag or a later page start, and after a page end. -/
theorem whiteRun_eq {l : List Tag} {b : Bool} {run : Nat} (hpos : 1 ≤ run) (hle : run ≤ l.length)
    (hwhite : ∀ k < run, (l.getD k {}).black = 0 ∧ (0 < k ∨ b = false → (l.getD k {}).pageStart = false)
      ∧ (k + 1 < run → (l.getD k {}).endOfPage = false))
    (hstop : run = l.length ∨ (l.getD (run - 1) {}).endOfPage = true
      ∨ (l.getD run {}).black ≠ 0 ∨ (l.getD run {}).pageStart = true) :
    whiteRun b l = run := by
  induction l generalizing b run with
  | nil => exact absurd (hpos.trans hle) (by decide)
  | cons t ts ih =>
    obtain ⟨hblack, hstart, hend⟩ := hwhite 0 hpos
    rw [List.getD_cons_zero] at hblack hstart hend
    have hnoStart : (!b && t.pageStart) = false := by
      cases b with
      | true => rfl
      | false => simpa using hstart (.inr rfl)
    rw [whiteRun, if_neg (not_not_intro hblack), hnoStart, if_neg Bool.false_ne_true]
    obtain ⟨n, rfl⟩ : ∃ n, run = n + 1 := ⟨run - 1, by omega⟩
    by_cases hlast : t.endOfPage = true
    · rw [if_pos hlast]
      by_contra hn
      rw [hend (by omega)] at hlast
      exact Bool.noConfusion hlast
    · rw [if_neg hlast, Nat.add_comm]
      refine congrArg (· + 1) ?_
      cases n with
      | zero =>
        refine whiteRun_eq_zero ?_
        rcases hstop with h | h | h | h
        · exact .inl (List.eq_nil_of_length_eq_zero (by simpa using h.symm))
        · exact absurd h hlast
        · exact .inr (.inl h)
        · exact .inr (.inr h)
      | succ n =>
        refine ih (by omega) (by simpa using hle) (fun k hk => ?_) ?_
        · obtain ⟨hb, hs, he⟩ := hwhite (k + 1) (by omega)
          exact ⟨hb, fun _ => hs (.inl (Nat.succ_pos k)), fun h => he (by omega)⟩
        · simpa using hstop

/-! ### Fetches -/

section
variable {s : State} {d : RingDesc}

/-- R55: the reads of a slot's words into the next buffer. -/
theorem fetchWordsOf_window (slot : Nat) (tag : Tag) (f : Fetch) (tags : List Tag) :
    (s.setPrint { s.print with fetch := f, window := tags }).fetchWordsOf d slot tag = s.fetchWordsOf d slot tag := by
  unfold State.fetchWordsOf
  dsimp only
  cases h : s.print.nextBuf <;> rfl

theorem fetchStart_of (hd : (s.ring s.print.params.ring).desc = some d) (hmay : s.mayFetch = true) : exec .fetchStart s =
    .next (((s.setPmc { s.pmc with urgent := s.pmc.urgent || s.print.awaitsFetch }).setPrint
      { s.print with fetch := .tag (((s.ring s.print.params.ring).take + s.print.taken) % d.slots) }).issueRead .print .fetchTag
      (d.slotAddress (((s.ring s.print.params.ring).take + s.print.taken) % d.slots)) 4) := by
  show execFetchStart s = _
  unfold execFetchStart
  dsimp only
  rw [hd]
  refine (if_pos hmay).trans ?_
  cases s.print.awaitsFetch with
  | true =>
    rw [Bool.or_true]
    rfl
  | false =>
    rw [Bool.or_false]
    rfl

theorem tagReadComplete_of {slot : Nat} {q : Half × Half × Half × Half} (hd : (s.ring s.print.params.ring).desc = some d)
    (hfetch : s.print.fetch = .tag slot) (hword : s.wordWaits .print = false) (hend : s.print.ending = none)
    (hnone : s.nothingFor .fetchTag) :
    exec .tagReadComplete (s.delivered .fetchTag (tagQuad q)) =
      if (tagOf q).black ≠ 0 then .next (s.fetchWordsOf d slot (tagOf q))
      else if min 31 (s.unfetched - 1) = 0 then
        .next ((s.setPrint { s.print with fetch := .window slot (tagOf q) (min 31 (s.unfetched - 1)), window := [tagOf q] }).decideWindow
          d slot [tagOf q])
      else .next ((s.setPrint { s.print with
        fetch := .window slot (tagOf q) (min 31 (s.unfetched - 1)), window := [tagOf q]
        }).issueWindow d slot (min 31 (s.unfetched - 1))) := by
  show execTagReadComplete _ = _
  unfold execTagReadComplete
  dsimp only
  rw [delivered_print, hfetch, delivered_ring, hd]
  refine (if_pos ⟨delivered_hasDone s .fetchTag _, hword⟩).trans ?_
  rw [delivered_takeAll s _ _ hnone, delivered_dataOf s _ _ hnone, tagOfHalves_quad]
  exact if_neg (by rw [hend]; decide)

theorem decideWindow_slew {slot : Nat} {tags : List Tag} (h : s.print.params.threshold ≤ whiteRun true tags) :
    s.decideWindow d slot tags = ((s.setPrint { s.print with
      fetch := .idle, window := []
      slew := some { lines := whiteRun true tags, first := slot, pageStart := (tags.headD {}).pageStart
                     endsPage := (tags.getD (whiteRun true tags - 1) {}).endOfPage } }).setUrgent false).printWake := if_pos h

theorem decideWindow_words {slot : Nat} {tags : List Tag} (h : ¬s.print.params.threshold ≤ whiteRun true tags) :
    s.decideWindow d slot tags = s.fetchWordsOf d slot (tags.headD {}) := if_neg h

/-- R69: the state of a stream told that a line or slew may be ready. -/
def Print.woken (x : Print) : PrintState := if x.st = .waitLine ∧ x.ending = none ∧ x.ready = true then .printing else x.st

theorem printWake_eq : s.printWake = s.setPrint { s.print with st := s.print.woken } := by
  unfold Print.woken
  unfold State.printWake
  split_ifs with h
  · rfl
  · rfl

theorem deliveredEach_countDone (q : Req) (data : List (List Half)) : data.length ≤ (s.deliveredEach q data).pmc.countDone q := by
  unfold State.deliveredEach Pmc.countDone
  show data.length ≤ (List.countP _ (data.map _ ++ s.pmc.inbox))
  rw [List.countP_append, List.countP_map, List.countP_eq_length.mpr (fun _ _ => by simp)]
  exact Nat.le_add_right _ _

theorem deliveredEach_takeAll {q : Req} (hnone : s.nothingFor q) (data : List (List Half)) : (s.deliveredEach q data).takeAll q = s := by
  have hmine : (data.map (fun d => (⟨q, d, true⟩ : Delivery))).filter (fun d => d.req ≠ q) = [] :=
    List.filter_eq_nil_iff.mpr fun d hd => by
      obtain ⟨x, -, rfl⟩ := List.mem_map.mp hd
      simp
  have hothers : s.pmc.inbox.filter (fun d => d.req ≠ q) = s.pmc.inbox :=
    List.filter_eq_self.mpr fun d hd => by simpa using hnone d hd
  have hinbox : (data.map (fun d => (⟨q, d, true⟩ : Delivery)) ++ s.pmc.inbox).filter (fun d => d.req ≠ q) = s.pmc.inbox := by
    rw [List.filter_append, hmine, hothers, List.nil_append]
  show s.setPmc { s.pmc with
    inbox := (data.map (fun d => (⟨q, d, true⟩ : Delivery)) ++ s.pmc.inbox).filter (fun d => d.req ≠ q) } = s
  rw [hinbox]
  rfl

theorem windowReadComplete_of {slot : Nat} {first : Tag} {more : List (Half × Half × Half × Half)}
    (hd : (s.ring s.print.params.ring).desc = some d) (hfetch : s.print.fetch = .window slot first more.length)
    (hword : s.wordWaits .print = false) (hend : s.print.ending = none) (hnone : s.nothingFor .fetchWindow) :
    exec .windowReadComplete (s.deliveredEach .fetchWindow (more.map tagQuad)) =
      .next ((s.setPrint { s.print with window := first :: more.map tagOf }).decideWindow d slot (first :: more.map tagOf)) := by
  have hcount := deliveredEach_countDone (s := s) .fetchWindow (more.map tagQuad)
  rw [List.length_map] at hcount
  show execWindowReadComplete _ = _
  unfold execWindowReadComplete
  dsimp only
  rw [show (s.deliveredEach .fetchWindow (more.map tagQuad)).print = s.print from rfl, hfetch,
    show (s.deliveredEach .fetchWindow (more.map tagQuad)).ring s.print.params.ring = s.ring s.print.params.ring from rfl, hd]
  refine (if_pos ⟨hcount, hword⟩).trans ?_
  rw [deliveredEach_takeAll hnone, deliveredEach_dataOf s _ _ hnone, windowTags_quads]
  exact if_neg (by rw [hend]; decide)

theorem fetchComplete_of {slot : Nat} {i : BufId} (hfetch : s.print.fetch = .words slot i) (hword : s.wordWaits .print = false)
    (hend : s.print.ending = none) (hnone : s.nothingFor .fetchWords) (data : List Half) :
    exec .fetchComplete (s.delivered .fetchWords data) = .next ((s.setUrgent false).setPrint
      ({ s.print.setBuf i { st := .staged, line := lineRecord s.print.params (s.print.buf i).line.tag (halvesToWords data) } with
        fetch := .idle }).gatherLoss) := by
  show execFetchComplete _ = _
  unfold execFetchComplete
  dsimp only
  rw [delivered_print, hfetch]
  refine (if_pos ⟨delivered_hasDone s .fetchWords _, hword⟩).trans ?_
  rw [delivered_takeAll s _ _ hnone, delivered_dataOf s _ _ hnone]
  exact if_neg (by rw [hend]; decide)

theorem gatherLoss_eq (x : Print) : x.gatherLoss = { x with
    marginLoss := x.marginLoss || (!x.pageEnding && pageLoss (x.pageBegun || x.headLine.isSome || x.slewing.isSome) x.unlatched) } := by
  unfold Print.gatherLoss
  cases h : x.pageEnding with
  | true => simp
  | false => rfl

theorem shiftInComplete_of {i : BufId} (hhead : s.print.headSt = .shifting) (hi : s.print.shiftingBuf = some i) :
    exec .shiftInComplete s = .next (s.setPrint { s.print.setBuf i {} with headSt := .loaded }).printWake := by
  show execShiftInComplete s = _
  unfold execShiftInComplete
  dsimp only
  rw [hhead, hi]

theorem shiftInStart_of {i : BufId} (hword : s.wordWaits .print = false) (hhead : s.print.headSt = .empty)
    (hi : s.print.nextStaged = some i) : exec .shiftInStart s = .next (s.setPrint {
      s.print.setBuf i { s.print.buf i with st := .shifting } with headSt := .shifting, headRec := (s.print.buf i).line }) := by
  show execShiftInStart s = _
  unfold execShiftInStart
  dsimp only
  rw [hhead, hi]
  exact if_neg (by rw [hword]; decide)

end

end Sys2Proof.Machine

namespace Sys2Proof.Proofs

open Sys2Proof Sys2Proof.Machine

/-- Settles O40: each row by what the fetch unit reads. -/
theorem fetchAndShiftRows : Obligations.FetchAndShiftRows := by
  intro s d slot run written first more data i x halves tagOf' tag tags r a readWords free hd
  have hwords : ∀ m t, readWords m t = s.fetchWordsOf d m t := fun m t => rfl
  refine ⟨fun hoff hend hidle hline hfree hslew hwait => ?_, fun hfree hfetch hend hnone => ?_, ?_, ?_,
    fun hfree hhead hi => shiftInStart_of hfree hhead hi, fun hhead hi => ?_⟩
  · have hwaits : s.burstWaits .print = false := by
      rw [← Bool.not_eq_true, burstWaits_iff]
      exact fun ⟨b, hb, hc⟩ => hwait b hb hc
    refine fetchStart_of hd ?_
    simp only [State.mayFetch, Print.active, hwaits]
    simp [x] at hoff hend hidle hfree hslew
    simp [hoff, hend, hidle, hline, hfree, hslew]
  · have hrow := tagReadComplete_of (q := written) hd hfetch hfree hend hnone
    refine ⟨fun hblack => ?_, fun hblack hone hthreshold => ?_, fun hblack htwo => ?_⟩
    · exact hrow.trans (if_pos (Nat.pos_iff_ne_zero.mp hblack))
    · have hn : min 31 (s.unfetched - 1) = 0 := by omega
      have hrun := whiteRun_singleton_le (tagOf written)
      refine hrow.trans ((if_neg (not_not_intro hblack)).trans ((if_pos hn).trans (congrArg Host.Outcome.next ?_)))
      refine (decideWindow_words (s := s.setPrint _) (fun h => ?_)).trans (fetchWordsOf_window slot (tagOf written) _ _)
      exact absurd (hthreshold.trans (h.trans hrun)) (by decide)
    · exact hrow.trans ((if_neg (not_not_intro hblack)).trans (if_neg (by omega)))
  · intro hfree hfetch hmore hend hnone hblack at' hpos hle hwhite hstop
    have hlength : tags.length = more.length := List.length_map _
    have hrow := windowReadComplete_of (more := more) hd (hlength ▸ hfetch) hfree hend hnone
    have hrun : whiteRun true (first :: more.map tagOf) = run := by
      refine whiteRun_eq hpos hle (fun k hk => ?_) hstop
      obtain ⟨hb, hs, he⟩ := hwhite k hk
      exact ⟨hb, fun h => hs (h.resolve_right Bool.noConfusion), he⟩
    refine hrow.trans ?_
    by_cases hthreshold : x.params.threshold ≤ run
    · have hreach : x.params.threshold ≤ whiteRun true (first :: more.map tagOf) := hthreshold.trans_eq hrun.symm
      have hslew := decideWindow_slew (s := s.setPrint { x with window := first :: more.map tagOf }) (d := d) (slot := slot) hreach
      rw [hrun, printWake_eq] at hslew
      rw [if_pos hthreshold, hslew]
      refine congrArg (fun p => Host.Outcome.next ((s.setPrint p).setPmc { s.pmc with urgent := false })) ?_
      have hwoken : ∀ w : Slew, Print.woken { x with fetch := .idle, window := [], slew := some w } =
          if x.st = .waitLine ∧ (x.headSt = .loaded ∨ (x.slewing = none ∧ x.headLine = none ∧ x.headSt = .empty
            ∧ x.bufA.st = .free ∧ x.bufB.st = .free)) then .printing else x.st := fun w => by
        refine if_congr ?_ rfl rfl
        simp [Print.ready, Print.slewNext, show x.ending = none from hend, and_assoc]
      rw [← hwoken { lines := run, first := slot, pageStart := first.pageStart, endsPage := (at' (run - 1)).endOfPage }]
      rfl
    · rw [if_neg hthreshold]
      refine congrArg Host.Outcome.next ((decideWindow_words (s := s.setPrint _) (by rw [hrun]; exact hthreshold)).trans ?_)
      exact fetchWordsOf_window slot first _ _
  · intro hfree hfetch hend hnone y
    refine (fetchComplete_of hfetch hfree hend hnone data).trans ?_
    rw [gatherLoss_eq]
    cases i <;> rfl
  · refine (shiftInComplete_of hhead hi).trans ?_
    rw [printWake_eq]
    have hwoken : Print.woken { s.print.setBuf i {} with headSt := .loaded } =
        if x.st = .waitLine ∧ x.ending = none then .printing else x.st := by
      have hst : (s.print.setBuf i {}).st = x.st ∧ (s.print.setBuf i {}).ending = x.ending := by cases i <;> exact ⟨rfl, rfl⟩
      simp [Print.woken, Print.ready, hst]
    rw [← hwoken]
    rfl

end Sys2Proof.Proofs
end

