-- ==== Sys2Proof/Proofs/SlotRows.lean ====
section
/-! Acknowledged slots and page ends (R9 to R11, R23), and what their producers do when they are told. -/

namespace Sys2Proof.Machine

open Sys2Proof

section
variable {s : State} {r : RingId} {d : RingDesc}

theorem State.setRing_setRing (s : State) (r : RingId) (x y : Ring) : (s.setRing r x).setRing r y = s.setRing r y := by
  show s.setRings ((s.rings.set r x).set r y) = _
  rw [Rings.set_set]
  rfl

theorem State.setRing_of_self (s : State) (r : RingId) : s.setRing r (s.ring r) = s := by
  show s.setRings (s.rings.set r (s.ring r)) = s
  rw [State.setRing_self]
  rfl

/-- R10: the put word of a ring's producer, written. -/
def State.putWord (s : State) (r : RingId) (d : RingDesc) : State :=
  s.issueWrite (sideClass d.producer) .word (s.cfg.cbAddr + (0x10 + 4 * r.val))
    [BitVec.ofNat 16 (((s.ring r).put + 1) % (2 * d.slots))]

/-- R10: an acknowledged slot is held; the one held before is published. -/
theorem acknowledgeSlot_eq {c : Claim} (habandoned : c.abandoned = false) (rest : List Claim) :
    s.acknowledgeSlot r d c rest = (if (s.ring r).held.isSome then s.putWord r d else s).setRing r
      { s.ring r with
        writing := rest, held := some ⟨c.slot, c.tag⟩
        put := if (s.ring r).held.isSome then ((s.ring r).put + 1) % (2 * d.slots) else (s.ring r).put } := by
  have hrings := acknowledgeSlot_rings s r d c rest
  rw [Ring.acknowledged, if_neg (by rw [habandoned]; decide)] at hrings
  have hsplit : s.acknowledgeSlot r d c rest
      = (if (s.ring r).held.isSome then s.putWord r d else s).setRings (s.acknowledgeSlot r d c rest).rings := by
    unfold State.acknowledgeSlot
    dsimp only
    rw [habandoned, if_neg Bool.false_ne_true]
    cases (s.ring r).held.isSome with
    | true =>
      rw [if_pos rfl, if_pos rfl]
      show _ = (s.putWord r d).setRings _
      unfold State.putWord State.publish
      dsimp only
      rw [State.setRing_ring]
      rfl
    | false => rfl
  rw [hsplit, hrings]
  cases (s.ring r).held.isSome <;> rfl

theorem acknowledgeSlot_abandoned {c : Claim} (habandoned : c.abandoned = true) (rest : List Claim) :
    s.acknowledgeSlot r d c rest = s.setRing r { s.ring r with writing := rest } := if_pos habandoned

/-- R11: the rewritten tag acknowledged: the held slot is published. -/
theorem finishPageEnd_eq : s.finishPageEnd r d = (s.putWord r d).setRing r
    { s.ring r with put := ((s.ring r).put + 1) % (2 * d.slots), held := none, pageEnd := none } := by
  have hsplit : s.finishPageEnd r d = (s.putWord r d).setRings (s.finishPageEnd r d).rings := rfl
  rw [hsplit, finishPageEnd_rings]
  rfl

theorem askPageEnd_of_none (h : (s.ring r).pageEnd = none) (lost : Bool) :
    s.askPageEnd r lost = s.setRing r { s.ring r with pageEnd := some ⟨lost, false⟩ } := by
  unfold State.askPageEnd
  rw [h]

theorem beginPageEnd_of_none (h : (s.ring r).pageEnd = none) : s.beginPageEnd r d = s := by
  unfold State.beginPageEnd
  dsimp only
  rw [h]

/-- R11: a page end that waits writes the held slot's tag again. -/
theorem beginPageEnd_of_held {lost : Bool} {h : Held} (hp : (s.ring r).pageEnd = some ⟨lost, false⟩) (hw : (s.ring r).writing = [])
    (hh : (s.ring r).held = some h) : s.beginPageEnd r d =
      (s.setRing r { s.ring r with
        held := some ⟨h.slot, { h.tag with endOfPage := true, lostTail := h.tag.lostTail || lost }⟩, pageEnd := some ⟨lost, true⟩ }
      ).issueWrite (sideClass d.producer) (.pageEndTag r) (d.slotAddress h.slot)
        (tagHalves { h.tag with endOfPage := true, lostTail := h.tag.lostTail || lost }) := by
  unfold State.beginPageEnd
  dsimp only
  rw [hp, hw, hh]

theorem beginPageEnd_of_no_held {lost : Bool} (hp : (s.ring r).pageEnd = some ⟨lost, false⟩) (hw : (s.ring r).writing = [])
    (hh : (s.ring r).held = none) : s.beginPageEnd r d = s.setRing r { s.ring r with pageEnd := none } := by
  unfold State.beginPageEnd
  dsimp only
  rw [hp, hw, hh]

theorem waitingPageEnd_of_none (h : (s.ring r).pageEnd = none) : s.waitingPageEnd r d = s := by
  refine if_neg ?_
  rw [h]
  decide

/-- R11: with a slot held a waiting page end is not complete before its tag is acknowledged. -/
theorem waitingPageEnd_of_held (hh : (s.ring r).held.isSome = true) : s.waitingPageEnd r d = s.beginPageEnd r d := by
  by_cases hp : (s.ring r).pageEnd.isSome = true
  · refine (if_pos hp).trans (if_pos ?_)
    rw [State.ring, beginPageEnd_rings, Rings.get_set]
    obtain ⟨h, hh⟩ := Option.isSome_iff_exists.mp hh
    unfold Ring.beginEnd
    split
    · rw [hh]
      rfl
    · exact hp
  · rw [beginPageEnd_of_none (by simpa using hp)]
    exact if_neg hp

theorem slotAcknowledged_abandoned {c : Claim} (h : c.abandoned = true) : s.slotAcknowledged d c = s := by
  unfold State.slotAcknowledged
  rw [h]
  cases d.producer <;> rfl

/-- R31: the acknowledged slot's staging buffer is FREE. -/
theorem slotAcknowledged_scan {c : Claim} (hprod : d.producer = .scan) (h : c.abandoned = false) {i : BufId} (hbuf : c.buf = some i)
    (hwriting : (s.scan.buf i).st = .writing) : s.slotAcknowledged d c = s.setScan (s.scan.setBuf i {}) := by
  unfold State.slotAcknowledged
  rw [hprod, h, hbuf]
  exact if_pos hwriting

theorem slotAcknowledged_scan_none {c : Claim} (hprod : d.producer = .scan) (h : c.abandoned = false) (hbuf : c.buf = none) :
    s.slotAcknowledged d c = s := by
  unfold State.slotAcknowledged
  rw [hprod, h, hbuf]

theorem slotWritesAcknowledged_of {c : Claim} {rest : List Claim} (hd : (s.ring r).desc = some d)
    (hgoes : s.wordWaits (sideClass d.producer) = false) (hw : (s.ring r).writing = c :: rest) :
    exec (.slotWritesAcknowledged r) (s.delivered (.slotTag r) []) =
      .next (((s.acknowledgeSlot r d c rest).slotAcknowledged d c).waitingPageEnd r d) := by
  show execSlotWritesAcknowledged r _ = _
  unfold execSlotWritesAcknowledged
  rw [delivered_ring, hd, hw]
  refine (if_pos ⟨delivered_hasDone s _ [], hgoes⟩).trans ?_
  rw [delivered_takeOne]

theorem pageEndTagAcknowledged_of {p : PageEnd} (hd : (s.ring r).desc = some d)
    (hgoes : s.wordWaits (sideClass d.producer) = false) (hp : (s.ring r).pageEnd = some p) (hrewriting : p.rewriting = true) :
    exec (.pageEndTagAcknowledged r) (s.delivered (.pageEndTag r) []) = .next ((s.finishPageEnd r d).pageEndComplete d) := by
  show execPageEndTagAcknowledged r _ = _
  unfold execPageEndTagAcknowledged
  rw [delivered_ring, hd, hp]
  refine (if_pos ⟨hrewriting, delivered_hasDone s _ [], hgoes⟩).trans ?_
  rw [delivered_takeOne]

theorem pageEndComplete_scan (h : d.producer = .scan) : s.pageEndComplete d = s.scanPageEndComplete := by
  unfold State.pageEndComplete
  rw [h]

theorem pageEndComplete_link (h : d.producer = .link) : s.pageEndComplete d = s.linkPageEndComplete := by
  unfold State.pageEndComplete
  rw [h]

theorem linkPageEndComplete_ending (h : s.link.st = .ending) : s.linkPageEndComplete = s.linkTryOff := by
  unfold State.linkPageEndComplete
  rw [h]

theorem linkPageEndComplete_reading (h : s.link.st = .reading) :
    s.linkPageEndComplete = if s.link.emitPending then s.linkEmit else s := by
  unfold State.linkPageEndComplete
  rw [h]

theorem linkPageEndComplete_writing (h : s.link.st = .writing) :
    s.linkPageEndComplete = s.setLink { s.link with st := .wait } := by
  unfold State.linkPageEndComplete
  rw [h]

theorem linkPageEndComplete_wait (h : s.link.st = .wait) : s.linkPageEndComplete = s := by
  unfold State.linkPageEndComplete
  rw [h]

/-- R23, R24: a link whose destination has ended its page is OFF and detached, after the STREAM cell it owes. -/
theorem linkTryOff_off (hst : s.link.st = .ending) (hout : s.link.readsOut = false) (hdest : s.link.destRing = r)
    (hp : (s.ring r).pageEnd = none) (hw : (s.ring r).writing = []) :
    s.linkTryOff = ((if s.link.abortCell then (s.setRing r { s.ring r with prodAttached := false }).handEvent .stream 0 .aborted
        ([2, byte r.val, 0, 0xFF, 0] ++ twoBytes s.link.dropped)
      else s.setRing r { s.ring r with prodAttached := false })).setLink { s.link with st := .off, abortCell := false } := by
  subst hdest
  rw [linkTryOff_of hst hout ⟨hp, hw⟩]
  cases s.link.abortCell with
  | false => rfl
  | true =>
    refine congrArg (fun t : State => t.setLink { s.link with st := .off, abortCell := false }) ?_
    exact (handEvent_setRings (s := s) ..).symm

theorem linkTryOff_stays (hdest : s.link.destRing = r) (h : s.link.readsOut = true ∨ (s.ring r).writing ≠ []) : s.linkTryOff = s := by
  subst hdest
  refine if_neg fun hoff => ?_
  obtain ⟨-, -, hw, hout⟩ := hoff
  exact h.elim (fun hr => Bool.noConfusion (hr.symm.trans hout)) fun hn => hn hw

/-! ### The ring after its page end -/

/-- A ring but its producer's attachment. -/
def Ring.slots (x : Ring) : Ring := { x with prodAttached := false }

theorem attachProducer_slots (a : RingId) (on : Bool) : ((s.attachProducer a on).ring r).slots = (s.ring r).slots := by
  show ((s.rings.set a { s.ring a with prodAttached := on }).get r).slots = _
  rw [Rings.get_set_eq]
  split_ifs with h
  · rw [h]
    rfl
  · rfl

theorem scanTryOff_slots : (s.scanTryOff.ring r).slots = (s.ring r).slots := by
  unfold State.scanTryOff
  split_ifs
  · exact attachProducer_slots ..
  · rfl

theorem scanPageEndComplete_slots : (s.scanPageEndComplete.ring r).slots = (s.ring r).slots := by
  unfold State.scanPageEndComplete
  refine scanTryOff_slots.trans ?_
  exact congrArg Ring.slots (State.handEvent_ring ..)

theorem linkTryOff_slots : (s.linkTryOff.ring r).slots = (s.ring r).slots := by
  unfold State.linkTryOff
  dsimp only
  split_ifs
  · show (((s.attachProducer s.link.destRing false).linkStream.rings).get r).slots = _
    rw [linkStream_rings]
    exact attachProducer_slots ..
  · exact attachProducer_slots ..
  · rfl

/-- R21: the emission of the merged line. -/
theorem linkEmit_of {e : RingDesc} (hd : (s.ring s.link.destRing).desc = some e) : s.linkEmit =
    (s.setLink { s.link with
      st := .writing, acc := if 256 ≤ s.link.acc then s.link.acc - 256 else s.link.acc, outLine := satAdd 16383 s.link.outLine 1
      startPending := false, mergedWriting := s.link.heldCount, heldCount := 0, heldLost := 0, emitPending := false }).claimSlot
      s.link.destRing e s.link.outTag s.link.hold none := by
  unfold State.linkEmit
  dsimp only
  rw [hd]

theorem linkEmit_of_none (hd : (s.ring s.link.destRing).desc = none) : s.linkEmit = s := by
  unfold State.linkEmit
  dsimp only
  rw [hd]

/-- R11: being told of a page end changes what is written to the ring by an emission that waited for it alone. -/
theorem pageEndComplete_slots : ∃ writing, ((s.pageEndComplete d).ring r).slots = { (s.ring r).slots with writing := writing }
    ∧ (¬(d.producer = .link ∧ s.link.st = .reading ∧ s.link.emitPending = true ∧ s.link.destRing = r) →
      writing = (s.ring r).writing) := by
  unfold State.pageEndComplete
  cases hprod : d.producer with
  | scan => exact ⟨(s.ring r).writing, scanPageEndComplete_slots, fun _ => rfl⟩
  | print => exact ⟨(s.ring r).writing, rfl, fun _ => rfl⟩
  | host => exact ⟨(s.ring r).writing, rfl, fun _ => rfl⟩
  | link =>
    show ∃ writing, (s.linkPageEndComplete.ring r).slots = _ ∧ _
    unfold State.linkPageEndComplete
    cases hst : s.link.st with
    | off => exact ⟨(s.ring r).writing, rfl, fun _ => rfl⟩
    | wait => exact ⟨(s.ring r).writing, rfl, fun _ => rfl⟩
    | writing => exact ⟨(s.ring r).writing, rfl, fun _ => rfl⟩
    | ending => exact ⟨(s.ring r).writing, linkTryOff_slots, fun _ => rfl⟩
    | reading =>
      cases hpending : s.link.emitPending with
      | false => exact ⟨(s.ring r).writing, rfl, fun _ => rfl⟩
      | true =>
        show ∃ writing, (s.linkEmit.ring r).slots = _ ∧ _
        cases hd : (s.ring s.link.destRing).desc with
        | none =>
          rw [linkEmit_of_none hd]
          exact ⟨(s.ring r).writing, rfl, fun _ => rfl⟩
        | some e =>
          rw [linkEmit_of hd, State.ring, claimSlot_rings]
          by_cases hr : s.link.destRing = r
          · subst hr
            rw [Rings.get_set]
            exact ⟨_, rfl, fun h => absurd ⟨rfl, rfl, rfl, rfl⟩ h⟩
          · rw [Rings.get_set_other _ _ (Ne.symm hr)]
            exact ⟨(s.ring r).writing, rfl, fun _ => rfl⟩

end

end Sys2Proof.Machine

namespace Sys2Proof.Proofs

open Sys2Proof Sys2Proof.Machine

/-- Settles O28: the row's effect on the ring, then what its producer does. -/
theorem slotAndPageEndRows : Obligations.SlotAndPageEndRows := by
  intro s r d c rest h lost p x free put goes hd
  refine ⟨fun hgoes hprod hw hc ha hb => ?_, fun hgoes hw hp hc => ?_, fun hp hw hh => ?_, fun hp hw hh => ?_,
    fun hgoes hp hrew => ?_, fun hgoes hw hc hp => ⟨fun hh => ?_, fun hh hprod hdest hst hout habort => ?_⟩,
    fun hgoes hp hrew hprod hring hst hmode reason hreason => ?_, fun hgoes hp hrew hprod hdest => ?_⟩
  · rw [slotWritesAcknowledged_of hd hgoes hw, acknowledgeSlot_eq hc]
    refine congrArg Host.Outcome.next ?_
    have hpublished : (if x.held.isSome then s.putWord r d else s).setRing r
          { x with writing := rest, held := some ⟨c.slot, c.tag⟩, put := if x.held.isSome then put else x.put } =
        if x.held.isSome then
          (s.setRing r { x with writing := rest, put := put, held := some ⟨c.slot, c.tag⟩ }).issueWrite .scan .word
            (s.cfg.cbAddr + (0x10 + 4 * r.val)) [BitVec.ofNat 16 put]
        else s.setRing r { x with writing := rest, held := some ⟨c.slot, c.tag⟩ } := by
      cases x.held.isSome with
      | true =>
        rw [if_pos rfl, if_pos rfl, if_pos rfl, State.putWord, hprod]
        rfl
      | false => rfl
    have hfree : ∀ u : State, u.scan = s.scan → u.slotAcknowledged d c = free u := fun u hu => by
      show _ = u.setScan (match c.buf with | some .a => _ | some .b => _ | none => _)
      cases hbuf : c.buf with
      | none => exact slotAcknowledged_scan_none hprod hc hbuf
      | some i =>
        cases i with
        | a => exact slotAcknowledged_scan hprod hc hbuf (by rw [hu]; exact ha hbuf)
        | b => exact slotAcknowledged_scan hprod hc hbuf (by rw [hu]; exact hb hbuf)
    have hheld : ∀ u : State, (u.ring r).held.isSome = true → (free u).waitingPageEnd r d = (free u).beginPageEnd r d := fun u hu =>
      waitingPageEnd_of_held hu
    have hscan : ((if x.held.isSome then s.putWord r d else s).setRing r
          { x with writing := rest, held := some ⟨c.slot, c.tag⟩, put := if x.held.isSome then put else x.put }).scan = s.scan := by
      cases x.held.isSome <;> rfl
    show State.waitingPageEnd (State.slotAcknowledged ((if x.held.isSome then s.putWord r d else s).setRing r
      { x with writing := rest, held := some ⟨c.slot, c.tag⟩, put := if x.held.isSome then put else x.put }) d c) r d = _
    rw [hfree _ hscan, hheld _ (by rw [State.setRing_ring]; rfl), hpublished]
    cases x.held.isSome <;> rfl
  · rw [slotWritesAcknowledged_of hd hgoes hw, acknowledgeSlot_abandoned hc, slotAcknowledged_abandoned hc,
      waitingPageEnd_of_none (by rw [State.setRing_ring]; exact hp)]
  · show (s.askPageEnd r lost).beginPageEnd r d = _
    rw [askPageEnd_of_none hp, beginPageEnd_of_held (by rw [State.setRing_ring]) (by rw [State.setRing_ring]; exact hw)
      (by rw [State.setRing_ring]; exact hh), State.setRing_setRing, State.setRing_ring]
    rfl
  · rw [askPageEnd_of_none hp, beginPageEnd_of_no_held (by rw [State.setRing_ring]) (by rw [State.setRing_ring]; exact hw)
      (by rw [State.setRing_ring]; exact hh), State.setRing_setRing, State.setRing_ring]
    exact (congrArg (s.setRing r) (by rw [← hp])).trans (State.setRing_of_self s r)
  · obtain ⟨writing, hslots, hsame⟩ := pageEndComplete_slots (s := s.finishPageEnd r d) (r := r) (d := d)
    refine ⟨_, pageEndTagAcknowledged_of hd hgoes hp hrew, ?_⟩
    have hring : (s.finishPageEnd r d).ring r = { x with put := put, held := none, pageEnd := none } := by
      rw [finishPageEnd_eq, State.setRing_ring]
    rw [hring] at hslots hsame
    have hground : ((s.finishPageEnd r d).pageEndComplete d).ground = s.ground := by simp
    exact ⟨congrArg Ring.put hslots, congrArg Ring.held hslots, congrArg Ring.pageEnd hslots, (congrArg Ring.take hslots).trans rfl,
      (congrArg Ring.desc hslots).trans rfl, fun h => (congrArg Ring.writing hslots).trans (hsame h), congrArg Ground.mem hground, by simp,
      by simp, by simp, congrArg Ground.tables hground, congrArg Ground.boot hground, by simp, by simp⟩
  · show _ = Host.Outcome.next ((s.setRing r _).issueWrite _ _ _ _)
    rw [slotWritesAcknowledged_of hd hgoes hw, acknowledgeSlot_abandoned hc, slotAcknowledged_abandoned hc,
      waitingPageEnd_of_held (by rw [State.setRing_ring]; exact hh ▸ rfl),
      beginPageEnd_of_held (by rw [State.setRing_ring]; exact hp) (by rw [State.setRing_ring]) (by rw [State.setRing_ring]; exact hh),
      State.setRing_setRing, State.setRing_ring]
    rfl
  · rw [slotWritesAcknowledged_of hd hgoes hw, acknowledgeSlot_abandoned hc, slotAcknowledged_abandoned hc]
    have hbegin : (s.setRing r { x with writing := [] }).beginPageEnd r d = s.setRing r { x with writing := [], pageEnd := none } := by
      rw [beginPageEnd_of_no_held (by rw [State.setRing_ring]; exact hp) (by rw [State.setRing_ring])
        (by rw [State.setRing_ring]; exact hh),
        State.setRing_setRing, State.setRing_ring]
    refine congrArg Host.Outcome.next ((if_pos ?_).trans ?_)
    · rw [State.setRing_ring]
      exact hp ▸ rfl
    · rw [hbegin]
      refine (if_neg (by rw [State.setRing_ring]; exact Bool.false_ne_true)).trans ?_
      rw [pageEndComplete_link hprod, linkPageEndComplete_ending (s := s.setRing r _) hst,
        linkTryOff_off (s := s.setRing r _) hst hout hdest (by rw [State.setRing_ring]) (by rw [State.setRing_ring]),
        State.setRing_setRing, State.setRing_ring]
      refine (congrArg (fun t : State => t.setLink { s.link with st := .off, abortCell := false })
        (if_neg fun h => Bool.noConfusion ((show s.link.abortCell = true from h).symm.trans habort))).trans ?_
      exact congrArg (State.setLink _) (by rw [← habort])
  · rw [pageEndTagAcknowledged_of hd hgoes hp hrew, pageEndComplete_scan hprod]
    have hv : s.finishPageEnd r d = (s.setRing r { x with put := put, held := none, pageEnd := none }).issueWrite .scan .word
        (s.cfg.cbAddr + (0x10 + 4 * r.val)) [BitVec.ofNat 16 put] := by
      rw [finishPageEnd_eq, State.putWord, hprod]
      rfl
    rw [hv]
    intro v u
    have hu : v.handPageScanned .pageScanned = u := by
      rw [handPageScanned_eq (s := v) hmode hreason]
      show v.handEvent _ _ _ ([byte s.scan.params.ring.val, _, _] ++ _ ++ _ ++ _ ++ _ ++ _) _ = _
      rw [hring]
      cases reason <;> rfl
    refine congrArg Host.Outcome.next ((scanPageEndComplete_eq (s := v) hst).trans ?_)
    rw [hu, show v.scan.params.ring = r from hring]
    rfl
  · intro published
    have hv : s.finishPageEnd r d = published x := by
      rw [finishPageEnd_eq, State.putWord, hprod]
      rfl
    have hring : ∀ y : Ring, (published y).ring r = { y with put := put, held := none, pageEnd := none } := fun y =>
      State.setRing_ring ..
    have hrow : exec (.pageEndTagAcknowledged r) (s.delivered (.pageEndTag r) []) = .next (published x).linkPageEndComplete := by
      rw [pageEndTagAcknowledged_of hd hgoes hp hrew, hv, pageEndComplete_link hprod]
    refine ⟨fun hst hpending => ?_, fun hst => ?_, fun hst => ?_, fun hst hout hw => ?_⟩
    · rw [hrow, linkPageEndComplete_reading (s := published x) hst]
      exact congrArg Host.Outcome.next (if_pos hpending)
    · rw [hrow, linkPageEndComplete_writing (s := published x) hst]
      rfl
    · rw [hrow]
      refine congrArg Host.Outcome.next ?_
      rcases hst with hst | ⟨hst, hpending⟩ | ⟨hst, hbusy⟩
      · exact linkPageEndComplete_wait (s := published x) hst
      · rw [linkPageEndComplete_reading (s := published x) hst]
        exact if_neg (by rw [show (published x).link.emitPending = false from hpending]; decide)
      · rw [linkPageEndComplete_ending (s := published x) hst]
        exact linkTryOff_stays (s := published x) hdest (by rw [hring]; exact hbusy)
    · intro off
      rw [hrow, linkPageEndComplete_ending (s := published x) hst,
        linkTryOff_off (s := published x) hst hout hdest (by rw [hring]) (by rw [hring]; exact hw)]
      have hoff : (published x).setRing r { (published x).ring r with prodAttached := false } = off := by
        rw [hring]
        exact State.setRing_setRing (s.issueWrite .link .word (s.cfg.cbAddr + (0x10 + 4 * r.val)) [BitVec.ofNat 16 put]) r _ _
      rw [hoff]
      rfl

end Sys2Proof.Proofs
end

