-- ==== Sys2Proof/Proofs/LinkRows.lean ====
section
/-! The copy link's lines (R19 to R22): taking, merging, emission, and the acknowledged slot. -/

namespace Sys2Proof.Machine

open Sys2Proof

section
variable {s : State} {r : RingId} {d : RingDesc}

theorem State.ringOccupancy_eq (hd : (s.ring r).desc = some d) : s.ringOccupancy r = (s.ring r).occupancy d := by
  unfold State.ringOccupancy
  rw [hd]

theorem linkTakeSourceLine_of (hd : (s.ring s.link.sourceRing).desc = some d) (hmay : s.linkMayTake = true) :
    exec .linkTakeSourceLine s =
      .next (((s.setLink { s.link with st := .reading, readsOut := true }).issueRead .link .linkWords
        (d.slotAddress ((s.ring s.link.sourceRing).take % d.slots) + 8) (2 * d.words)).issueRead .link .linkTag
        (d.slotAddress ((s.ring s.link.sourceRing).take % d.slots)) 4) := by
  show execLinkTakeSourceLine s = _
  unfold execLinkTakeSourceLine
  rw [hd]
  exact if_pos hmay

/-! ### The delivered line -/

theorem delivered_dataOf_other {q q' : Req} (h : q' ≠ q) (s : State) (data : List Half) :
    (s.delivered q' data).pmc.dataOf q = s.pmc.dataOf q := by
  simp [State.delivered, Pmc.dataOf, State.setPmc, h]

theorem nothingFor_delivered {q q' : Req} (hs : s.nothingFor q) (h : q' ≠ q) (data : List Half) : (s.delivered q' data).nothingFor q := by
  intro x hx
  rcases List.mem_cons.mp hx with rfl | hx
  · exact h
  · exact hs x hx

/-- R20: both reads of a source line delivered, in the order they complete. -/
def State.lineDelivered (s : State) (tag words : List Half) : State := (s.delivered .linkTag tag).delivered .linkWords words

theorem lineDelivered_done (tag words : List Half) : (s.lineDelivered tag words).linkReadsDone = true := by
  simp [State.lineDelivered, State.linkReadsDone, State.delivered, Pmc.hasDone, State.setPmc]

theorem lineDelivered_drop (hw : s.nothingFor .linkWords) (ht : s.nothingFor .linkTag) (tag words : List Half) :
    (s.lineDelivered tag words).linkDropReads = s := by
  unfold State.linkDropReads State.lineDelivered
  rw [delivered_takeAll _ _ _ (nothingFor_delivered hw (by decide) tag), delivered_takeAll _ _ _ ht]

theorem lineDelivered_tag (ht : s.nothingFor .linkTag) (tag words : List Half) :
    (s.lineDelivered tag words).pmc.dataOf .linkTag = tag :=
  (delivered_dataOf_other (by decide) _ _).trans (delivered_dataOf _ _ _ ht)

theorem lineDelivered_words (hw : s.nothingFor .linkWords) (tag words : List Half) :
    (s.lineDelivered tag words).pmc.dataOf .linkWords = words :=
  delivered_dataOf _ _ _ (nothingFor_delivered hw (by decide) tag)

theorem linkReadComplete_of (hword : s.wordWaits .link = false) (hst : s.link.st = .reading) (hout : s.link.readsOut = true)
    (hw : s.nothingFor .linkWords) (ht : s.nothingFor .linkTag) (tag words : List Half) :
    exec .linkReadComplete (s.lineDelivered tag words) =
      (let u := s.linkUnendedPage (tagOfHalves tag)
       let z := u.link.merge (tagOfHalves tag) (halvesToWords words)
       let v := (u.setLink z).releaseSlots z.sourceRing 1
       if 256 ≤ z.acc ∨ (tagOfHalves tag).endOfPage then .next v.linkEmitOrWait
       else .next (v.setLink { z with st := .wait })) := by
  refine (if_pos ⟨hst, hout, lineDelivered_done tag words, hword⟩).trans ?_
  rw [lineDelivered_drop hw ht, lineDelivered_tag ht, lineDelivered_words hw]
  simp only [State.releaseSlots_link, State.setLink_link]

/-- R20: a page start that finds lines held ends the page before. -/
theorem linkUnendedPage_eq (hd : (s.ring s.link.destRing).desc = some d) (t : Tag) : s.linkUnendedPage t =
    if t.pageStart = true ∧ 0 < s.link.heldCount then
      ((s.setLink { s.link with
        dropped := min 65535 (s.link.dropped + s.link.heldCount), heldCount := 0, hold := [], heldLost := 0 }).askPageEnd
        s.link.destRing true).beginPageEnd s.link.destRing d
    else s := by
  unfold State.linkUnendedPage
  dsimp only
  refine ite_congr rfl (fun _ => ?_) (fun _ => rfl)
  split
  case h_1 hnone => exact absurd (hd.symm.trans hnone) (Option.some_ne_none d)
  case h_2 d' hsome =>
    obtain rfl : d = d' := Option.some.inj (hd.symm.trans hsome)
    rfl

/-! ### The acknowledged slot -/

theorem beginPageEnd_of_writing (h : (s.ring r).writing ≠ []) : s.beginPageEnd r d = s := by
  unfold State.beginPageEnd
  dsimp only
  split
  case h_1 hw => exact absurd hw h
  case h_2 => rfl

theorem beginPageEnd_of_rewriting {lost : Bool} (h : (s.ring r).pageEnd = some ⟨lost, true⟩) : s.beginPageEnd r d = s := by
  unfold State.beginPageEnd
  dsimp only
  rw [h]

/-- R11: a page end that has begun, or still waits, begins no more. -/
theorem beginPageEnd_again : (s.beginPageEnd r d).beginPageEnd r d = s.beginPageEnd r d := by
  cases hp : (s.ring r).pageEnd with
  | none => rw [beginPageEnd_of_none hp, beginPageEnd_of_none hp]
  | some p =>
    obtain ⟨lost, rewriting⟩ := p
    cases rewriting with
    | true => rw [beginPageEnd_of_rewriting hp, beginPageEnd_of_rewriting hp]
    | false =>
      by_cases hw : (s.ring r).writing = []
      · cases hh : (s.ring r).held with
        | none =>
          rw [beginPageEnd_of_no_held hp hw hh]
          exact beginPageEnd_of_none (by rw [State.setRing_ring])
        | some h =>
          rw [beginPageEnd_of_held hp hw hh]
          refine beginPageEnd_of_rewriting (lost := lost) ?_
          show (Ring.pageEnd ((s.setRing r _).ring r)) = _
          rw [State.setRing_ring]
      · rw [beginPageEnd_of_writing hw, beginPageEnd_of_writing hw]

/-- R11: a page end leaves a slot held where one was. -/
theorem asked_held (lost : Bool) :
    (((s.askPageEnd r lost).beginPageEnd r d).ring r).held.isSome = (s.ring r).held.isSome := by
  rw [State.ring, beginPageEnd_rings, Rings.get_set, State.ring, askPageEnd_rings, Rings.get_set]
  have hasked : ((s.ring r).asked lost).held = (s.ring r).held := by
    unfold Ring.asked
    split_ifs <;> rfl
  rw [← hasked]
  unfold Ring.beginEnd
  split
  · split
    next hh => rw [hh]; rfl
    next hh => rw [hh]
  · rfl

/-- R22: the slot of an output line acknowledged: the link waits for the next, or ends its page. -/
theorem linkSlotAcknowledged_of (hst : s.link.st = .writing) (hd : (s.ring s.link.destRing).desc = some d) :
    s.linkSlotAcknowledged = if s.link.emitEnd then
        ((s.setLink { s.link with
          hold := [], mergedWriting := 0, emitEnd := false, acc := 0, outLine := 0, startPending := false
          sourceLostTail := false }).askPageEnd s.link.destRing s.link.sourceLostTail).beginPageEnd s.link.destRing d
      else s.setLink { s.link with st := .wait, hold := [], mergedWriting := 0 } := by
  refine (if_pos hst).trans (ite_congr rfl (fun _ => ?_) (fun _ => rfl))
  dsimp only
  split
  case h_1 hnone => exact absurd (hd.symm.trans hnone) (Option.some_ne_none d)
  case h_2 d' hsome =>
    obtain rfl : d = d' := Option.some.inj (hd.symm.trans hsome)
    rfl

theorem slotAcknowledged_link {c : Claim} (hprod : d.producer = .link) (h : c.abandoned = false) :
    s.slotAcknowledged d c = s.linkSlotAcknowledged := by
  unfold State.slotAcknowledged
  rw [hprod, h]

end

end Sys2Proof.Machine

namespace Sys2Proof.Proofs

open Sys2Proof Sys2Proof.Machine

/-- Settles O30: each row of the link by the state it is in. -/
theorem linkLineRows : Obligations.LinkLineRows := by
  intro s d e c rest words tag x y hsource hdest hprod
  refine ⟨fun hst hline hfree hwait => ?_, fun hword hst hout hw ht => ?_, ?_, fun hword hw hc hp hst => ?_⟩
  · have hwaits : s.burstWaits .link = false := by
      rw [← Bool.not_eq_true, burstWaits_iff]
      exact fun ⟨b, hb, hcls⟩ => hwait b hb hcls
    refine linkTakeSourceLine_of hsource ?_
    unfold State.linkMayTake
    rw [State.ringOccupancy_eq hsource, State.ringFree_eq hdest, show s.link.st = .wait from hst, hwaits, decide_eq_true hline,
      decide_eq_true hfree]
    rfl
  · intro l u z v
    have hu : s.linkUnendedPage l = u := linkUnendedPage_eq hdest l
    obtain ⟨hkeep, hacc, htail, hsrc, hdst⟩ : u.link.keep = x.keep ∧ u.link.acc = x.acc ∧ u.link.sourceLostTail = x.sourceLostTail
        ∧ u.link.source = x.source ∧ u.link.destination = x.destination := by
      rw [← hu, linkUnendedPage_link]
      split_ifs <;> exact ⟨rfl, rfl, rfl, rfl, rfl⟩
    have hz : u.link.merge l (halvesToWords words) = z := by
      unfold Link.merge
      dsimp only [z]
      rw [← hkeep, ← hacc, ← htail]
      cases l.pageStart <;> rfl
    have hrings : z.sourceRing = x.sourceRing ∧ z.destRing = x.destRing := by
      rw [← hz]
      unfold Link.merge Link.sourceRing Link.destRing
      rw [← hsrc, ← hdst]
      cases l.pageStart <;> exact ⟨rfl, rfl⟩
    have hv : v.link = z := by simp only [v, State.releaseSlots_link, State.setLink_link]
    refine (linkReadComplete_of hword hst hout hw ht tag words).trans ?_
    dsimp only
    rw [hu, hz, hrings.1]
    by_cases hemit : 256 ≤ z.acc ∨ l.endOfPage = true
    · rw [if_pos hemit, if_pos hemit]
      refine congrArg Host.Outcome.next ?_
      show v.linkEmitOrWait = _
      unfold State.linkEmitOrWait
      rw [hv, hrings.2]
    · rw [if_neg hemit, if_neg hemit]
  · intro out slot a
    rw [linkEmit_of hdest]
    unfold State.claimSlot
    rw [hprod]
    rfl
  · intro put acked
    have hacked : s.acknowledgeSlot x.destRing e c rest = acked := by
      rw [acknowledgeSlot_eq hc]
      dsimp only [acked]
      cases y.held.isSome with
      | true =>
        rw [if_pos rfl, if_pos rfl, if_pos rfl, State.putWord, hprod]
        rfl
      | false => rfl
    have hlink : acked.link = x := by
      rw [← hacked]
      exact State.acknowledgeSlot_link ..
    have hring : acked.ring x.destRing = { y with
        writing := rest, held := some ⟨c.slot, c.tag⟩, put := if y.held.isSome then put else y.put } := by
      rw [← hacked, acknowledgeSlot_eq hc, State.setRing_ring]
    have hnone : (acked.ring x.destRing).pageEnd = none := by rw [hring]; exact hp
    rw [slotWritesAcknowledged_of hdest (by rw [hprod]; exact hword) hw, hacked, slotAcknowledged_link hprod hc,
      linkSlotAcknowledged_of (by rw [hlink]; exact hst) (by rw [hlink, hring]; exact hdest), hlink]
    refine congrArg Host.Outcome.next ?_
    by_cases hend : x.emitEnd = true
    · rw [if_pos hend, waitingPageEnd_of_held, beginPageEnd_again]
      rw [asked_held]
      show ((acked.ring x.destRing).held).isSome = true
      rw [hring]
      rfl
    · rw [if_neg hend]
      exact waitingPageEnd_of_none hnone

end Sys2Proof.Proofs
end

