-- ==== Sys2Proof/Proofs/LinkCommands.lean ====
section
/-! LINK RINGS (R18) and UNLINK (R23). -/

namespace Sys2Proof.Machine

open Sys2Proof

section
variable {s : State} {tag a b : Byte} {k : Half}

/-! ### LINK RINGS -/

theorem linkRings_given_refused {r : Result} (h : s.checkLinkRings a b = .error r) :
    exec (.linkRings tag a b k) (s.given (.linkRings tag a b k)) = .next (s.handDone tag 9 r) := by
  simp only [exec, execLinkRings, claimCommand_given, h]

theorem linkRings_given_accepted {ra rb : RingId} (h : s.checkLinkRings a b = .ok (ra, rb)) :
    exec (.linkRings tag a b k) (s.given (.linkRings tag a b k)) = .next
      ((((s.attachConsumer ra true).attachProducer rb true).setLink (linkStarted ra rb k.toNat)).handDone tag 9 .done) := by
  simp only [exec, execLinkRings, claimCommand_given, h]

theorem checkLinkRings_busy (h : s.clk.power = .entering ∨ s.cells.stopAll.isSome = true ∨ s.link.st ≠ .off) :
    s.checkLinkRings a b = .error .busy := by
  unfold State.checkLinkRings
  by_cases hstart : s.startRefused = true
  · exact if_pos hstart
  · rw [if_neg hstart]
    refine if_pos ?_
    rw [startRefused_iff, not_or] at hstart
    exact (h.resolve_left hstart.1).resolve_left hstart.2

/-- R18: the checks of LINK RINGS with the link OFF, in order. -/
theorem checkLinkRings_off (hp : s.clk.power ≠ .entering) (hstop : s.cells.stopAll = none) (hoff : s.link.st = .off) :
    s.checkLinkRings a b =
      match ringOf a, ringOf b with
      | some a, some b =>
        if a = b then .error .badArg
        else
          match (s.ring a).desc, (s.ring b).desc with
          | some da, some db =>
            if da.words ≠ db.words then .error .badArg
            else
              match s.attachConsumerCheck a .link, s.attachProducerCheck b .link with
              | some r, _ => .error r
              | none, some r => .error r
              | none, none => .ok (a, b)
          | _, _ => .error .notReady
      | _, _ => .error .badArg := by
  have hstart : ¬s.startRefused = true := by
    rw [startRefused_iff, not_or]
    exact ⟨hp, by simp [hstop]⟩
  exact (if_neg hstart).trans (if_neg (not_not_intro hoff))

theorem checkLinkRings_badArg (hp : s.clk.power ≠ .entering) (hstop : s.cells.stopAll = none) (hoff : s.link.st = .off)
    (h : 4 ≤ a.toNat ∨ 4 ≤ b.toNat ∨ a = b) : s.checkLinkRings a b = .error .badArg := by
  rw [checkLinkRings_off hp hstop hoff]
  rcases h with h | h | rfl
  · rw [ringOf_of_four_le h]
  · rw [ringOf_of_four_le h]
    cases ringOf a <;> rfl
  · cases ringOf a with
    | none => rfl
    | some ra => exact if_pos rfl

section
variable {ra rb : RingId}

theorem checkLinkRings_notReady (hp : s.clk.power ≠ .entering) (hstop : s.cells.stopAll = none) (hoff : s.link.st = .off)
    (ha : ra.val = a.toNat) (hb : rb.val = b.toNat) (hne : ra ≠ rb) (h : (s.ring ra).desc = none ∨ (s.ring rb).desc = none) :
    s.checkLinkRings a b = .error .notReady := by
  rw [checkLinkRings_off hp hstop hoff, ringOf_eq_some ha, ringOf_eq_some hb]
  refine (if_neg hne).trans ?_
  rcases h with h | h
  · rw [h]
  · rw [h]
    cases (s.ring ra).desc <;> rfl

/-- R14, R18: the checks of two defined rings. -/
theorem checkLinkRings_defined {da db : RingDesc} (hp : s.clk.power ≠ .entering) (hstop : s.cells.stopAll = none)
    (hoff : s.link.st = .off) (ha : ra.val = a.toNat) (hb : rb.val = b.toNat) (hne : ra ≠ rb) (hda : (s.ring ra).desc = some da)
    (hdb : (s.ring rb).desc = some db) : s.checkLinkRings a b =
      if da.words ≠ db.words then .error .badArg
      else if da.consumer ≠ .link then .error .badArg
      else if (s.ring ra).consAttached then .error .inUse
      else if db.producer ≠ .link then .error .badArg
      else if (s.ring rb).prodAttached then .error .inUse
      else .ok (ra, rb) := by
  rw [checkLinkRings_off hp hstop hoff, ringOf_eq_some ha, ringOf_eq_some hb]
  refine (if_neg hne).trans ?_
  rw [hda, hdb]
  refine ite_congr rfl (fun _ => rfl) (fun _ => ?_)
  unfold State.attachConsumerCheck State.attachProducerCheck
  rw [hda, hdb]
  dsimp only
  split_ifs <;> rfl

/-- R18: LINK RINGS of two defined rings, refused by the first failing check. -/
theorem linkRings_given_defined {da db : RingDesc} (hp : s.clk.power ≠ .entering) (hstop : s.cells.stopAll = none)
    (hoff : s.link.st = .off) (ha : ra.val = a.toNat) (hb : rb.val = b.toNat) (hne : ra ≠ rb) (hda : (s.ring ra).desc = some da)
    (hdb : (s.ring rb).desc = some db) : exec (.linkRings tag a b k) (s.given (.linkRings tag a b k)) = .next
      (if da.words ≠ db.words then s.handDone tag 9 .badArg
       else if da.consumer ≠ .link then s.handDone tag 9 .badArg
       else if (s.ring ra).consAttached then s.handDone tag 9 .inUse
       else if db.producer ≠ .link then s.handDone tag 9 .badArg
       else if (s.ring rb).prodAttached then s.handDone tag 9 .inUse
       else
        (((s.setRing ra { s.ring ra with consAttached := true }).setRing rb { s.ring rb with prodAttached := true }).setLink
          { st := .wait, source := some ra, destination := some rb, keep := min 256 (max 128 k.toNat) }).handDone tag 9 .done) := by
  have hcheck := checkLinkRings_defined hp hstop hoff ha hb hne hda hdb
  have hsource : ((s.attachConsumer ra true).attachProducer rb true) =
      (s.setRing ra { s.ring ra with consAttached := true }).setRing rb { s.ring rb with prodAttached := true } := by
    show (s.setRing ra _).setRing rb { (s.setRing ra _).ring rb with prodAttached := true } = _
    rw [State.setRing_ring_other s _ hne.symm]
  split_ifs at hcheck ⊢
  · exact linkRings_given_refused hcheck
  · exact linkRings_given_refused hcheck
  · exact linkRings_given_refused hcheck
  · exact linkRings_given_refused hcheck
  · exact linkRings_given_refused hcheck
  · rw [linkRings_given_accepted hcheck, hsource]
    rfl

end
end

/-! ### The end of the link -/

theorem Rings.set_comm (q : Rings) {a b : RingId} (h : a ≠ b) (x y : Ring) : (q.set a x).set b y = (q.set b y).set a x := by
  unfold Rings.set
  match a, b with
  | 0, 0 => exact absurd rfl h
  | 0, 1 | 0, 2 | 0, 3 => rfl
  | 1, 1 => exact absurd rfl h
  | 1, 0 | 1, 2 | 1, 3 => rfl
  | 2, 2 => exact absurd rfl h
  | 2, 0 | 2, 1 | 2, 3 => rfl
  | 3, 3 => exact absurd rfl h
  | 3, 0 | 3, 1 | 3, 2 => rfl

section
variable {s : State} {d : RingDesc}

/-- R23: a source line's reads are out. -/
def State.linkReading (s : State) : Bool := s.link.readsOut && !s.linkReadsDone

/-- R23: the link as it enters ENDING, its source side detached unless its reads are out. -/
def State.linkLeaving (s : State) (abort : Bool) : State :=
  (if s.linkReading then s
    else (s.setPmc s.pmc.dropLinkReads).setRing s.link.sourceRing { s.ring s.link.sourceRing with consAttached := false }).setLink
    { s.link with
      st := .ending, hold := [], heldCount := 0, heldLost := 0, mergedWriting := 0, emitPending := false
      dropped := min 65535 (s.link.dropped + (s.link.heldCount + s.link.mergedWriting)), abortCell := abort
      readsOut := s.linkReading }

/-- R23: lines are lost where some were held or half written, or the source lost its tail. -/
def Link.losesTail (x : Link) : Bool := decide (0 < x.heldCount + x.mergedWriting) || x.sourceLostTail

/-- R23: the destination ring with its claims abandoned. -/
def Ring.abandoned (y : Ring) : Ring := { y with writing := y.writing.map fun c => { c with abandoned := true } }

/-- R23: the held lines dropped and the claims abandoned, the link has left its state. -/
def State.linkDropped (s : State) (abort : Bool) : State :=
  (s.setLink { s.link with
    st := .ending, hold := [], heldCount := 0, heldLost := 0, mergedWriting := 0, emitPending := false
    dropped := satAdd 65535 s.link.dropped s.link.dropping, abortCell := abort }).abandonClaims s.link.destRing

theorem linkDropped_left (hne : s.link.sourceRing ≠ s.link.destRing) (abort : Bool) :
    (if s.link.readsOut ∧ ¬(s.linkDropped abort).linkReadsDone then s.linkDropped abort else (s.linkDropped abort).linkDetachSource)
      = (s.linkLeaving abort).setRing s.link.destRing (s.ring s.link.destRing).abandoned := by
  have hdone : (s.linkDropped abort).linkReadsDone = s.linkReadsDone := rfl
  rw [hdone]
  unfold State.linkLeaving
  by_cases h : s.link.readsOut = true ∧ ¬s.linkReadsDone = true
  · have hreading : s.linkReading = true := by simp [State.linkReading, h.1, h.2]
    rw [if_pos h, hreading, if_pos rfl, ← h.1]
    rfl
  · have hreading : s.linkReading = false := by simpa [State.linkReading] using h
    rw [if_neg h, hreading, if_neg Bool.false_ne_true, linkDetachSource_eq]
    have hsource : (s.linkDropped abort).ring s.link.sourceRing = s.ring s.link.sourceRing := Rings.get_set_other _ _ hne
    show State.setLink (State.setRings ((s.linkDropped abort).setPmc s.pmc.dropLinkReads)
      ((s.rings.set s.link.destRing (s.ring s.link.destRing).abandoned).set s.link.sourceRing
        { (s.linkDropped abort).ring s.link.sourceRing with consAttached := false })) _ = _
    rw [hsource, Rings.set_comm _ hne.symm]
    rfl

/-- R23: the link ends: its lines dropped, its claims abandoned, and the destination asked to end its page. -/
theorem linkEnd_eq (hne : s.link.sourceRing ≠ s.link.destRing) (hd : (s.ring s.link.destRing).desc = some d) (abort : Bool) :
    s.linkEnd abort = ((((s.linkLeaving abort).setRing s.link.destRing (s.ring s.link.destRing).abandoned).askPageEnd s.link.destRing
      s.link.losesTail).beginPageEnd s.link.destRing d).linkTryOff := by
  have hleft := linkDropped_left hne abort
  have hdesc : (((s.linkLeaving abort).setRing s.link.destRing (s.ring s.link.destRing).abandoned).ring s.link.destRing).desc
      = some d := by rw [State.setRing_ring]; exact hd
  rw [← hleft] at hdesc ⊢
  unfold State.linkEnd
  dsimp only
  split
  case h_1 hnone => exact absurd (hdesc.symm.trans hnone) (Option.some_ne_none d)
  case h_2 d' hsome =>
    obtain rfl : d = d' := Option.some.inj (hdesc.symm.trans hsome)
    rfl

end

/-! ### What UNLINK leaves -/

section
variable {s : State}

/-- R23: the link has left its state and holds no line; the lines held and half written are counted dropped. -/
structure Link.Dropped (x y : Link) : Prop where
  st : y.st = .ending ∨ y.st = .off
  hold : y.hold = []
  heldCount : y.heldCount = 0
  heldLost : y.heldLost = 0
  dropped : y.dropped = min 65535 (x.dropped + (x.heldCount + x.mergedWriting))

theorem linkTryOff_dropped {x : Link} (h : x.Dropped s.link) : x.Dropped s.linkTryOff.link := by
  unfold State.linkTryOff
  dsimp only
  split_ifs
  · exact ⟨.inr rfl, by simpa using h.hold, by simpa using h.heldCount, by simpa using h.heldLost, by simpa using h.dropped⟩
  · exact ⟨.inr rfl, h.hold, h.heldCount, h.heldLost, h.dropped⟩
  · exact h

theorem linkTryOff_cells (h : s.link.abortCell = false) : s.linkTryOff.cells = s.cells := by
  unfold State.linkTryOff
  dsimp only
  rw [h, if_neg Bool.false_ne_true]
  split_ifs <;> rfl

theorem linkDetachSource_cells : s.linkDetachSource.cells = s.cells := by
  rw [linkDetachSource_eq]
  rfl

theorem linkDetachSource_link : s.linkDetachSource.link = { s.link with readsOut := false } := by
  rw [linkDetachSource_eq]
  rfl

theorem askPageEnd_cells (r : RingId) (lost : Bool) : (s.askPageEnd r lost).cells = s.cells := by
  unfold State.askPageEnd
  split <;> rfl

theorem beginPageEnd_cells (r : RingId) (d : RingDesc) : (s.beginPageEnd r d).cells = s.cells := by
  unfold State.beginPageEnd
  dsimp only
  split
  · split <;> rfl
  · rfl

theorem linkDropped_dropped (abort : Bool) : s.link.Dropped (s.linkDropped abort).link := ⟨.inl rfl, rfl, rfl, rfl, rfl⟩

theorem linkEnd_dropped (abort : Bool) : s.link.Dropped (s.linkEnd abort).link := by
  have hleft : s.link.Dropped (if s.link.readsOut ∧ ¬(s.linkDropped abort).linkReadsDone then s.linkDropped abort
      else (s.linkDropped abort).linkDetachSource).link := by
    split_ifs
    · exact linkDropped_dropped abort
    · rw [linkDetachSource_link]
      exact ⟨.inl rfl, rfl, rfl, rfl, rfl⟩
  unfold State.linkEnd
  dsimp only
  split
  · exact hleft
  · refine linkTryOff_dropped ?_
    rw [State.beginPageEnd_link, State.askPageEnd_link]
    exact hleft

/-- R23: an UNLINK owes no STREAM cell. -/
theorem linkEnd_cells : (s.linkEnd false).cells = s.cells := by
  have hleft : (if s.link.readsOut ∧ ¬(s.linkDropped false).linkReadsDone then s.linkDropped false
      else (s.linkDropped false).linkDetachSource).cells = s.cells := by
    split_ifs
    · rfl
    · exact linkDetachSource_cells
  have habort : (if s.link.readsOut ∧ ¬(s.linkDropped false).linkReadsDone then s.linkDropped false
      else (s.linkDropped false).linkDetachSource).link.abortCell = false := by
    split_ifs
    · rfl
    · rw [linkDetachSource_link]
      rfl
  unfold State.linkEnd
  dsimp only
  split
  · exact hleft
  · refine (linkTryOff_cells ?_).trans ?_
    · rw [State.beginPageEnd_link, State.askPageEnd_link]
      exact habort
    · rw [beginPageEnd_cells, askPageEnd_cells]
      exact hleft

theorem handDone_reserved (tag : Byte) (code : Nat) (r : Result) (fields : List Byte) (h : s.cells.taking ≠ .notStarted) :
    (s.handDone tag code r fields).cells.reserved = s.cells.reserved - 1 := by
  unfold State.handDone
  split_ifs with hnone
  · have hzero := hnone.resolve_left h
    omega
  · rfl

/-! ### UNLINK of a link with no page end waiting -/

section
variable {d : RingDesc} {y : Ring} {abort : Bool}

theorem not_linkReadsDone (hw : s.nothingFor .linkWords) : s.linkReadsDone = false := by
  unfold State.linkReadsDone Pmc.hasDone
  rw [Bool.and_eq_false_iff]
  left
  rw [List.any_eq_false]
  exact fun d hd => by simp [hw d hd]

theorem dropLinkReads_of_none (hw : s.nothingFor .linkWords) (ht : s.nothingFor .linkTag) : s.pmc.dropLinkReads = s.pmc := by
  have hall : s.pmc.inbox.filter (fun d => d.req ≠ .linkWords ∧ d.req ≠ .linkTag) = s.pmc.inbox :=
    List.filter_eq_self.mpr fun d hd => by simpa using ⟨hw d hd, ht d hd⟩
  unfold Pmc.dropLinkReads
  rw [hall]

theorem linkReading_of_none (hw : s.nothingFor .linkWords) : s.linkReading = s.link.readsOut := by
  simp [State.linkReading, not_linkReadsDone hw]

/-- R23: with none of its reads complete the link leaves its source side attached exactly while they are out. -/
theorem linkLeaving_of_none (hw : s.nothingFor .linkWords) (ht : s.nothingFor .linkTag) (abort : Bool) : s.linkLeaving abort =
    (if s.link.readsOut then s
      else s.setRing s.link.sourceRing { s.ring s.link.sourceRing with consAttached := false }).setLink { s.link with
      st := .ending, hold := [], heldCount := 0, heldLost := 0, mergedWriting := 0, emitPending := false
      dropped := min 65535 (s.link.dropped + (s.link.heldCount + s.link.mergedWriting)), abortCell := abort } := by
  unfold State.linkLeaving
  rw [linkReading_of_none hw, dropLinkReads_of_none hw ht]
  rfl

theorem linkLeaving_dest (hne : s.link.sourceRing ≠ s.link.destRing) :
    (s.linkLeaving abort).ring s.link.destRing = s.ring s.link.destRing := by
  unfold State.linkLeaving
  split_ifs
  · rfl
  · exact Rings.get_set_other _ _ hne.symm

/-- R23: with no page end waiting the destination is asked to end its page. -/
theorem linkEnd_of_none (hne : s.link.sourceRing ≠ s.link.destRing) (hd : (s.ring s.link.destRing).desc = some d)
    (hp : (s.ring s.link.destRing).pageEnd = none) (abort : Bool) : s.linkEnd abort =
      (((s.linkLeaving abort).setRing s.link.destRing
        { (s.ring s.link.destRing).abandoned with pageEnd := some ⟨s.link.losesTail, false⟩ }).beginPageEnd
        s.link.destRing d).linkTryOff := by
  rw [linkEnd_eq hne hd, askPageEnd_of_none (by rw [State.setRing_ring]; exact hp), State.setRing_ring, State.setRing_setRing]

theorem linkTryOff_rewriting {r : RingId} (hdest : s.link.destRing = r) (h : y.pageEnd ≠ none) (c : MemClass) (q : Req) (a : Nat)
    (l : List Half) : ((s.setRing r y).issueWrite c q a l).linkTryOff = (s.setRing r y).issueWrite c q a l := by
  subst hdest
  refine linkTryOff_of_not fun hended => h ?_
  rw [← State.setRing_ring s s.link.destRing y]
  exact hended.1

theorem linkEnd_held {h : Held} (hne : s.link.sourceRing ≠ s.link.destRing) (hd : (s.ring s.link.destRing).desc = some d)
    (hp : (s.ring s.link.destRing).pageEnd = none) (hw : (s.ring s.link.destRing).writing = [])
    (hh : (s.ring s.link.destRing).held = some h) (abort : Bool) : s.linkEnd abort =
      ((s.linkLeaving abort).setRing s.link.destRing { s.ring s.link.destRing with
        held := some ⟨h.slot, { h.tag with endOfPage := true, lostTail := h.tag.lostTail || s.link.losesTail }⟩
        pageEnd := some ⟨s.link.losesTail, true⟩ }).issueWrite (sideClass d.producer) (.pageEndTag s.link.destRing)
        (d.slotAddress h.slot) (tagHalves { h.tag with endOfPage := true, lostTail := h.tag.lostTail || s.link.losesTail }) := by
  rw [linkEnd_of_none hne hd hp]
  have hclaims : (s.ring s.link.destRing).abandoned = s.ring s.link.destRing := by
    unfold Ring.abandoned
    rw [hw, List.map_nil, ← hw]
  rw [hclaims, beginPageEnd_of_held (lost := s.link.losesTail) (h := h) (by rw [State.setRing_ring])
    (by rw [State.setRing_ring]; exact hw) (by rw [State.setRing_ring]; exact hh), State.setRing_ring, State.setRing_setRing]
  refine linkTryOff_rewriting (s := s.linkLeaving abort) (r := s.link.destRing) rfl ?_ ..
  exact Option.some_ne_none _

theorem linkEnd_writing (hne : s.link.sourceRing ≠ s.link.destRing) (hd : (s.ring s.link.destRing).desc = some d)
    (hp : (s.ring s.link.destRing).pageEnd = none) (hw : (s.ring s.link.destRing).writing ≠ []) (abort : Bool) : s.linkEnd abort =
      (s.linkLeaving abort).setRing s.link.destRing
        { (s.ring s.link.destRing).abandoned with pageEnd := some ⟨s.link.losesTail, false⟩ } := by
  have hwriting : ((((s.linkLeaving abort).setRing s.link.destRing
      { (s.ring s.link.destRing).abandoned with pageEnd := some ⟨s.link.losesTail, false⟩ }).ring s.link.destRing).writing) ≠ [] := by
    rw [State.setRing_ring]
    exact fun h => hw (List.map_eq_nil_iff.mp h)
  rw [linkEnd_of_none hne hd hp, beginPageEnd_of_writing hwriting]
  exact linkTryOff_stays (r := s.link.destRing) rfl (.inr hwriting)

/-- R23: with nothing held or written the page end is complete at once. -/
theorem linkEnd_none (hne : s.link.sourceRing ≠ s.link.destRing) (hd : (s.ring s.link.destRing).desc = some d)
    (hp : (s.ring s.link.destRing).pageEnd = none) (hw : (s.ring s.link.destRing).writing = [])
    (hh : (s.ring s.link.destRing).held = none) (abort : Bool) : s.linkEnd abort = (s.linkLeaving abort).linkTryOff := by
  have hclaims : (s.ring s.link.destRing).abandoned = s.ring s.link.destRing := by
    unfold Ring.abandoned
    rw [hw, List.map_nil, ← hw]
  rw [linkEnd_of_none hne hd hp, hclaims, beginPageEnd_of_no_held (lost := s.link.losesTail) (by rw [State.setRing_ring])
    (by rw [State.setRing_ring]; exact hw) (by rw [State.setRing_ring]; exact hh), State.setRing_ring, State.setRing_setRing]
  refine congrArg State.linkTryOff (Eq.trans ?_ (State.setRing_of_self (s.linkLeaving abort) s.link.destRing))
  rw [linkLeaving_dest hne, ← hp]

end

/-- R23: a link with no read out whose destination's page end is complete is OFF, both its sides detached. -/
theorem linkLeaving_off (hout : s.link.readsOut = false) (hne : s.link.sourceRing ≠ s.link.destRing)
    (hp : (s.ring s.link.destRing).pageEnd = none) (hw : (s.ring s.link.destRing).writing = []) :
    (s.linkLeaving false).linkTryOff = (((s.setPmc s.pmc.dropLinkReads).setRing s.link.sourceRing
      { s.ring s.link.sourceRing with consAttached := false }).setRing s.link.destRing
        { s.ring s.link.destRing with prodAttached := false }).setLink
      { (s.linkLeaving false).link with st := .off } := by
  have hreading : s.linkReading = false := by simp [State.linkReading, hout]
  have hleaving : s.linkLeaving false = (((s.setPmc s.pmc.dropLinkReads).setRing s.link.sourceRing
      { s.ring s.link.sourceRing with consAttached := false })).setLink (s.linkLeaving false).link := by
    unfold State.linkLeaving
    rw [hreading]
    rfl
  rw [linkTryOff_off (s := s.linkLeaving false) (r := s.link.destRing) rfl hreading rfl
    ((congrArg Ring.pageEnd (linkLeaving_dest hne)).trans hp) ((congrArg Ring.writing (linkLeaving_dest hne)).trans hw),
    linkLeaving_dest hne]
  refine (congrArg (fun u : State => (u.setRing s.link.destRing { s.ring s.link.destRing with prodAttached := false }).setLink _)
    hleaving).trans ?_
  rfl

/-! ### The row -/

/-- R184: UNLINK in OFF or ENDING is refused. -/
theorem unlink_given_refused {tag : Byte} (h : s.link.st = .off ∨ s.link.st = .ending) :
    exec (.unlink tag) (s.given (.unlink tag)) = .next (s.handDone tag 10 .badState) := by
  simp only [exec, execUnlink, claimCommand_given]
  exact if_pos h

theorem unlink_given {tag : Byte} (h : s.link.st = .wait ∨ s.link.st = .reading ∨ s.link.st = .writing) :
    exec (.unlink tag) (s.given (.unlink tag)) = .next ((s.linkEnd false).handDone tag 10 .done
      (twoBytes (min 65535 (s.link.dropped + (s.link.heldCount + s.link.mergedWriting))))) := by
  simp only [exec, execUnlink, claimCommand_given]
  rw [← (linkEnd_dropped (s := s) false).dropped]
  refine if_neg ?_
  rcases h with h | h | h <;> rw [h] <;> decide

end

end Sys2Proof.Machine

namespace Sys2Proof.Proofs

open Sys2Proof Sys2Proof.Machine

/-- Settles O29: LINK RINGS by its checks, UNLINK by what the link holds and writes. -/
theorem linkCommandRows : Obligations.LinkCommandRows := by
  refine ⟨fun s tag a b k => ⟨fun h => linkRings_given_refused (checkLinkRings_busy h), fun hp hstop hoff =>
    ⟨fun h => linkRings_given_refused (checkLinkRings_badArg hp hstop hoff h), fun ra rb ha hb hne =>
    ⟨fun h => linkRings_given_refused (checkLinkRings_notReady hp hstop hoff ha hb hne h), fun da db hda hdb => ?_⟩⟩⟩,
    fun s tag => ⟨unlink_given_refused, fun h => ⟨_, unlink_given h, ?_⟩, ?_, ?_⟩⟩
  · exact linkRings_given_defined hp hstop hoff ha hb hne hda hdb
  · have hground : ((s.linkEnd false).handDone tag 10 .done
        (twoBytes (min 65535 (s.link.dropped + (s.link.heldCount + s.link.mergedWriting))))).ground = s.ground := by simp
    refine ⟨?_, ?_, ?_, ?_, ?_, fun htaking => ?_, congrArg Ground.mem hground, by simp, by simp, by simp, by simp, by simp, by simp,
      by simp, congrArg Ground.tables hground, congrArg Ground.boot hground⟩
    all_goals obtain ⟨hst, hhold, hheld, hlost, hdropped⟩ := linkEnd_dropped (s := s) false
    · simpa using hst
    · simpa using hhold
    · simpa using hheld
    · simpa using hlost
    · simpa using hdropped
    · have hcells : (s.linkEnd false).cells = s.cells := linkEnd_cells
      rw [handDone_reserved _ _ _ _ (by rw [hcells]; exact htaking), hcells]
  · intro d c rest h hst x y lost n t hne hd hlink hp hw ht
    refine ⟨fun hwriting hheld => (unlink_given hst).trans ?_, fun hwriting => (unlink_given hst).trans ?_,
      fun hwriting hheld hout => (unlink_given hst).trans ?_⟩
    · rw [linkEnd_held hne hd hp hwriting hheld, linkLeaving_of_none hw ht, hlink]
      rfl
    · rw [linkEnd_writing hne hd hp (by rw [hwriting]; exact List.cons_ne_nil _ _), linkLeaving_of_none hw ht]
      rfl
    · have hout' : (s.linkLeaving false).link.readsOut = true := (linkReading_of_none hw).trans hout
      rw [linkEnd_none hne hd hp hwriting hheld, linkTryOff_stays (s := s.linkLeaving false) (r := s.link.destRing) rfl
        (.inl hout'), linkLeaving_of_none hw ht]
  · intro d hst hout hne hd hh hw hp
    refine ⟨_, unlink_given (.inl hst), ?_⟩
    rw [linkEnd_none hne hd hp hw hh, linkLeaving_off hout hne hp hw]
    have hsource : ((((s.setPmc s.pmc.dropLinkReads).setRing s.link.sourceRing
        { s.ring s.link.sourceRing with consAttached := false }).setRing s.link.destRing
          { s.ring s.link.destRing with prodAttached := false }).ring s.link.sourceRing)
        = { s.ring s.link.sourceRing with consAttached := false } := by
      rw [State.setRing_ring_other _ _ hne, State.setRing_ring]
    refine ⟨by simp, ?_, ?_, ?_⟩
    · rw [State.handDone_ring]
      exact congrArg Ring.consAttached hsource
    · rw [State.handDone_ring]
      exact congrArg Ring.prodAttached (State.setRing_ring _ _ _)
    · rw [State.handDone_ring]
      exact (congrArg Ring.take hsource).trans rfl

end Sys2Proof.Proofs
end

