-- ==== Sys2Proof/Proofs/StopAll.lean ====
section
/-! STOP ALL (R191, R192). -/

namespace Sys2Proof.Machine

open Sys2Proof

/-! ### The STOP ALL in flight is the cell unit's own -/

section
variable (s : State)

@[simp] theorem State.handEvent_stopAll (k : Kind) (tag : Byte) (r : Result) (fields : List Byte) (mark : CellMark) :
    (s.handEvent k tag r fields mark).cells.stopAll = s.cells.stopAll := by
  unfold State.handEvent State.recordLost
  dsimp only
  split_ifs <;> rfl

@[simp] theorem State.handDone_stopAll (tag : Byte) (code : Nat) (r : Result) (fields : List Byte) (mark : CellMark) :
    (s.handDone tag code r fields mark).cells.stopAll = s.cells.stopAll := by
  unfold State.handDone
  split_ifs <;> rfl

@[simp] theorem State.snapshotDue_stopAll : s.snapshotDue.cells.stopAll = s.cells.stopAll := by
  unfold State.snapshotDue
  split
  · rfl
  · split
    · rfl
    · rfl
    · rfl
    all_goals split <;> rfl

@[simp] theorem State.beginPageEnd_stopAll (r : RingId) (d : RingDesc) : (s.beginPageEnd r d).cells.stopAll = s.cells.stopAll :=
  congrArg Cells.stopAll (beginPageEnd_cells r d)

@[simp] theorem State.askPageEnd_stopAll (r : RingId) (lost : Bool) : (s.askPageEnd r lost).cells.stopAll = s.cells.stopAll :=
  congrArg Cells.stopAll (askPageEnd_cells r lost)

@[simp] theorem State.scanTryOff_stopAll : s.scanTryOff.cells.stopAll = s.cells.stopAll := by
  unfold State.scanTryOff
  split_ifs <;> rfl

@[simp] theorem State.scanPageEndComplete_stopAll : s.scanPageEndComplete.cells.stopAll = s.cells.stopAll := by
  simp [State.scanPageEndComplete, State.handPageScanned]

@[simp] theorem State.scanPageEnd_stopAll (reason : ScanReason) : (s.scanPageEnd reason).cells.stopAll = s.cells.stopAll := by
  unfold State.scanPageEnd
  dsimp only
  split
  · rfl
  · split_ifs <;> simp [State.stopMove]

@[simp] theorem State.calCut_stopAll (reason : ScanReason) : (s.calCut reason).cells.stopAll = s.cells.stopAll := by
  unfold State.calCut
  dsimp only
  split
  · split <;> rfl
  · exact State.handEvent_stopAll ..

@[simp] theorem State.scanCut_stopAll (reason : ScanReason) : (s.scanCut reason).cells.stopAll = s.cells.stopAll := by
  unfold State.scanCut
  split <;> simp

@[simp] theorem State.printCut_stopAll (reason : PrintReason) : (s.printCut reason).cells.stopAll = s.cells.stopAll := by
  rw [printCut_eq]
  split_ifs <;> rfl

@[simp] theorem State.linkTryOff_stopAll : s.linkTryOff.cells.stopAll = s.cells.stopAll := by
  unfold State.linkTryOff
  dsimp only
  split_ifs
  · exact State.handEvent_stopAll ..
  · rfl
  · rfl

@[simp] theorem State.linkEnd_stopAll (abort : Bool) : (s.linkEnd abort).cells.stopAll = s.cells.stopAll := by
  have hleft : (if s.link.readsOut ∧ ¬(s.linkDropped abort).linkReadsDone then s.linkDropped abort
      else (s.linkDropped abort).linkDetachSource).cells.stopAll = s.cells.stopAll := by
    split_ifs
    · rfl
    · exact congrArg Cells.stopAll linkDetachSource_cells
  unfold State.linkEnd
  dsimp only
  split
  · exact hleft
  · simp only [State.linkTryOff_stopAll, State.beginPageEnd_stopAll, State.askPageEnd_stopAll]
    exact hleft

@[simp] theorem State.linkStopAll_stopAll : s.linkStopAll.cells.stopAll = s.cells.stopAll := by
  unfold State.linkStopAll
  split
  · rfl
  · rfl
  all_goals exact State.linkEnd_stopAll ..

end

/-! ### The link -/

section
variable {s : State}

/-- R24: a link that ends at a STOP ALL owes its STREAM cell until it is OFF. -/
theorem linkTryOff_owes (h : s.link.abortCell = true) : s.linkTryOff.link.st = .ending → s.linkTryOff.link.abortCell = true := by
  unfold State.linkTryOff
  dsimp only
  split_ifs
  · exact fun hst => LinkState.noConfusion hst
  · exact fun _ => h

theorem linkEnd_owes : (s.linkEnd true).link.st = .ending → (s.linkEnd true).link.abortCell = true := by
  have hleft : (if s.link.readsOut ∧ ¬(s.linkDropped true).linkReadsDone then s.linkDropped true
      else (s.linkDropped true).linkDetachSource).link.abortCell = true := by
    split_ifs
    · rfl
    · rw [linkDetachSource_link]
      rfl
  unfold State.linkEnd
  dsimp only
  split
  · exact fun _ => hleft
  · refine linkTryOff_owes ?_
    rw [State.beginPageEnd_link, State.askPageEnd_link]
    exact hleft

/-- R24: STOP ALL leaves the link OFF or ENDING and owing its STREAM cell. -/
theorem linkStopAll_ended : (s.linkStopAll.link.st = .off ∨ s.linkStopAll.link.st = .ending)
    ∧ (s.linkStopAll.link.st = .ending → s.linkStopAll.link.abortCell = true) := by
  unfold State.linkStopAll
  split
  case h_1 hst => exact ⟨.inl hst, fun h => LinkState.noConfusion (hst.symm.trans h)⟩
  case h_2 hst => exact ⟨.inr hst, fun _ => rfl⟩
  all_goals exact ⟨(linkEnd_dropped true).st.symm, linkEnd_owes⟩

theorem linkStopAll_ending (h : s.link.st = .ending) : s.linkStopAll.link = { s.link with abortCell := true } := by
  unfold State.linkStopAll
  rw [h]
  rfl

/-! ### The scan stream -/

/-- R43, R86: the end of the scan stream asks DOC to stop, which a stopped channel is past, and gives DOC back where it is OFF. -/
def State.gaveBack (s t : State) : Prop :=
  t.doc = { s.doc with owner := if s.scan.st ≠ .off ∧ t.scan.st = .off then .host else s.doc.owner }

theorem gaveBack_self : s.gaveBack s := by
  unfold State.gaveBack
  rw [if_neg fun h => h.1 h.2]

theorem scanTryOff_gaveBack : s.gaveBack s.scanTryOff := by
  unfold State.scanTryOff
  split_ifs with h
  · obtain ⟨hst, -, -⟩ := h
    have hon : s.scan.st ≠ .off := by rw [hst]; decide
    simp [State.gaveBack, State.scanOff, State.attachProducer, hon]
  · exact gaveBack_self

theorem gaveBack_congr {s u t : State} (h : u.gaveBack t) (hdoc : s.doc = u.doc) (hst : (s.scan.st = .off) = (u.scan.st = .off)) :
    s.gaveBack t := by
  unfold State.gaveBack at h ⊢
  rw [h, hdoc]
  simp only [ne_eq, hst]

theorem scanPageEndComplete_gaveBack : s.gaveBack s.scanPageEndComplete := by
  unfold State.scanPageEndComplete
  exact gaveBack_congr scanTryOff_gaveBack (by simp) (by simp)

theorem scanPageEnd_gaveBack (hstopped : s.doc.stop .request = s.doc) (hon : s.scan.st ≠ .off) (reason : ScanReason) :
    s.gaveBack (s.scanPageEnd reason) := by
  obtain ⟨w, hscan, hdoc, h | h⟩ := scanPageEnd_cases (s := s) reason
  all_goals
    have hw : w.scan.st ≠ .off := by rw [hscan]; exact ScanState.noConfusion
    rw [h]
    refine gaveBack_congr (u := w) ?_ (by rw [hdoc, hstopped]) (propext (iff_of_false hon hw))
  · exact gaveBack_self
  · exact scanPageEndComplete_gaveBack

theorem calCut_gaveBack (hst : s.scan.st = .cal) (reason : ScanReason) : s.gaveBack (s.calCut reason) := by
  cases hw : s.scan.calWriting with
  | true =>
    rw [calCut_writing hw]
    exact gaveBack_congr (gaveBack_self (s := s.setScan { s.scan with endReason := some (s.scan.endReason.getD reason) })) rfl rfl
  | false =>
    rw [calCut_reading hw]
    have hon : s.scan.st ≠ .off := by rw [hst]; decide
    simp [State.gaveBack, State.calFinish, State.scanOff, hon]

theorem scanCut_gaveBack (hstopped : s.doc.stop .request = s.doc) (reason : ScanReason) : s.gaveBack (s.scanCut reason) := by
  unfold State.scanCut
  split
  case h_5 hst => exact calCut_gaveBack hst reason
  case h_6 => exact gaveBack_self
  case h_7 => exact gaveBack_self
  all_goals
    rename_i hst
    have hsame : s.scan.abandonReadout.st = s.scan.st := congrArg Page.st (abandonReadout_page s.scan)
    exact gaveBack_congr (scanPageEnd_gaveBack (s := s.setScan s.scan.abandonReadout) hstopped
      (by rw [State.setScan_scan, hsame, hst]; decide) reason) rfl (by rw [State.setScan_scan, hsame])

theorem calCut_left (hst : s.scan.st = .cal) (reason : ScanReason) :
    (s.calCut reason).scan.endReason = (if s.scan.calWriting then some (s.scan.endReason.getD reason) else some reason)
      ∧ ((s.calCut reason).scan.st = .off ∨ ((s.calCut reason).scan.st = .cal ∧ s.scan.calWriting = true)) := by
  cases hw : s.scan.calWriting with
  | true =>
    rw [calCut_writing hw]
    exact ⟨rfl, .inr ⟨hst, rfl⟩⟩
  | false =>
    rw [calCut_reading hw]
    simp [State.calFinish, State.scanOff]

/-- R43, R49: the reason and the state a cut leaves a scan stream. -/
theorem scanCut_left (reason : ScanReason) :
    (s.scanCut reason).scan.endReason = (match s.scan.st with
        | .off | .ending => s.scan.endReason
        | .waitEdge | .capture | .stalled | .trailing => some reason
        | .cal => if s.scan.calWriting then some (s.scan.endReason.getD reason) else some reason)
      ∧ ((s.scanCut reason).scan.st = .off ∨ (s.scanCut reason).scan.st = .ending
        ∨ ((s.scanCut reason).scan.st = .cal ∧ s.scan.calWriting = true)) := by
  unfold State.scanCut
  cases hst : s.scan.st
  case off => exact ⟨rfl, .inl hst⟩
  case ending => exact ⟨rfl, .inr (.inl hst)⟩
  case cal =>
    obtain ⟨hreason, hleft⟩ := calCut_left hst reason
    exact ⟨hreason, hleft.imp_right .inr⟩
  all_goals
    obtain ⟨hreason, hleft⟩ := scanPageEnd_ended (s.setScan s.scan.abandonReadout) reason
    exact ⟨hreason, hleft.elim (fun h => .inr (.inl h)) .inl⟩

/-! ### The row -/

/-- R191: what a STOP ALL finds active, on or moving. -/
def State.stopAllOf (s : State) (tag : Byte) : StopAll :=
  ⟨tag, s.scan.active, s.print.active, decide (s.link.st ≠ .off), s.doc.moving, s.paper.moving⟩

/-- R191: a STOP ALL is in flight with what it found. -/
def State.begunAll (s : State) (tag : Byte) : State := s.setCells { s.cells with stopAll := some (s.stopAllOf tag) }

/-- R191: the state in which STOP ALL has asked every part to stop. -/
def State.stoppedAll (s : State) (tag : Byte) : State :=
  (((((s.begunAll tag).setDoc (s.doc.stop .stopped)).setPaper
    (s.paper.stop .stopped)).scanCut .aborted).printCut .aborted).linkStopAll

theorem stopAll_given_busy {tag : Byte} (h : s.cells.stopAll.isSome = true) :
    exec (.stopAll tag) (s.given (.stopAll tag)) = .next (s.handDone tag 16 .busy) := by
  simp only [exec, execStopAll, claimCommand_given]
  exact if_pos h

theorem stopAll_given {tag : Byte} (h : s.cells.stopAll = none) : exec (.stopAll tag) (s.given (.stopAll tag)) =
    .next (if (s.stoppedAll tag).allStopped then (s.stoppedAll tag).finishStopAll (s.stopAllOf tag) else s.stoppedAll tag) := by
  have hlink : (s.link.st != .off) = decide (s.link.st ≠ .off) := by cases s.link.st <;> rfl
  simp only [exec, execStopAll, claimCommand_given]
  refine (if_neg (by rw [h]; decide)).trans ?_
  unfold State.stoppedAll State.stopAllOf
  rw [hlink]
  exact (apply_ite Host.Outcome.next _ _ _).symm

theorem allStopped_iff : s.allStopped = true ↔ s.scan.st = .off ∧ s.print.st = .off ∧ s.link.st = .off ∧ s.doc.moving = false
    ∧ s.paper.moving = false := by
  unfold State.allStopped Scan.active Print.active Channel.atRest
  simp [and_assoc]

theorem Channel.stop_stop (c : Channel) (cause other : StopCause) : (c.stop cause).stop other = c.stop cause := by
  by_cases h : c.st = .run ∨ c.st = .move
  · rw [Channel.stop_eq (c.stop cause), Channel.stop_stopping h]
    rfl
  · rw [not_or] at h
    rw [Channel.stop_eq c, if_pos h, Channel.stop_eq, if_pos h]

theorem Channel.stop_owner (c : Channel) (cause : StopCause) : (c.stop cause).owner = c.owner := by
  rw [Channel.stop_eq]
  split_ifs <;> rfl

section
variable (s : State) (tag : Byte)

theorem stoppedAll_scan : (s.stoppedAll tag).scan = (((((s.begunAll tag).setDoc
    (s.doc.stop .stopped)).setPaper (s.paper.stop .stopped)).scanCut .aborted)).scan := by
  simp [State.stoppedAll]

/-- R191: STOP ALL asks DOC to stop, and gives it back with a scan stream that goes OFF. -/
theorem stoppedAll_doc : (s.stoppedAll tag).doc = { s.doc.stop .stopped with
    owner := if s.scan.st ≠ .off ∧ (s.stoppedAll tag).scan.st = .off then .host else (s.doc.stop .stopped).owner } := by
  have hcut := scanCut_gaveBack (s := ((s.begunAll tag).setDoc
    (s.doc.stop .stopped)).setPaper (s.paper.stop .stopped)) (Channel.stop_stop ..) .aborted
  rw [stoppedAll_scan]
  refine Eq.trans ?_ hcut
  simp [State.stoppedAll]

theorem stoppedAll_paper : (s.stoppedAll tag).paper = s.paper.stop .stopped := by
  simp [State.stoppedAll]

theorem stoppedAll_ending (hon : s.print.st ≠ .off) :
    (s.stoppedAll tag).print.ending = some (s.print.ending.getD .aborted) := by
  unfold State.stoppedAll
  rw [State.linkStopAll_print, printCut_eq, State.scanCut_print]
  exact congrArg Print.ending (congrArg State.print (if_neg hon))

theorem stoppedAll_scan_left :
    (s.stoppedAll tag).scan.endReason = (match s.scan.st with
        | .off | .ending => s.scan.endReason
        | .waitEdge | .capture | .stalled | .trailing => some .aborted
        | .cal => if s.scan.calWriting then some (s.scan.endReason.getD .aborted) else some .aborted)
      ∧ ((s.stoppedAll tag).scan.st = .off ∨ (s.stoppedAll tag).scan.st = .ending
        ∨ ((s.stoppedAll tag).scan.st = .cal ∧ s.scan.calWriting = true)) := by
  rw [stoppedAll_scan]
  exact scanCut_left (s := ((s.begunAll tag).setDoc
    (s.doc.stop .stopped)).setPaper (s.paper.stop .stopped)) .aborted

theorem stoppedAll_base : (s.stoppedAll tag).base = s.base := by
  simp [State.stoppedAll, State.begunAll]

theorem stoppedAll_link_ended : ((s.stoppedAll tag).link.st = .off ∨ (s.stoppedAll tag).link.st = .ending)
    ∧ ((s.stoppedAll tag).link.st = .ending → (s.stoppedAll tag).link.abortCell = true) := linkStopAll_ended

theorem stoppedAll_link_ending (h : s.link.st = .ending) : (s.stoppedAll tag).link = { s.link with abortCell := true } := by
  unfold State.stoppedAll
  rw [linkStopAll_ending (by simpa [State.begunAll] using h)]
  simp [State.begunAll]

theorem stoppedAll_stopAll : (s.stoppedAll tag).cells.stopAll = some (s.stopAllOf tag) := by
  simp [State.stoppedAll, State.begunAll]

end

/-- R192: with all at rest there is nothing to stop. -/
theorem stoppedAll_of_rest (hscan : s.scan.st = .off) (hprint : s.print.st = .off) (hlink : s.link.st = .off)
    (hdoc : s.doc.moving = false) (hpaper : s.paper.moving = false) :
    s.stoppedAll tag = s.begunAll tag := by
  have hcut : ∀ u : State, u.scan = s.scan → u.scanCut .aborted = u := fun u hu => by
    unfold State.scanCut
    rw [hu, hscan]
  have hprinted : ∀ u : State, u.print = s.print → u.printCut .aborted = u := fun u hu => by
    rw [printCut_eq, hu]
    exact if_pos hprint
  have hlinked : ∀ u : State, u.link = s.link → u.linkStopAll = u := fun u hu => by
    unfold State.linkStopAll
    rw [hu, hlink]
  unfold State.stoppedAll
  rw [Channel.stop_atRest _ _ hdoc, Channel.stop_atRest _ _ hpaper]
  show ((((s.begunAll tag).scanCut .aborted).printCut .aborted).linkStopAll) = _
  rw [hcut (s.begunAll tag) rfl, hprinted (s.begunAll tag) rfl, hlinked (s.begunAll tag) rfl]

/-- R192: completion changes the cell unit and the words it writes alone. -/
theorem finished_streams (b : Bool) (x : StopAll) : (if b then s.finishStopAll x else s).streams = s.streams := by
  split <;> simp

theorem finishStopAll_base (x : StopAll) : (s.finishStopAll x).base = s.base := by
  simp [State.finishStopAll]

theorem finished_base (b : Bool) (x : StopAll) : (if b then s.finishStopAll x else s).base = s.base := by
  split
  · exact finishStopAll_base ..
  · rfl

theorem finishStopAll_stopAll (x : StopAll) : (s.finishStopAll x).cells.stopAll = none := by
  simp [State.finishStopAll]

end

end Sys2Proof.Machine

namespace Sys2Proof.Proofs

open Sys2Proof Sys2Proof.Machine

/-- Settles O24: STOP ALL by what each channel, stream and the link come to. -/
theorem stopAllRows : Obligations.StopAllRows := by
  intro s tag x stop
  refine ⟨fun hnone => ⟨_, stopAll_given hnone, ?_⟩, fun hnone hscan hprint hlink hdoc hpaper => ?_, stopAll_given_busy,
    fun hsome hscan hprint hlink hdoc hpaper => ?_⟩
  · have hstreams := finished_streams (s := s.stoppedAll tag) (s.stoppedAll tag).allStopped (s.stopAllOf tag)
    have hbase := (finished_base (s := s.stoppedAll tag) (s.stoppedAll tag).allStopped (s.stopAllOf tag)).trans (stoppedAll_base s tag)
    have hdoc := congrArg Streams.doc hstreams
    have hpaper := congrArg Streams.paper hstreams
    have hprint := congrArg Streams.print hstreams
    have hscan := congrArg Streams.scan hstreams
    have hlink := congrArg Streams.link hstreams
    dsimp only [State.streams] at hdoc hpaper hprint hscan hlink
    rw [hdoc, hpaper, hprint, hscan, hlink]
    obtain ⟨hreason, hst⟩ := stoppedAll_scan_left s tag
    obtain ⟨hlinkst, howes⟩ := stoppedAll_link_ended s tag
    have hground := congrArg Base.ground hbase
    refine ⟨?_, ?_, stoppedAll_ending s tag, hreason, hst, hlinkst, stoppedAll_link_ending s tag, howes, ?_,
      congrArg Ground.mem hground, congrArg Base.clk hbase, congrArg Base.sense hbase, congrArg Base.lines hbase,
      congrArg Ground.tables hground, congrArg Ground.boot hground⟩
    · rw [stoppedAll_doc, Channel.stop_owner, Channel.stop_eq]
    · rw [stoppedAll_paper]
      exact Channel.stop_eq ..
    · by_cases hall : (s.stoppedAll tag).allStopped = true
      · rw [if_pos hall, if_pos (allStopped_iff.mp hall)]
        exact finishStopAll_stopAll _
      · rw [if_neg hall, if_neg (mt allStopped_iff.mpr hall)]
        exact stoppedAll_stopAll s tag
  · have hrest : s.allStopped = true := allStopped_iff.mpr ⟨hscan, hprint, hlink, hdoc, hpaper⟩
    have hempty : (s.begunAll tag).setCells { (s.begunAll tag).cells with stopAll := none } = s := by
      show s.setCells { s.cells with stopAll := none } = s
      rw [← hnone]
      rfl
    have hflags : (s.begunAll tag).finishStopAll (s.stopAllOf tag) = s.snapshotDue.handDone tag 16 .done [0] := by
      unfold State.finishStopAll State.stopAllOf
      rw [hempty]
      simp [hscan, hprint, hlink, hdoc, hpaper, Scan.active, Print.active, flag, byte]
    rw [stopAll_given hnone, stoppedAll_of_rest hscan hprint hlink hdoc hpaper, hflags]
    exact congrArg Host.Outcome.next (if_pos hrest)
  · simp only [exec, execStopAllComplete]
    rw [hsome]
    have hrest : s.allStopped = true := allStopped_iff.mpr ⟨hscan, hprint, hlink, hdoc, hpaper⟩
    exact if_pos hrest

end Sys2Proof.Proofs
end

