-- ==== Sys2Proof/Proofs/StepInterval.lean ====
section
/-! STEP_INTERVAL_EXPIRY (R81, R84, R85), and what a scan stream does at a step of DOC (R28, R29, R42). -/

namespace Sys2Proof.Machine

open Sys2Proof

/-! ### One step of a channel -/

/-- R81: how far a step moves the pattern, by the mode and the parity of the index. -/
theorem patternStep_val (mode : StepMode) (dir : Direction) (p : Fin 8) : (patternStep mode dir p).val =
    match dir with
    | .forward => (p.val + if mode = .half ∨ p.val % 2 = 0 then 1 else 2) % 8
    | .back => (p.val + 8 - if mode = .half ∨ p.val % 2 = 0 then 1 else 2) % 8 := by
  cases mode <;> cases dir <;> revert p <;> decide

section
variable (c : Channel) (mode : StepMode) (profile : List Nat)

/-- R84: a step of a channel, field by field. -/
theorem Channel.step_eq : c.step mode profile = { c with
    pattern := patternStep mode c.direction c.pattern, remaining := c.remaining.map (· - 1)
    ramp := rampAfter profile.length c.ramp (c.remaining.map (· - 1)), taken := min 65535 (c.taken + 1)
    st := if c.remaining.map (· - 1) = some 0 then .hold else c.st
    timer := if c.remaining.map (· - 1) = some 0 then none
      else some (profile.getD (rampAfter profile.length c.ramp (c.remaining.map (· - 1))) 0) } := by
  unfold Channel.step
  dsimp only
  split_ifs <;> rfl

/-- R85: after a step the channel moves exactly while steps remain. -/
theorem Channel.step_moving (h : c.moving = true) : (c.step mode profile).moving = decide ((c.step mode profile).remaining ≠ some 0) := by
  rw [Channel.step_eq]
  unfold Channel.moving at h ⊢
  dsimp only
  split_ifs with hzero
  · rw [hzero]
    rfl
  · rw [h]
    exact (decide_eq_true hzero).symm

end

/-- R84: a ramp index below the remaining count stays below it. -/
theorem rampAfter_lt {n i rem : Nat} (hi : i < rem + 1) (hrem : 1 ≤ rem) : rampAfter n i (some rem) < rem := by
  unfold rampAfter
  dsimp only
  split_ifs <;> omega

section
variable {c : Channel} {mode : StepMode} {profile : List Nat}

/-- R84: a step of an unbounded move. -/
theorem Channel.step_unbounded (h : c.remaining = none) :
    (c.step mode profile).ramp = (if c.ramp + 1 < profile.length then c.ramp + 1 else c.ramp)
      ∧ (c.step mode profile).st = c.st
      ∧ (c.step mode profile).timer = some (profile.getD (c.step mode profile).ramp 0) := by
  rw [Channel.step_eq, h]
  exact ⟨rfl, rfl, rfl⟩

/-- R84, R85: a step of a bounded move. -/
theorem Channel.step_bounded {rem : Nat} (h : c.remaining = some (rem + 1)) :
    (c.step mode profile).ramp = (if rem ≤ c.ramp then c.ramp - 1
        else if c.ramp + 1 < rem ∧ c.ramp + 1 < profile.length then c.ramp + 1
        else c.ramp)
      ∧ (c.ramp < rem + 1 → 1 ≤ rem → (c.step mode profile).ramp < rem)
      ∧ (1 ≤ rem → (c.step mode profile).st = c.st
        ∧ (c.step mode profile).timer = some (profile.getD (c.step mode profile).ramp 0))
      ∧ (rem = 0 → (c.step mode profile).st = .hold ∧ (c.step mode profile).timer = none) := by
  rw [Channel.step_eq, h]
  refine ⟨rfl, rampAfter_lt, fun hrem => ?_, fun hrem => ?_⟩
  · have hmore : ¬some rem = some 0 := fun h => by
      rw [Option.some.inj h] at hrem
      exact absurd hrem (by decide)
    exact ⟨if_neg hmore, if_neg hmore⟩
  · subst hrem
    exact ⟨rfl, rfl⟩

end

/-! ### The expiry -/

section
variable {s : State} {ch : Chan}

/-- R84, R85: a step of a moving channel, its report and the report of the end. -/
theorem stepIntervalExpiry_of {y : Channel} (hm : (s.chan ch).moving = true) (ht : (s.chan ch).timer.isSome = true)
    (hy : (s.chan ch).step (s.stepMode ch) (s.profile (s.chan ch).profile) = y) :
    exec (.stepIntervalExpiry ch) s = .next (if y.remaining ≠ some 0 then (s.setChan ch y).reportStep ch
      else ((s.setChan ch y).reportStep ch).reportEnd ch y.endCause) := by
  have hmoving := Channel.step_moving (s.chan ch) (s.stepMode ch) (s.profile (s.chan ch).profile) hm
  subst hy
  refine (if_pos ⟨hm, ht⟩).trans ?_
  rw [hmoving]
  by_cases hzero : ((s.chan ch).step (s.stepMode ch) (s.profile (s.chan ch).profile)).remaining ≠ some 0
  · exact (if_pos (decide_eq_true hzero)).trans (congrArg Host.Outcome.next (if_pos hzero).symm)
  · exact (if_neg (by simpa using hzero)).trans (congrArg Host.Outcome.next (if_neg hzero).symm)

/-- R85: what an end reports depends on the requester alone. -/
theorem reportEnd_host (h : (s.chan ch).requester = .host) (cause : EndCause) :
    s.reportEnd ch cause = s.reportHostEnd ch (s.chan ch) cause := by
  unfold State.reportEnd
  rw [h]

theorem reportEnd_scan (h : (s.chan ch).requester = .scan) (cause : EndCause) : s.reportEnd ch cause = s.scanRestart.scanTryOff := by
  unfold State.reportEnd
  rw [h]
  rfl

theorem reportEnd_print (h : (s.chan ch).requester = .print) (cause : EndCause) : s.reportEnd ch cause = s.printMoveEnd := by
  unfold State.reportEnd
  rw [h]

theorem reportStep_of_not (h : ch = .doc → s.doc.owner ≠ .scan) : s.reportStep ch = s := by
  unfold State.reportStep
  split
  next hscan => exact absurd hscan (h rfl)
  all_goals rfl

theorem reportStep_scan (h : s.doc.owner = .scan) : s.reportStep .doc = s.scanDocStep := by
  unfold State.reportStep
  rw [h]

theorem moveResult_eq (cause : EndCause) : moveResult cause = if cause = .complete then .done else .aborted := by
  cases cause <;> rfl

theorem scanTryOff_of_rest (h : s.doc.moving = false) : s.scanTryOff =
    if s.scan.st = .ending ∧ s.scan.endCell = .written then
      ((s.setScan { s.scan with st := .off }).setRing s.scan.params.ring
        { s.ring s.scan.params.ring with prodAttached := false }).setDoc { s.doc with owner := .host }
    else s := by
  have hrest : s.doc.atRest = true := by rw [Channel.atRest, h]; rfl
  unfold State.scanTryOff
  by_cases hend : s.scan.st = .ending ∧ s.scan.endCell = .written
  · rw [if_pos hend, if_pos ⟨hend.1, hend.2, hrest⟩]
    rfl
  · rw [if_neg hend, if_neg fun h' => hend ⟨h'.1, h'.2.1⟩]

end

/-! ### A line trigger (R29, R42) -/

section
variable {x : Scan}

theorem inTrailing_eq (x : Scan) : x.inTrailing = decide (x.st = .trailing ∨ x.stalledFrom = .trailing ∧ x.st = .stalled) := by
  unfold Scan.inTrailing
  rw [Bool.eq_iff_iff]
  simp [and_comm]

/-- R42: the closing conditions after a trigger, LIMIT before EDGE. -/
def Scan.closed (x : Scan) : Scan :=
  let counts := x.st = .trailing ∨ x.stalledFrom = .trailing ∧ x.st = .stalled
  let left := if counts then x.trailingRemaining - 1 else x.trailingRemaining
  let limit := x.params.pageLimit ≤ x.triggerCount
  let edge := counts ∧ left = 0
  { x with
    trailingRemaining := left, closing := decide (limit ∨ edge)
    endReason := if limit then some .limit else if edge then some .edge else x.endReason }

theorem applyClosing_open (hopen : x.closing = false) : x.applyClosing = x.closed := by
  have hedge : ∀ left, (x.inTrailing && left == 0)
      = decide ((x.st = .trailing ∨ x.stalledFrom = .trailing ∧ x.st = .stalled) ∧ left = 0) := fun left => by
    rw [inTrailing_eq, Bool.decide_and]
    rfl
  have hleft : (if x.inTrailing then x.trailingRemaining - 1 else x.trailingRemaining)
      = if x.st = .trailing ∨ x.stalledFrom = .trailing ∧ x.st = .stalled then x.trailingRemaining - 1
        else x.trailingRemaining := by
    rw [inTrailing_eq]
    exact if_congr decide_eq_true_iff rfl rfl
  unfold Scan.applyClosing Scan.closed
  dsimp only
  rw [hleft, hedge]
  generalize (if x.st = .trailing ∨ x.stalledFrom = .trailing ∧ x.st = .stalled then x.trailingRemaining - 1
    else x.trailingRemaining) = left
  by_cases hlimit : x.params.pageLimit ≤ x.triggerCount
  · simp [hlimit]
  · by_cases he : (x.st = .trailing ∨ x.stalledFrom = .trailing ∧ x.st = .stalled) ∧ left = 0
    · simp [hlimit, he]
    · simp [hlimit, he, hopen]

/-- R29: a readout in progress is abandoned and its buffer reads anew. -/
theorem trigger_readout {i : BufId} (h : x.readoutBuf = some i) : x.trigger = { x.setBuf i { st := .readout, words := [], black := 0 } with
    triggerCount := x.triggerCount + 1, lostSinceWritten := min 255 (x.lostSinceWritten + 1)
    lostOverrun := min 65535 (x.lostOverrun + 1), nextRow := List.replicate 2048 0, carry := 0 } := by
  have hread : ({ x with triggerCount := x.triggerCount + 1 } : Scan).readoutBuf = some i := h
  unfold Scan.trigger
  dsimp only
  rw [hread]
  dsimp only
  rw [abandonReadout_of_some hread]
  cases i <;> rfl

theorem trigger_free {i : BufId} (h : x.readoutBuf = none) (hf : x.freeBuf = some i) :
    x.trigger = { x.setBuf i { st := .readout, words := [], black := 0 } with triggerCount := x.triggerCount + 1 } := by
  have hread : ({ x with triggerCount := x.triggerCount + 1 } : Scan).readoutBuf = none := h
  have hfree : ({ x with triggerCount := x.triggerCount + 1 } : Scan).freeBuf = some i := hf
  unfold Scan.trigger
  dsimp only
  rw [hread, hfree]
  cases i <;> rfl

theorem trigger_none (h : x.readoutBuf = none) (hf : x.freeBuf = none) : x.trigger = { x with
    triggerCount := x.triggerCount + 1, lostSinceWritten := min 255 (x.lostSinceWritten + 1)
    lostNoBuffer := min 65535 (x.lostNoBuffer + 1) } := by
  have hread : ({ x with triggerCount := x.triggerCount + 1 } : Scan).readoutBuf = none := h
  have hfree : ({ x with triggerCount := x.triggerCount + 1 } : Scan).freeBuf = none := hf
  unfold Scan.trigger
  dsimp only
  rw [hread, hfree]
  rfl

end

section
variable {s : State}

theorem scanCloseIfIdle_of_readout {i : BufId} (h : s.scan.readoutBuf = some i) : s.scanCloseIfIdle = s :=
  if_neg fun hc => Option.some_ne_none i (h.symm.trans hc.2)

theorem scanCloseIfIdle_of_idle (h : s.scan.readoutBuf = none) :
    s.scanCloseIfIdle = if s.scan.closing = true then s.scanPageEnd (s.scan.endReason.getD .edge) else s := by
  unfold State.scanCloseIfIdle
  by_cases hc : s.scan.closing = true
  · rw [if_pos ⟨hc, h⟩, if_pos hc]
  · rw [if_neg fun h' => hc h'.1, if_neg hc]

/-! ### The steps of DOC reported to the scan stream (R28) -/

theorem scanDocStep_idle (h : s.scan.st = .off ∨ s.scan.st = .ending ∨ s.scan.st = .cal) : s.scanDocStep = s := by
  unfold State.scanDocStep
  dsimp only
  rcases h with h | h | h <;> rw [h]

theorem scanDocStep_waitEdge (h : s.scan.st = .waitEdge) : s.scanDocStep =
    if s.scan.params.feedLimit ≤ min 65535 (s.scan.feedCount + 1) then
      (s.setScan { s.scan with feedCount := min 65535 (s.scan.feedCount + 1) }).scanPageEnd .noDocument
    else s.setScan { s.scan with feedCount := min 65535 (s.scan.feedCount + 1) } := by
  unfold State.scanDocStep
  dsimp only
  rw [h]
  rfl

theorem scanDocStep_inPage (h : s.scan.st = .capture ∨ s.scan.st = .stalled ∨ s.scan.st = .trailing) : s.scanDocStep =
    if s.scan.params.k ≤ s.scan.stepCounter + 1 then (s.setScan { s.scan with stepCounter := 0 }).scanTriggerPosition
    else s.setScan { s.scan with stepCounter := s.scan.stepCounter + 1 } := by
  unfold State.scanDocStep
  dsimp only
  rcases h with h | h | h <;> rw [h]

theorem scanTriggerPosition_skip (h : 0 < s.scan.skipRemaining) :
    s.scanTriggerPosition = s.setScan { s.scan with skipRemaining := s.scan.skipRemaining - 1 } := if_pos h

theorem scanTriggerPosition_closing (hskip : s.scan.skipRemaining = 0) (hc : s.scan.closing = true) : s.scanTriggerPosition = s :=
  (if_neg (by rw [hskip]; decide)).trans (if_pos hc)

/-- R29, R42: a trigger, and what it closes. -/
theorem scanTriggerPosition_trigger (hskip : s.scan.skipRemaining = 0) (hc : s.scan.closing = false) :
    s.scanTriggerPosition = (s.setScan s.scan.trigger.applyClosing).scanCloseIfIdle :=
  (if_neg (by rw [hskip]; decide)).trans (if_neg (by rw [hc]; decide))

theorem scanTriggerPosition_of {y : Scan} (hskip : s.scan.skipRemaining = 0) (hc : s.scan.closing = false)
    (htrigger : s.scan.trigger = y) (hopen : y.closing = false) : s.scanTriggerPosition = (s.setScan y.closed).scanCloseIfIdle := by
  rw [scanTriggerPosition_trigger hskip hc, htrigger, applyClosing_open hopen]

/-- R29, R42: a line trigger by the buffers. -/
theorem scanTriggerPosition_open (hskip : s.scan.skipRemaining = 0) (hc : s.scan.closing = false) :
    let x := s.scan
    let counts := x.st = .trailing ∨ x.stalledFrom = .trailing ∧ x.st = .stalled
    let left := if counts then x.trailingRemaining - 1 else x.trailingRemaining
    let limit := x.params.pageLimit ≤ x.triggerCount + 1
    let edge := counts ∧ left = 0
    let z := { x with
      triggerCount := x.triggerCount + 1, trailingRemaining := left
      closing := decide (limit ∨ edge), endReason := if limit then some .limit else if edge then some .edge else x.endReason }
    let reading : ScanBuf := { st := .readout, words := [], black := 0 }
    let lost := { z with
      lostSinceWritten := min 255 (x.lostSinceWritten + 1), lostOverrun := min 65535 (x.lostOverrun + 1)
      nextRow := List.replicate 2048 0, carry := 0 }
    let none' := s.setScan { z with
      lostSinceWritten := min 255 (x.lostSinceWritten + 1), lostNoBuffer := min 65535 (x.lostNoBuffer + 1) }
    s.scanTriggerPosition =
      if x.bufA.st = .readout then s.setScan { lost with bufA := reading }
      else if x.bufB.st = .readout then s.setScan { lost with bufB := reading }
      else if x.bufA.st = .free then s.setScan { z with bufA := reading }
      else if x.bufB.st = .free then s.setScan { z with bufB := reading }
      else if limit then none'.scanPageEnd .limit
      else if edge then none'.scanPageEnd .edge
      else none' := by
  intro x counts left limit edge z reading lost none'
  by_cases ha : x.bufA.st = .readout
  · have hread : x.readoutBuf = some .a := if_pos ha
    rw [if_pos ha, scanTriggerPosition_of hskip hc (trigger_readout hread) hc]
    exact scanCloseIfIdle_of_readout (i := .a) (if_pos rfl)
  rw [if_neg ha]
  by_cases hb : x.bufB.st = .readout
  · have hread : x.readoutBuf = some .b := (if_neg ha).trans (if_pos hb)
    rw [if_pos hb, scanTriggerPosition_of hskip hc (trigger_readout hread) hc]
    exact scanCloseIfIdle_of_readout (i := .b) ((if_neg ha).trans (if_pos rfl))
  have hidle : x.readoutBuf = none := (if_neg ha).trans (if_neg hb)
  rw [if_neg hb]
  by_cases hfa : x.bufA.st = .free
  · rw [if_pos hfa, scanTriggerPosition_of hskip hc (trigger_free (i := .a) hidle (if_pos hfa)) hc]
    exact scanCloseIfIdle_of_readout (i := .a) (if_pos rfl)
  rw [if_neg hfa]
  by_cases hfb : x.bufB.st = .free
  · rw [if_pos hfb, scanTriggerPosition_of hskip hc (trigger_free (i := .b) hidle ((if_neg hfa).trans (if_pos hfb))) hc]
    exact scanCloseIfIdle_of_readout (i := .b) ((if_neg ha).trans (if_pos rfl))
  rw [if_neg hfb, scanTriggerPosition_of hskip hc (trigger_none hidle ((if_neg hfa).trans (if_neg hfb))) hc]
  refine (scanCloseIfIdle_of_idle ?_).trans ?_
  · exact hidle
  by_cases hlimit : limit
  · have hreason : none'.scan.endReason = some .limit := if_pos hlimit
    rw [if_pos hlimit]
    refine (if_pos (decide_eq_true (.inl hlimit))).trans ?_
    exact congrArg (fun r : Option ScanReason => none'.scanPageEnd (r.getD .edge)) hreason
  rw [if_neg hlimit]
  by_cases he : edge
  · have hreason : none'.scan.endReason = some .edge := (if_neg hlimit).trans (if_pos he)
    rw [if_pos he]
    refine (if_pos (decide_eq_true (.inr he))).trans ?_
    exact congrArg (fun r : Option ScanReason => none'.scanPageEnd (r.getD .edge)) hreason
  · rw [if_neg he]
    exact if_neg (Bool.eq_false_iff.mp (decide_eq_false (not_or.mpr ⟨hlimit, he⟩)))

/-! ### A move stays its requester's -/

theorem Channel.stop_requester (c : Channel) (cause : StopCause) : (c.stop cause).requester = c.requester := by
  rw [Channel.stop_eq]
  split_ifs <;> rfl

theorem scanTryOff_requester : s.scanTryOff.doc.requester = s.doc.requester := by
  unfold State.scanTryOff
  split_ifs <;> rfl

theorem scanPageEnd_requester (reason : ScanReason) : (s.scanPageEnd reason).doc.requester = s.doc.requester := by
  obtain ⟨w, -, hdoc, h | h⟩ := scanPageEnd_cases (s := s) reason
  · rw [h, hdoc, Channel.stop_requester]
  · rw [h]
    refine scanTryOff_requester.trans ?_
    simp [hdoc, Channel.stop_requester]

theorem scanTriggerPosition_requester : s.scanTriggerPosition.doc.requester = s.doc.requester := by
  unfold State.scanTriggerPosition State.scanCloseIfIdle
  dsimp only
  split_ifs
  · rfl
  · rfl
  · exact scanPageEnd_requester ..
  · rfl

theorem scanDocStep_requester : s.scanDocStep.doc.requester = s.doc.requester := by
  unfold State.scanDocStep
  dsimp only
  split
  case h_4 =>
    split
    · exact scanPageEnd_requester ..
    · rfl
  case h_1 | h_2 | h_3 => rfl
  all_goals
    split
    · exact scanTriggerPosition_requester
    · rfl

end

end Sys2Proof.Machine

namespace Sys2Proof.Proofs

open Sys2Proof Sys2Proof.Machine

/-- Settles O47: the step of a channel, its reports, and the triggers of a scan stream. -/
theorem stepIntervalRow : Obligations.StepIntervalRow := by
  intro s ch c mode profile y stride
  have hstep : y = _ := Channel.step_eq c mode profile
  refine ⟨?_, ?_, ?_, fun hnone => ?_, fun rem hrem => ?_, fun hm ht hreq howner => ?_, fun hm ht hch hreq => ?_,
    fun hm ht hch hreq howner => ?_, ?_⟩
  · rw [hstep]
    exact patternStep_val ..
  · rw [hstep]
  · rw [hstep]
  · exact Channel.step_unbounded hnone
  · exact Channel.step_bounded hrem
  · intro cause
    have howner' : ch = .doc → (s.setChan ch y).doc.owner ≠ .scan := by
      rintro rfl
      rw [hstep]
      exact howner rfl
    rw [stepIntervalExpiry_of hm ht (y := y) rfl, reportStep_of_not howner',
      reportEnd_host (by rw [State.setChan_chan, hstep]; exact hreq), State.setChan_chan]
    refine congrArg Host.Outcome.next (ite_congr rfl (fun _ => rfl) fun _ => ?_)
    have hrequested : y.requested = c.requested := by rw [hstep]
    have hstop : y.stopCause = c.stopCause := by rw [hstep]
    have hcause : y.endCause = cause := by
      refine ite_congr (congrArg (· = some y.taken) hrequested) (fun _ => rfl) fun _ => ?_
      generalize y.stopCause = cut at hstop ⊢
      subst hstop
      cases c.stopCause with
      | none => rfl
      | some asked => cases asked <;> rfl
    unfold State.reportHostEnd
    rw [hcause, moveResult_eq, hstep]
    rfl
  · subst hch
    rw [stepIntervalExpiry_of hm ht (y := y) rfl, reportStep_of_not Chan.noConfusion,
      reportEnd_print (by rw [State.setChan_chan, hstep]; exact hreq)]
  · subst hch
    intro u
    have hrequester : u.doc.requester = .scan := (scanDocStep_requester (s := s.setDoc y)).trans (by rw [hstep]; exact hreq)
    rw [stepIntervalExpiry_of hm ht (y := y) rfl, reportStep_scan (by rw [hstep]; exact howner)]
    exact congrArg Host.Outcome.next (ite_congr rfl (fun _ => rfl) fun _ => reportEnd_scan (ch := .doc) hrequester _)
  · intro x
    refine ⟨scanDocStep_idle, scanDocStep_waitEdge, fun hst => ?_, scanTryOff_of_rest⟩
    rw [scanDocStep_inPage hst]
    refine ⟨fun hk => if_neg (Nat.not_le_of_lt hk), fun hk hskip => (if_pos hk).trans (scanTriggerPosition_skip hskip),
      fun hk hskip hc => (if_pos hk).trans (scanTriggerPosition_closing hskip hc), fun hk hskip hc => (if_pos hk).trans ?_⟩
    exact scanTriggerPosition_open (s := s.setScan { s.scan with stepCounter := 0 }) hskip hc

end Sys2Proof.Proofs
end

