-- ==== Sys2Proof/Proofs/PrintCommands.lean ====
section
/-! The commands and the zones that stop, pause and resume a print stream (R73 to R77). -/

namespace Sys2Proof.Machine

open Sys2Proof

/-! ### Entering a state -/

section
variable {s : State} {x : Print}

/-- R69: a stream with nothing in progress. -/
theorem enterPrint_restState : s.enterPrint s.print.restState =
    (if s.print.ready then s else s.setUrgent false).setPrint
      { s.print with st := if s.print.ready then .printing else .waitLine } := by
  unfold Print.restState
  cases s.print.ready <;> rfl

/-- R73: an item is in progress. -/
theorem itemInProgress_isSome (x : Print) : x.itemInProgress.isSome = true ↔
    (x.st = .printing ∧ x.headLine.isSome = true) ∨ x.st = .slewing ∨ x.st = .trailingFeed := by
  unfold Print.itemInProgress
  cases x.st with
  | printing => cases x.headLine <;> simp
  | _ => simp

/-! ### STOP PRINT (R77) -/

theorem stopPrint_ending (h : s.print.ending.isSome = true) : s.stopPrint = s := if_pos h

theorem stopPrint_running (hx : s.print = x) (hp : x.st ≠ .paused) (h : x.ending = none) :
    s.stopPrint = if x.st = .slewing ∨ x.st = .trailingFeed then
        (s.setPrint { x with pendPaper := false, pendCommand := false, pendHot := false, ending := some .stopped }).setPaper
          (s.paper.stop .request)
      else s.setPrint { x with pendPaper := false, pendCommand := false, pendHot := false, ending := some .stopped } := by
  subst hx
  have hdrop : s.print.noPending.dropPaused = s.print.noPending := if_neg hp
  refine (if_neg (by rw [h]; decide)).trans ?_
  rw [hdrop]
  split
  next hst => exact (if_pos (.inl hst)).symm
  next hst => exact (if_pos (.inr hst)).symm
  all_goals
    next hst => exact (if_neg (by rw [hst]; decide)).symm

theorem stopPrint_paused (hx : s.print = x) (hp : x.st = .paused) (h : x.ending = none) : s.stopPrint = s.setPrint { x with
    pendPaper := false, pendCommand := false, pendHot := false, ending := some .stopped, owed := 0, interrupted := none
    slew := none, slewing := none, cut := true, headLine := if x.firing = true then x.headLine else none } := by
  subst hx
  have hdrop : s.print.noPending.dropPaused = _ := if_pos hp
  refine (if_neg (by rw [h]; decide)).trans ?_
  rw [hdrop]
  split
  next hst => exact absurd (hp.symm.trans hst) (by decide)
  next hst => exact absurd (hp.symm.trans hst) (by decide)
  all_goals rfl

/-! ### PAUSE PRINT (R75) -/

theorem pausePrint_ending (h : s.print.ending.isSome = true) : s.pausePrint = s := if_pos h

theorem pausePrint_item (hx : s.print = x) (h : x.ending = none) (hitem : x.itemInProgress.isSome = true) :
    s.pausePrint = s.setPrint { x with pendCommand := true } := by
  subst hx
  exact (if_neg (by rw [h]; decide)).trans (if_pos hitem)

/-- R73: a stream that pauses hands its STREAM cell. -/
theorem enterPause_eq (hx : s.print = x) (r : PrintReason) : s.enterPause r =
    ((s.setUrgent false).setPrint { x with st := .paused, pauseReason := some r }).handEvent .stream 0 .done
      [1, byte x.params.ring.val, 5, byte (printReasonCode r)] := by
  subst hx
  rfl

theorem pausePrint_idle (hx : s.print = x) (h : x.ending = none) (hitem : x.itemInProgress.isSome ≠ true) :
    s.pausePrint = s.enterPause .command := by
  subst hx
  exact (if_neg (by rw [h]; decide)).trans (if_neg hitem)

/-! ### RESUME PRINT (R76) -/

theorem resumePrint_ending (h : s.print.ending.isSome = true) : s.resumePrint = s := if_pos h

theorem resumeBlocked_iff : s.resumeBlocked = true ↔
    s.zone .paper = some .low ∨ s.zone .paper = some .unknown ∨ s.zone .cover = some .high := by
  simp [State.resumeBlocked, or_assoc]

/-- R91: a bounded forward move of the PAPER channel at rest. -/
theorem paperMove_eq (hrest : s.paper.moving = false) (n : Nat) : s.paperMove n = s.setPaper { s.paper with
    st := .move, requester := .print, direction := .forward, profile := s.print.params.profile, requested := some n
    remaining := some n, ramp := 0, taken := 0, stopCause := none, tag := 0
    timer := some ((s.profile s.print.params.profile).getD 0 0) } :=
  congrArg s.setPaper (Channel.start_of_atRest hrest ..)

/-- R76: an interrupted item that owes steps has its move begun. -/
theorem beginOwed_eq (hx : s.print = x) (hrest : s.paper.moving = false) (item : Item) : s.beginOwed item =
    if x.owed = 0 then s.completeItem item true
    else (s.setPrint { x with
      interrupted := none, headLine := x.headLine.map (fun h => { h with cycle := .advancing }) }).setPaper { s.paper with
        st := .move, requester := .print, direction := .forward, profile := x.params.profile, requested := some x.owed
        remaining := some x.owed, ramp := 0, taken := 0, stopCause := none, tag := 0
        timer := some ((s.profile x.params.profile).getD 0 0) } := by
  subst hx
  refine ite_congr rfl (fun _ => rfl) fun _ => paperMove_eq ?_ _
  exact hrest

theorem resumePrint_idle (hx : s.print = x) (h : x.ending = none) (hitem : x.interrupted = none) : s.resumePrint =
    if s.zone .headTemp = some .high then
      ((s.setUrgent false).setPrint { x with pauseReason := none, st := .hot }).handEvent .stream 0 .done
        [1, byte x.params.ring.val, 6, 0xFF]
    else if x.ready then s.setPrint { x with pauseReason := none, st := .printing }
    else (s.setUrgent false).setPrint { x with pauseReason := none, st := .waitLine } := by
  subst hx
  refine (if_neg (by rw [h]; decide)).trans ?_
  rw [hitem]
  refine ite_congr rfl (fun _ => rfl) fun _ => ?_
  have hready : ({ s.print with pauseReason := none } : Print).ready = s.print.ready := rfl
  unfold Print.restState
  cases s.print.ready <;> rfl

/-- R76: an interrupted item is taken up again. -/
theorem resumePrint_item (hx : s.print = x) (h : x.ending = none) {item : Item} (hitem : x.interrupted = some item) :
    s.resumePrint = if x.firing = true ∨ s.paper.moving = true then
        (if item = .line then s else s.setUrgent false).setPrint { x with pauseReason := none, st := itemState item }
      else ((if item = .line then s else s.setUrgent false).setPrint
        { x with pauseReason := none, st := itemState item }).beginOwed item := by
  subst hx
  have henter : (s.setPrint { s.print with pauseReason := none }).enterPrint (itemState item)
      = (if item = .line then s else s.setUrgent false).setPrint { s.print with pauseReason := none, st := itemState item } := by
    cases item <;> rfl
  refine (if_neg (by rw [h]; decide)).trans ?_
  split
  next i hi =>
    obtain rfl : item = i := Option.some.inj (hitem.symm.trans hi)
    dsimp only
    rw [henter]
    cases item <;> rfl
  next hnone => exact absurd (hitem.symm.trans hnone) (Option.some_ne_none item)

/-! ### Zones (R73, R74) -/

theorem printPaperLow_eq (hx : s.print = x) : s.printPaperLow =
    if x.ending.isSome ∨ x.st = .off ∨ x.st = .paused then s
    else if (x.st = .printing ∧ x.headLine.isSome = true) ∨ x.st = .slewing ∨ x.st = .trailingFeed then
      s.setPrint { x with pendPaper := true }
    else s.enterPause .paper := by
  subst hx
  unfold State.printPaperLow Print.itemInProgress
  by_cases hend : s.print.ending.isSome = true
  · exact (if_pos hend).trans (if_pos (.inl hend)).symm
  refine (if_neg hend).trans ?_
  cases hst : s.print.st
  case printing => cases hline : s.print.headLine <;> simp [hend]
  all_goals simp [hend]

theorem printHeadHot_eq (hx : s.print = x) : s.printHeadHot =
    if x.ending.isSome ∨ x.st = .off ∨ x.st = .paused ∨ x.st = .hot then s
    else if (x.st = .printing ∧ x.headLine.isSome = true) ∨ x.st = .slewing ∨ x.st = .trailingFeed then
      s.setPrint { x with pendHot := true }
    else s.enterHot := by
  subst hx
  unfold State.printHeadHot Print.itemInProgress
  by_cases hend : s.print.ending.isSome = true
  · exact (if_pos hend).trans (if_pos (.inl hend)).symm
  refine (if_neg hend).trans ?_
  cases hst : s.print.st
  case printing => cases hline : s.print.headLine <;> simp [hend]
  all_goals simp [hend]

theorem printHeadCool_eq (hx : s.print = x) : s.printHeadCool =
    if x.st = .hot ∧ x.ending = none then
      ((if x.ready then s else s.setUrgent false).setPrint { x with
        pendHot := false, st := if x.ready then .printing else .waitLine }).printStream
    else s.setPrint { x with pendHot := false } := by
  subst hx
  refine ite_congr rfl (fun _ => congrArg State.printStream ?_) fun _ => rfl
  refine (enterPrint_restState (s := s.setPrint { s.print with pendHot := false })).trans ?_
  have hready : (s.setPrint { s.print with pendHot := false }).print.ready = s.print.ready := rfl
  rw [hready]
  cases s.print.ready <;> rfl

/-- R73: the COVER zone becomes HIGH while the stream is on. -/
theorem printCoverHigh_off (h : s.print.st = .off ∨ s.print.st = .paused) : s.printCoverHigh = s := by
  unfold State.printCoverHigh
  dsimp only
  rcases h with h | h <;> rw [h]

theorem printCoverHigh_ending (h : ¬(s.print.st = .off ∨ s.print.st = .paused)) (hend : s.print.ending.isSome = true) :
    s.printCoverHigh = match s.print.headLine with
      | none => s
      | some h => s.setPrint (match h.cycle with
        | .firing => { s.print with cut := true }
        | .gap => { s.print with headLine := none }
        | .waiting => { s.print with headLine := none }
        | .advancing => { s.print with interrupted := none }) := by
  unfold State.printCoverHigh
  dsimp only
  rw [if_pos hend]
  split
  next hst => exact absurd (.inl hst) h
  next hst => exact absurd (.inr hst) h
  all_goals
    cases s.print.headLine with
    | none => rfl
    | some head => cases hcycle : head.cycle <;> simp [hcycle]

theorem printCoverHigh_pauses (h : ¬(s.print.st = .off ∨ s.print.st = .paused)) (hend : ¬s.print.ending.isSome = true) :
    s.printCoverHigh = (s.setPrint s.print.interrupt).enterPause .cover := by
  unfold State.printCoverHigh
  dsimp only
  rw [if_neg hend]
  split
  next hst => exact absurd (.inl hst) h
  next hst => exact absurd (.inr hst) h
  all_goals rfl

/-- R73: the item a COVER opening interrupts. -/
theorem interrupt_paused (h : ¬(x.st = .off ∨ x.st = .paused)) : { x.interrupt with st := .paused, pauseReason := some .cover } =
    match x.st, x.headLine with
    | .printing, some h => (match h.cycle with
      | .firing => { x with st := .paused, pauseReason := some .cover, interrupted := some .line, owed := x.params.k }
      | .gap =>
        { x with st := .paused, pauseReason := some .cover, interrupted := some .line, owed := x.params.k
                 headLine := some { h with cycle := .waiting } }
      | _ => { x with st := .paused, pauseReason := some .cover, interrupted := some .line })
    | .slewing, _ => { x with st := .paused, pauseReason := some .cover, interrupted := some .slew }
    | .trailingFeed, _ => { x with st := .paused, pauseReason := some .cover, interrupted := some .feed }
    | _, _ => { x with st := .paused, pauseReason := some .cover } := by
  unfold Print.interrupt Print.itemInProgress
  cases hst : x.st
  case off => exact absurd (.inl hst) h
  case paused => exact absurd (.inr hst) h
  case printing =>
    cases hline : x.headLine with
    | none => simp [hline]
    | some head => cases hcycle : head.cycle <;> simp [hcycle]
  all_goals cases hline : x.headLine <;> simp [hline]

/-! ### The rows -/

section
variable {tag : Byte}

theorem stopPrint_given_off (h : s.print.st = .off) :
    exec (.stopPrint tag) (s.given (.stopPrint tag)) = .next (s.handDone tag 6 .badState) := by
  simp only [exec, execStopPrint, claimCommand_given]
  exact if_neg (by simp [Print.active, h])

theorem stopPrint_given (h : s.print.st ≠ .off) :
    exec (.stopPrint tag) (s.given (.stopPrint tag)) = .next (s.handDone tag 6 .done).stopPrint := by
  simp only [exec, execStopPrint, claimCommand_given]
  exact if_pos (by simp [Print.active, h])

theorem pausePrint_given_refused (h : s.print.st = .off ∨ s.print.st = .paused) :
    exec (.pausePrint tag) (s.given (.pausePrint tag)) = .next (s.handDone tag 7 .badState) := by
  simp only [exec, execPausePrint, claimCommand_given]
  exact if_pos h

theorem pausePrint_given (hoff : s.print.st ≠ .off) (hp : s.print.st ≠ .paused) :
    exec (.pausePrint tag) (s.given (.pausePrint tag)) = .next (s.handDone tag 7 .done).pausePrint := by
  simp only [exec, execPausePrint, claimCommand_given]
  exact if_neg (not_or.mpr ⟨hoff, hp⟩)

theorem resumePrint_given_refused (h : s.print.st ≠ .paused) :
    exec (.resumePrint tag) (s.given (.resumePrint tag)) = .next (s.handDone tag 8 .badState) := by
  simp only [exec, execResumePrint, claimCommand_given]
  exact if_pos h

theorem resumePrint_given_blocked (h : s.print.st = .paused) (hb : s.resumeBlocked = true) :
    exec (.resumePrint tag) (s.given (.resumePrint tag)) = .next (s.handDone tag 8 .notReady) := by
  simp only [exec, execResumePrint, claimCommand_given]
  exact (if_neg (not_not_intro h)).trans (if_pos hb)

theorem resumePrint_given (h : s.print.st = .paused) (hb : ¬s.resumeBlocked = true) :
    exec (.resumePrint tag) (s.given (.resumePrint tag)) = .next (s.handDone tag 8 .done).resumePrint := by
  simp only [exec, execResumePrint, claimCommand_given]
  exact (if_neg (not_not_intro h)).trans (if_neg hb)

end

end

end Sys2Proof.Machine

namespace Sys2Proof.Proofs

open Sys2Proof Sys2Proof.Machine

/-- Settles O39: the commands and zones of a print stream, each by the state it finds. -/
theorem printCommandRows : Obligations.PrintCommandRows := by
  intro s tag x done stop
  have hprint : ∀ code, (done code).print = x := fun code => State.handDone_print ..
  have hpaper : ∀ code, (done code).paper = s.paper := fun code => State.handDone_paper ..
  have hzone : ∀ code role, (done code).zone role = s.zone role := fun code role => by simp [State.zone, done]
  have hprofile : ∀ code p, (done code).profile p = s.profile p := fun code p => by
    have htables : (done code).tables = s.tables := congrArg Ground.tables (State.handDone_ground ..)
    simp [State.profile, htables]
  have hstop : ∀ c cause, stop c cause = c.stop cause := fun c cause => (Channel.stop_eq c cause).symm
  refine ⟨stopPrint_given_off, fun hon hend => ?_, fun hon hp hend => ?_, fun hp hend => ?_, pausePrint_given_refused,
    fun hon hp hend => ⟨fun hitem => ?_, fun hitem => ?_⟩, fun hon hp hend => ?_, resumePrint_given_refused,
    fun hp => ⟨fun hb => resumePrint_given_blocked hp (resumeBlocked_iff.mpr hb), fun hb hend hitem => ?_, fun hb hend => ?_,
      fun item hb hend hitem => ?_⟩, ?_⟩
  · rw [stopPrint_given hon, stopPrint_ending (by rw [hprint]; exact hend)]
  · rw [stopPrint_given hon, stopPrint_running (hprint 6) hp hend, hpaper, hstop]
  · rw [stopPrint_given (by rw [hp]; decide), stopPrint_paused (hprint 6) hp hend]
  · rw [pausePrint_given hon hp, pausePrint_item (hprint 7) hend ((itemInProgress_isSome x).mpr hitem)]
  · rw [pausePrint_given hon hp, pausePrint_idle (hprint 7) hend (mt (itemInProgress_isSome x).mp hitem), enterPause_eq (hprint 7)]
    rfl
  · rw [pausePrint_given hon hp, pausePrint_ending (by rw [hprint]; exact hend)]
  · intro low
    rw [resumePrint_given hp (mt resumeBlocked_iff.mp hb), resumePrint_idle (hprint 8) hend hitem, hzone]
    rfl
  · rw [resumePrint_given hp (mt resumeBlocked_iff.mp hb), resumePrint_ending (by rw [hprint]; exact hend)]
  · intro st y t
    have ht : (if item = .line then done 8 else (done 8).setUrgent false).setPrint
        { x with pauseReason := none, st := itemState item } = t := by cases item <;> rfl
    have hy : t.print = y := by cases item <;> rfl
    have htpaper : t.paper = s.paper := by cases item <;> exact hpaper 8
    have htprofile : ∀ p, t.profile p = s.profile p := fun p => by cases item <;> exact hprofile 8 p
    rw [resumePrint_given hp (mt resumeBlocked_iff.mp hb), resumePrint_item (hprint 8) hend hitem, hpaper, ht]
    refine congrArg Host.Outcome.next (ite_congr rfl (fun _ => rfl) fun hrest => ?_)
    rw [not_or] at hrest
    rw [beginOwed_eq hy (by rw [htpaper]; exact Bool.eq_false_iff.mpr hrest.2), htpaper, htprofile]
  · intro inItem low cell rest
    refine ⟨?_, ?_, fun z hz => ?_, ?_, ?_⟩
    · exact printPaperLow_eq rfl
    · exact printHeadHot_eq rfl
    · have hcool : s.zoneToBlocks .headTemp z = s.printHeadCool := by
        cases z
        case high => exact absurd rfl hz
        all_goals rfl
      rw [hcool]
      exact printHeadCool_eq rfl
    · rw [hstop, hstop]
      rfl
    · by_cases hoff : x.st = .off ∨ x.st = .paused
      · rw [if_pos hoff]
        exact printCoverHigh_off hoff
      rw [if_neg hoff]
      by_cases hend : x.ending.isSome = true
      · rw [if_pos hend]
        exact printCoverHigh_ending hoff hend
      · rw [if_neg hend]
        refine (printCoverHigh_pauses hoff hend).trans ?_
        have hpause : (s.setPrint x.interrupt).enterPause .cover
            = cell (low.setPrint { x.interrupt with st := .paused, pauseReason := some .cover }) := rfl
        exact hpause.trans (congrArg (fun y => cell (low.setPrint y)) (interrupt_paused hoff))

end Sys2Proof.Proofs
end

