-- ==== Sys2Proof/Proofs/LineCycle.lean ====
section
/-! The line cycle (R65 to R68), the page's end (R71, R72), slews (R70) and the end of the stream (R77). -/

namespace Sys2Proof.Machine

open Sys2Proof

section
variable {s : State} {x : Print}

/-! ### The page's cell (R72) -/

theorem pagePrinted_eq (hx : s.print = x) (m : Bool) : s.pagePrinted m =
    (s.handEvent .pagePrinted 0 (if m then .done else .failed)
      ([byte x.params.ring.val, byte ((if x.marginLoss then 1 else 0) + if m then 2 else 0), 0]
        ++ twoBytes x.linesPrinted ++ twoBytes x.linesSlewed ++ [byte x.underruns])).setPrint { x with
      linesPrinted := 0, linesSlewed := 0, underruns := 0
      marginLoss := pageLoss (x.headLine.isSome || x.slewing.isSome) x.unlatched } := by
  subst hx
  unfold State.pagePrinted
  dsimp only
  rw [State.handEvent_print]
  rfl

/-! ### What follows an item (R68, R73) -/

/-- R73: a pending condition takes effect, PAPER before COMMAND before HOT. -/
theorem takePending_eq (go : State → State) : s.takePending go =
    if s.print.pendPaper then ((s.setUrgent false).setPrint { s.print with
      pendPaper := false, pendCommand := false, pendHot := false, st := .paused, pauseReason := some .paper }).printStream
    else if s.print.pendCommand then ((s.setUrgent false).setPrint { s.print with
      pendPaper := false, pendCommand := false, pendHot := false, st := .paused, pauseReason := some .command }).printStream
    else if s.print.pendHot then ((s.setUrgent false).setPrint { s.print with
      pendPaper := false, pendCommand := false, pendHot := false, st := .hot }).printStream
    else go (s.setPrint { s.print with pendPaper := false, pendCommand := false, pendHot := false }) := rfl

/-- R68: what a stream with nothing pending goes on with. -/
theorem printGoOn_eq (resumed : Bool) : s.printGoOn resumed =
    if s.print.headSt ≠ .empty ∨ s.print.nextStaged.isSome = true ∨ s.print.slew.isSome = true then
      s.setPrint { s.print with st := .printing }
    else if s.print.fetch ≠ .idle then (s.setPrint { s.print with st := .printing }).setPmc { s.pmc with urgent := true }
    else if 0 < s.unfetched then s.setPrint { s.print with st := .printing }
    else (s.setUrgent false).setPrint { s.print with
      st := .waitLine, underruns := if resumed then s.print.underruns else min 255 (s.print.underruns + 1) } := by
  unfold State.printGoOn
  dsimp only
  refine ite_congr rfl (fun _ => rfl) fun _ => ite_congr rfl (fun _ => rfl) fun _ => ite_congr rfl (fun _ => rfl) fun _ => ?_
  cases resumed <;> rfl

/-- R69: a stream in WAIT_LINE goes on where a line or a slew is ready. -/
theorem waitLine_wakes (h : s.print.ending = none) : (s.enterPrint .waitLine).printWake = (s.setUrgent false).setPrint { s.print with
    st := if s.print.ready then .printing else .waitLine } := by
  have hready : (s.enterPrint .waitLine).print.ready = s.print.ready := rfl
  unfold State.printWake
  rw [hready]
  by_cases hr : s.print.ready = true
  · rw [if_pos hr]
    exact if_pos ⟨rfl, h, hr⟩
  · rw [if_neg hr]
    exact if_neg fun h' => hr h'.2.2

theorem pagePrinted_ending (m : Bool) : (s.pagePrinted m).print.ending = s.print.ending := by
  rw [pagePrinted_eq rfl]
  rfl

/-- R71: the end of a trailing feed in a stream that goes on. -/
theorem feedEnd_running (h : s.print.ending = none) : s.feedEnd = (s.pagePrinted true).takePending (fun u =>
    (u.setUrgent false).setPrint { u.print with st := if u.print.ready then .printing else .waitLine }) := by
  have hending : (s.pagePrinted true).print.ending = none := (pagePrinted_ending true).trans h
  refine (if_neg (by rw [hending]; decide)).trans ?_
  rw [takePending_eq, takePending_eq]
  refine ite_congr rfl (fun _ => rfl) fun _ => ite_congr rfl (fun _ => rfl) fun _ => ite_congr rfl (fun _ => rfl) fun _ => ?_
  exact waitLine_wakes (s := (s.pagePrinted true).setPrint _) hending

theorem feedEnd_ending (h : s.print.ending.isSome = true) : s.feedEnd = s.pagePrinted true :=
  if_pos (by rw [pagePrinted_ending]; exact h)

/-- R71: a page's end in a stream that goes on: the trailing feed first, where one is set. -/
theorem pageEnds_running (h : s.print.ending = none) : s.pageEnds =
    if 0 < s.print.params.trailing then
      ((s.setUrgent false).setPrint { s.print with st := .trailingFeed }).paperMove (s.print.params.trailing * s.print.params.k)
    else s.feedEnd := if_neg (by rw [h]; decide)

theorem pageEnds_ending (h : s.print.ending.isSome = true) : s.pageEnds = s.pagePrinted true := if_pos h

theorem itemFollow_running (h : s.print.ending = none) (resumed : Bool) : s.itemFollow resumed = s.takePending (·.printGoOn resumed) :=
  if_neg (by rw [h]; decide)

theorem itemFollow_ending (h : s.print.ending.isSome = true) (resumed : Bool) : s.itemFollow resumed = s := if_pos h

/-! ### The end of a line and of a slew (R67, R70) -/

theorem scanRestart_setPrint (z : Print) : (s.setPrint z).scanRestart = s.scanRestart.setPrint z := by
  have hfree : ∀ r, (s.setPrint z).ringFree r = s.ringFree r := fun _ => rfl
  unfold State.scanRestart
  simp only [State.setPrint_scan, State.setPrint_doc, hfree]
  split_ifs <;> rfl

theorem releaseTake_setPrint (z : Print) (r : RingId) (n : Nat) : (s.setPrint z).releaseTake r n = (s.releaseTake r n).setPrint z := by
  have hring : (s.setPrint z).ring r = s.ring r := rfl
  unfold State.releaseTake
  rw [hring]
  cases (s.ring r).desc with
  | none => rfl
  | some d =>
    dsimp only
    split_ifs <;> rfl

/-- R13: the release of slots does not look at the print stream. -/
theorem releaseSlots_setPrint (z : Print) (r : RingId) (n : Nat) :
    (s.setPrint z).releaseSlots r n = (s.releaseSlots r n).setPrint z := by
  unfold State.releaseSlots State.scanFreed
  rw [releaseTake_setPrint, scanRestart_setPrint]
  simp only [State.setPrint_scan]
  by_cases h : s.scan.params.ring = r <;> simp [h]

/-- R67, R91: the PAPER channel as a bounded forward move of the stream begins. -/
def State.advance (s : State) (steps : Nat) : Channel := { s.paper with
  st := .move, requester := .print, direction := .forward, profile := s.print.params.profile, requested := some steps
  remaining := some steps, ramp := 0, taken := 0, stopCause := none, tag := 0
  timer := some ((s.profile s.print.params.profile).getD 0 0) }

/-- R91: a move of a state that agrees with another on the channel, the parameters and the tables. -/
theorem paperMove_advance {u : State} (hrest : s.paper.moving = false) (hpaper : u.paper = s.paper)
    (hparams : u.print.params = s.print.params) (hground : u.ground = s.ground) (n : Nat) :
    u.paperMove n = u.setPaper (s.advance n) := by
  have hprofile : u.profile s.print.params.profile = s.profile s.print.params.profile :=
    congrArg (fun g : Ground => g.tables.profiles.getD s.print.params.profile.val []) hground
  rw [paperMove_eq (by rw [hpaper]; exact hrest), hpaper, hparams, hprofile]
  rfl

/-- R67: a latched line is released and counted. -/
def State.lineReleased (s : State) (x : Print) (h : HeadLine) : State := (s.releaseSlots s.print.params.ring 1).setPrint { x with
  linesPrinted := min 16383 (x.linesPrinted + 1), prevDark := decide (h.plan = []), headLine := none }

/-- R70: the first lines of a slew are released and counted. -/
def State.slewReleased (s : State) (x : Print) (n : Nat) : State := (s.releaseSlots s.print.params.ring n).setPrint { x with
  linesSlewed := min 16383 (x.linesSlewed + n), prevDark := true, slewing := none }

section
variable (z : Print) (h : HeadLine) (n : Nat)

theorem lineReleased_ending : (s.lineReleased z h).print.ending = z.ending := rfl
theorem lineReleased_params : (s.lineReleased z h).print.params = z.params := rfl
theorem lineReleased_paper : (s.lineReleased z h).paper = s.paper := by simp [State.lineReleased]
theorem lineReleased_ground : (s.lineReleased z h).ground = s.ground := by simp [State.lineReleased]
theorem slewReleased_ending : (s.slewReleased z n).print.ending = z.ending := rfl
theorem slewReleased_params : (s.slewReleased z n).print.params = z.params := rfl
theorem slewReleased_paper : (s.slewReleased z n).paper = s.paper := by simp [State.slewReleased]
theorem slewReleased_ground : (s.slewReleased z n).ground = s.ground := by simp [State.slewReleased]

end

theorem lineDone_eq {z : Print} (hring : z.params.ring = s.print.params.ring) (h : HeadLine) (resumed : Bool) :
    (s.setPrint z).lineDone h resumed = if h.line.tag.endOfPage then (s.lineReleased z h).pageEnds
      else (s.lineReleased z h).itemFollow resumed := by
  have hdark : (h.plan == []) = decide (h.plan = []) := by cases h.plan <;> rfl
  have hreleased : ∀ u : State, u = (s.releaseSlots s.print.params.ring 1).setPrint z →
      u.setPrint { u.print with linesPrinted := satAdd 16383 u.print.linesPrinted 1, prevDark := h.plan == [], headLine := none }
        = s.lineReleased z h := by
    rintro u rfl
    rw [hdark]
    rfl
  unfold State.lineDone
  dsimp only
  rw [hreleased _ (by rw [State.setPrint_print, hring, releaseSlots_setPrint])]

theorem slewEnd_eq {z : Print} (hring : z.params.ring = s.print.params.ring) (w : Slew) (n : Nat) (resumed : Bool) :
    (s.setPrint z).slewEnd w n resumed = if n = w.lines ∧ w.endsPage = true then (s.slewReleased z n).pageEnds
      else (s.slewReleased z n).itemFollow resumed := by
  have hreleased : ∀ u : State, u = (s.releaseSlots s.print.params.ring n).setPrint z →
      u.setPrint { u.print with linesSlewed := satAdd 16383 u.print.linesSlewed n, prevDark := true, slewing := none }
        = s.slewReleased z n := by
    rintro u rfl
    rfl
  unfold State.slewEnd
  dsimp only
  rw [hreleased _ (by rw [State.setPrint_print, hring, releaseSlots_setPrint])]

/-! ### The end of a PAPER move (R67, R70, R71, R76, R77) -/

/-- R76: the record of an item that completes. -/
def Print.itemDone (x : Print) (hot : Bool) : Print := { x with owed := 0, interrupted := none, pendHot := hot }

theorem completeItem_line {h : HeadLine} (hline : s.print.headLine = some h) (resumed : Bool) :
    s.completeItem .line resumed = if h.line.tag.endOfPage then (s.lineReleased (s.print.itemDone (s.hotAfter resumed)) h).pageEnds
      else (s.lineReleased (s.print.itemDone (s.hotAfter resumed)) h).itemFollow resumed := by
  refine Eq.trans ?_ (lineDone_eq (z := s.print.itemDone (s.hotAfter resumed)) rfl h resumed)
  unfold State.completeItem Print.itemDone
  dsimp only
  generalize hs : State.setPrint s _ = u
  have hu : u.print.headLine = some h := by rw [← hs]; exact hline
  rw [hu]

theorem completeItem_slew {w : Slew} (hslew : s.print.slewing = some w) (resumed : Bool) :
    s.completeItem .slew resumed = if w.endsPage = true then
        (s.slewReleased (s.print.itemDone (s.hotAfter resumed)) w.lines).pageEnds
      else (s.slewReleased (s.print.itemDone (s.hotAfter resumed)) w.lines).itemFollow resumed := by
  refine Eq.trans ?_ ((slewEnd_eq (z := s.print.itemDone (s.hotAfter resumed)) rfl w w.lines resumed).trans
    (if_congr (and_iff_right rfl) rfl rfl))
  unfold State.completeItem Print.itemDone
  dsimp only
  generalize hs : State.setPrint s _ = u
  have hu : u.print.slewing = some w := by rw [← hs]; exact hslew
  rw [hu]

theorem completeItem_feed (resumed : Bool) :
    s.completeItem .feed resumed = (s.setPrint (s.print.itemDone (s.hotAfter resumed))).feedEnd := rfl

theorem hotAfter_running (h : s.print.ending = none) (resumed : Bool) :
    s.hotAfter resumed = (s.print.pendHot || (resumed && decide (s.zone .headTemp = some .high))) := by
  unfold State.hotAfter
  rw [h]
  by_cases hz : s.zone .headTemp = some .high <;> simp [hz]

theorem hotAfter_item : s.hotAfter false = s.print.pendHot := by
  unfold State.hotAfter
  simp

theorem movingItem_of_line {h : HeadLine} (hline : x.headLine = some h) : x.movingItem = some .line :=
  if_pos (by rw [hline]; rfl)

theorem movingItem_of_slew {w : Slew} (hline : x.headLine = none) (hslew : x.slewing = some w) : x.movingItem = some .slew :=
  (if_neg (by rw [hline]; decide)).trans (if_pos (by rw [hslew]; rfl))

theorem movingItem_of_feed (hline : x.headLine = none) (hslew : x.slewing = none)
    (hfeed : x.st = .trailingFeed ∨ x.interrupted = some .feed) : x.movingItem = some .feed :=
  (if_neg (by rw [hline]; decide)).trans ((if_neg (by rw [hslew]; decide)).trans (if_pos hfeed))

theorem movingItem_isSome (h : x.headLine.isSome = true ∨ x.slewing.isSome = true ∨ x.interrupted = some .feed) :
    ∃ item, x.movingItem = some item := by
  unfold Print.movingItem
  split_ifs with hline hslew hfeed
  · exact ⟨_, rfl⟩
  · exact ⟨_, rfl⟩
  · exact ⟨_, rfl⟩
  · exact absurd (h.resolve_left hline |>.resolve_left hslew) fun hf => hfeed (.inr hf)

section
variable {item : Item}

theorem printMoveEnd_of (hitem : s.print.movingItem = some item) : s.printMoveEnd =
    if s.print.ending.isSome then s.endingMoveEnd item (s.paper.requested.getD 0 - s.paper.taken)
    else if s.print.st = .paused then s.setPrint { s.print with owed := s.paper.requested.getD 0 - s.paper.taken }
    else if s.print.interrupted.isSome then
      (s.setPrint { s.print with owed := s.paper.requested.getD 0 - s.paper.taken }).beginOwed item
    else if s.paper.requested.getD 0 - s.paper.taken = 0 then s.completeItem item (decide (0 < s.print.owed))
    else s := by
  unfold State.printMoveEnd
  dsimp only
  rw [hitem]

end

/-! ### The move's end in a stream that ends (R77) -/

theorem endingMoveEnd_line (n : Nat) : s.endingMoveEnd .line n =
    if n = 0 ∧ s.print.cut = false then s.completeItem .line false
    else if s.print.interrupted = some .line ∧ s.print.st ≠ .paused ∧ s.print.cut = false then
      (s.setPrint { s.print with owed := n }).beginOwed .line
    else s.setPrint { s.print with owed := 0, interrupted := none, headLine := none } := by
  have hends : s.endItem .line n = s.setPrint { s.print with owed := 0, interrupted := none, headLine := none } := by
    unfold State.endItem
    cases s.print.slewing <;> rfl
  unfold State.endingMoveEnd
  rw [hends]
  exact if_congr (by simp) rfl (if_congr (by simp) rfl rfl)

theorem endingMoveEnd_slew {w : Slew} (hslew : s.print.slewing = some w) (n : Nat) : s.endingMoveEnd .slew n =
    if n = 0 then s.completeItem .slew false
    else (s.setPrint (s.print.itemDone s.print.pendHot)).slewEnd w ((w.lines * s.print.params.k - n) / s.print.params.k) false := by
  have hends : s.endItem .slew n = (s.setPrint (s.print.itemDone s.print.pendHot)).slewEnd w
      ((w.lines * s.print.params.k - n) / s.print.params.k) false := by
    unfold State.endItem
    dsimp only
    generalize hs : State.setPrint s _ = u
    rw [hslew]
    subst hs
    rfl
  unfold State.endingMoveEnd
  rw [hends]
  refine if_congr (by simp) rfl (if_neg ?_)
  simp

theorem endingMoveEnd_feed (hend : s.print.ending.isSome = true) (n : Nat) :
    s.endingMoveEnd .feed n = (s.setPrint { s.print with owed := 0, interrupted := none }).pagePrinted true := by
  have hcompletes : s.completeItem .feed false = (s.setPrint { s.print with owed := 0, interrupted := none }).pagePrinted true := by
    rw [completeItem_feed, hotAfter_item]
    exact feedEnd_ending (s := s.setPrint (s.print.itemDone s.print.pendHot)) hend
  have hends : s.endItem .feed n = (s.setPrint { s.print with owed := 0, interrupted := none }).pagePrinted true := by
    have hfeed : s.endItem .feed n = (s.setPrint { s.print with owed := 0, interrupted := none }).feedEnd := by
      unfold State.endItem
      cases s.print.slewing <;> rfl
    rw [hfeed]
    exact feedEnd_ending (s := s.setPrint { s.print with owed := 0, interrupted := none }) hend
  unfold State.endingMoveEnd
  rw [hcompletes, hends]
  refine (ite_congr rfl (fun _ => rfl) fun _ => if_neg ?_).trans (ite_self _)
  simp

/-! ### The phases of a line (R66, R67) -/

theorem phaseEnd_of {h : HeadLine} (hline : s.print.headLine = some h) (hfiring : h.cycle = .firing) :
    exec .phaseEnd s = .next ((s.setPrint { s.print with cool := 0 }).afterPhase { h with ended := h.ended + 1 }) := by
  show execPhaseEnd s = _
  unfold execPhaseEnd
  rw [hline]
  exact if_pos hfiring

theorem nextPhaseStart_of {h : HeadLine} (hline : s.print.headLine = some h) (hgap : h.cycle = .gap) :
    exec .nextPhaseStart s = .next (s.setPrint { s.print with headLine := some { h with cycle := .firing } }) := by
  show execNextPhaseStart s = _
  unfold execNextPhaseStart
  rw [hline]
  exact if_pos hgap

theorem requestAdvance_eq (hrest : s.paper.moving = false) (h : HeadLine) : s.requestAdvance h =
    (s.setPrint { s.print with headLine := some { h with cycle := .advancing } }).setPaper (s.advance s.print.params.k) :=
  paperMove_advance (u := s.setPrint { s.print with headLine := some { h with cycle := .advancing } }) hrest rfl rfl rfl _

section
variable {h : HeadLine}

theorem phaseEnd_cut (hline : s.print.headLine = some h) (hfiring : h.cycle = .firing) (hcut : s.print.cut = true) :
    exec .phaseEnd s = .next (s.setPrint { s.print with cool := 0, headLine := none }) := by
  rw [phaseEnd_of hline hfiring]
  exact congrArg Host.Outcome.next (if_pos hcut)

theorem phaseEnd_paused (hline : s.print.headLine = some h) (hfiring : h.cycle = .firing) (hcut : s.print.cut = false)
    (hitem : s.print.interrupted = some .line) (hp : s.print.st = .paused) : exec .phaseEnd s = .next (s.setPrint { s.print with
      cool := 0, headLine := some { h with ended := h.ended + 1, cycle := .waiting } }) := by
  rw [phaseEnd_of hline hfiring]
  exact congrArg Host.Outcome.next ((if_neg (Bool.eq_false_iff.mp hcut)).trans ((if_pos hitem).trans (if_pos hp)))

theorem phaseEnd_resumed (hline : s.print.headLine = some h) (hfiring : h.cycle = .firing) (hcut : s.print.cut = false)
    (hitem : s.print.interrupted = some .line) (hp : s.print.st ≠ .paused) (howed : 0 < s.print.owed)
    (hrest : s.paper.moving = false) : exec .phaseEnd s = .next ((s.setPrint { s.print with
      cool := 0, interrupted := none, headLine := some { h with ended := h.ended + 1, cycle := .advancing } }).setPaper
      (s.advance s.print.owed)) := by
  rw [phaseEnd_of hline hfiring]
  refine congrArg Host.Outcome.next ((if_neg (Bool.eq_false_iff.mp hcut)).trans ((if_pos hitem).trans ((if_neg hp).trans ?_)))
  refine (beginOwed_eq rfl ?_ _).trans ?_
  · exact hrest
  · exact if_neg howed.ne'

theorem phaseEnd_gap (hline : s.print.headLine = some h) (hfiring : h.cycle = .firing) (hcut : s.print.cut = false)
    (hitem : s.print.interrupted ≠ some .line) (hmore : h.ended + 1 < h.plan.length) :
    exec .phaseEnd s = .next (s.setPrint { s.print with
      cool := 0, headLine := some { h with ended := h.ended + 1, cycle := .gap } }) := by
  rw [phaseEnd_of hline hfiring]
  exact congrArg Host.Outcome.next ((if_neg (Bool.eq_false_iff.mp hcut)).trans ((if_neg hitem).trans (if_pos hmore)))

theorem phaseEnd_last (hline : s.print.headLine = some h) (hfiring : h.cycle = .firing) (hcut : s.print.cut = false)
    (hitem : s.print.interrupted ≠ some .line) (hlast : h.plan.length ≤ h.ended + 1) (hrest : s.paper.moving = false) :
    exec .phaseEnd s = .next ((s.setPrint { s.print with
      cool := 0, headLine := some { h with ended := h.ended + 1, cycle := .advancing } }).setPaper
      (s.advance s.print.params.k)) := by
  rw [phaseEnd_of hline hfiring]
  refine congrArg Host.Outcome.next ((if_neg (Bool.eq_false_iff.mp hcut)).trans ((if_neg hitem).trans
    ((if_neg (Nat.not_lt_of_le hlast)).trans ?_)))
  exact requestAdvance_eq (s := s.setPrint { s.print with cool := 0 }) hrest _

end

/-- R65: the register's line as the head line. -/
def State.latched (s : State) (table : Heat) : HeadLine where
  line := s.print.headRec
  plan := strobePlan s.print.params.budget s.print.headRec.blocks
  pulse := heatPulse table s.heatBand (boostHolds table (s.print.prevDark && s.print.pageBegun) s.print.cool)
  ended := 0
  cycle := if strobePlan s.print.params.budget s.print.headRec.blocks = [] then .advancing else .firing

/-- R62, R64, R65: a latch, and the advance of a line with no phase. -/
theorem latch_eq {table : Heat} (hheat : s.tables.heat = some table) (hrest : s.paper.moving = false) :
    s.latch = (s.setPrint { s.print with
      headSt := .empty, headRec := {}, headLine := some (s.latched table), prevDark := s.print.prevDark && s.print.pageBegun
      marginLoss := s.print.marginLoss || s.print.headRec.loss }).setPaper
      (if strobePlan s.print.params.budget s.print.headRec.blocks = [] then s.advance s.print.params.k else s.paper) := by
  unfold State.latch State.latched
  rw [hheat]
  by_cases hplan : strobePlan s.print.params.budget s.print.headRec.blocks = []
  · refine (if_pos hplan).trans ((requestAdvance_eq ?_ _).trans ?_)
    · exact hrest
    · rw [if_pos hplan, if_pos hplan]
      rfl
  · refine (if_neg hplan).trans ?_
    rw [if_neg hplan, if_neg hplan]
    rfl

/-- R65: a latch where all it waits for holds. -/
theorem lineLatch_of (elapsed : Half) (hfree : s.wordWaits .print = false) (hst : s.print.st = .printing) (hend : s.print.ending = none)
    (hloaded : s.print.headSt = .loaded) (hline : s.print.headLine = none) (hrest : s.paper.moving = false) (howed : s.print.owed = 0)
    (hslew : s.print.slewing = none) (hzone : s.zone .headTemp ≠ some .unknown) :
    exec (.lineLatch elapsed) s = .next (((s.setPrint { s.print with
      cool := min 65535 (s.print.cool + elapsed.toNat) }).closeUnterminated s.print.headRec.tag.pageStart).latch) := by
  refine if_pos ?_
  simp [State.mayLatch, Channel.atRest, hst, hend, hloaded, hline, hrest, howed, hslew, hzone, hfree]

theorem pageBegun_eq (x : Print) : x.pageBegun = decide (x.linesPrinted ≠ 0 ∨ x.linesSlewed ≠ 0) := by
  unfold Print.pageBegun
  by_cases hp : x.linesPrinted = 0 <;> by_cases hs : x.linesSlewed = 0 <;> simp [hp, hs]

/-- R71: a page start that finds the page begun closes the earlier page. -/
theorem closeUnterminated_eq (b : Bool) : s.closeUnterminated b =
    if b = true ∧ (s.print.linesPrinted ≠ 0 ∨ s.print.linesSlewed ≠ 0) then s.pagePrinted false else s := by
  unfold State.closeUnterminated
  rw [pageBegun_eq]
  exact if_congr (and_congr_right fun _ => decide_eq_true_iff) rfl rfl

theorem darkBefore_eq (x : Print) :
    (x.prevDark && x.pageBegun) = decide (x.prevDark = true ∧ ¬(x.linesPrinted = 0 ∧ x.linesSlewed = 0)) := by
  rw [pageBegun_eq, Bool.decide_and, Bool.decide_eq_true]
  exact congrArg (x.prevDark && ·) (decide_eq_decide.mpr (by omega))

/-- R65: the cool counter brought up to date. -/
def State.cooled (s : State) (elapsed : Half) : State :=
  s.setPrint { s.print with cool := min 65535 (s.print.cool + elapsed.toNat) }

/-- R62, R64, R65: the head line of a latch, by the darkness of the line before and the cool counter. -/
theorem latched_eq {table : Heat} {dark : Prop} [Decidable dark]
    (hdark : (s.print.prevDark && s.print.pageBegun) = decide dark) : s.latched table = {
      line := s.print.headRec, plan := strobePlan s.print.params.budget s.print.headRec.blocks, ended := 0
      cycle := if strobePlan s.print.params.budget s.print.headRec.blocks = [] then .advancing else .firing
      pulse := min table.maximum (table.bands.getD (match s.sense.roleEntry .headTemp with
          | some e => e.reading / 16
          | none => 0) 0 + if dark ∨ table.interval < s.print.cool then table.boost else 0) } := by
  have hboost : boostHolds table (s.print.prevDark && s.print.pageBegun) s.print.cool
      = decide (dark ∨ table.interval < s.print.cool) := by
    rw [hdark, Bool.decide_or]
    rfl
  unfold State.latched heatPulse
  rw [hboost]
  have hpulse : (if decide (dark ∨ table.interval < s.print.cool) = true then table.boost else 0)
      = if dark ∨ table.interval < s.print.cool then table.boost else 0 := if_congr decide_eq_true_iff rfl rfl
  rw [hpulse]
  rfl

theorem closeUnterminated_cooled_open {elapsed : Half} (h : s.print.headRec.tag.pageStart = true → s.print.linesPrinted = 0
    ∧ s.print.linesSlewed = 0) :
    (s.cooled elapsed).closeUnterminated s.print.headRec.tag.pageStart = s.cooled elapsed := by
  refine (closeUnterminated_eq _).trans (if_neg ?_)
  rintro ⟨hstart, hp | hs⟩
  · exact hp (h hstart).1
  · exact hs (h hstart).2

theorem closeUnterminated_cooled_begun {elapsed : Half} (hstart : s.print.headRec.tag.pageStart = true)
    (h : s.print.linesPrinted ≠ 0 ∨ s.print.linesSlewed ≠ 0) :
    (s.cooled elapsed).closeUnterminated s.print.headRec.tag.pageStart = (s.cooled elapsed).pagePrinted false :=
  (closeUnterminated_eq _).trans (if_pos ⟨hstart, h⟩)

/-- R65, R71: a latch after the earlier page's cell: the counters are clear, and the line before it does not count. -/
theorem latched_fresh {table : Heat} (elapsed : Half) : ((s.cooled elapsed).pagePrinted false).latched table = {
    line := s.print.headRec, plan := strobePlan s.print.params.budget s.print.headRec.blocks, ended := 0
    cycle := if strobePlan s.print.params.budget s.print.headRec.blocks = [] then .advancing else .firing
    pulse := min table.maximum (table.bands.getD (match s.sense.roleEntry .headTemp with
        | some e => e.reading / 16
        | none => 0) 0 + if table.interval < min 65535 (s.print.cool + elapsed.toNat) then table.boost else 0) } := by
  have hsense : ((s.cooled elapsed).pagePrinted false).sense = s.sense := by simp [State.cooled]
  have hprint := congrArg State.print (pagePrinted_eq (s := s.cooled elapsed) rfl false)
  have hdark : (((s.cooled elapsed).pagePrinted false).print.prevDark && ((s.cooled elapsed).pagePrinted false).print.pageBegun)
      = decide False := by
    rw [hprint]
    exact Bool.and_false _
  rw [latched_eq hdark, hsense, hprint]
  simp only [false_or]
  rfl

theorem pagePrinted_cooled_cells (elapsed : Half) : ((s.cooled elapsed).pagePrinted false).cells =
    (s.handEvent .pagePrinted 0 .failed ([byte s.print.params.ring.val, byte ((if s.print.marginLoss then 1 else 0) + 0), 0]
      ++ twoBytes s.print.linesPrinted ++ twoBytes s.print.linesSlewed ++ [byte s.print.underruns])).cells := by
  rw [pagePrinted_eq (s := s.cooled elapsed) rfl false]
  have hcells := fun fields => congrArg State.cells (handEvent_setPrint s .pagePrinted 0 .failed fields .plain
    { s.print with cool := min 65535 (s.print.cool + elapsed.toNat) })
  exact hcells _

/-- R65: what a latch leaves. -/
structure Latches (s : State) (h : HeadLine) (t : State) : Prop where
  headLine : t.print.headLine = some h
  headSt : t.print.headSt = .empty
  st : t.print.st = s.print.st
  paper : t.paper = if h.plan = [] then s.advance s.print.params.k else s.paper
  mem : t.mem = s.mem
  rings : t.rings = s.rings

theorem latch_latches {u : State} {table : Heat} (hheat : s.tables.heat = some table) (hrest : s.paper.moving = false)
    (hpaper : u.paper = s.paper) (hground : u.ground = s.ground) (hrings : u.rings = s.rings)
    (hparams : u.print.params = s.print.params) (hst : u.print.st = s.print.st) :
    Latches s (u.latched table) u.latch := by
  have hheat' : u.tables.heat = some table := (congrArg (fun g : Ground => g.tables.heat) hground).trans hheat
  have hadvance : ∀ n, u.advance n = s.advance n := fun n => by
    have hprofile : u.profile s.print.params.profile = s.profile s.print.params.profile :=
      congrArg (fun g : Ground => g.tables.profiles.getD s.print.params.profile.val []) hground
    unfold State.advance
    rw [hpaper, hparams, hprofile]
  rw [latch_eq hheat' (by rw [hpaper]; exact hrest)]
  refine ⟨rfl, rfl, hst, ?_, congrArg Ground.mem hground, hrings⟩
  rw [← hpaper, ← hparams, ← hadvance]
  rfl

/-- R65: a latch on the page in progress, or on a page's first line. -/
theorem latch_cooled {table : Heat} (elapsed : Half) (hheat : s.tables.heat = some table) (hrest : s.paper.moving = false) :
    Latches s ((s.cooled elapsed).latched table) (s.cooled elapsed).latch ∧ (s.cooled elapsed).latch.cells = s.cells
      ∧ (s.cooled elapsed).latch.doc = s.doc := by
  refine ⟨latch_latches hheat hrest rfl rfl rfl rfl rfl, ?_⟩
  rw [latch_eq (s := s.cooled elapsed) hheat hrest]
  exact ⟨rfl, rfl⟩

/-- R65, R71: a latch after the earlier page's cell. -/
theorem latch_fresh {table : Heat} (elapsed : Half) (hheat : s.tables.heat = some table) (hrest : s.paper.moving = false) :
    let u := (s.cooled elapsed).pagePrinted false
    Latches s (u.latched table) u.latch ∧ u.latch.cells = u.cells ∧ u.latch.print.linesPrinted = 0
      ∧ u.latch.print.linesSlewed = 0 ∧ u.latch.print.underruns = 0 := by
  intro u
  have hprint := congrArg State.print (pagePrinted_eq (s := s.cooled elapsed) rfl false)
  have hground : u.ground = s.ground := by simp [u, State.cooled]
  have hpaper : u.paper = s.paper := by simp [u, State.cooled]
  have hheat' : u.tables.heat = some table := (congrArg (fun g : Ground => g.tables.heat) hground).trans hheat
  refine ⟨latch_latches hheat hrest hpaper hground (by simp [u, State.cooled])
    ((congrArg Print.params hprint).trans rfl) ((congrArg Print.st hprint).trans rfl), ?_⟩
  rw [latch_eq hheat' (by rw [hpaper]; exact hrest)]
  exact ⟨rfl, congrArg Print.linesPrinted hprint, congrArg Print.linesSlewed hprint, congrArg Print.underruns hprint⟩

/-- R70: a slew begins. -/
theorem slewBegin_of {w : Slew} (hfree : s.wordWaits .print = false) (hslew : s.print.slew = some w)
    (hslewing : s.print.slewing = none) (hst : s.print.st = .printing) (hend : s.print.ending = none) (hline : s.print.headLine = none)
    (hhead : s.print.headSt = .empty) (ha : s.print.bufA.st = .free) (hb : s.print.bufB.st = .free) (hrest : s.paper.moving = false)
    (howed : s.print.owed = 0) {t : State} (ht : s.closeUnterminated w.pageStart = t) :
    exec .slewBegin s = .next (((t.setUrgent false).setPrint { t.print with
      st := .slewing, slew := none, slewing := some w }).setPaper (s.advance (w.lines * s.print.params.k))) := by
  obtain ⟨hparams, hpaper, hground⟩ : t.print.params = s.print.params ∧ t.paper = s.paper ∧ t.ground = s.ground := by
    subst ht
    unfold State.closeUnterminated
    split
    · exact ⟨(congrArg (fun u : State => u.print.params) (pagePrinted_eq rfl false)).trans rfl, by simp, by simp⟩
    · exact ⟨rfl, rfl, rfl⟩
  have hbegins : exec .slewBegin s = .next (((t.setUrgent false).setPrint { t.print with
      st := .slewing, slew := none, slewing := some w }).paperMove (w.lines * t.print.params.k)) := by
    subst ht
    show execSlewBegin s = _
    unfold execSlewBegin
    rw [hslew]
    refine if_pos ⟨hst, hend, ?_, ?_, howed, hfree⟩
    · simp [Print.slewNext, hslew, hslewing, hline, hhead, ha, hb]
    · simp [Channel.atRest, hrest]
  rw [hbegins, hparams, paperMove_advance hrest]
  · exact hpaper
  · exact hparams
  · exact hground

/-! ### The end of a move, row by row -/

section
variable {h : HeadLine} {w : Slew} {z : Print}

/-- R71: a page's end after an item, in a stream that goes on. -/
theorem released_pageEnds {u : State} (hend : u.print.ending = none) (hrest : s.paper.moving = false) (hpaper : u.paper = s.paper)
    (hparams : u.print.params = s.print.params) (hground : u.ground = s.ground) : u.pageEnds =
      if 0 < s.print.params.trailing then ((u.setUrgent false).setPrint { u.print with st := .trailingFeed }).setPaper
        (s.advance (s.print.params.trailing * s.print.params.k))
      else (u.pagePrinted true).takePending (fun v =>
        (v.setUrgent false).setPrint { v.print with st := if v.print.ready then .printing else .waitLine }) := by
  rw [pageEnds_running hend, hparams, feedEnd_running hend]
  refine ite_congr rfl (fun _ => paperMove_advance hrest ?_ ?_ ?_ _) fun _ => rfl
  · exact hpaper
  · exact hparams
  · exact hground

theorem printMoveEnd_completes {item : Item} (hmoving : s.print.movingItem = some item) (hend : s.print.ending = none)
    (hp : s.print.st ≠ .paused) (hitem : s.print.interrupted = none) (htaken : s.paper.requested.getD 0 - s.paper.taken = 0) :
    s.printMoveEnd = s.completeItem item (decide (0 < s.print.owed)) := by
  rw [printMoveEnd_of hmoving]
  exact (if_neg (by rw [hend]; decide)).trans ((if_neg hp).trans ((if_neg (by rw [hitem]; decide)).trans (if_pos htaken)))

theorem printMoveEnd_paused {item : Item} (hmoving : s.print.movingItem = some item) (hend : s.print.ending = none)
    (hp : s.print.st = .paused) :
    s.printMoveEnd = s.setPrint { s.print with owed := s.paper.requested.getD 0 - s.paper.taken } := by
  rw [printMoveEnd_of hmoving]
  exact (if_neg (by rw [hend]; decide)).trans (if_pos hp)

/-- R76: the rest of an interrupted item's move begins. -/
theorem beginOwed_advance {n : Nat} (howed : n ≠ 0) (hrest : s.paper.moving = false) (item : Item) :
    (s.setPrint { s.print with owed := n }).beginOwed item = (s.setPrint { s.print with
      owed := n, interrupted := none, headLine := s.print.headLine.map (fun h => { h with cycle := .advancing }) }).setPaper
      (s.advance n) := by
  refine (beginOwed_eq rfl ?_ _).trans ?_
  · exact hrest
  · exact if_neg howed

theorem printMoveEnd_resumed {item : Item} (hmoving : s.print.movingItem = some item) (hend : s.print.ending = none)
    (hp : s.print.st ≠ .paused) (hitem : s.print.interrupted.isSome = true)
    (howed : 0 < s.paper.requested.getD 0 - s.paper.taken) (hrest : s.paper.moving = false) :
    s.printMoveEnd = (s.setPrint { s.print with
      owed := s.paper.requested.getD 0 - s.paper.taken, interrupted := none
      headLine := s.print.headLine.map (fun h => { h with cycle := .advancing }) }).setPaper
      (s.advance (s.paper.requested.getD 0 - s.paper.taken)) := by
  rw [printMoveEnd_of hmoving]
  refine (if_neg (by rw [hend]; decide)).trans ((if_neg hp).trans ((if_pos hitem).trans ?_))
  exact beginOwed_advance howed.ne' hrest item

theorem printMoveEnd_ending {item : Item} (hmoving : s.print.movingItem = some item) (hend : s.print.ending.isSome = true) :
    s.printMoveEnd = s.endingMoveEnd item (s.paper.requested.getD 0 - s.paper.taken) := by
  rw [printMoveEnd_of hmoving]
  exact if_pos hend

/-- R77: a line of an ending stream is released where its steps were all taken, goes on where it was taken up again, and else is
dropped. -/
theorem endingMoveEnd_latched (hend : s.print.ending.isSome = true) (hrest : s.paper.moving = false)
    (hline : s.print.headLine = some h) (n : Nat) : s.endingMoveEnd .line n =
      if n = 0 ∧ s.print.cut = false then
        (if h.line.tag.endOfPage then (s.lineReleased (s.print.itemDone s.print.pendHot) h).pagePrinted true
         else s.lineReleased (s.print.itemDone s.print.pendHot) h)
      else if s.print.interrupted = some .line ∧ s.print.st ≠ .paused ∧ s.print.cut = false then
        (s.setPrint { s.print with owed := n, interrupted := none, headLine := some { h with cycle := .advancing } }).setPaper
          (s.advance n)
      else s.setPrint { s.print with owed := 0, interrupted := none, headLine := none } := by
  rw [endingMoveEnd_line]
  refine ite_congr rfl (fun _ => ?_) fun hnot => ite_congr rfl (fun hresumed => ?_) fun _ => rfl
  · rw [completeItem_line hline, hotAfter_item, pageEnds_ending (by rw [lineReleased_ending]; exact hend),
      itemFollow_ending (by rw [lineReleased_ending]; exact hend)]
  · obtain ⟨-, -, huncut⟩ := hresumed
    have howed : n ≠ 0 := fun hzero => hnot ⟨hzero, huncut⟩
    have hmap : s.print.headLine.map (fun h => { h with cycle := .advancing }) = some { h with cycle := .advancing } := by
      rw [hline]
      rfl
    rw [beginOwed_advance howed hrest, hmap]

/-- R77: a slew of an ending stream passes its whole lines. -/
theorem endingMoveEnd_slewing (hend : s.print.ending.isSome = true) (hslew : s.print.slewing = some w) (n : Nat) {passed : Nat}
    (hpassed : passed = if n = 0 then w.lines else (w.lines * s.print.params.k - n) / s.print.params.k) :
    s.endingMoveEnd .slew n = if passed = w.lines ∧ w.endsPage = true then
        (s.slewReleased (s.print.itemDone s.print.pendHot) passed).pagePrinted true
      else s.slewReleased (s.print.itemDone s.print.pendHot) passed := by
  have hends : ∀ m, (s.slewReleased (s.print.itemDone s.print.pendHot) m).print.ending.isSome = true := fun _ => hend
  rw [endingMoveEnd_slew hslew, completeItem_slew hslew, hotAfter_item, slewEnd_eq (s := s)
    (z := s.print.itemDone s.print.pendHot) rfl, hpassed]
  by_cases hzero : n = 0
  · rw [if_pos hzero, if_pos hzero, pageEnds_ending (hends _), itemFollow_ending (hends _)]
    exact if_congr (and_iff_right rfl).symm rfl rfl
  · rw [if_neg hzero, if_neg hzero, pageEnds_ending (hends _), itemFollow_ending (hends _)]

end

/-! ### The end of the stream (R77) -/

theorem finalStream_eq (r : PrintReason) : s.finalStream r = s.handEvent .stream 0
    (match r with
      | .paper | .cover | .command | .stopped => .done
      | .supply | .clock => .failed
      | .aborted => .aborted)
    ([1, byte s.print.params.ring.val, 0, byte (printReasonCode r), if s.print.marginLoss then 1 else 0]
      ++ twoBytes s.print.linesPrinted ++ twoBytes s.print.linesSlewed ++ [byte s.print.underruns]) := by
  have hloss : byte (flag s.print.marginLoss 0) = if s.print.marginLoss then 1 else 0 := by cases s.print.marginLoss <;> rfl
  unfold State.finalStream
  dsimp only
  rw [hloss]
  rfl

/-- R77: the stream OFF, its ring's consumer side detached and the PAPER channel given back. -/
def State.printOff (s : State) : State :=
  ((((s.finalStream (s.print.ending.getD .stopped)).setUrgent false).attachConsumer s.print.params.ring false).setPaper
    { s.paper with owner := .host }).setPrint {}

theorem printOff_ring : s.printOff.ring s.print.params.ring = { s.ring s.print.params.ring with consAttached := false } := by
  have hring : (s.finalStream (s.print.ending.getD .stopped)).ring s.print.params.ring = s.ring s.print.params.ring :=
    State.handEvent_ring ..
  refine Eq.trans (State.setRing_ring ((s.finalStream (s.print.ending.getD .stopped)).setUrgent false) _ _) ?_
  exact congrArg (fun y : Ring => { y with consAttached := false }) hring

theorem printOff_detached : (s.printOff.ring s.print.params.ring).consAttached = false := by rw [printOff_ring]

theorem printOff_take : (s.printOff.ring s.print.params.ring).take = (s.ring s.print.params.ring).take := by rw [printOff_ring]

theorem printOff_print : s.printOff.print = {} := rfl

theorem printOff_paper : s.printOff.paper = { s.paper with owner := .host } := rfl

theorem printOff_urgent : s.printOff.pmc.urgent = false := rfl

theorem printOff_cells {reason : PrintReason} (h : s.print.ending = some reason) : s.printOff.cells = (s.finalStream reason).cells := by
  have hreason : s.print.ending.getD .stopped = reason := by rw [h]; rfl
  show (s.finalStream (s.print.ending.getD .stopped)).cells = _
  rw [hreason]

theorem printOff_mem : s.printOff.mem = s.mem := congrArg Ground.mem (State.handEvent_ground ..)

theorem printOff_doc : s.printOff.doc = s.doc := State.handEvent_doc ..

theorem printOff_scan : s.printOff.scan = s.scan := State.handEvent_scan ..

theorem printStreamOff_of (hon : s.print.st ≠ .off) (hend : s.print.ending.isSome = true) (hline : s.print.headLine = none)
    (hrest : s.paper.moving = false) (hfetch : s.print.fetch = .idle) (hslewing : s.print.slewing = none) :
    exec .printStreamOff s = .next s.printOff := by
  have hprint : (s.finalStream (s.print.ending.getD .stopped)).print = s.print := State.handEvent_print ..
  have hpaper : (s.finalStream (s.print.ending.getD .stopped)).paper = s.paper := State.handEvent_paper ..
  refine (if_pos ?_).trans ?_
  · simp [State.printMayEnd, Print.active, Channel.atRest, hon, hend, hline, hrest, hfetch, hslewing]
  · unfold State.printOff
    rw [← hpaper, hprint]
    rfl

end

end Sys2Proof.Machine

namespace Sys2Proof.Proofs

open Sys2Proof Sys2Proof.Machine

/-- Settles O43: the line cycle, row by row, and the ends of its moves by what is under way. -/
theorem lineCycleRows : Obligations.LineCycleRows := by
  intro s elapsed table h w x advance printed low cell pend goOn fed page y line slewed notTaken feeds free
  have hpend : ∀ go t, State.takePending t go = pend go t := fun _ _ => rfl
  have hpage : ∀ t : State, (if 0 < x.params.trailing then ((t.setUrgent false).setPrint { t.print with st := .trailingFeed }).setPaper
        (s.advance (x.params.trailing * x.params.k))
      else (t.pagePrinted true).takePending (fun v =>
        (v.setUrgent false).setPrint { v.print with st := if v.print.ready then .printing else .waitLine })) = page t := fun t =>
    ite_congr rfl (fun _ => rfl) fun _ => hpend _ _
  have hgoOn : ∀ resumed, (fun u : State => u.printGoOn resumed) = goOn resumed := fun resumed => funext fun u => printGoOn_eq resumed
  refine ⟨fun hfree hst hend hloaded hline hrest howed hslew hzone hheat hstart => ?_,
    fun hfree hst hend hloaded hline hrest howed hslew hzone hheat hstart hbegun => ?_, pagePrinted_eq rfl, phaseEnd_cut,
    fun hline hfiring hcut hitem => ⟨phaseEnd_paused hline hfiring hcut hitem, phaseEnd_resumed hline hfiring hcut hitem⟩,
    fun hline hfiring hcut hitem => ⟨phaseEnd_gap hline hfiring hcut hitem, phaseEnd_last hline hfiring hcut hitem⟩,
    nextPhaseStart_of, fun hfree hslew hslewing hst hend hline hhead ha hb hrest howed => ?_, fun hrest hend resumed => ?_,
    fun hend hp hitem htaken => ?_, fun hend hitem => ?_, fun hend hrest => ?_, fun hon hend hline hrest hfetch hslewing => ?_⟩
  · intro band first plan boost
    obtain ⟨⟨hhead, hempty, hprinting, hpaper, hmem, hrings⟩, hcells, hdoc⟩ := latch_cooled elapsed hheat hrest
    rw [latched_eq (s := s.cooled elapsed) (darkBefore_eq x)] at hhead hpaper
    refine ⟨(s.cooled elapsed).latch, ?_, hhead, hempty, hprinting.trans hst, hpaper, hmem, hrings, hcells, hdoc⟩
    rw [lineLatch_of elapsed hfree hst hend hloaded hline hrest howed hslew hzone]
    exact congrArg (fun t => Host.Outcome.next (State.latch t)) (closeUnterminated_cooled_open hstart)
  · intro band plan
    obtain ⟨⟨hhead, hempty, hprinting, hpaper, hmem, hrings⟩, hcells, hlp, hls, hunder⟩ := latch_fresh elapsed hheat hrest
    rw [latched_fresh] at hhead hpaper
    refine ⟨((s.cooled elapsed).pagePrinted false).latch, ?_, hhead, hempty, hprinting.trans hst, hlp, hls, hunder,
      hcells.trans (pagePrinted_cooled_cells elapsed), hpaper, hmem, hrings⟩
    rw [lineLatch_of elapsed hfree hst hend hloaded hline hrest howed hslew hzone]
    exact congrArg (fun t => Host.Outcome.next (State.latch t)) (closeUnterminated_cooled_begun hstart hbegun)
  · exact slewBegin_of hfree hslew hslewing hst hend hline hhead ha hb hrest howed (closeUnterminated_eq _)
  · intro z
    have hz : x.itemDone (s.hotAfter resumed) = z := by
      rw [hotAfter_running hend]
      rfl
    have hzend : z.ending = none := hend
    have hline' : s.lineReleased z h = line h z := rfl
    have hslewed : s.slewReleased z w.lines = slewed w.lines z := rfl
    refine ⟨fun hline => ?_, fun hslew => ?_, ?_⟩
    · rw [completeItem_line hline, hz, released_pageEnds ((lineReleased_ending z h).trans hzend) hrest (lineReleased_paper z h)
        (lineReleased_params z h) (lineReleased_ground z h), itemFollow_running ((lineReleased_ending z h).trans hzend), hgoOn,
        hline']
      exact ite_congr rfl (fun _ => hpage _) fun _ => hpend _ _
    · rw [completeItem_slew hslew, hz, released_pageEnds ((slewReleased_ending z w.lines).trans hzend) hrest
        (slewReleased_paper z w.lines) (slewReleased_params z w.lines) (slewReleased_ground z w.lines),
        itemFollow_running ((slewReleased_ending z w.lines).trans hzend), hgoOn, hslewed]
      exact ite_congr rfl (fun _ => hpage _) fun _ => hpend _ _
    · rw [completeItem_feed, hz, feedEnd_running (s := s.setPrint z) hzend]
      exact hpend _ _
  · exact ⟨fun hline => printMoveEnd_completes (movingItem_of_line hline) hend hp hitem htaken,
      fun hline hslew => printMoveEnd_completes (movingItem_of_slew hline hslew) hend hp hitem htaken,
      fun hfeeds hst => printMoveEnd_completes (movingItem_of_feed hfeeds.1 hfeeds.2 (.inl hst)) hend hp hitem htaken⟩
  · obtain ⟨item, hmoving⟩ := movingItem_isSome hitem
    exact ⟨printMoveEnd_paused hmoving hend, printMoveEnd_resumed hmoving hend⟩
  · refine ⟨fun hline => ?_, fun hline hslew => ?_, fun hfeeds hst => ?_⟩
    · rw [printMoveEnd_ending (movingItem_of_line hline) hend, endingMoveEnd_latched hend hrest hline]
      rfl
    · intro n
      rw [printMoveEnd_ending (movingItem_of_slew hline hslew) hend, endingMoveEnd_slewing hend hslew notTaken (passed := n) rfl]
      rfl
    · rw [printMoveEnd_ending (movingItem_of_feed hfeeds.1 hfeeds.2 hst) hend, endingMoveEnd_feed hend]
  · exact ⟨s.printOff, printStreamOff_of hon hend hline hrest hfetch hslewing, printOff_print, printOff_paper, printOff_urgent,
      printOff_detached, fun reason hreason => (printOff_cells hreason).trans (congrArg State.cells (finalStream_eq reason)),
      printOff_take, printOff_mem, printOff_doc, printOff_scan⟩

end Sys2Proof.Proofs
end
